-- ==== Sys2Proof/Word.lean ====
section
/-! DEFINITION. The words of the FOC-24: characters, texts, and the small fixed families of things the part has
(four tracks, zones and lamps; six stations; four message classes). -/

namespace Sys2Proof

/-- An 8-bit character of a port or byte of the store (R210). -/
abbrev Byte := BitVec 8

/-- A text: one byte per character (R210). -/
abbrev Text := List Byte

/-- Four like things, numbered 0 to 3: the tracks, the zones, the lamps. -/
structure Quad (α : Type) where
  q0 : α
  q1 : α
  q2 : α
  q3 : α
deriving DecidableEq, Repr

/-- Six like things: station n is number n − 1. -/
structure Hex (α : Type) where
  h1 : α
  h2 : α
  h3 : α
  h4 : α
  h5 : α
  h6 : α
deriving DecidableEq, Repr

variable {α β : Type}

/-- The four things, one value each. -/
def Quad.all (a : α) : Quad α := ⟨a, a, a, a⟩

def Quad.get (q : Quad α) (i : Fin 4) : α :=
  match i with
  | 0 => q.q0
  | 1 => q.q1
  | 2 => q.q2
  | 3 => q.q3

def Quad.set (q : Quad α) (i : Fin 4) (a : α) : Quad α :=
  match i with
  | 0 => { q with q0 := a }
  | 1 => { q with q1 := a }
  | 2 => { q with q2 := a }
  | 3 => { q with q3 := a }

def Quad.map (f : α → β) (q : Quad α) : Quad β := ⟨f q.q0, f q.q1, f q.q2, f q.q3⟩

def Quad.mapIdx (f : Fin 4 → α → β) (q : Quad α) : Quad β := ⟨f 0 q.q0, f 1 q.q1, f 2 q.q2, f 3 q.q3⟩

def Quad.toList (q : Quad α) : List α := [q.q0, q.q1, q.q2, q.q3]

def Hex.all (a : α) : Hex α := ⟨a, a, a, a, a, a⟩

def Hex.get (q : Hex α) (i : Fin 6) : α :=
  match i with
  | 0 => q.h1
  | 1 => q.h2
  | 2 => q.h3
  | 3 => q.h4
  | 4 => q.h5
  | 5 => q.h6

def Hex.set (q : Hex α) (i : Fin 6) (a : α) : Hex α :=
  match i with
  | 0 => { q with h1 := a }
  | 1 => { q with h2 := a }
  | 2 => { q with h3 := a }
  | 3 => { q with h4 := a }
  | 4 => { q with h5 := a }
  | 5 => { q with h6 := a }

def Hex.map (f : α → β) (q : Hex α) : Hex β := ⟨f q.h1, f q.h2, f q.h3, f q.h4, f q.h5, f q.h6⟩

def Hex.toList (q : Hex α) : List α := [q.h1, q.h2, q.h3, q.h4, q.h5, q.h6]

/-- The tracks 0 to 3, the zones 0 to 3, the lamps 0 to 3, in order. -/
def fours : List (Fin 4) := [0, 1, 2, 3]

/-- The stations, in order; element n is station n + 1. -/
def sixes : List (Fin 6) := [0, 1, 2, 3, 4, 5]

/-- AM or PM: the session of a register (00, Terms). -/
inductive Session where
  | am
  | pm
deriving DecidableEq, Repr

/-- The source of a bell event (section 3.2): a plan segment, numbered from 0 here, the warning, or the day end. -/
inductive BellSource where
  | segment (n : Nat)
  | warning
  | dayEnd
deriving DecidableEq, Repr

end Sys2Proof
end

