-- ==== Sys2Proof/Config.lean ====
section
/-! DEFINITION. What is fixed for the part: the sizes of its collections, and the free values the spec leaves open. -/

namespace Sys2Proof.Config

/-- FREE VALUE (DESIGN CHOICE, log 2). The n-th byte that a store page is found to hold after an erase or a program was cut off by a
reset (R179: "left in whatever condition the cut left it"), or after a page failed its last check (R186). It has no
body: nothing can be proved of it. -/
opaque freeByte : Nat → Byte

/-- FREE VALUE (DESIGN CHOICE, log 14). Whether the rate of a divisor whose quotient is no whole number is reported rounded up (R74 gives no
rounding). It has no body. -/
opaque rateUp : Nat → Bool

/-- The largest value of a 32-bit saturating counter (00, Conventions). -/
def counterMax : Nat := 4294967295

/-- The pupil table's entries (R1). -/
def pupils : Nat := 2400
/-- The group table's entries (section 1.2). -/
def groups : Nat := 120
/-- The contact table's slots, three for each pupil (section 1.3). -/
def contacts : Nat := 7200
/-- The most pupils one number serves (R10). -/
def senderLimit : Nat := 8

/-- Shared descriptors of the pool (R135). -/
def sharedDescriptors : Nat := 48
/-- Shared segments of the pool (R135). -/
def sharedSegments : Nat := 96
/-- Characters of one segment (R135). -/
def segmentChars : Nat := 48
/-- Reserve areas (R135). -/
def reserveAreas : Nat := 16
/-- The longest message text (R138). -/
def textMax : Nat := 288

/-- Slips the slip queue holds (R88). -/
def slipQueueMax : Nat := 64
/-- Records a station's holding queue holds (R61). -/
def holdingMax : Nat := 2
/-- SHOW records a station's output queue holds (R61). -/
def showMax : Nat := 4
/-- Entries of the office entry queue (R75). -/
def officeMax : Nat := 2
/-- Answers of the office answer list (R79). -/
def answersMax : Nat := 4
/-- Entries of the conflict list (R120). -/
def conflictMax : Nat := 32
/-- Entries of the advance report list (R126). -/
def advanceMax : Nat := 128
/-- Entries of the notice wait list (R132). -/
def waitMax : Nat := 32
/-- Frames of the waiting queue (R194). -/
def frameQueueMax : Nat := 4

/-- Bytes of a store page (R178). -/
def pageBytes : Nat := 1024
/-- Store pages (section 10.2). -/
def storePages : Nat := 1540
/-- The settings region's check page (R205). -/
def checkPage : Nat := 255
/-- The first directory page (section 10.2). -/
def directoryPage : Nat := 256
/-- The store page of archive index 0 (R178). -/
def archiveBase : Nat := 260
/-- Archive pages (R178). -/
def archivePages : Nat := 1280
/-- Directory slots (R182). -/
def directorySlots : Nat := 32
/-- Entries of the bad page table (R179). -/
def badPagesMax : Nat := 64
/-- Day records of one page (R181). -/
def recordsPerPage : Nat := 64
/-- What an erased byte reads as (R178; "a page of all FFh reads blank", section 12.6). -/
def blankByte : Byte := 0xFF#8

end Sys2Proof.Config
end

