-- ==== Sys2Proof/Syntax.lean ====
section
/-! DEFINITION. The commands of the FOC-24: one constructor of Instr per row of spec/opcode_table.json, and the
host requests as the link takes them (Request). -/

namespace Sys2Proof

/-- A date as its three bytes carry it: day, month, and year less 2000 (R210). -/
structure RawDate where
  day : Nat
  month : Nat
  year : Nat
deriving DecidableEq, Repr

/-- A time hh:mm:ss as its three bytes carry it (R210). -/
structure RawTime where
  hour : Nat
  minute : Nat
  second : Nat
deriving DecidableEq, Repr

/-- One entry of REGISTER SUBMIT as its bytes carry it (section 12.2). -/
structure RawEntry where
  pupil : Nat
  mark : Nat
  minutes : Nat
deriving DecidableEq, Repr

/-- What CONFLICT RESOLVE asks for (R124). -/
inductive RawResolve where
  | dismiss
  | settle (mark minutes : Nat) (arrival : Option RawTime)
deriving DecidableEq, Repr

/-- What MESSAGE SEND sends (R169): a template by number, or a text. -/
inductive RawSend where
  | template (n : Nat)
  | text (t : Text)
deriving DecidableEq, Repr

/-- A host request as its body's fields give it (section 12.2, R211). Fields are the numbers the bytes hold, before any
check of the request's own rule; TABLE WRITE keeps its body, since the cursor's table says how to read it (R200). -/
inductive Request where
  | hello
  | conditions
  | attentionMask (set : Nat)
  | reset (confirm : Nat)
  | lampForce (lamp force : Nat)
  | tableSelect (table index mode : Nat)
  | tableRead (count : Nat)
  | tableWrite (body : List Byte)
  | settingsSave
  | pupilFind (key value : Nat)
  | senderFind (number : Text)
  | clockSet (date : RawDate) (time : RawTime)
  | dayOpen (date : RawDate) (kinds : Quad Nat) (delays : Option (Quad Nat))
  | dayClose (force : Nat)
  | dayStatus
  | openingDelay (track delay : Nat)
  | earlyClose (track minutes : Nat)
  | planQuery (track : Nat) (trial : Option Nat)
  | zoneRing (zone : Nat)
  | zoneCheck (zone : Nat)
  | bellLog (zone : Nat)
  | zoneStatus (zone : Nat)
  | stationResume (station : Nat)
  | stationStatus (station : Nat)
  | deskArrival (key value : Nat) (arrival : Option RawTime)
  | deskAnswers
  | slipReprint (pupil session : Nat)
  | slipStatus
  | deskStatistics (clear : Nat)
  | registerSubmit (group session : Nat) (entries : List RawEntry)
  | markSet (pupil session mark minutes lock : Nat) (arrival : Option RawTime)
  | markQuery (pupil session : Nat)
  | groupStatus (session group : Nat)
  | conflictList (start : Nat)
  | conflictResolve (id : Nat) (what : RawResolve)
  | advanceList (start : Nat)
  | advanceCancel (date : RawDate) (pupil sessions : Nat)
  | poolStatus (clear : Nat)
  | messageSend (pupil session : Nat) (what : RawSend)
  | messageList (start : Nat)
  | messageCancel (number : Nat)
  | inboundNext
  | gatewayStatus (clear : Nat)
  | archiveDirectory (start : Nat)
  | archiveRead (date : RawDate) (index count : Nat)
  | storeStatus
  /-- A kind that names no request (R195). -/
  | unknownKind (kind : Nat)
  /-- A request whose body's length does not suit its kind (R195). -/
  | badBody (kind : Nat)
deriving DecidableEq, Repr

/-- The commands. A host request command says that a good host frame carrying the request, under the given tag, completes
on the link (DEDUCED, log 3). Zones, tracks and lamps are 0 to 3; station n of the spec is number n − 1. -/
inductive Instr where
  | hello (tag : Nat)
  | conditions (tag : Nat)
  | attentionMask (tag set : Nat)
  | reset (tag confirm : Nat)
  | lampForce (tag lamp force : Nat)
  | tableSelect (tag table index mode : Nat)
  | tableRead (tag count : Nat)
  | tableWrite (tag : Nat) (body : List Byte)
  | settingsSave (tag : Nat)
  | pupilFind (tag key value : Nat)
  | senderFind (tag : Nat) (number : Text)
  | clockSet (tag : Nat) (date : RawDate) (time : RawTime)
  | dayOpen (tag : Nat) (date : RawDate) (kinds : Quad Nat) (delays : Option (Quad Nat))
  | dayClose (tag force : Nat)
  | dayStatus (tag : Nat)
  | openingDelay (tag track delay : Nat)
  | earlyClose (tag track minutes : Nat)
  | planQuery (tag track : Nat) (trial : Option Nat)
  | zoneRing (tag zone : Nat)
  | zoneCheck (tag zone : Nat)
  | bellLog (tag zone : Nat)
  | zoneStatus (tag zone : Nat)
  | stationResume (tag station : Nat)
  | stationStatus (tag station : Nat)
  | deskArrival (tag key value : Nat) (arrival : Option RawTime)
  | deskAnswers (tag : Nat)
  | slipReprint (tag pupil session : Nat)
  | slipStatus (tag : Nat)
  | deskStatistics (tag clear : Nat)
  | registerSubmit (tag group session : Nat) (entries : List RawEntry)
  | markSet (tag pupil session mark minutes lock : Nat) (arrival : Option RawTime)
  | markQuery (tag pupil session : Nat)
  | groupStatus (tag session group : Nat)
  | conflictList (tag start : Nat)
  | conflictResolve (tag id : Nat) (what : RawResolve)
  | advanceList (tag start : Nat)
  | advanceCancel (tag : Nat) (date : RawDate) (pupil sessions : Nat)
  | poolStatus (tag clear : Nat)
  | messageSend (tag pupil session : Nat) (what : RawSend)
  | messageList (tag start : Nat)
  | messageCancel (tag number : Nat)
  | inboundNext (tag : Nat)
  | gatewayStatus (tag clear : Nat)
  | archiveDirectory (tag start : Nat)
  | archiveRead (tag : Nat) (date : RawDate) (index count : Nat)
  | storeStatus (tag : Nat)
  | unknownKind (tag kind : Nat)
  | hostFrame (kind tag : Nat) (body : List Byte) (check : Byte)
  | hostFramingCharacter
  | hostLengthError (length : Nat)
  | hostFrameTimeout
  | hostFrameSent
  | powerOnReset (strapHigh : Bool)
  | pinReset (strapHigh : Bool)
  | settingsLoadDone
  /-- `peak` is each zone's greatest sensed current, in mA, during the second that ends (DESIGN CHOICE, log 6). -/
  | secondEvent (peak : Quad Nat)
  | minuteEvent
  | midnightEvent
  | segmentBegin (track : Fin 4) (segment : Nat)
  | dayEnd (track : Fin 4)
  | sessionClose (track : Fin 4) (session : Session)
  | alertDue (pupil : Nat) (session : Session)
  | bellEventDue (zone : Fin 4) (source : BellSource)
  | ringEnd (zone : Fin 4)
  /-- For the last `ms` milliseconds of the ring the zone's sensed current stayed at or under `peak` mA. -/
  | openFault (zone : Fin 4) (peak ms : Nat)
  /-- For the last `ms` milliseconds of the ring the zone's sensed current stayed at or over `least` mA. -/
  | overload (zone : Fin 4) (least ms : Nat)
  /-- For the last `ms` milliseconds of the probe the zone's sensed current stayed at or over `least` mA. -/
  | checkShort (zone : Fin 4) (least ms : Nat)
  /-- `peak` is the greatest sensed current, in mA, of the probe's last second. -/
  | probeEnd (zone : Fin 4) (peak : Nat)
  | arrivalRecord (station : Fin 6) (kind sequence : Byte) (code : Nat) (check : Byte)
  | stationFramingError (station : Fin 6)
  | recordAbandoned (station : Fin 6)
  | holdOff (station : Fin 6)
  | showSent (station : Fin 6)
  | classificationComplete
  | printerReady
  | paperOut
  | slipRecordSent
  | printerStall
  | waitEntryExpiry (position : Nat)
  | ready (window status : Nat)
  | result (tag outcome : Nat)
  | inbound (sender text : Text)
  | gatewayBadRecord
  | gatewayRecordAbandoned
  | gatewayRecordSent
  | linkLoss
  | deliveryTimeout (tag : Nat)
  | retryDelay (number : Nat)
  | messageLifetime (number : Nat)
  | pageEraseDone
  | blankCheckDone (blank : Bool)
  | pageProgramDone
  | pageVerifyDone (agrees : Bool)
  | pageReadDone
  | lampStretch (lamp : Fin 4)
  | stationCharacter (station : Fin 6) (c : Byte)
  | hostCharacter (c : Byte)
  | gatewayCharacter (c : Byte)
  | lampFlashPhase
deriving DecidableEq, Repr

end Sys2Proof
end

