-- ==== Sys2Proof/Machine/Types.lean ====
section
/-! DEFINITION. The kinds of data that State is made of, block by block, with the manual's names. -/

namespace Sys2Proof.Machine

open Sys2Proof

/-! ## Clock and calendar (02) -/

/-- A date of 2000 to 2099 (R16). -/
structure Date where
  day : Nat
  month : Nat
  year : Nat
deriving DecidableEq, Repr

/-- A date and a time of day in seconds. -/
structure Stamp where
  date : Date
  secs : Nat
deriving DecidableEq, Repr

/-- The Clock (R16). Weekdays run from Monday 0 to Sunday 6. -/
structure Clock where
  date : Date
  weekday : Nat
  secs : Nat
  isSet : Bool
deriving DecidableEq, Repr

/-! ## Settings tables -/

/-- A sparse table: entries by index, indexes strictly rising, none equal to what an unlisted index reads as. -/
abbrev Tab (α : Type) := List (Nat × α)

/-- A pupil entry (R1). -/
structure Pupil where
  inUse : Bool
  short : Nat
  badge : Nat
  name : Text
  group : Nat
deriving DecidableEq, Repr

/-- A group entry (R6). -/
structure Group where
  code : Text
  track : Fin 4
  zone : Fin 4
  lateNotices : Bool
deriving DecidableEq, Repr

/-- TEXT or VOICE (R8). -/
inductive Channel where
  | text
  | voice
deriving DecidableEq, Repr

/-- A contact slot (R8). -/
structure Contact where
  inUse : Bool
  number : Text
  first : Channel
  second : Option Channel
  notifyAlert : Bool
  notifyNotice : Bool
  acceptsReports : Bool
deriving DecidableEq, Repr

inductive DayKind where
  | normal
  | short
  | exam
  | event
deriving DecidableEq, Repr

inductive SegKind where
  | registration
  | lesson
  | break_
  | lunch
  | assembly
deriving DecidableEq, Repr

inductive StartBell where
  | silent
  | start
  | change
deriving DecidableEq, Repr

/-- A segment of a stored plan (section 2.3). -/
structure Segment where
  kind : SegKind
  nominal : Nat
  minimum : Nat
  compressible : Bool
  bell : StartBell
  quiet : Bool
  point : Option Session
deriving DecidableEq, Repr

/-- A stored plan (section 2.3). -/
structure Plan where
  start : Nat
  segs : List Segment
  grace : Nat
  kAm : Nat
  kPm : Nat
  allowance : Nat
  warning : Nat
deriving DecidableEq, Repr

/-- A zone entry (R41). Durations are in seconds, the filter in steps of 100 ms. -/
structure ZoneCfg where
  track : Option (Fin 4)
  start : Nat
  change : Nat
  warning : Nat
  dayEnd : Nat
  manual : Nat
  level : Nat
  filter : Nat
  auto : Bool
deriving DecidableEq, Repr

/-- A station entry (R58). -/
structure StationCfg where
  enabled : Bool
  target : Nat
  divisor : Nat
  holdOff : Nat
deriving DecidableEq, Repr

inductive LampSource where
  | off
  | slipQueueNotEmpty
  | dueAlerts
  | conflicts
  | gatewayLinkDown
  | zoneFaultActive
  | stationHeldAny
  | poolOnReserve
  | dayOpen
  | printerStalled
deriving DecidableEq, Repr

inductive LampMode where
  | solid
  | slow
  | fast
deriving DecidableEq, Repr

/-- A lamp entry (R204). -/
structure LampCfg where
  source : LampSource
  mode : LampMode
  stretch : Nat
deriving DecidableEq, Repr

/-- The four message classes (R134). -/
inductive MsgClass where
  | alert
  | notice
  | report
  | receipt
deriving DecidableEq, Repr

/-- One thing for each message class. -/
structure PerClass (α : Type) where
  alert : α
  notice : α
  report : α
  receipt : α
deriving DecidableEq, Repr

/-- The OPTIONS entry (section 11.3). -/
structure Options where
  alertDelay : Nat
  threshold : Nat
  credits : PerClass Nat
  fallback : Nat
  retry : Nat
  timeout : Nat
  noticeLife : Nat
  receiptLife : Nat
  receipts : Bool
deriving DecidableEq, Repr

/-- The settings tables (R207). -/
structure Settings where
  pupils : Tab Pupil
  contacts : Tab Contact
  groups : Tab Group
  plans : Tab Plan
  zones : Quad ZoneCfg
  stations : Hex StationCfg
  templates : Tab Text
  lamps : Quad LampCfg
  options : Options
deriving DecidableEq, Repr

/-! ## Day Planner (02) -/

inductive DayState where
  | closed
  | opening
  | opened
  | closing
deriving DecidableEq, Repr

inductive TrackState where
  | planned
  | running
  | ended
deriving DecidableEq, Repr

/-- A segment of a plan in force: the stored fields, the current length and the begun flag (section 2.4). -/
structure SegIF where
  seg : Segment
  len : Nat
  begun : Bool
deriving DecidableEq, Repr

/-- A track's plan in force, apart from D and E (section 2.4). -/
structure PlanIF where
  start : Nat
  segs : List SegIF
  grace : Nat
  kAm : Nat
  kPm : Nat
  allowance : Nat
  warning : Nat
deriving DecidableEq, Repr

/-- What the Day Planner holds for a track (R20, section 2.4). -/
structure Track where
  state : TrackState
  kind : Option DayKind
  delay : Nat
  early : Nat
  plan : Option PlanIF
deriving DecidableEq, Repr

structure Planner where
  dayState : DayState
  dayDate : Option Date
  tracks : Quad Track
  deferredClose : Bool
deriving DecidableEq, Repr

/-! ## Bell Driver (03) -/

inductive BellKind where
  | start
  | change
  | warning
  | dayEnd
deriving DecidableEq, Repr

inductive BellOutcome where
  | pending
  | waiting
  | ringing
  | rung
  | failed
  | skipped
  | suppressed
deriving DecidableEq, Repr

/-- The fault seen in a ring (section 3.2). -/
inductive FaultSeen where
  | clear
  | openFault
  | overload
deriving DecidableEq, Repr

/-- A bell event (section 3.2). The time is in minutes, the ring start in seconds of day. -/
structure BellEvent where
  source : BellSource
  kind : BellKind
  time : Nat
  outcome : BellOutcome
  ringStart : Option Nat
  fault : Option FaultSeen
  /-- The time of a SUPPRESSED event has been reached (section 3.2, R45); the other outcomes say it themselves. -/
  passed : Bool
deriving DecidableEq, Repr

/-- What a ring sounds: an event of the list, an event kept apart from a discarded list (R44), or a manual ring. -/
inductive RingWhat where
  | event (source : BellSource) (kind : BellKind)
  | kept (kind : BellKind)
  | manual
deriving DecidableEq, Repr

inductive ZoneAct where
  | idle
  | ringing (what : RingWhat)
  | checking
deriving DecidableEq, Repr

inductive ActiveFault where
  | clear
  | openFault
  | overload
  | short
deriving DecidableEq, Repr

inductive CheckResult where
  | ok
  | openCircuit
  | short
  | aborted
deriving DecidableEq, Repr

/-- What the Bell Driver holds for a zone (R42). -/
structure Zone where
  act : ZoneAct
  left : Nat
  list : List BellEvent
  kept : List BellEvent
  manualPending : Bool
  autoRequest : Bool
  active : ActiveFault
  lastCheck : Option CheckResult
  lastManual : Option Bool
  openSeen : Bool
  overSeen : Bool
  level : Nat
  filter : Nat
  rings : Nat
  failed : Nat
  opens : Nat
  overloads : Nat
  checks : Nat
deriving DecidableEq, Repr

/-! ## Station Lines (04) -/

inductive Display where
  | green
  | amber
  | amberNoslip
  | red
  | blue
  | seeDesk
  | grey
  | wait
  | closed
  | retry
  | ready
deriving DecidableEq, Repr

/-- A SHOW record (R72). -/
structure Show where
  display : Display
  sequence : Option Nat
  expected : Bool
  name : Text
  minutes : Nat
deriving DecidableEq, Repr

/-- A complete ARRIVAL record with its completion time (R64). `date` is the Clock's date when it completed (the model's own:
log 15). -/
structure Arrival where
  sequence : Nat
  keyed : Bool
  code : Nat
  time : Nat
  date : Date
deriving DecidableEq, Repr

/-- The eleven counters of a station (R73). -/
structure StationCounters where
  received : Nat
  taken : Nat
  framing : Nat
  bad : Nat
  abandoned : Nat
  strays : Nat
  overruns : Nat
  heldDrops : Nat
  discarded : Nat
  showSent : Nat
  showDropped : Nat
deriving DecidableEq, Repr

/-- What the Station Lines hold for a station (R61). -/
structure Station where
  held : Bool
  asm : Option (List Byte)
  gap : Nat
  queue : List Arrival
  holdOff : Nat
  out : List Show
  sending : Option Show
  cnt : StationCounters
deriving DecidableEq, Repr

/-! ## Arrival Classifier (05) -/

inductive KeyKind where
  | badge
  | short
  | roster
deriving DecidableEq, Repr

/-- An office entry (R78). `date` is the Clock's date when it was accepted (the model's own: log 15). -/
structure OfficeEntry where
  ticket : Nat
  key : KeyKind
  value : Nat
  time : Nat
  date : Date
deriving DecidableEq, Repr

/-- The record under classification with its source. -/
inductive Item where
  | station (n : Fin 6) (a : Arrival)
  | office (e : OfficeEntry)
deriving DecidableEq, Repr

inductive Mark where
  /-- NONE: nothing known -/
  | nothing
  | p
  | l
  | u
  | x
  | n
  | r
  | a
deriving DecidableEq, Repr

/-- An answer of the office answer list (R79). -/
structure OfficeAnswer where
  ticket : Nat
  display : Display
  pupil : Option Nat
  session : Option Session
  mark : Option Mark
  minutes : Nat
  slip : Option Nat
  expected : Bool
deriving DecidableEq, Repr

/-- The three sums kept for a queue (R95). -/
structure QueueStat where
  occupancy : Nat
  notEmpty : Nat
  taken : Nat
deriving DecidableEq, Repr

/-- The desk statistics (R95, R96). -/
structure DeskStats where
  stations : Hex QueueStat
  office : QueueStat
  slip : QueueStat
  overruns : Hex Nat
  framing : Hex Nat
  heldDrops : Hex Nat
  officeRefused : Nat
  slipsQueued : Nat
  slipsDropped : Nat
  since : Stamp
deriving DecidableEq, Repr

structure Desk where
  cur : Option Item
  pointer : Nat
  office : List OfficeEntry
  nextTicket : Nat
  answers : List OfficeAnswer
  stats : DeskStats
deriving DecidableEq, Repr

/-! ## Slip Line (05) -/

inductive SlipKind where
  | late
  | copy
  | call
deriving DecidableEq, Repr

inductive CallReason where
  | noRecipient
  | undelivered
deriving DecidableEq, Repr

/-- The fields that differ by slip kind (section 5.5). -/
inductive SlipBody where
  | lateness (arrival : Nat) (mark : Mark) (minutes : Nat) (expected : Bool)
  | call (reason : CallReason) (made : Nat) (numbers : List Text)
deriving DecidableEq, Repr

/-- A slip (section 5.5). -/
structure Slip where
  kind : SlipKind
  number : Nat
  date : Option Date
  pupil : Nat
  short : Nat
  name : Text
  group : Text
  session : Session
  body : SlipBody
deriving DecidableEq, Repr

inductive PrinterState where
  | empty
  | waiting
  | sending
  | printing
  | stalled
deriving DecidableEq, Repr

/-- The Slip Line (R88, R92, R94). -/
structure SlipLine where
  queue : List Slip
  next : Nat
  slot : Option Slip
  state : PrinterState
  sentBefore : Bool
  ready : Bool
  stall : Nat
  queued : Nat
  printed : Nat
  dropped : Nat
  stalls : Nat
  resends : Nat
deriving DecidableEq, Repr

/-! ## Register (06) -/

inductive MarkSource where
  | register
  | desk
  | parent
  | office
  | close
deriving DecidableEq, Repr

inductive AlertState where
  /-- NONE: no alert has been started -/
  | noAlert
  | held
  | withheld
  | due
  | queued
  | sending
  | sent
  | cancelled
  | undelivered
deriving DecidableEq, Repr

/-- A session record (R97). `asked` is the date and time of a DUE alert's first allocation attempt (R150). -/
structure Rec where
  mark : Mark
  minutes : Nat
  source : Option MarkSource
  locked : Bool
  expected : Bool
  explained : Bool
  corrected : Bool
  arrival : Option Nat
  alert : AlertState
  due : Option Nat
  conflict : Option Nat
  asked : Option Stamp
deriving DecidableEq, Repr

/-- The state of a session of a track (R99). -/
inductive SessState where
  | before
  | opened
  | closed
deriving DecidableEq, Repr

/-- One thing for each session. -/
structure PerSession (α : Type) where
  am : α
  pm : α
deriving DecidableEq, Repr

inductive GroupStatus where
  | awaited
  | submitted
  | missing
  | lateSubmitted
  | empty
  | notHeld
deriving DecidableEq, Repr

/-- A pupil's weekly tally (R117). -/
structure Tally where
  count : Nat
  minutes : Nat
  notified : Bool
deriving DecidableEq, Repr

/-- The Register. Records and statuses are kept under 2 × index, plus 1 for PM. -/
structure Register where
  recs : Tab Rec
  sess : Quad (PerSession (Option SessState))
  status : Tab GroupStatus
  tallies : Tab Tally
deriving DecidableEq, Repr

/-! ## Reconciliation Unit (07) -/

inductive ConflictKind where
  | reportWhilePresent
  | arrivedAfterReport
  | registerDisagrees
  | lateReportNoArrival
deriving DecidableEq, Repr

/-- A conflict entry (section 7.1). -/
structure Conflict where
  id : Nat
  pupil : Nat
  session : Session
  kind : ConflictKind
  time : Nat
  mark : Mark
deriving DecidableEq, Repr

/-- Which sessions an advance report names (section 7.2). -/
inductive Sessions where
  | am
  | pm
  | both
deriving DecidableEq, Repr

/-- An advance report entry (section 7.2). -/
structure Advance where
  date : Date
  pupil : Nat
  sessions : Sessions
  report : Option Nat
deriving DecidableEq, Repr

/-- The message kinds (R134); `inbound` is a REPORT not yet parsed (R135). -/
inductive MsgKind where
  | absenceAlert
  | lateNotice
  | patternNotice
  | arrivalCorrection
  | officeNotice
  | inbound
  | absenceReport
  | latenessReport
  | unmatchedReport
  | reportReceipt
deriving DecidableEq, Repr

/-- Whom an outbound message is about: a pupil's session, or the sender and number of the report it answers. -/
inductive Subject where
  | pupil (p : Nat) (s : Session)
  | sender (number : Text) (report : Nat)
deriving DecidableEq, Repr

/-- A request for a NOTICE or RECEIPT, which is also an entry of the notice wait list (section 7.4). -/
structure WaitEntry where
  kind : MsgKind
  subject : Subject
  template : Option Nat
  stamp : Stamp
  life : Nat
deriving DecidableEq, Repr

/-- The five conflict counters (R120). -/
structure ConflictCounters where
  recorded : Nat
  replaced : Nat
  overflowed : Nat
  resolved : Nat
  dismissed : Nat
deriving DecidableEq, Repr

/-- The seven advance report counters (R126). -/
structure AdvanceCounters where
  taken : Nat
  merged : Nat
  refusedFull : Nat
  applied : Nat
  unmatched : Nat
  expired : Nat
  cancelled : Nat
deriving DecidableEq, Repr

/-- The five wait list counters (R132). -/
structure WaitCounters where
  joined : Nat
  served : Nat
  dropped : Nat
  expired : Nat
  withdrawn : Nat
deriving DecidableEq, Repr

structure Recon where
  conflicts : List Conflict
  nextId : Nat
  conflictCnt : ConflictCounters
  advance : List Advance
  advCnt : AdvanceCounters
  waits : List WaitEntry
  waitCnt : WaitCounters
deriving DecidableEq, Repr

/-! ## Message Pool and delivery (08, 09) -/

/-- Where a message is stored (R135). -/
inductive Storage where
  | shared (k : Nat)
  | reserve (area : Nat)
deriving DecidableEq, Repr

/-- A recipient copied from a contact slot, or the sender of a receipt (R151). -/
structure Recipient where
  slot : Nat
  number : Text
  first : Channel
  second : Option Channel
deriving DecidableEq, Repr

/-- The live states of an outbound message (R153). -/
inductive OutState where
  | queued
  | sending (tag : Nat) (timeout : Nat)
  | waitRetry (left : Nat)
deriving DecidableEq, Repr

/-- The delivery cursor (R153): recipient position, whether on the second channel, failed attempts. -/
structure Cursor where
  recipient : Nat
  second : Bool
  attempts : Nat
deriving DecidableEq, Repr

/-- What an outbound message holds besides its text (R153). -/
structure Outbound where
  subject : Subject
  recipients : List Recipient
  cursor : Cursor
  state : OutState
  life : Option Nat
  /-- An ALERT that DAY CLOSE left in SENDING (R176). -/
  detached : Bool
deriving DecidableEq, Repr

/-- What the Register answers to a parent ABSENT report (R102). -/
inductive AbsentAnswer where
  | applied
  | kept
  | conflict
  | locked
deriving DecidableEq, Repr

/-- What the Reconciliation Unit answers to an advance report (R126's table). -/
inductive AdvanceAnswer where
  | refused
  | taken
  | full
deriving DecidableEq, Repr

/-- What the Reconciliation Unit answers to a lateness report (R130's table, R167). -/
inductive LatenessAnswer where
  | locked
  | explained
  | expected
  | conflict
deriving DecidableEq, Repr

/-- An answer a report's pupil received: the Register's for today, the advance list's for a later date, or that to a lateness
report (R166, R167). -/
inductive Answer where
  | absent (a : AbsentAnswer)
  | advance (a : AdvanceAnswer)
  | lateness (a : LatenessAnswer)
deriving DecidableEq, Repr

/-- The keep reasons of a report (R168). -/
structure KeepReasons where
  reason : Bool
  unmatched : Bool
  locked : Bool
  conflict : Bool
  office : Bool
deriving DecidableEq, Repr

/-- What a report message holds: its sender, and once it is kept its keep reasons and answers (R168). -/
structure Report where
  sender : Text
  kept : Option KeepReasons
  answers : List (Nat × List Answer)
deriving DecidableEq, Repr

inductive MsgBody where
  | out (o : Outbound)
  | report (r : Report)
deriving DecidableEq, Repr

/-- A message record (R135). -/
structure Message where
  number : Nat
  cls : MsgClass
  kind : MsgKind
  storage : Storage
  made : Stamp
  text : Text
  body : MsgBody
deriving DecidableEq, Repr

/-- The pool's statistics (R146). -/
structure PoolStats where
  acquired : Nat
  reserveUses : PerClass Nat
  rejects : PerClass Nat
  peak : Nat
  since : Stamp
deriving DecidableEq, Repr

structure Pool where
  freeDesc : Nat
  freeSegs : Nat
  credits : PerClass Nat
  msgs : List Message
  nextNum : Nat
  stats : PoolStats
deriving DecidableEq, Repr

/-- An outstanding submission (R157). -/
structure Submission where
  tag : Nat
  number : Nat
deriving DecidableEq, Repr

structure Scheduler where
  alertQ : List Nat
  noticeQ : List Nat
  receiptQ : List Nat
  out : List Submission
  nextTag : Nat
  /-- Tags released by a timeout or a recall since the last reset (R161). -/
  released : List Nat
  /-- The kept list (R168). -/
  kept : List Nat
deriving DecidableEq, Repr

/-- The messages of a class by how they ended (R173). -/
structure EndCounts where
  delivered : Nat
  undelivered : Nat
  expired : Nat
  withdrawn : Nat
  cancelled : Nat
deriving DecidableEq, Repr

/-- The statistics of GATEWAY STATUS (R173). -/
structure GwStats where
  submissions : Nat
  delivered : Nat
  noAnswer : Nat
  invalidNumber : Nat
  lineBusy : Nat
  refused : Nat
  timeouts : Nat
  stale : Nat
  unknown : Nat
  badRecords : Nat
  inboundTaken : Nat
  inboundBusy : Nat
  recalls : Nat
  downs : Nat
  alert : EndCounts
  notice : EndCounts
  receipt : EndCounts
deriving DecidableEq, Repr

/-- A record to the gateway (section 9.3). -/
inductive GwRecord where
  | submit (tag : Nat) (channel : Channel) (number : Text) (text : Text)
  | taken
  | busy
deriving DecidableEq, Repr

/-- The window and status the gateway last announced (R157). -/
structure Window where
  size : Nat
  accepting : Bool
deriving DecidableEq, Repr

structure Gateway where
  up : Bool
  window : Option Window
  since : Nat
  asm : Option (List Byte)
  gap : Nat
  sending : Option GwRecord
  outQ : List GwRecord
  stats : GwStats
deriving DecidableEq, Repr

/-! ## Store Engine (10) -/

/-- A day record's 16 bytes (section 12.6). -/
abbrev DayRecord := List Byte

/-- A day entry of the archive directory (R182). -/
structure DayEntry where
  commit : Nat
  date : Date
  first : Nat
  pages : Nat
  records : Nat
  conflicts : Nat
  complete : Bool
deriving DecidableEq, Repr

inductive CommitOutcome where
  | complete
  | tableFull
  | directoryFailed
deriving DecidableEq, Repr

/-- Where a commit stands (R183 to R187). -/
inductive CommitPhase where
  /-- the oldest entry's slot is being written empty -/
  | dropOldest
  /-- the open entry is being written -/
  | openEntry
  /-- an entry whose span was reached is being removed; the archive page reached follows -/
  | dropReached (page : Nat)
  /-- an archive page is being filled -/
  | page (page : Nat)
  /-- the bad page table is being written after the page went bad -/
  | badTable (page : Nat)
  /-- the open entry is being written for the last time -/
  | final (outcome : CommitOutcome)
deriving DecidableEq, Repr

/-- A commit's own data: the slot of its open entry, and its phase. -/
structure Commit where
  slot : Nat
  phase : CommitPhase
deriving DecidableEq, Repr

/-- Where a settings save stands (R188): erasing the check page, a data page, or the check page's program. -/
inductive SavePhase where
  | clearCheck
  | data (page : Nat)
  | writeCheck
deriving DecidableEq, Repr

/-- A page to read and how many records to take from it, from which place. -/
structure PageRead where
  page : Nat
  from_ : Nat
  count : Nat
deriving DecidableEq, Repr

/-- An ARCHIVE READ that the Store Engine serves (R191): the reply's tag, the entry read, the index asked for. -/
structure ReadReq where
  tag : Nat
  entry : DayEntry
  index : Nat
  pages : List PageRead
deriving DecidableEq, Repr

inductive Job where
  | idle
  | rebuild (pages : List PageRead) (acc : Tab Tally)
  | commit (c : Commit)
  | save (phase : SavePhase) (sum : Nat)
  | read (r : ReadReq) (got : List DayRecord)
deriving DecidableEq, Repr

inductive PageOp where
  | idle
  | erasing (page : Nat)
  | blankCheck (page : Nat)
  | programming (page : Nat)
  | verifying (page : Nat)
  | reading (page : Nat)
deriving DecidableEq, Repr

/-- A job that waits for a READ to end (R180). -/
inductive PendingJob where
  | commit
  | rebuild
deriving DecidableEq, Repr

structure Store where
  /-- The non-volatile bytes (R178): page p is at 1024 × p. -/
  mem : List (Nat × Byte)
  spoiled : List Nat
  job : Job
  op : PageOp
  retried : Bool
  /-- The write buffer, in two fields (DEDUCED, log 19): day records, and a page of directory or settings data. -/
  recBuf : List DayRecord
  pageBuf : List Byte
  bad : List Nat
  dir : List (Option DayEntry)
  nextCommit : Nat
  spanned : Nat
  done : Nat
  lastCommit : Option CommitOutcome
  lastSave : Option Bool
  waitingRead : Option ReadReq
  pendingJob : Option PendingJob
  unresolved : Nat
deriving DecidableEq, Repr

/-! ## Host Link and lamps (11) -/

/-- The result codes (R196). -/
inductive Code where
  | ok
  | accepted
  | clamped
  | badArg
  | unknownKind
  | state
  | busy
  | full
  | notFound
  | duplicate
  | locked
  | shortfall
  | noclock
deriving DecidableEq, Repr

/-- A reply before it is framed: the result code and the rest of the body. -/
structure Reply where
  code : Code
  body : List Byte
deriving DecidableEq, Repr

/-- A frame from the part: a reply, or a frame-error notice (R193). -/
structure OutFrame where
  notice : Bool
  kind : Nat
  tag : Nat
  body : List Byte
deriving DecidableEq, Repr

/-- The request in hand (R195): its tag and kind, and whether its reply has been made. -/
structure Hand where
  tag : Nat
  kind : Nat
  replied : Bool
deriving DecidableEq, Repr

/-- A good frame that waits to be taken (R194). -/
structure Waiting where
  tag : Nat
  req : Request
deriving DecidableEq, Repr

/-- The 20 latched conditions, in the order of R201's table. -/
inductive Condition where
  | clockUnset
  | dayReady
  | registerMissing
  | conflict
  | conflictOverflow
  | alertUndelivered
  | inboundWaiting
  | zoneFault
  | checkDone
  | stationHeld
  | slipDrop
  | printerStall
  | poolReserve
  | poolReject
  | gatewayDown
  | archiveDone
  | archiveFail
  | saveDone
  | settingsDefault
  | linkOverrun
deriving DecidableEq, Repr

inductive TableName where
  | pupils
  | contacts
  | groups
  | plans
  | zones
  | stations
  | templates
  | lamps
  | options
deriving DecidableEq, Repr

inductive StepMode where
  | still
  | both
  | write
deriving DecidableEq, Repr

/-- The table cursor (R198). -/
structure TableCursor where
  table : TableName
  index : Nat
  mode : StepMode
deriving DecidableEq, Repr

inductive ResetCause where
  | powerOn
  | pin
  | request
deriving DecidableEq, Repr

structure HostLink where
  asm : Option (List Byte)
  gap : Nat
  queue : List Waiting
  hand : Option Hand
  sending : Option OutFrame
  out : List OutFrame
  /-- Latch counts by condition number; a condition is set when its count is above 0 (R201). -/
  counts : Tab Nat
  mask : BitVec 20
  cursor : TableCursor
  good : Nat
  errors : Nat
  overruns : Nat
  strays : Nat
  framing : Nat
  cause : ResetCause
  fastRate : Bool
  loaded : Bool
  loading : Bool
  resetPending : Bool
deriving DecidableEq, Repr

inductive Force where
  | free
  | on
  | off
deriving DecidableEq, Repr

/-- The Lamp Driver's own state (R204). -/
structure Lamps where
  stretch : Quad Nat
  force : Quad Force
  phase : Nat
deriving DecidableEq, Repr

end Sys2Proof.Machine
end

