-- ==== Sys2Proof/Machine/Calendar.lean ====
section
/-! DEFINITION. The calendar of 2000 to 2099 (R16 to R18): lengths of months, day numbers, weekdays, the day after. -/

namespace Sys2Proof.Machine

/-- "February has 29 days in every year of the range that is divisible by 4, 2000 included" (R17). -/
def leapYear (y : Nat) : Bool := y % 4 == 0

def daysInMonth (m y : Nat) : Nat :=
  match m with
  | 1 => 31
  | 2 => if leapYear y then 29 else 28
  | 3 => 31
  | 4 => 30
  | 5 => 31
  | 6 => 30
  | 7 => 31
  | 8 => 31
  | 9 => 30
  | 10 => 31
  | 11 => 30
  | 12 => 31
  | _ => 0

/-- A real date of the range 2000 to 2099 (R18). -/
def Date.valid (d : Date) : Bool :=
  decide (2000 ≤ d.year) && decide (d.year ≤ 2099) && decide (1 ≤ d.month) && decide (d.month ≤ 12) &&
    decide (1 ≤ d.day) && decide (d.day ≤ daysInMonth d.month d.year)

/-- Days of the year before month m. -/
def daysBefore (m y : Nat) : Nat :=
  match m with
  | 0 => 0
  | 1 => 0
  | k + 1 => daysBefore k y + daysInMonth k y

/-- The number of days from 01/01/2000 to a date. -/
def Date.number (d : Date) : Nat :=
  (d.year - 2000) * 365 + (d.year - 2000 + 3) / 4 + daysBefore d.month d.year + (d.day - 1)

/-- The weekday of a date, Monday 0 to Sunday 6; 01/01/2000 is a Saturday (R16). -/
def Date.weekday (d : Date) : Nat := (d.number + 5) % 7

/-- Two dates lie in one Monday-to-Sunday week (R17). -/
def Date.sameWeek (a b : Date) : Bool := (a.number + 5) / 7 == (b.number + 5) / 7

/-- The first date of the range (R16). -/
def firstDate : Date := ⟨1, 1, 2000⟩

/-- The last date of the range (R17). -/
def lastDate : Date := ⟨31, 12, 2099⟩

/-- The day after (R17): after 31/12/2099 comes 01/01/2000. -/
def Date.next (d : Date) : Date :=
  if d = lastDate then firstDate
  else if d.day < daysInMonth d.month d.year then { d with day := d.day + 1 }
  else if d.month < 12 then ⟨1, d.month + 1, d.year⟩
  else ⟨1, 1, d.year + 1⟩

/-- A date as a request's three bytes give it, when it is a real date. -/
def rawDate? (r : RawDate) : Option Date :=
  let d : Date := ⟨r.day, r.month, r.year + 2000⟩
  if r.year ≤ 99 && d.valid then some d else none

/-- A time hh:mm:ss as seconds of day, when it is a valid time. -/
def rawTime? (t : RawTime) : Option Nat :=
  if t.hour ≤ 23 && t.minute ≤ 59 && t.second ≤ 59 then some (t.hour * 3600 + t.minute * 60 + t.second) else none

/-- The last second of a day. -/
def lastSecond : Nat := 86399

end Sys2Proof.Machine
end

