-- ==== Sys2Proof/Machine/Tab.lean ====
section
/-! DEFINITION. Sparse tables in one canonical form: indexes strictly rising, and no entry equal to what its index reads
as when it is not listed. The settings tables, the session records and the bytes of the store are kept so. -/

namespace Sys2Proof.Machine

variable {α : Type}

/-- The entry at an index; `dflt` says what an unlisted index reads as. -/
def Tab.get (dflt : Nat → α) : Tab α → Nat → α
  | [], i => dflt i
  | (j, a) :: t, i => if i = j then a else Tab.get dflt t i

/-- Take the entry at an index out of the list. -/
def Tab.erase : Tab α → Nat → Tab α
  | [], _ => []
  | (j, a) :: t, i => if i = j then t else if i < j then (j, a) :: t else (j, a) :: Tab.erase t i

/-- List an entry at an index, in its place. -/
def Tab.insert : Tab α → Nat → α → Tab α
  | [], i, v => [(i, v)]
  | (j, a) :: t, i, v =>
    if i = j then (i, v) :: t else if i < j then (i, v) :: (j, a) :: t else (j, a) :: Tab.insert t i v

/-- Write an entry; one equal to what an unlisted index reads as is not listed. -/
def Tab.put [DecidableEq α] (dflt : Nat → α) (t : Tab α) (i : Nat) (v : α) : Tab α :=
  if v = dflt i then t.erase i else t.insert i v

/-- Every listed index is at least `lo`, indexes rise strictly, and no listed entry equals its default. -/
def Tab.canonFrom [DecidableEq α] (dflt : Nat → α) : Nat → Tab α → Bool
  | _, [] => true
  | lo, (j, a) :: t => decide (lo ≤ j) && decide (a ≠ dflt j) && Tab.canonFrom dflt (j + 1) t

/-- The canonical form of a sparse table. -/
def Tab.wf [DecidableEq α] (dflt : Nat → α) (t : Tab α) : Bool := Tab.canonFrom dflt 0 t

/-- The listed entries that satisfy a condition, in index order. -/
def Tab.filter (t : Tab α) (p : Nat → α → Bool) : List Nat :=
  t.filterMap fun e => if p e.1 e.2 then some e.1 else none

end Sys2Proof.Machine
end

