-- ==== Sys2Proof/Machine/Encode.lean ====
section
/-! DEFINITION. The encodings of Record Layouts (R210 to R212): fields, enumerations, and the records the part makes. -/

namespace Sys2Proof.Machine

/-! ## Fields (R210, R211) -/

def b1 (n : Nat) : List Byte := [BitVec.ofNat 8 n]
/-- Numbers of two and four bytes go most significant byte first (R210). -/
def b2 (n : Nat) : List Byte := [BitVec.ofNat 8 (n / 256), BitVec.ofNat 8 n]
def b4 (n : Nat) : List Byte :=
  [BitVec.ofNat 8 (n / 16777216), BitVec.ofNat 8 (n / 65536), BitVec.ofNat 8 (n / 256), BitVec.ofNat 8 n]
def bFlag (b : Bool) : List Byte := b1 (if b then 1 else 0)
def bDate (d : Date) : List Byte := b1 d.day ++ b1 d.month ++ b1 (d.year - 2000)
/-- A time hh:mm:ss, from seconds of day. -/
def bTime (t : Nat) : List Byte := b1 (t / 3600) ++ b1 (t / 60 % 60) ++ b1 (t % 60)
/-- A time hh:mm, from minutes of day. -/
def bMinute (m : Nat) : List Byte := b1 (m / 60) ++ b1 (m % 60)
/-- An absent time has hour byte FFh and its other bytes 00h (R210). -/
def bTime? (t : Option Nat) : List Byte :=
  match t with
  | some t => bTime t
  | none => [0xFF#8, 0, 0]
def bMinute? (t : Option Nat) : List Byte :=
  match t with
  | some t => bMinute t
  | none => [0xFF#8, 0]
def bText (t : Text) : List Byte := b1 t.length ++ t
/-- A count and a fixed number of places, unused places 00h (section 12.2). -/
def bPlaces (n : Nat) (t : Text) : List Byte := b1 t.length ++ t ++ List.replicate (n - t.length) 0
def bStamp (t : Stamp) : List Byte := bDate t.date ++ bTime t.secs
/-- A field that may be none: a flag byte, then the field's bytes, 00h when it is absent (R211). -/
def bOpt {α : Type} (width : Nat) (f : α → List Byte) (x : Option α) : List Byte :=
  match x with
  | some x => b1 1 ++ f x
  | none => b1 0 ++ List.replicate width 0
/-- A list of entries with its count byte (R211). -/
def bList {α : Type} (f : α → List Byte) (l : List α) : List Byte := b1 l.length ++ l.flatMap f

/-- A number read from bytes, most significant first. -/
def num : List Byte → Nat := fun l => l.foldl (fun n b => n * 256 + b.toNat) 0

/-- The sum of characters modulo 256. -/
def sum256 (l : List Byte) : Byte := l.foldl (fun a b => a + b) 0

/-- The check character that makes characters sum to 0 modulo 256. -/
def checkOf (l : List Byte) : Byte := 0 - sum256 l

/-! ## Enumerations (R210; R211 for those given no codes) -/

def Mark.code : Mark → Nat
  | .nothing => 0
  | .p => 1
  | .l => 2
  | .u => 3
  | .x => 4
  | .n => 5
  | .r => 6
  | .a => 7

def Mark.ofCode : Nat → Option Mark
  | 0 => some .nothing
  | 1 => some .p
  | 2 => some .l
  | 3 => some .u
  | 4 => some .x
  | 5 => some .n
  | 6 => some .r
  | 7 => some .a
  | _ => none

def sessionCode : Session → Nat
  | .am => 0
  | .pm => 1

def sessionOf : Nat → Option Session
  | 0 => some .am
  | 1 => some .pm
  | _ => none

def Sessions.code : Sessions → Nat
  | .am => 0
  | .pm => 1
  | .both => 2

def Sessions.ofCode : Nat → Option Sessions
  | 0 => some .am
  | 1 => some .pm
  | 2 => some .both
  | _ => none

def DayKind.code : DayKind → Nat
  | .normal => 0
  | .short => 1
  | .exam => 2
  | .event => 3

def DayKind.ofCode : Nat → Option DayKind
  | 0 => some .normal
  | 1 => some .short
  | 2 => some .exam
  | 3 => some .event
  | _ => none

def Channel.code : Channel → Nat
  | .text => 0
  | .voice => 1

/-- TEXT 00h, VOICE 01h, NONE 02h (R210). -/
def channelCode? : Option Channel → Nat
  | some c => c.code
  | none => 2

def Channel.ofCode : Nat → Option Channel
  | 0 => some .text
  | 1 => some .voice
  | _ => none

def KeyKind.ofCode : Nat → Option KeyKind
  | 0 => some .badge
  | 1 => some .short
  | 2 => some .roster
  | _ => none

def flagOf : Nat → Option Bool
  | 0 => some false
  | 1 => some true
  | _ => none

def SegKind.code : SegKind → Nat
  | .registration => 0
  | .lesson => 1
  | .break_ => 2
  | .lunch => 3
  | .assembly => 4

def SegKind.ofCode : Nat → Option SegKind
  | 0 => some .registration
  | 1 => some .lesson
  | 2 => some .break_
  | 3 => some .lunch
  | 4 => some .assembly
  | _ => none

def StartBell.code : StartBell → Nat
  | .silent => 0
  | .start => 1
  | .change => 2

def StartBell.ofCode : Nat → Option StartBell
  | 0 => some .silent
  | 1 => some .start
  | 2 => some .change
  | _ => none

/-- A segment's session point: NONE, AM, PM (section 2.3). -/
def pointCode : Option Session → Nat
  | none => 0
  | some .am => 1
  | some .pm => 2

def pointOf : Nat → Option (Option Session)
  | 0 => some none
  | 1 => some (some .am)
  | 2 => some (some .pm)
  | _ => none

/-- A track or zone track: 00h to 03h, NONE FFh (R210). -/
def trackCode? : Option (Fin 4) → Nat
  | some t => t.val
  | none => 255

def fin4? (n : Nat) : Option (Fin 4) := if h : n < 4 then some ⟨n, h⟩ else none

/-- Stations are named 1 to 6. -/
def station? (n : Nat) : Option (Fin 6) := if h : 1 ≤ n ∧ n ≤ 6 then some ⟨n - 1, by omega⟩ else none

def LampSource.code : LampSource → Nat
  | .off => 0
  | .slipQueueNotEmpty => 1
  | .dueAlerts => 2
  | .conflicts => 3
  | .gatewayLinkDown => 4
  | .zoneFaultActive => 5
  | .stationHeldAny => 6
  | .poolOnReserve => 7
  | .dayOpen => 8
  | .printerStalled => 9

def LampSource.ofCode : Nat → Option LampSource
  | 0 => some .off
  | 1 => some .slipQueueNotEmpty
  | 2 => some .dueAlerts
  | 3 => some .conflicts
  | 4 => some .gatewayLinkDown
  | 5 => some .zoneFaultActive
  | 6 => some .stationHeldAny
  | 7 => some .poolOnReserve
  | 8 => some .dayOpen
  | 9 => some .printerStalled
  | _ => none

def LampMode.code : LampMode → Nat
  | .solid => 0
  | .slow => 1
  | .fast => 2

def LampMode.ofCode : Nat → Option LampMode
  | 0 => some .solid
  | 1 => some .slow
  | 2 => some .fast
  | _ => none

def Force.ofCode : Nat → Option Force
  | 0 => some .free
  | 1 => some .on
  | 2 => some .off
  | _ => none

def TableName.code : TableName → Nat
  | .pupils => 0
  | .contacts => 1
  | .groups => 2
  | .plans => 3
  | .zones => 4
  | .stations => 5
  | .templates => 6
  | .lamps => 7
  | .options => 8

def TableName.ofCode : Nat → Option TableName
  | 0 => some .pupils
  | 1 => some .contacts
  | 2 => some .groups
  | 3 => some .plans
  | 4 => some .zones
  | 5 => some .stations
  | 6 => some .templates
  | 7 => some .lamps
  | 8 => some .options
  | _ => none

def StepMode.code : StepMode → Nat
  | .still => 0
  | .both => 1
  | .write => 2

def StepMode.ofCode : Nat → Option StepMode
  | 0 => some .still
  | 1 => some .both
  | 2 => some .write
  | _ => none

/-- The result codes' bytes (section 12.2). -/
def Code.byte : Code → Nat
  | .ok => 0x00
  | .accepted => 0x01
  | .clamped => 0x02
  | .badArg => 0x10
  | .unknownKind => 0x11
  | .state => 0x12
  | .busy => 0x13
  | .full => 0x14
  | .notFound => 0x15
  | .duplicate => 0x16
  | .locked => 0x17
  | .shortfall => 0x18
  | .noclock => 0x19

def Condition.number : Condition → Nat
  | .clockUnset => 0
  | .dayReady => 1
  | .registerMissing => 2
  | .conflict => 3
  | .conflictOverflow => 4
  | .alertUndelivered => 5
  | .inboundWaiting => 6
  | .zoneFault => 7
  | .checkDone => 8
  | .stationHeld => 9
  | .slipDrop => 10
  | .printerStall => 11
  | .poolReserve => 12
  | .poolReject => 13
  | .gatewayDown => 14
  | .archiveDone => 15
  | .archiveFail => 16
  | .saveDone => 17
  | .settingsDefault => 18
  | .linkOverrun => 19

def DayState.code : DayState → Nat
  | .closed => 0
  | .opening => 1
  | .opened => 2
  | .closing => 3

def TrackState.code : TrackState → Nat
  | .planned => 0
  | .running => 1
  | .ended => 2

def BellKind.code : BellKind → Nat
  | .start => 0
  | .change => 1
  | .warning => 2
  | .dayEnd => 3

def BellOutcome.code : BellOutcome → Nat
  | .pending => 0
  | .waiting => 1
  | .ringing => 2
  | .rung => 3
  | .failed => 4
  | .skipped => 5
  | .suppressed => 6

def FaultSeen.code : FaultSeen → Nat
  | .clear => 0
  | .openFault => 1
  | .overload => 2

def ActiveFault.code : ActiveFault → Nat
  | .clear => 0
  | .openFault => 1
  | .overload => 2
  | .short => 3

/-- NONE, OK, OPEN, SHORT, ABORTED (R42). -/
def checkCode : Option CheckResult → Nat
  | none => 0
  | some .ok => 1
  | some .openCircuit => 2
  | some .short => 3
  | some .aborted => 4

/-- A bell event's source: segment 1 to 12, WARNING, END, in the order listed, from 00h (R211). -/
def bellSourceCode : BellSource → Nat
  | .segment n => n
  | .warning => 12
  | .dayEnd => 13

def Display.code : Display → Nat
  | .green => 1
  | .amber => 2
  | .amberNoslip => 3
  | .red => 4
  | .blue => 5
  | .seeDesk => 6
  | .grey => 7
  | .wait => 8
  | .closed => 9
  | .retry => 10
  | .ready => 11

def SlipKind.code : SlipKind → Nat
  | .late => 1
  | .copy => 2
  | .call => 3

def CallReason.code : CallReason → Nat
  | .noRecipient => 0
  | .undelivered => 1

def PrinterState.code : PrinterState → Nat
  | .empty => 0
  | .waiting => 1
  | .sending => 2
  | .printing => 3
  | .stalled => 4

def MarkSource.code : MarkSource → Nat
  | .register => 0
  | .desk => 1
  | .parent => 2
  | .office => 3
  | .close => 4

def AlertState.code : AlertState → Nat
  | .noAlert => 0
  | .held => 1
  | .withheld => 2
  | .due => 3
  | .queued => 4
  | .sending => 5
  | .sent => 6
  | .cancelled => 7
  | .undelivered => 8

/-- The alert states, in the order of R97. -/
def alertStates : List AlertState :=
  [.noAlert, .held, .withheld, .due, .queued, .sending, .sent, .cancelled, .undelivered]

/-- The marks, in the order of R97. -/
def marks : List Mark := [.nothing, .p, .l, .u, .x, .n, .r, .a]

def SessState.code : SessState → Nat
  | .before => 0
  | .opened => 1
  | .closed => 2

def GroupStatus.code : GroupStatus → Nat
  | .awaited => 0
  | .submitted => 1
  | .missing => 2
  | .lateSubmitted => 3
  | .empty => 4
  | .notHeld => 5

/-- The group statuses, in the order of R114. -/
def groupStatuses : List GroupStatus := [.awaited, .submitted, .missing, .lateSubmitted, .empty, .notHeld]

def ConflictKind.code : ConflictKind → Nat
  | .reportWhilePresent => 0
  | .arrivedAfterReport => 1
  | .registerDisagrees => 2
  | .lateReportNoArrival => 3

def MsgClass.code : MsgClass → Nat
  | .alert => 0
  | .notice => 1
  | .report => 2
  | .receipt => 3

/-- The kinds in the order of R134's table; INBOUND, the kind of a report until it is parsed, follows them (DEDUCED, log 11). -/
def MsgKind.code : MsgKind → Nat
  | .absenceAlert => 0
  | .lateNotice => 1
  | .patternNotice => 2
  | .arrivalCorrection => 3
  | .officeNotice => 4
  | .absenceReport => 5
  | .latenessReport => 6
  | .unmatchedReport => 7
  | .reportReceipt => 8
  | .inbound => 9

/-- In the order of R102 (R211). LOCKED is 3 here and not the byte 17h of R196's code (DEDUCED, log 11). -/
def AbsentAnswer.code : AbsentAnswer → Nat
  | .applied => 0
  | .kept => 1
  | .conflict => 2
  | .locked => 3

/-- In the order of R126's table (R211). -/
def AdvanceAnswer.code : AdvanceAnswer → Nat
  | .refused => 0
  | .taken => 1
  | .full => 2

/-- In the order of R130's table and of R167 (R211). LOCKED is 0 here and not the byte 17h of R196's code (DEDUCED, log 11). -/
def LatenessAnswer.code : LatenessAnswer → Nat
  | .locked => 0
  | .explained => 1
  | .expected => 2
  | .conflict => 3

/-- An answer's code is that of the enumeration it belongs to: R211 numbers each by the rule or table that defines it. -/
def Answer.code : Answer → Nat
  | .absent a => a.code
  | .advance a => a.code
  | .lateness a => a.code

def ResetCause.code : ResetCause → Nat
  | .powerOn => 0
  | .pin => 1
  | .request => 2

/-- NONE, COMPLETE, TABLE_FULL, DIRECTORY_FAILED (R179). -/
def commitCode : Option CommitOutcome → Nat
  | none => 0
  | some .complete => 1
  | some .tableFull => 2
  | some .directoryFailed => 3

/-- NONE, DONE, FAILED (R179). -/
def saveCode : Option Bool → Nat
  | none => 0
  | some true => 1
  | some false => 2

def Job.code : Job → Nat
  | .idle => 0
  | .rebuild _ _ => 1
  | .commit _ => 2
  | .save _ _ => 3
  | .read _ _ => 4

def PageOp.code : PageOp → Nat
  | .idle => 0
  | .erasing _ => 1
  | .blankCheck _ => 2
  | .programming _ => 3
  | .verifying _ => 4
  | .reading _ => 5

/-! ## Records to the stations, the gateway, the printer and the host -/

/-- A SHOW record's characters (section 12.3). -/
def Show.chars (r : Show) : List Byte :=
  let body := b1 r.display.code ++ b1 ((if r.sequence.isSome then 1 else 0) + (if r.expected then 2 else 0)) ++
    b1 (r.sequence.getD 0) ++ b1 r.minutes ++ bText r.name
  0xE2#8 :: body ++ [checkOf body]

/-- A gateway record's characters (section 12.4). -/
def GwRecord.chars (r : GwRecord) : List Byte :=
  let frame (kind : Nat) (body : List Byte) : List Byte :=
    let part := b1 kind ++ b2 body.length ++ body
    0xC5#8 :: part ++ [checkOf part]
  match r with
  | .submit tag ch number text => frame 0x81 (b1 tag ++ b1 ch.code ++ bText number ++ b2 text.length ++ text)
  | .taken => frame 0x82 []
  | .busy => frame 0x83 []

/-- A slip print record's characters (section 12.5). -/
def Slip.chars (r : Slip) : List Byte :=
  let tail := match r.body with
    | .lateness arrival mark minutes expected => bTime arrival ++ b1 mark.code ++ b1 minutes ++ bFlag expected
    | .call reason made numbers => b1 reason.code ++ bTime made ++ bList bText numbers
  let date := match r.date with
    | some d => bDate d
    | none => [0, 0, 0]
  let part := b1 r.kind.code ++ b2 r.number ++ date ++ b2 r.pupil ++ b2 r.short ++ b1 (sessionCode r.session) ++
    bText r.name ++ bText r.group ++ tail
  0xD1#8 :: part ++ [checkOf part]

/-- A host frame's characters (section 11.1). -/
def OutFrame.chars (f : OutFrame) : List Byte :=
  let part := b1 f.body.length ++ b1 f.kind ++ b1 f.tag ++ f.body
  0xA5#8 :: part ++ [checkOf part]

/-! ## Printable characters and digits -/

/-- The printable set, 20h to 7Eh (R210). -/
def printable (c : Byte) : Bool := decide (0x20 ≤ c.toNat) && decide (c.toNat ≤ 0x7E)

def isDigit (c : Byte) : Bool := decide (0x30 ≤ c.toNat) && decide (c.toNat ≤ 0x39)

/-- A number of 1 to 15 decimal digits (R8). -/
def validNumber (t : Text) : Bool := decide (1 ≤ t.length) && decide (t.length ≤ 15) && t.all isDigit

def digit (n : Nat) : Byte := BitVec.ofNat 8 (0x30 + n % 10)

/-- Two decimal digits. -/
def twoDigits (n : Nat) : Text := [digit (n / 10), digit n]

/-- A number below 1,000 in decimal without leading zeros. -/
def decimal (n : Nat) : Text :=
  if n < 10 then [digit n] else if n < 100 then twoDigits n else digit (n / 100) :: twoDigits n

end Sys2Proof.Machine
end

