-- ==== Sys2Proof/Decode.lean ====
section
/-! DEFINITION. Reading and writing the bodies of host requests (11.1, 12.2): decodeRequest and its inverse; and
decodeTableWord, over the rows of the opcode table that give bits. -/

namespace Sys2Proof

open Machine

/-- No row of spec/opcode_table.json gives bits, so no word spells a command. -/
def decodeTableWord (_nbits _w : Nat) : Option Instr := none

/-! ## Numbers of a body (R210) -/

def n2 (a b : Byte) : Nat := a.toNat * 256 + b.toNat

def n3 (a b c : Byte) : Nat := a.toNat * 65536 + b.toNat * 256 + c.toNat

def n4 (a b c d : Byte) : Nat := a.toNat * 16777216 + b.toNat * 65536 + c.toNat * 256 + d.toNat

def rawDate (a b c : Byte) : RawDate := ⟨a.toNat, b.toNat, c.toNat⟩

/-- A body's three bytes of an optional time hh:mm:ss that is present. -/
def rawTime (a b c : Byte) : RawTime := ⟨a.toNat, b.toNat, c.toNat⟩

/-! ## Bodies by their length (section 12.2); a body whose length does not suit its kind is a bad body (R195) -/

def body0 (kind : Nat) (r : Request) : List Byte → Request
  | [] => r
  | _ => .badBody kind

def body1 (kind : Nat) (f : Nat → Request) : List Byte → Request
  | [a] => f a.toNat
  | _ => .badBody kind

/-- Two fields of one byte. -/
def body11 (kind : Nat) (f : Nat → Nat → Request) : List Byte → Request
  | [a, b] => f a.toNat b.toNat
  | _ => .badBody kind

/-- One field of two bytes. -/
def bodyWord (kind : Nat) (f : Nat → Request) : List Byte → Request
  | [a, b] => f (n2 a b)
  | _ => .badBody kind

/-- A pupil and a field of one byte. -/
def body21 (kind : Nat) (f : Nat → Nat → Request) : List Byte → Request
  | [a, b, c] => f (n2 a b) c.toNat
  | _ => .badBody kind

def bodyMask : List Byte → Request
  | [a, b, c] => .attentionMask (n3 a b c)
  | _ => .badBody 0x03

def bodySelect : List Byte → Request
  | [t, a, b, m] => .tableSelect t.toNat (n2 a b) m.toNat
  | _ => .badBody 0x08

def bodyFind : List Byte → Request
  | [k, a, b, c, d] => .pupilFind k.toNat (n4 a b c d)
  | _ => .badBody 0x0C

/-- A text: a count byte followed by that many characters (R210). -/
def exactText : List Byte → Option Text
  | n :: l => if n.toNat = l.length then some l else none
  | [] => none

def bodySender (l : List Byte) : Request :=
  match exactText l with
  | some t => .senderFind t
  | none => .badBody 0x0D

def bodyClock : List Byte → Request
  | [d, m, y, h, n, s] => .clockSet (rawDate d m y) (rawTime h n s)
  | _ => .badBody 0x10

def bodyDayOpen : List Byte → Request
  | [d, m, y, a, b, c, e] => .dayOpen (rawDate d m y) ⟨a.toNat, b.toNat, c.toNat, e.toNat⟩ none
  | [d, m, y, a, b, c, e, p, q, r, s] =>
    .dayOpen (rawDate d m y) ⟨a.toNat, b.toNat, c.toNat, e.toNat⟩ (some ⟨p.toNat, q.toNat, r.toNat, s.toNat⟩)
  | _ => .badBody 0x11

def bodyPlan : List Byte → Request
  | [t] => .planQuery t.toNat none
  | [t, n] => .planQuery t.toNat (some n.toNat)
  | _ => .badBody 0x16

def bodyArrival : List Byte → Request
  | [k, a, b, c, d] => .deskArrival k.toNat (n4 a b c d) none
  | [k, a, b, c, d, h, m, s] => .deskArrival k.toNat (n4 a b c d) (some (rawTime h m s))
  | _ => .badBody 0x22

/-- Entries of four bytes, filling the body exactly. -/
def bodyEntries : List Byte → Option (List RawEntry)
  | [] => some []
  | a :: b :: m :: n :: l => (bodyEntries l).map (⟨n2 a b, m.toNat, n.toNat⟩ :: ·)
  | _ => none

def bodySubmit : List Byte → Request
  | g :: s :: l =>
    match bodyEntries l with
    | some es => .registerSubmit g.toNat s.toNat es
    | none => .badBody 0x28
  | _ => .badBody 0x28

def bodyMark : List Byte → Request
  | [a, b, s, m, n, k] => .markSet (n2 a b) s.toNat m.toNat n.toNat k.toNat none
  | [a, b, s, m, n, k, h, i, j] => .markSet (n2 a b) s.toNat m.toNat n.toNat k.toNat (some (rawTime h i j))
  | _ => .badBody 0x29

/-- The word DISMISS, in the place of a mark: the code after the marks' (DEDUCED, log 11). -/
def dismissCode : Nat := 8

def bodyResolve : List Byte → Request
  | [i, w] => if w.toNat = dismissCode then .conflictResolve i.toNat .dismiss else .badBody 0x31
  | [i, m, n] => .conflictResolve i.toNat (.settle m.toNat n.toNat none)
  | [i, m, n, h, j, k] => .conflictResolve i.toNat (.settle m.toNat n.toNat (some (rawTime h j k)))
  | _ => .badBody 0x31

def bodyCancel : List Byte → Request
  | [d, m, y, a, b, s] => .advanceCancel (rawDate d m y) (n2 a b) s.toNat
  | _ => .badBody 0x33

/-- MESSAGE SEND: pupil, session, then 00h and a template number or 01h and a text (DEDUCED, log 11). -/
def bodySend : List Byte → Request
  | a :: b :: s :: w :: l =>
    if w.toNat = 0 then
      match l with
      | [n] => .messageSend (n2 a b) s.toNat (.template n.toNat)
      | _ => .badBody 0x39
    else if w.toNat = 1 then
      match exactText l with
      | some t => .messageSend (n2 a b) s.toNat (.text t)
      | none => .badBody 0x39
    else .badBody 0x39
  | _ => .badBody 0x39

def bodyArchive : List Byte → Request
  | [d, m, y, a, b, c] => .archiveRead (rawDate d m y) (n2 a b) c.toNat
  | _ => .badBody 0x41

/-- The request that a good frame's kind and body carry (R195, section 12.2). -/
def decodeRequest (kind : Nat) (l : List Byte) : Request :=
  match kind with
  | 0x01 => body0 kind .hello l
  | 0x02 => body0 kind .conditions l
  | 0x03 => bodyMask l
  | 0x04 => body1 kind .reset l
  | 0x05 => body11 kind .lampForce l
  | 0x08 => bodySelect l
  | 0x09 => body1 kind .tableRead l
  | 0x0A => .tableWrite l
  | 0x0B => body0 kind .settingsSave l
  | 0x0C => bodyFind l
  | 0x0D => bodySender l
  | 0x10 => bodyClock l
  | 0x11 => bodyDayOpen l
  | 0x12 => body1 kind .dayClose l
  | 0x13 => body0 kind .dayStatus l
  | 0x14 => body11 kind .openingDelay l
  | 0x15 => body11 kind .earlyClose l
  | 0x16 => bodyPlan l
  | 0x18 => body1 kind .zoneRing l
  | 0x19 => body1 kind .zoneCheck l
  | 0x1A => body1 kind .bellLog l
  | 0x1B => body1 kind .zoneStatus l
  | 0x20 => body1 kind .stationResume l
  | 0x21 => body1 kind .stationStatus l
  | 0x22 => bodyArrival l
  | 0x23 => body0 kind .deskAnswers l
  | 0x24 => body21 kind .slipReprint l
  | 0x25 => body0 kind .slipStatus l
  | 0x26 => body1 kind .deskStatistics l
  | 0x28 => bodySubmit l
  | 0x29 => bodyMark l
  | 0x2A => body21 kind .markQuery l
  | 0x2B => body11 kind .groupStatus l
  | 0x30 => body1 kind .conflictList l
  | 0x31 => bodyResolve l
  | 0x32 => body1 kind .advanceList l
  | 0x33 => bodyCancel l
  | 0x38 => body1 kind .poolStatus l
  | 0x39 => bodySend l
  | 0x3A => body1 kind .messageList l
  | 0x3B => bodyWord kind .messageCancel l
  | 0x3C => body0 kind .inboundNext l
  | 0x3D => body1 kind .gatewayStatus l
  | 0x40 => body1 kind .archiveDirectory l
  | 0x41 => bodyArchive l
  | 0x42 => body0 kind .storeStatus l
  | _ => .unknownKind kind

/-! ## Writing a request's frame -/

/-- The kind of a request (section 12.2). -/
def Request.kind : Request → Nat
  | .hello => 0x01
  | .conditions => 0x02
  | .attentionMask _ => 0x03
  | .reset _ => 0x04
  | .lampForce _ _ => 0x05
  | .tableSelect _ _ _ => 0x08
  | .tableRead _ => 0x09
  | .tableWrite _ => 0x0A
  | .settingsSave => 0x0B
  | .pupilFind _ _ => 0x0C
  | .senderFind _ => 0x0D
  | .clockSet _ _ => 0x10
  | .dayOpen _ _ _ => 0x11
  | .dayClose _ => 0x12
  | .dayStatus => 0x13
  | .openingDelay _ _ => 0x14
  | .earlyClose _ _ => 0x15
  | .planQuery _ _ => 0x16
  | .zoneRing _ => 0x18
  | .zoneCheck _ => 0x19
  | .bellLog _ => 0x1A
  | .zoneStatus _ => 0x1B
  | .stationResume _ => 0x20
  | .stationStatus _ => 0x21
  | .deskArrival _ _ _ => 0x22
  | .deskAnswers => 0x23
  | .slipReprint _ _ => 0x24
  | .slipStatus => 0x25
  | .deskStatistics _ => 0x26
  | .registerSubmit _ _ _ => 0x28
  | .markSet _ _ _ _ _ _ => 0x29
  | .markQuery _ _ => 0x2A
  | .groupStatus _ _ => 0x2B
  | .conflictList _ => 0x30
  | .conflictResolve _ _ => 0x31
  | .advanceList _ => 0x32
  | .advanceCancel _ _ _ => 0x33
  | .poolStatus _ => 0x38
  | .messageSend _ _ _ => 0x39
  | .messageList _ => 0x3A
  | .messageCancel _ => 0x3B
  | .inboundNext => 0x3C
  | .gatewayStatus _ => 0x3D
  | .archiveDirectory _ => 0x40
  | .archiveRead _ _ _ => 0x41
  | .storeStatus => 0x42
  | .unknownKind k => k
  | .badBody k => k

def rawDateBytes (d : RawDate) : List Byte := b1 d.day ++ b1 d.month ++ b1 d.year

def rawTimeBytes (t : RawTime) : List Byte := b1 t.hour ++ b1 t.minute ++ b1 t.second

def optTimeBytes : Option RawTime → List Byte
  | some t => rawTimeBytes t
  | none => []

def quadBytes (q : Quad Nat) : List Byte := b1 q.q0 ++ b1 q.q1 ++ b1 q.q2 ++ b1 q.q3

def optQuadBytes : Option (Quad Nat) → List Byte
  | some q => quadBytes q
  | none => []

def b3of (n : Nat) : List Byte := [BitVec.ofNat 8 (n / 65536), BitVec.ofNat 8 (n / 256), BitVec.ofNat 8 n]

def RawEntry.bytes (e : RawEntry) : List Byte := b2 e.pupil ++ b1 e.mark ++ b1 e.minutes

def RawResolve.bytes : RawResolve → List Byte
  | .dismiss => b1 dismissCode
  | .settle m n t => b1 m ++ b1 n ++ optTimeBytes t

def RawSend.bytes : RawSend → List Byte
  | .template n => b1 0 ++ b1 n
  | .text t => b1 1 ++ bText t

/-- The body of a request (section 12.2, R211). -/
def Request.body : Request → List Byte
  | .hello => []
  | .conditions => []
  | .attentionMask set => b3of set
  | .reset c => b1 c
  | .lampForce l f => b1 l ++ b1 f
  | .tableSelect t i m => b1 t ++ b2 i ++ b1 m
  | .tableRead n => b1 n
  | .tableWrite l => l
  | .settingsSave => []
  | .pupilFind k v => b1 k ++ b4 v
  | .senderFind t => bText t
  | .clockSet d t => rawDateBytes d ++ rawTimeBytes t
  | .dayOpen d k x => rawDateBytes d ++ quadBytes k ++ optQuadBytes x
  | .dayClose f => b1 f
  | .dayStatus => []
  | .openingDelay t d => b1 t ++ b1 d
  | .earlyClose t m => b1 t ++ b1 m
  | .planQuery t none => b1 t
  | .planQuery t (some n) => b1 t ++ b1 n
  | .zoneRing z => b1 z
  | .zoneCheck z => b1 z
  | .bellLog z => b1 z
  | .zoneStatus z => b1 z
  | .stationResume n => b1 n
  | .stationStatus n => b1 n
  | .deskArrival k v t => b1 k ++ b4 v ++ optTimeBytes t
  | .deskAnswers => []
  | .slipReprint p ss => b2 p ++ b1 ss
  | .slipStatus => []
  | .deskStatistics c => b1 c
  | .registerSubmit g ss es => b1 g ++ b1 ss ++ es.flatMap RawEntry.bytes
  | .markSet p ss m n k t => b2 p ++ b1 ss ++ b1 m ++ b1 n ++ b1 k ++ optTimeBytes t
  | .markQuery p ss => b2 p ++ b1 ss
  | .groupStatus ss g => b1 ss ++ b1 g
  | .conflictList x => b1 x
  | .conflictResolve i w => b1 i ++ w.bytes
  | .advanceList x => b1 x
  | .advanceCancel d p ss => rawDateBytes d ++ b2 p ++ b1 ss
  | .poolStatus c => b1 c
  | .messageSend p ss w => b2 p ++ b1 ss ++ w.bytes
  | .messageList x => b1 x
  | .messageCancel n => b2 n
  | .inboundNext => []
  | .gatewayStatus c => b1 c
  | .archiveDirectory x => b1 x
  | .archiveRead d i n => rawDateBytes d ++ b2 i ++ b1 n
  | .storeStatus => []
  | .unknownKind _ => []
  | .badBody _ => []

/-- The characters of the host frame that carries a request under a tag (R193): the start character, length, kind, tag, body
and check. -/
def encodeFrame (tag : Nat) (r : Request) : List Byte :=
  let part := b1 r.body.length ++ b1 r.kind ++ b1 tag ++ r.body
  0xA5#8 :: part ++ [checkOf part]

end Sys2Proof
end

