-- ==== Sys2Proof/Machine/Factory.lean ====
section
/-! DEFINITION. The factory values of the settings tables (R14, R28, R41, R58, R149, R204, and the OPTIONS values of R106,
R119, R137 and R152), and what each block holds after a reset. -/

namespace Sys2Proof.Machine

/-! ## Settings tables -/

def bytes (l : List Nat) : Text := l.map (BitVec.ofNat 8)

/-- R14: in-use clear, short code p + 1, badge 0, name "-", group 0. -/
def factoryPupil (p : Nat) : Pupil := ⟨false, p + 1, 0, [0x2D#8], 0⟩

/-- R14. -/
def factoryGroup (_ : Nat) : Group := ⟨[], 0, 0, true⟩

/-- R14: the number is the single digit "0". -/
def factoryContact (_ : Nat) : Contact := ⟨false, [0x30#8], .text, none, false, false, false⟩

/-- R28. -/
def factoryPlan (_ : Nat) : Plan :=
  { start := 520
    segs :=
      [⟨.registration, 10, 10, false, .start, false, some .am⟩,
       ⟨.lesson, 60, 40, true, .change, false, none⟩,
       ⟨.lesson, 60, 40, true, .change, false, none⟩,
       ⟨.break_, 20, 10, true, .change, false, none⟩,
       ⟨.lesson, 60, 40, true, .change, false, none⟩,
       ⟨.lunch, 45, 30, true, .change, false, none⟩,
       ⟨.lesson, 60, 40, true, .change, false, some .pm⟩,
       ⟨.lesson, 55, 40, true, .change, false, none⟩]
    grace := 5
    kAm := 20
    kPm := 15
    allowance := 5
    warning := 2 }

/-- R41: zone z follows track z. -/
def factoryZone (z : Fin 4) : ZoneCfg := ⟨some z, 6, 4, 2, 6, 5, 2, 3, true⟩

/-- R58. -/
def factoryStation : StationCfg := ⟨true, 9600, 11, 10⟩

/-- Template 0, the absence alert (R149): "[NAME] ([GROUP]) was not in school for the [SESSION] register on [DATE]. Please reply ABSENT with a reason, or call the office." -/
def factoryTemplate0 : Text :=
  bytes [1, 32, 40, 2, 41, 32, 119, 97, 115, 32, 110, 111, 116, 32, 105, 110, 32, 115, 99, 104, 111, 111, 108,
    32, 102, 111, 114, 32, 116, 104, 101, 32, 4, 32, 114, 101, 103, 105, 115, 116, 101, 114, 32, 111, 110, 32,
    3, 46, 32, 80, 108, 101, 97, 115, 101, 32, 114, 101, 112, 108, 121, 32, 65, 66, 83, 69, 78, 84, 32, 119,
    105, 116, 104, 32, 97, 32, 114, 101, 97, 115, 111, 110, 44, 32, 111, 114, 32, 99, 97, 108, 108, 32, 116,
    104, 101, 32, 111, 102, 102, 105, 99, 101, 46]

/-- Template 1, the late notice (R149): "[NAME] arrived late at [TIME] on [DATE], [MINUTES] min after the [SESSION] start." -/
def factoryTemplate1 : Text :=
  bytes [1, 32, 97, 114, 114, 105, 118, 101, 100, 32, 108, 97, 116, 101, 32, 97, 116, 32, 5, 32, 111, 110, 32,
    3, 44, 32, 6, 32, 109, 105, 110, 32, 97, 102, 116, 101, 114, 32, 116, 104, 101, 32, 4, 32, 115, 116, 97,
    114, 116, 46]

/-- Template 2, the pattern notice (R149): "[NAME] has been late several times this week. Please contact the school office." -/
def factoryTemplate2 : Text :=
  bytes [1, 32, 104, 97, 115, 32, 98, 101, 101, 110, 32, 108, 97, 116, 101, 32, 115, 101, 118, 101, 114, 97,
    108, 32, 116, 105, 109, 101, 115, 32, 116, 104, 105, 115, 32, 119, 101, 101, 107, 46, 32, 80, 108, 101, 97,
    115, 101, 32, 99, 111, 110, 116, 97, 99, 116, 32, 116, 104, 101, 32, 115, 99, 104, 111, 111, 108, 32, 111,
    102, 102, 105, 99, 101, 46]

/-- Template 3, the arrival correction (R149): "Update: [NAME] arrived in school at [TIME] on [DATE]. Please disregard our absence message." -/
def factoryTemplate3 : Text :=
  bytes [85, 112, 100, 97, 116, 101, 58, 32, 1, 32, 97, 114, 114, 105, 118, 101, 100, 32, 105, 110, 32, 115,
    99, 104, 111, 111, 108, 32, 97, 116, 32, 5, 32, 111, 110, 32, 3, 46, 32, 80, 108, 101, 97, 115, 101, 32,
    100, 105, 115, 114, 101, 103, 97, 114, 100, 32, 111, 117, 114, 32, 97, 98, 115, 101, 110, 99, 101, 32, 109,
    101, 115, 115, 97, 103, 101, 46]

/-- Template 4, the report receipt (R149): "Your message of [DATE] [TIME] has been received by the school office." -/
def factoryTemplate4 : Text :=
  bytes [89, 111, 117, 114, 32, 109, 101, 115, 115, 97, 103, 101, 32, 111, 102, 32, 3, 32, 5, 32, 104, 97, 115,
    32, 98, 101, 101, 110, 32, 114, 101, 99, 101, 105, 118, 101, 100, 32, 98, 121, 32, 116, 104, 101, 32, 115,
    99, 104, 111, 111, 108, 32, 111, 102, 102, 105, 99, 101, 46]

/-- The factory templates 0 to 7 (R149); 5 to 7 are empty. -/
def factoryTemplate (n : Nat) : Text :=
  match n with
  | 0 => factoryTemplate0
  | 1 => factoryTemplate1
  | 2 => factoryTemplate2
  | 3 => factoryTemplate3
  | 4 => factoryTemplate4
  | _ => []

/-- R204. -/
def factoryLamps : Quad LampCfg :=
  ⟨⟨.slipQueueNotEmpty, .solid, 0⟩, ⟨.dueAlerts, .slow, 2⟩, ⟨.gatewayLinkDown, .fast, 0⟩, ⟨.zoneFaultActive, .slow, 5⟩⟩

/-- R106, R119, R137, R152. -/
def factoryOptions : Options := ⟨10, 3, ⟨6, 3, 5, 2⟩, 2, 300, 120, 240, 60, true⟩

def factorySettings : Settings :=
  { pupils := []
    contacts := []
    groups := []
    plans := []
    zones := ⟨factoryZone 0, factoryZone 1, factoryZone 2, factoryZone 3⟩
    stations := Hex.all factoryStation
    templates := []
    lamps := factoryLamps
    options := factoryOptions }

/-! ## What the blocks hold after a reset -/

/-- R16: power-on and the reset pin. -/
def Clock.initial : Clock := ⟨firstDate, 5, 0, false⟩

def Clock.stamp (c : Clock) : Stamp := ⟨c.date, c.secs⟩

/-- R20. -/
def Track.initial : Track := ⟨.ended, none, 0, 0, none⟩

/-- R20. -/
def Planner.initial : Planner := ⟨.closed, none, Quad.all Track.initial, false⟩

/-- R42. -/
def Zone.initial : Zone :=
  ⟨.idle, 0, [], [], false, false, .clear, none, none, false, false, 0, 0, 0, 0, 0, 0, 0⟩

/-- R61. -/
def Station.initial : Station :=
  ⟨false, none, 0, [], 0, [], none, ⟨0, 0, 0, 0, 0, 0, 0, 0, 0, 0, 0⟩⟩

/-- R95: every count and accumulator 0, the window starting now (R96). -/
def DeskStats.cleared (now : Stamp) : DeskStats :=
  ⟨Hex.all ⟨0, 0, 0⟩, ⟨0, 0, 0⟩, ⟨0, 0, 0⟩, Hex.all 0, Hex.all 0, Hex.all 0, 0, 0, 0, now⟩

/-- R75. -/
def Desk.initial (now : Stamp) : Desk := ⟨none, 7, [], 1, [], DeskStats.cleared now⟩

/-- R94. -/
def SlipLine.initial : SlipLine := ⟨[], 1, none, .empty, false, false, 0, 0, 0, 0, 0, 0⟩

/-- A cleared session record (R97). -/
def Rec.cleared : Rec := ⟨.nothing, 0, none, false, false, false, false, none, .noAlert, none, none, none⟩

/-- R99: no track holds a plan in force and no session has a state. -/
def Register.initial : Register := ⟨[], Quad.all ⟨none, none⟩, [], []⟩

/-- R120, R126, R132. -/
def Recon.initial : Recon := ⟨[], 1, ⟨0, 0, 0, 0, 0⟩, [], ⟨0, 0, 0, 0, 0, 0, 0⟩, [], ⟨0, 0, 0, 0, 0⟩⟩

/-- R146, R148: all storage free, each class's free credits equal to its setting. -/
def Pool.initial (credits : PerClass Nat) (now : Stamp) : Pool :=
  ⟨Config.sharedDescriptors, Config.sharedSegments, credits, [], 1, ⟨0, ⟨0, 0, 0, 0⟩, ⟨0, 0, 0, 0⟩, 0, now⟩⟩

/-- R157. -/
def Scheduler.initial : Scheduler := ⟨[], [], [], [], 1, [], []⟩

def EndCounts.zero : EndCounts := ⟨0, 0, 0, 0, 0⟩

/-- R173. -/
def GwStats.zero : GwStats :=
  ⟨0, 0, 0, 0, 0, 0, 0, 0, 0, 0, 0, 0, 0, 0, EndCounts.zero, EndCounts.zero, EndCounts.zero⟩

/-- R157. -/
def Gateway.initial : Gateway := ⟨false, none, 0, none, 0, none, [], GwStats.zero⟩

/-- The Store Engine after a reset, before the directory region is read, over bytes that a reset keeps (R179). -/
def Store.initial (mem : List (Nat × Byte)) (spoiled : List Nat) : Store :=
  ⟨mem, spoiled, .idle, .idle, false, [], [], [], List.replicate Config.directorySlots none, 1, 0, 0, none, none, none,
    none, 0⟩

/-- R198, R201, R203, R208: the link after a reset, with the settings load under way. -/
def HostLink.initial (cause : ResetCause) (fast : Bool) : HostLink :=
  ⟨none, 0, [], none, none, [], [], BitVec.allOnes 20, ⟨.pupils, 0, .still⟩, 0, 0, 0, 0, 0, cause, fast, false, true, false⟩

/-- R204. -/
def Lamps.initial : Lamps := ⟨Quad.all 0, Quad.all .free, 0⟩

end Sys2Proof.Machine
end

