-- ==== Sys2Proof/Machine/State.lean ====
section
/-! DEFINITION. The state of the FOC-24: every block's state as plain data, and the queue of the commands that wait. -/

namespace Sys2Proof.Machine

/-- Nothing faults: the part answers, counts or ignores every wrong input (INVENTORY, Faults). No meaning raises a fault,
so the type has no constructor (DEDUCED, log 30). Safe. -/
inductive Fault where
deriving DecidableEq, Repr

/-- Why a command has no meaning. -/
inductive Refusal where
  /-- Raised by exec's arm of a command that has no meaning yet; no arm raises it. Safe: the machine stops. -/
  | notModelled (mnemonic : String)
deriving DecidableEq, Repr

/-- The machine (INVENTORY, State). -/
structure State where
  clock : Clock
  set : Settings
  plan : Planner
  bells : Quad Zone
  stations : Hex Station
  desk : Desk
  slips : SlipLine
  reg : Register
  recon : Recon
  pool : Pool
  sched : Scheduler
  gw : Gateway
  store : Store
  link : HostLink
  lamps : Lamps
  /-- The model's own: how many free bytes have been drawn (DESIGN CHOICE, log 2). -/
  free : Nat
  /-- The model's own: the commands that wait, first in first out (DESIGN CHOICE, log 1). -/
  pending : List Instr
deriving DecidableEq, Repr

/-- The part right after the power-on reset, before the settings load has ended (R16, R20, R42, R61, R75, R94, R97, R120,
R148, R157, R179, R204, R208): the store blank (DESIGN CHOICE, log 9), the strap high (DESIGN CHOICE, log 8), the settings tables at their factory
values until the load ends (DESIGN CHOICE, log 7); how a run starts from here is said in log 28. -/
def State.reset : State :=
  { clock := Clock.initial
    set := factorySettings
    plan := Planner.initial
    bells := Quad.all Zone.initial
    stations := Hex.all Station.initial
    desk := Desk.initial Clock.initial.stamp
    slips := SlipLine.initial
    reg := Register.initial
    recon := Recon.initial
    pool := Pool.initial factoryOptions.credits Clock.initial.stamp
    sched := Scheduler.initial
    gw := Gateway.initial
    store := Store.initial [] []
    link := HostLink.initial .powerOn true
    lamps := Lamps.initial
    free := 0
    pending := [] }

end Sys2Proof.Machine
end

