-- ==== Sys2Proof/Machine/Ops.lean ====
section
/-! DEFINITION. The named operations over the store's bytes, the tables, the session records, the counters and the latched
conditions, which every meaning is written over. -/

namespace Sys2Proof.Machine

/-! ## Counters and conditions -/

/-- A 32-bit saturating counter goes up by k (00, Conventions). -/
def add32 (n k : Nat) : Nat := min (n + k) Config.counterMax

/-- A 32-bit saturating counter goes up by one. -/
def inc32 (n : Nat) : Nat := add32 n 1

/-- The latch count of a condition (R201). -/
def HostLink.count (l : HostLink) (c : Condition) : Nat := Tab.get (fun _ => 0) l.counts c.number

/-- A condition is raised: it becomes set and its latch count goes up by one, holding at 255 (R201). -/
def HostLink.raise (l : HostLink) (c : Condition) : HostLink :=
  { l with counts := Tab.put (fun _ => 0) l.counts c.number (min (l.count c + 1) 255) }

def State.raise (s : State) (c : Condition) : State := { s with link := s.link.raise c }

def State.raiseAll (s : State) (cs : List Condition) : State := cs.foldl State.raise s

/-! ## The store's bytes (R178) -/

/-- What an unlisted byte of the store reads as: an erased byte. -/
def blankAt (_ : Nat) : Byte := Config.blankByte

/-- The byte at an address of the store. -/
def Memory.read (m : List (Nat × Byte)) (a : Nat) : Byte := Tab.get blankAt m a

/-- The canonical form of the store's bytes: addresses strictly rising, no listed byte blank. -/
def Memory.wf (m : List (Nat × Byte)) : Bool := Tab.wf blankAt m

/-- The first address of a store page. -/
def pageAddr (p : Nat) : Nat := Config.pageBytes * p

/-- An erase leaves every byte of the page blank (R178). -/
def Memory.erasePage (m : List (Nat × Byte)) (p : Nat) : List (Nat × Byte) :=
  m.filter fun c => decide (c.1 < pageAddr p) || decide (pageAddr p + Config.pageBytes ≤ c.1)

/-- The cells that bytes laid from an address on give: those that are not blank. -/
def Memory.cells : Nat → List Byte → List (Nat × Byte)
  | _, [] => []
  | a, b :: l => if b = Config.blankByte then Memory.cells (a + 1) l else (a, b) :: Memory.cells (a + 1) l

/-- A program writes the contents of the write buffer into the page; places beyond the buffer stay blank (R178, section
12.6). -/
def Memory.programPage (m : List (Nat × Byte)) (p : Nat) (buf : List Byte) : List (Nat × Byte) :=
  m.filter (fun c => decide (c.1 < pageAddr p)) ++ Memory.cells (pageAddr p) (buf.take Config.pageBytes) ++
    m.filter (fun c => decide (pageAddr p + Config.pageBytes ≤ c.1))

/-- The 1,024 bytes of a page. -/
def Memory.readPage (m : List (Nat × Byte)) (p : Nat) : List Byte :=
  (List.range Config.pageBytes).map fun i => Memory.read m (pageAddr p + i)

/-- A page of all FFh reads blank (section 12.6). -/
def Memory.blankPage (m : List (Nat × Byte)) (p : Nat) : Bool :=
  m.all fun c => decide (c.1 < pageAddr p) || decide (pageAddr p + Config.pageBytes ≤ c.1) || decide (c.2 = Config.blankByte)

/-- The bytes a page holds when nothing says what it holds: free values (DESIGN CHOICE, log 2). -/
def freePage (n : Nat) : List Byte := (List.range Config.pageBytes).map fun i => Config.freeByte (n + i)

/-- The pages known to fail their check, without one whose bytes an operation has given anew (R179). -/
def Store.spoiledBut (x : Store) (p : Nat) : List Nat := x.spoiled.filter (· != p)

/-- A page is left in a condition that the spec does not give: its bytes are free values, and so is whether its check agrees
(DESIGN CHOICE, log 2). -/
def State.tearPage (s : State) (p : Nat) : State :=
  { s with
    store.mem := Memory.programPage s.store.mem p (freePage s.free)
    store.spoiled := s.store.spoiledBut p
    free := s.free + Config.pageBytes }

/-! ## Tables (01, 02, 09) -/

def State.pupil (s : State) (p : Nat) : Pupil := Tab.get factoryPupil s.set.pupils p
def State.group (s : State) (g : Nat) : Group := Tab.get factoryGroup s.set.groups g
def State.contact (s : State) (c : Nat) : Contact := Tab.get factoryContact s.set.contacts c
def State.storedPlan (s : State) (i : Nat) : Plan := Tab.get factoryPlan s.set.plans i
def State.template (s : State) (i : Nat) : Text := Tab.get factoryTemplate s.set.templates i

/-- The pupils in use, in ascending roster index. The factory entry is not in use, so each of them is listed. -/
def State.inUsePupils (s : State) : List Nat := Tab.filter s.set.pupils fun _ e => e.inUse

/-- A group's members: the in-use pupils whose group field names it (R4). -/
def State.members (s : State) (g : Nat) : List Nat := Tab.filter s.set.pupils fun _ e => e.inUse && e.group == g

/-- The track a pupil follows, through the pupil's group (R4). -/
def State.trackOf (s : State) (p : Nat) : Fin 4 := (s.group (s.pupil p).group).track

/-- The badge map, computed where it is read (R3; DEDUCED, log 24): the in-use pupil that carries a badge code; 0 is no key. -/
def Settings.badgeLookup (t : Settings) (code : Nat) : Option Nat :=
  if code = 0 then none else (Tab.filter t.pupils fun _ e => e.inUse && e.badge == code).head?

/-- The short-code map (R3). -/
def Settings.shortLookup (t : Settings) (code : Nat) : Option Nat :=
  (Tab.filter t.pupils fun _ e => e.inUse && e.short == code).head?

/-- Whether one of the pupil's three slots is in use, carries the number and accepts reports (R9). -/
def Settings.reportsFrom (t : Settings) (p : Nat) (number : Text) : Bool :=
  [3 * p, 3 * p + 1, 3 * p + 2].any fun i =>
    let c := Tab.get factoryContact t.contacts i
    c.inUse && c.acceptsReports && c.number == number

/-- The sender map (R9): the in-use pupils that a number may report for, in ascending roster index. -/
def Settings.senderList (t : Settings) (number : Text) : List Nat :=
  Tab.filter t.pupils fun i e => e.inUse && t.reportsFrom i number

/-! ## Session records and tallies (06) -/

/-- The place of a pupil's session record, AM before PM. -/
def recKey (p : Nat) (ss : Session) : Nat := 2 * p + sessionCode ss

/-- The pupil and session of a record's place. -/
def keyPupil (k : Nat) : Nat := k / 2
def keySession (k : Nat) : Session := if k % 2 = 0 then .am else .pm

def clearedAt (_ : Nat) : Rec := Rec.cleared

def State.record (s : State) (p : Nat) (ss : Session) : Rec := Tab.get clearedAt s.reg.recs (recKey p ss)

def State.putRec (s : State) (p : Nat) (ss : Session) (r : Rec) : State :=
  { s with reg.recs := Tab.put clearedAt s.reg.recs (recKey p ss) r }

def State.modRec (s : State) (p : Nat) (ss : Session) (f : Rec → Rec) : State := s.putRec p ss (f (s.record p ss))

def Tally.zero : Tally := ⟨0, 0, false⟩

def zeroTally (_ : Nat) : Tally := Tally.zero

def State.tally (s : State) (p : Nat) : Tally := Tab.get zeroTally s.reg.tallies p

def State.putTally (s : State) (p : Nat) (t : Tally) : State :=
  { s with reg.tallies := Tab.put zeroTally s.reg.tallies p t }

def awaitedAt (_ : Nat) : GroupStatus := .awaited

def State.groupStatus (s : State) (g : Nat) (ss : Session) : GroupStatus :=
  Tab.get awaitedAt s.reg.status (recKey g ss)

def State.setGroupStatus (s : State) (g : Nat) (ss : Session) (v : GroupStatus) : State :=
  { s with reg.status := Tab.put awaitedAt s.reg.status (recKey g ss) v }

def PerSession.get {α : Type} (x : PerSession α) : Session → α
  | .am => x.am
  | .pm => x.pm

def PerSession.set {α : Type} (x : PerSession α) (ss : Session) (v : α) : PerSession α :=
  match ss with
  | .am => { x with am := v }
  | .pm => { x with pm := v }

/-- The state of a track's session, or none (R99). -/
def State.session (s : State) (t : Fin 4) (ss : Session) : Option SessState := (s.reg.sess.get t).get ss

def State.setSession (s : State) (t : Fin 4) (ss : Session) (v : Option SessState) : State :=
  { s with reg.sess := s.reg.sess.set t ((s.reg.sess.get t).set ss v) }

def State.track (s : State) (t : Fin 4) : Track := s.plan.tracks.get t

def State.setTrack (s : State) (t : Fin 4) (v : Track) : State :=
  { s with plan.tracks := s.plan.tracks.set t v }

def PerClass.get {α : Type} (x : PerClass α) : MsgClass → α
  | .alert => x.alert
  | .notice => x.notice
  | .report => x.report
  | .receipt => x.receipt

def PerClass.set {α : Type} (x : PerClass α) (c : MsgClass) (v : α) : PerClass α :=
  match c with
  | .alert => { x with alert := v }
  | .notice => { x with notice := v }
  | .report => { x with report := v }
  | .receipt => { x with receipt := v }

/-- The four classes, in R134's order. -/
def msgClasses : List MsgClass := [.alert, .notice, .report, .receipt]

/-- The next number of a ring 1 to `top` that none of `held` is, starting after `n`; `fuel` numbers are looked at. -/
def nextFree (top : Nat) (held : List Nat) : Nat → Nat → Nat
  | 0, n => n
  | fuel + 1, n =>
    let m := if n ≥ top then 1 else n + 1
    if held.contains m then nextFree top held fuel m else m

/-- The day is past its date (R24: from midnight every track's day end lies in the past). -/
def State.dayOver (s : State) : Bool :=
  match s.plan.dayDate with
  | some d => d != s.clock.date
  | none => false

end Sys2Proof.Machine
end

