-- ==== Sys2Proof/Machine/Operands.lean ====
section
/-! DEFINITION. The operands of requests: the ranges their rules give, and the replies built from them. -/

namespace Sys2Proof.Machine

/-! ## Replies -/

def Reply.just (c : Code) : Reply := ⟨c, []⟩

def Reply.ok (body : List Byte) : Reply := ⟨.ok, body⟩

/-- What a request answers: the state after it, and its reply. -/
abbrev Answered := State × Reply

/-- A request refused with a code, changing nothing (R196). -/
def State.refuse (s : State) (c : Code) : Answered := (s, Reply.just c)

/-- A request answered with values, changing nothing. -/
def State.answer (s : State) (body : List Byte) : Answered := (s, Reply.ok body)

/-! ## Ranges -/

/-- A pupil operand, 0 to 2399. -/
def pupilOk (p : Nat) : Bool := decide (p < Config.pupils)

/-- A group operand, 0 to 119. -/
def groupOk (g : Nat) : Bool := decide (g < Config.groups)

/-- An optional arrival time: absent, or a valid time; none when it is invalid. -/
def arrival? (t : Option RawTime) : Option (Option Nat) :=
  match t with
  | none => some none
  | some t => (rawTime? t).map some

/-- R98: the minutes of L and U lie in 1 to 240, those of every other mark are 0. -/
def minutesSuit (m : Mark) (minutes : Nat) : Bool :=
  match m with
  | .l => decide (1 ≤ minutes) && decide (minutes ≤ 240)
  | .u => decide (1 ≤ minutes) && decide (minutes ≤ 240)
  | _ => minutes == 0

/-- Up to `n` entries of a list from a start position, each with its position. -/
def window {α : Type} (start n : Nat) (l : List α) : List (α × Nat) := ((l.drop start).take n).zipIdx start

/-- The delays of DAY OPEN, 0 where absent (R21). -/
def delaysOf (d : Option (Quad Nat)) : Quad Nat := d.getD (Quad.all 0)

end Sys2Proof.Machine
end

