-- ==== Sys2Proof/Machine/Planner.lean ====
section
/-! DEFINITION. The Day Planner's computations (02): the times of a plan in force (R30), compression (R34, R35), building a
plan in force (R29), and reaching segment starts and day ends (R31). -/

namespace Sys2Proof.Machine

/-! ## Times of a plan in force (R30), in minutes of day -/

/-- The start of each segment, from the start of the first. -/
def segStarts : Nat → List SegIF → List Nat
  | _, [] => []
  | t, g :: l => t :: segStarts (t + g.len) l

/-- The sum of the current lengths. -/
def planLength (l : List SegIF) : Nat := (l.map (·.len)).sum

/-- The day start in force: the stored start time plus D. -/
def dayStart (p : PlanIF) (d : Nat) : Nat := p.start + d

/-- The day end in force. -/
def dayEndOf (p : PlanIF) (d : Nat) : Nat := dayStart p d + planLength p.segs

/-- The start of the first segment of a list that carries a session point. -/
def pointIn (ss : Session) : Nat → List SegIF → Option Nat
  | _, [] => none
  | t, g :: l => if g.seg.point = some ss then some t else pointIn ss (t + g.len) l

/-- The session point (R30). -/
def sessionPoint (p : PlanIF) (d : Nat) (ss : Session) : Option Nat := pointIn ss (dayStart p d) p.segs

/-- A close time is the point plus its offset, held at 23:59 when it would fall at or after 24:00 (R30). -/
def closeFrom (point offset : Nat) : Nat := if point + offset ≥ 1440 then 1439 else point + offset

def closeOffset (p : PlanIF) : Session → Nat
  | .am => p.kAm
  | .pm => p.kPm

/-- The close time of a session (R30). -/
def sessionClose (p : PlanIF) (d : Nat) (ss : Session) : Option Nat :=
  (sessionPoint p d ss).map fun t => closeFrom t (closeOffset p ss)

/-- The plan has a PM point. -/
def hasPm (p : PlanIF) : Bool := p.segs.any fun g => g.seg.point == some .pm

/-- The end of a session's span: the AM span ends at the PM point, or at the day end when there is none (R30). -/
def spanEnd (p : PlanIF) (d : Nat) : Session → Nat
  | .am => (sessionPoint p d .pm).getD (dayEndOf p d)
  | .pm => dayEndOf p d

/-- A minute of day has been reached at a second of day. -/
def reached (minute secs : Nat) : Bool := decide (minute * 60 ≤ secs)

/-! ## Compression (R34, R35) -/

/-- How many remainders stand before the one at index i: the larger ones, and the equal ones of later segments. -/
def rankOf (rems : List Nat) (r i : Nat) : Nat :=
  (rems.zipIdx.filter fun e => decide (e.1 > r) || (e.1 == r && decide (e.2 > i))).length

/-- The cut of each segment for a total cut T over the slacks; a segment that is not eligible has slack 0 (R34). -/
def cuts (total : Nat) (slacks : List Nat) : List Nat :=
  let sum := slacks.sum
  let base := slacks.map fun x => total * x / sum
  let rems := slacks.map fun x => total * x % sum
  let extra := total - base.sum
  (base.zip rems.zipIdx).map fun e =>
    if 0 < e.2.1 && decide (rankOf rems e.2.1 e.2.2 < extra) then e.1 + 1 else e.1

/-- The slack of a segment (R34): its starting length less its minimum when it is eligible. -/
def slackOf (eligible : Bool) (len : Nat) (g : Segment) : Nat := if eligible then len - g.minimum else 0

/-- Compress segments from their starting lengths, or answer the deficit T − S (R35). -/
def compress (total : Nat) (elig : SegIF → Bool) (segs : List SegIF) : Except Nat (List SegIF) :=
  let slacks := segs.map fun g => slackOf (elig g) g.len g.seg
  if total ≤ slacks.sum then
    .ok ((segs.zip (cuts total slacks)).map fun e => { e.1 with len := e.1.len - e.2 })
  else .error (total - slacks.sum)

/-- Every compressible segment is eligible: DAY OPEN, OPENING DELAY, EARLY CLOSE on a PLANNED track (section 2.5). -/
def eligiblePlanned (g : SegIF) : Bool := g.seg.compressible

/-- The compressible segments that have not begun: EARLY CLOSE on a RUNNING track (R38). -/
def eligibleRunning (g : SegIF) : Bool := g.seg.compressible && !g.begun

/-! ## Building a plan in force (R29, R31) -/

/-- Mark begun every segment whose start is at or before the time (R22, R31). -/
def markBegun (secs : Nat) : Nat → List SegIF → List SegIF
  | _, [] => []
  | t, g :: l => { g with begun := g.begun || reached t secs } :: markBegun secs (t + g.len) l

/-- The first segment has begun. -/
def firstBegun (p : PlanIF) : Bool := p.segs.head?.any (·.begun)

/-- The plan in force of a stored plan with every length nominal and every flag clear (R29). -/
def nominalPlan (p : Plan) : PlanIF :=
  { start := p.start
    segs := p.segs.map fun g => ⟨g, g.nominal, false⟩
    grace := p.grace
    kAm := p.kAm
    kPm := p.kPm
    allowance := p.allowance
    warning := p.warning }

/-- The track's state as its begun flags and the time give it when its plan is built (R31). -/
def builtState (p : PlanIF) (d secs : Nat) : TrackState :=
  if reached (dayEndOf p d) secs then .ended else if firstBegun p then .running else .planned

/-- Build a track's plan in force from nominal lengths with T equal to D + E, or answer the deficit (R29). -/
def buildTrack (p : Plan) (kind : Option DayKind) (d e secs : Nat) : Except Nat Track :=
  let n := nominalPlan p
  match compress (d + e) eligiblePlanned n.segs with
  | .error x => .error x
  | .ok segs =>
    let q : PlanIF := { n with segs := markBegun secs (dayStart n d) segs }
    .ok ⟨builtState q d secs, kind, d, e, some q⟩

/-- The stored fields of a plan in force (section 2.4). -/
def baseOf (p : PlanIF) : Plan :=
  { start := p.start
    segs := p.segs.map (·.seg)
    grace := p.grace
    kAm := p.kAm
    kPm := p.kPm
    allowance := p.allowance
    warning := p.warning }

/-- Rebuild a PLANNED track from nominal lengths with another D and E (R36, R37), or answer the deficit. -/
def rebuildTrack (t : Track) (d e secs : Nat) : Except Nat Track :=
  match t.plan with
  | none => .ok t
  | some p => buildTrack (baseOf p) t.kind d e secs

/-- EARLY CLOSE of a RUNNING track (R38): only unbegun segments, from their current lengths, with T equal to the minutes. -/
def compressRunning (t : Track) (minutes : Nat) : Except Nat Track :=
  match t.plan with
  | none => .ok t
  | some p =>
    match compress minutes eligibleRunning p.segs with
    | .error x => .error x
    | .ok segs => .ok { t with early := t.early + minutes, plan := some { p with segs := segs } }

/-- EARLY CLOSE of a track (R37, R38): the track with the minutes taken out of its day, or the deficit. -/
def closeEarly (t : Track) (minutes secs : Nat) : Except Nat Track :=
  match t.state with
  | .planned => rebuildTrack t t.delay (t.early + minutes) secs
  | _ => compressRunning t minutes

/-- The index of the stored plan of a track and day kind (section 2.3). -/
def planIndex (t : Fin 4) (k : DayKind) : Nat := t.val * 4 + k.code

/-- The stored plan that a track's plan in force came from. -/
def State.storedFor (s : State) (t : Fin 4) (k : DayKind) : Plan := s.storedPlan (planIndex t k)

/-- The times that the Day Planner publishes for a track, or none (R32). -/
def State.published (s : State) (t : Fin 4) : Option (PlanIF × Nat) :=
  (s.track t).plan.map fun p => (p, (s.track t).delay)

/-- A track whose plan in force has a PM point. A track with no plan in force has none, so a request that names its PM session is
refused with BAD_ARG (DEDUCED, log 25). -/
def State.trackHasPm (s : State) (t : Fin 4) : Bool :=
  match (s.track t).plan with
  | some p => hasPm p
  | none => false

end Sys2Proof.Machine
end

