-- ==== Sys2Proof/Machine/Bells.lean ====
section
/-! DEFINITION. The Bell Driver (03): bell lists (R43 to R46), rings and the circuit's arbiter (R47 to R49), the monitor (R50
to R53) and circuit checks (R54, R55). Operations on one zone answer the zone and the conditions it raises. -/

namespace Sys2Proof.Machine

/-! ## Bell lists -/

def sourceRank : BellSource → Nat
  | .segment _ => 0
  | .warning => 1
  | .dayEnd => 2

/-- The order of a bell list: by time, and at equal times segment, WARNING, END (R43). -/
def bellBefore (a b : BellEvent) : Bool :=
  decide (a.time < b.time) || (a.time == b.time && decide (sourceRank a.source < sourceRank b.source))

def insertBell (e : BellEvent) : List BellEvent → List BellEvent
  | [] => [e]
  | f :: l => if bellBefore e f then e :: f :: l else f :: insertBell e l

def sortBells (l : List BellEvent) : List BellEvent := l.foldr insertBell []

/-- An event as it is made: SUPPRESSED when it falls within a quiet segment, PENDING otherwise (R43). -/
def newBell (source : BellSource) (kind : BellKind) (time : Nat) (quiet : Bool) : BellEvent :=
  ⟨source, kind, time, if quiet then .suppressed else .pending, none, none, false⟩

def startKind : StartBell → Option BellKind
  | .silent => none
  | .start => some .start
  | .change => some .change

/-- The segment-start events of a plan, segment n at its start (R43). -/
def segmentBells : Nat → Nat → List SegIF → List BellEvent
  | _, _, [] => []
  | n, t, g :: l =>
    match startKind g.seg.bell with
    | some k => newBell (.segment n) k t g.seg.quiet :: segmentBells (n + 1) (t + g.len) l
    | none => segmentBells (n + 1) (t + g.len) l

/-- Whether a time lies within a quiet segment (R43). -/
def quietAt (m : Nat) : Nat → List SegIF → Bool
  | _, [] => false
  | t, g :: l => if t ≤ m && m < t + g.len then g.seg.quiet else quietAt m (t + g.len) l

/-- The WARNING event: at the AM point less W, when W is at least 1 and that time is at or after 00:00 (R43). -/
def warningBell (p : PlanIF) (d : Nat) : List BellEvent :=
  match sessionPoint p d .am with
  | some t =>
    if 1 ≤ p.warning && p.warning ≤ t then
      [newBell .warning .warning (t - p.warning) (quietAt (t - p.warning) (dayStart p d) p.segs)]
    else []
  | none => []

/-- The END event, quiet when the last segment is (R43). -/
def endBell (p : PlanIF) (d : Nat) : BellEvent :=
  newBell .dayEnd .dayEnd (dayEndOf p d) (p.segs.getLast?.any (·.seg.quiet))

/-- The events a publication gives (R43). -/
def bellsOf (p : PlanIF) (d : Nat) : List BellEvent :=
  sortBells (segmentBells 0 (dayStart p d) p.segs ++ warningBell p d ++ [endBell p d])

/-- A SUPPRESSED event whose time is at or before now has been reached (section 3.2). -/
def passQuiet (secs : Nat) (e : BellEvent) : BellEvent :=
  if e.outcome == .suppressed && reached e.time secs then { e with passed := true } else e

/-- An event whose time is at or before now takes SKIPPED unless it is SUPPRESSED (R44, R46). So does one that R45 recomputes:
R45 says SKIPPED of every such event and R43 that a SUPPRESSED one keeps its outcome, and the model follows R43
(DESIGN CHOICE, log 22). -/
def skipPast (secs : Nat) (e : BellEvent) : BellEvent :=
  if e.outcome == .pending && reached e.time secs then { e with outcome := .skipped } else passQuiet secs e

/-- The events of the publication of a zone's track; a zone following NONE has none (R43). -/
def State.zonePublication (s : State) (z : Fin 4) : List BellEvent :=
  match (s.set.zones.get z).track with
  | none => []
  | some t =>
    match s.published t with
    | none => []
    | some (p, d) => bellsOf p d

/-- What becomes of a ring under way when its list is discarded: it rings out kept apart (R44). -/
def keepRing : ZoneAct → ZoneAct
  | .ringing (.event _ k) => .ringing (.kept k)
  | a => a

/-- R44: the list is discarded and a new one built; WAITING events of the old list are kept apart. Events still kept apart from an
earlier list stand before them and so ring first: R48 gives the list order only (DESIGN CHOICE, log 38). -/
def rebuildList (secs : Nat) (fresh : List BellEvent) (z : Zone) : Zone :=
  { z with
    act := keepRing z.act
    kept := z.kept ++ z.list.filter (·.outcome == .waiting)
    list := fresh.map (skipPast secs) }

/-- The time of an event has been reached (section 3.2, R45): it has an outcome that only a reached event has, or it is
SUPPRESSED and its time has been passed. A backward step takes neither back (R46). -/
def bellReached (e : BellEvent) : Bool :=
  match e.outcome with
  | .pending => false
  | .suppressed => e.passed
  | _ => true

/-- R45: the unreached events are recomputed source by source, the reached ones kept. -/
def recomputeList (secs : Nat) (fresh : List BellEvent) (z : Zone) : Zone :=
  let keep := z.list.filter bellReached
  let new := (fresh.filter fun e => !keep.any fun k => k.source == e.source).map (skipPast secs)
  { z with list := sortBells (keep ++ new) }

/-- R46: every PENDING event whose time a forward step passes takes SKIPPED, and a SUPPRESSED one is reached. -/
def skipReached (secs : Nat) (z : Zone) : Zone := { z with list := z.list.map (skipPast secs) }

/-- A minute event reaches the times of the SUPPRESSED events, which never come due (section 3.2, R47). -/
def passQuietAll (secs : Nat) (z : Zone) : Zone := { z with list := z.list.map (passQuiet secs) }

/-- R46: at a close every PENDING event takes SKIPPED. -/
def skipAll (z : Zone) : Zone :=
  { z with list := z.list.map fun e => if e.outcome == .pending then { e with outcome := .skipped } else e }

/-! ## Rings and checks of one zone -/

/-- The open levels in mA (section 3.1). -/
def levelMa : Nat → Nat
  | 0 => 25
  | 1 => 50
  | 2 => 75
  | 3 => 100
  | 4 => 150
  | 5 => 200
  | 6 => 300
  | _ => 400

/-- The duration of a ring by its kind (R47). -/
def ringDuration (c : ZoneCfg) : BellKind → Nat
  | .start => c.start
  | .change => c.change
  | .warning => c.warning
  | .dayEnd => c.dayEnd

def durationOf (c : ZoneCfg) : RingWhat → Nat
  | .event _ k => ringDuration c k
  | .kept k => ringDuration c k
  | .manual => c.manual

/-- A ring starts: the zone is RINGING, with the duration, level and filter read now (R41, R47). -/
def startRing (c : ZoneCfg) (what : RingWhat) (z : Zone) : Zone :=
  { z with
    act := .ringing what
    left := durationOf c what
    openSeen := false
    overSeen := false
    level := c.level
    filter := c.filter }

/-- The first event of a list that satisfies a condition is changed. -/
def changeFirst (p : BellEvent → Bool) (f : BellEvent → BellEvent) : List BellEvent → List BellEvent
  | [] => []
  | e :: l => if p e then f e :: l else e :: changeFirst p f l

/-- A list event starts ringing: its outcome is RINGING and its ring start recorded (R47). -/
def ringEvent (c : ZoneCfg) (secs : Nat) (e : BellEvent) (z : Zone) : Zone :=
  startRing c (.event e.source e.kind)
    { z with
      list := changeFirst (fun f => f.source == e.source)
        (fun f => { f with outcome := .ringing, ringStart := some secs }) z.list }

/-- A check starts: the probe runs 2 s, the request for it is removed, and the checks counter goes up (R54). -/
def startCheck (z : Zone) : Zone :=
  { z with act := .checking, left := 2, autoRequest := false, checks := inc32 z.checks }

/-- R48: the circuit is handed on: a kept WAITING event, a WAITING event of the list, the pending manual ring, the
auto-check; failing all, the zone is IDLE and no seconds remain (R57 gives none a value: DESIGN CHOICE, log 39). -/
def handOn (c : ZoneCfg) (secs : Nat) (z : Zone) : Zone :=
  match z.kept with
  | e :: rest => startRing c (.kept e.kind) { z with kept := rest }
  | [] =>
    match z.list.find? (·.outcome == .waiting) with
    | some e => ringEvent c secs e z
    | none =>
      if z.manualPending then startRing c .manual { z with manualPending := false }
      else if z.autoRequest then startCheck z
      else { z with act := .idle, left := 0 }

/-- The fault seen in the ring under way (R52). -/
def ringFault (z : Zone) : FaultSeen :=
  if z.overSeen then .overload else if z.openSeen then .openFault else .clear

def activeOf : FaultSeen → ActiveFault
  | .clear => .clear
  | .openFault => .openFault
  | .overload => .overload

/-- A ring is FAILED when a fault arose during it (R52). -/
def ringFailed (z : Zone) : Bool := z.openSeen || z.overSeen

def outcomeOf (failed : Bool) : BellOutcome := if failed then .failed else .rung

/-- R52: the outcome of a ring is fixed: counters, the event or the last manual outcome, the active fault, the auto-check
request. -/
def fixRing (c : ZoneCfg) (what : RingWhat) (z : Zone) : Zone :=
  let bad := ringFailed z
  let z1 := { z with
    rings := inc32 z.rings
    failed := if bad then inc32 z.failed else z.failed
    active := activeOf (ringFault z)
    autoRequest := z.autoRequest || (bad && c.auto) }
  match what with
  | .event src _ =>
    { z1 with
      list := changeFirst (fun f => f.source == src)
        (fun f => { f with outcome := outcomeOf bad, fault := some (ringFault z) }) z.list }
  | .kept _ => z1
  | .manual => { z1 with lastManual := some (!bad) }

/-- A ring ends: its outcome is fixed and the circuit handed on in the same event (R48, R52). -/
def endRing (c : ZoneCfg) (secs : Nat) (z : Zone) : Zone :=
  match z.act with
  | .ringing what => handOn c secs (fixRing c what z)
  | _ => z

/-- R47: a PENDING event comes due. -/
def bellDue (c : ZoneCfg) (secs : Nat) (src : BellSource) (z : Zone) : Zone × List Condition :=
  match z.list.find? fun e => e.source == src && e.outcome == .pending with
  | none => (z, [])
  | some e =>
    match z.act with
    | .idle => (ringEvent c secs e z, [])
    | .checking => (ringEvent c secs e { z with lastCheck := some .aborted }, [.checkDone])
    | .ringing _ =>
      ({ z with list := changeFirst (fun f => f.source == src) (fun f => { f with outcome := .waiting }) z.list }, [])

/-- The events that a minute event makes due, in list order (R47). -/
def dueSources (secs : Nat) (z : Zone) : List BellSource :=
  z.list.filterMap fun e => if e.outcome == .pending && reached e.time secs then some e.source else none

/-- R49: ZONE RING on a zone; none when a manual ring is already pending. -/
def manualRing (c : ZoneCfg) (z : Zone) : Option (Zone × List Condition) :=
  match z.act with
  | .idle => some (startRing c .manual z, [])
  | .checking => some (startRing c .manual { z with lastCheck := some .aborted }, [.checkDone])
  | .ringing _ => if z.manualPending then none else some ({ z with manualPending := true }, [])

/-- R50: the sensed current stayed at or under `peak` mA for `ms` milliseconds of a ring. The open fault arises when that is
below the open level for the filter time, once in a ring. -/
def openFault (peak ms : Nat) (z : Zone) : Zone × List Condition :=
  match z.act with
  | .ringing _ =>
    if !z.openSeen && decide (peak < levelMa z.level) && decide (z.filter * 100 ≤ ms) then
      ({ z with openSeen := true, opens := inc32 z.opens }, [.zoneFault])
    else (z, [])
  | _ => (z, [])

/-- R51: the sensed current stayed at or over `least` mA for `ms` milliseconds of a ring. -/
def overload (c : ZoneCfg) (secs least ms : Nat) (z : Zone) : Zone × List Condition :=
  match z.act with
  | .ringing _ =>
    if decide (2000 < least) && decide (50 ≤ ms) then
      (endRing c secs { z with overSeen := true, overloads := inc32 z.overloads }, [.zoneFault])
    else (z, [])
  | _ => (z, [])

/-- R55: a check ends with a result other than ABORTED, and the circuit is handed on. -/
def endCheck (c : ZoneCfg) (secs : Nat) (r : CheckResult) (z : Zone) : Zone × List Condition :=
  let z1 := { z with lastCheck := some r }
  match r with
  | .ok => (handOn c secs { z1 with active := .clear }, [.checkDone])
  | .openCircuit => (handOn c secs { z1 with active := .openFault }, [.zoneFault, .checkDone])
  | .short => (handOn c secs { z1 with active := .short }, [.zoneFault, .checkDone])
  | .aborted => (z1, [.checkDone])

/-- R55: the probe current stayed at or over `least` mA for `ms` milliseconds. -/
def checkShort (c : ZoneCfg) (secs least ms : Nat) (z : Zone) : Zone × List Condition :=
  match z.act with
  | .checking => if decide (250 < least) && decide (50 ≤ ms) then endCheck c secs .short z else (z, [])
  | _ => (z, [])

/-- R55: a probe runs its full 2 s: OPEN when the current stayed below 10 mA throughout its last second, OK otherwise. -/
def probeEnd (c : ZoneCfg) (secs peak : Nat) (z : Zone) : Zone × List Condition :=
  match z.act with
  | .checking => endCheck c secs (if peak < 10 then .openCircuit else .ok) z
  | _ => (z, [])

/-- A second event on a zone: the ring or probe under way counts down, and ends when it has run (R47, R55). -/
def zoneSecond (c : ZoneCfg) (secs peak : Nat) (z : Zone) : Zone × List Condition :=
  match z.act with
  | .idle => (z, [])
  | .ringing _ => if z.left ≤ 1 then (endRing c secs z, []) else ({ z with left := z.left - 1 }, [])
  | .checking => if z.left ≤ 1 then probeEnd c secs peak z else ({ z with left := z.left - 1 }, [])

/-! ## The zones in State -/

/-- Change one zone and raise what the change raises. -/
def State.onZone (s : State) (z : Fin 4) (f : ZoneCfg → Zone → Zone × List Condition) : State :=
  let r := f (s.set.zones.get z) (s.bells.get z)
  ({ s with bells := s.bells.set z r.1 }).raiseAll r.2

/-- Change every zone, raising nothing. -/
def State.onZones (s : State) (f : Fin 4 → Zone → Zone) : State :=
  { s with bells := s.bells.mapIdx f }

/-- R44: DAY OPEN rebuilds every zone's list. -/
def State.rebuildBells (s : State) : State :=
  s.onZones fun z => rebuildList s.clock.secs (s.zonePublication z)

/-- R45: the zones that follow a republished track recompute their lists. -/
def State.recomputeBells (s : State) (t : Fin 4) : State :=
  s.onZones fun z x =>
    if (s.set.zones.get z).track = some t then recomputeList s.clock.secs (s.zonePublication z) x else x

/-- R47 at a minute event: the SUPPRESSED events' times are reached, and in each zone the due events are taken in list order. -/
def State.ringDueBells (s : State) : State :=
  fours.foldl (fun s z =>
    (dueSources s.clock.secs (s.bells.get z)).foldl
      (fun s src => s.onZone z fun c x => bellDue c s.clock.secs src x) s)
    (s.onZones fun _ => passQuietAll s.clock.secs)

/-- R53: the zone's bell at a session point failed. -/
def bellFailed (z : Zone) (point : Nat) : Bool :=
  z.list.any fun e =>
    match e.source with
    | .segment _ => e.time == point && e.outcome == .failed
    | _ => false

end Sys2Proof.Machine
end

