-- ==== Sys2Proof/Machine/Flags.lean ====
section
/-! DEFINITION. The flags the part shows: the latched conditions and ATTN (R201), and the lamps (R204). -/

namespace Sys2Proof.Machine

/-! ## Conditions and ATTN -/

/-- The 20 conditions in order. -/
def conditions : List Condition :=
  [.clockUnset, .dayReady, .registerMissing, .conflict, .conflictOverflow, .alertUndelivered, .inboundWaiting, .zoneFault,
    .checkDone, .stationHeld, .slipDrop, .printerStall, .poolReserve, .poolReject, .gatewayDown, .archiveDone, .archiveFail,
    .saveDone, .settingsDefault, .linkOverrun]

/-- A condition is set exactly when it has been raised since it was last cleared (R201). -/
def HostLink.isSet (l : HostLink) (c : Condition) : Bool := decide (0 < l.count c)

/-- The mask enables the condition (R201). -/
def HostLink.enabled (l : HostLink) (c : Condition) : Bool := l.mask.getLsbD c.number

/-- "ATTN is asserted while at least one condition that the mask enables is set" (R201). -/
def HostLink.attn (l : HostLink) : Bool := conditions.any fun c => l.isSet c && l.enabled c

/-- A set of conditions as three bytes: bit n stands for condition n (section 12.2). -/
def conditionBits (l : HostLink) : Nat :=
  conditions.foldl (fun n c => if l.isSet c then n + 2 ^ c.number else n) 0

def b3 (n : Nat) : List Byte := b1 (n / 65536) ++ b2 (n % 65536)

/-- The latch counts of the set conditions, in ascending number (section 12.2). -/
def conditionCounts (l : HostLink) : List Byte :=
  conditions.flatMap fun c => if l.isSet c then b1 (l.count c) else []

/-! ## Lamps (R204) -/

/-- Whether a message is held on reserve (R146). -/
def Message.onReserve (m : Message) : Bool :=
  match m.storage with
  | .reserve _ => true
  | .shared _ => false

/-- A lamp source's value (section 11.5). -/
def State.lampSource (s : State) : LampSource → Bool
  | .off => false
  | .slipQueueNotEmpty => !s.slips.queue.isEmpty || s.slips.slot.isSome
  | .dueAlerts => s.reg.recs.any fun e => e.2.alert == .due
  | .conflicts => !s.recon.conflicts.isEmpty
  | .gatewayLinkDown => !s.gw.up
  | .zoneFaultActive => s.bells.toList.any fun z => z.active != .clear
  | .stationHeldAny => s.stations.toList.any fun t => t.held
  | .poolOnReserve => s.pool.msgs.any Message.onReserve
  | .dayOpen => s.plan.dayState == .opened
  | .printerStalled => s.slips.state == .stalled

/-- The value of the source that a lamp shows. -/
def State.lampOn (s : State) (l : Fin 4) : Bool := s.lampSource (s.set.lamps.get l).source

/-- A lamp is active while its source is true or its stretch remaining is above 0 (R204). -/
def State.lampActive (s : State) (l : Fin 4) : Bool := s.lampOn l || decide (0 < s.lamps.stretch.get l)

/-- Whether a lamp is lit, by its force, its mode and the eighth of the second (R204). -/
def State.lampLit (s : State) (l : Fin 4) : Bool :=
  match s.lamps.force.get l with
  | .on => true
  | .off => false
  | .free =>
    s.lampActive l &&
      match (s.set.lamps.get l).mode with
      | .solid => true
      | .slow => decide (s.lamps.phase < 4)
      | .fast => s.lamps.phase % 2 == 0

/-- A lamp's stretch remaining after an event: the stretch when the source has become false, 0 when it has become true,
kept otherwise (R204). -/
def followLamp (was now : Bool) (stretch left : Nat) : Nat :=
  if was && !now then stretch else if !was && now then 0 else left

/-- A lamp's entry gives way to another at once (R200, R204): the lamp follows from the old entry's source to the new entry's, and a stretch
that starts is the new entry's (DEDUCED, log 23). -/
def State.setLamp (s : State) (l : Fin 4) (e : LampCfg) : State :=
  { s with
    set.lamps := s.set.lamps.set l e
    lamps.stretch := s.lamps.stretch.set l
      (followLamp (s.lampOn l) (s.lampSource e.source) e.stretch (s.lamps.stretch.get l)) }

/-- The lamps follow their sources, under the entries now in force, from the state before an event to the state after it (R204); a lamp whose
entry the event wrote has followed that write already (`setLamp`). A source that is true or false only inside the event starts and ends
no stretch (DESIGN CHOICE, log 45). -/
def State.followLamps (before after : State) : State :=
  { after with
    lamps.stretch := after.lamps.stretch.mapIdx fun l left =>
      let e := after.set.lamps.get l
      followLamp (before.lampSource e.source) (after.lampSource e.source) e.stretch left }

end Sys2Proof.Machine
end

