-- ==== Sys2Proof/Machine/Recon.lean ====
section
/-! DEFINITION. The Reconciliation Unit's three collections (07): recording conflicts (R121, R122), the advance report list
(R126), and the notice wait list's joins and removals (R132, R133). -/

namespace Sys2Proof.Machine

/-! ## The conflict list -/

/-- The list's entry for a pupil-session. -/
def Recon.entryFor (r : Recon) (p : Nat) (ss : Session) : Option Conflict :=
  r.conflicts.find? fun c => c.pupil == p && c.session == ss

/-- R122: an entry's kind and time are replaced; its id, position and mark at creation are kept. -/
def State.replaceConflict (s : State) (p : Nat) (ss : Session) (kind : ConflictKind) : State :=
  ({ s with
    recon.conflicts := s.recon.conflicts.map fun (c : Conflict) =>
      if c.pupil == p && c.session == ss then { c with kind := kind, time := s.clock.secs } else c
    recon.conflictCnt.replaced := inc32 s.recon.conflictCnt.replaced }).raise .conflict

/-- R121: a new entry takes the next id and joins the tail, and the record takes the id as its conflict reference. -/
def State.recordConflict (s : State) (p : Nat) (ss : Session) (kind : ConflictKind) (mark : Mark) : State :=
  let id := s.recon.nextId
  let list := s.recon.conflicts ++ [⟨id, p, ss, kind, s.clock.secs, mark⟩]
  let s1 : State := { s with
    recon.conflicts := list
    recon.nextId := nextFree 255 (list.map (·.id)) 255 id
    recon.conflictCnt.recorded := inc32 s.recon.conflictCnt.recorded }
  (s1.modRec p ss fun r => { r with conflict := some id }).raise .conflict

/-- R121: a conflict that finds 32 entries and none for its pupil-session is not recorded. -/
def State.overflowConflict (s : State) : State :=
  ({ s with recon.conflictCnt.overflowed := inc32 s.recon.conflictCnt.overflowed }).raise .conflictOverflow

/-- A conflict is handed to the unit with the record's mark at that moment (R104, R121, R122). -/
def State.handConflict (s : State) (p : Nat) (ss : Session) (kind : ConflictKind) (mark : Mark) : State :=
  match s.recon.entryFor p ss with
  | some _ => s.replaceConflict p ss kind
  | none =>
    if s.recon.conflicts.length < Config.conflictMax then s.recordConflict p ss kind mark else s.overflowConflict

/-- Take an entry out of the list and its reference out of the record (R124). -/
def State.removeConflict (s : State) (c : Conflict) : State :=
  let s1 : State := { s with recon.conflicts := s.recon.conflicts.filter (·.id != c.id) }
  s1.modRec c.pupil c.session fun r => { r with conflict := none }

/-- R125 at a close: the entries are counted for the archive and all removed, with their references. -/
def State.emptyConflicts (s : State) : State :=
  let n := s.recon.conflicts.length
  let s1 := s.recon.conflicts.foldl (fun t c => t.removeConflict c) s
  { s1 with recon.conflicts := [], store.unresolved := n }

/-! ## The advance report list -/

def Sessions.join : Sessions → Sessions → Sessions
  | .am, .am => .am
  | .pm, .pm => .pm
  | _, _ => .both

def Sessions.names (x : Sessions) : Session → Bool
  | .am => x != .pm
  | .pm => x != .am

/-- The order of the advance list: by date, then by pupil (R126). -/
def advanceBefore (a b : Advance) : Bool :=
  decide (a.date.number < b.date.number) || (a.date.number == b.date.number && decide (a.pupil < b.pupil))

def insertAdvance (a : Advance) : List Advance → List Advance
  | [] => [a]
  | b :: l => if advanceBefore a b then a :: b :: l else b :: insertAdvance a l

/-- A date lies 1 to 21 days after the Clock's date (R126, R164, R166). -/
def State.within21 (s : State) (d : Date) : Bool :=
  decide (s.clock.date.number < d.number) && decide (d.number ≤ s.clock.date.number + 21)

/-- R126: the Report Parser hands a report for a pupil, a date and sessions. -/
def State.takeAdvance (s : State) (p : Nat) (d : Date) (ss : Sessions) (report : Option Nat) : State × AdvanceAnswer :=
  if !s.within21 d then (s, .refused)
  else if s.recon.advance.any fun a => a.date == d && a.pupil == p then
    ({ s with
      recon.advance := s.recon.advance.map fun (a : Advance) =>
        if a.date == d && a.pupil == p then
          { a with sessions := a.sessions.join ss, report := report.or a.report }
        else a
      recon.advCnt.merged := inc32 s.recon.advCnt.merged }, .taken)
  else if s.recon.advance.length < Config.advanceMax then
    ({ s with
      recon.advance := insertAdvance ⟨d, p, ss, report⟩ s.recon.advance
      recon.advCnt.taken := inc32 s.recon.advCnt.taken }, .taken)
  else ({ s with recon.advCnt.refusedFull := inc32 s.recon.advCnt.refusedFull }, .full)

/-! ## The notice wait list -/

/-- R132: a rejected request joins the tail, or is dropped at 32 entries. Answers its position when it joined, the head
of the list being position 0 (DESIGN CHOICE, log 35). -/
def State.joinWait (s : State) (e : WaitEntry) : State × Option Nat :=
  if s.recon.waits.length < Config.waitMax then
    ({ s with
      recon.waits := s.recon.waits ++ [e]
      recon.waitCnt.joined := inc32 s.recon.waitCnt.joined }, some s.recon.waits.length)
  else ({ s with recon.waitCnt.dropped := inc32 s.recon.waitCnt.dropped }, none)

/-- R131, R133: every waiting entry of a kind for a pupil-session is withdrawn. -/
def State.withdrawWaits (s : State) (kind : MsgKind) (p : Nat) (ss : Session) : State :=
  let hit := fun e : WaitEntry => e.kind == kind && e.subject == .pupil p ss
  { s with
    recon.waits := s.recon.waits.filter fun e => !hit e
    recon.waitCnt.withdrawn := add32 s.recon.waitCnt.withdrawn (s.recon.waits.filter hit).length }

end Sys2Proof.Machine
end

