-- ==== Sys2Proof/Machine/Slips.lean ====
section
/-! DEFINITION. The Slip Line (05, sections 5.5 and 5.6): joining slips, the printer's states, and its stall. -/

namespace Sys2Proof.Machine

/-- The numbers of a pupil's in-use contact slots, in slot order (section 5.5). -/
def State.contactNumbers (s : State) (p : Nat) : List Text :=
  [3 * p, 3 * p + 1, 3 * p + 2].filterMap fun i =>
    let c := s.contact i
    if c.inUse then some c.number else none

/-- A slip for a pupil-session with what the tables hold now; it takes its number when it joins (section 5.5). -/
def State.makeSlip (s : State) (kind : SlipKind) (p : Nat) (ss : Session) (body : SlipBody) : Slip :=
  { kind := kind
    number := 0
    date := s.plan.dayDate
    pupil := p
    short := (s.pupil p).short
    name := (s.pupil p).name
    group := (s.group (s.pupil p).group).code
    session := ss
    body := body }

/-- A slip goes to the printer: SENDING, the ready flag cleared, sent before (R92). -/
def SlipLine.send (l : SlipLine) : SlipLine := { l with state := .sending, ready := false, sentBefore := true }

/-- A slip moves to an empty holding slot: from EMPTY the printer becomes WAITING, or SENDING when it is ready; a STALLED
printer stays STALLED (R92, R93). -/
def SlipLine.fill (l : SlipLine) (x : Slip) (rest : List Slip) : SlipLine :=
  let m := { l with queue := rest, slot := some x, sentBefore := false }
  match l.state with
  | .stalled => m
  | _ => if l.ready then m.send else { m with state := .waiting, stall := 0 }

/-- Move the head of the queue to the holding slot when the slot is empty, counting the move (R92). -/
def State.fillSlot (s : State) : State :=
  match s.slips.slot, s.slips.queue with
  | none, x :: rest =>
    { s with
      slips := s.slips.fill x rest
      desk.stats.slip.taken := inc32 s.desk.stats.slip.taken }
  | _, _ => s

/-- The slip number after one (R88). -/
def nextSlip (n : Nat) : Nat := if n ≥ 9999 then 1 else n + 1

/-- R88: a slip joins the tail with the next number, or is dropped at 64 slips. Answers its number when it joined. -/
def State.joinSlip (s : State) (x : Slip) : State × Option Nat :=
  if s.slips.queue.length < Config.slipQueueMax then
    let n := s.slips.next
    let s1 : State := { s with
      slips.queue := s.slips.queue ++ [{ x with number := n }]
      slips.next := nextSlip n
      slips.queued := inc32 s.slips.queued
      desk.stats.slipsQueued := inc32 s.desk.stats.slipsQueued }
    (s1.fillSlot, some n)
  else
    let s1 : State := { s with
      slips.dropped := inc32 s.slips.dropped
      desk.stats.slipsDropped := inc32 s.desk.stats.slipsDropped }
    (s1.raise .slipDrop, none)

/-- A queued LATE slip of the same pupil, session and day date (R88). -/
def sameLate (p : Nat) (ss : Session) (d : Option Date) (x : Slip) : Bool :=
  x.kind == .late && x.pupil == p && x.session == ss && x.date == d

/-- R89: an APPLIED L or U makes a LATE slip, or brings the queued one up to date. Answers the slip's number, or none when
it was dropped. -/
def State.lateSlip (s : State) (p : Nat) (ss : Session) (arrival : Nat) (mark : Mark) (minutes : Nat) (expected : Bool) :
    State × Option Nat :=
  match s.slips.queue.find? (sameLate p ss s.plan.dayDate) with
  | some x =>
    ({ s with
      slips.queue := s.slips.queue.map fun y =>
        if sameLate p ss s.plan.dayDate y then { y with body := .lateness arrival mark minutes expected } else y },
      some x.number)
  | none => s.joinSlip (s.makeSlip .late p ss (.lateness arrival mark minutes expected))

/-- R91: a CALL slip for an alert that ended UNDELIVERED. -/
def State.callSlip (s : State) (p : Nat) (ss : Session) (reason : CallReason) : State :=
  (s.joinSlip (s.makeSlip .call p ss (.call reason s.clock.secs (s.contactNumbers p)))).1

/-- R93: the printer becomes STALLED. -/
def State.stallPrinter (s : State) : State :=
  ({ s with slips.state := .stalled, slips.stalls := inc32 s.slips.stalls }).raise .printerStall

/-- R92, R93: a ready report. In STALLED it sets the ready flag (R93), which R92 clears with the move from WAITING alone. -/
def State.printerReadyReport (s : State) : State :=
  match s.slips.state with
  | .empty => { s with slips.ready := true }
  | .waiting => { s with slips := s.slips.send }
  | .sending => s
  | .printing =>
    ({ s with
      slips.printed := inc32 s.slips.printed
      slips.slot := none
      slips.sentBefore := false
      slips.ready := true
      slips.state := .empty }).fillSlot
  | .stalled =>
    match s.slips.slot with
    | some _ =>
      let n := if s.slips.sentBefore then inc32 s.slips.resends else s.slips.resends
      { s with slips := { s.slips.send with ready := true, resends := n } }
    | none => ({ s with slips.ready := true, slips.state := .empty }).fillSlot

/-- R93: a paper-out report. -/
def State.paperOutReport (s : State) : State :=
  let s1 : State := { s with slips.ready := false }
  match s.slips.state with
  | .stalled => s1
  | _ => s1.stallPrinter

/-- R92: the last character of the slip print record is sent. -/
def State.slipSent (s : State) : State :=
  match s.slips.state with
  | .sending => { s with slips.state := .printing, slips.stall := 0 }
  | _ => s

/-- The stall timer counts while the printer is WAITING with the ready flag clear, or PRINTING (R93). -/
def stallCounts (l : SlipLine) : Bool := (l.state == .waiting && !l.ready) || l.state == .printing

/-- R93: the stall timer reaches 20. -/
def State.stallReached (s : State) : State := if stallCounts s.slips then s.stallPrinter else s

/-- A second event at the Slip Line (R93). -/
def State.slipSecond (s : State) : State :=
  if stallCounts s.slips then
    let s1 : State := { s with slips.stall := s.slips.stall + 1 }
    if s1.slips.stall ≥ 20 then s1.stallPrinter else s1
  else s

end Sys2Proof.Machine
end

