-- ==== Sys2Proof/Machine/Pool.lean ====
section
/-! DEFINITION. The Message Pool (08) with composition (R149 to R151): allocation (R139), freeing (R143), the serve pass
(R144), and the requests for storage of each class (R140 to R142). -/

namespace Sys2Proof.Machine

/-! ## Composition -/

/-- Whether the request date is the day date, so that TIME and MINUTES are read from the record (R150). -/
def State.recordReadable (s : State) (stamp : Stamp) : Bool := s.plan.dayDate == some stamp.date

/-- dd/mm (R150). -/
def dateText (d : Date) : Text := twoDigits d.day ++ [0x2F#8] ++ twoDigits d.month

/-- hh:mm from seconds of day. -/
def timeText (t : Nat) : Text := twoDigits (t / 3600) ++ [0x3A#8] ++ twoDigits (t / 60 % 60)

def sessionText : Session → Text
  | .am => [0x41#8, 0x4D#8]
  | .pm => [0x50#8, 0x4D#8]

/-- The value of a field marker (R150; markers 01h to 06h, R210). -/
def State.fieldText (s : State) (subj : Subject) (stamp : Stamp) (marker : Nat) : Text :=
  match subj with
  | .pupil p ss =>
    match marker with
    | 1 => (s.pupil p).name
    | 2 => (s.group (s.pupil p).group).code
    | 3 => dateText stamp.date
    | 4 => sessionText ss
    | 5 =>
      match (s.record p ss).arrival with
      | some t => if s.recordReadable stamp then timeText t else []
      | none => []
    | 6 => if s.recordReadable stamp && (s.record p ss).minutes != 0 then decimal (s.record p ss).minutes else []
    | _ => []
  | .sender _ _ =>
    match marker with
    | 3 => dateText stamp.date
    | 5 => timeText stamp.secs
    | _ => []

/-- A place of a template stands for itself or for a field (R149). -/
def State.placeText (s : State) (subj : Subject) (stamp : Stamp) (c : Byte) : Text :=
  if c.toNat < 0x20 then s.fieldText subj stamp c.toNat else [c]

/-- R150: the template's characters and the field values in order, cut to the first 288. -/
def State.compose (s : State) (template : Nat) (subj : Subject) (stamp : Stamp) : Text :=
  ((s.template template).flatMap (s.placeText subj stamp)).take Config.textMax

/-- The template of a kind; an OFFICE NOTICE names its own (R150). -/
def templateOf (kind : MsgKind) (named : Option Nat) : Nat :=
  match kind with
  | .absenceAlert => 0
  | .lateNotice => 1
  | .patternNotice => 2
  | .arrivalCorrection => 3
  | .reportReceipt => 4
  | _ => named.getD 5

/-- R151: the recipient list, built with the text. -/
def State.recipients (s : State) (cls : MsgClass) (subj : Subject) : List Recipient :=
  match subj with
  | .sender number _ => [⟨0, number, .text, none⟩]
  | .pupil p _ =>
    if (s.pupil p).inUse then
      [0, 1, 2].filterMap fun i =>
        let c := s.contact (3 * p + i)
        if c.inUse && (if cls == .alert then c.notifyAlert else c.notifyNotice) then
          some ⟨i, c.number, c.first, c.second⟩
        else none
    else []

/-! ## Allocation and freeing -/

/-- R138: the segments a length needs. -/
def segmentsFor (length : Nat) : Nat :=
  if length = 0 then 1 else (length + (Config.segmentChars - 1)) / Config.segmentChars

/-- The reserve areas that messages hold. -/
def heldAreas (l : List Message) : List Nat :=
  l.filterMap fun m =>
    match m.storage with
    | .reserve a => some a
    | .shared _ => none

/-- The lowest-numbered free reserve area (R139). -/
def Pool.freeArea (p : Pool) : Option Nat :=
  (List.range Config.reserveAreas).find? fun a => !(heldAreas p.msgs).contains a

/-- The shared segments in use (R146). -/
def Pool.segsInUse (p : Pool) : Nat := Config.sharedSegments - p.freeSegs

/-- R139 step 1: one shared descriptor and k shared segments. -/
def State.takeShared (s : State) (k : Nat) : State :=
  let free := s.pool.freeSegs - k
  { s with
    pool.freeDesc := s.pool.freeDesc - 1
    pool.freeSegs := free
    pool.stats.acquired := add32 s.pool.stats.acquired k
    pool.stats.peak := max s.pool.stats.peak (Config.sharedSegments - free) }

/-- R139 step 2: one credit of the class and an area. The statistics follow R146's table: one reserve use of the class, and the k with which
R138 says the message is also counted enters none of them (DESIGN CHOICE, log 47). -/
def State.takeReserve (s : State) (c : MsgClass) : State :=
  ({ s with
    pool.credits := s.pool.credits.set c (s.pool.credits.get c - 1)
    pool.stats.reserveUses := s.pool.stats.reserveUses.set c (inc32 (s.pool.stats.reserveUses.get c)) }).raise .poolReserve

/-- R139: an allocation attempt for a message of a class that needs k segments. A free credit that finds no free area, as only a settings
load can leave the two, serves nothing: the attempt is rejected (DESIGN CHOICE, log 33). -/
def State.allocate (s : State) (c : MsgClass) (k : Nat) : Option (State × Storage) :=
  if 1 ≤ s.pool.freeDesc ∧ k ≤ s.pool.freeSegs then some (s.takeShared k, .shared k)
  else if 1 ≤ s.pool.credits.get c then (s.pool.freeArea).map fun a => (s.takeReserve c, .reserve a)
  else none

/-- R136: a message takes its number and joins the messages in storage. -/
def State.addMessage (s : State) (cls : MsgClass) (kind : MsgKind) (st : Storage) (text : Text) (body : MsgBody) : State :=
  let n := s.pool.nextNum
  let msgs := s.pool.msgs ++ [⟨n, cls, kind, st, s.clock.stamp, text, body⟩]
  { s with
    pool.msgs := msgs
    pool.nextNum := nextFree 65535 (msgs.map (·.number)) 65 n }

def State.message (s : State) (n : Nat) : Option Message := s.pool.msgs.find? (·.number == n)

def State.modMessage (s : State) (n : Nat) (f : Message → Message) : State :=
  { s with pool.msgs := s.pool.msgs.map fun m => if m.number == n then f m else m }

/-- The class queue (R153); reports have none. -/
def Scheduler.queue (c : Scheduler) : MsgClass → List Nat
  | .alert => c.alertQ
  | .notice => c.noticeQ
  | .receipt => c.receiptQ
  | .report => []

def Scheduler.setQueue (c : Scheduler) (k : MsgClass) (l : List Nat) : Scheduler :=
  match k with
  | .alert => { c with alertQ := l }
  | .notice => { c with noticeQ := l }
  | .receipt => { c with receiptQ := l }
  | .report => c

/-- A message joins the tail of its class queue (R153). -/
def State.enqueue (s : State) (c : MsgClass) (n : Nat) : State :=
  { s with sched := s.sched.setQueue c (s.sched.queue c ++ [n]) }

/-- A message leaves its class queue (R153). -/
def State.dequeue (s : State) (c : MsgClass) (n : Nat) : State :=
  { s with sched := s.sched.setQueue c ((s.sched.queue c).filter (· != n)) }

/-- R137: how many messages of a class are held on reserve. -/
def Pool.reserveHeld (p : Pool) (c : MsgClass) : Nat := (p.msgs.filter fun m => m.cls == c && m.onReserve).length

/-- R143: the credits once a reserve message has returned its own. A class that holds more on reserve than its setting, as only a
settings load can leave it, keeps 0 free credits until it holds fewer (DESIGN CHOICE, log 33). -/
def State.returnCredit (s : State) (c : MsgClass) : PerClass Nat :=
  if s.pool.reserveHeld c ≤ s.set.options.credits.get c then s.pool.credits.set c (s.pool.credits.get c + 1)
  else s.pool.credits

/-- R143: the storage of a message is returned and its record removed; no serve pass yet. -/
def State.release (s : State) (m : Message) : State :=
  let s1 : State := { s with pool.msgs := s.pool.msgs.filter (·.number != m.number) }
  match m.storage with
  | .shared k =>
    { s1 with pool.freeDesc := s.pool.freeDesc + 1, pool.freeSegs := s.pool.freeSegs + k }
  | .reserve _ =>
    { s1 with pool.credits := s.returnCredit m.cls }

/-- The statistics of a class of outbound messages (R173). -/
def GwStats.modEnds (g : GwStats) (c : MsgClass) (f : EndCounts → EndCounts) : GwStats :=
  match c with
  | .alert => { g with alert := f g.alert }
  | .notice => { g with notice := f g.notice }
  | .receipt => { g with receipt := f g.receipt }
  | .report => g

def State.countEnd (s : State) (c : MsgClass) (f : EndCounts → EndCounts) : State :=
  { s with gw.stats := s.gw.stats.modEnds c f }

def EndCounts.addUndelivered (e : EndCounts) : EndCounts := { e with undelivered := inc32 e.undelivered }

/-- R151, R154: an ABSENCE ALERT ends UNDELIVERED: the record, the condition, and the CALL slip. -/
def State.alertUndelivered (s : State) (p : Nat) (ss : Session) (reason : CallReason) : State :=
  ((s.modRec p ss fun r => { r with alert := .undelivered }).raise .alertUndelivered).callSlip p ss reason

/-! ## Storing outbound messages -/

/-- How a stored outbound message began: QUEUED under its number, or ended at once for lack of a recipient (R151). -/
inductive Stored where
  | queued (n : Nat)
  | noRecipient
deriving DecidableEq, Repr

/-- Store an outbound message if its attempt succeeds (R139, R151). A message with no recipient ends UNDELIVERED and its
storage is returned; the caller runs the serve pass where one is due. -/
def State.storeOut (s : State) (cls : MsgClass) (kind : MsgKind) (subj : Subject) (text : Text) (life : Option Nat) :
    Option (State × Stored) :=
  match s.allocate cls (segmentsFor text.length) with
  | none => none
  | some (s1, st) =>
    let n := s1.pool.nextNum
    let rcpts := s1.recipients cls subj
    let s2 := s1.addMessage cls kind st text (.out ⟨subj, rcpts, ⟨0, false, 0⟩, .queued, life, false⟩)
    if rcpts.isEmpty then
      let s3 := s2.countEnd cls EndCounts.addUndelivered
      match s2.message n with
      | some m => some (s3.release m, .noRecipient)
      | none => some (s3, .noRecipient)
    else some (s2.enqueue cls n, .queued n)

/-- The seconds of a class's lifetime (R152). -/
def State.lifeOf (s : State) : MsgClass → Nat
  | .receipt => s.set.options.receiptLife * 60
  | _ => s.set.options.noticeLife * 60

/-- The class of a wait list entry's kind (R134). -/
def WaitEntry.cls (e : WaitEntry) : MsgClass :=
  match e.kind with
  | .reportReceipt => .receipt
  | _ => .notice

/-- An allocation attempt for a DUE alert (R140, R144): the record becomes QUEUED, or UNDELIVERED when there is no
recipient. The request date is the one of the first attempt (R150). -/
def State.tryAlert (s : State) (p : Nat) (ss : Session) : Option (State × Stored) :=
  let stamp := (s.record p ss).asked.getD s.clock.stamp
  match s.storeOut .alert .absenceAlert (.pupil p ss) (s.compose 0 (.pupil p ss) stamp) none with
  | none => none
  | some (s1, .queued n) =>
    some (s1.modRec p ss fun r => { r with alert := .queued, asked := none }, .queued n)
  | some (s1, .noRecipient) =>
    some ((s1.modRec p ss fun r => { r with asked := none }).alertUndelivered p ss .noRecipient, .noRecipient)

/-- An allocation attempt for a request of the notice wait list (R144). -/
def State.tryEntry (s : State) (e : WaitEntry) : Option (State × Stored) :=
  s.storeOut e.cls e.kind e.subject (s.compose (templateOf e.kind e.template) e.subject e.stamp) (some e.life)

/-! ## The serve pass (R144) -/

/-- The places of the DUE records: ascending pupil, AM before PM. -/
def State.dueKeys (s : State) : List Nat := Tab.filter s.reg.recs fun _ r => r.alert == .due

/-- The first stage stops at the first DUE alert whose attempt is rejected. -/
def serveAlerts : List Nat → State → State
  | [], s => s
  | k :: l, s =>
    match s.tryAlert (keyPupil k) (keySession k) with
    | none => s
    | some (s1, _) => serveAlerts l s1

/-- The second stage stops at the first entry whose attempt is rejected; `fuel` is the list's length. -/
def serveWaits : Nat → State → State
  | 0, s => s
  | fuel + 1, s =>
    match s.recon.waits with
    | [] => s
    | e :: rest =>
      match s.tryEntry e with
      | none => s
      | some (s1, _) =>
        serveWaits fuel { s1 with
          recon.waits := rest
          recon.waitCnt.served := inc32 s1.recon.waitCnt.served }

/-- R144: the serve pass. -/
def State.servePass (s : State) : State :=
  let s1 := serveAlerts s.dueKeys s
  serveWaits s1.recon.waits.length s1

/-- R143: a message is freed: its storage is returned and the serve pass runs. -/
def State.freeMessage (s : State) (m : Message) : State := (s.release m).servePass

/-- The serve pass that the free of a message without recipient runs (R143, R151). -/
def State.afterStored (s : State) : Stored → State
  | .queued _ => s
  | .noRecipient => s.servePass

/-! ## Requests -/

/-- A first rejection of a request (R140 to R142). -/
def State.countReject (s : State) (c : MsgClass) : State :=
  ({ s with pool.stats.rejects := s.pool.stats.rejects.set c (inc32 (s.pool.stats.rejects.get c)) }).raise .poolReject

/-- R107, R140: an alert becomes DUE and asks the pool for storage in the same event. -/
def State.alertBecomesDue (s : State) (p : Nat) (ss : Session) : State :=
  let s1 := s.modRec p ss fun r => { r with alert := .due, due := none, asked := some s.clock.stamp }
  match s1.tryAlert p ss with
  | none => s1.countReject .alert
  | some (s2, st) => s2.afterStored st

/-- What became of a NOTICE or RECEIPT request (R141, R169). -/
inductive Sent where
  | queued (n : Nat)
  | noRecipient
  | waiting (position : Nat)
  | dropped
deriving DecidableEq, Repr

def Stored.sent : Stored → Sent
  | .queued n => .queued n
  | .noRecipient => .noRecipient

/-- R141: a NOTICE or RECEIPT request made from a template; a rejected one is handed to the wait list. -/
def State.requestMsg (s : State) (kind : MsgKind) (subj : Subject) (template : Option Nat) : State × Sent :=
  let cls : MsgClass := if kind == .reportReceipt then .receipt else .notice
  let e : WaitEntry := ⟨kind, subj, template, s.clock.stamp, s.lifeOf cls⟩
  match s.tryEntry e with
  | some (s1, st) => (s1.afterStored st, st.sent)
  | none =>
    let r := (s.countReject cls).joinWait e
    (r.1, match r.2 with
      | some i => .waiting i
      | none => .dropped)

/-- R141: an OFFICE NOTICE with the host's own text; a rejected one is declined without counting in the wait list. -/
def State.requestDirect (s : State) (p : Nat) (ss : Session) (text : Text) : State × Sent :=
  match s.storeOut .notice .officeNotice (.pupil p ss) text (some (s.lifeOf .notice)) with
  | some (s1, st) => (s1.afterStored st, st.sent)
  | none => (s.countReject .notice, .dropped)

/-- R142: a REPORT request for an inbound text. -/
def State.storeReport (s : State) (sender text : Text) : Option (State × Nat) :=
  match s.allocate .report (segmentsFor text.length) with
  | none => none
  | some (s1, st) =>
    some (s1.addMessage .report .inbound st text (.report ⟨sender, none, []⟩), s1.pool.nextNum)

end Sys2Proof.Machine
end

