-- ==== Sys2Proof/Machine/Delivery.lean ====
section
/-! DEFINITION. The Delivery Scheduler (09, sections 9.2 and 9.3): how an outbound message ends (R153 to R156, R162), failed
attempts, recalls (R158, R159), results and timeouts (R161), the timers (R155), and submission (R160). -/

namespace Sys2Proof.Machine

/-! ## Reading and changing outbound messages -/

def Message.outbound (m : Message) : Option Outbound :=
  match m.body with
  | .out o => some o
  | .report _ => none

/-- Change what an outbound message holds. -/
def State.modOut (s : State) (n : Nat) (f : Outbound → Outbound) : State :=
  s.modMessage n fun m =>
    match m.body with
    | .out o => { m with body := .out (f o) }
    | .report _ => m

/-- A message that waits: QUEUED or WAIT_RETRY (R156). -/
def Message.waits (m : Message) : Bool :=
  match m.outbound with
  | some o =>
    match o.state with
    | .sending _ _ => false
    | _ => true
  | none => false

/-- An outbound message of a kind about a pupil's session. -/
def Message.about (m : Message) (kind : MsgKind) (p : Nat) (ss : Session) : Bool :=
  m.kind == kind &&
    match m.outbound with
    | some o => o.subject == .pupil p ss
    | none => false

def Message.detached (m : Message) : Bool :=
  match m.outbound with
  | some o => o.detached
  | none => false

/-- The record of an ABSENCE ALERT takes an alert state with its message; a detached alert does not touch it (R153, R162). -/
def State.alertMark (s : State) (m : Message) (a : AlertState) : State :=
  match m.kind, m.outbound with
  | .absenceAlert, some o =>
    match o.subject with
    | .pupil p ss => if o.detached then s else s.modRec p ss fun r => { r with alert := a }
    | .sender _ _ => s
  | _, _ => s

/-! ## Terminal states -/

def EndCounts.addDelivered (e : EndCounts) : EndCounts := { e with delivered := inc32 e.delivered }
def EndCounts.addWithdrawn (e : EndCounts) : EndCounts := { e with withdrawn := inc32 e.withdrawn }
def EndCounts.addCancelled (e : EndCounts) : EndCounts := { e with cancelled := inc32 e.cancelled }
/-- EXPIRED is counted as UNDELIVERED too (R153, R173). -/
def EndCounts.addExpired (e : EndCounts) : EndCounts :=
  { e with undelivered := inc32 e.undelivered, expired := inc32 e.expired }

/-- A message reaches a terminal state: it leaves its class queue, is counted, and is freed (R153, R143). -/
def State.finishMessage (s : State) (m : Message) (count : EndCounts → EndCounts) : State :=
  ((s.dequeue m.cls m.number).countEnd m.cls count).freeMessage m

/-- R156: a QUEUED or WAIT_RETRY message is withdrawn. -/
def State.withdraw (s : State) (m : Message) : State :=
  (s.alertMark m .cancelled).finishMessage m EndCounts.addWithdrawn

/-- Withdraw the waiting messages of a list of numbers, one free at a time. -/
def State.withdrawAll (s : State) (ns : List Nat) : State :=
  ns.foldl (fun t n =>
    match t.message n with
    | some m => if m.waits then t.withdraw m else t
    | none => t) s

/-- The numbers of the waiting messages of a kind about a pupil's session, in the order in which they took storage, in which they are
withdrawn (DESIGN CHOICE, log 5). -/
def State.waitingAbout (s : State) (kind : MsgKind) (p : Nat) (ss : Session) : List Nat :=
  (s.pool.msgs.filter fun m => m.about kind p ss && m.waits).map (·.number)

/-- R162: a failed attempt or a recall of an alert whose mark has left N, or which is detached, ends it CANCELLED. The
ARRIVAL CORRECTION requests and messages of its pupil-session are withdrawn first (DESIGN CHOICE, log 12). -/
def State.endDeadAlert (s : State) (m : Message) (p : Nat) (ss : Session) : State :=
  let s1 := s.withdrawWaits .arrivalCorrection p ss
  let s2 := s1.withdrawAll (s1.waitingAbout .arrivalCorrection p ss)
  (s2.alertMark m .cancelled).finishMessage m EndCounts.addCancelled

/-- The pupil-session of an ABSENCE ALERT that R162 judges: detached, or its record's mark no longer N. -/
def State.deadAlert (s : State) (m : Message) : Option (Nat × Session) :=
  match m.kind, m.outbound with
  | .absenceAlert, some o =>
    match o.subject with
    | .pupil p ss => if o.detached || (s.record p ss).mark != .n then some (p, ss) else none
    | .sender _ _ => none
  | _, _ => none

/-! ## Failed attempts (R154) -/

/-- Where a failure moves the cursor. -/
inductive AfterFailure where
  | retry (c : Cursor)
  | queue (c : Cursor)
  | undelivered
deriving DecidableEq, Repr

/-- The current recipient's second channel. -/
def Outbound.secondChannel (o : Outbound) : Option Channel := (o.recipients[o.cursor.recipient]?).bind (·.second)

/-- R154: the cursor after a failure; `invalid` says that the recipient is finished on both channels. Attempts on a channel
run from 0 to N, so they are held at N when N has been lowered (DEDUCED, log 13). -/
def Outbound.afterFailure (o : Outbound) (n : Nat) (invalid : Bool) : AfterFailure :=
  let a := min (o.cursor.attempts + 1) n
  if !invalid && decide (a < n) then .retry { o.cursor with attempts := a }
  else if !invalid && !o.cursor.second && o.secondChannel.isSome then .queue ⟨o.cursor.recipient, true, 0⟩
  else if o.cursor.recipient + 1 < o.recipients.length then .queue ⟨o.cursor.recipient + 1, false, 0⟩
  else .undelivered

/-- An outbound message ends UNDELIVERED (R154): an ABSENCE ALERT's record, condition and CALL slip come with it. -/
def State.endUndelivered (s : State) (m : Message) : State :=
  let s1 :=
    match m.kind, m.outbound with
    | .absenceAlert, some o =>
      match o.subject with
      | .pupil p ss => s.alertUndelivered p ss .undelivered
      | .sender _ _ => s
    | _, _ => s
  s1.finishMessage m EndCounts.addUndelivered

/-- R154, R155, R162: a submission's attempt has failed; the tag is already released. -/
def State.failAttempt (s : State) (n : Nat) (invalid : Bool) : State :=
  match s.message n with
  | none => s
  | some m =>
    match s.deadAlert m, m.outbound with
    | some (p, ss), _ => s.endDeadAlert m p ss
    | none, some o =>
      if o.life = some 0 then s.finishMessage m EndCounts.addExpired
      else
        match o.afterFailure s.set.options.fallback invalid with
        | .retry c =>
          (s.modOut n fun x => { x with cursor := c, state := .waitRetry s.set.options.retry }).alertMark m .queued
        | .queue c =>
          ((s.modOut n fun x => { x with cursor := c, state := .queued }).alertMark m .queued).enqueue m.cls n
        | .undelivered => s.endUndelivered m
    | none, none => s

/-! ## Recalls (R158, R159) -/

/-- A submission leaves the outstanding ones without a RESULT: its tag counts as released (R161). -/
def Scheduler.releaseTag (c : Scheduler) (tag : Nat) : Scheduler :=
  { c with
    out := c.out.filter (·.tag != tag)
    released := if c.released.contains tag then c.released else c.released ++ [tag] }

/-- One recalled submission: an alert that R162 judges ends; any other message returns to QUEUED, for its place at the head
of its class queue to be given when all are recalled. With no lifetime left it expires at the next second (DEDUCED, log 21). -/
def State.recallOne (s : State) (b : Submission) : State :=
  let s1 : State := { s with
    sched := s.sched.releaseTag b.tag
    gw.stats.recalls := inc32 s.gw.stats.recalls }
  match s1.message b.number with
  | none => s1
  | some m =>
    match s1.deadAlert m with
    | some (p, ss) => s1.endDeadAlert m p ss
    | none => (s1.modOut b.number fun x => { x with state := .queued }).alertMark m .queued

/-- Whether a submission's message returns to QUEUED when recalled: it is in the pool, and R162 does not judge it. -/
def State.returns (s : State) (b : Submission) : Bool :=
  match s.message b.number with
  | none => false
  | some m => (s.deadAlert m).isNone

/-- The numbers that a recall of an alert that R162 judges withdraws: the waiting ARRIVAL CORRECTIONs of its pupil-session. -/
def State.withdrawnBy (s : State) (b : Submission) : List Nat :=
  match (s.message b.number).bind s.deadAlert with
  | none => []
  | some (p, ss) => s.waitingAbout .arrivalCorrection p ss

/-- One submission of a recall, beside the numbers of the messages recalled so far that are QUEUED again. A number leaves them with
its message, because a message that takes storage later in the event may be given it (R136), and that one joins the tail. -/
def recallNext (x : State × List Nat) (b : Submission) : State × List Nat :=
  (x.1.recallOne b,
    x.2.filter (fun n => !(x.1.withdrawnBy b).contains n) ++ if x.1.returns b then [b.number] else [])

/-- The recalled messages of a class go to the head of its queue, in submission order (R153). -/
def State.headOfQueue (s : State) (c : MsgClass) (ns : List Nat) : State :=
  let back := ns.filter fun n =>
    match s.message n with
    | some m => m.cls == c
    | none => false
  { s with sched := s.sched.setQueue c (back ++ s.sched.queue c) }

/-- Recall submissions, in submission order (R158, R159). -/
def State.recall (s : State) (l : List Submission) : State :=
  let x := l.foldl recallNext (s, [])
  msgClasses.foldl (fun t c => t.headOfQueue c x.2) x.1

/-- R158: the newest submissions beyond a window are recalled. -/
def State.recallBeyond (s : State) (window : Nat) : State := s.recall (s.sched.out.drop window)

/-! ## Results and timeouts (R161) -/

/-- The outcomes of a RESULT, in the order of R161's table in section 9.3. -/
inductive GwOutcome where
  | delivered
  | noAnswer
  | invalidNumber
  | lineBusy
  | refused
deriving DecidableEq, Repr

def GwOutcome.ofCode : Nat → Option GwOutcome
  | 0 => some .delivered
  | 1 => some .noAnswer
  | 2 => some .invalidNumber
  | 3 => some .lineBusy
  | 4 => some .refused
  | _ => none

def GwStats.countResult (g : GwStats) : GwOutcome → GwStats
  | .delivered => { g with delivered := inc32 g.delivered }
  | .noAnswer => { g with noAnswer := inc32 g.noAnswer }
  | .invalidNumber => { g with invalidNumber := inc32 g.invalidNumber }
  | .lineBusy => { g with lineBusy := inc32 g.lineBusy }
  | .refused => { g with refused := inc32 g.refused }

/-- DELIVERED: the message ends, and an alert's record becomes SENT (R161, R162). -/
def State.endDelivered (s : State) (n : Nat) : State :=
  match s.message n with
  | none => s
  | some m => (s.alertMark m .sent).finishMessage m EndCounts.addDelivered

/-- R161: a RESULT for no outstanding submission is stale or unknown. -/
def State.strayResult (s : State) (tag : Nat) : State :=
  if s.sched.released.contains tag then { s with gw.stats.stale := inc32 s.gw.stats.stale }
  else { s with gw.stats.unknown := inc32 s.gw.stats.unknown }

/-- R161: a well-formed RESULT is taken. -/
def State.takeResult (s : State) (tag : Nat) (r : GwOutcome) : State :=
  match s.sched.out.find? (·.tag == tag) with
  | none => s.strayResult tag
  | some b =>
    let s1 : State := { s with
      sched.out := s.sched.out.filter (·.tag != tag)
      gw.stats := s.gw.stats.countResult r }
    match r with
    | .delivered => s1.endDelivered b.number
    | .invalidNumber => s1.failAttempt b.number true
    | _ => s1.failAttempt b.number false

/-- R161: a submission's delivery timeout reaches 0. -/
def State.timeOut (s : State) (tag : Nat) : State :=
  match s.sched.out.find? (·.tag == tag) with
  | none => s
  | some b =>
    let s1 : State := { s with
      sched := s.sched.releaseTag tag
      gw.stats.timeouts := inc32 s.gw.stats.timeouts }
    s1.failAttempt b.number false

/-! ## Timers (R155, R133) -/

/-- A WAIT_RETRY message's delay has run out: it joins the tail of its class queue (R155). -/
def State.retryReached (s : State) (n : Nat) : State :=
  match s.message n with
  | none => s
  | some m =>
    match m.outbound with
    | some o =>
      match o.state with
      | .waitRetry _ => (s.modOut n fun x => { x with state := .queued }).enqueue m.cls n
      | _ => s
    | none => s

/-- R155: a message's lifetime remaining has reached 0; in SENDING the attempt runs on. -/
def State.lifeReached (s : State) (n : Nat) : State :=
  match s.message n with
  | none => s
  | some m =>
    match m.outbound with
    | some o =>
      match o.life, o.state with
      | none, _ => s
      | some _, .sending _ _ => s.modOut n fun x => { x with life := some 0 }
      | some _, _ => s.finishMessage m EndCounts.addExpired
    | none => s

/-- One second of a live state's timers (R155). -/
def Outbound.tick (o : Outbound) : Outbound :=
  { o with
    life := o.life.map (· - 1)
    state :=
      match o.state with
      | .queued => .queued
      | .sending t left => .sending t (left - 1)
      | .waitRetry left => .waitRetry (left - 1) }

def Message.tick (m : Message) : Message :=
  match m.body with
  | .out o => { m with body := .out o.tick }
  | .report _ => m

/-- A lifetime, a retry delay or a timeout that stands at 0. -/
def Message.lifeOut (m : Message) : Bool :=
  match m.outbound with
  | some o => o.life == some 0
  | none => false

def Message.retryOut (m : Message) : Bool :=
  match m.outbound with
  | some o => o.state == .waitRetry 0
  | none => false

def Message.timeoutOut (m : Message) : Option Nat :=
  match m.outbound with
  | some o =>
    match o.state with
    | .sending tag left => if left = 0 then some tag else none
    | _ => none
  | none => none

/-- R161: the tags of the submissions whose timeout stands at 0, in submission order. When several reach 0 in one second event, they end in
this order (DESIGN CHOICE, log 5). -/
def State.timedOut (s : State) : List Nat :=
  s.sched.out.filterMap fun b => (s.message b.number).bind Message.timeoutOut

/-- A second event at the Delivery Scheduler: lifetimes, then retry delays, then timeouts (R155, R161; DESIGN CHOICE, log 5). Several messages
whose lifetimes or retry delays run out are taken in the order in which they took storage (DESIGN CHOICE, log 5). -/
def State.deliverySecond (s : State) : State :=
  let s1 : State := { s with pool.msgs := s.pool.msgs.map Message.tick }
  let s2 := ((s1.pool.msgs.filter Message.lifeOut).map (·.number)).foldl State.lifeReached s1
  let s3 := ((s1.pool.msgs.filter Message.retryOut).map (·.number)).foldl State.retryReached s2
  s3.timedOut.foldl State.timeOut s3

/-- R133: the entry at a position of the notice wait list expires, and counts as UNDELIVERED for its class. -/
def State.expireWait (s : State) (i : Nat) : State :=
  match s.recon.waits[i]? with
  | none => s
  | some e =>
    ({ s with
      recon.waits := s.recon.waits.eraseIdx i
      recon.waitCnt.expired := inc32 s.recon.waitCnt.expired }).countEnd e.cls EndCounts.addUndelivered

/-- The entries of a list whose lifetime stands at 0 expire, from the head. -/
def State.expireWaits (s : State) : Nat → Nat → State
  | 0, _ => s
  | fuel + 1, i =>
    match s.recon.waits[i]? with
    | none => s
    | some e => if e.life = 0 then (s.expireWait i).expireWaits fuel i else s.expireWaits fuel (i + 1)

/-- A second event at the notice wait list (R133). -/
def State.waitsSecond (s : State) : State :=
  let s1 : State := { s with recon.waits := s.recon.waits.map fun e => { e with life := e.life - 1 } }
  s1.expireWaits s1.recon.waits.length 0

/-! ## Submission (R160) -/

/-- A record to the gateway is made: it is sent, or waits behind the ones made before it (R157). -/
def Gateway.send (g : Gateway) (r : GwRecord) : Gateway :=
  match g.sending with
  | none => { g with sending := some r }
  | some _ => { g with outQ := g.outQ ++ [r] }

/-- The window leaves room for a submission: the link is UP, the status ACCEPTING, the outstanding below the window. -/
def State.windowOpen (s : State) : Bool :=
  s.gw.up &&
    match s.gw.window with
    | some w => w.accepting && decide (s.sched.out.length < w.size)
    | none => false

/-- The message to submit next: the head of the ALERT, NOTICE or RECEIPT queue, in that order. -/
def Scheduler.head (c : Scheduler) : Option Nat :=
  match c.alertQ, c.noticeQ, c.receiptQ with
  | n :: _, _, _ => some n
  | [], n :: _, _ => some n
  | [], [], n :: _ => some n
  | [], [], [] => none

/-- The channel and number of the cursor (R160). -/
def Outbound.target (o : Outbound) : Channel × Text :=
  match o.recipients[o.cursor.recipient]? with
  | some r => (if o.cursor.second then r.second.getD r.first else r.first, r.number)
  | none => (.text, [])

/-- R160: a message is submitted under the next tag. -/
def State.submit (s : State) (m : Message) (o : Outbound) : State :=
  let tag := s.sched.nextTag
  let held := tag :: s.sched.out.map (·.tag)
  let s1 := (s.dequeue m.cls m.number).modOut m.number fun x =>
    { x with state := .sending tag s.set.options.timeout }
  let s2 : State := { s1 with
    sched.out := s1.sched.out ++ [⟨tag, m.number⟩]
    sched.nextTag := nextFree 255 held 5 tag
    gw := { s1.gw.send (.submit tag o.target.1 o.target.2 m.text) with
      stats := { s1.gw.stats with submissions := inc32 s1.gw.stats.submissions } } }
  s2.alertMark m .sending

/-- The scheduler submits while it can (R160); at most four submissions are outstanding, so four rounds are enough. -/
def State.pump : Nat → State → State
  | 0, s => s
  | fuel + 1, s =>
    if s.windowOpen then
      match s.sched.head with
      | none => s
      | some n =>
        match s.message n with
        | none => s
        | some m =>
          match m.outbound with
          | some o => State.pump fuel (s.submit m o)
          | none => s
    else s

end Sys2Proof.Machine
end

