-- ==== Sys2Proof/Machine/Register.lean ====
section
/-! DEFINITION. The Register (06): precedence (R100), the one operation that writes a mark with all its consequences (R98,
R109, R117, R119), alerts in the record (R106 to R108), and the opening and closing of sessions (R99, R112). -/

namespace Sys2Proof.Machine

/-! ## Precedence (R100) -/

/-- What a register entry brings (R110). -/
inductive Entry where
  | p
  | x
  | l (minutes : Nat)
deriving DecidableEq, Repr

/-- What a cell of R100's table says. -/
inductive Cell where
  | take (mark : Mark) (minutes : Nat)
  | keep
  | clash
deriving DecidableEq, Repr

/-- The register rows of R100, for an unlocked record with the mark and source it holds. Register L on a held L is kept, as the table
says; the text after it speaks of a change of minutes there (DESIGN CHOICE, log 32). -/
def registerCell (e : Entry) (held : Mark) (source : Option MarkSource) : Cell :=
  match e, held with
  | .p, .nothing => .take .p 0
  | .p, .x => .take .p 0
  | .p, .n => .keep
  | .p, .r => .clash
  | .p, .a => .keep
  | .p, .p => .keep
  | .p, .l => .keep
  | .p, .u => .keep
  | .x, .nothing => .take .x 0
  | .x, .x => .take .x 0
  | .x, .n => .keep
  | .x, .r => .keep
  | .x, .a => .keep
  | .x, .p => if source = some .register then .take .x 0 else .clash
  | .x, .l => .clash
  | .x, .u => .clash
  | .l m, .nothing => .take .l m
  | .l m, .x => .take .l m
  | .l _, .n => .keep
  | .l _, .r => .clash
  | .l _, .a => .keep
  | .l m, .p => .take .l m
  | .l _, .l => .keep
  | .l _, .u => .keep

/-- P, L or U. -/
def Mark.present : Mark → Bool
  | .p => true
  | .l => true
  | .u => true
  | _ => false

/-- L or U: the marks that carry minutes (R98) and count in the tally (R117). -/
def Mark.late : Mark → Bool
  | .l => true
  | .u => true
  | _ => false

/-! ## Writing a mark -/

/-- What a source writes; `lock` and `arrival` only where the source gives them. -/
structure MarkWrite where
  mark : Mark
  minutes : Nat
  source : MarkSource
  arrival : Option Nat
  lock : Option Bool
deriving DecidableEq, Repr

/-- The record after a write (R98): the explained flag is kept by L and U alone, and the arrival time by P, L and U. -/
def Rec.write (r : Rec) (w : MarkWrite) : Rec :=
  { r with
    mark := w.mark
    minutes := w.minutes
    source := some w.source
    locked := w.lock.getD r.locked
    explained := r.explained && w.mark.late
    arrival := if w.mark.present then w.arrival.or r.arrival else none }

/-- What a mark change did to the alert. -/
inductive AlertEffect where
  | untouched
  | cancelled
  | withdrawn
deriving DecidableEq, Repr

/-- The consequences of a mark change that are reported (R101, R115). -/
structure MarkEffect where
  alert : AlertEffect
  correction : Bool
deriving DecidableEq, Repr

/-- R109: the mark has left N; the alert is cancelled, or its message withdrawn. -/
def State.stopAlert (s : State) (p : Nat) (ss : Session) : State × AlertEffect :=
  let cancel := fun r : Rec => { r with alert := .cancelled, due := none, asked := none }
  match (s.record p ss).alert with
  | .held => (s.modRec p ss cancel, .cancelled)
  | .withheld => (s.modRec p ss cancel, .cancelled)
  | .due => (s.modRec p ss cancel, .cancelled)
  | .queued =>
    ((s.modRec p ss cancel).withdrawAll (s.waitingAbout .absenceAlert p ss), .withdrawn)
  | _ => (s, .untouched)

/-- R109: a mark of P, L or U on a record whose alert is SENDING or SENT asks once for an ARRIVAL CORRECTION. -/
def State.correctAlert (s : State) (p : Nat) (ss : Session) : State × Bool :=
  let r := s.record p ss
  if r.mark.present && (r.alert == .sending || r.alert == .sent) && !r.corrected then
    (((s.modRec p ss fun x => { x with corrected := true }).requestMsg .arrivalCorrection (.pupil p ss) none).1, true)
  else (s, false)

/-- R117: the tally after a mark and minutes give way to others. -/
def Tally.adjust (t : Tally) (was : Mark) (wasMin : Nat) (now : Mark) (nowMin : Nat) : Tally :=
  match was.late, now.late with
  | false, false => t
  | false, true => { t with count := min (t.count + 1) 15, minutes := min (t.minutes + nowMin) 4095 }
  | true, false => { t with count := t.count - 1, minutes := t.minutes - wasMin }
  | true, true => { t with minutes := min (t.minutes - wasMin + nowMin) 4095 }

/-- R119: a count raised to or above the threshold asks once for a PATTERN NOTICE. -/
def State.patternNotice (s : State) (p : Nat) (ss : Session) : State :=
  let t := s.tally p
  let k := s.set.options.threshold
  if k ≠ 0 && decide (k ≤ t.count) && !t.notified then
    ((s.putTally p { t with notified := true }).requestMsg .patternNotice (.pupil p ss) none).1
  else s

/-- A source writes a mark into a record: the record (R98), its alert and correction (R109), the tally (R117) and the
pattern notice (R119), in this order (DESIGN CHOICE, log 5). -/
def State.applyMark (s : State) (p : Nat) (ss : Session) (w : MarkWrite) : State × MarkEffect :=
  let old := s.record p ss
  let s1 := s.putRec p ss (old.write w)
  let (s2, effect) := if old.mark = .n && w.mark ≠ .n then s1.stopAlert p ss else (s1, .untouched)
  let (s3, correction) := if old.mark ≠ w.mark then s2.correctAlert p ss else (s2, false)
  let s4 := s3.putTally p ((s3.tally p).adjust old.mark old.minutes w.mark w.minutes)
  let s5 := if !old.mark.late && w.mark.late then s4.patternNotice p ss else s4
  (s5, ⟨effect, correction⟩)

/-! ## Alerts in the record (R106 to R108) -/

/-- R107: a HELD alert has reached its due time. -/
def State.heldDue (s : State) (p : Nat) (ss : Session) : State :=
  if (s.record p ss).mark = .n then s.alertBecomesDue p ss
  else s.modRec p ss fun r => { r with alert := .cancelled, due := none }

/-- The due time of an alert: the start time plus the alert delay, held at 23:59:59 (R106). -/
def State.dueFrom (s : State) (start : Nat) : Nat := min (start + s.set.options.alertDelay * 60) lastSecond

/-- R106, R108: the record has just become N and its alert starts. `closing` says that the event is a DAY CLOSE or a midnight
close, in which no WITHHELD alert becomes DUE. -/
def State.startAlert (s : State) (p : Nat) (ss : Session) (start : Nat) (closing : Bool) : State :=
  let r := s.record p ss
  if r.alert = .noAlert || r.alert = .cancelled then
    if r.expected then
      let s1 := s.modRec p ss fun x => { x with alert := .withheld, due := none }
      if !closing && (s.track (s.trackOf p)).state == .ended then s1.alertBecomesDue p ss else s1
    else
      let due := s.dueFrom start
      let s1 := s.modRec p ss fun x => { x with alert := .held, due := some due }
      if due ≤ s.clock.secs then s1.heldDue p ss else s1
  else s

/-- R107 at the Clock's time: the record's alert is HELD and its due time is reached. -/
def Rec.fallsDue (r : Rec) (secs : Nat) : Bool :=
  r.alert == .held &&
    match r.due with
    | some d => decide (d ≤ secs)
    | none => false

/-- R107: the alert of one record falls due when its due time is reached. -/
def State.alertDueAt (s : State) (p : Nat) (ss : Session) : State :=
  if (s.record p ss).fallsDue s.clock.secs then s.heldDue p ss else s

/-- R107 at a second event or a step: every alert whose due time is reached, in the pool's serve order (DESIGN CHOICE, log 5). -/
def State.alertsDue (s : State) : State :=
  (Tab.filter s.reg.recs fun _ r => r.fallsDue s.clock.secs).foldl
    (fun t k => t.alertDueAt (keyPupil k) (keySession k)) s

/-- R108: the WITHHELD alerts of a track's pupils still marked N become DUE, each asking the pool for storage: by ascending pupil, AM
before PM (DESIGN CHOICE, log 5). -/
def State.withheldDue (s : State) (t : Fin 4) : State :=
  (Tab.filter s.reg.recs fun k r =>
    r.alert == .withheld && r.mark == .n && s.trackOf (keyPupil k) == t).foldl
      (fun u k => u.alertBecomesDue (keyPupil k) (keySession k)) s

/-- R108, R131: expected-late is set on an unlocked record; a HELD or DUE alert becomes WITHHELD. -/
def State.setExpected (s : State) (p : Nat) (ss : Session) : State :=
  s.modRec p ss fun r =>
    if r.alert = .held || r.alert = .due then
      { r with expected := true, alert := .withheld, due := none, asked := none }
    else { r with expected := true }

/-- R131: explained is set; waiting LATE NOTICE requests for the pupil-session are withdrawn. -/
def State.setExplained (s : State) (p : Nat) (ss : Session) : State :=
  (s.modRec p ss fun r => { r with explained := true }).withdrawWaits .lateNotice p ss

/-! ## Sources -/

/-- What the Register answers to a desk arrival (R101). -/
inductive DeskAnswer where
  | applied (expected corrected : Bool)
  | alreadyIn
  | locked
deriving DecidableEq, Repr

/-- R101: a desk arrival with its classified mark. -/
def State.deskArrival (s : State) (p : Nat) (ss : Session) (mark : Mark) (minutes arrival : Nat) : State × DeskAnswer :=
  let r := s.record p ss
  if r.locked then (s, .locked)
  else if r.mark.present then (s, .alreadyIn)
  else
    let (s1, e) := s.applyMark p ss ⟨mark, minutes, .desk, some arrival, none⟩
    let s2 := if r.mark = .r || r.mark = .a then s1.handConflict p ss .arrivedAfterReport mark else s1
    (s2, .applied r.expected e.correction)

/-- R102: a parent ABSENT report for one pupil and session. -/
def State.parentAbsent (s : State) (p : Nat) (ss : Session) : State × AbsentAnswer :=
  let r := s.record p ss
  if r.locked then (s, .locked)
  else
    match r.mark with
    | .r => (s, .kept)
    | .a => (s, .kept)
    | .p => (s.handConflict p ss .reportWhilePresent .p, .conflict)
    | .l => (s.handConflict p ss .reportWhilePresent .l, .conflict)
    | .u => (s.handConflict p ss .reportWhilePresent .u, .conflict)
    | _ => ((s.applyMark p ss ⟨.r, 0, .parent, none, none⟩).1, .applied)

/-- The outcomes of a register entry (R111). -/
inductive EntryOutcome where
  | applied
  | kept
  | conflict
  | notMember
  | locked
deriving DecidableEq, Repr

/-- The outcome bytes of section 12.2. -/
def EntryOutcome.byte : EntryOutcome → Nat
  | .applied => 0x00
  | .kept => 0x03
  | .conflict => 0x04
  | .notMember => 0x05
  | .locked => 0x17

/-- A register entry through R100 (R111). -/
def State.registerEntry (s : State) (p : Nat) (ss : Session) (e : Entry) : State × EntryOutcome :=
  let r := s.record p ss
  match registerCell e r.mark r.source with
  | .take m minutes => ((s.applyMark p ss ⟨m, minutes, .register, none, none⟩).1, .applied)
  | .keep => (s, .kept)
  | .clash => (s.handConflict p ss .registerDisagrees r.mark, .conflict)

/-- R113: an entry of a late register; X on NONE or X makes the record N. -/
def State.lateEntry (s : State) (p : Nat) (ss : Session) (e : Entry) : State × EntryOutcome :=
  let r := s.record p ss
  if e = .x && (r.mark = .nothing || r.mark = .x) then
    let s1 := (s.applyMark p ss ⟨.n, 0, .register, none, none⟩).1
    (s1.startAlert p ss s.clock.secs false, .applied)
  else s.registerEntry p ss e

/-! ## Sessions (R99, R112) -/

/-- The groups of a track, ascending. -/
def State.groupsOf (s : State) (t : Fin 4) : List Nat :=
  (List.range Config.groups).filter fun g => (s.group g).track == t

/-- R112: a member record of a SUBMITTED group at its session's close. -/
def State.closeRecord (ss : Session) (start : Nat) (closing : Bool) (s : State) (p : Nat) : State :=
  let r := s.record p ss
  if !r.locked && (r.mark = .nothing || r.mark = .x) then
    ((s.applyMark p ss ⟨.n, 0, .close, none, none⟩).1).startAlert p ss start closing
  else s

/-- R112: a session's close for one group, and whether the group became MISSING. The member records of a group are closed by ascending
roster index (DESIGN CHOICE, log 5). -/
def State.closeGroup (ss : Session) (start : Nat) (closing : Bool) (x : State × Bool) (g : Nat) : State × Bool :=
  let s := x.1
  if (s.members g).isEmpty then (s.setGroupStatus g ss .empty, x.2)
  else
    match s.groupStatus g ss with
    | .submitted => ((s.members g).foldl (State.closeRecord ss start closing) s, x.2)
    | .awaited => (s.setGroupStatus g ss .missing, true)
    | _ => x

/-- R112: a session of a track closes, with the start time its alerts take. -/
def State.closeSession (s : State) (t : Fin 4) (ss : Session) (start : Nat) (closing : Bool) : State :=
  let s1 := s.setSession t ss (some .closed)
  let r := (s1.groupsOf t).foldl (State.closeGroup ss start closing) (s1, false)
  if r.2 then r.1.raise .registerMissing else r.1

/-- The segment that carries a session point has begun (R99, R31). -/
def pointBegun (p : PlanIF) (ss : Session) : Bool := p.segs.any fun g => g.seg.point == some ss && g.begun

/-- R99: a BEFORE session whose point has begun becomes OPEN. -/
def State.openSessionAt (s : State) (t : Fin 4) (ss : Session) : State :=
  match (s.track t).plan, s.session t ss with
  | some p, some .before => if pointBegun p ss then s.setSession t ss (some .opened) else s
  | _, _ => s

/-- R99: a session that is not CLOSED closes when its close time is reached; the close time is its alerts' start time. -/
def State.closeSessionAt (s : State) (t : Fin 4) (ss : Session) : State :=
  match (s.track t).plan, s.session t ss with
  | some p, some x =>
    match sessionClose p (s.track t).delay ss with
    | some m =>
      if x ≠ .closed && (s.dayOver || reached m s.clock.secs) then s.closeSession t ss (m * 60) false else s
    | none => s
  | _, _ => s

/-- Sessions open and close as their times are reached, an opening before a closing (R99); of two that one event opens or closes, AM before
PM (DESIGN CHOICE, log 5). -/
def State.followSessions (s : State) (t : Fin 4) : State :=
  let s1 := (s.openSessionAt t .am).openSessionAt t .pm
  (s1.closeSessionAt t .am).closeSessionAt t .pm

/-- R31: a track's begun flags and state follow the time. -/
def Track.follow (x : Track) (secs : Nat) (past : Bool) : Track :=
  match x.plan, x.state with
  | _, .ended => x
  | none, _ => x
  | some p, _ =>
    let q : PlanIF :=
      { p with segs :=
          if past then p.segs.map fun g => { g with begun := true } else markBegun secs (dayStart p x.delay) p.segs }
    let st : TrackState :=
      if past || reached (dayEndOf p x.delay) secs then .ended
      else if firstBegun q then .running else x.state
    { x with plan := some q, state := st }

/-- R31, R99, R108: a track's segments, sessions and end follow the time. -/
def State.followTrack (s : State) (t : Fin 4) : State :=
  let was := (s.track t).state
  let s1 := s.setTrack t ((s.track t).follow s.clock.secs s.dayOver)
  let s2 := s1.followSessions t
  if was ≠ .ended && (s2.track t).state = .ended then s2.withheldDue t else s2

/-- Whether a day's times are followed: while the day is OPENING or OPEN (R23, R31). -/
def State.dayRuns (s : State) : Bool := s.plan.dayState == .opening || s.plan.dayState == .opened

/-- Every track follows the time. -/
def State.followTracks (s : State) : State := if s.dayRuns then fours.foldl State.followTrack s else s

/-- A cleared register (R97, R99, R114, R117): the records, the session states given (DEDUCED, log 25), and the group statuses. -/
def State.clearRegister (s : State) : State :=
  let sess : Quad (PerSession (Option SessState)) := Quad.all ⟨some .before, some .before⟩
  let noPm := (List.range Config.groups).filter fun g => !s.trackHasPm (s.group g).track
  let s1 : State := { s with reg := ⟨[], sess, [], []⟩ }
  noPm.foldl (fun t g => t.setGroupStatus g .pm .notHeld) s1

end Sys2Proof.Machine
end

