-- ==== Sys2Proof/Machine/Stations.lean ====
section
/-! DEFINITION. The Station Lines (04): assembling and checking ARRIVAL records, the holding queue, HELD, SHOW records, and
STATION RESUME and STATION STATUS. -/

namespace Sys2Proof.Machine

/-! ## The stations in State -/

def State.station (s : State) (n : Fin 6) : Station := s.stations.get n

def State.setStation (s : State) (n : Fin 6) (x : Station) : State := { s with stations := s.stations.set n x }

def State.stationOn (s : State) (n : Fin 6) : Bool := (s.set.stations.get n).enabled

def Station.count (x : Station) (f : StationCounters → StationCounters) : Station := { x with cnt := f x.cnt }

/-- The line's report of an overrun, a framing error or a drop while held to the desk statistics (R73, R95). -/
def State.deskOverrun (s : State) (n : Fin 6) : State :=
  { s with desk.stats.overruns := s.desk.stats.overruns.set n (inc32 (s.desk.stats.overruns.get n)) }

def State.deskFraming (s : State) (n : Fin 6) : State :=
  { s with desk.stats.framing := s.desk.stats.framing.set n (inc32 (s.desk.stats.framing.get n)) }

def State.deskHeldDrop (s : State) (n : Fin 6) : State :=
  { s with desk.stats.heldDrops := s.desk.stats.heldDrops.set n (inc32 (s.desk.stats.heldDrops.get n)) }

/-! ## SHOW records (R72) -/

/-- A SHOW record joins the line's output: it is sent at once when nothing is being sent, and dropped when 4 wait. -/
def Station.show (x : Station) (r : Show) : Station :=
  match x.sending with
  | none => { x with sending := some r }
  | some _ =>
    if x.out.length < Config.showMax then { x with out := x.out ++ [r] }
    else x.count fun c => { c with showDropped := inc32 c.showDropped }

/-- A SHOW record that the line makes itself: name empty, minutes 0, expected clear (R72). -/
def lineShow (d : Display) (seq : Option Nat) : Show := ⟨d, seq, false, [], 0⟩

/-- The line answers RETRY in READY and WAIT in HELD (R63, R64). -/
def Station.retry (x : Station) (seq : Option Nat) : Station := x.show (lineShow (if x.held then .wait else .retry) seq)

/-- R72: the record being sent has gone out, and the next begins. -/
def Station.showSent (x : Station) : Station :=
  match x.sending with
  | none => x
  | some _ =>
    { x.count fun c => { c with showSent := inc32 c.showSent } with sending := x.out.head?, out := x.out.tail }

/-! ## READY and HELD -/

/-- R69: a HELD line whose queue is empty and whose hold-off has run returns to READY, and the station is told. -/
def Station.settle (x : Station) : Station :=
  if x.held && x.queue.isEmpty && x.holdOff == 0 then { x with held := false }.show (lineShow .ready none) else x

/-- R68: a second event at the hold-off. -/
def Station.holdSecond (x : Station) : Station :=
  if 0 < x.holdOff then { x with holdOff := x.holdOff - 1 }.settle else x

/-- R68, R69: the hold-off has run. -/
def Station.holdReached (x : Station) : Station := if 0 < x.holdOff then { x with holdOff := 0 }.settle else x

/-! ## Records (R62 to R67) -/

/-- A well-formed record's fields, from the seven characters after the start marker, stamped as it completes; none for a bad
record (R64). -/
def parseArrival (now : Stamp) (l : List Byte) : Option Arrival :=
  match l with
  | [kind, sequence, c0, c1, c2, c3, check] =>
    if sum256 [kind, sequence, c0, c1, c2, c3, check] ≠ 0 then none
    else if kind = 0x01#8 then some ⟨sequence.toNat, false, num [c0, c1, c2, c3], now.secs, now.date⟩
    else if kind = 0x02#8 ∧ c0 = 0 ∧ c1 = 0 then some ⟨sequence.toNat, true, num [c2, c3], now.secs, now.date⟩
    else none
  | _ => none

/-- The sequence field as received (R64). -/
def sequenceOf (l : List Byte) : Nat := (l[1]?.getD 0).toNat

/-- R64: a bad record is discarded, counted and answered. -/
def State.badArrival (s : State) (n : Fin 6) (seq : Nat) : State :=
  s.setStation n (((s.station n).count fun c => { c with bad := inc32 c.bad }).retry (some seq))

/-- R66: an overrun: the record is dropped, the line is HELD, the hold-off starts, and the station is told to wait. -/
def State.overrun (s : State) (n : Fin 6) (a : Arrival) : State :=
  let x := { (s.station n).count fun c => { c with overruns := inc32 c.overruns } with
    held := true, holdOff := (s.set.stations.get n).holdOff }
  ((s.setStation n (x.show (lineShow .wait (some a.sequence)))).deskOverrun n).raise .stationHeld

/-- R67: a record that completes in HELD is dropped. -/
def State.heldDrop (s : State) (n : Fin 6) (a : Arrival) : State :=
  let x := (s.station n).count fun c => { c with heldDrops := inc32 c.heldDrops }
  (s.setStation n (x.show (lineShow .wait (some a.sequence)))).deskHeldDrop n

/-- R65: the record joins the tail of the holding queue. -/
def State.holdRecord (s : State) (n : Fin 6) (a : Arrival) : State :=
  s.setStation n { s.station n with queue := (s.station n).queue ++ [a] }

/-- R64 to R67: a well-formed record. -/
def State.goodArrival (s : State) (n : Fin 6) (a : Arrival) : State :=
  let s1 := s.setStation n ((s.station n).count fun c => { c with received := inc32 c.received })
  if (s.station n).held then s1.heldDrop n a
  else if (s.station n).queue.length < Config.holdingMax then s1.holdRecord n a
  else s1.overrun n a

/-- Nothing is under assembly (R62). -/
def Station.clearAsm (x : Station) : Station := { x with asm := none, gap := 0 }

/-- R64: a record is complete, given by its characters after the start marker (DEDUCED, log 20). -/
def State.arrivalComplete (s : State) (n : Fin 6) (l : List Byte) : State :=
  let s1 := s.setStation n (s.station n).clearAsm
  match parseArrival s.clock.stamp l with
  | some a => s1.goodArrival n a
  | none => s1.badArrival n (sequenceOf l)

/-- The start marker of an ARRIVAL record (section 12.3). -/
def arrivalMarker : Byte := 0xE1#8

/-- R62: a character with a good stop bit on an enabled line. -/
def State.stationChar (s : State) (n : Fin 6) (c : Byte) : State :=
  let x := s.station n
  match x.asm with
  | none =>
    if c = arrivalMarker then s.setStation n { x with asm := some [c], gap := 0 }
    else s.setStation n (x.count fun k => { k with strays := inc32 k.strays })
  | some l =>
    let m := l ++ [c]
    if m.length < 8 then s.setStation n { x with asm := some m, gap := 0 } else s.arrivalComplete n m.tail

/-- R63: a character with a bad stop bit. -/
def State.stationFraming (s : State) (n : Fin 6) : State :=
  let x := (s.station n).clearAsm.count fun k => { k with framing := inc32 k.framing }
  (s.setStation n (x.retry none)).deskFraming n

/-- R62: a record under assembly is abandoned, and the line answers as for a framing error. -/
def Station.abandon (x : Station) : Station :=
  (x.clearAsm.count fun k => { k with abandoned := inc32 k.abandoned }).retry none

/-- R62: a second event at the gap count. -/
def Station.gapSecond (x : Station) : Station :=
  match x.asm with
  | none => x
  | some _ => if x.gap + 1 ≥ 2 then x.abandon else { x with gap := x.gap + 1 }

/-- A second event on a station line: the gap count, then the hold-off (DESIGN CHOICE, log 5). A disabled line has neither. -/
def State.stationSecond (s : State) (n : Fin 6) : State :=
  if s.stationOn n then s.setStation n (s.station n).gapSecond.holdSecond else s

/-! ## The line's settings (R59, R60) -/

/-- R59: the divisor of a target rate, or none when it is refused. The quotient's nearest whole number, halves upward, less
one; the error is judged in whole numbers. -/
def divisorFor (target : Nat) : Option Nat :=
  if target = 0 ∨ 230400 < target then none
  else
    let nearest := (2 * 115200 + target) / (2 * target)
    if nearest = 0 ∨ 256 < nearest then none
    else
      -- 50 × |115200 / nearest − target| > target, times nearest
      let diff := (115200 - target * nearest) + (target * nearest - 115200)
      if target * nearest < 50 * diff then none else some (nearest - 1)

/-- The rate of a divisor in whole baud; a quotient that is no whole number is reported rounded one way or the other. -/
def actualRate (n : Nat) : Nat :=
  115200 / (n + 1) + (if 115200 % (n + 1) = 0 then 0 else if Config.rateUp n then 1 else 0)

/-- R60: what an accepted STATIONS write does on the line. A write that disables the station and changes its divisor is taken as the
disabling alone, and its record under assembly is not counted as abandoned (DESIGN CHOICE, log 31). -/
def Station.rewrite (x : Station) (old new : StationCfg) : Station :=
  match old.enabled, new.enabled with
  | true, true =>
    if old.divisor = new.divisor then x
    else
      match x.asm with
      | some _ => x.clearAsm.count fun k => { k with abandoned := inc32 k.abandoned }
      | none => x
  | true, false =>
    { x.clearAsm.count fun k => { k with discarded := add32 k.discarded x.queue.length } with
      queue := [], out := [], sending := none, held := false, holdOff := 0 }
  | false, true => { x.clearAsm with held := false, queue := [] }.show (lineShow .ready none)
  | false, false => x

/-! ## Requests -/

/-- R71: a station is resumed. -/
def Station.resume (x : Station) : Station :=
  let y := x.queue.foldl (fun y a =>
    (y.count fun k => { k with discarded := inc32 k.discarded }).show (lineShow .retry (some a.sequence))) x.clearAsm
  { y with queue := [], holdOff := 0, held := false }.show (lineShow .ready none)

/-- STATION RESUME (R71). -/
def reqStationResume (station : Nat) (s : State) : Answered :=
  match station? station with
  | none => s.refuse .badArg
  | some n =>
    if s.stationOn n then
      (s.setStation n (s.station n).resume, Reply.ok (b1 (s.station n).queue.length))
    else s.refuse .state

def StationCounters.bytes (c : StationCounters) : List Byte :=
  b4 c.received ++ b4 c.taken ++ b4 c.framing ++ b4 c.bad ++ b4 c.abandoned ++ b4 c.strays ++ b4 c.overruns ++
    b4 c.heldDrops ++ b4 c.discarded ++ b4 c.showSent ++ b4 c.showDropped

/-- The body of STATION STATUS (R74). The divisor and actual rate are those of the entry in force, also while a SHOW record is still being
sent at the old rate after a change (R60; DESIGN CHOICE, log 42). -/
def stationBody (c : StationCfg) (x : Station) : List Byte :=
  bFlag c.enabled ++ b1 c.divisor ++ b4 (actualRate c.divisor) ++ bFlag x.held ++ b1 x.holdOff ++
    bList (fun a : Arrival => b1 a.sequence ++ bTime a.time) x.queue ++ bFlag x.asm.isSome ++ b1 x.out.length ++
    x.cnt.bytes

/-- STATION STATUS (R74). -/
def reqStationStatus (station : Nat) (s : State) : Answered :=
  match station? station with
  | none => s.refuse .badArg
  | some n => s.answer (stationBody (s.set.stations.get n) (s.station n))

end Sys2Proof.Machine
end

