-- ==== Sys2Proof/Machine/Classifier.lean ====
section
/-! DEFINITION. The Arrival Classifier (05): its sources and round robin (R76, R77), classifying a record (R80 to R87), the
office's requests (R78, R79), SLIP REPRINT and SLIP STATUS (R90, R94), and the desk statistics (R95, R96). -/

namespace Sys2Proof.Machine

/-! ## Sources (R76, R77) -/

/-- Station n is source n; the office entry queue is source 7. -/
inductive Source where
  | station (n : Fin 6)
  | office
deriving DecidableEq, Repr

def Source.number : Source → Nat
  | .station n => n.val + 1
  | .office => 7

/-- The seven sources in order. -/
def sources : List Source := [.station 0, .station 1, .station 2, .station 3, .station 4, .station 5, .office]

/-- A source has work while its queue holds a record (R76). -/
def State.hasWork (s : State) : Source → Bool
  | .station n => !(s.station n).queue.isEmpty
  | .office => !s.desk.office.isEmpty

def QueueStat.take (q : QueueStat) : QueueStat := { q with taken := inc32 q.taken }

/-- The classifier becomes CLASSIFYING a record of a source (R76). -/
def State.classifying (s : State) (src : Source) (i : Item) : State :=
  { s with desk.cur := some i, desk.pointer := src.number }

/-- R70, R76: the head record of a source is taken; a take may return a HELD line to READY. -/
def State.takeFrom (s : State) (src : Source) : State :=
  match src with
  | .station n =>
    match (s.station n).queue with
    | [] => s
    | a :: rest =>
      let x := { (s.station n).count fun c => { c with taken := inc32 c.taken } with queue := rest }
      let s1 := s.setStation n x.settle
      let s2 : State := { s1 with desk.stats.stations := s1.desk.stats.stations.set n (s1.desk.stats.stations.get n).take }
      s2.classifying src (.station n a)
  | .office =>
    match s.desk.office with
    | [] => s
    | e :: rest =>
      let s1 : State := { s with desk.office := rest, desk.stats.office := s.desk.stats.office.take }
      s1.classifying src (.office e)

/-- R76: a source has gained work; an IDLE classifier takes its head record in the same event. -/
def State.gainWork (s : State) (src : Source) : State :=
  match s.desk.cur with
  | none => if s.hasWork src then s.takeFrom src else s
  | some _ => s

/-- The sources in the order a search looks at them: from the one after the pointer round to the one just served (R77). -/
def searchOrder (pointer : Nat) : List Source := sources.drop (pointer % 7) ++ sources.take (pointer % 7)

/-- R77: the search at a completion. -/
def State.searchNext (s : State) : State :=
  let s1 : State := { s with desk.cur := none }
  match (searchOrder s.desk.pointer).find? s1.hasWork with
  | some src => s1.takeFrom src
  | none => s1

/-! ## Finding and placing (R80 to R84) -/

/-- R80: the pupil that a record's code names. -/
def State.findPupil (s : State) : Item → Option Nat
  | .station _ a => if a.keyed then s.set.shortLookup a.code else s.set.badgeLookup a.code
  | .office e =>
    match e.key with
    | .badge => s.set.badgeLookup e.value
    | .short => s.set.shortLookup e.value
    | .roster => if pupilOk e.value && (s.pupil e.value).inUse then some e.value else none

/-- The completion time of a record. -/
def Item.time : Item → Nat
  | .station _ a => a.time
  | .office e => e.time

/-- The date on which a record was stamped. -/
def Item.date : Item → Date
  | .station _ a => a.date
  | .office e => e.date

/-- Where an arrival falls in its track's day (R82). -/
inductive Placement where
  | early
  | span (ss : Session) (point close : Nat)
  | afterHours
deriving DecidableEq, Repr

/-- R82: placement by the arrival time alone; point and close are in minutes of day. -/
def placeArrival (p : PlanIF) (d t : Nat) : Placement :=
  if t < dayStart p d * 60 then .early
  else if dayEndOf p d * 60 ≤ t then .afterHours
  else
    match sessionPoint p d .pm with
    | some pm =>
      if pm * 60 ≤ t then .span .pm pm (closeFrom pm p.kPm)
      else .span .am ((sessionPoint p d .am).getD (dayStart p d)) ((sessionClose p d .am).getD 0)
    | none => .span .am ((sessionPoint p d .am).getD (dayStart p d)) ((sessionClose p d .am).getD 0)

/-- M: floor(e / 60) + 1, held at 240 (R83). -/
def lateMinutes (t point : Nat) : Nat := min ((t - point * 60) / 60 + 1) 240

/-- R83: the mark and minutes of an arrival at t against a point and a close time, with grace G′ in minutes. -/
def judge (t point close grace : Nat) : Mark × Nat :=
  if close * 60 ≤ t then (.u, lateMinutes t point)
  else if t < (point + grace) * 60 then (.p, 0)
  else (.l, lateMinutes t point)

/-- R84: the grace of a pupil at a session point. -/
def State.graceFor (s : State) (pl : PlanIF) (p point : Nat) : Nat :=
  let z := (s.group (s.pupil p).group).zone
  if bellFailed (s.bells.get z) point then pl.grace + pl.allowance else pl.grace

/-- The arrival was stamped since the midnight of a day that has gone past its date: every day end lies behind it (R24; DEDUCED,
log 15). -/
def State.sinceMidnight (s : State) (d : Date) : Bool := s.dayOver && s.plan.dayDate != some d

/-- R82 to R84: the session, mark and minutes of a pupil's arrival at second t of a date, or none when it is AFTER-HOURS. Placement is
by t alone, but for an arrival stamped since the midnight of an open day (log 15). -/
def State.judgeArrival (s : State) (p : Nat) (d : Date) (t : Nat) : Option (Session × Mark × Nat) :=
  match (s.track (s.trackOf p)).plan with
  | none => none
  | some pl =>
    if s.sinceMidnight d then none
    else
      match placeArrival pl (s.track (s.trackOf p)).delay t with
      | .early => some (.am, .p, 0)
      | .afterHours => none
      | .span ss point close =>
        let r := judge t point close (s.graceFor pl p point)
        some (ss, r.1, r.2)

/-! ## Answers (R86) -/

/-- An answer of the classifier before it is put into a SHOW record or the office answer list. -/
structure Verdict where
  display : Display
  pupil : Option Nat
  session : Option Session
  minutes : Nat
  slip : Option Nat
  expected : Bool
deriving DecidableEq, Repr

def plainVerdict (d : Display) (p : Option Nat) (ss : Option Session) : Verdict := ⟨d, p, ss, 0, none, false⟩

/-- R87: the LATE NOTICE request of an APPLIED L or U. -/
def State.lateNotice (s : State) (p : Nat) (ss : Session) (expected corrected : Bool) : State :=
  if !expected && (s.group (s.pupil p).group).lateNotices && !corrected then
    (s.requestMsg .lateNotice (.pupil p ss) none).1
  else s

/-- The display of an APPLIED L or U by whether its slip is queued (R86). -/
def lateDisplay (m : Mark) (slip : Option Nat) : Display :=
  match slip with
  | none => .amberNoslip
  | some _ => if m = .u then .red else .amber

/-- R85 to R87: a judged arrival is handed to the Register, and its slip and notice are made. -/
def State.applyArrival (s : State) (p t : Nat) (ss : Session) (m : Mark) (minutes : Nat) : State × Verdict :=
  match s.deskArrival p ss m minutes t with
  | (s1, .locked) => (s1, plainVerdict .seeDesk (some p) (some ss))
  | (s1, .alreadyIn) => (s1, plainVerdict .blue (some p) (some ss))
  | (s1, .applied expected corrected) =>
    if m.late then
      let (s2, slip) := s1.lateSlip p ss t m minutes expected
      (s2.lateNotice p ss expected corrected, ⟨lateDisplay m slip, some p, some ss, minutes, slip, expected⟩)
    else (s1, plainVerdict .green (some p) (some ss))

/-- R80 to R87: the classification of a record. -/
def State.classify (s : State) (i : Item) : State × Verdict :=
  match s.findPupil i with
  | none => (s, plainVerdict .grey none none)
  | some p =>
    match s.plan.dayState with
    | .opening => (s, plainVerdict .wait (some p) none)
    | .closing => (s, plainVerdict .closed (some p) none)
    | .closed => (s, plainVerdict .closed (some p) none)
    | .opened =>
      match s.judgeArrival p i.date i.time with
      | none => (s, plainVerdict .seeDesk (some p) none)
      | some (ss, m, minutes) => s.applyArrival p i.time ss m minutes

/-- R79: an answer goes to the head of the office answer list, which keeps the newest 4. -/
def State.officeAnswer (s : State) (e : OfficeEntry) (v : Verdict) : State :=
  let mark := match v.pupil, v.session with
    | some p, some ss => some (s.record p ss).mark
    | _, _ => none
  { s with
    desk.answers :=
      (⟨e.ticket, v.display, v.pupil, v.session, mark, v.minutes, v.slip, v.expected⟩ :: s.desk.answers).take
        Config.answersMax }

/-- R86: a station record's answer is handed to its line; a disabled line drops it. -/
def State.stationAnswer (s : State) (n : Fin 6) (a : Arrival) (v : Verdict) : State :=
  if s.stationOn n then
    let name := match v.pupil with
      | some p => (s.pupil p).name
      | none => []
    s.setStation n ((s.station n).show ⟨v.display, some a.sequence, v.expected, name, v.minutes⟩)
  else s

def State.giveAnswer (s : State) (i : Item) (v : Verdict) : State :=
  match i with
  | .station n a => s.stationAnswer n a v
  | .office e => s.officeAnswer e v

/-- R76, R77: the classification under way completes, and the next record is searched for. -/
def State.completeClassification (s : State) : State :=
  match s.desk.cur with
  | none => s
  | some i =>
    let r := s.classify i
    (r.1.giveAnswer i r.2).searchNext

/-! ## Desk statistics (R95, R96) -/

def QueueStat.sample (q : QueueStat) (n : Nat) : QueueStat :=
  { q with occupancy := add32 q.occupancy n, notEmpty := if 0 < n then inc32 q.notEmpty else q.notEmpty }

/-- R95: the sample of a second event. -/
def State.deskSample (s : State) : State :=
  let st := sixes.foldl (fun (q : Hex QueueStat) n => q.set n ((q.get n).sample (s.station n).queue.length))
    s.desk.stats.stations
  { s with
    desk.stats.stations := st
    desk.stats.office := s.desk.stats.office.sample s.desk.office.length
    desk.stats.slip := s.desk.stats.slip.sample s.slips.queue.length }

def State.clearDeskStats (s : State) : State := { s with desk.stats := DeskStats.cleared s.clock.stamp }

def QueueStat.bytes (q : QueueStat) : List Byte := b4 q.occupancy ++ b4 q.notEmpty ++ b4 q.taken

/-- The values of DESK STATISTICS, after the two stamps (R96). The per-station counts of R95 go count by count, six stations each
(DEDUCED, log 11). -/
def DeskStats.bytes (d : DeskStats) : List Byte :=
  d.stations.toList.flatMap QueueStat.bytes ++ d.office.bytes ++ d.slip.bytes ++ d.overruns.toList.flatMap b4 ++
    d.framing.toList.flatMap b4 ++ d.heldDrops.toList.flatMap b4 ++ b4 d.officeRefused ++ b4 d.slipsQueued ++
    b4 d.slipsDropped

/-! ## Requests -/

/-- The tickets held by the office queue, the record under classification and the answers (R78). -/
def Desk.tickets (d : Desk) : List Nat :=
  d.office.map (·.ticket) ++
    (match d.cur with
      | some (.office e) => [e.ticket]
      | _ => []) ++
    d.answers.map (·.ticket)

/-- R78: the value of a DESK ARRIVAL suits its key kind. -/
def keyOk : KeyKind → Nat → Bool
  | .badge, v => v != 0
  | .short, v => decide (1 ≤ v) && decide (v ≤ 9999)
  | .roster, v => pupilOk v

/-- R78: an accepted office entry joins the tail of the office entry queue, stamped with the Clock's date (log 15). -/
def State.joinOffice (s : State) (k : KeyKind) (value time : Nat) : State :=
  let t := s.desk.nextTicket
  let d : Desk := { s.desk with office := s.desk.office ++ [⟨t, k, value, time, s.clock.date⟩] }
  { s with desk := { d with nextTicket := nextFree 255 d.tickets 8 t } }

/-- DESK ARRIVAL (R78). -/
def reqDeskArrival (key value : Nat) (arrival : Option RawTime) (s : State) : Answered :=
  match KeyKind.ofCode key, arrival? arrival with
  | some k, some time =>
    if keyOk k value && decide ((time.getD 0) ≤ s.clock.secs) then
      if s.desk.office.length < Config.officeMax then
        let s1 := s.joinOffice k value (time.getD s.clock.secs)
        (s1.gainWork .office, Reply.ok (b1 s.desk.nextTicket ++ b1 s1.desk.office.length))
      else ({ s with desk.stats.officeRefused := inc32 s.desk.stats.officeRefused }, Reply.just .full)
    else s.refuse .badArg
  | _, _ => s.refuse .badArg

def OfficeAnswer.bytes (a : OfficeAnswer) : List Byte :=
  b1 a.ticket ++ b1 a.display.code ++ bOpt 2 b2 a.pupil ++ bOpt 1 (fun x => b1 (sessionCode x)) a.session ++
    bOpt 1 (fun m : Mark => b1 m.code) a.mark ++ b1 a.minutes ++ bOpt 2 b2 a.slip ++ bFlag a.expected

/-- DESK ANSWERS (R79). -/
def reqDeskAnswers (s : State) : Answered := s.answer (bList OfficeAnswer.bytes s.desk.answers)

/-- SLIP REPRINT (R90). -/
def reqSlipReprint (pupil session : Nat) (s : State) : Answered :=
  match sessionOf session with
  | none => s.refuse .badArg
  | some ss =>
    if pupilOk pupil then
      let r := s.record pupil ss
      match r.arrival with
      | none => s.refuse .notFound
      | some t =>
        match s.joinSlip (s.makeSlip .copy pupil ss (.lateness t r.mark r.minutes r.expected)) with
        | (s1, some n) => (s1, Reply.ok (b2 n))
        | (s1, none) => (s1, Reply.just .full)
    else s.refuse .badArg

/-- The body of SLIP STATUS (R94). The kind and number of the slip in the slot are none together and share one flag byte (DEDUCED,
log 11). -/
def SlipLine.bytes (l : SlipLine) : List Byte :=
  b1 l.state.code ++ bFlag l.ready ++ b1 l.queue.length ++
    bOpt 3 (fun x : Slip => b1 x.kind.code ++ b2 x.number) l.slot ++ b2 l.next ++
    b4 l.queued ++ b4 l.printed ++ b4 l.dropped ++ b4 l.stalls ++ b4 l.resends

/-- SLIP STATUS (R94). -/
def reqSlipStatus (s : State) : Answered := s.answer s.slips.bytes

/-- DESK STATISTICS (R96). A flag other than set or clear is BAD_ARG (R210). -/
def reqDeskStatistics (clear : Nat) (s : State) : Answered :=
  match flagOf clear with
  | none => s.refuse .badArg
  | some c =>
    let body := bStamp s.desk.stats.since ++ bStamp s.clock.stamp ++ s.desk.stats.bytes
    (if c then s.clearDeskStats else s, Reply.ok body)

end Sys2Proof.Machine
end

