-- ==== Sys2Proof/Machine/Reports.lean ====
section
/-! DEFINITION. The Report Parser (09, section 9.4): splitting a text (R164), matching the sender (R165), routing (R166, R167,
and R130 of 07), and keeping for the office (R168). -/

namespace Sys2Proof.Machine

/-! ## Splitting a text (R164) -/

/-- The tokens of a text: maximal runs of characters that are not spaces. -/
def tokensGo : List Byte → List Byte → List Text
  | [], [] => []
  | [], acc => [acc.reverse]
  | c :: l, acc =>
    if c = 0x20#8 then
      match acc with
      | [] => tokensGo l []
      | _ => acc.reverse :: tokensGo l []
    else tokensGo l (c :: acc)

def tokens (t : Text) : List Text := tokensGo t []

/-- Letters are compared without regard to case. -/
def upper (c : Byte) : Byte := if 0x61 ≤ c.toNat ∧ c.toNat ≤ 0x7A then c - 0x20#8 else c

def wordAbsent : Text := [0x41#8, 0x42#8, 0x53#8, 0x45#8, 0x4E#8, 0x54#8]
def wordLate : Text := [0x4C#8, 0x41#8, 0x54#8, 0x45#8]

/-- The number that digits spell. -/
def digitsValue (t : Text) : Nat := t.foldl (fun n c => n * 10 + (c.toNat - 0x30)) 0

/-- A digits-only token: a code, in the place of a code. -/
def isCode (t : Text) : Bool := !t.isEmpty && t.all isDigit

/-- A code is 1 to 4 digits with a value of 1 to 9999. -/
def codeOk (t : Text) : Bool := decide (t.length ≤ 4) && decide (1 ≤ digitsValue t)

/-- The day and month of a token of the form of 1 or 2 digits, a slash, and 1 or 2 digits. -/
def dayMonth (t : Text) : Option (Nat × Nat) :=
  let d := t.takeWhile isDigit
  match t.dropWhile isDigit with
  | c :: m =>
    if c = 0x2F#8 ∧ 1 ≤ d.length ∧ d.length ≤ 2 ∧ 1 ≤ m.length ∧ m.length ≤ 2 ∧ m.all isDigit then
      some (digitsValue d, digitsValue m)
    else none
  | [] => none

/-- A date 1 to 21 days after another. -/
def Date.soonAfter (d now : Date) : Bool := decide (now.number < d.number) && decide (d.number ≤ now.number + 21)

/-- The date that a day and month give: the Clock's year, or the next year when the date lies before the Clock's date and
the same day of the next year lies 1 to 21 days after it; none when it does not exist (R164). -/
def reportDate (now : Date) (day month : Nat) : Option Date :=
  let d : Date := ⟨day, month, now.year⟩
  let e : Date := ⟨day, month, now.year + 1⟩
  if !d.valid then none
  else if decide (d.number < now.number) && e.valid && e.soonAfter now then some e
  else some d

/-- What the parser reads from a text. -/
inductive Parsed where
  | unmatched (reason : Bool)
  | absence (code : Option Nat) (date : Date) (reason : Bool)
  | lateness (code : Option Nat) (reason : Bool)
deriving DecidableEq, Repr

/-- The code in the second place, and the tokens after it. -/
def takeCode : List Text → Option Text × List Text
  | [] => (none, [])
  | t :: l => if isCode t then (some t, l) else (none, t :: l)

/-- The date in the next place, and the tokens after it. -/
def takeDate : List Text → Option (Nat × Nat) × List Text
  | [] => (none, [])
  | t :: l =>
    match dayMonth t with
    | some x => (some x, l)
    | none => (none, t :: l)

/-- A code in its place is none, or suits the range. -/
def codeFits : Option Text → Bool
  | none => true
  | some t => codeOk t

/-- R164 for a text that begins with ABSENT. -/
def parseAbsent (now : Date) (l : List Text) : Parsed :=
  let (code, l1) := takeCode l
  let (dm, l2) := takeDate l1
  let reason := !l2.isEmpty
  let date := match dm with
    | none => some now
    | some (d, m) => reportDate now d m
  match date with
  | some d => if codeFits code then .absence (code.map digitsValue) d reason else .unmatched reason
  | none => .unmatched reason

/-- R164 for a text that begins with LATE. -/
def parseLate (l : List Text) : Parsed :=
  let (code, l1) := takeCode l
  if codeFits code then .lateness (code.map digitsValue) !l1.isEmpty else .unmatched !l1.isEmpty

/-- R164: the form of a text. A text that begins with neither word carries no reason (DEDUCED, log 16). -/
def parseText (now : Date) (t : Text) : Parsed :=
  match tokens t with
  | [] => .unmatched false
  | w :: l =>
    if w.map upper = wordAbsent then parseAbsent now l
    else if w.map upper = wordLate then parseLate l
    else .unmatched false

/-! ## Matching the sender (R165) -/

/-- The pupils that a report applies to, or none when it is UNMATCHED. -/
def Settings.reportPupils (t : Settings) (sender : Text) (code : Option Nat) : Option (List Nat) :=
  let l := t.senderList sender
  if l.isEmpty then none
  else
    match code with
    | none => some l
    | some c =>
      match t.shortLookup c with
      | some p => if l.contains p then some [p] else none
      | none => none

/-! ## Routing (R166, R167) -/

/-- What routing has gathered: per pupil the answers, and whether a pupil or the report went to the office. -/
structure Routed where
  answers : List (Nat × List Answer)
  office : Bool
deriving DecidableEq, Repr

/-- The sessions of a pupil's track whose span has not ended, AM before PM; none once the track is ENDED (R166; DEDUCED, log 26). -/
def State.openSpans (s : State) (p : Nat) : List Session :=
  let t := s.track (s.trackOf p)
  match t.plan, t.state with
  | none, _ => []
  | _, .ended => []
  | some pl, _ =>
    (if s.clock.secs < spanEnd pl t.delay .am * 60 then [.am] else []) ++
      (if hasPm pl && decide (s.clock.secs < spanEnd pl t.delay .pm * 60) then [.pm] else [])

/-- A parent ABSENT report for each of a pupil's sessions, with the answers. -/
def State.absentSessions (s : State) (p : Nat) : List Session → State × List AbsentAnswer
  | [] => (s, [])
  | ss :: l =>
    let (s1, a) := s.parentAbsent p ss
    let (s2, as) := s1.absentSessions p l
    (s2, a :: as)

/-- R166, applied today, for one pupil. -/
def routeToday (x : State × Routed) (p : Nat) : State × Routed :=
  match x.1.openSpans p with
  | [] => (x.1, { x.2 with answers := x.2.answers ++ [(p, [])], office := true })
  | l =>
    let (s1, as) := x.1.absentSessions p l
    (s1, { x.2 with answers := x.2.answers ++ [(p, as.map .absent)] })

/-- R166, a later date, for one pupil: REFUSED and FULL route the pupil to the office. -/
def routeAdvance (d : Date) (report : Option Nat) (x : State × Routed) (p : Nat) : State × Routed :=
  let (s1, a) := x.1.takeAdvance p d .both report
  (s1, { answers := x.2.answers ++ [(p, [.advance a])], office := x.2.office || a != .taken })

/-- The whole report is routed to the office. -/
def routeOffice (s : State) (ps : List Nat) : State × Routed := (s, ⟨ps.map fun p => (p, []), true⟩)

/-- R166: a matched ABSENCE REPORT for a date. -/
def State.routeAbsence (s : State) (n : Nat) (ps : List Nat) (d : Date) (reason : Bool) : State × Routed :=
  if s.plan.dayState = .opened ∧ s.plan.dayDate = some d then ps.foldl routeToday (s, ⟨[], false⟩)
  else if d.soonAfter s.clock.date then
    ps.foldl (routeAdvance d (if reason then some n else none)) (s, ⟨[], false⟩)
  else routeOffice s ps

/-- R130: the target session of a lateness report, and whether the track is ENDED. -/
def State.latenessTarget (s : State) (p : Nat) : Option (Session × Bool) :=
  let t := s.track (s.trackOf p)
  match t.plan with
  | none => none
  | some pl =>
    match t.state with
    | .ended => some (if hasPm pl then .pm else .am, true)
    | _ =>
      match sessionPoint pl t.delay .pm with
      | some m => some (if m * 60 ≤ s.clock.secs then .pm else .am, false)
      | none => some (.am, false)

/-- R130, R131: a lateness report for one pupil while the day is OPEN. -/
def State.takeLateness (s : State) (p : Nat) (ss : Session) (ended : Bool) : State × LatenessAnswer :=
  let r := s.record p ss
  if r.locked then (s, .locked)
  else if r.mark.late then (s.setExplained p ss, .explained)
  else if ended then (s.handConflict p ss .lateReportNoArrival r.mark, .conflict)
  else (s.setExpected p ss, .expected)

/-- R167 for one pupil. -/
def routeLate (x : State × Routed) (p : Nat) : State × Routed :=
  match x.1.latenessTarget p with
  | none => (x.1, ⟨x.2.answers ++ [(p, [])], true⟩)
  | some (ss, ended) =>
    let (s1, a) := x.1.takeLateness p ss ended
    (s1, { x.2 with answers := x.2.answers ++ [(p, [.lateness a])] })

/-- R167: a matched LATENESS REPORT. -/
def State.routeLateness (s : State) (ps : List Nat) : State × Routed :=
  if s.plan.dayState = .opened then ps.foldl routeLate (s, ⟨[], false⟩) else routeOffice s ps

/-! ## Keeping (R168) -/

/-- LOCKED, from the Register or from the Reconciliation Unit (R168). -/
def Answer.isLocked : Answer → Bool
  | .absent a => a == .locked
  | .advance _ => false
  | .lateness a => a == .locked

/-- CONFLICT, from the Register or from the Reconciliation Unit (R168). -/
def Answer.isConflict : Answer → Bool
  | .absent a => a == .conflict
  | .advance _ => false
  | .lateness a => a == .conflict

/-- The keep reasons of a report. -/
def keepReasons (reason unmatched : Bool) (r : Routed) : KeepReasons :=
  { reason := reason
    unmatched := unmatched
    locked := r.answers.any fun x => x.2.any Answer.isLocked
    conflict := r.answers.any fun x => x.2.any Answer.isConflict
    office := r.office }

def KeepReasons.any (k : KeepReasons) : Bool := k.reason || k.unmatched || k.locked || k.conflict || k.office

/-- R168: a report is kept for the office. -/
def State.keepReport (s : State) (n : Nat) (k : KeepReasons) (answers : List (Nat × List Answer)) : State :=
  let s1 := s.modMessage n fun m =>
    match m.body with
    | .report r => { m with body := .report { r with kept := some k, answers := answers } }
    | .out _ => m
  { s1 with sched.kept := s1.sched.kept ++ [n] }.raise .inboundWaiting

/-- R168: a report is kept, or freed when it has no keep reason. -/
def State.settleReport (s : State) (n : Nat) (k : KeepReasons) (answers : List (Nat × List Answer)) : State :=
  if k.any then s.keepReport n k answers
  else
    match s.message n with
    | some m => s.freeMessage m
    | none => s

/-- R168: the receipt of a matched report. -/
def State.requestReceipt (s : State) (sender : Text) (n : Nat) : State :=
  if s.set.options.receipts then (s.requestMsg .reportReceipt (.sender sender n) none).1 else s

def State.setKind (s : State) (n : Nat) (k : MsgKind) : State := s.modMessage n fun m => { m with kind := k }

/-- A report that applies to no pupil. -/
def State.unmatchedReport (s : State) (n : Nat) (reason : Bool) : State :=
  (s.setKind n .unmatchedReport).settleReport n (keepReasons reason true ⟨[], false⟩) []

/-- A matched report, routed: it is kept or freed, and then its receipt is requested (R168). -/
def State.finishReport (x : State × Routed) (n : Nat) (sender : Text) (reason : Bool) : State :=
  (x.1.settleReport n (keepReasons reason false x.2) x.2.answers).requestReceipt sender n

/-- R164 to R168: a stored report is parsed and routed. -/
def State.parseReport (s : State) (n : Nat) : State :=
  match s.message n with
  | none => s
  | some m =>
    match m.body with
    | .out _ => s
    | .report r =>
      match parseText s.clock.date m.text with
      | .unmatched reason => s.unmatchedReport n reason
      | .absence code d reason =>
        match s.set.reportPupils r.sender code with
        | none => s.unmatchedReport n reason
        | some ps => State.finishReport ((s.setKind n .absenceReport).routeAbsence n ps d reason) n r.sender reason
      | .lateness code reason =>
        match s.set.reportPupils r.sender code with
        | none => s.unmatchedReport n reason
        | some ps => State.finishReport ((s.setKind n .latenessReport).routeLateness ps) n r.sender reason

/-- R163: the reports held during OPENING are parsed in the order in which they took storage. -/
def State.parseHeld (s : State) : State :=
  ((s.pool.msgs.filter fun m => m.kind == .inbound).map (·.number)).foldl State.parseReport s

end Sys2Proof.Machine
end

