-- ==== Sys2Proof/Machine/Gateway.lean ====
section
/-! DEFINITION. The Gateway Link (09, section 9.3; 12.4): assembling and checking records, READY, RESULT and INBOUND, link
loss; and the host's requests about messages (R147, R169 to R173). -/

namespace Sys2Proof.Machine

/-! ## READY, RESULT, INBOUND -/

/-- R158: a well-formed READY. -/
def State.gwReady (s : State) (w : Window) : State :=
  { s with gw.up := true, gw.window := some w, gw.since := 0 }.recallBeyond w.size

/-- R157: a bad record is counted and not answered. -/
def State.gwBad (s : State) : State := { s with gw.stats.badRecords := inc32 s.gw.stats.badRecords }

/-- R163: a well-formed INBOUND. -/
def State.gwInbound (s : State) (sender text : Text) : State :=
  match s.storeReport sender text with
  | none =>
    let s1 := s.countReject .report
    { s1 with gw := { s1.gw.send .busy with stats := { s1.gw.stats with inboundBusy := inc32 s1.gw.stats.inboundBusy } } }
  | some (s1, n) =>
    let s2 : State := { s1 with
      gw := { s1.gw.send .taken with stats := { s1.gw.stats with inboundTaken := inc32 s1.gw.stats.inboundTaken } } }
    if s2.plan.dayState = .opening then s2 else s2.parseReport n

/-- R159: the link becomes DOWN: the outstanding submissions are recalled, the window and status discarded. -/
def State.gwDown (s : State) : State :=
  if s.gw.up then
    { s with
      gw.up := false
      gw.window := none
      gw.since := 60
      gw.stats.downs := inc32 s.gw.stats.downs }.raise .gatewayDown |>.recall s.sched.out
  else s

/-- R159: a second event at the link. -/
def State.gwSecond (s : State) : State :=
  if s.gw.up then
    if s.gw.since + 1 ≥ 60 then s.gwDown else { s with gw.since := s.gw.since + 1 }
  else s

/-! ## Records under assembly -/

/-- A record the gateway sends (section 12.4). -/
inductive GwIn where
  | ready (w : Window)
  | result (tag : Nat) (r : GwOutcome)
  | inbound (sender text : Text)
deriving DecidableEq, Repr

/-- READY's fields: a window of 1 to 4, and ACCEPTING 0 or PAUSED 1. -/
def gwReady? (window status : Nat) : Option GwIn :=
  match flagOf status with
  | some paused => if 1 ≤ window ∧ window ≤ 4 then some (.ready ⟨window, !paused⟩) else none
  | none => none

/-- RESULT's fields: a tag of 1 to 255 and an outcome. -/
def gwResult? (tag outcome : Nat) : Option GwIn :=
  match GwOutcome.ofCode outcome with
  | some r => if 1 ≤ tag ∧ tag ≤ 255 then some (.result tag r) else none
  | none => none

/-- INBOUND's fields: 1 to 15 digits, and a text of up to 160 printable characters (R157, R210). -/
def gwInbound? (sender text : Text) : Option GwIn :=
  if validNumber sender && decide (text.length ≤ 160) && text.all printable then some (.inbound sender text) else none

/-- A count byte and that many characters, with the rest. -/
def takeText : List Byte → Option (Text × List Byte)
  | [] => none
  | c :: l => if c.toNat ≤ l.length then some (l.take c.toNat, l.drop c.toNat) else none

/-- A record's body by its kind (section 12.4); none for a bad record. -/
def gwBody (kind : Byte) (body : List Byte) : Option GwIn :=
  match kind.toNat, body with
  | 0x01, [w, st] => gwReady? w.toNat st.toNat
  | 0x02, [tag, r] => gwResult? tag.toNat r.toNat
  | 0x03, l =>
    match takeText l with
    | some (sender, rest) =>
      match takeText rest with
      | some (text, []) => gwInbound? sender text
      | _ => none
    | none => none
  | _, _ => none

/-- R157: a record that has been received is taken, or is a bad record. -/
def State.gwTake (s : State) (x : Option GwIn) : State :=
  match x with
  | some (.ready w) => s.gwReady w
  | some (.result tag r) => s.takeResult tag r
  | some (.inbound sender text) => s.gwInbound sender text
  | none => s.gwBad

/-- Nothing is under assembly: a row for a whole record ends the one under assembly (DEDUCED, log 20). -/
def State.gwClear (s : State) : State := { s with gw.asm := none, gw.gap := 0 }

/-- The start marker of a gateway record (section 12.4). -/
def gwMarker : Byte := 0xC5#8

/-- The characters of a record after its marker, once its length is known. -/
def gwLength : List Byte → Option Nat
  | _ :: h :: l :: _ => some (num [h, l] + 4)
  | _ => none

/-- The record of complete characters after the marker. -/
def gwParse (l : List Byte) : Option GwIn :=
  match l with
  | kind :: _ :: _ :: rest => if sum256 l = 0 then gwBody kind rest.dropLast else none
  | _ => none

/-- R157: a character from the gateway. Between records a character other than the marker begins nothing
(DEDUCED, log 27). A record that its kind or its length makes bad is taken to its declared end, check included, and counted there
(DESIGN CHOICE, log 34). -/
def State.gwChar (s : State) (c : Byte) : State :=
  match s.gw.asm with
  | none => if c = gwMarker then { s with gw.asm := some [], gw.gap := 0 } else s
  | some l =>
    let m := l ++ [c]
    if gwLength m = some m.length then s.gwClear.gwTake (gwParse m)
    else { s with gw.asm := some m, gw.gap := 0 }

/-- R157: a record under assembly is abandoned and counted as a bad record. -/
def State.gwAbandon (s : State) : State :=
  match s.gw.asm with
  | none => s
  | some _ => s.gwClear.gwBad

/-- R157: a second event at the record under assembly. -/
def State.gwGapSecond (s : State) : State :=
  match s.gw.asm with
  | none => s
  | some _ => if s.gw.gap + 1 ≥ 2 then s.gwAbandon else { s with gw.gap := s.gw.gap + 1 }

/-- R157: the record being sent has gone out, and the next begins. -/
def State.gwSent (s : State) : State :=
  match s.gw.sending with
  | none => s
  | some _ => { s with gw.sending := s.gw.outQ.head?, gw.outQ := s.gw.outQ.tail }

/-! ## POOL STATUS (R147) -/

def PerClass.bytes (f : Nat → List Byte) (x : PerClass Nat) : List Byte :=
  f x.alert ++ f x.notice ++ f x.report ++ f x.receipt

/-- R146: the statistics are cleared, the peak taking the shared segments in use. -/
def State.clearPoolStats (s : State) : State :=
  { s with pool.stats := ⟨0, ⟨0, 0, 0, 0⟩, ⟨0, 0, 0, 0⟩, s.pool.segsInUse, s.clock.stamp⟩ }

def PoolStats.bytes (x : PoolStats) : List Byte :=
  b4 x.acquired ++ x.reserveUses.bytes b4 ++ x.rejects.bytes b4 ++ b4 x.peak

/-- What POOL STATUS says of a class: messages held, on shared storage, on reserve, the credit setting, the free credits. -/
def State.poolClass (s : State) (c : MsgClass) : List Byte :=
  let held := (s.pool.msgs.filter (·.cls == c)).length
  let res := s.pool.reserveHeld c
  b1 held ++ b1 (held - res) ++ b1 res ++ b1 (s.set.options.credits.get c) ++ b1 (s.pool.credits.get c)

/-- What POOL STATUS says of a reserve area (R147). A free area's class and number are none together and share one flag byte (DEDUCED,
log 11). -/
def State.poolArea (s : State) (a : Nat) : List Byte :=
  bOpt 3 (fun m : Message => b1 m.cls.code ++ b2 m.number) (s.pool.msgs.find? fun m => m.storage == .reserve a)

def WaitCounters.bytes (c : WaitCounters) : List Byte :=
  b4 c.joined ++ b4 c.served ++ b4 c.dropped ++ b4 c.expired ++ b4 c.withdrawn

/-- The body of POOL STATUS (R147). The first DUE pupil and session are none together and share one flag byte (DEDUCED, log 11). -/
def State.poolBody (s : State) : List Byte :=
  b1 s.pool.freeDesc ++ b1 s.pool.freeSegs ++ b1 s.pool.segsInUse ++ msgClasses.flatMap s.poolClass ++
    (List.range Config.reserveAreas).flatMap s.poolArea ++ b2 s.dueKeys.length ++
    bOpt 3 (fun k => b2 (keyPupil k) ++ b1 (sessionCode (keySession k))) s.dueKeys.head? ++
    b1 s.recon.waits.length ++ s.recon.waitCnt.bytes ++ s.pool.stats.bytes ++ bStamp s.clock.stamp ++
    bStamp s.pool.stats.since

/-- POOL STATUS (R147). A flag other than set or clear is BAD_ARG (R210). -/
def reqPoolStatus (clear : Nat) (s : State) : Answered :=
  match flagOf clear with
  | none => s.refuse .badArg
  | some c => (if c then s.clearPoolStats else s, Reply.ok s.poolBody)

/-! ## MESSAGE SEND, LIST, CANCEL; INBOUND NEXT; GATEWAY STATUS (R169 to R173) -/

def Sent.bytes : Sent → List Byte
  | .queued n => b1 0 ++ b2 n
  | .noRecipient => b1 1
  | .waiting i => b1 2 ++ b1 i
  | .dropped => b1 3

/-- R169: what is sent suits its range. -/
def sendOk : RawSend → Bool
  | .template n => decide (n ≤ 7)
  | .text t => decide (t.length ≤ 200) && t.all printable

/-- MESSAGE SEND (R169). -/
def reqMessageSend (pupil session : Nat) (what : RawSend) (s : State) : Answered :=
  match sessionOf session with
  | none => s.refuse .badArg
  | some ss =>
    if !(pupilOk pupil && sendOk what) then s.refuse .badArg
    else if !(s.pupil pupil).inUse then s.refuse .notFound
    else
      let (s1, r) := match what with
        | .template n => s.requestMsg .officeNotice (.pupil pupil ss) (some n)
        | .text t => s.requestDirect pupil ss t
      (s1, Reply.ok r.bytes)

/-- SHARED with k segments, or RESERVE with the area: a code, and then the one number (R170; DEDUCED, log 11). -/
def Storage.bytes : Storage → List Byte
  | .shared k => b1 0 ++ b1 k
  | .reserve a => b1 1 ++ b1 a

def OutState.code : OutState → Nat
  | .queued => 0
  | .sending _ _ => 1
  | .waitRetry _ => 2

def OutState.tag : OutState → Option Nat
  | .sending t _ => some t
  | _ => none

def OutState.left : OutState → Option Nat
  | .sending _ l => some l
  | .waitRetry l => some l
  | .queued => none

/-- The pupil and session of a message, or the sender number of a receipt; the kind before it tells which (R170; DEDUCED, log 11). -/
def Subject.bytes : Subject → List Byte
  | .pupil p ss => b2 p ++ b1 (sessionCode ss)
  | .sender number _ => bText number

/-- The keep reasons that hold, as a list of their codes (R168). -/
def KeepReasons.codes (k : KeepReasons) : List Nat :=
  (if k.reason then [0] else []) ++ (if k.unmatched then [1] else []) ++ (if k.locked then [2] else []) ++
    (if k.conflict then [3] else []) ++ (if k.office then [4] else [])

def Outbound.bytes (o : Outbound) : List Byte :=
  b1 o.state.code ++ o.subject.bytes ++ b1 o.recipients.length ++
    b1 o.cursor.recipient ++ bFlag o.cursor.second ++ b1 o.cursor.attempts ++
    bOpt 1 b1 o.state.tag ++ bOpt 2 b2 o.state.left ++ bOpt 2 b2 o.life

/-- UNPARSED, or KEPT with its keep reasons. -/
def Report.bytes (r : Report) : List Byte :=
  match r.kept with
  | none => b1 0
  | some k => b1 1 ++ bList b1 k.codes

/-- A message as MESSAGE LIST gives it (R170); its time made is a time of day (R210, R211). -/
def Message.bytes (m : Message) : List Byte :=
  b2 m.number ++ b1 m.cls.code ++ b1 m.kind.code ++ m.storage.bytes ++ b2 m.text.length ++ bTime m.made.secs ++
    match m.body with
    | .out o => o.bytes
    | .report r => r.bytes

/-- The longest beginning of a list of fields that fits in `room` bytes (a body holds at most 240, section 11.1; DEDUCED, log 17). -/
def fitting : Nat → List (List Byte) → List (List Byte)
  | _, [] => []
  | room, x :: l => if x.length ≤ room then x :: fitting (room - x.length) l else []

/-- MESSAGE LIST (R170). -/
def reqMessageList (start : Nat) (s : State) : Answered :=
  if start ≤ 63 then
    s.answer (b1 s.pool.msgs.length ++
      bList id (fitting 237 (((s.pool.msgs.drop start).take 8).map Message.bytes)))
  else s.refuse .badArg

/-- MESSAGE CANCEL (R171). -/
def reqMessageCancel (number : Nat) (s : State) : Answered :=
  if number = 0 then s.refuse .badArg
  else
    match s.message number with
    | none => s.refuse .notFound
    | some m =>
      match m.body with
      | .report _ => s.refuse .state
      | .out _ => if m.waits then (s.withdraw m, Reply.just .ok) else s.refuse .busy

/-- A kept report as INBOUND NEXT returns it (R172). -/
def inboundBody (m : Message) (r : Report) : List Byte :=
  b2 m.number ++ bText r.sender ++ bStamp m.made ++ bText m.text ++ b1 m.kind.code ++
    bList b1 ((r.kept.map KeepReasons.codes).getD []) ++
    bList (fun x : Nat × List Answer => b2 x.1 ++ bList (fun a => b1 a.code) x.2) r.answers

/-- INBOUND NEXT (R172). -/
def reqInboundNext (s : State) : Answered :=
  match s.sched.kept with
  | [] => s.refuse .notFound
  | n :: rest =>
    let s1 : State := { s with sched.kept := rest }
    match s.message n with
    | none => s.refuse .notFound
    | some m =>
      match m.body with
      | .out _ => s.refuse .notFound
      | .report r => (s1.freeMessage m, Reply.ok (inboundBody m r))

def EndCounts.bytes (e : EndCounts) : List Byte :=
  b4 e.delivered ++ b4 e.undelivered ++ b4 e.expired ++ b4 e.withdrawn ++ b4 e.cancelled

def GwStats.bytes (g : GwStats) : List Byte :=
  b4 g.submissions ++ b4 g.delivered ++ b4 g.noAnswer ++ b4 g.invalidNumber ++ b4 g.lineBusy ++ b4 g.refused ++
    b4 g.timeouts ++ b4 g.stale ++ b4 g.unknown ++ b4 g.badRecords ++ b4 g.inboundTaken ++ b4 g.inboundBusy ++
    b4 g.recalls ++ b4 g.downs ++ g.alert.bytes ++ g.notice.bytes ++ g.receipt.bytes

/-- An outstanding submission with its channel and the seconds of its timeout left (R173). -/
def State.submissionBytes (s : State) (b : Submission) : List Byte :=
  let o := (s.message b.number).bind Message.outbound
  b1 b.tag ++ b2 b.number ++ b1 ((o.map fun x => x.target.1.code).getD 0) ++ b2 ((o.bind fun x => x.state.left).getD 0)

/-- The messages in WAIT_RETRY. -/
def State.retrying (s : State) : Nat :=
  (s.pool.msgs.filter fun m => m.outbound.any fun o => o.state.code == 2).length

/-- The body of GATEWAY STATUS (R173). The window and the status are none together and share one flag byte (DEDUCED, log 11). -/
def State.gatewayBody (s : State) : List Byte :=
  bFlag (!s.gw.up) ++ bOpt 2 (fun w : Window => b1 w.size ++ bFlag (!w.accepting)) s.gw.window ++ b1 s.gw.since ++
    bList s.submissionBytes s.sched.out ++ b1 s.sched.alertQ.length ++ b1 s.sched.noticeQ.length ++
    b1 s.sched.receiptQ.length ++ b1 s.retrying ++ b1 s.sched.nextTag ++ b1 s.sched.kept.length ++ s.gw.stats.bytes

def State.clearGwStats (s : State) : State := { s with gw.stats := GwStats.zero }

/-- GATEWAY STATUS (R173). A flag other than set or clear is BAD_ARG (R210). -/
def reqGatewayStatus (clear : Nat) (s : State) : Answered :=
  match flagOf clear with
  | none => s.refuse .badArg
  | some c => (if c then s.clearGwStats else s, Reply.ok s.gatewayBody)

end Sys2Proof.Machine
end

