-- ==== Sys2Proof/Machine/Office.lean ====
section
/-! DEFINITION. The host's requests to the Register and the Reconciliation Unit: REGISTER SUBMIT (R110 to R113), MARK SET
(R115), MARK QUERY (R116), GROUP STATUS (R114), the conflict list (R123, R124) and the advance list (R128, R129). -/

namespace Sys2Proof.Machine

/-! ## REGISTER SUBMIT -/

/-- An entry's mark and minutes suit R110. -/
def entry? (e : RawEntry) : Option Entry :=
  match Mark.ofCode e.mark with
  | some .p => if e.minutes = 0 then some .p else none
  | some .x => if e.minutes = 0 then some .x else none
  | some .l => if 1 ≤ e.minutes ∧ e.minutes ≤ 240 then some (.l e.minutes) else none
  | _ => none

/-- The entries with their pupils, or none when one is out of range. -/
def entries? : List RawEntry → Option (List (Nat × Entry))
  | [] => some []
  | e :: l =>
    match entry? e, entries? l with
    | some y, some ys => if pupilOk e.pupil then some ((e.pupil, y) :: ys) else none
    | _, _ => none

/-- One entry of a register for a group, on time or late (R111, R113). -/
def State.takeEntry (s : State) (g : Nat) (ss : Session) (late : Bool) (e : Nat × Entry) : State × EntryOutcome :=
  let x := s.pupil e.1
  if !(x.inUse && x.group == g) then (s, .notMember)
  else if (s.record e.1 ss).locked then (s, .locked)
  else if late then s.lateEntry e.1 ss e.2
  else s.registerEntry e.1 ss e.2

/-- The entries in list order, each against the records as the earlier ones left them (R111). -/
def State.takeEntries (s : State) (g : Nat) (ss : Session) (late : Bool) :
    List (Nat × Entry) → State × List EntryOutcome
  | [] => (s, [])
  | e :: l =>
    let (s1, o) := s.takeEntry g ss late e
    let (s2, os) := s1.takeEntries g ss late l
    (s2, o :: os)

/-- R111, R113: a register is taken, and its group's status moves. -/
def State.takeRegister (s : State) (g : Nat) (ss : Session) (late : Bool) (l : List (Nat × Entry)) : Answered :=
  let r := s.takeEntries g ss late l
  (r.1.setGroupStatus g ss (if late then .lateSubmitted else .submitted),
    Reply.ok (r.2.flatMap fun o => b1 o.byte))

/-- REGISTER SUBMIT (R110). In a CLOSED session a group status that R110's table does not name, AWAITED or NOT_HELD, is refused with STATE
(DESIGN CHOICE, log 43). -/
def reqRegisterSubmit (group session : Nat) (entries : List RawEntry) (s : State) : Answered :=
  match sessionOf session, entries? entries with
  | some ss, some l =>
    let t := (s.group group).track
    if !(groupOk group && decide (1 ≤ l.length) && decide (l.length ≤ 48) && (ss == .am || s.trackHasPm t)) then
      s.refuse .badArg
    else if s.plan.dayState ≠ .opened then s.refuse .state
    else
      match s.session t ss, s.groupStatus group ss with
      | some .opened, _ => s.takeRegister group ss false l
      | some .closed, .missing => s.takeRegister group ss true l
      | some .closed, .lateSubmitted => s.takeRegister group ss true l
      | _, _ => s.refuse .state
  | _, _ => s.refuse .badArg

/-! ## MARK SET and MARK QUERY -/

/-- The mark suits the session state of the pupil's track (R115). -/
def markSuits (m : Mark) (x : Option SessState) : Bool :=
  match m, x with
  | .nothing, some .before => true
  | .nothing, some .opened => true
  | .x, some .before => true
  | .x, some .opened => true
  | .n, some .closed => true
  | .p, some _ => true
  | .l, some _ => true
  | .u, some _ => true
  | .a, some _ => true
  | _, _ => false

/-- A day's register that MARK SET may change is held: in OPEN, and in CLOSED while the last day's is (R115). -/
def State.registerHeld (s : State) : Bool :=
  match s.plan.dayState with
  | .opened => true
  | .closed => s.plan.dayDate.isSome
  | _ => false

/-- The office's mark with its consequences (R115). -/
def State.officeMark (s : State) (p : Nat) (ss : Session) (m : Mark) (minutes : Nat) (lock : Bool)
    (arrival : Option Nat) : State × MarkEffect :=
  let was := (s.record p ss).mark
  let (s1, e) := s.applyMark p ss ⟨m, minutes, .office, arrival, some lock⟩
  if m = .n ∧ was ≠ .n ∧ s.plan.dayState = .opened then (s1.startAlert p ss s.clock.secs false, e) else (s1, e)

/-- A record's fields in the order of R97. -/
def Rec.bytes (r : Rec) : List Byte :=
  b1 r.mark.code ++ b1 r.minutes ++ bOpt 1 (fun x : MarkSource => b1 x.code) r.source ++ bFlag r.locked ++
    bFlag r.expected ++ bFlag r.explained ++ bFlag r.corrected ++ bTime? r.arrival ++ b1 r.alert.code ++ bTime? r.due ++
    bOpt 1 b1 r.conflict

/-- What R115 reports: the record, whether an alert was cancelled or withdrawn, whether a correction was requested. -/
def State.markReply (s : State) (p : Nat) (ss : Session) (e : MarkEffect) : List Byte :=
  (s.record p ss).bytes ++ bFlag (e.alert != .untouched) ++ bFlag e.correction

/-- The values of a MARK SET in range (R115): the session, the mark, the arrival time. -/
def State.markArgs (s : State) (pupil session mark minutes : Nat) (arrival : Option RawTime) :
    Option (Session × Mark × Option Nat) :=
  match sessionOf session, Mark.ofCode mark, arrival? arrival with
  | some ss, some m, some t =>
    if pupilOk pupil && m != .r && minutesSuit m minutes && (ss == .am || s.trackHasPm (s.trackOf pupil)) then
      some (ss, m, t)
    else none
  | _, _, _ => none

/-- R115: a MARK SET is checked and taken, or refused with a code; it answers the session, the state and the effect. -/
def State.setMark (s : State) (pupil session mark minutes lock : Nat) (arrival : Option RawTime) :
    Except Code (Session × State × MarkEffect) :=
  match s.markArgs pupil session mark minutes arrival, flagOf lock with
  | some (ss, m, t), some k =>
    if !(s.pupil pupil).inUse then .error .notFound
    else if !(s.registerHeld && markSuits m (s.session (s.trackOf pupil) ss)) then .error .state
    else .ok (ss, s.officeMark pupil ss m minutes k t)
  | _, _ => .error .badArg

/-- MARK SET (R115). -/
def reqMarkSet (pupil session mark minutes lock : Nat) (arrival : Option RawTime) (s : State) : Answered :=
  match s.setMark pupil session mark minutes lock arrival with
  | .error c => s.refuse c
  | .ok (ss, s1, e) => (s1, Reply.ok (s1.markReply pupil ss e))

/-- A session state, or none. -/
def bSess (x : Option SessState) : List Byte := bOpt 1 (fun y : SessState => b1 y.code) x

def Tally.bytes (t : Tally) : List Byte := b1 t.count ++ b2 t.minutes ++ bFlag t.notified

/-- MARK QUERY (R116). -/
def reqMarkQuery (pupil session : Nat) (s : State) : Answered :=
  match sessionOf session with
  | none => s.refuse .badArg
  | some ss =>
    if pupilOk pupil then
      s.answer ((s.record pupil ss).bytes ++ bSess (s.session (s.trackOf pupil) ss) ++ (s.tally pupil).bytes)
    else s.refuse .badArg

/-! ## GROUP STATUS (R114) -/

/-- How many member records satisfy a condition. -/
def State.countMembers (s : State) (g : Nat) (ss : Session) (p : Rec → Bool) : Nat :=
  ((s.members g).filter fun x => p (s.record x ss)).length

def State.groupBody (s : State) (g : Nat) (ss : Session) : List Byte :=
  let t := (s.group g).track
  b1 t.val ++ bSess (s.session t ss) ++ b1 (s.groupStatus g ss).code ++ b2 (s.members g).length ++
    marks.flatMap (fun m => b2 (s.countMembers g ss fun r => r.mark == m)) ++
    b2 (s.countMembers g ss fun r => r.locked) ++
    alertStates.flatMap fun a => b2 (s.countMembers g ss fun r => r.alert == a)

/-- The groups with a status. -/
def State.groupsWith (s : State) (ss : Session) (x : GroupStatus) : List Nat :=
  (List.range Config.groups).filter fun g => s.groupStatus g ss == x

def State.allGroupsBody (s : State) (ss : Session) : List Byte :=
  groupStatuses.flatMap (fun x => b1 (s.groupsWith ss x).length) ++ bList b1 (s.groupsWith ss .missing)

/-- GROUP STATUS (R114). The word ALL is the code after the last group's (DEDUCED, log 11). -/
def reqGroupStatus (session group : Nat) (s : State) : Answered :=
  match sessionOf session with
  | none => s.refuse .badArg
  | some ss =>
    if groupOk group then s.answer (s.groupBody group ss)
    else if group = Config.groups then s.answer (s.allGroupsBody ss)
    else s.refuse .badArg

/-! ## The conflict list (R123, R124) -/

def ConflictCounters.bytes (c : ConflictCounters) : List Byte :=
  b4 c.recorded ++ b4 c.replaced ++ b4 c.overflowed ++ b4 c.resolved ++ b4 c.dismissed

def conflictBytes (x : Conflict × Nat) : List Byte :=
  b1 x.2 ++ b1 x.1.id ++ b2 x.1.pupil ++ b1 (sessionCode x.1.session) ++ b1 x.1.kind.code ++ bTime x.1.time ++
    b1 x.1.mark.code

/-- CONFLICT LIST (R123). -/
def reqConflictList (start : Nat) (s : State) : Answered :=
  if start ≤ 31 then
    s.answer (b1 s.recon.conflicts.length ++ s.recon.conflictCnt.bytes ++
      bList conflictBytes (window start 16 s.recon.conflicts))
  else s.refuse .badArg

/-- R124 with DISMISS. -/
def State.dismissConflict (s : State) (c : Conflict) : Answered :=
  let s1 := s.removeConflict c
  ({ s1 with recon.conflictCnt.dismissed := inc32 s1.recon.conflictCnt.dismissed }, Reply.just .ok)

/-- R124 with a mark: MARK SET with the lock set; when it is taken the entry goes. -/
def State.settleConflict (s : State) (c : Conflict) (mark minutes : Nat) (arrival : Option RawTime) : Answered :=
  match s.setMark c.pupil (sessionCode c.session) mark minutes 1 arrival with
  | .error x => s.refuse x
  | .ok (ss, s1, e) =>
    let s2 := s1.removeConflict c
    ({ s2 with recon.conflictCnt.resolved := inc32 s2.recon.conflictCnt.resolved },
      Reply.ok (s2.markReply c.pupil ss e))

/-- CONFLICT RESOLVE (R124). -/
def reqConflictResolve (id : Nat) (what : RawResolve) (s : State) : Answered :=
  if id = 0 ∨ 255 < id then s.refuse .badArg
  else
    match s.recon.conflicts.find? (·.id == id) with
    | none => s.refuse .notFound
    | some c =>
      match what with
      | .dismiss => s.dismissConflict c
      | .settle mark minutes arrival => s.settleConflict c mark minutes arrival

/-! ## The advance report list (R128, R129) -/

def AdvanceCounters.bytes (c : AdvanceCounters) : List Byte :=
  b4 c.taken ++ b4 c.merged ++ b4 c.refusedFull ++ b4 c.applied ++ b4 c.unmatched ++ b4 c.expired ++ b4 c.cancelled

def advanceBytes (x : Advance × Nat) : List Byte :=
  b1 x.2 ++ bDate x.1.date ++ b2 x.1.pupil ++ b1 x.1.sessions.code ++ bOpt 2 b2 x.1.report

/-- ADVANCE LIST (R128). -/
def reqAdvanceList (start : Nat) (s : State) : Answered :=
  if start ≤ 127 then
    s.answer (b1 s.recon.advance.length ++ s.recon.advCnt.bytes ++ bList advanceBytes (window start 16 s.recon.advance))
  else s.refuse .badArg

/-- What is left of an entry's sessions when others are taken out: none of them named (`none`), all gone (`some none`), or
the other session. -/
def Sessions.takeOut (held named : Sessions) : Option (Option Sessions) :=
  match held, named with
  | _, .both => some none
  | .both, .am => some (some .pm)
  | .both, .pm => some (some .am)
  | .am, .am => some none
  | .pm, .pm => some none
  | .am, .pm => none
  | .pm, .am => none

/-- The advance list with one entry's sessions changed, or the entry removed. -/
def cutAdvance (d : Date) (p : Nat) (left : Option Sessions) (l : List Advance) : List Advance :=
  l.filterMap fun a =>
    if a.date == d && a.pupil == p then left.map fun x => { a with sessions := x } else some a

/-- R129: the sessions named are taken out of an entry. -/
def State.cancelAdvance (s : State) (a : Advance) (named : Sessions) : Answered :=
  match a.sessions.takeOut named with
  | none => s.refuse .notFound
  | some left =>
    ({ s with
      recon.advance := cutAdvance a.date a.pupil left s.recon.advance
      recon.advCnt.cancelled := inc32 s.recon.advCnt.cancelled },
      Reply.ok (bOpt 1 (fun x : Sessions => b1 x.code) left))

/-- ADVANCE CANCEL (R129). -/
def reqAdvanceCancel (date : RawDate) (pupil sessions : Nat) (s : State) : Answered :=
  match rawDate? date, Sessions.ofCode sessions with
  | some d, some x =>
    if pupilOk pupil then
      match s.recon.advance.find? fun a => a.date == d && a.pupil == pupil with
      | some a => s.cancelAdvance a x
      | none => s.refuse .notFound
    else s.refuse .badArg
  | _, _ => s.refuse .badArg

end Sys2Proof.Machine
end

