-- ==== Sys2Proof/Machine/Entries.lean ====
section
/-! DEFINITION. The entries of the settings tables: their bytes (12, section 12.2), reading an entry from bytes with its range
checks and clamps (R1, R6, R8, R26, R41, R58, R149, R204, R106, R119, R137, R152), and the checks and effects of writing one
(R2, R5, R7, R10, R11, R27, R60, R137). -/

namespace Sys2Proof.Machine

/-! ## Bytes of an entry -/

def Pupil.bytes (e : Pupil) : List Byte :=
  bFlag e.inUse ++ b2 e.short ++ b4 e.badge ++ bPlaces 24 e.name ++ b1 e.group

def Contact.bytes (e : Contact) : List Byte :=
  bFlag e.inUse ++ bPlaces 15 e.number ++ b1 e.first.code ++ b1 (channelCode? e.second) ++
    b1 ((if e.notifyAlert then 1 else 0) + (if e.notifyNotice then 2 else 0) + (if e.acceptsReports then 4 else 0))

def Group.bytes (e : Group) : List Byte := bText e.code ++ b1 e.track.val ++ b1 e.zone.val ++ bFlag e.lateNotices

def Segment.bytes (g : Segment) : List Byte :=
  b1 g.kind.code ++ b1 g.nominal ++ b1 g.minimum ++ bFlag g.compressible ++ b1 g.bell.code ++ bFlag g.quiet ++
    b1 (pointCode g.point)

def Plan.bytes (p : Plan) : List Byte :=
  b2 p.start ++ bList Segment.bytes p.segs ++ b1 p.grace ++ b1 p.kAm ++ b1 p.kPm ++ b1 p.allowance ++ b1 p.warning

def ZoneCfg.bytes (z : ZoneCfg) : List Byte :=
  b1 (trackCode? z.track) ++ b1 z.start ++ b1 z.change ++ b1 z.warning ++ b1 z.dayEnd ++ b1 z.manual ++ b1 z.level ++
    b1 z.filter ++ bFlag z.auto

def StationCfg.bytes (x : StationCfg) : List Byte := bFlag x.enabled ++ b4 x.target ++ b1 x.divisor ++ b1 x.holdOff

def LampCfg.bytes (x : LampCfg) : List Byte := b1 x.source.code ++ b1 x.mode.code ++ b1 x.stretch

def Options.bytes (o : Options) : List Byte :=
  b1 o.alertDelay ++ b1 o.threshold ++ b1 o.credits.alert ++ b1 o.credits.notice ++ b1 o.credits.report ++
    b1 o.credits.receipt ++ b1 o.fallback ++ b2 o.retry ++ b2 o.timeout ++ b2 o.noticeLife ++ b2 o.receiptLife ++
    bFlag o.receipts

/-! ## Reading an entry

Each reader answers the entry and whether a value was clamped, or none when a value is refused with BAD_ARG. -/

/-- The byte at a place, as a number. -/
def byteAt (l : List Byte) (i : Nat) : Nat := (l[i]?.getD 0).toNat

/-- The number of n bytes from a place on. -/
def numAt (l : List Byte) (i n : Nat) : Nat := num ((l.drop i).take n)

/-- R1. -/
def readPupil (l : List Byte) : Option Pupil :=
  match flagOf (byteAt l 0) with
  | none => none
  | some u =>
    let name := (l.drop 8).take (byteAt l 7)
    let e : Pupil := ⟨u, numAt l 1 2, numAt l 3 4, name, byteAt l 32⟩
    if 1 ≤ e.short ∧ e.short ≤ 9999 ∧ 1 ≤ byteAt l 7 ∧ byteAt l 7 ≤ 24 ∧ name.all printable ∧ e.group < Config.groups then
      some e
    else none

/-- A second channel: TEXT, VOICE or NONE. -/
def secondChannel? (n : Nat) : Option (Option Channel) :=
  match n with
  | 0 => some (some .text)
  | 1 => some (some .voice)
  | 2 => some none
  | _ => none

/-- R8. The spare bits of the flag byte are clear (R212). -/
def readContact (l : List Byte) : Option Contact :=
  match flagOf (byteAt l 0), Channel.ofCode (byteAt l 17), secondChannel? (byteAt l 18) with
  | some u, some c, some d =>
    let number := (l.drop 2).take (byteAt l 1)
    let f := byteAt l 19
    if byteAt l 1 ≤ 15 ∧ validNumber number ∧ d ≠ some c ∧ f < 8 then
      some ⟨u, number, c, d, f % 2 == 1, f / 2 % 2 == 1, f / 4 % 2 == 1⟩
    else none
  | _, _, _ => none

/-- R6. -/
def readGroup (l : List Byte) : Option Group :=
  let n := byteAt l 0
  let code := (l.drop 1).take n
  match fin4? (byteAt l (n + 1)), fin4? (byteAt l (n + 2)), flagOf (byteAt l (n + 3)) with
  | some t, some z, some f => if n ≤ 6 ∧ code.all printable then some ⟨code, t, z, f⟩ else none
  | _, _, _ => none

/-- A segment entry of a plan (section 2.3). -/
def readSegment (l : List Byte) : Option Segment :=
  match SegKind.ofCode (byteAt l 0), flagOf (byteAt l 3), StartBell.ofCode (byteAt l 4), flagOf (byteAt l 5),
    pointOf (byteAt l 6) with
  | some k, some c, some b, some q, some p =>
    let n := byteAt l 1
    let m := byteAt l 2
    if 1 ≤ n ∧ n ≤ 180 ∧ 1 ≤ m ∧ m ≤ n then some ⟨k, n, m, c, b, q, p⟩ else none
  | _, _, _, _, _ => none

/-- The segments of n entries of seven bytes. -/
def readSegments : Nat → List Byte → Option (List Segment)
  | 0, _ => some []
  | n + 1, l =>
    match readSegment (l.take 7), readSegments n (l.drop 7) with
    | some g, some gs => some (g :: gs)
    | _, _ => none

/-- The places of a session point in a plan. -/
def pointPlaces (ss : Session) (l : List Segment) : List Nat :=
  (l.zipIdx.filter fun x => x.1.point == some ss).map (·.2)

/-- R26: one AM point; at most one PM point, after it; the nominal end at or before 23:59. -/
def planShapeOk (p : Plan) : Bool :=
  decide (p.start ≤ 1439) && decide (p.start + (p.segs.map (·.nominal)).sum ≤ 1439) &&
    match pointPlaces .am p.segs, pointPlaces .pm p.segs with
    | [_], [] => true
    | [a], [b] => decide (a < b)
    | _, _ => false

/-- A value held at a maximum, and whether it was above it. -/
def capAt (top n : Nat) : Nat × Bool := (min n top, decide (top < n))

/-- A value held in a range, and whether it was outside. -/
def capIn (low top n : Nat) : Nat × Bool := (max low (min n top), decide (n < low) || decide (top < n))

/-- R26: a plan with its clamps. -/
def readPlan (l : List Byte) : Option (Plan × Bool) :=
  let n := byteAt l 2
  match readSegments n (l.drop 3) with
  | none => none
  | some segs =>
    let i := 3 + 7 * n
    let g := capAt 15 (byteAt l i)
    let ka := capAt 60 (byteAt l (i + 1))
    let kp := capAt 60 (byteAt l (i + 2))
    let f := capAt 10 (byteAt l (i + 3))
    let w := capAt 5 (byteAt l (i + 4))
    let p : Plan := ⟨numAt l 0 2, segs, g.1, ka.1, kp.1, f.1, w.1⟩
    if 1 ≤ n ∧ n ≤ 12 ∧ planShapeOk p then some (p, g.2 || ka.2 || kp.2 || f.2 || w.2) else none

/-- A zone's track: 0 to 3, or NONE. -/
def zoneTrack? (n : Nat) : Option (Option (Fin 4)) := if n = 255 then some none else (fin4? n).map some

/-- R41: a zone with its clamps. -/
def readZone (l : List Byte) : Option (ZoneCfg × Bool) :=
  match zoneTrack? (byteAt l 0), flagOf (byteAt l 8) with
  | some t, some a =>
    let s := capIn 1 15 (byteAt l 1)
    let c := capIn 1 15 (byteAt l 2)
    let w := capIn 1 15 (byteAt l 3)
    let e := capIn 1 15 (byteAt l 4)
    let m := capIn 1 15 (byteAt l 5)
    let v := capAt 7 (byteAt l 6)
    let f := capIn 1 8 (byteAt l 7)
    some (⟨t, s.1, c.1, w.1, e.1, m.1, v.1, f.1, a⟩, s.2 || c.2 || w.2 || e.2 || m.2 || v.2 || f.2)
  | _, _ => none

/-- R58: a station with its computed divisor; the divisor carried is ignored. -/
def readStation (l : List Byte) : Option (StationCfg × Bool) :=
  match flagOf (byteAt l 0), divisorFor (numAt l 1 4) with
  | some e, some d =>
    let h := capAt 30 (byteAt l 6)
    some (⟨e, numAt l 1 4, d, h.1⟩, h.2)
  | _, _ => none

/-- A place of a template: a printable character, or a field marker 01h to 06h (R210). -/
def placeOk (c : Byte) : Bool := printable c || (decide (1 ≤ c.toNat) && decide (c.toNat ≤ 6))

/-- R149. -/
def readTemplate (l : List Byte) : Option Text :=
  let t := (l.drop 1).take (byteAt l 0)
  if byteAt l 0 ≤ 200 ∧ t.all placeOk then some t else none

/-- R204: a stretch of 0, 1, 2 or 5. -/
def capStretch (n : Nat) : Nat × Bool :=
  if n ≤ 2 then (n, false) else if n ≤ 4 then (2, true) else (5, decide (5 < n))

/-- R204: a lamp with its clamps. -/
def readLamp (l : List Byte) : Option (LampCfg × Bool) :=
  match LampMode.ofCode (byteAt l 1) with
  | none => none
  | some m =>
    let s := capStretch (byteAt l 2)
    match LampSource.ofCode (byteAt l 0) with
    | some x => some (⟨x, m, s.1⟩, s.2)
    | none => some (⟨.off, m, s.1⟩, true)

/-- R152: the fallback count's allowed values. -/
def capFallback (n : Nat) : Nat × Bool :=
  if n = 0 then (1, true)
  else if n ≤ 2 then (n, false)
  else if n = 3 then (2, true)
  else if n = 4 then (4, false)
  else if n < 8 then (4, true)
  else (8, decide (8 < n))

def creditOk (n : Nat) : Bool := decide (1 ≤ n) && decide (n ≤ 8)

/-- R137: the four credit settings are 1 to 8 and total at most 16. -/
def creditsOk (c : PerClass Nat) : Bool :=
  creditOk c.alert && creditOk c.notice && creditOk c.report && creditOk c.receipt &&
    decide (c.alert + c.notice + c.report + c.receipt ≤ 16)

/-- The OPTIONS entry with its clamps (R106, R119, R137, R152). -/
def readOptions (l : List Byte) : Option (Options × Bool) :=
  match flagOf (byteAt l 15) with
  | none => none
  | some r =>
    let d := capAt 60 (byteAt l 0)
    let t := capAt 9 (byteAt l 1)
    let c : PerClass Nat := ⟨byteAt l 2, byteAt l 3, byteAt l 4, byteAt l 5⟩
    let n := capFallback (byteAt l 6)
    let y := capIn 60 900 (numAt l 7 2)
    let o := capIn 30 600 (numAt l 9 2)
    let a := capIn 30 480 (numAt l 11 2)
    let b := capIn 30 480 (numAt l 13 2)
    if creditsOk c then
      some (⟨d.1, t.1, c, n.1, y.1, o.1, a.1, b.1, r⟩, d.2 || t.2 || n.2 || y.2 || o.2 || a.2 || b.2)
    else none

/-! ## Checks across entries (R2, R10) -/

/-- R2: an in-use entry repeats a short code or a non-zero badge code of another in-use entry. -/
def Settings.duplicates (t : Settings) (i : Nat) (e : Pupil) : Bool :=
  e.inUse &&
    t.pupils.any fun x =>
      x.1 != i && x.2.inUse && (x.2.short == e.short || (e.badge != 0 && x.2.badge == e.badge))

def Settings.contactAt (t : Settings) (i : Nat) : Contact := Tab.get factoryContact t.contacts i

/-- R10: a number serves more than 8 pupils. -/
def Settings.overServed (t : Settings) (number : Text) : Bool :=
  decide (Config.senderLimit < (t.senderList number).length)

/-- R10 for a pupil: the numbers of the pupil's slots. -/
def Settings.pupilOverServed (t : Settings) (i : Nat) : Bool :=
  [3 * i, 3 * i + 1, 3 * i + 2].any fun k => t.overServed (t.contactAt k).number

/-! ## Writing an entry -/

/-- What a refused entry answers: its code, and the deficit of a SHORTFALL. -/
structure Refused where
  code : Code
  deficit : Option Nat
deriving DecidableEq, Repr

/-- What writing an entry answers: the state and whether a value was clamped, or the refusal. -/
abbrev Written := Except Refused (State × Bool)

def refusedWith (c : Code) : Written := .error ⟨c, none⟩

def State.dayClosed (s : State) : Bool := s.plan.dayState == .closed

/-- R5: a pupil's in-use flag, short code or group changes. -/
def Pupil.moves (old new : Pupil) : Bool :=
  old.inUse != new.inUse || old.short != new.short || old.group != new.group

/-- PUPILS (R1, R2, R5, R10, R11). -/
def writePupil (s : State) (i : Nat) (l : List Byte) : Written :=
  match readPupil l with
  | none => refusedWith .badArg
  | some e =>
    let t : Settings := { s.set with pupils := Tab.put factoryPupil s.set.pupils i e }
    if !s.dayClosed && (s.pupil i).moves e then refusedWith .state
    else if s.set.duplicates i e then refusedWith .duplicate
    else if !(s.pupil i).inUse && e.inUse && t.pupilOverServed i then refusedWith .full
    else .ok ({ s with set := t }, false)

/-- CONTACTS (R8, R10). -/
def writeContact (s : State) (i : Nat) (l : List Byte) : Written :=
  match readContact l with
  | none => refusedWith .badArg
  | some e =>
    let t : Settings := { s.set with contacts := Tab.put factoryContact s.set.contacts i e }
    if t.overServed e.number then refusedWith .full else .ok ({ s with set := t }, false)

/-- GROUPS (R6, R7). -/
def writeGroup (s : State) (i : Nat) (l : List Byte) : Written :=
  match readGroup l with
  | none => refusedWith .badArg
  | some e =>
    if !s.dayClosed && (s.group i).track != e.track then refusedWith .state
    else .ok ({ s with set.groups := Tab.put factoryGroup s.set.groups i e }, false)

/-- R27: an accepted plan write; the plan in force of the track is rebuilt and republished when one is given. -/
def State.storePlan (s : State) (i : Nat) (p : Plan) (rebuilt : Option (Fin 4 × Track)) : State :=
  let s1 : State := { s with set.plans := Tab.put factoryPlan s.set.plans i p }
  match rebuilt with
  | none => s1
  | some (t, x) => (s1.setTrack t x).recomputeBells t

/-- PLANS (R26, R27). -/
def writePlan (s : State) (i : Nat) (l : List Byte) : Written :=
  match readPlan l, fin4? (i / 4) with
  | some (p, clamped), some t =>
    let x := s.track t
    if s.dayClosed then .ok (s.storePlan i p none, clamped)
    else if x.state ≠ .planned then refusedWith .state
    else if x.kind.map DayKind.code ≠ some (i % 4) then .ok (s.storePlan i p none, clamped)
    else if reached (p.start + x.delay) s.clock.secs then refusedWith .state
    else
      match buildTrack p x.kind x.delay x.early s.clock.secs with
      | .error d => .error ⟨.shortfall, some d⟩
      | .ok y => .ok (s.storePlan i p (some (t, y)), clamped)
  | _, _ => refusedWith .badArg

/-- ZONES (R41). A zone that takes another track or NONE while the day is CLOSED keeps the closed day's list and its events until the next
DAY OPEN or reset (DESIGN CHOICE, log 41). -/
def writeZone (s : State) (i : Nat) (l : List Byte) : Written :=
  match readZone l, fin4? i with
  | some (e, clamped), some z =>
    if !s.dayClosed && (s.set.zones.get z).track != e.track then refusedWith .state
    else .ok ({ s with set.zones := s.set.zones.set z e }, clamped)
  | _, _ => refusedWith .badArg

/-- STATIONS (R58, R60); station n of the spec stands at index n. -/
def writeStation (s : State) (i : Nat) (l : List Byte) : Written :=
  match readStation l, station? i with
  | some (e, clamped), some n =>
    let s1 : State := { s with set.stations := s.set.stations.set n e }
    .ok (s1.setStation n ((s.station n).rewrite (s.set.stations.get n) e), clamped)
  | _, _ => refusedWith .badArg

/-- TEMPLATES (R149). -/
def writeTemplate (s : State) (i : Nat) (l : List Byte) : Written :=
  match readTemplate l with
  | none => refusedWith .badArg
  | some t => .ok ({ s with set.templates := Tab.put factoryTemplate s.set.templates i t }, false)

/-- LAMPS (R204): an accepted entry acts on its lamp at once, before the next entry is taken (R200). -/
def writeLamp (s : State) (i : Nat) (l : List Byte) : Written :=
  match readLamp l, fin4? i with
  | some (e, clamped), some n => .ok (s.setLamp n e, clamped)
  | _, _ => refusedWith .badArg

/-- R137: some class holds more messages on reserve than a setting. -/
def State.creditsBusy (s : State) (c : PerClass Nat) : Bool :=
  msgClasses.any fun k => decide (c.get k < s.pool.reserveHeld k)

/-- R137: the free credits that settings leave. -/
def State.freeCredits (s : State) (c : PerClass Nat) : PerClass Nat :=
  ⟨c.alert - s.pool.reserveHeld .alert, c.notice - s.pool.reserveHeld .notice, c.report - s.pool.reserveHeld .report,
    c.receipt - s.pool.reserveHeld .receipt⟩

/-- R137: the credits of new options take effect, with a serve pass when some class's free credits rose. A class that holds more on
reserve than a settings load gives it has 0 free credits (DESIGN CHOICE, log 33). -/
def State.takeOptions (s : State) (o : Options) : State :=
  let c := s.freeCredits o.credits
  let s1 : State := { s with set.options := o, pool.credits := c }
  if msgClasses.any fun k => decide (s.pool.credits.get k < c.get k) then s1.servePass else s1

/-- OPTIONS (R106, R119, R137, R152). -/
def writeOptions (s : State) (l : List Byte) : Written :=
  match readOptions l with
  | none => refusedWith .badArg
  | some (o, clamped) => if s.creditsBusy o.credits then refusedWith .busy else .ok (s.takeOptions o, clamped)

/-- One entry of a table is written at an index (R200). -/
def writeEntry (t : TableName) (s : State) (i : Nat) (l : List Byte) : Written :=
  match t with
  | .pupils => writePupil s i l
  | .contacts => writeContact s i l
  | .groups => writeGroup s i l
  | .plans => writePlan s i l
  | .zones => writeZone s i l
  | .stations => writeStation s i l
  | .templates => writeTemplate s i l
  | .lamps => writeLamp s i l
  | .options => writeOptions s l

/-- The bytes of the entry of a table at an index, as TABLE READ gives them (R199). -/
def Settings.entryBytes (x : Settings) (t : TableName) (i : Nat) : List Byte :=
  match t with
  | .pupils => (Tab.get factoryPupil x.pupils i).bytes
  | .contacts => (Tab.get factoryContact x.contacts i).bytes
  | .groups => (Tab.get factoryGroup x.groups i).bytes
  | .plans => (Tab.get factoryPlan x.plans i).bytes
  | .zones => ((fin4? i).map fun z => (x.zones.get z).bytes).getD []
  | .stations => ((station? i).map fun n => (x.stations.get n).bytes).getD []
  | .templates => bText (Tab.get factoryTemplate x.templates i)
  | .lamps => ((fin4? i).map fun n => (x.lamps.get n).bytes).getD []
  | .options => x.options.bytes

/-! ## Tables (section 11.3) -/

/-- The first index of a table. -/
def TableName.first : TableName → Nat
  | .stations => 1
  | _ => 0

/-- The number of entries of a table. -/
def TableName.entries : TableName → Nat
  | .pupils => Config.pupils
  | .contacts => Config.contacts
  | .groups => Config.groups
  | .plans => 16
  | .zones => 4
  | .stations => 6
  | .templates => 8
  | .lamps => 4
  | .options => 1

/-- The last index of a table. -/
def TableName.last (t : TableName) : Nat := t.first + t.entries - 1

/-- The most entries of one request. -/
def TableName.perRequest : TableName → Nat
  | .plans => 1
  | .templates => 1
  | .options => 1
  | _ => 4

/-- The length of the entry at the front of bytes: fixed, or as its count says. -/
def TableName.entryLength (t : TableName) (l : List Byte) : Nat :=
  match t with
  | .pupils => 33
  | .contacts => 20
  | .groups => byteAt l 0 + 4
  | .plans => 8 + 7 * byteAt l 2
  | .zones => 9
  | .stations => 7
  | .templates => 1 + byteAt l 0
  | .lamps => 3
  | .options => 16

/-- Split bytes into n entries that fill them exactly. -/
def splitEntries (t : TableName) : Nat → List Byte → Option (List (List Byte))
  | 0, [] => some []
  | 0, _ :: _ => none
  | n + 1, l =>
    let k := t.entryLength l
    if l.length < k then none else (splitEntries t n (l.drop k)).map (l.take k :: ·)

end Sys2Proof.Machine
end

