-- ==== Sys2Proof/Machine/Link.lean ====
section
/-! DEFINITION. The Host Link's output (11, sections 11.1 and 11.2): replies, frame-error notices, and the order in which they
are sent (R193, R195). -/

namespace Sys2Proof.Machine

/-- A frame is sent at once when the line is free, and waits behind those made before it otherwise (R195). -/
def HostLink.send (l : HostLink) (f : OutFrame) : HostLink :=
  match l.sending with
  | none => { l with sending := some f }
  | some _ => { l with out := l.out ++ [f] }

/-- The kind of the reply to a request kind: plus 80h; FEh for a kind that names no request (R211). -/
def replyKind (kind : Nat) : Nat := if kind = 0xFE then 0xFE else kind + 0x80

/-- The reply to the request in hand is made (R195). -/
def State.giveReply (s : State) (r : Reply) : State :=
  match s.link.hand with
  | none => s
  | some h =>
    let f : OutFrame := ⟨false, replyKind h.kind, h.tag, b1 r.code.byte ++ r.body⟩
    { s with link := { s.link.send f with hand := some { h with replied := true } } }

/-- A frame-error notice waits unsent (R195). -/
def HostLink.noticeWaits (l : HostLink) : Bool := l.out.any (·.notice)

/-- R193: a frame is discarded: the frame-error counter, and a notice unless one already waits unsent. -/
def HostLink.discard (l : HostLink) : HostLink :=
  let m := { l with asm := none, gap := 0, errors := inc32 l.errors }
  if l.noticeWaits then m else m.send ⟨true, 0xFF, 0, []⟩

def State.discardFrame (s : State) : State := { s with link := s.link.discard }

/-- R193: a character with a bad stop bit; a frame under assembly goes with it. -/
def State.framingChar (s : State) : State :=
  let s1 : State := { s with link.framing := inc32 s.link.framing }
  match s.link.asm with
  | none => s1
  | some _ => s1.discardFrame

/-- R193: a frame under assembly is silent for too long. -/
def State.frameTimeout (s : State) : State :=
  match s.link.asm with
  | none => s
  | some _ => s.discardFrame

/-- A second event at the frame under assembly (R193). -/
def State.linkSecond (s : State) : State :=
  match s.link.asm with
  | none => s
  | some _ => if s.link.gap + 1 ≥ 2 then s.discardFrame else { s with link.gap := s.link.gap + 1 }

end Sys2Proof.Machine
end

