-- ==== Sys2Proof/Machine/Store.lean ====
section
/-! DEFINITION. The Store Engine (10, sections 10.2 to 10.5): the directory (R182), the commit (R183 to R187), the settings save
(R188, R205), the tally rebuild (R118, R189), ARCHIVE READ (R191), and the ends of page operations (R178). -/

namespace Sys2Proof.Machine

/-! ## Layouts (section 12.6) -/

/-- The value that makes the sum of bytes plus it 0 modulo 4,294,967,296. -/
def checkWord (sum : Nat) : Nat := (4294967296 - sum % 4294967296) % 4294967296

/-- The sum of bytes, each taken as 0 to 255. -/
def byteSum (l : List Byte) : Nat := l.foldl (fun n b => n + b.toNat) 0

/-- Bytes with 00h after them up to a length (R212). -/
def padTo (n : Nat) (l : List Byte) : List Byte := l ++ List.replicate (n - l.length) 0

def bit (b : Bool) (n : Nat) : Nat := if b then n else 0

/-- The day record of a pupil (R181, section 12.6). -/
def State.dayRecord (s : State) (p : Nat) : DayRecord :=
  let am := s.record p .am
  let pm := s.record p .pm
  b2 (s.pupil p).short ++ b1 am.mark.code ++ b1 am.minutes ++ b1 pm.mark.code ++ b1 pm.minutes ++
    b1 (bit am.locked 1 + bit am.explained 2 + bit pm.locked 4 + bit pm.explained 8 + bit (s.tally p).notified 16) ++
    List.replicate 9 0

/-- The day set: one day record for each in-use pupil, in ascending roster index (R181). -/
def State.daySet (s : State) : List DayRecord := s.inUsePupils.map s.dayRecord

def entryBytes (e : DayEntry) : List Byte :=
  b1 1 ++ b4 e.commit ++ bDate e.date ++ b2 e.first ++ b2 e.pages ++ b2 e.records ++ b1 e.conflicts ++ bFlag (!e.complete)

def slotBytes : Option DayEntry → List Byte
  | none => List.replicate 16 0
  | some e => entryBytes e

/-- The contents of directory page k, 0 to 3, with its check. -/
def Store.directoryBytes (x : Store) (k : Nat) : List Byte :=
  let slots := ((x.dir.drop (8 * k)).take 8).flatMap slotBytes
  let body := padTo 1020 (slots ++ if k = 0 then b1 x.bad.length ++ x.bad.flatMap b2 else [])
  body ++ b4 (checkWord (byteSum body))

/-- A directory slot read from its bytes; a slot whose values are out of range reads as empty (DESIGN CHOICE, log 18). -/
def readSlot (l : List Byte) : Option DayEntry :=
  let d : Date := ⟨byteAt l 5, byteAt l 6, byteAt l 7 + 2000⟩
  match flagOf (byteAt l 15) with
  | none => none
  | some partialEntry =>
    if byteAt l 0 = 1 ∧ 1 ≤ numAt l 1 4 ∧ d.valid ∧ numAt l 8 2 < Config.archivePages ∧
        numAt l 10 2 ≤ Config.archivePages ∧ numAt l 12 2 ≤ Config.pupils ∧ byteAt l 14 ≤ Config.conflictMax then
      some ⟨numAt l 1 4, d, numAt l 8 2, numAt l 10 2, numAt l 12 2, byteAt l 14, !partialEntry⟩
    else none

/-- The slots of a directory page whose check agrees. -/
def readSlots (l : List Byte) : List (Option DayEntry) := (List.range 8).map fun k => readSlot ((l.drop (16 * k)).take 16)

/-- A list of archive indexes in strictly rising order. -/
def rising : List Nat → Bool
  | a :: b :: l => decide (a < b) && rising (b :: l)
  | _ => true

/-- The bad page table of the first directory page. -/
def readBad (l : List Byte) : List Nat :=
  let t := (List.range (byteAt l 128)).map fun i => numAt l (129 + 2 * i) 2
  if byteAt l 128 ≤ Config.badPagesMax && rising t && t.all (· < Config.archivePages) then t else []

/-- The page check agrees: bytes 0 to 1019 and the check sum to 0 (section 12.6). -/
def pageCheckOk (l : List Byte) : Bool := (byteSum (l.take 1020) + numAt l 1020 4) % 4294967296 == 0

/-- The usable bytes of a directory page: none when it is blank or its check fails (R179). -/
def Store.usablePage (x : Store) (k : Nat) : Option (List Byte) :=
  let p := Config.directoryPage + k
  if x.spoiled.contains p || Memory.blankPage x.mem p then none
  else
    let l := Memory.readPage x.mem p
    if pageCheckOk l then some l else none

/-- R179: the directory region is read after a reset. -/
def Store.readDirectory (x : Store) : Store :=
  let dir := (List.range 4).flatMap fun k =>
    match x.usablePage k with
    | some l => readSlots l
    | none => List.replicate 8 none
  let bad := match x.usablePage 0 with
    | some l => readBad l
    | none => []
  let top := dir.foldl (fun n e => match e with
    | some e => max n e.commit
    | none => n) 0
  { x with dir := dir, bad := bad, nextCommit := min (top + 1) Config.counterMax }

/-! ## The directory and the ring (R182) -/

/-- The entries with their slots. -/
def Store.entries (x : Store) : List (Nat × DayEntry) := x.dir.zipIdx.filterMap fun e => e.1.map fun d => (e.2, d)

/-- The first of a list by a measure: the least, or the greatest. -/
def leastBy {α : Type} (f : α → Nat) : List α → Option α
  | [] => none
  | a :: l =>
    match leastBy f l with
    | none => some a
    | some b => if f a ≤ f b then some a else some b

def greatestBy {α : Type} (f : α → Nat) : List α → Option α
  | [] => none
  | a :: l =>
    match greatestBy f l with
    | none => some a
    | some b => if f b ≤ f a then some a else some b

def Store.oldest (x : Store) : Option (Nat × DayEntry) := leastBy (fun e => e.2.commit) x.entries
def Store.newest (x : Store) : Option (Nat × DayEntry) := greatestBy (fun e => e.2.commit) x.entries

/-- Round the ring of 1,280 archive pages. -/
def ringAt (first n : Nat) : Nat := (first + n) % Config.archivePages

/-- The next page of the ring (R182). -/
def Store.nextPage (x : Store) : Nat :=
  match x.newest with
  | some e => ringAt e.2.first e.2.pages
  | none => 0

/-- An archive page lies in an entry's span (R182). -/
def DayEntry.spans (e : DayEntry) (p : Nat) : Bool :=
  decide ((p + Config.archivePages - e.first) % Config.archivePages < e.pages)

/-- The good pages of an entry's span in ring order, as archive indexes (R189, R191). -/
def Store.goodPages (x : Store) (e : DayEntry) : List Nat :=
  ((List.range e.pages).map (ringAt e.first)).filter fun p => !x.bad.contains p

def Store.setSlot (x : Store) (k : Nat) (e : Option DayEntry) : Store := { x with dir := x.dir.set k e }

/-- The directory page that holds a slot. -/
def slotPage (k : Nat) : Nat := Config.directoryPage + k / 8

/-! ## Page operations -/

/-- A page is to be written: it is erased first (R182, R184, R188). -/
def State.eraseOp (s : State) (p : Nat) : State := { s with store.op := .erasing p, store.retried := false }

/-- The page write of a commit's phase begins. -/
def State.beginCommitWrite (s : State) (slot : Nat) (ph : CommitPhase) (page : Nat) : State :=
  { s with store.job := .commit ⟨slot, ph⟩ }.eraseOp page

/-- The commit job has ended: the buffer is emptied and the day becomes CLOSED (R186, R187). -/
def State.endCommit (s : State) (o : CommitOutcome) (c : Condition) : State :=
  { s with
    store.job := .idle
    store.op := .idle
    store.retried := false
    store.recBuf := []
    store.pageBuf := []
    store.lastCommit := some o
    plan.dayState := .closed }.raise c

/-- The open entry takes its page count, record count and status. -/
def Store.closeEntry (x : Store) (slot : Nat) (complete : Bool) : Store :=
  match (x.dir[slot]?).join with
  | some e => x.setSlot slot (some { e with pages := x.spanned, records := x.done, complete := complete })
  | none => x

/-- The open entry is written for the last time (R186, R187). -/
def State.finalWrite (s : State) (slot : Nat) (o : CommitOutcome) : State :=
  { s with store := s.store.closeEntry slot (o == CommitOutcome.complete) }.beginCommitWrite slot (.final o) (slotPage slot)

/-- R184: the commit comes to an archive page. `fuel` bounds the bad pages passed over. -/
def State.comeTo (slot : Nat) : Nat → Nat → State → State
  | 0, _, s => s
  | fuel + 1, p, s =>
    if s.daySet.length ≤ s.store.done then s.finalWrite slot .complete
    else
      match s.store.entries.find? fun e => e.1 != slot && e.2.spans p with
      | some (k, _) =>
        { s with store := s.store.setSlot k none }.beginCommitWrite slot (.dropReached p) (slotPage k)
      | none =>
        if s.store.bad.contains p then
          State.comeTo slot fuel (ringAt p 1) { s with store.spanned := s.store.spanned + 1 }
        else
          let buf := if s.store.recBuf.isEmpty then (s.daySet.drop s.store.done).take Config.recordsPerPage
            else s.store.recBuf
          { s with store.recBuf := buf }.beginCommitWrite slot (.page p) (Config.archiveBase + p)

/-- The commit comes to the page after the pages spanned so far. -/
def State.commitOn (s : State) (slot : Nat) : State :=
  match (s.store.dir[slot]?).join with
  | some e => State.comeTo slot (Config.badPagesMax + 2) (ringAt e.first s.store.spanned) s
  | none => s

/-- R183: the open entry is made in the lowest-numbered empty slot and written; the commit number holds at its last value
(DESIGN CHOICE, log 29). -/
def State.openEntry (s : State) : State :=
  let x := s.store
  let slot := (x.dir.findIdx? (·.isNone)).getD 0
  let e : DayEntry := ⟨x.nextCommit, s.plan.dayDate.getD firstDate, x.nextPage, 0, 0, x.unresolved, false⟩
  { s with
    store := { x.setSlot slot (some e) with
      nextCommit := min (x.nextCommit + 1) Config.counterMax
      spanned := 0
      done := 0
      recBuf := [] } }.beginCommitWrite slot .openEntry (slotPage slot)

/-- R183: the commit begins. -/
def State.startCommit (s : State) : State :=
  if s.store.dir.all (·.isSome) then
    match s.store.oldest with
    | some (k, _) => { s with store := s.store.setSlot k none }.beginCommitWrite k .dropOldest (slotPage k)
    | none => s.openEntry
  else s.openEntry

/-- An archive index goes into the bad page table in ascending place. -/
def insertBad (p : Nat) : List Nat → List Nat
  | [] => [p]
  | q :: l => if p < q then p :: q :: l else q :: insertBad p l

/-- R185: an archive page is made bad, or the table is full. -/
def State.makeBad (s : State) (slot p : Nat) : State :=
  if s.store.bad.length < Config.badPagesMax then
    { s with store.bad := insertBad p s.store.bad }.beginCommitWrite slot (.badTable p) Config.directoryPage
  else s.finalWrite slot .tableFull

/-- R186: a directory write has failed for good: its page is known to fail its check. The open entry takes the pages spanned so far: a
page whose bad page table could not be written is not counted, and with the oldest entry's slot being written empty there is no open
entry and the next commit number stays (DESIGN CHOICE, log 36). -/
def State.directoryFailed (s : State) (c : Commit) : State :=
  let s1 : State := match c.phase with
    | .final _ => s
    | .dropOldest => s
    | _ => { s with store := s.store.closeEntry c.slot false }
  s1.endCommit .directoryFailed .archiveFail

/-- A page of the commit has been written and verified. -/
def State.commitVerified (s : State) (c : Commit) : State :=
  match c.phase with
  | .dropOldest => s.openEntry
  | .openEntry => s.commitOn c.slot
  | .dropReached _ => s.commitOn c.slot
  | .page _ =>
    { s with
      store.done := s.store.done + s.store.recBuf.length
      store.recBuf := []
      store.spanned := s.store.spanned + 1 }.commitOn c.slot
  | .badTable _ => { s with store.spanned := s.store.spanned + 1 }.commitOn c.slot
  | .final .complete => s.endCommit .complete .archiveDone
  | .final o => s.endCommit o .archiveFail

/-- A page of the commit has failed its second try (R185, R186). -/
def State.commitFailed (s : State) (c : Commit) : State :=
  match c.phase with
  | .page p => s.makeBad c.slot p
  | _ => s.directoryFailed c

/-! ## The settings save (R188, R205) -/

/-- The image of the settings tables: every table's entries in table order, each at a fixed stride (DESIGN CHOICE, log 10). -/
def Settings.image (x : Settings) : List Byte :=
  let part := fun (t : TableName) (stride : Nat) =>
    (List.range t.entries).flatMap fun i => padTo stride (x.entryBytes t (t.first + i))
  part .pupils 33 ++ part .contacts 20 ++ part .groups 10 ++ part .plans 92 ++ part .zones 9 ++ part .stations 7 ++
    part .templates 201 ++ part .lamps 3 ++ part .options 16

/-- Data page p of the image; places beyond the tables' data hold 00h. -/
def Settings.page (x : Settings) (p : Nat) : List Byte :=
  padTo Config.pageBytes ((x.image.drop (Config.pageBytes * p)).take Config.pageBytes)

/-- The check page: the format number, the count of data pages, the check word (section 12.6). -/
def checkPageBytes (sum : Nat) : List Byte := padTo 1020 (b2 1 ++ b1 255) ++ b4 (checkWord sum)

/-- R188: the save starts by erasing the check page. -/
def State.startSave (s : State) : State := { s with store.job := .save .clearCheck 0 }.eraseOp Config.checkPage

/-- A save writes its next page. -/
def State.saveWrite (s : State) (ph : SavePhase) (sum page : Nat) : State :=
  { s with store.job := .save ph sum }.eraseOp page

/-- R188, R206: the save ends, DONE or FAILED. -/
def State.endSave (s : State) (ok : Bool) : State :=
  { s with
    store.job := .idle
    store.op := .idle
    store.retried := false
    store.pageBuf := []
    store.lastSave := some ok }.raise .saveDone

/-- A page of the save has been written and verified. -/
def State.saveVerified (s : State) (ph : SavePhase) (sum : Nat) : State :=
  match ph with
  | .clearCheck => s
  | .data p =>
    let total := sum + byteSum s.store.pageBuf
    if p + 1 < Config.checkPage then s.saveWrite (.data (p + 1)) total (p + 1)
    else
      { s with
        store.job := .save .writeCheck total
        store.pageBuf := checkPageBytes total
        store.op := .programming Config.checkPage
        store.retried := false }
  | .writeCheck => s.endSave true

/-- A page is known to fail its check until an operation gives it other bytes. -/
def State.spoil (s : State) (p : Nat) : State :=
  { s with store.spoiled := if s.store.spoiled.contains p then s.store.spoiled else p :: s.store.spoiled }

/-! ## The tally rebuild (R118, R189) -/

/-- Reads of an entry's first `left` records, 64 to a page, over its good pages. -/
def wholeReads : List Nat → Nat → List PageRead
  | [], _ => []
  | p :: l, left =>
    if left = 0 then []
    else ⟨Config.archiveBase + p, 0, min left Config.recordsPerPage⟩ :: wholeReads l (left - Config.recordsPerPage)

/-- The newest entry of a date. -/
def Store.newestOf (x : Store) (d : Date) : Option DayEntry :=
  (greatestBy (fun e : Nat × DayEntry => e.2.commit) (x.entries.filter fun e => e.2.date == d)).map (·.2)

/-- R118: the entries counted: in the week of the day date, before it, the newest of each date. -/
def Store.weekEntries (x : Store) (day : Date) : List DayEntry :=
  x.entries.filterMap fun e =>
    if e.2.date.sameWeek day && decide (e.2.date.number < day.number) && x.newestOf e.2.date == some e.2 then some e.2
    else none

def Store.rebuildReads (x : Store) (day : Date) : List PageRead :=
  (x.weekEntries day).flatMap fun e => wholeReads (x.goodPages e) e.records

/-- The bytes of n records of a page from a place on. -/
def Store.readRecords (x : Store) (r : PageRead) : List DayRecord :=
  (List.range r.count).map fun i =>
    (List.range 16).map fun j => Memory.read x.mem (pageAddr r.page + 16 * (r.from_ + i) + j)

/-- A mark and minutes of a day record add to a tally when the mark is L or U (R118). -/
def Tally.addMark (t : Tally) (mark minutes : Nat) : Tally :=
  match Mark.ofCode mark with
  | some m => if m.late then { t with count := min (t.count + 1) 15, minutes := min (t.minutes + minutes) 4095 } else t
  | none => t

/-- One day record of the rebuild (R118). -/
def Settings.addRecord (x : Settings) (acc : Tab Tally) (l : DayRecord) : Tab Tally :=
  match x.shortLookup (numAt l 0 2) with
  | none => acc
  | some p =>
    let t := ((Tab.get zeroTally acc p).addMark (byteAt l 2) (byteAt l 3)).addMark (byteAt l 4) (byteAt l 5)
    Tab.put zeroTally acc p { t with notified := t.notified || byteAt l 6 / 16 % 2 == 1 }

/-- A READ job for a request starts (R191); its reads are not empty. -/
def State.beginRead (s : State) (r : ReadReq) (p : PageRead) : State :=
  { s with store.job := .read r [], store.op := .reading p.page }

/-- The body of an ARCHIVE READ's reply (section 12.2). -/
def readBody (r : ReadReq) (got : List DayRecord) : List Byte :=
  bFlag (!r.entry.complete) ++ b2 r.entry.records ++ b1 got.length ++ b2 (r.index + got.length) ++ got.flatten

/-- R180, R191: a read is served: its pages are read, or there are none to read and it is answered at once. -/
def State.serveRead (s : State) (r : ReadReq) : State :=
  match r.pages with
  | [] => s.giveReply (Reply.ok (readBody r []))
  | p :: _ => s.beginRead r p

/-- R180: the ARCHIVE READ that waited for the rebuild starts. -/
def State.startWaitingRead (s : State) : State :=
  match s.store.waitingRead with
  | none => s
  | some r => { s with store.waitingRead := none }.serveRead r

/-- R23, R118, R163: the rebuild completes: the tallies take their values, the day becomes OPEN, a waiting read starts, and the
held reports are parsed. -/
def State.rebuildDone (s : State) (acc : Tab Tally) : State :=
  let s1 : State := { s with
    store.job := .idle
    store.op := .idle
    reg.tallies := acc
    plan.dayState := .opened }
  ((s1.raise .dayReady).startWaitingRead).parseHeld

/-- R189: the rebuild starts; with no page to read it ends in the event it starts. -/
def State.startRebuild (s : State) : State :=
  let reads := s.store.rebuildReads (s.plan.dayDate.getD firstDate)
  match reads with
  | [] => s.rebuildDone []
  | r :: _ => { s with store.job := .rebuild reads [], store.op := .reading r.page }

/-- R180: the job that waits for a READ to end starts when it ends. -/
def State.startPending (s : State) : State :=
  match s.store.pendingJob with
  | none => s
  | some .commit => { s with store.pendingJob := none }.startCommit
  | some .rebuild => { s with store.pendingJob := none }.startRebuild

/-- R180: a commit starts, or waits for the READ under way. -/
def State.wantCommit (s : State) : State :=
  match s.store.job with
  | .read _ _ => { s with store.pendingJob := some .commit }
  | _ => s.startCommit

/-- R180: a rebuild starts, or waits for the READ under way. -/
def State.wantRebuild (s : State) : State :=
  match s.store.job with
  | .read _ _ => { s with store.pendingJob := some .rebuild }
  | _ => s.startRebuild

/-! ## The ends of page operations -/

/-- An erase ends: every byte of the page is blank, and its blank check begins (R178). -/
def State.eraseDone (s : State) : State :=
  match s.store.op with
  | .erasing p =>
    { s with
      store.mem := Memory.erasePage s.store.mem p
      store.spoiled := s.store.spoiledBut p
      store.op := .blankCheck p }
  | _ => s

/-- The buffer that a page of the job is programmed from is filled (R182, R184, R188). -/
def State.fillBuffer (s : State) (p : Nat) : State :=
  match s.store.job with
  | .save (.data k) _ => { s with store.pageBuf := s.set.page k }
  | .commit ⟨_, .page _⟩ => s
  | .commit _ => { s with store.pageBuf := s.store.directoryBytes (p - Config.directoryPage) }
  | _ => s

/-- The contents that a program writes: day records to an archive page, the page's buffer to another. -/
def Store.writeBuffer (x : Store) (p : Nat) : List Byte :=
  if Config.archiveBase ≤ p then x.recBuf.flatten else x.pageBuf

/-- A page has failed its second try: what it holds is not known, and a directory or check page is known to fail its check. -/
def State.pageFailed (s : State) (p : Nat) : State :=
  let s1 := s.tearPage p
  match s.store.job with
  | .commit c => (if p < Config.archiveBase then s1.spoil p else s1).commitFailed c
  | .save _ _ => (s1.spoil Config.checkPage).endSave false
  | _ => s1

/-- A blank page is programmed; the save's check page, once blank, waits for the data pages (R188). -/
def State.blankOk (s : State) (p : Nat) : State :=
  match s.store.job with
  | .save .clearCheck sum => s.saveWrite (.data 0) sum 0
  | _ => { s.fillBuffer p with store.op := .programming p, store.retried := false }

/-- A blank check ends (R182, R184, R188). A page that does not read blank holds what its erase left, which is not given
(DESIGN CHOICE, log 2). -/
def State.blankChecked (s : State) (ok : Bool) : State :=
  match s.store.op with
  | .blankCheck p =>
    if ok then s.blankOk p
    else if s.store.retried then s.pageFailed p
    else { s.tearPage p with store.op := .erasing p, store.retried := true }
  | _ => s

/-- A program ends: the page holds the buffer's contents, which decide its check, and its verify begins (R178, R179). -/
def State.programDone (s : State) : State :=
  match s.store.op with
  | .programming p =>
    { s with
      store.mem := Memory.programPage s.store.mem p (s.store.writeBuffer p)
      store.spoiled := s.store.spoiledBut p
      store.op := .verifying p }
  | _ => s

/-- A page has been written and verified: the job moves on. -/
def State.pageWritten (s : State) (p : Nat) : State :=
  let s1 : State := { s with store.spoiled := s.store.spoiledBut p }
  match s.store.job with
  | .commit c => s1.commitVerified c
  | .save ph sum => s1.saveVerified ph sum
  | _ => s1

/-- A verify ends (R182, R184, R188). A page that does not agree with the buffer holds bytes that are not given
(DESIGN CHOICE, log 2). -/
def State.verified (s : State) (ok : Bool) : State :=
  match s.store.op with
  | .verifying p =>
    if ok then s.pageWritten p
    else if s.store.retried then s.pageFailed p
    else { s.tearPage p with store.op := .programming p, store.retried := true }
  | _ => s

/-- A page of the rebuild has been read. -/
def State.rebuildRead (s : State) (r : PageRead) (rest : List PageRead) (acc : Tab Tally) : State :=
  let acc1 := (s.store.readRecords r).foldl s.set.addRecord acc
  match rest with
  | [] => s.rebuildDone acc1
  | q :: _ => { s with store.job := .rebuild rest acc1, store.op := .reading q.page }

/-- A page of an ARCHIVE READ has been read; with the last one its reply is made, and a job that waits starts (R180, R191). -/
def State.archiveRead (s : State) (r : ReadReq) (p : PageRead) (rest : List PageRead) (got : List DayRecord) : State :=
  let got1 := got ++ s.store.readRecords p
  match rest with
  | [] =>
    (({ s with store.job := .idle, store.op := .idle }).giveReply (Reply.ok (readBody r got1))).startPending
  | q :: _ => { s with store.job := .read { r with pages := rest } got1, store.op := .reading q.page }

/-- A read of a page ends (R189, R191). -/
def State.readDone (s : State) : State :=
  match s.store.op, s.store.job with
  | .reading _, .rebuild (r :: rest) acc => s.rebuildRead r rest acc
  | .reading _, .read r got =>
    match r.pages with
    | p :: rest => s.archiveRead r p rest got
    | [] => s
  | _, _ => s

/-! ## Requests -/

/-- The open entry of a commit under way stands in a slot. -/
def Store.inProgress (x : Store) (slot : Nat) : Bool :=
  match x.job with
  | .commit c => c.slot == slot && c.phase != .dropOldest
  | _ => false

/-- Entries in ascending commit number. -/
def insertEntry (e : Nat × DayEntry) : List (Nat × DayEntry) → List (Nat × DayEntry)
  | [] => [e]
  | f :: l => if e.2.commit ≤ f.2.commit then e :: f :: l else f :: insertEntry e l

def Store.sortedEntries (x : Store) : List (Nat × DayEntry) := x.entries.foldr insertEntry []

/-- An entry as ARCHIVE DIRECTORY reports it: while its commit runs the open entry is PARTIAL with 0 pages and 0 records, whatever the
last directory write puts into it (R190). -/
def Store.reported (x : Store) (e : Nat × DayEntry) : DayEntry :=
  if x.inProgress e.1 then { e.2 with pages := 0, records := 0, complete := false } else e.2

/-- An entry of ARCHIVE DIRECTORY (R190). That it is in progress is a flag byte of its own after the status (DEDUCED, log 11). -/
def Store.directoryEntryBytes (x : Store) (e : Nat × DayEntry) : List Byte :=
  let d := x.reported e
  b1 e.1 ++ b4 d.commit ++ bDate d.date ++ b2 d.first ++ b2 d.pages ++ b2 d.records ++ b1 d.conflicts ++
    bFlag (!d.complete) ++ bFlag (x.inProgress e.1)

/-- ARCHIVE DIRECTORY (R190). -/
def reqArchiveDirectory (start : Nat) (s : State) : Answered :=
  if start ≤ 31 then
    s.answer (b1 s.store.entries.length ++
      bList s.store.directoryEntryBytes ((s.store.sortedEntries.drop start).take 12))
  else s.refuse .badArg

/-- The reads of records index to index + n − 1 of an entry (R191). -/
def recordReads : List Nat → Nat → Nat → List PageRead
  | [], _, _ => []
  | p :: l, index, n =>
    if n = 0 then []
    else if Config.recordsPerPage ≤ index then recordReads l (index - Config.recordsPerPage) n
    else
      let here := min n (Config.recordsPerPage - index)
      ⟨Config.archiveBase + p, index, here⟩ :: recordReads l 0 (n - here)

/-- The read of an entry from an index, up to a count; reading stops at the entry's last record (R191). -/
def Store.readFor (x : Store) (tag : Nat) (e : DayEntry) (index count : Nat) : ReadReq :=
  ⟨tag, e, index, recordReads (x.goodPages e) index (min count (e.records - index))⟩

/-- ARCHIVE READ (R191, R180). No reply is answered while the request waits in hand. Under a READ, which R180's table marks as one that
cannot arise, the answer is BUSY (DESIGN CHOICE, log 44). -/
def reqArchiveRead (tag : Nat) (date : RawDate) (index count : Nat) (s : State) : State × Option Reply :=
  match rawDate? date with
  | none => (s, some (Reply.just .badArg))
  | some d =>
    if Config.pupils < index ∨ count = 0 ∨ 8 < count then (s, some (Reply.just .badArg))
    else
      match s.store.newestOf d with
      | none => (s, some (Reply.just .notFound))
      | some e =>
        if e.records < index then (s, some (Reply.just .badArg))
        else
          let r := s.store.readFor tag e index count
          match s.store.job with
          | .idle =>
            match r.pages with
            | [] => (s, some (Reply.ok (readBody r [])))
            | p :: _ => (s.beginRead r p, none)
          | .rebuild _ _ => ({ s with store.waitingRead := some r }, none)
          | _ => (s, some (Reply.just .busy))

/-- What STORE STATUS says of a commit: its number, pages spanned, records done, records of the day set (R192). While no commit runs the
four are none together and share one flag byte (DEDUCED, log 11). While the oldest entry is being removed the pages spanned and records
done are still those of the commit before, R183 setting them to 0 with the open entry (DESIGN CHOICE, log 40). -/
def State.commitBytes (s : State) : List Byte :=
  match s.store.job with
  | .commit c =>
    let number := match (s.store.dir[c.slot]?).join with
      | some e => e.commit
      | none => s.store.nextCommit
    b1 1 ++ b4 number ++ b2 s.store.spanned ++ b2 s.store.done ++ b2 s.daySet.length
  | _ => b1 0 ++ List.replicate 10 0

/-- STORE STATUS (R192). -/
def reqStoreStatus (s : State) : Answered :=
  s.answer (b1 s.store.job.code ++ b1 s.store.op.code ++ s.commitBytes ++ bList b2 s.store.bad ++
    b1 s.store.entries.length ++ b2 s.store.nextPage ++ b1 (commitCode s.store.lastCommit) ++
    b1 (saveCode s.store.lastSave))

/-- SETTINGS SAVE (R206). -/
def reqSettingsSave (s : State) : Answered :=
  match s.store.job with
  | .idle => (s.startSave, Reply.just .accepted)
  | _ => s.refuse .busy

end Sys2Proof.Machine
end

