-- ==== Sys2Proof/Machine/Day.lean ====
section
/-! DEFINITION. The school day's requests (02, 10): DAY OPEN (R21, R22, R127), DAY CLOSE (R174 to R176), the midnight close (R24),
DAY STATUS (R25), OPENING DELAY (R36), EARLY CLOSE (R37) and PLAN QUERY (R40). -/

namespace Sys2Proof.Machine

/-! ## DAY OPEN -/

/-- The four day kinds, when each is one (R21). -/
def dayKinds? (q : Quad Nat) : Option (Quad DayKind) :=
  match DayKind.ofCode q.q0, DayKind.ofCode q.q1, DayKind.ofCode q.q2, DayKind.ofCode q.q3 with
  | some a, some b, some c, some d => some ⟨a, b, c, d⟩
  | _, _, _, _ => none

/-- A track's non-zero delay brings its nominal start to or before the current time (R21). -/
def State.delayTooLate (s : State) (kinds : Quad DayKind) (delays : Quad Nat) : Bool :=
  fours.any fun t =>
    decide (0 < delays.get t) && reached ((s.storedFor t (kinds.get t)).start + delays.get t) s.clock.secs

/-- A track built for the day, or its deficit (R29). -/
def State.openTrack (s : State) (kinds : Quad DayKind) (delays : Quad Nat) (t : Fin 4) : Except Nat Track :=
  buildTrack (s.storedFor t (kinds.get t)) (some (kinds.get t)) (delays.get t) 0 s.clock.secs

/-- The four tracks, or the lowest-numbered track that cannot absorb its delay, with its deficit (R21). -/
def State.openTracks (s : State) (kinds : Quad DayKind) (delays : Quad Nat) : Except (Nat × Nat) (Quad Track) :=
  match s.openTrack kinds delays 0, s.openTrack kinds delays 1, s.openTrack kinds delays 2,
    s.openTrack kinds delays 3 with
  | .error d, _, _, _ => .error (0, d)
  | _, .error d, _, _ => .error (1, d)
  | _, _, .error d, _ => .error (2, d)
  | _, _, _, .error d => .error (3, d)
  | .ok a, .ok b, .ok c, .ok d => .ok ⟨a, b, c, d⟩

/-- R127: a session that an advance report names is handed to the Register; a PM session without a PM point is passed
over. -/
def State.applyAdvanceTo (s : State) (a : Advance) (ss : Session) : State :=
  if a.sessions.names ss && (ss == .am || s.trackHasPm (s.trackOf a.pupil)) then (s.parentAbsent a.pupil ss).1 else s

/-- R127: one entry of the advance list at the opening of a day. -/
def applyAdvance (day : Date) (s : State) (a : Advance) : State :=
  if a.date.number < day.number then { s with recon.advCnt.expired := inc32 s.recon.advCnt.expired }
  else if a.date ≠ day then s
  else if (s.pupil a.pupil).inUse then
    let s1 := (s.applyAdvanceTo a .am).applyAdvanceTo a .pm
    { s1 with recon.advCnt.applied := inc32 s1.recon.advCnt.applied }
  else { s with recon.advCnt.unmatched := inc32 s.recon.advCnt.unmatched }

/-- R127: the advance list at the opening of a day. -/
def State.applyAdvances (s : State) (day : Date) : State :=
  let s1 := s.recon.advance.foldl (applyAdvance day) s
  { s1 with recon.advance := s.recon.advance.filter fun a => decide (day.number < a.date.number) }

/-- R125: the conflict list at the opening of a day. -/
def State.clearConflicts (s : State) : State :=
  { s with recon.conflicts := [], recon.nextId := 1, recon.conflictCnt := ⟨0, 0, 0, 0, 0⟩ }

/-- R22: the opening work that takes no time. -/
def State.openDay (s : State) (day : Date) (tracks : Quad Track) : State :=
  let s1 : State := { s with
    plan := ⟨.opening, some day, tracks, false⟩
    slips.next := 1 }
  let s2 := ((s1.clearRegister).clearConflicts).applyAdvances day
  let s3 := fours.foldl State.followSessions s2
  s3.clearDeskStats.clearPoolStats.clearGwStats.rebuildBells

/-! ## Closing -/

/-- R175: a group of a session that had not begun. -/
def State.notHeld (ss : Session) (s : State) (g : Nat) : State :=
  if s.groupStatus g ss = .awaited then s.setGroupStatus g ss .notHeld else s

/-- R175: a session that has not closed is settled. -/
def State.settleSession (s : State) (t : Fin 4) (ss : Session) : State :=
  match s.session t ss with
  | some .opened => s.closeSession t ss s.clock.secs true
  | some .before => (s.groupsOf t).foldl (State.notHeld ss) (s.setSession t ss (some .closed))
  | _ => s

/-- R175: the sessions of each track are settled: tracks 0 to 3, AM before PM (DESIGN CHOICE, log 5). -/
def State.settleSessions (s : State) : State :=
  fours.foldl (fun s t => (s.settleSession t .am).settleSession t .pm) s

/-- R175: every track is ENDED; its plan in force is kept. -/
def State.endTracks (s : State) : State :=
  { s with plan.tracks := s.plan.tracks.map fun (t : Track) => { t with state := .ended } }

/-- R176: an alert that is HELD, DUE or WITHHELD becomes CANCELLED. -/
def Rec.settleAlert (r : Rec) : Rec :=
  if r.alert = .held || r.alert = .due || r.alert = .withheld then
    { r with alert := .cancelled, due := none, asked := none }
  else r

/-- R176: the alert of every session record is dealt with. -/
def State.cancelAlerts (s : State) : State :=
  { s with reg.recs := s.reg.recs.map fun e => (e.1, e.2.settleAlert) }

/-- R176: the ABSENCE ALERT messages that wait, in the order in which they took storage, in which they are withdrawn, each with its serve
pass (DESIGN CHOICE, log 5). -/
def State.waitingAlerts (s : State) : List Nat :=
  (s.pool.msgs.filter fun m => m.kind == .absenceAlert && m.waits).map (·.number)

/-- R176: an ABSENCE ALERT in SENDING is detached. -/
def Message.detach (m : Message) : Message :=
  match m.kind, m.body with
  | .absenceAlert, .out o => { m with body := .out { o with detached := true } }
  | _, _ => m

def State.detachAlerts (s : State) : State := { s with pool.msgs := s.pool.msgs.map Message.detach }

/-- R176: the alerts are settled: cancelled, then withdrawn, then detached. -/
def State.settleAlerts (s : State) : State :=
  let s1 := s.cancelAlerts
  (s1.withdrawAll s1.waitingAlerts).detachAlerts

/-- R174: the effects of a close (R175, R176, R125, R46), and its commit. -/
def State.performClose (s : State) : State :=
  let s1 : State := { s with plan.dayState := .closing }
  ((s1.endTracks.settleSessions.settleAlerts.onZones fun _ => skipAll).emptyConflicts).wantCommit

/-- The Store Engine runs a settings save. -/
def State.saving (s : State) : Bool :=
  match s.store.job with
  | .save _ _ => true
  | _ => false

/-- R24: the midnight close, or its deferral. -/
def State.midnightClose (s : State) : State :=
  match s.plan.dayState with
  | .opened => if s.saving then { s with plan.deferredClose := true } else s.performClose
  | .opening => { s with plan.deferredClose := true }
  | _ => s

/-- R24: a deferred close is performed in the event in which what deferred it has ended. -/
def State.settleDeferred (s : State) : State :=
  if s.plan.deferredClose && s.plan.dayState == .opened && !s.saving then
    { s with plan.deferredClose := false }.performClose
  else s

/-- R21: an accepted DAY OPEN. -/
def State.acceptOpen (s : State) (day : Date) (tracks : Quad Track) : State :=
  ((s.openDay day tracks).wantRebuild).settleDeferred

/-- DAY OPEN (R21). -/
def reqDayOpen (date : RawDate) (kinds : Quad Nat) (delays : Option (Quad Nat)) (s : State) : Answered :=
  let d := delaysOf delays
  if !s.clock.isSet then s.refuse .noclock
  else
    match dayKinds? kinds, rawDate? date with
    | some k, some day =>
      if d.toList.any (fun x => decide (240 < x)) || day != s.clock.date then s.refuse .badArg
      else if s.plan.dayState ≠ .closed then s.refuse .state
      else if s.saving then s.refuse .busy
      else if s.delayTooLate k d then s.refuse .state
      else
        match s.openTracks k d with
        | .error (t, x) => (s, ⟨.shortfall, b1 t ++ b2 x⟩)
        | .ok tracks => (s.acceptOpen day tracks, Reply.just .accepted)
    | _, _ => s.refuse .badArg

/-- A track is not ENDED. -/
def State.trackRuns (s : State) : Bool := s.plan.tracks.toList.any fun t => t.state != .ended

/-- DAY CLOSE (R174). -/
def reqDayClose (force : Nat) (s : State) : Answered :=
  match flagOf force with
  | none => s.refuse .badArg
  | some f =>
    if s.plan.dayState ≠ .opened then s.refuse .state
    else if s.saving then s.refuse .busy
    else if !f && s.trackRuns then s.refuse .state
    else (s.performClose, ⟨.accepted, b4 s.store.nextCommit ++ b2 s.inUsePupils.length⟩)

/-! ## Reading and changing the plan in force -/

/-- A track as DAY STATUS reports it (R25). -/
def Track.bytes (t : Track) : List Byte :=
  b1 t.state.code ++ bOpt 1 (fun k : DayKind => b1 k.code) t.kind ++ b1 t.delay ++ b1 t.early

/-- DAY STATUS (R25). The four tracks, of which there are always four, stand without a count before them (DEDUCED, log 11). -/
def reqDayStatus (s : State) : Answered :=
  s.answer (bDate s.clock.date ++ b1 s.clock.weekday ++ bTime s.clock.secs ++ bFlag s.clock.isSet ++
    b1 s.plan.dayState.code ++ bOpt 3 bDate s.plan.dayDate ++ s.plan.tracks.toList.flatMap Track.bytes)

/-- A track's plan in force is replaced and republished (R32, R39). -/
def State.republish (s : State) (t : Fin 4) (x : Track) : State := (s.setTrack t x).recomputeBells t

/-- The start of a track's stored plan, as its plan in force holds it. -/
def Track.start (t : Track) : Nat := (t.plan.map (·.start)).getD 0

/-- The reply of OPENING DELAY: the new day start and AM point (R36). -/
def Track.delayReply (t : Track) : List Byte :=
  match t.plan with
  | some p => bMinute (dayStart p t.delay) ++ bMinute? (sessionPoint p t.delay .am)
  | none => []

/-- OPENING DELAY (R36). -/
def reqOpeningDelay (track delay : Nat) (s : State) : Answered :=
  match fin4? track with
  | none => s.refuse .badArg
  | some t =>
    if 240 < delay then s.refuse .badArg
    else
      let x := s.track t
      if !s.dayRuns || x.state != .planned || reached (x.start + delay) s.clock.secs then s.refuse .state
      else
        match rebuildTrack x delay x.early s.clock.secs with
        | .error d => (s, ⟨.shortfall, b2 d⟩)
        | .ok y => (s.republish t y, Reply.ok y.delayReply)

/-- R37's refusals of an early close, in its order; none when it may be tried. -/
def State.earlyRefusal (s : State) (x : Track) (minutes : Nat) : Option Code :=
  if 240 < x.early + minutes then some .badArg
  else if !s.dayRuns || x.state == .ended then some .state
  else none

/-- The reply of EARLY CLOSE: the new day end and E in force (R37). -/
def Track.earlyReply (t : Track) : List Byte :=
  match t.plan with
  | some p => bMinute (dayEndOf p t.delay) ++ b1 t.early
  | none => []

/-- EARLY CLOSE (R37, R38). -/
def reqEarlyClose (track minutes : Nat) (s : State) : Answered :=
  match fin4? track with
  | none => s.refuse .badArg
  | some t =>
    let x := s.track t
    match s.earlyRefusal x minutes with
    | some c => s.refuse c
    | none =>
      match closeEarly x minutes s.clock.secs with
      | .error d => (s, ⟨.shortfall, b2 d⟩)
      | .ok y => (s.republish t y, Reply.ok y.earlyReply)

/-- A segment of PLAN QUERY with its start (R40). -/
def segmentReply (x : SegIF × Nat) : List Byte :=
  b1 x.1.seg.kind.code ++ bMinute x.2 ++ b1 x.1.len ++ b1 x.1.seg.nominal ++ b1 x.1.seg.minimum ++
    bFlag x.1.seg.compressible ++ bFlag x.1.seg.quiet ++ bFlag x.1.begun

/-- The reply of PLAN QUERY for a track's state, kind, D and E, and a plan (R40). -/
def planReply (x : Track) (p : PlanIF) : List Byte :=
  let d := x.delay
  b1 x.state.code ++ b1 (x.kind.getD .normal).code ++ b1 d ++ b1 x.early ++
    bMinute (dayStart p d) ++ bMinute (dayEndOf p d) ++
    bMinute? (sessionPoint p d .am) ++ bMinute? (sessionClose p d .am) ++
    bMinute? (sessionPoint p d .pm) ++ bMinute? (sessionClose p d .pm) ++
    b1 p.grace ++ b1 p.kAm ++ b1 p.kPm ++ b1 p.allowance ++ b1 p.warning ++
    bList segmentReply (p.segs.zip (segStarts (dayStart p d) p.segs))

/-- A plan in force with the lengths of another; its flags and the rest as they are. -/
def PlanIF.withLengths (p q : PlanIF) : PlanIF :=
  { p with segs := (p.segs.zip q.segs).map fun e => { e.1 with len := e.2.len } }

/-- PLAN QUERY with a trial (R40): the lengths and times an EARLY CLOSE would give; the track's other items, the flags among
them, as they are (DEDUCED, log 11). -/
def State.planTrial (s : State) (x : Track) (p : PlanIF) (minutes : Nat) : Reply :=
  match s.earlyRefusal x minutes with
  | some c => Reply.just c
  | none =>
    match closeEarly x minutes s.clock.secs with
    | .error d => ⟨.shortfall, b2 d⟩
    | .ok y => Reply.ok (planReply x (p.withLengths (y.plan.getD p)))

/-- PLAN QUERY (R40). -/
def reqPlanQuery (track : Nat) (trial : Option Nat) (s : State) : Answered :=
  match fin4? track with
  | none => s.refuse .badArg
  | some t =>
    let x := s.track t
    match x.plan with
    | none => s.refuse .notFound
    | some p =>
      match trial with
      | none => s.answer (planReply x p)
      | some n => (s, s.planTrial x p n)

end Sys2Proof.Machine
end

