-- ==== Sys2Proof/Machine/Time.lean ====
section
/-! DEFINITION. The Clock (R16 to R19): CLOCK SET, the second, minute and midnight events, and the events that come about when a
time or a count is reached, each also a command of its own (DESIGN CHOICE, log 4). -/

namespace Sys2Proof.Machine

/-! ## CLOCK SET -/

/-- R18: the Clock takes a date and a time. -/
def Clock.put (d : Date) (t : Nat) : Clock := ⟨d, d.weekday, t, true⟩

/-- R19: the largest step during a day, in seconds. -/
def stepLimit : Nat := 120

/-- R19: a forward step is handed to the owners of times of day: the bells in the interval are skipped, the tracks and sessions
follow, the alerts whose due time is reached fall due. That the bells go first, then the tracks by ascending number, each with its sessions and
its end, and then the alerts, each owner with all its points of the interval, is the model's order (DESIGN CHOICE, log 5). -/
def State.stepForward (s : State) : State :=
  ((s.onZones fun _ => skipReached s.clock.secs).followTracks).alertsDue

/-- R19: a step within a day: back, none, or forward. -/
def State.stepClock (s : State) (t : Nat) : State :=
  let s1 : State := { s with clock.secs := t }
  if s.clock.secs < t then s1.stepForward else s1

/-- The difference of two times of one day. -/
def apart (a b : Nat) : Nat := (a - b) + (b - a)

/-- CLOCK SET (R18, R19). The set that discards the part-second leaves the lamps' phase running on to the next second event (DESIGN
CHOICE, log 37). -/
def reqClockSet (date : RawDate) (time : RawTime) (s : State) : Answered :=
  match rawDate? date, rawTime? time with
  | some d, some t =>
    if !s.clock.isSet || s.plan.dayState == .closed then ({ s with clock := Clock.put d t }, Reply.ok [])
    else if d ≠ s.clock.date ∨ stepLimit < apart t s.clock.secs then s.refuse .state
    else (s.stepClock t, Reply.ok [])
  | _, _ => s.refuse .badArg

/-! ## Second, minute and midnight events -/

/-- R17: the date of the next day; the day after 31/12/2099 is 01/01/2000 with the flag UNSET. -/
def Clock.nextDay (c : Clock) : Clock :=
  let d := c.date.next
  ⟨d, d.weekday, 0, c.isSet && c.date != lastDate⟩

/-- R17: the Clock passes midnight, and CLOCK_UNSET is latched when it passes 31/12/2099. -/
def State.passMidnight (s : State) : State :=
  let s1 : State := { s with clock := s.clock.nextDay }
  if s.clock.date = lastDate then s1.raise .clockUnset else s1

/-- The seconds of day stand at their last value (R17). -/
def Clock.atEnd (c : Clock) : Bool := decide (lastSecond ≤ c.secs)

/-- R16, R17: the Clock counts one second. -/
def State.countSecond (s : State) : State :=
  if s.clock.atEnd then s.passMidnight else { s with clock.secs := s.clock.secs + 1 }

/-- R17, R24: the midnight event. -/
def State.midnight (s : State) : State := s.passMidnight.midnightClose

/-- R16: a minute event: the tracks and sessions follow the time (R31, R99), and the bells whose time is reached ring (R47). -/
def State.minute (s : State) : State := s.followTracks.ringDueBells

/-- R47, R50 to R55: a second event in every zone; `peak` is each zone's greatest sensed current during the second. -/
def State.bellSecond (s : State) (peak : Quad Nat) : State :=
  fours.foldl (fun s z => s.onZone z fun c x => zoneSecond c s.clock.secs (peak.get z) x) s

/-- R62, R67: a second event on every station line. -/
def State.stationsSecond (s : State) : State := sixes.foldl State.stationSecond s

/-- R204: a second event at the lamps: the stretches count down and the flash begins a new second. -/
def Lamps.second (l : Lamps) : Lamps := { l with stretch := l.stretch.map (· - 1), phase := 0 }

/-- A second event at the blocks that count seconds (DESIGN CHOICE, log 5). -/
def State.countDown (s : State) (peak : Quad Nat) : State :=
  let s1 := s.deskSample.linkSecond.stationsSecond.gwGapSecond
  let s2 := (s1.bellSecond peak).slipSecond.waitsSecond.deliverySecond.gwSecond
  { s2 with lamps := s2.lamps.second }

/-- A second event at the times of day: the midnight close, the minute event, and the alerts' due times (DESIGN CHOICE, log 5). -/
def State.timesOfDay (s : State) (wrapped : Bool) : State :=
  let s1 := if wrapped then s.midnightClose else s
  let s2 := if s1.clock.secs % 60 = 0 then s1.minute else s1
  s2.alertsDue

/-- R16: the second event. -/
def State.second (s : State) (peak : Quad Nat) : State :=
  ((s.countSecond).countDown peak).timesOfDay s.clock.atEnd

/-! ## Times reached, as commands -/

/-- The first segment's begun flag starts a PLANNED track (R31). -/
def startedBy (n : Nat) (st : TrackState) : TrackState :=
  match n, st with
  | 0, .planned => .running
  | _, x => x

/-- R31: the begun flag of segment n, from 0, of a list is set. -/
def beginSegment : Nat → List SegIF → List SegIF
  | _, [] => []
  | 0, g :: l => { g with begun := true } :: l
  | n + 1, g :: l => g :: beginSegment n l

/-- R31, R99: a segment's start time is reached; the session whose point it carries opens. -/
def State.segmentBegins (s : State) (t : Fin 4) (n : Nat) : State :=
  let x := s.track t
  match x.plan with
  | none => s
  | some p =>
    if s.dayRuns && x.state != .ended && decide (n < p.segs.length) then
      let y : Track := { x with state := startedBy n x.state, plan := some { p with segs := beginSegment n p.segs } }
      ((s.setTrack t y).openSessionAt t .am).openSessionAt t .pm
    else s

/-- R31, R108: a track's day end is reached. -/
def State.dayEnds (s : State) (t : Fin 4) : State :=
  let x := s.track t
  if s.dayRuns && x.state != .ended then (s.setTrack t { x with state := .ended }).withheldDue t else s

/-- R99, R112: a session's close time is reached. -/
def State.sessionCloses (s : State) (t : Fin 4) (ss : Session) : State :=
  match (s.track t).plan, s.session t ss with
  | some p, some x =>
    match sessionClose p (s.track t).delay ss with
    | some m => if s.dayRuns && x != .closed then s.closeSession t ss (m * 60) false else s
    | none => s
  | _, _ => s

/-- R107: a HELD alert's due time is reached. -/
def State.alertFallsDue (s : State) (p : Nat) (ss : Session) : State :=
  if (s.record p ss).alert = .held then s.heldDue p ss else s

/-- R47: the time of a PENDING bell event is reached. -/
def State.bellFallsDue (s : State) (z : Fin 4) (src : BellSource) : State :=
  s.onZone z fun c x => bellDue c s.clock.secs src x

/-- R48, R52: a ring has run its duration. -/
def State.ringEnds (s : State) (z : Fin 4) : State :=
  s.onZone z fun c x => (endRing c s.clock.secs x, [])

/-- R50: the open detector's interval in a zone. -/
def State.openSensed (s : State) (z : Fin 4) (peak ms : Nat) : State := s.onZone z fun _ x => openFault peak ms x

/-- R51: the overload detector's interval in a zone. -/
def State.overSensed (s : State) (z : Fin 4) (least ms : Nat) : State :=
  s.onZone z fun c x => overload c s.clock.secs least ms x

/-- R55: the probe's SHORT interval in a zone. -/
def State.shortSensed (s : State) (z : Fin 4) (least ms : Nat) : State :=
  s.onZone z fun c x => checkShort c s.clock.secs least ms x

/-- R55: a probe has run its full 2 s. -/
def State.probeEnds (s : State) (z : Fin 4) (peak : Nat) : State :=
  s.onZone z fun c x => probeEnd c s.clock.secs peak x

/-- R67: a hold-off has run out. -/
def State.holdEnds (s : State) (n : Fin 6) : State := s.setStation n (s.station n).holdReached

/-- R204: a lamp's stretch has run out. -/
def State.stretchEnds (s : State) (l : Fin 4) : State := { s with lamps.stretch := s.lamps.stretch.set l 0 }

/-- R204: the next eighth of the second. -/
def State.flash (s : State) : State := { s with lamps.phase := (s.lamps.phase + 1) % 8 }

end Sys2Proof.Machine
end

