-- ==== Sys2Proof/Machine/Requests.lean ====
section
/-! DEFINITION. The host's remaining requests: the tables through their cursor (R198 to R200), the lookups (R12, R13), the bell
zones (R49, R54, R56, R57), the conditions (R202), HELLO (R203), LAMP FORCE (R204) and RESET (R209). -/

namespace Sys2Proof.Machine

/-! ## The table cursor -/

def TableCursor.bytes (c : TableCursor) : List Byte := b1 c.table.code ++ b2 c.index ++ b1 c.mode.code

/-- An index lies in a table's range. -/
def TableName.has (t : TableName) (i : Nat) : Bool := decide (t.first ≤ i) && decide (i ≤ t.last)

/-- TABLE SELECT (R198). -/
def reqTableSelect (table index mode : Nat) (s : State) : Answered :=
  match TableName.ofCode table, StepMode.ofCode mode with
  | some t, some m =>
    if t.has index then ({ s with link.cursor := ⟨t, index, m⟩ }, Reply.ok (b2 t.entries)) else s.refuse .badArg
  | _, _ => s.refuse .badArg

/-- R199: the number of entries that a read of a count returns. -/
def TableCursor.available (c : TableCursor) (count : Nat) : Nat := min count (c.table.last + 1 - c.index)

/-- R198, R199: the cursor advances, and stops at the table's last entry. -/
def TableCursor.advance (c : TableCursor) (n : Nat) : TableCursor := { c with index := min (c.index + n) c.table.last }

/-- R199: the cursor after a read. -/
def TableCursor.afterRead (c : TableCursor) (n : Nat) : TableCursor := if c.mode = .both then c.advance n else c

/-- TABLE READ (R199). -/
def reqTableRead (count : Nat) (s : State) : Answered :=
  let c := s.link.cursor
  if count = 0 ∨ c.table.perRequest < count then s.refuse .badArg
  else
    let n := c.available count
    let d := c.afterRead n
    ({ s with link.cursor := d },
      Reply.ok (b2 c.index ++ b1 n ++ (List.range n).flatMap (fun i => s.set.entryBytes c.table (c.index + i)) ++ d.bytes))

/-- What became of the entries of a TABLE WRITE (R200): whether each accepted one was clamped, the refused one, and whether
entries were left untaken at the table's end. -/
structure WriteResult where
  accepted : List Bool
  refused : Option Refused
  untaken : Bool
deriving DecidableEq, Repr

/-- R200: the entries are taken in order at the cursor, each written with its effects on running blocks before the next is checked; `done`
holds the outcomes of the entries already accepted. -/
def State.writeEntries (s : State) (done : List Bool) : List (List Byte) → State × WriteResult
  | [] => (s, ⟨done, none, false⟩)
  | e :: l =>
    let c := s.link.cursor
    match writeEntry c.table s c.index e with
    | .error r => (s, ⟨done, some r, false⟩)
    | .ok (s1, clamped) =>
      let now := done ++ [clamped]
      match c.mode with
      | .still => s1.writeEntries now l
      | _ =>
        if c.index = c.table.last then (s1, ⟨now, none, !l.isEmpty⟩)
        else State.writeEntries { s1 with link.cursor := c.advance 1 } now l

/-- The result code of a TABLE WRITE (R200). -/
def WriteResult.code (r : WriteResult) : Code :=
  match r.refused with
  | some x => x.code
  | none => if r.untaken then .badArg else if r.accepted.any id then .clamped else .ok

/-- The refused entry's outcome, with the deficit that a SHORTFALL has and no other code (R27, R211; DEDUCED, log 11). -/
def Refused.bytes (r : Refused) : List Byte := b1 r.code.byte ++ bOpt 2 b2 r.deficit

/-- The rest of a TABLE WRITE's reply: the accepted entries' outcomes, the refused one's, and the cursor. -/
def WriteResult.bytes (r : WriteResult) (c : TableCursor) : List Byte :=
  bList (fun clamped : Bool => b1 (if clamped then Code.clamped.byte else Code.ok.byte)) r.accepted ++
    bOpt 4 Refused.bytes r.refused ++ c.bytes

/-- TABLE WRITE (R200): a count byte, then that many entries of the cursor's table. -/
def reqTableWrite (body : List Byte) (s : State) : Answered :=
  match body with
  | [] => s.refuse .badArg
  | k :: rest =>
    let t := s.link.cursor.table
    match splitEntries t k.toNat rest with
    | none => s.refuse .badArg
    | some l =>
      if l.isEmpty || decide (t.perRequest < l.length) then s.refuse .badArg
      else if s.saving then s.refuse .busy
      else
        let r := s.writeEntries [] l
        (r.1, ⟨r.2.code, r.2.bytes r.1.link.cursor⟩)

/-! ## Lookups -/

/-- PUPIL FIND (R12). -/
def reqPupilFind (key value : Nat) (s : State) : Answered :=
  let found := fun x : Option Nat =>
    match x with
    | some p => s.answer (b2 p ++ b1 (s.pupil p).group)
    | none => s.refuse .notFound
  match KeyKind.ofCode key with
  | some .badge => found (s.set.badgeLookup value)
  | some .short => if 1 ≤ value ∧ value ≤ 9999 then found (s.set.shortLookup value) else s.refuse .badArg
  | _ => s.refuse .badArg

/-- SENDER FIND (R13). -/
def reqSenderFind (number : Text) (s : State) : Answered :=
  if validNumber number then
    match s.set.senderList number with
    | [] => s.refuse .notFound
    | l => s.answer (bList b2 l)
  else s.refuse .badArg

/-! ## Bell zones -/

/-- ZONE RING (R49). -/
def reqZoneRing (zone : Nat) (s : State) : Answered :=
  match fin4? zone with
  | none => s.refuse .badArg
  | some z =>
    match manualRing (s.set.zones.get z) (s.bells.get z) with
    | none => s.refuse .busy
    | some r => (({ s with bells := s.bells.set z r.1 }).raiseAll r.2, Reply.ok [])

/-- ZONE CHECK (R54). -/
def reqZoneCheck (zone : Nat) (s : State) : Answered :=
  match fin4? zone with
  | none => s.refuse .badArg
  | some z =>
    match (s.bells.get z).act with
    | .idle => ({ s with bells := s.bells.set z (startCheck (s.bells.get z)) }, Reply.just .accepted)
    | _ => s.refuse .busy

def BellEvent.bytes (e : BellEvent) : List Byte :=
  b1 (bellSourceCode e.source) ++ b1 e.kind.code ++ bMinute e.time ++ b1 e.outcome.code ++ bTime? e.ringStart ++
    bOpt 1 (fun f : FaultSeen => b1 f.code) e.fault

/-- BELL LOG (R56). -/
def reqBellLog (zone : Nat) (s : State) : Answered :=
  match fin4? zone with
  | none => s.refuse .badArg
  | some z =>
    s.answer (b1 (trackCode? (s.set.zones.get z).track) ++ bOpt 3 bDate s.plan.dayDate ++
      bList BellEvent.bytes (s.bells.get z).list)

def ZoneAct.code : ZoneAct → Nat
  | .idle => 0
  | .ringing _ => 1
  | .checking => 2

/-- What a zone sounds: a bell kind, a manual ring, a check, or none (R57; DEDUCED, log 11). -/
def ZoneAct.kind : ZoneAct → Option Nat
  | .idle => none
  | .ringing (.event _ k) => some k.code
  | .ringing (.kept k) => some k.code
  | .ringing .manual => some 4
  | .checking => some 5

/-- The outcome of the last manual ring: NONE, RUNG, FAILED (R42). -/
def manualCode : Option Bool → Nat
  | none => 0
  | some true => 1
  | some false => 2

/-- The WAITING events of a zone, those kept from a discarded list included; no rule bounds their number (R44, R47; log 46). -/
def Zone.waiting (z : Zone) : Nat := z.kept.length + (z.list.filter (·.outcome == .waiting)).length

/-- A zone as ZONE STATUS gives it (R57). The seconds remaining stand without a flag byte, and are 0 when no ring or probe is under way
(DESIGN CHOICE, log 39). The number of WAITING events, to which no rule gives a range (R44, R47, R211), goes in one byte, as its remainder by 256
(DESIGN CHOICE, log 46). -/
def Zone.bytes (z : Zone) : List Byte :=
  b1 z.act.code ++ bOpt 1 b1 z.act.kind ++ b1 z.left ++ bFlag z.manualPending ++ bFlag z.autoRequest ++ b1 z.waiting ++
    b1 z.active.code ++ b1 (checkCode z.lastCheck) ++ b1 (manualCode z.lastManual) ++ b4 z.rings ++ b4 z.failed ++
    b4 z.opens ++ b4 z.overloads ++ b4 z.checks

/-- ZONE STATUS (R57). -/
def reqZoneStatus (zone : Nat) (s : State) : Answered :=
  match fin4? zone with
  | none => s.refuse .badArg
  | some z => s.answer (s.bells.get z).bytes

/-! ## Conditions, HELLO, lamps, RESET -/

def HostLink.maskBytes (l : HostLink) : List Byte := b3 l.mask.toNat

def HostLink.setBytes (l : HostLink) : List Byte := b3 (conditionBits l)

/-- CONDITIONS (R202): the set conditions are reported, then cleared. -/
def reqConditions (s : State) : Answered :=
  ({ s with link.counts := [] }, Reply.ok (s.link.maskBytes ++ s.link.setBytes ++ conditionCounts s.link))

/-- ATTENTION MASK (R202). -/
def reqAttentionMask (set : Nat) (s : State) : Answered :=
  if set < 2 ^ 20 then
    let l : HostLink := { s.link with mask := BitVec.ofNat 20 set }
    ({ s with link := l }, Reply.ok (l.maskBytes ++ l.setBytes))
  else s.refuse .badArg

/-- The host link rate in force (R208). -/
def HostLink.rate (l : HostLink) : Nat := if l.fastRate then 115200 else 57600

/-- HELLO (R203). The conditions set and their latch counts have the form that section 12.2 gives them for CONDITIONS (DEDUCED, log 11). -/
def reqHello (s : State) : Answered :=
  let l := s.link
  s.answer (b2 0x0F24 ++ b4 l.rate ++ b1 l.cause.code ++ b1 (if l.loaded then 0 else 1) ++ b1 (saveCode s.store.lastSave) ++
    b1 s.plan.dayState.code ++ bFlag s.clock.isSet ++ l.setBytes ++ conditionCounts l ++ l.maskBytes ++ bFlag l.attn ++
    l.cursor.bytes ++ b4 l.good ++ b4 l.errors ++ b4 l.overruns ++ b4 l.strays ++ b4 l.framing)

/-- LAMP FORCE (R204): a lamp 0 to 3, or ALL, 4 (DEDUCED, log 11). -/
def reqLampForce (lamp force : Nat) (s : State) : Answered :=
  match Force.ofCode force with
  | none => s.refuse .badArg
  | some f =>
    if lamp = 4 then ({ s with lamps.force := Quad.all f }, Reply.ok [])
    else
      match fin4? lamp with
      | some l => ({ s with lamps.force := s.lamps.force.set l f }, Reply.ok [])
      | none => s.refuse .badArg

/-- RESET (R209): the reset is performed when the reply has been sent. -/
def reqReset (confirm : Nat) (s : State) : Answered :=
  if confirm = 90 then ({ s with link.resetPending := true }, Reply.ok []) else s.refuse .badArg

end Sys2Proof.Machine
end

