-- ==== Sys2Proof/Machine/Startup.lean ====
section
/-! DEFINITION. Start-up (11, sections 11.6 and 11.7): the three resets (R208, R209, and each block's own rule), the settings load
(R207, R15) and the directory read (R179). -/

namespace Sys2Proof.Machine

/-! ## Resets -/

/-- R179: the page of an erase or a program that a reset cuts off. -/
def PageOp.cut : PageOp → Option Nat
  | .erasing p => some p
  | .programming p => some p
  | _ => none

/-- R179: the page under way is left as the cut left it: its bytes are free values (DESIGN CHOICE, log 2). -/
def State.cutPage (s : State) : State :=
  match s.store.op.cut with
  | some p => s.tearPage p
  | none => s

/-- R188: a save that is cut off leaves a region without a valid check word. -/
def State.cutSave (s : State) : State := if s.saving then s.spoil Config.checkPage else s

/-- A reset of every block: each takes the state its own rule gives, the store keeps its contents, the settings load is under
way; `cause`, the rate and the Clock are the reset's own. The Clock that power-on and the reset pin set begins a second anew, and the
lamps' phase with it. -/
def State.restart (s : State) (cause : ResetCause) (fast : Bool) (clock : Clock) : State :=
  let cut := s.cutPage.cutSave
  { State.reset with
    clock := clock
    desk := Desk.initial clock.stamp
    pool := Pool.initial factoryOptions.credits clock.stamp
    store := Store.initial cut.store.mem cut.store.spoiled
    link := HostLink.initial cause fast
    free := cut.free
    pending := s.pending }

/-- R208: power-on, with the level of the rate strap. -/
def State.powerOn (s : State) (strapHigh : Bool) : State := s.restart .powerOn strapHigh Clock.initial

/-- R208: the reset pin. -/
def State.pinReset (s : State) (strapHigh : Bool) : State := s.restart .pin strapHigh Clock.initial

/-- R209, R16: the RESET request's reset: the Clock and the link rate are left as they are. The Clock counts on, and with it the
phase of its second, from which SLOW and FAST are counted (R204). -/
def State.requestReset (s : State) : State :=
  { s.restart .request s.link.fastRate s.clock with lamps.phase := s.lamps.phase }

/-! ## The settings load -/

/-- R207: a value that a write would clamp fails the load. -/
def unclamped {α : Type} (x : Option (α × Bool)) : Option α :=
  match x with
  | some (a, false) => some a
  | _ => none

/-- n entries at a stride, each read and checked. -/
def readMany {α : Type} (read : List Byte → Option α) (stride : Nat) : Nat → List Byte → Option (List α)
  | 0, _ => some []
  | n + 1, l =>
    match read (l.take stride), readMany read stride n (l.drop stride) with
    | some a, some t => some (a :: t)
    | _, _ => none

/-- The sparse table of a list of entries from an index on. -/
def Tab.ofList {α : Type} [DecidableEq α] (dflt : Nat → α) : Nat → List α → Tab α
  | _, [] => []
  | i, a :: l => if a = dflt i then Tab.ofList dflt (i + 1) l else (i, a) :: Tab.ofList dflt (i + 1) l

def quadOf {α : Type} : List α → Option (Quad α)
  | [a, b, c, d] => some ⟨a, b, c, d⟩
  | _ => none

def hexOf {α : Type} : List α → Option (Hex α)
  | [a, b, c, d, e, f] => some ⟨a, b, c, d, e, f⟩
  | _ => none

/-- R15: the in-use pupils repeat no code (R2), and no number serves more than 8 pupils (R10). -/
def Settings.consistent (x : Settings) : Bool :=
  x.pupils.all (fun e => !x.duplicates e.1 e.2) && x.contacts.all fun e => !x.overServed e.2.number

/-- The first byte of each table in the image (DESIGN CHOICE, log 10). -/
def imageAt : TableName → Nat
  | .pupils => 0
  | .contacts => 79200
  | .groups => 223200
  | .plans => 224400
  | .zones => 225872
  | .stations => 225908
  | .templates => 225950
  | .lamps => 227558
  | .options => 227570

/-- R207: the tables decoded from the image, every entry checked as a write of it would be. -/
def Settings.ofImage (l : List Byte) : Option Settings :=
  let part := fun t : TableName => l.drop (imageAt t)
  match readMany readPupil 33 Config.pupils (part .pupils), readMany readContact 20 Config.contacts (part .contacts),
    readMany readGroup 10 Config.groups (part .groups),
    readMany (fun b => unclamped (readPlan b)) 92 16 (part .plans),
    (readMany (fun b => unclamped (readZone b)) 9 4 (part .zones)).bind quadOf,
    (readMany (fun b => unclamped (readStation b)) 7 6 (part .stations)).bind hexOf,
    readMany readTemplate 201 8 (part .templates),
    (readMany (fun b => unclamped (readLamp b)) 3 4 (part .lamps)).bind quadOf,
    unclamped (readOptions (part .options)) with
  | some p, some c, some g, some pl, some z, some st, some t, some la, some o =>
    let x : Settings :=
      ⟨Tab.ofList factoryPupil 0 p, Tab.ofList factoryContact 0 c, Tab.ofList factoryGroup 0 g,
        Tab.ofList factoryPlan 0 pl, z, st, Tab.ofList factoryTemplate 0 t, la, o⟩
    if x.consistent then some x else none
  | _, _, _, _, _, _, _, _, _ => none

/-- The bytes of the 255 data pages. -/
def Memory.dataPages (m : List (Nat × Byte)) : List Byte :=
  (List.range Config.checkPage).flatMap fun p => Memory.readPage m p

/-- R207: the check page is neither blank nor known to fail, its format number and page count are this part's, and the sum over
the data pages and the check word is 0. -/
def Store.saved (x : Store) : Option (List Byte) :=
  if x.spoiled.contains Config.checkPage || Memory.blankPage x.mem Config.checkPage then none
  else
    let c := Memory.readPage x.mem Config.checkPage
    let data := Memory.dataPages x.mem
    if numAt c 0 2 = 1 ∧ byteAt c 2 = 255 ∧ (byteSum data + numAt c 1020 4) % 4294967296 = 0 then some data else none

/-- R207: the settings that the load finds, or none when it takes the factory values. -/
def Store.loadSettings (x : Store) : Option Settings := x.saved.bind Settings.ofImage

/-- R207: every table takes its values; the station lines and the pool's credits follow their settings (R60, R137). -/
def State.takeSettings (s : State) (x : Settings) : State :=
  let s1 : State := { s with set := { x with options := s.set.options } }
  let s2 := sixes.foldl (fun t n => t.setStation n ((t.station n).rewrite (s.set.stations.get n) (x.stations.get n))) s1
  s2.takeOptions x.options

/-- R207, R208: the settings load and the directory read have completed. -/
def State.loadDone (s : State) : State :=
  let found := s.store.loadSettings
  let s1 := s.takeSettings (found.getD factorySettings)
  let s2 : State := { s1 with
    store := s1.store.readDirectory
    link.loaded := found.isSome
    link.loading := false }
  let s3 := if s2.clock.isSet then s2 else s2.raise .clockUnset
  if found.isSome then s3 else s3.raise .settingsDefault

end Sys2Proof.Machine
end

