-- ==== Sys2Proof/Machine/HostLink.lean ====
section
/-! DEFINITION. The Host Link (11, sections 11.1 and 11.2): assembling frames (R193), the waiting queue (R194), taking requests and
answering them (R195); and what every command shares: the scheduler's submissions (R160) and the lamps (R204) after it. -/

namespace Sys2Proof.Machine

/-- A request answered in the event of its take. -/
def answered (r : Answered) : State × Option Reply := (r.1, some r.2)

/-- What a request does and answers; an ARCHIVE READ may wait in hand (R195, R191). -/
def handle (tag : Nat) (r : Request) (s : State) : State × Option Reply :=
  match r with
  | .hello => answered (reqHello s)
  | .conditions => answered (reqConditions s)
  | .attentionMask set => answered (reqAttentionMask set s)
  | .reset c => answered (reqReset c s)
  | .lampForce l f => answered (reqLampForce l f s)
  | .tableSelect t i m => answered (reqTableSelect t i m s)
  | .tableRead n => answered (reqTableRead n s)
  | .tableWrite l => answered (reqTableWrite l s)
  | .settingsSave => answered (reqSettingsSave s)
  | .pupilFind k v => answered (reqPupilFind k v s)
  | .senderFind n => answered (reqSenderFind n s)
  | .clockSet d t => answered (reqClockSet d t s)
  | .dayOpen d k x => answered (reqDayOpen d k x s)
  | .dayClose f => answered (reqDayClose f s)
  | .dayStatus => answered (reqDayStatus s)
  | .openingDelay t d => answered (reqOpeningDelay t d s)
  | .earlyClose t m => answered (reqEarlyClose t m s)
  | .planQuery t n => answered (reqPlanQuery t n s)
  | .zoneRing z => answered (reqZoneRing z s)
  | .zoneCheck z => answered (reqZoneCheck z s)
  | .bellLog z => answered (reqBellLog z s)
  | .zoneStatus z => answered (reqZoneStatus z s)
  | .stationResume n => answered (reqStationResume n s)
  | .stationStatus n => answered (reqStationStatus n s)
  | .deskArrival k v t => answered (reqDeskArrival k v t s)
  | .deskAnswers => answered (reqDeskAnswers s)
  | .slipReprint p ss => answered (reqSlipReprint p ss s)
  | .slipStatus => answered (reqSlipStatus s)
  | .deskStatistics c => answered (reqDeskStatistics c s)
  | .registerSubmit g ss es => answered (reqRegisterSubmit g ss es s)
  | .markSet p ss m n k t => answered (reqMarkSet p ss m n k t s)
  | .markQuery p ss => answered (reqMarkQuery p ss s)
  | .groupStatus ss g => answered (reqGroupStatus ss g s)
  | .conflictList x => answered (reqConflictList x s)
  | .conflictResolve i w => answered (reqConflictResolve i w s)
  | .advanceList x => answered (reqAdvanceList x s)
  | .advanceCancel d p ss => answered (reqAdvanceCancel d p ss s)
  | .poolStatus c => answered (reqPoolStatus c s)
  | .messageSend p ss w => answered (reqMessageSend p ss w s)
  | .messageList x => answered (reqMessageList x s)
  | .messageCancel n => answered (reqMessageCancel n s)
  | .inboundNext => answered (reqInboundNext s)
  | .gatewayStatus c => answered (reqGatewayStatus c s)
  | .archiveDirectory x => answered (reqArchiveDirectory x s)
  | .archiveRead d i n => reqArchiveRead tag d i n s
  | .storeStatus => answered (reqStoreStatus s)
  | .unknownKind _ => answered (s.refuse .unknownKind)
  | .badBody _ => answered (s.refuse .badArg)

/-- The kind that the reply answers: FEh stands for a kind that names no request (R211). -/
def Request.handKind : Request → Nat
  | .unknownKind _ => 0xFE
  | r => r.kind

/-- R195: a frame is taken as a request, in hand from now on; its reply is made in the event of the take, unless it waits. -/
def State.take (s : State) (w : Waiting) (rest : List Waiting) : State :=
  let s1 : State := { s with link.queue := rest, link.hand := some ⟨w.tag, Request.handKind w.req, false⟩ }
  match handle w.tag w.req s1 with
  | (s2, some r) => s2.giveReply r
  | (s2, none) => s2

/-- R195, R208: when no request is in hand and the settings load has completed, the head of the waiting queue is taken. -/
def State.takeNext (s : State) : State :=
  match s.link.hand, s.link.queue with
  | none, w :: rest => if s.link.loading then s else s.take w rest
  | _, _ => s

/-- R194: a good frame joins the waiting queue, or is an overrun. -/
def State.joinFrame (s : State) (w : Waiting) : State :=
  if s.link.queue.length < Config.frameQueueMax then { s with link.queue := s.link.queue ++ [w] }
  else { s with link.overruns := inc32 s.link.overruns }.raise .linkOverrun

/-- R193: a frame's assembly has ended. -/
def State.frameEnds (s : State) : State := { s with link.asm := none, link.gap := 0 }

/-- R193, R194, R195: a good frame completes. -/
def State.goodFrame (s : State) (tag : Nat) (r : Request) : State :=
  let s1 : State := { s.frameEnds with link.good := inc32 s.link.good }
  (s1.joinFrame ⟨tag, r⟩).takeNext

/-- R193: the characters of a frame after its start character: length, kind, tag, body, check. -/
def frameParse (l : List Byte) : Option (Nat × Request) :=
  match l with
  | _ :: kind :: tag :: rest =>
    if sum256 l = 0 then some (tag.toNat, decodeRequest kind.toNat rest.dropLast) else none
  | _ => none

/-- R193: the characters of a whole frame after its start character are checked. -/
def State.frameDone (s : State) (l : List Byte) : State :=
  match frameParse l with
  | some (tag, r) => s.goodFrame tag r
  | none => s.frameEnds.discardFrame

/-- The longest body of a host frame (section 11.1). -/
def bodyMax : Nat := 240

/-- R193: a length character is above 240. -/
def State.lengthError (s : State) (length : Nat) : State := if bodyMax < length then s.frameEnds.discardFrame else s

/-- R193: a character inside a frame. -/
def State.frameChar (s : State) (l : List Byte) (c : Byte) : State :=
  let m := l ++ [c]
  let length := (m.headD 0).toNat
  if bodyMax < length then s.lengthError length
  else if m.length = length + 4 then s.frameDone m
  else { s with link.asm := some m, link.gap := 0 }

/-- The start character of a host frame (section 12.2). -/
def startChar : Byte := 0xA5#8

/-- R193: a character from the host. -/
def State.hostChar (s : State) (c : Byte) : State :=
  match s.link.asm with
  | none =>
    if c = startChar then { s with link.asm := some [], link.gap := 0 }
    else { s with link.strays := inc32 s.link.strays }
  | some l => s.frameChar l c

/-- R193: a frame of a kind, tag, body and check completes. -/
def State.hostFrame (s : State) (kind tag : Nat) (body : List Byte) (check : Byte) : State :=
  if bodyMax < body.length then s.lengthError body.length
  else s.frameDone (b1 body.length ++ b1 kind ++ b1 tag ++ body ++ [check])

/-- R195: the line is free, and the frame made first among those that wait is sent. -/
def HostLink.sendNext (l : HostLink) : HostLink := { l with sending := l.out.head?, out := l.out.tail }

/-- R209: the reply to an accepted RESET is the frame being sent, so its last character performs the reset. -/
def State.resetsNow (s : State) : Bool :=
  match s.link.sending with
  | some f => !f.notice && s.link.resetPending
  | none => false

/-- R195: the last character of a reply has been sent: its request is in hand no more, and the next frame is taken. -/
def State.replySent (s : State) : State := State.takeNext { s with link := { s.link.sendNext with hand := none } }

/-- R195: the last character of a frame from the part has been sent. -/
def State.frameSent (s : State) : State :=
  match s.link.sending with
  | none => s
  | some f => if f.notice then { s with link := s.link.sendNext } else s.replySent

/-! ## After every command -/

/-- What follows every command's own effect: the scheduler submits while it can (R160; no window holds more than four), and the
lamps follow their sources over the whole command, under the entries in force after it (R204; DESIGN CHOICE, log 45). The queue of commands is the one before it. -/
def State.settle (before after : State) : State :=
  { before.followLamps (after.pump 4) with pending := before.pending }

/-- What a command answers. -/
abbrev Outcome := Host.Outcome State Fault Refusal

/-- A command's effect, with what follows it. -/
def run (s after : State) : Outcome := .next (s.settle after)

/-- A reset's effect: the lamps take their reset state (R204), and nothing is queued to submit. -/
def runReset (after : State) : Outcome := .next after

/-- A host request: its good frame completes on the link (DEDUCED, log 3). -/
def request (tag : Nat) (r : Request) (s : State) : Outcome := run s (s.goodFrame tag r)

end Sys2Proof.Machine
end

