-- ==== Sys2Proof/Machine/Events.lean ====
section
/-! DEFINITION. The meanings of the commands that are not host requests: characters and records of the lines, resets, the events of
the Clock and of the blocks' timers, and the ends of store page operations. -/

namespace Sys2Proof.Machine

/-! ## The host link -/

/-- HOST FRAME (R193): a complete host frame arrives and is checked. -/
def execHostFrame (kind tag : Nat) (body : List Byte) (check : Byte) (s : State) : Outcome :=
  run s (s.hostFrame kind tag body check)

/-- HOST FRAMING CHARACTER (R193): a character with a bad stop bit. -/
def execHostFramingCharacter (s : State) : Outcome := run s s.framingChar

/-- HOST LENGTH ERROR (R193): a length character above 240. -/
def execHostLengthError (length : Nat) (s : State) : Outcome := run s (s.lengthError length)

/-- HOST FRAME TIMEOUT (R193): a frame under assembly has been silent across two second events. -/
def execHostFrameTimeout (s : State) : Outcome := run s s.frameTimeout

/-- HOST FRAME SENT (R195, R209): the last character of an outgoing frame is sent. -/
def execHostFrameSent (s : State) : Outcome := if s.resetsNow then runReset s.requestReset else run s s.frameSent

/-- HOST CHARACTER (R193). -/
def execHostCharacter (c : Byte) (s : State) : Outcome := run s (s.hostChar c)

/-! ## Resets and the settings load -/

/-- POWER-ON RESET (R208). -/
def execPowerOnReset (strapHigh : Bool) (s : State) : Outcome := runReset (s.powerOn strapHigh)

/-- PIN RESET (R208). -/
def execPinReset (strapHigh : Bool) (s : State) : Outcome := runReset (s.pinReset strapHigh)

/-- SETTINGS LOAD DONE (R207, R208): the load and the directory read complete, and the first waiting frame is taken. -/
def execSettingsLoadDone (s : State) : Outcome :=
  if s.link.loading then run s.loadDone s.loadDone.takeNext else run s s

/-! ## The Clock -/

/-- SECOND EVENT (R16). -/
def execSecondEvent (peak : Quad Nat) (s : State) : Outcome := run s (s.second peak)

/-- MINUTE EVENT (R16). -/
def execMinuteEvent (s : State) : Outcome := run s s.minute

/-- MIDNIGHT EVENT (R17, R24). -/
def execMidnightEvent (s : State) : Outcome := run s s.midnight

/-! ## Times of day -/

/-- SEGMENT BEGIN (R31, R99). -/
def execSegmentBegin (track : Fin 4) (segment : Nat) (s : State) : Outcome := run s (s.segmentBegins track segment)

/-- DAY END (R31, R108). -/
def execDayEnd (track : Fin 4) (s : State) : Outcome := run s (s.dayEnds track)

/-- SESSION CLOSE (R99, R112). -/
def execSessionClose (track : Fin 4) (session : Session) (s : State) : Outcome := run s (s.sessionCloses track session)

/-- ALERT DUE (R107). -/
def execAlertDue (pupil : Nat) (session : Session) (s : State) : Outcome := run s (s.alertFallsDue pupil session)

/-! ## Bell zones -/

/-- BELL EVENT DUE (R47). -/
def execBellEventDue (zone : Fin 4) (source : BellSource) (s : State) : Outcome := run s (s.bellFallsDue zone source)

/-- RING END (R48, R52). -/
def execRingEnd (zone : Fin 4) (s : State) : Outcome := run s (s.ringEnds zone)

/-- OPEN FAULT (R50). -/
def execOpenFault (zone : Fin 4) (peak ms : Nat) (s : State) : Outcome := run s (s.openSensed zone peak ms)

/-- OVERLOAD (R51). -/
def execOverload (zone : Fin 4) (least ms : Nat) (s : State) : Outcome := run s (s.overSensed zone least ms)

/-- CHECK SHORT (R55). -/
def execCheckShort (zone : Fin 4) (least ms : Nat) (s : State) : Outcome := run s (s.shortSensed zone least ms)

/-- PROBE END (R55). -/
def execProbeEnd (zone : Fin 4) (peak : Nat) (s : State) : Outcome := run s (s.probeEnds zone peak)

/-! ## Station lines and the classifier -/

/-- The characters of an ARRIVAL record after its start marker (section 12.3). -/
def arrivalBytes (kind sequence : Byte) (code : Nat) (check : Byte) : List Byte :=
  [kind, sequence] ++ b4 code ++ [check]

/-- What a line does with what it receives; a disabled line ignores it (R60), and a record that is held is work for the
classifier (R76). -/
def State.onLine (s : State) (n : Fin 6) (f : State → State) : State :=
  if s.stationOn n then (f s).gainWork (.station n) else s

/-- ARRIVAL RECORD (R64 to R67). -/
def execArrivalRecord (station : Fin 6) (kind sequence : Byte) (code : Nat) (check : Byte) (s : State) : Outcome :=
  run s (s.onLine station fun t => t.arrivalComplete station (arrivalBytes kind sequence code check))

/-- STATION FRAMING ERROR (R63). -/
def execStationFramingError (station : Fin 6) (s : State) : Outcome :=
  run s (s.onLine station fun t => t.stationFraming station)

/-- R62: a record under assembly is abandoned. -/
def State.recordAbandoned (s : State) (n : Fin 6) : State :=
  match (s.station n).asm with
  | none => s
  | some _ => s.setStation n (s.station n).abandon

/-- RECORD ABANDONED (R62). -/
def execRecordAbandoned (station : Fin 6) (s : State) : Outcome :=
  run s (s.onLine station fun t => t.recordAbandoned station)

/-- STATION CHARACTER (R62). -/
def execStationCharacter (station : Fin 6) (c : Byte) (s : State) : Outcome :=
  run s (s.onLine station fun t => t.stationChar station c)

/-- HOLD-OFF (R68, R69). -/
def execHoldOff (station : Fin 6) (s : State) : Outcome := run s (s.holdEnds station)

/-- SHOW SENT (R72). -/
def execShowSent (station : Fin 6) (s : State) : Outcome :=
  run s (s.setStation station (s.station station).showSent)

/-- CLASSIFICATION COMPLETE (R76, R77). -/
def execClassificationComplete (s : State) : Outcome := run s s.completeClassification

/-! ## The Slip Line -/

/-- PRINTER READY (R92, R93). -/
def execPrinterReady (s : State) : Outcome := run s s.printerReadyReport

/-- PAPER OUT (R93). -/
def execPaperOut (s : State) : Outcome := run s s.paperOutReport

/-- SLIP RECORD SENT (R92). -/
def execSlipRecordSent (s : State) : Outcome := run s s.slipSent

/-- PRINTER STALL (R93). -/
def execPrinterStall (s : State) : Outcome := run s s.stallReached

/-! ## Messages and the gateway -/

/-- WAIT ENTRY EXPIRY (R133). -/
def execWaitEntryExpiry (position : Nat) (s : State) : Outcome := run s (s.expireWait position)

/-- READY (R158). -/
def execReady (window status : Nat) (s : State) : Outcome := run s (s.gwClear.gwTake (gwReady? window status))

/-- RESULT (R161). -/
def execResult (tag outcome : Nat) (s : State) : Outcome := run s (s.gwClear.gwTake (gwResult? tag outcome))

/-- INBOUND (R163). -/
def execInbound (sender text : Text) (s : State) : Outcome := run s (s.gwClear.gwTake (gwInbound? sender text))

/-- GATEWAY BAD RECORD (R157). -/
def execGatewayBadRecord (s : State) : Outcome := run s s.gwClear.gwBad

/-- GATEWAY RECORD ABANDONED (R157). -/
def execGatewayRecordAbandoned (s : State) : Outcome := run s s.gwAbandon

/-- GATEWAY RECORD SENT (R157). -/
def execGatewayRecordSent (s : State) : Outcome := run s s.gwSent

/-- GATEWAY CHARACTER (R157). -/
def execGatewayCharacter (c : Byte) (s : State) : Outcome := run s (s.gwChar c)

/-- LINK LOSS (R159). -/
def execLinkLoss (s : State) : Outcome := run s s.gwDown

/-- DELIVERY TIMEOUT (R161). -/
def execDeliveryTimeout (tag : Nat) (s : State) : Outcome := run s (s.timeOut tag)

/-- RETRY DELAY (R155). -/
def execRetryDelay (number : Nat) (s : State) : Outcome := run s (s.retryReached number)

/-- MESSAGE LIFETIME (R155). -/
def execMessageLifetime (number : Nat) (s : State) : Outcome := run s (s.lifeReached number)

/-! ## The store: the end of a page operation, and of the close that it ends the deferral of (R24) -/

/-- PAGE ERASE DONE (R178). -/
def execPageEraseDone (s : State) : Outcome := run s s.eraseDone

/-- BLANK CHECK DONE (R184, R188). -/
def execBlankCheckDone (blank : Bool) (s : State) : Outcome := run s (s.blankChecked blank).settleDeferred

/-- PAGE PROGRAM DONE (R178). -/
def execPageProgramDone (s : State) : Outcome := run s s.programDone

/-- PAGE VERIFY DONE (R184 to R188). -/
def execPageVerifyDone (agrees : Bool) (s : State) : Outcome := run s (s.verified agrees).settleDeferred

/-- PAGE READ DONE (R189, R191). -/
def execPageReadDone (s : State) : Outcome := run s s.readDone.settleDeferred

/-! ## Lamps -/

/-- LAMP STRETCH (R204). -/
def execLampStretch (lamp : Fin 4) (s : State) : Outcome := run s (s.stretchEnds lamp)

/-- LAMP FLASH PHASE (R204). -/
def execLampFlashPhase (s : State) : Outcome := run s s.flash

end Sys2Proof.Machine
end

