-- ==== Sys2Proof/Machine/HostRequests.lean ====
section
/-! DEFINITION. The meanings of the host request commands, one for each row: a good frame that carries the request completes on the
link (DEDUCED, log 3), and R195 takes and answers it. -/

namespace Sys2Proof.Machine

/-- HELLO (R203). -/
def execHello (tag : Nat) (s : State) : Outcome := request tag .hello s

/-- CONDITIONS (R202). -/
def execConditions (tag : Nat) (s : State) : Outcome := request tag .conditions s

/-- ATTENTION MASK (R202). -/
def execAttentionMask (tag : Nat) (set : Nat) (s : State) : Outcome := request tag (.attentionMask set) s

/-- RESET (R209). -/
def execReset (tag : Nat) (confirm : Nat) (s : State) : Outcome := request tag (.reset confirm) s

/-- LAMP FORCE (R204). -/
def execLampForce (tag : Nat) (lamp : Nat) (force : Nat) (s : State) : Outcome := request tag (.lampForce lamp force) s

/-- TABLE SELECT (R198). -/
def execTableSelect (tag : Nat) (table : Nat) (index : Nat) (mode : Nat) (s : State) : Outcome :=
  request tag (.tableSelect table index mode) s

/-- TABLE READ (R199). -/
def execTableRead (tag : Nat) (count : Nat) (s : State) : Outcome := request tag (.tableRead count) s

/-- TABLE WRITE (R200). -/
def execTableWrite (tag : Nat) (body : List Byte) (s : State) : Outcome := request tag (.tableWrite body) s

/-- SETTINGS SAVE (R206). -/
def execSettingsSave (tag : Nat) (s : State) : Outcome := request tag .settingsSave s

/-- PUPIL FIND (R12). -/
def execPupilFind (tag : Nat) (key : Nat) (value : Nat) (s : State) : Outcome := request tag (.pupilFind key value) s

/-- SENDER FIND (R13). -/
def execSenderFind (tag : Nat) (number : Text) (s : State) : Outcome := request tag (.senderFind number) s

/-- CLOCK SET (R18, R19). -/
def execClockSet (tag : Nat) (date : RawDate) (time : RawTime) (s : State) : Outcome := request tag (.clockSet date time) s

/-- DAY OPEN (R21, R22). -/
def execDayOpen (tag : Nat) (date : RawDate) (kinds : Quad Nat) (delays : Option (Quad Nat)) (s : State) : Outcome :=
  request tag (.dayOpen date kinds delays) s

/-- DAY CLOSE (R174 to R176). -/
def execDayClose (tag : Nat) (force : Nat) (s : State) : Outcome := request tag (.dayClose force) s

/-- DAY STATUS (R25). -/
def execDayStatus (tag : Nat) (s : State) : Outcome := request tag .dayStatus s

/-- OPENING DELAY (R36). -/
def execOpeningDelay (tag : Nat) (track : Nat) (delay : Nat) (s : State) : Outcome :=
  request tag (.openingDelay track delay) s

/-- EARLY CLOSE (R37, R38). -/
def execEarlyClose (tag : Nat) (track : Nat) (minutes : Nat) (s : State) : Outcome :=
  request tag (.earlyClose track minutes) s

/-- PLAN QUERY (R40). -/
def execPlanQuery (tag : Nat) (track : Nat) (trial : Option Nat) (s : State) : Outcome :=
  request tag (.planQuery track trial) s

/-- ZONE RING (R49). -/
def execZoneRing (tag : Nat) (zone : Nat) (s : State) : Outcome := request tag (.zoneRing zone) s

/-- ZONE CHECK (R54). -/
def execZoneCheck (tag : Nat) (zone : Nat) (s : State) : Outcome := request tag (.zoneCheck zone) s

/-- BELL LOG (R56). -/
def execBellLog (tag : Nat) (zone : Nat) (s : State) : Outcome := request tag (.bellLog zone) s

/-- ZONE STATUS (R57). -/
def execZoneStatus (tag : Nat) (zone : Nat) (s : State) : Outcome := request tag (.zoneStatus zone) s

/-- STATION RESUME (R71). -/
def execStationResume (tag : Nat) (station : Nat) (s : State) : Outcome := request tag (.stationResume station) s

/-- STATION STATUS (R74). -/
def execStationStatus (tag : Nat) (station : Nat) (s : State) : Outcome := request tag (.stationStatus station) s

/-- DESK ARRIVAL (R78). -/
def execDeskArrival (tag : Nat) (key : Nat) (value : Nat) (arrival : Option RawTime) (s : State) : Outcome :=
  request tag (.deskArrival key value arrival) s

/-- DESK ANSWERS (R79). -/
def execDeskAnswers (tag : Nat) (s : State) : Outcome := request tag .deskAnswers s

/-- SLIP REPRINT (R90). -/
def execSlipReprint (tag : Nat) (pupil : Nat) (session : Nat) (s : State) : Outcome :=
  request tag (.slipReprint pupil session) s

/-- SLIP STATUS (R94). -/
def execSlipStatus (tag : Nat) (s : State) : Outcome := request tag .slipStatus s

/-- DESK STATISTICS (R96). -/
def execDeskStatistics (tag : Nat) (clear : Nat) (s : State) : Outcome := request tag (.deskStatistics clear) s

/-- REGISTER SUBMIT (R110 to R113). -/
def execRegisterSubmit (tag : Nat) (group : Nat) (session : Nat) (entries : List RawEntry) (s : State) : Outcome :=
  request tag (.registerSubmit group session entries) s

/-- MARK SET (R115). -/
def execMarkSet (tag : Nat) (pupil : Nat) (session : Nat) (mark : Nat) (minutes : Nat) (lock : Nat) (arrival : Option RawTime) (s : State) : Outcome :=
  request tag (.markSet pupil session mark minutes lock arrival) s

/-- MARK QUERY (R116). -/
def execMarkQuery (tag : Nat) (pupil : Nat) (session : Nat) (s : State) : Outcome := request tag (.markQuery pupil session) s

/-- GROUP STATUS (R114). -/
def execGroupStatus (tag : Nat) (session : Nat) (group : Nat) (s : State) : Outcome :=
  request tag (.groupStatus session group) s

/-- CONFLICT LIST (R123). -/
def execConflictList (tag : Nat) (start : Nat) (s : State) : Outcome := request tag (.conflictList start) s

/-- CONFLICT RESOLVE (R124). -/
def execConflictResolve (tag : Nat) (id : Nat) (what : RawResolve) (s : State) : Outcome :=
  request tag (.conflictResolve id what) s

/-- ADVANCE LIST (R128). -/
def execAdvanceList (tag : Nat) (start : Nat) (s : State) : Outcome := request tag (.advanceList start) s

/-- ADVANCE CANCEL (R129). -/
def execAdvanceCancel (tag : Nat) (date : RawDate) (pupil : Nat) (sessions : Nat) (s : State) : Outcome :=
  request tag (.advanceCancel date pupil sessions) s

/-- POOL STATUS (R147). -/
def execPoolStatus (tag : Nat) (clear : Nat) (s : State) : Outcome := request tag (.poolStatus clear) s

/-- MESSAGE SEND (R169). -/
def execMessageSend (tag : Nat) (pupil : Nat) (session : Nat) (what : RawSend) (s : State) : Outcome :=
  request tag (.messageSend pupil session what) s

/-- MESSAGE LIST (R170). -/
def execMessageList (tag : Nat) (start : Nat) (s : State) : Outcome := request tag (.messageList start) s

/-- MESSAGE CANCEL (R171). -/
def execMessageCancel (tag : Nat) (number : Nat) (s : State) : Outcome := request tag (.messageCancel number) s

/-- INBOUND NEXT (R172). -/
def execInboundNext (tag : Nat) (s : State) : Outcome := request tag .inboundNext s

/-- GATEWAY STATUS (R173). -/
def execGatewayStatus (tag : Nat) (clear : Nat) (s : State) : Outcome := request tag (.gatewayStatus clear) s

/-- ARCHIVE DIRECTORY (R190). -/
def execArchiveDirectory (tag : Nat) (start : Nat) (s : State) : Outcome := request tag (.archiveDirectory start) s

/-- ARCHIVE READ (R191). -/
def execArchiveRead (tag : Nat) (date : RawDate) (index : Nat) (count : Nat) (s : State) : Outcome :=
  request tag (.archiveRead date index count) s

/-- STORE STATUS (R192). -/
def execStoreStatus (tag : Nat) (s : State) : Outcome := request tag .storeStatus s

/-- A request of an unknown kind (R195). -/
def execUnknownKind (tag : Nat) (kind : Nat) (s : State) : Outcome := request tag (.unknownKind kind) s

end Sys2Proof.Machine
end

