-- ==== Sys2Proof/Machine/Dispatch.lean ====
section
/-! DEFINITION. The meaning of every command: one arm per constructor of Instr. -/

namespace Sys2Proof.Machine

def exec (i : Instr) (s : State) : Host.Outcome State Fault Refusal :=
  match i with
  | .hello tag => Sys2Proof.Machine.execHello tag s
  | .conditions tag => Sys2Proof.Machine.execConditions tag s
  | .attentionMask tag set => Sys2Proof.Machine.execAttentionMask tag set s
  | .reset tag confirm => Sys2Proof.Machine.execReset tag confirm s
  | .lampForce tag lamp force => Sys2Proof.Machine.execLampForce tag lamp force s
  | .tableSelect tag table index mode => Sys2Proof.Machine.execTableSelect tag table index mode s
  | .tableRead tag count => Sys2Proof.Machine.execTableRead tag count s
  | .tableWrite tag body => Sys2Proof.Machine.execTableWrite tag body s
  | .settingsSave tag => Sys2Proof.Machine.execSettingsSave tag s
  | .pupilFind tag key value => Sys2Proof.Machine.execPupilFind tag key value s
  | .senderFind tag number => Sys2Proof.Machine.execSenderFind tag number s
  | .clockSet tag date time => Sys2Proof.Machine.execClockSet tag date time s
  | .dayOpen tag date kinds delays => Sys2Proof.Machine.execDayOpen tag date kinds delays s
  | .dayClose tag force => Sys2Proof.Machine.execDayClose tag force s
  | .dayStatus tag => Sys2Proof.Machine.execDayStatus tag s
  | .openingDelay tag track delay => Sys2Proof.Machine.execOpeningDelay tag track delay s
  | .earlyClose tag track minutes => Sys2Proof.Machine.execEarlyClose tag track minutes s
  | .planQuery tag track trial => Sys2Proof.Machine.execPlanQuery tag track trial s
  | .zoneRing tag zone => Sys2Proof.Machine.execZoneRing tag zone s
  | .zoneCheck tag zone => Sys2Proof.Machine.execZoneCheck tag zone s
  | .bellLog tag zone => Sys2Proof.Machine.execBellLog tag zone s
  | .zoneStatus tag zone => Sys2Proof.Machine.execZoneStatus tag zone s
  | .stationResume tag station => Sys2Proof.Machine.execStationResume tag station s
  | .stationStatus tag station => Sys2Proof.Machine.execStationStatus tag station s
  | .deskArrival tag key value arrival => Sys2Proof.Machine.execDeskArrival tag key value arrival s
  | .deskAnswers tag => Sys2Proof.Machine.execDeskAnswers tag s
  | .slipReprint tag pupil session => Sys2Proof.Machine.execSlipReprint tag pupil session s
  | .slipStatus tag => Sys2Proof.Machine.execSlipStatus tag s
  | .deskStatistics tag clear => Sys2Proof.Machine.execDeskStatistics tag clear s
  | .registerSubmit tag group session entries => Sys2Proof.Machine.execRegisterSubmit tag group session entries s
  | .markSet tag pupil session mark minutes lock arrival => Sys2Proof.Machine.execMarkSet tag pupil session mark minutes lock arrival s
  | .markQuery tag pupil session => Sys2Proof.Machine.execMarkQuery tag pupil session s
  | .groupStatus tag session group => Sys2Proof.Machine.execGroupStatus tag session group s
  | .conflictList tag start => Sys2Proof.Machine.execConflictList tag start s
  | .conflictResolve tag id what => Sys2Proof.Machine.execConflictResolve tag id what s
  | .advanceList tag start => Sys2Proof.Machine.execAdvanceList tag start s
  | .advanceCancel tag date pupil sessions => Sys2Proof.Machine.execAdvanceCancel tag date pupil sessions s
  | .poolStatus tag clear => Sys2Proof.Machine.execPoolStatus tag clear s
  | .messageSend tag pupil session what => Sys2Proof.Machine.execMessageSend tag pupil session what s
  | .messageList tag start => Sys2Proof.Machine.execMessageList tag start s
  | .messageCancel tag number => Sys2Proof.Machine.execMessageCancel tag number s
  | .inboundNext tag => Sys2Proof.Machine.execInboundNext tag s
  | .gatewayStatus tag clear => Sys2Proof.Machine.execGatewayStatus tag clear s
  | .archiveDirectory tag start => Sys2Proof.Machine.execArchiveDirectory tag start s
  | .archiveRead tag date index count => Sys2Proof.Machine.execArchiveRead tag date index count s
  | .storeStatus tag => Sys2Proof.Machine.execStoreStatus tag s
  | .unknownKind tag kind => Sys2Proof.Machine.execUnknownKind tag kind s
  | .hostFrame kind tag body check => Sys2Proof.Machine.execHostFrame kind tag body check s
  | .hostFramingCharacter => Sys2Proof.Machine.execHostFramingCharacter s
  | .hostLengthError length => Sys2Proof.Machine.execHostLengthError length s
  | .hostFrameTimeout => Sys2Proof.Machine.execHostFrameTimeout s
  | .hostFrameSent => Sys2Proof.Machine.execHostFrameSent s
  | .powerOnReset strapHigh => Sys2Proof.Machine.execPowerOnReset strapHigh s
  | .pinReset strapHigh => Sys2Proof.Machine.execPinReset strapHigh s
  | .settingsLoadDone => Sys2Proof.Machine.execSettingsLoadDone s
  | .secondEvent peak => Sys2Proof.Machine.execSecondEvent peak s
  | .minuteEvent => Sys2Proof.Machine.execMinuteEvent s
  | .midnightEvent => Sys2Proof.Machine.execMidnightEvent s
  | .segmentBegin track segment => Sys2Proof.Machine.execSegmentBegin track segment s
  | .dayEnd track => Sys2Proof.Machine.execDayEnd track s
  | .sessionClose track session => Sys2Proof.Machine.execSessionClose track session s
  | .alertDue pupil session => Sys2Proof.Machine.execAlertDue pupil session s
  | .bellEventDue zone source => Sys2Proof.Machine.execBellEventDue zone source s
  | .ringEnd zone => Sys2Proof.Machine.execRingEnd zone s
  | .openFault zone peak ms => Sys2Proof.Machine.execOpenFault zone peak ms s
  | .overload zone least ms => Sys2Proof.Machine.execOverload zone least ms s
  | .checkShort zone least ms => Sys2Proof.Machine.execCheckShort zone least ms s
  | .probeEnd zone peak => Sys2Proof.Machine.execProbeEnd zone peak s
  | .arrivalRecord station kind sequence code check => Sys2Proof.Machine.execArrivalRecord station kind sequence code check s
  | .stationFramingError station => Sys2Proof.Machine.execStationFramingError station s
  | .recordAbandoned station => Sys2Proof.Machine.execRecordAbandoned station s
  | .holdOff station => Sys2Proof.Machine.execHoldOff station s
  | .showSent station => Sys2Proof.Machine.execShowSent station s
  | .classificationComplete => Sys2Proof.Machine.execClassificationComplete s
  | .printerReady => Sys2Proof.Machine.execPrinterReady s
  | .paperOut => Sys2Proof.Machine.execPaperOut s
  | .slipRecordSent => Sys2Proof.Machine.execSlipRecordSent s
  | .printerStall => Sys2Proof.Machine.execPrinterStall s
  | .waitEntryExpiry position => Sys2Proof.Machine.execWaitEntryExpiry position s
  | .ready window status => Sys2Proof.Machine.execReady window status s
  | .result tag outcome => Sys2Proof.Machine.execResult tag outcome s
  | .inbound sender text => Sys2Proof.Machine.execInbound sender text s
  | .gatewayBadRecord => Sys2Proof.Machine.execGatewayBadRecord s
  | .gatewayRecordAbandoned => Sys2Proof.Machine.execGatewayRecordAbandoned s
  | .gatewayRecordSent => Sys2Proof.Machine.execGatewayRecordSent s
  | .linkLoss => Sys2Proof.Machine.execLinkLoss s
  | .deliveryTimeout tag => Sys2Proof.Machine.execDeliveryTimeout tag s
  | .retryDelay number => Sys2Proof.Machine.execRetryDelay number s
  | .messageLifetime number => Sys2Proof.Machine.execMessageLifetime number s
  | .pageEraseDone => Sys2Proof.Machine.execPageEraseDone s
  | .blankCheckDone blank => Sys2Proof.Machine.execBlankCheckDone blank s
  | .pageProgramDone => Sys2Proof.Machine.execPageProgramDone s
  | .pageVerifyDone agrees => Sys2Proof.Machine.execPageVerifyDone agrees s
  | .pageReadDone => Sys2Proof.Machine.execPageReadDone s
  | .lampStretch lamp => Sys2Proof.Machine.execLampStretch lamp s
  | .stationCharacter station c => Sys2Proof.Machine.execStationCharacter station c s
  | .hostCharacter c => Sys2Proof.Machine.execHostCharacter c s
  | .gatewayCharacter c => Sys2Proof.Machine.execGatewayCharacter c s
  | .lampFlashPhase => Sys2Proof.Machine.execLampFlashPhase s

end Sys2Proof.Machine
end

