-- ==== Sys2Proof/WellFormed.lean ====
section
/-! DEFINITION. Well-formed commands: every operand lies in the range that the field or event it stands for can hold. exec has a
meaning for ill-formed commands too; what comes over a line is always well formed. -/

namespace Sys2Proof

/-- A field of one byte. -/
def byteOk (n : Nat) : Bool := decide (n < 256)

/-- A field of two bytes. -/
def wordOk (n : Nat) : Bool := decide (n < 65536)

/-- A field of four bytes. -/
def longOk (n : Nat) : Bool := decide (n < 4294967296)

def RawDate.ok (d : RawDate) : Bool := byteOk d.day && byteOk d.month && byteOk d.year

def RawTime.ok (t : RawTime) : Bool := byteOk t.hour && byteOk t.minute && byteOk t.second

def timeOk : Option RawTime → Bool
  | none => true
  | some t => t.ok

def quadOk (q : Quad Nat) : Bool := byteOk q.q0 && byteOk q.q1 && byteOk q.q2 && byteOk q.q3

def delaysOk : Option (Quad Nat) → Bool
  | none => true
  | some q => quadOk q

def RawEntry.ok (e : RawEntry) : Bool := wordOk e.pupil && byteOk e.mark && byteOk e.minutes

def RawResolve.ok : RawResolve → Bool
  | .dismiss => true
  | .settle m n t => byteOk m && byteOk n && timeOk t

def RawSend.ok : RawSend → Bool
  | .template n => byteOk n
  | .text t => byteOk t.length

/-- The request kinds that section 12.2 names. -/
def knownKinds : List Nat :=
  [0x01, 0x02, 0x03, 0x04, 0x05, 0x08, 0x09, 0x0A, 0x0B, 0x0C, 0x0D, 0x10, 0x11, 0x12, 0x13, 0x14, 0x15, 0x16, 0x18, 0x19,
    0x1A, 0x1B, 0x20, 0x21, 0x22, 0x23, 0x24, 0x25, 0x26, 0x28, 0x29, 0x2A, 0x2B, 0x30, 0x31, 0x32, 0x33, 0x38, 0x39, 0x3A,
    0x3B, 0x3C, 0x3D, 0x40, 0x41, 0x42]

/-- The fields of a request fit their bytes. -/
def Request.fieldsOk : Request → Bool
  | .attentionMask set => decide (set < 16777216)
  | .reset c => byteOk c
  | .lampForce l f => byteOk l && byteOk f
  | .tableSelect t i m => byteOk t && wordOk i && byteOk m
  | .tableRead n => byteOk n
  | .pupilFind k v => byteOk k && longOk v
  | .senderFind t => byteOk t.length
  | .clockSet d t => d.ok && t.ok
  | .dayOpen d k x => d.ok && quadOk k && delaysOk x
  | .dayClose f => byteOk f
  | .openingDelay t d => byteOk t && byteOk d
  | .earlyClose t m => byteOk t && byteOk m
  | .planQuery t none => byteOk t
  | .planQuery t (some n) => byteOk t && byteOk n
  | .zoneRing z => byteOk z
  | .zoneCheck z => byteOk z
  | .bellLog z => byteOk z
  | .zoneStatus z => byteOk z
  | .stationResume n => byteOk n
  | .stationStatus n => byteOk n
  | .deskArrival k v t => byteOk k && longOk v && timeOk t
  | .slipReprint p ss => wordOk p && byteOk ss
  | .deskStatistics c => byteOk c
  | .registerSubmit g ss es => byteOk g && byteOk ss && es.all RawEntry.ok
  | .markSet p ss m n k t => wordOk p && byteOk ss && byteOk m && byteOk n && byteOk k && timeOk t
  | .markQuery p ss => wordOk p && byteOk ss
  | .groupStatus ss g => byteOk ss && byteOk g
  | .conflictList x => byteOk x
  | .conflictResolve i w => byteOk i && w.ok
  | .advanceList x => byteOk x
  | .advanceCancel d p ss => d.ok && wordOk p && byteOk ss
  | .poolStatus c => byteOk c
  | .messageSend p ss w => wordOk p && byteOk ss && w.ok
  | .messageList x => byteOk x
  | .messageCancel n => wordOk n
  | .gatewayStatus c => byteOk c
  | .archiveDirectory x => byteOk x
  | .archiveRead d i n => d.ok && wordOk i && byteOk n
  | .unknownKind k => byteOk k && !knownKinds.contains k
  | .badBody _ => false
  | .hello => true
  | .conditions => true
  | .tableWrite _ => true
  | .settingsSave => true
  | .dayStatus => true
  | .deskAnswers => true
  | .slipStatus => true
  | .inboundNext => true
  | .storeStatus => true

/-- A request that a frame can carry: its fields fit, and its body is no longer than 240 characters (section 11.1). -/
def Request.ok (r : Request) : Bool := r.fieldsOk && decide (r.body.length ≤ 240)

/-- The request of a host request command, with its tag. -/
def Instr.request? : Instr → Option (Nat × Request)
  | .hello tag => some (tag, .hello)
  | .conditions tag => some (tag, .conditions)
  | .attentionMask tag set => some (tag, .attentionMask set)
  | .reset tag c => some (tag, .reset c)
  | .lampForce tag l f => some (tag, .lampForce l f)
  | .tableSelect tag t i m => some (tag, .tableSelect t i m)
  | .tableRead tag n => some (tag, .tableRead n)
  | .tableWrite tag l => some (tag, .tableWrite l)
  | .settingsSave tag => some (tag, .settingsSave)
  | .pupilFind tag k v => some (tag, .pupilFind k v)
  | .senderFind tag n => some (tag, .senderFind n)
  | .clockSet tag d t => some (tag, .clockSet d t)
  | .dayOpen tag d k x => some (tag, .dayOpen d k x)
  | .dayClose tag f => some (tag, .dayClose f)
  | .dayStatus tag => some (tag, .dayStatus)
  | .openingDelay tag t d => some (tag, .openingDelay t d)
  | .earlyClose tag t m => some (tag, .earlyClose t m)
  | .planQuery tag t n => some (tag, .planQuery t n)
  | .zoneRing tag z => some (tag, .zoneRing z)
  | .zoneCheck tag z => some (tag, .zoneCheck z)
  | .bellLog tag z => some (tag, .bellLog z)
  | .zoneStatus tag z => some (tag, .zoneStatus z)
  | .stationResume tag n => some (tag, .stationResume n)
  | .stationStatus tag n => some (tag, .stationStatus n)
  | .deskArrival tag k v t => some (tag, .deskArrival k v t)
  | .deskAnswers tag => some (tag, .deskAnswers)
  | .slipReprint tag p ss => some (tag, .slipReprint p ss)
  | .slipStatus tag => some (tag, .slipStatus)
  | .deskStatistics tag c => some (tag, .deskStatistics c)
  | .registerSubmit tag g ss es => some (tag, .registerSubmit g ss es)
  | .markSet tag p ss m n k t => some (tag, .markSet p ss m n k t)
  | .markQuery tag p ss => some (tag, .markQuery p ss)
  | .groupStatus tag ss g => some (tag, .groupStatus ss g)
  | .conflictList tag x => some (tag, .conflictList x)
  | .conflictResolve tag i w => some (tag, .conflictResolve i w)
  | .advanceList tag x => some (tag, .advanceList x)
  | .advanceCancel tag d p ss => some (tag, .advanceCancel d p ss)
  | .poolStatus tag c => some (tag, .poolStatus c)
  | .messageSend tag p ss w => some (tag, .messageSend p ss w)
  | .messageList tag x => some (tag, .messageList x)
  | .messageCancel tag n => some (tag, .messageCancel n)
  | .inboundNext tag => some (tag, .inboundNext)
  | .gatewayStatus tag c => some (tag, .gatewayStatus c)
  | .archiveDirectory tag x => some (tag, .archiveDirectory x)
  | .archiveRead tag d i n => some (tag, .archiveRead d i n)
  | .storeStatus tag => some (tag, .storeStatus)
  | .unknownKind tag k => some (tag, .unknownKind k)
  | _ => none

/-- A bell event's source: segments 1 to 12, numbered from 0 (section 3.2). -/
def BellSource.ok : BellSource → Bool
  | .segment n => decide (n < 12)
  | _ => true

/-- The operands of a command that is no host request lie in the ranges of what they stand for. -/
def Instr.eventOk : Instr → Bool
  | .hostFrame kind tag body _ => byteOk kind && byteOk tag && decide (body.length ≤ 240)
  | .hostLengthError n => byteOk n && decide (240 < n)
  | .segmentBegin _ n => decide (n < 12)
  | .alertDue p _ => decide (p < Config.pupils)
  | .bellEventDue _ x => x.ok
  | .arrivalRecord _ _ _ code _ => longOk code
  | .waitEntryExpiry n => decide (n < Config.waitMax)
  | .ready w st => byteOk w && byteOk st
  | .result tag o => byteOk tag && byteOk o
  | .inbound sender text => byteOk sender.length && byteOk text.length
  | .deliveryTimeout tag => byteOk tag && decide (1 ≤ tag)
  | .retryDelay n => wordOk n && decide (1 ≤ n)
  | .messageLifetime n => wordOk n && decide (1 ≤ n)
  | _ => true

/-- A well-formed command. -/
def Instr.wellFormed (i : Instr) : Bool :=
  match i.request? with
  | some (tag, r) => byteOk tag && r.ok
  | none => i.eventOk

end Sys2Proof
end

