-- ==== Sys2Proof/Safety.lean ====
section
/-! DEFINITION. The terms in which statements are made: what a command does and answers, what an event after a command may
still change, and the bounds and forms that a run keeps. -/

namespace Sys2Proof.Machine

/-! ## What a command does and answers -/

/-- A request is taken as soon as its frame completes: none is in hand, none waits, and the settings load has completed
(R195, R208). -/
abbrev State.ready (s : State) : Prop := s.link.hand = none ∧ s.link.queue = [] ∧ s.link.loading = false

/-- The state in which a request is carried out (R193, R195): its frame has completed and is counted, and it is in hand. -/
def State.inHand (s : State) (kind tag : Nat) : State :=
  { s with
    link.asm := none
    link.gap := 0
    link.good := inc32 s.link.good
    link.queue := []
    link.hand := some ⟨tag, kind, false⟩ }

/-- The reply frame of a request: its kind plus 80h, its tag, and a body that begins with the result code (R195, R211). -/
def replyFrame (kind tag : Nat) (code : Code) (body : List Byte) : OutFrame :=
  ⟨false, kind + 0x80, tag, BitVec.ofNat 8 code.byte :: body⟩

/-- The state once the reply has been made; it is sent at once when the line is free (R195). -/
def State.withReply (s : State) (kind tag : Nat) (code : Code) (body : List Byte) : State :=
  { s with link := { s.link.send (replyFrame kind tag code body) with hand := some ⟨tag, kind, true⟩ } }

/-- The command is carried out: its next state is the state it leads to, with what follows every command (R160, R204). -/
def Does (i : Instr) (s x : State) : Prop := exec i s = .next (s.settle x)

/-- The request is carried out, by `f` on the state with the request in hand, and answered with a code and the rest of the
reply's body. -/
def Answers (i : Instr) (s : State) (kind tag : Nat) (f : State → State) (code : Code) (body : List Byte) : Prop :=
  Does i s ((f (s.inHand kind tag)).withReply kind tag code body)

/-- The request is answered with a code alone, and nothing else changes (R196). -/
def Refuses (i : Instr) (s : State) (kind tag : Nat) (code : Code) : Prop := Answers i s kind tag id code []

/-! ## A mark that a source writes -/

/-- The pupil's record takes a mark with its minutes and source, its explained flag and arrival time follow R98, the pupil's tally follows
R117, and nothing of another record but its alert is touched. -/
def State.changedMark (s t : State) (p : Nat) (ss : Session) (m : Mark) (minutes : Nat) (src : MarkSource) : Prop :=
  let late := fun k : Mark => k = .l ∨ k = .u
  let r := s.record p ss
  let w := s.tally p
  (t.record p ss).mark = m ∧ (t.record p ss).minutes = minutes ∧ (t.record p ss).source = some src ∧
    (t.record p ss).explained = (r.explained && decide (m = .l ∨ m = .u)) ∧
    (m ≠ .p → ¬ late m → (t.record p ss).arrival = none) ∧
    (∀ (q : Nat) (st : Session), (q, st) ≠ (p, ss) →
      ∃ (a : AlertState) (k : Option Stamp), t.record q st = { s.record q st with alert := a, asked := k }) ∧
    (∀ q : Nat, q ≠ p → t.tally q = s.tally q) ∧
    (¬ late r.mark → ¬ late m → t.tally p = w) ∧
    (¬ late r.mark → late m →
      (t.tally p).count = min (w.count + 1) 15 ∧ (t.tally p).minutes = min (w.minutes + minutes) 4095) ∧
    (late r.mark → ¬ late m → t.tally p = { w with count := w.count - 1, minutes := w.minutes - r.minutes }) ∧
    (late r.mark → late m → t.tally p = { w with minutes := min (w.minutes - r.minutes + minutes) 4095 })

/-- A source other than the office writes a mark: the lock and the expected-late flag stay. -/
def State.tookMark (s t : State) (p : Nat) (ss : Session) (m : Mark) (minutes : Nat) (src : MarkSource) : Prop :=
  s.changedMark t p ss m minutes src ∧ (t.record p ss).locked = (s.record p ss).locked ∧
    (t.record p ss).expected = (s.record p ss).expected

/-! ## A second event -/

/-- What a second event counts (R47, R62, R68, R93, R95, R155, R161, R204): `u` is the state once `s` has counted it, and `clock` the Clock then;
`quiet` is what else must hold where an alert that falls due in the event could touch what a clause speaks of. -/
def State.secondCounted (s u : State) (peak : Quad Nat) (clock : Clock) (quiet : Prop) : Prop :=
  let now := clock.secs
  let up := fun n k : Nat => min (n + k) 4294967295
  let sampled := fun (q : QueueStat) (n : Nat) =>
    (⟨up q.occupancy n, if 0 < n then up q.notEmpty 1 else q.notEmpty, q.taken⟩ : QueueStat)
  let clear := fun d : Display => (⟨d, none, false, [], 0⟩ : Show)
  let ticked := fun m : Message => match m.body with
    | .report _ => m
    | .out o => { m with body := .out { o with
        life := o.life.map (· - 1)
        state := match o.state with
          | .queued => .queued
          | .sending tag left => .sending tag (left - 1)
          | .waitRetry left => .waitRetry (left - 1) } }
  let steady := fun m : Message => ∀ o : Outbound, m.body = .out o → o.life ≠ some 0 ∧ o.life ≠ some 1 ∧
    (∀ k : Nat, o.state = .waitRetry k → 2 ≤ k) ∧ ∀ tag k : Nat, o.state = .sending tag k → 2 ≤ k
  let linkStays := s.gw.up = true → s.gw.since + 1 < 60
  u.clock = clock ∧
  (∀ l : Fin 4, u.lamps.stretch.get l = s.lamps.stretch.get l - 1) ∧ u.lamps.phase = 0 ∧ u.lamps.force = s.lamps.force ∧
  (∀ z : Fin 4,
    let x := s.bells.get z
    let c := s.set.zones.get z
    (x.act = .idle → u.bells.get z = x) ∧
      (x.act ≠ .idle → 2 ≤ x.left → u.bells.get z = { x with left := x.left - 1 }) ∧
      (∀ what : RingWhat, x.act = .ringing what → x.left ≤ 1 → u.bells.get z = endRing c now x) ∧
      (x.act = .checking → x.left ≤ 1 → u.bells.get z = (probeEnd c now (peak.get z) x).1)) ∧
  (∀ n : Fin 6,
    let x := s.stations.get n
    let y := u.stations.get n
    ((s.set.stations.get n).enabled = false → y = x) ∧
      ((s.set.stations.get n).enabled = true →
        (x.asm = none → x.holdOff = 0 → y = x) ∧
        (x.asm ≠ none → x.gap = 0 → x.holdOff = 0 → y = { x with gap := 1 }) ∧
        (x.asm ≠ none → 1 ≤ x.gap → x.holdOff = 0 →
          y = Station.show { x with asm := none, gap := 0, cnt.abandoned := up x.cnt.abandoned 1 }
            (clear (if x.held then .wait else .retry))) ∧
        (x.asm = none → 2 ≤ x.holdOff → y = { x with holdOff := x.holdOff - 1 }) ∧
        (x.asm = none → x.holdOff = 1 → x.queue ≠ [] → y = { x with holdOff := 0 }) ∧
        (x.asm = none → x.holdOff = 1 → x.queue = [] → x.held = true →
          y = Station.show { x with holdOff := 0, held := false } (clear .ready)))) ∧
  ((s.link.asm = none → u.link.asm = none ∧ u.link.errors = s.link.errors) ∧
    (s.link.asm ≠ none → s.link.gap = 0 → u.link.asm = s.link.asm ∧ u.link.gap = 1 ∧ u.link.errors = s.link.errors) ∧
    (s.link.asm ≠ none → 1 ≤ s.link.gap → u.link.asm = none ∧ u.link.errors = up s.link.errors 1)) ∧
  ((s.gw.asm = none → u.gw.asm = none ∧ u.gw.stats.badRecords = s.gw.stats.badRecords) ∧
    (s.gw.asm ≠ none → s.gw.gap = 0 →
      u.gw.asm = s.gw.asm ∧ u.gw.gap = 1 ∧ u.gw.stats.badRecords = s.gw.stats.badRecords) ∧
    (s.gw.asm ≠ none → 1 ≤ s.gw.gap → u.gw.asm = none ∧ u.gw.stats.badRecords = up s.gw.stats.badRecords 1)) ∧
  (s.slips.slot ≠ none →
    let counts := (s.slips.state = .waiting ∧ s.slips.ready = false) ∨ s.slips.state = .printing
    (counts → s.slips.stall < 19 → u.slips.state = s.slips.state ∧ u.slips.stall = s.slips.stall + 1) ∧
      (counts → 19 ≤ s.slips.stall → u.slips.state = .stalled ∧ u.slips.stalls = up s.slips.stalls 1 ∧
        u.link.isSet .printerStall = true) ∧
      (¬ counts → u.slips.state = s.slips.state ∧ u.slips.stall = s.slips.stall)) ∧
  ((∀ n : Fin 6,
      u.desk.stats.stations.get n = sampled (s.desk.stats.stations.get n) (s.stations.get n).queue.length) ∧
    u.desk.stats.office = sampled s.desk.stats.office s.desk.office.length ∧
    u.desk.stats.slip.occupancy = up s.desk.stats.slip.occupancy s.slips.queue.length ∧
    u.desk.stats.slip.notEmpty = if s.slips.queue = [] then s.desk.stats.slip.notEmpty else up s.desk.stats.slip.notEmpty 1) ∧
  ((∀ m ∈ s.pool.msgs, steady m) → linkStays → quiet →
    u.pool.msgs = s.pool.msgs.map ticked ∧ u.sched = s.sched ∧ u.reg = s.reg ∧ u.gw.up = s.gw.up ∧
      u.gw.since = (if s.gw.up then s.gw.since + 1 else s.gw.since) ∧
      u.recon.waits = (s.recon.waits.filter fun e => decide (2 ≤ e.life)).map (fun e => { e with life := e.life - 1 }) ∧
      ((∀ e ∈ s.recon.waits, 2 ≤ e.life) → u.recon.waitCnt = s.recon.waitCnt) ∧
      ((∃ e ∈ s.recon.waits, e.life ≤ 1) → u.recon.waitCnt.expired =
        up s.recon.waitCnt.expired (s.recon.waits.filter fun e => decide (e.life ≤ 1)).length)) ∧
  (∀ (n : Nat) (m : Message) (o : Outbound), s.message n = some m → m.body = .out o →
    (∀ x ∈ s.pool.msgs, x.number = n → x = m) → (∀ x ∈ s.pool.msgs, x.number ≠ n → steady x) → linkStays → quiet →
    let put := fun y : Outbound =>
      s.pool.msgs.map fun x : Message => if x.number = n then { x with body := .out y } else ticked x
    let live := o.life ≠ some 0 ∧ o.life ≠ some 1
    (∀ k : Nat, o.life = some 1 → o.state = .queued → m.cls = .notice → m.storage = .shared k → s.dueKeys = [] →
      s.recon.waits = [] →
      u.pool.msgs = (s.pool.msgs.filter fun x => x.number != n).map ticked ∧ u.pool.freeDesc = s.pool.freeDesc + 1 ∧
        u.gw.stats.notice.expired = up s.gw.stats.notice.expired 1 ∧
        u.gw.stats.notice.undelivered = up s.gw.stats.notice.undelivered 1) ∧
      (live → o.state = .waitRetry 1 → m.cls = .notice →
        u.pool.msgs = put { o with life := o.life.map (· - 1), state := .queued } ∧
          u.sched.noticeQ = s.sched.noticeQ ++ [n]) ∧
      (∀ (tag : Nat) (a b : List Submission), live → o.state = .sending tag 1 → m.kind ≠ .absenceAlert →
        s.sched.out = a ++ ⟨tag, n⟩ :: b → (∀ x ∈ a ++ b, x.tag ≠ tag ∧ x.number ≠ n) →
        o.cursor.attempts + 1 < s.set.options.fallback →
        u.pool.msgs = put { o with
            life := o.life.map (· - 1)
            cursor.attempts := o.cursor.attempts + 1
            state := .waitRetry s.set.options.retry } ∧
          u.sched.out = a ++ b ∧ u.gw.stats.timeouts = up s.gw.stats.timeouts 1)) ∧
  (s.gw.up = true → 59 ≤ s.gw.since →
    u.gw.up = false ∧ u.gw.window = none ∧ u.gw.since = 60 ∧ u.gw.stats.downs = up s.gw.stats.downs 1 ∧
      u.link.isSet .gatewayDown = true ∧ u.sched.out = [])

/-! ## The tracks, the sessions and the pool's work -/

/-- What pool work leaves alone: the Clock, the settings, the day's plan, the bells, the stations, the store, the lamps, the session and
group states, the tallies, the conflicts, the link apart from its latched conditions, and the gateway apart from its statistics. -/
def State.poolLeaves (a b : State) : Prop :=
  (b.clock = a.clock ∧ b.set = a.set ∧ b.plan = a.plan ∧ b.bells = a.bells ∧ b.stations = a.stations) ∧
    (b.store = a.store ∧ b.lamps = a.lamps ∧ b.free = a.free ∧ b.pending = a.pending) ∧
    (b.reg.sess = a.reg.sess ∧ b.reg.status = a.reg.status ∧ b.reg.tallies = a.reg.tallies) ∧
    (b.recon.conflicts = a.recon.conflicts ∧ b.recon.nextId = a.recon.nextId ∧
      b.recon.conflictCnt = a.recon.conflictCnt ∧ b.recon.advance = a.recon.advance ∧ b.recon.advCnt = a.recon.advCnt) ∧
    (b.sched.out = a.sched.out ∧ b.sched.nextTag = a.sched.nextTag ∧ b.sched.released = a.sched.released ∧
      b.sched.kept = a.sched.kept) ∧
    { b.link with counts := a.link.counts } = a.link ∧ { b.gw with stats := a.gw.stats } = a.gw

/-- R31, R99, R106, R108, R112: how the sessions, the group statuses and the session records of a running day follow the time of `s`; `u` is
the state once they have. What an alert that is HELD, WITHHELD or DUE in `s` becomes is said only where the closes and a track's end settle it. -/
def State.followed (s u : State) : Prop :=
  let closes := fun (i : Fin 4) (ss : Session) (m : Nat) => ∃ p : PlanIF, (s.plan.tracks.get i).plan = some p ∧
    sessionClose p (s.plan.tracks.get i).delay ss = some m ∧ m * 60 ≤ s.clock.secs
  let closing := fun (i : Fin 4) (ss : Session) (m : Nat) => closes i ss m ∧ s.session i ss ≠ none ∧
    s.session i ss ≠ some .closed
  let started := fun r : Rec => (r.alert = .due ∨ r.alert = .queued ∨ r.alert = .undelivered) ∧ r.due = none
  (∀ (i : Fin 4) (ss : Session),
    let begun := ∃ (v : PlanIF) (g : SegIF), (u.plan.tracks.get i).plan = some v ∧ g ∈ v.segs ∧ g.seg.point = some ss ∧
      g.begun = true
    ((∃ m : Nat, closes i ss m) → s.session i ss ≠ none → u.session i ss = some .closed) ∧
      ((∀ m : Nat, ¬ closes i ss m) →
        (s.session i ss = some .before → begun → u.session i ss = some .opened) ∧
          (s.session i ss ≠ some .before ∨ ¬ begun → u.session i ss = s.session i ss)) ∧
      (s.session i ss = none → u.session i ss = none)) ∧
    (Tab.wf factoryPupil s.set.pupils = true → Tab.wf clearedAt s.reg.recs = true →
      (∀ (g : Nat) (ss : Session), g < 120 →
        let i := (s.group g).track
        let was := s.groupStatus g ss
        (∀ m : Nat, closing i ss m → s.members g = [] → u.groupStatus g ss = .empty) ∧
          (∀ m : Nat, closing i ss m → s.members g ≠ [] → was = .awaited →
            u.groupStatus g ss = .missing ∧ u.link.isSet .registerMissing = true) ∧
          (∀ m : Nat, closing i ss m → s.members g ≠ [] → was ≠ .awaited → u.groupStatus g ss = was) ∧
          ((∀ m : Nat, ¬ closing i ss m) → u.groupStatus g ss = was)) ∧
        ∀ (p : Nat) (ss : Session),
          let i := s.trackOf p
          let r := s.record p ss
          let v := u.record p ss
          let marked := (s.pupil p).inUse = true ∧ (s.pupil p).group < 120 ∧
            s.groupStatus (s.pupil p).group ss = .submitted ∧ r.locked = false ∧ (r.mark = .nothing ∨ r.mark = .x)
          (∀ m : Nat, closing i ss m → marked →
            let due := min (m * 60 + s.set.options.alertDelay * 60) 86399
            v.mark = .n ∧ v.minutes = 0 ∧ v.source = some .close ∧ v.locked = false ∧
              (r.alert = .noAlert → r.expected = false → s.clock.secs < due → v.alert = .held ∧ v.due = some due) ∧
              (r.alert = .noAlert → r.expected = false → due ≤ s.clock.secs → started v) ∧
              (r.alert = .noAlert → r.expected = true → (u.plan.tracks.get i).state ≠ .ended → v.alert = .withheld) ∧
              (r.alert = .noAlert → r.expected = true → (u.plan.tracks.get i).state = .ended → started v)) ∧
            ((∀ m : Nat, ¬ closing i ss m) ∨ ¬ marked →
              v.mark = r.mark ∧ v.minutes = r.minutes ∧ v.source = r.source ∧ v.locked = r.locked ∧
                (r.alert ≠ .held → r.alert ≠ .withheld → r.alert ≠ .due → v = r)) ∧
            ((s.plan.tracks.get i).state ≠ .ended → (u.plan.tracks.get i).state = .ended → r.alert = .withheld → v.mark = .n →
              started v))

/-! ## What follows a command -/

/-- What the scheduler's submissions and the lamps leave alone (R160, R204). -/
def State.settledFrame (a b : State) : Prop :=
  b.clock = a.clock ∧ b.set = a.set ∧ b.plan = a.plan ∧ b.bells = a.bells ∧ b.stations = a.stations ∧ b.desk = a.desk ∧
    b.slips = a.slips ∧ b.recon = a.recon ∧ b.store = a.store ∧ b.link = a.link ∧ b.free = a.free

/-! ## Invariants -/

/-- The pool's counts balance (R135, R137), its numbers are distinct and its next number is free (R136). -/
def State.poolBalances (s : State) : Prop :=
  let shared := fun m : Message => match m.storage with
    | .shared k => k
    | .reserve _ => 0
  let area := fun m : Message => match m.storage with
    | .shared _ => none
    | .reserve a => some a
  s.pool.freeDesc + (s.pool.msgs.filter fun m => !m.onReserve).length = 48 ∧
    s.pool.freeSegs + (s.pool.msgs.map shared).sum = 96 ∧
    (∀ c : MsgClass, s.pool.credits.get c =
      s.set.options.credits.get c - (s.pool.msgs.filter fun m => m.cls == c && m.onReserve).length) ∧
    (s.pool.msgs.filterMap area).Nodup ∧ (∀ a ∈ s.pool.msgs.filterMap area, a < 16) ∧
    (s.pool.msgs.map (·.number)).Nodup ∧ ∀ m ∈ s.pool.msgs, m.number ≠ s.pool.nextNum

/-- The submissions awaiting a result stay under the window while the link is UP, and there is none while it is DOWN (R160). -/
def State.windowHolds (s : State) : Prop :=
  (s.gw.up = true → ∃ w : Window, s.gw.window = some w ∧ 1 ≤ w.size ∧ w.size ≤ 4 ∧ s.sched.out.length ≤ w.size) ∧
    (s.gw.up = false → s.sched.out = [])

/-- No ABSENCE ALERT stands in the notice wait list, which takes NOTICE and RECEIPT requests (R132). -/
def State.waitsHold (s : State) : Prop := ∀ e ∈ s.recon.waits, e.kind ≠ .absenceAlert

/-- R2: no two pupils in use share a short code, or a badge code other than 0. -/
def Settings.codesDiffer (x : Settings) : Prop :=
  ∀ p q : Nat, p ≠ q →
    let a := Tab.get factoryPupil x.pupils p
    let b := Tab.get factoryPupil x.pupils q
    a.inUse = true → b.inUse = true → a.short ≠ b.short ∧ (a.badge ≠ 0 → a.badge ≠ b.badge)

/-- R10: no number serves more than 8 pupils. -/
def Settings.sendersBounded (x : Settings) : Prop := ∀ number : Text, (x.senderList number).length ≤ 8

/-- The sparse settings tables are in their canonical form. -/
def Settings.canonical (x : Settings) : Prop :=
  Tab.wf factoryPupil x.pupils = true ∧ Tab.wf factoryContact x.contacts = true ∧ Tab.wf factoryGroup x.groups = true ∧
    Tab.wf factoryPlan x.plans = true ∧ Tab.wf factoryTemplate x.templates = true

/-- The tables are in their canonical form, the pupils' codes differ (R2), and no number serves more than 8 pupils (R10). -/
def State.tablesHold (s : State) : Prop :=
  s.set.canonical ∧ s.set.codesDiffer ∧ s.set.sendersBounded ∧
    Tab.wf clearedAt s.reg.recs = true ∧ Tab.wf awaitedAt s.reg.status = true ∧ Tab.wf zeroTally s.reg.tallies = true ∧
    ∀ (l : List PageRead) (acc : Tab Tally), s.store.job = .rebuild l acc → Tab.wf zeroTally acc = true

/-- A plan in force under a delay and an early close (R29): no length lies outside its minimum and its nominal length, and the
lengths sum to the nominal day less both. -/
def PlanIF.within (p : PlanIF) (delay early : Nat) : Prop :=
  (∀ g ∈ p.segs, g.seg.minimum ≤ g.len ∧ g.len ≤ g.seg.nominal) ∧
    (p.segs.map (·.len)).sum + delay + early = (p.segs.map (·.seg.nominal)).sum

/-- The stored plans' minimums lie within their nominal lengths (section 2.3), and every track's plan in force keeps R29. -/
def State.plansHold (s : State) : Prop :=
  (∀ e ∈ s.set.plans, ∀ g ∈ e.2.segs, g.minimum ≤ g.nominal) ∧
    ∀ (i : Fin 4) (p : PlanIF), (s.plan.tracks.get i).plan = some p →
      p.within (s.plan.tracks.get i).delay (s.plan.tracks.get i).early

/-! ## Resets -/

/-- What the reset rules of the blocks give every reset (R20, R42, R61, R75, R94, R96, R97, R99, R114, R117, R120, R126, R132, R146, R148,
R157, R179, R198, R201, R203, R204, R208), block by block: `t` is the state after it, `cause` its cause, `fast` the link rate it leaves. The
free credits equal the settings in force, the factory ones until the settings load has ended (log 7). -/
def State.afterReset (t : State) (cause : ResetCause) (fast : Bool) : Prop :=
  let now : Stamp := ⟨t.clock.date, t.clock.secs⟩
  (t.link.asm = none ∧ t.link.queue = [] ∧ t.link.hand = none ∧ t.link.sending = none ∧ t.link.out = [] ∧
    t.link.counts = [] ∧ t.link.mask = BitVec.allOnes 20 ∧ t.link.cursor = ⟨.pupils, 0, .still⟩ ∧ t.link.good = 0 ∧
    t.link.errors = 0 ∧ t.link.overruns = 0 ∧ t.link.strays = 0 ∧ t.link.framing = 0 ∧ t.link.cause = cause ∧
    t.link.fastRate = fast ∧ t.link.loading = true ∧ t.link.resetPending = false) ∧
  (t.lamps.force = Quad.all .free ∧ t.lamps.stretch = Quad.all 0) ∧
  (t.plan.dayState = .closed ∧ t.plan.dayDate = none ∧ t.plan.deferredClose = false ∧
    ∀ i : Fin 4, t.plan.tracks.get i = ⟨.ended, none, 0, 0, none⟩) ∧
  (∀ z : Fin 4,
    let x := t.bells.get z
    x.act = .idle ∧ x.list = [] ∧ x.kept = [] ∧ x.manualPending = false ∧ x.autoRequest = false ∧ x.active = .clear ∧
      x.lastCheck = none ∧ x.lastManual = none ∧ x.rings = 0 ∧ x.failed = 0 ∧ x.opens = 0 ∧ x.overloads = 0 ∧ x.checks = 0) ∧
  (∀ n : Fin 6, t.stations.get n = ⟨false, none, 0, [], 0, [], none, ⟨0, 0, 0, 0, 0, 0, 0, 0, 0, 0, 0⟩⟩) ∧
  t.desk = ⟨none, 7, [], 1, [], DeskStats.cleared now⟩ ∧
  t.slips = ⟨[], 1, none, .empty, false, false, 0, 0, 0, 0, 0, 0⟩ ∧
  ((∀ (p : Nat) (ss : Session), t.record p ss = Rec.cleared) ∧ (∀ p : Nat, t.tally p = ⟨0, 0, false⟩) ∧
    (∀ (i : Fin 4) (ss : Session), t.session i ss = none) ∧ ∀ (g : Nat) (ss : Session), t.groupStatus g ss = .awaited) ∧
  t.recon = ⟨[], 1, ⟨0, 0, 0, 0, 0⟩, [], ⟨0, 0, 0, 0, 0, 0, 0⟩, [], ⟨0, 0, 0, 0, 0⟩⟩ ∧
  (t.pool.msgs = [] ∧ t.pool.freeDesc = 48 ∧ t.pool.freeSegs = 96 ∧ t.pool.credits = t.set.options.credits ∧ t.pool.nextNum = 1 ∧
    t.pool.stats = ⟨0, ⟨0, 0, 0, 0⟩, ⟨0, 0, 0, 0⟩, 0, now⟩) ∧
  t.sched = ⟨[], [], [], [], 1, [], []⟩ ∧
  (t.gw.up = false ∧ t.gw.window = none ∧ t.gw.asm = none ∧ t.gw.sending = none ∧ t.gw.outQ = [] ∧
    t.gw.stats = ⟨0, 0, 0, 0, 0, 0, 0, 0, 0, 0, 0, 0, 0, 0, ⟨0, 0, 0, 0, 0⟩, ⟨0, 0, 0, 0, 0⟩, ⟨0, 0, 0, 0, 0⟩⟩) ∧
  t.store.job = .idle ∧ t.store.op = .idle ∧ t.store.recBuf = [] ∧ t.store.pageBuf = [] ∧ t.store.spanned = 0 ∧
    t.store.done = 0 ∧ t.store.lastCommit = none ∧ t.store.lastSave = none ∧ t.store.waitingRead = none ∧
    t.store.pendingJob = none

/-- The store keeps its bytes through a reset, but for the page that an erase or a program was cut off on (R179). -/
def State.storeKept (s t : State) : Prop :=
  ∀ a : Nat, (∀ p : Nat, s.store.op = .erasing p ∨ s.store.op = .programming p →
      a < pageAddr p ∨ pageAddr p + Config.pageBytes ≤ a) →
    Memory.read t.store.mem a = Memory.read s.store.mem a

end Sys2Proof.Machine
end

