-- ==== Sys2Proof/Certificates/Slice0/Obligations.lean ====
section
/-! DEFINITION. The statements about the FOC-24, for the provers; each docstring names the rules it rests on. -/

section

open Sys2Proof Sys2Proof.Machine

/-! ## The queue of commands (log 1) and what follows every command -/

/-- A step runs the command at the front of the queue over the queue's rest (log 1: the model's own).
With no command waiting the part idles (log 1: the model's own). -/
def Obligations.StepTakesTheFrontCommand : Prop :=
  (∀ (c : Instr) (rest : List Instr) (s : State),
      s.pending = c :: rest → step s = exec c { s with pending := rest }) ∧
    (∀ s : State, s.pending = [] → step s = .next s)

/-- Every command answers a next state: that none faults or is refused is the model's reading of the spec (log 30, DEDUCED). The queue of
commands, the model's own (log 1), is as it was. -/
def Obligations.EveryCommandAnswersNext : Prop :=
  ∀ (c : Instr) (s : State), ∃ t : State, exec c s = .next t ∧ t.pending = s.pending

/-- What follows every command: submissions to the gateway (R160) and the lamps' stretches (R204), and nothing else. A
session record keeps everything but its alert state, which only becomes SENDING. Nothing is submitted while the link is DOWN, the status is
PAUSED, the outstanding submissions fill the window or no message is QUEUED; with room for one, the head of the ALERT queue, or failing that
of the NOTICE queue, or failing that of the RECEIPT queue is submitted under the next tag. -/
def Obligations.WhatFollowsEveryCommand : Prop :=
  (∀ (a b : State),
      State.settledFrame b (a.settle b) ∧ (a.settle b).pending = a.pending ∧
        (a.settle b).lamps.force = b.lamps.force ∧ (a.settle b).lamps.phase = b.lamps.phase ∧
        (a.settle b).reg.sess = b.reg.sess ∧ (a.settle b).reg.status = b.reg.status ∧
        (a.settle b).reg.tallies = b.reg.tallies ∧
        (a.settle b).pool.freeDesc = b.pool.freeDesc ∧ (a.settle b).pool.freeSegs = b.pool.freeSegs ∧
        (a.settle b).pool.credits = b.pool.credits ∧ (a.settle b).pool.stats = b.pool.stats ∧
        (a.settle b).pool.nextNum = b.pool.nextNum ∧ (a.settle b).sched.kept = b.sched.kept ∧
        (a.settle b).sched.released = b.sched.released ∧
        (a.settle b).gw.up = b.gw.up ∧ (a.settle b).gw.window = b.gw.window ∧ (a.settle b).gw.since = b.gw.since ∧
        ∀ (p : Nat) (ss : Session),
          (a.settle b).record p ss = b.record p ss ∨
            (a.settle b).record p ss = { b.record p ss with alert := .sending }) ∧
    (∀ a b : State,
      b.gw.up = false ∨ (∀ w : Window, b.gw.window = some w → w.accepting = false ∨ w.size ≤ b.sched.out.length) ∨
        (b.sched.alertQ = [] ∧ b.sched.noticeQ = [] ∧ b.sched.receiptQ = []) →
      (a.settle b).sched = b.sched ∧ (a.settle b).gw = b.gw ∧ (a.settle b).pool = b.pool ∧ (a.settle b).reg = b.reg) ∧
    ∀ (a b : State) (n : Nat) (m : Message) (o : Outbound) (r : Recipient), b.gw.up = true →
      b.gw.window = some ⟨b.sched.out.length + 1, true⟩ → b.message n = some m → m.body = .out o →
      o.recipients[o.cursor.recipient]? = some r →
      let q := b.sched
      (m.cls = .alert ∧ q.alertQ.head? = some n) ∨ (m.cls = .notice ∧ q.alertQ = [] ∧ q.noticeQ.head? = some n) ∨
        (m.cls = .receipt ∧ q.alertQ = [] ∧ q.noticeQ = [] ∧ q.receiptQ.head? = some n) →
      let t := a.settle b
      let channel := if o.cursor.second then r.second.getD r.first else r.first
      let sent : GwRecord := .submit q.nextTag channel r.number m.text
      t.sched.out = q.out ++ [⟨q.nextTag, n⟩] ∧ n ∉ t.sched.queue m.cls ∧
        t.message n = some { m with body := .out { o with state := .sending q.nextTag b.set.options.timeout } } ∧
        t.gw.stats.submissions = min (b.gw.stats.submissions + 1) 4294967295 ∧
        (b.gw.sending = none → t.gw.sending = some sent ∧ t.gw.outQ = b.gw.outQ) ∧
        (b.gw.sending ≠ none → t.gw.sending = b.gw.sending ∧ t.gw.outQ = b.gw.outQ ++ [sent]) ∧
        (∀ (p : Nat) (ss : Session), m.kind = .absenceAlert → o.subject = .pupil p ss → o.detached = false →
          (t.record p ss).alert = .sending) ∧
        (q.out.length ≤ 3 → t.sched.nextTag ∉ t.sched.out.map (·.tag) ∧ 1 ≤ t.sched.nextTag)

/-! ## Frames (11.1, 12.2) -/

/-- Reading the body of every request that a frame can carry gives the request back. Where section 12.2 gives a body no layout, its places are
read out of R211 (log 11, DEDUCED). -/
def Obligations.RequestsRoundTrip : Prop :=
  ∀ r : Request, r.ok = true → decodeRequest r.kind r.body = r

/-- The characters of a request's frame, received one after the other with no frame under assembly, complete as the good frame of
that request under its tag.
HOST FRAME with a check that agrees is the request its kind and body carry: that a request row stands for the arrival of its good frame is
the model's reading (log 3, DEDUCED), and so is that a frame under assembly at a whole-frame row is given up uncounted (log 20, DEDUCED).
With any other check character the frame is discarded. -/
def Obligations.FramesCarryTheirRequests : Prop :=
  (∀ (s : State) (tag : Nat) (r : Request), s.link.asm = none → tag < 256 → r.ok = true →
      (encodeFrame tag r).foldl State.hostChar s = s.goodFrame tag r) ∧
    (∀ (c : Instr) (s : State) (tag : Nat) (r : Request), c.request? = some (tag, r) → c.wellFormed = true →
      let part := b1 r.body.length ++ b1 r.kind ++ b1 tag ++ r.body
      (∀ check : Byte, sum256 (part ++ [check]) = 0 → exec (.hostFrame r.kind tag r.body check) s = exec c s) ∧
        ∀ check : Byte, sum256 (part ++ [check]) ≠ 0 →
          Does (.hostFrame r.kind tag r.body check) s { s with link := s.link.discard })

/-- R193: a character with a bad stop bit is counted, and discards a frame under assembly; a length character above 240 and a
silence discard the frame; the row for a silence takes it as run (log 4, DESIGN CHOICE).
R193, R195: a discarded frame counts as a frame error and ends the assembly. A frame-error notice of kind FFh, tag 0 and an empty
body is made unless one waits unsent; it goes out at once when the line is free. -/
def Obligations.HostFrameErrorsDiscard : Prop :=
  ((∀ s : State, s.link.asm = none →
        Does .hostFramingCharacter s { s with link.framing := min (s.link.framing + 1) 4294967295 }) ∧
      (∀ (s : State) (l : List Byte), s.link.asm = some l →
        Does .hostFramingCharacter s
          { s with link := HostLink.discard { s.link with framing := min (s.link.framing + 1) 4294967295 } }) ∧
      (∀ (s : State) (n : Nat), 240 < n → Does (.hostLengthError n) s { s with link := s.link.discard }) ∧
      (∀ (s : State) (l : List Byte), s.link.asm = some l → Does .hostFrameTimeout s { s with link := s.link.discard })) ∧
    (∀ l : HostLink,
      let ended : HostLink := { l with asm := none, gap := 0, errors := min (l.errors + 1) 4294967295 }
      let notice : OutFrame := ⟨true, 0xFF, 0, []⟩
      (l.out.any (·.notice) = true → l.discard = ended) ∧
        (l.out.any (·.notice) = false → l.sending = none → l.discard = { ended with sending := some notice }) ∧
        (l.out.any (·.notice) = false → l.sending ≠ none → l.discard = { ended with out := l.out ++ [notice] }))

/-- R193: with no frame under assembly the start character A5h begins one and every other character is a stray; inside a frame a
character that completes nothing is kept, and a length character above 240 discards the frame. -/
def Obligations.HostCharacters : Prop :=
  (∀ s : State, s.link.asm = none → Does (.hostCharacter 0xA5#8) s { s with link.asm := some [], link.gap := 0 }) ∧
    (∀ (s : State) (c : Byte), s.link.asm = none → c ≠ 0xA5#8 →
      Does (.hostCharacter c) s { s with link.strays := min (s.link.strays + 1) 4294967295 }) ∧
    (∀ (s : State) (c : Byte), s.link.asm = some [] → 240 < c.toNat →
      Does (.hostCharacter c) s { s with link := s.link.discard }) ∧
    (∀ (s : State) (n c : Byte) (l : List Byte), s.link.asm = some (n :: l) → n.toNat ≤ 240 →
      l.length + 2 < n.toNat + 4 →
      Does (.hostCharacter c) s { s with link.asm := some (n :: (l ++ [c])), link.gap := 0 })

/-- R194: a good frame that completes while a request is in hand or the settings load runs joins the waiting queue when it holds
fewer than 4 frames; with 4 it is counted as an overrun, LINK_OVERRUN is raised and the queue stays. It is stated of the request rows: that
such a row is the completion of its good frame is the model's reading (log 3, DEDUCED). -/
def Obligations.GoodFramesWaitInOrder : Prop :=
  ∀ (c : Instr) (s : State) (tag : Nat) (r : Request), c.request? = some (tag, r) →
    (s.link.hand ≠ none ∨ s.link.loading = true) →
    let counted : State := { s with link.asm := none, link.gap := 0, link.good := min (s.link.good + 1) 4294967295 }
    (s.link.queue.length < 4 → Does c s { counted with link.queue := s.link.queue ++ [⟨tag, r⟩] }) ∧
      (4 ≤ s.link.queue.length →
        Does c s ({ counted with link.overruns := min (s.link.overruns + 1) 4294967295 }.raise .linkOverrun))

/-- R195: with the last character of a notice the next frame made is sent; with the last character of a reply its request is in hand
no more, and the frame at the head of the waiting queue is taken in the same event. -/
def Obligations.FrameSentTakesTheNext : Prop :=
  (∀ (s : State) (f : OutFrame), s.link.sending = some f → f.notice = true →
      Does .hostFrameSent s { s with link.sending := s.link.out.head?, link.out := s.link.out.tail }) ∧
    (∀ (s : State) (f : OutFrame), s.link.sending = some f → f.notice = false → s.link.resetPending = false →
      s.link.queue = [] →
      Does .hostFrameSent s
        { s with link.sending := s.link.out.head?, link.out := s.link.out.tail, link.hand := none }) ∧
    (∀ (s : State) (f : OutFrame) (w : Waiting) (rest : List Waiting), s.link.sending = some f → f.notice = false →
      s.link.resetPending = false → s.link.loading = false → s.link.queue = w :: rest →
      Does .hostFrameSent s
        (State.take { s with link.sending := s.link.out.head?, link.out := s.link.out.tail, link.hand := none } w rest))

/-! ## The Host Link's own requests (11) -/

/-- R203: HELLO answers with the identity code 0F24h and the link rate, the cause of the last reset, the settings source, the last save
outcome, the day state, the Clock's set flag, the conditions with their counts, the mask, ATTN's level, the cursor and the five link
counters, and changes nothing. The code of the last save outcome, NONE first, and the form of the conditions and their counts, that of
CONDITIONS, are read out of R211 and section 12.2 (log 11, DEDUCED). -/
def Obligations.HelloReports : Prop :=
  ∀ (s : State) (tag : Nat), s.ready →
    Answers (.hello tag) s 0x01 tag id .ok
      ([0x0F#8, 0x24#8] ++ b4 (if s.link.fastRate then 115200 else 57600) ++ b1 s.link.cause.code ++
        b1 (if s.link.loaded then 0 else 1) ++ b1 (saveCode s.store.lastSave) ++ b1 s.plan.dayState.code ++
        bFlag s.clock.isSet ++ b3 (conditionBits s.link) ++ conditionCounts s.link ++ b3 s.link.mask.toNat ++
        bFlag s.link.attn ++ b1 s.link.cursor.table.code ++ b2 s.link.cursor.index ++ b1 s.link.cursor.mode.code ++
        b4 (min (s.link.good + 1) 4294967295) ++ b4 s.link.errors ++ b4 s.link.overruns ++ b4 s.link.strays ++
        b4 s.link.framing)

/-- R201: raising a condition makes it set, adds one to its latch count, which holds at 255, and leaves every other condition as it
was; ATTN is asserted exactly while a condition that the mask enables is set.
R202: CONDITIONS answers with the mask, the set conditions and their counts, and clears every condition in the same event.
R202: ATTENTION MASK with a set of conditions 0 to 19 replaces the mask, and answers with the new mask and the conditions set,
clearing none; a set that names another condition is refused with BAD_ARG. -/
def Obligations.ConditionsAndTheMask : Prop :=
  (∀ (l : HostLink) (c : Condition),
      (l.raise c).isSet c = true ∧ (l.raise c).count c = min (l.count c + 1) 255 ∧
        (∀ d : Condition, d ≠ c → (l.raise c).count d = l.count d ∧ (l.raise c).isSet d = l.isSet d) ∧
        (l.raise c).mask = l.mask ∧
        (l.attn = true ↔ ∃ d : Condition, 0 < l.count d ∧ l.mask.getLsbD d.number = true)) ∧
    (∀ (s : State) (tag : Nat), s.ready →
      Answers (.conditions tag) s 0x02 tag (fun x => { x with link.counts := [] }) .ok
          (b3 s.link.mask.toNat ++ b3 (conditionBits s.link) ++ conditionCounts s.link) ∧
        ∀ (l : HostLink) (c : Condition), HostLink.isSet { l with counts := [] } c = false) ∧
    (∀ (s : State) (tag set : Nat), s.ready →
      (set < 2 ^ 20 →
        Answers (.attentionMask tag set) s 0x03 tag (fun x => { x with link.mask := BitVec.ofNat 20 set }) .ok
          (b3 set ++ b3 (conditionBits s.link))) ∧
        (2 ^ 20 ≤ set → Refuses (.attentionMask tag set) s 0x03 tag .badArg))

/-- R204: what follows a command other than a reset (`settle`) makes each lamp's stretch remaining the lamp's stretch when its source has
become false, 0 when it has become true, and otherwise leaves it; the source is that of the lamp's entry after the command, and the settings
load, whose sources before are those after the load, starts none. A source that changes and changes back inside the command starts and ends
none (log 45, DESIGN CHOICE). An entry that a TABLE WRITE gives a lamp does the same at once, from the old entry's source to the new one's,
with the new entry's stretch (log 23, the model's reading).
R204, section 11.5: an active lamp, its source true or its stretch remaining above 0, with force NONE is lit in its mode, SOLID steadily, SLOW
in the first half and FAST in the first eighth of each quarter of the second, and an inactive one is dark; the ten sources and when each is
true.
R204: LAMP FORCE sets the force NONE 00h, ON 01h or OFF 02h of one lamp, or of all four (ALL as 4: log 11), and refuses another
value with BAD_ARG; the flash phase, a count of eighths modulo 8 (log 6), and the end of a stretch, rows that take their point as reached
(log 4, DESIGN CHOICE), touch the lamps alone, and a lamp under a force is lit or dark whatever its source and stretch. -/
def Obligations.LampsShowTheirSources : Prop :=
  (∀ (a b : State) (l : Fin 4),
      let t := a.settle b
      let e := b.set.lamps.get l
      let was := a.lampSource e.source = true
      let now := t.lampOn l = true
      (was → ¬ now → t.lamps.stretch.get l = e.stretch) ∧ (¬ was → now → t.lamps.stretch.get l = 0) ∧
        ((was ↔ now) → t.lamps.stretch.get l = b.lamps.stretch.get l)) ∧
    (∀ (s : State) (l : Fin 4) (e : LampCfg),
      let t := s.setLamp l e
      let was := s.lampOn l = true
      let now := t.lampOn l = true
      t.set.lamps.get l = e ∧ (now ↔ s.lampSource e.source = true) ∧ (was → ¬ now → t.lamps.stretch.get l = e.stretch) ∧
        (¬ was → now → t.lamps.stretch.get l = 0) ∧ ((was ↔ now) → t.lamps.stretch.get l = s.lamps.stretch.get l) ∧
        ∀ k : Fin 4, k ≠ l → t.set.lamps.get k = s.set.lamps.get k ∧ t.lamps.stretch.get k = s.lamps.stretch.get k) ∧
    (∀ s : State, s.link.loading = true → s.link.queue = [] → s.gw.up = false →
      ∃ t : State, exec .settingsLoadDone s = .next t ∧ t.lamps = s.lamps) ∧
    (∀ (s : State) (l : Fin 4), s.lamps.force.get l = .free →
      let mode := (s.set.lamps.get l).mode
      let active := s.lampOn l = true ∨ 0 < s.lamps.stretch.get l
      (¬ active → s.lampLit l = false) ∧ (active → mode = .solid → s.lampLit l = true) ∧
        (active → mode = .slow → (s.lampLit l = true ↔ s.lamps.phase < 4)) ∧
        (active → mode = .fast → (s.lampLit l = true ↔ s.lamps.phase % 2 = 0))) ∧
    (∀ (s : State) (l : Fin 4),
      let source := (s.set.lamps.get l).source
      let on := s.lampOn l = true
      (source = .off → ¬ on) ∧ (source = .slipQueueNotEmpty → (on ↔ s.slips.queue ≠ [] ∨ s.slips.slot ≠ none)) ∧
        (source = .dueAlerts → Tab.wf clearedAt s.reg.recs = true →
          (on ↔ ∃ (p : Nat) (ss : Session), (s.record p ss).alert = .due)) ∧
        (source = .conflicts → (on ↔ s.recon.conflicts ≠ [])) ∧ (source = .gatewayLinkDown → (on ↔ s.gw.up = false)) ∧
        (source = .zoneFaultActive → (on ↔ ∃ z : Fin 4, (s.bells.get z).active ≠ .clear)) ∧
        (source = .stationHeldAny → (on ↔ ∃ n : Fin 6, (s.stations.get n).held = true)) ∧
        (source = .poolOnReserve → (on ↔ ∃ (m : Message) (a : Nat), m ∈ s.pool.msgs ∧ m.storage = .reserve a)) ∧
        (source = .dayOpen → (on ↔ s.plan.dayState = .opened)) ∧
        (source = .printerStalled → (on ↔ s.slips.state = .stalled))) ∧
    ((∀ (s : State) (tag force : Nat) (l : Fin 4), s.ready → (h : force < 3) →
        Answers (.lampForce tag l.val force) s 0x05 tag
          (fun x => { x with lamps.force := x.lamps.force.set l ([Force.free, .on, .off].get ⟨force, h⟩) }) .ok []) ∧
      (∀ (s : State) (tag force : Nat), s.ready → (h : force < 3) →
        Answers (.lampForce tag 4 force) s 0x05 tag
          (fun x => { x with lamps.force := Quad.all ([Force.free, .on, .off].get ⟨force, h⟩) }) .ok []) ∧
      (∀ (s : State) (tag lamp force : Nat), s.ready → 4 < lamp ∨ 3 ≤ force →
        Refuses (.lampForce tag lamp force) s 0x05 tag .badArg) ∧
      (∀ s : State, Does .lampFlashPhase s { s with lamps.phase := (s.lamps.phase + 1) % 8 }) ∧
      (∀ (s : State) (l : Fin 4), Does (.lampStretch l) s { s with lamps.stretch := s.lamps.stretch.set l 0 }) ∧
      ∀ (s : State) (l : Fin 4),
        (s.lamps.force.get l = .on → s.lampLit l = true) ∧ (s.lamps.force.get l = .off → s.lampLit l = false))

/-- R208, R209, R16: power-on and the reset pin reset every block, set the Clock UNSET to Saturday 01/01/2000 00:00:00 and read the rate
strap; RESET with confirm code 90 is answered OK and with another BAD_ARG, and the reset it asks for, performed with the last character
of its reply, keeps the Clock and the link rate, and leaves the lamps' phase, which R204 counts from the Clock's second events, running
(log 37, DESIGN CHOICE). The store's contents are kept but for a page cut off.
R20, R42, R61, R75, R94, R99, R120, R126, R148: `State.afterReset` says block by block what a reset leaves; the free credits equal the
settings in force, the factory ones until the settings load has ended (log 7, DESIGN CHOICE). -/
def Obligations.ResetsOfEveryBlock : Prop :=
  (∀ (s : State) (strap : Bool), ∃ t : State, exec (.powerOnReset strap) s = .next t ∧
      t.afterReset .powerOn strap ∧ s.storeKept t ∧ t.clock = ⟨⟨1, 1, 2000⟩, 5, 0, false⟩ ∧ t.pending = s.pending) ∧
    (∀ (s : State) (strap : Bool), ∃ t : State, exec (.pinReset strap) s = .next t ∧
      t.afterReset .pin strap ∧ s.storeKept t ∧ t.clock = ⟨⟨1, 1, 2000⟩, 5, 0, false⟩ ∧ t.pending = s.pending) ∧
    (∀ (s : State) (f : OutFrame), s.link.sending = some f → f.notice = false → s.link.resetPending = true →
      ∃ t : State, exec .hostFrameSent s = .next t ∧
        t.afterReset .request s.link.fastRate ∧ s.storeKept t ∧ t.clock = s.clock ∧ t.lamps.phase = s.lamps.phase ∧
        t.pending = s.pending) ∧
    (∀ (s : State) (tag : Nat), s.ready →
      Answers (.reset tag 90) s 0x04 tag (fun x => { x with link.resetPending := true }) .ok []) ∧
    (∀ (s : State) (tag confirm : Nat), s.ready → confirm ≠ 90 → Refuses (.reset tag confirm) s 0x04 tag .badArg)

/-- R207, R208, R205: with the end of the load every settings table takes the values found in the store, or its factory values when none are
found, the directory is read, and CLOCK_UNSET and SETTINGS_DEFAULT are raised where they apply. Values are found where the check page is not
known to fail (log 2, DESIGN CHOICE) and carries format number 1, 255 data pages and a check word that makes the sum of the data pages' bytes
0; a blank check page carries no such format number.
R208: a frame that came during the load waits, and with the load's end the first that waits is taken as a request, unless one is in hand.
R207, R15, R2, R10: the data give settings where every entry of every table is one that a write accepts with nothing to clamp, no code of an
in-use pupil repeats, and no number serves more than 8 pupils; the settings then hold just those entries, and otherwise there are none. Where
each entry lies in the data is the model's choice (log 10, DESIGN CHOICE).
R179: the directory read. Directory page k holds slots 8k to 8k + 7 of 16 bytes each, and the first page the bad page table at byte 128. A page
gives its slots and table where it is not known to fail (log 2, DESIGN CHOICE), does not read blank, and its bytes 0 to 1019 and the check at
1020 sum to 0; otherwise the slots are empty, and the first page's table too. The next commit number is one above the highest held, or 1. That
a slot or a table whose values are out of range reads as empty (log 18), and that the number stays at 4,294,967,295 (log 29), is the model's
choice (DESIGN CHOICE). -/
def Obligations.SettingsLoadCompletes : Prop :=
  (∀ x : Store,
    let y := x.readDirectory
    let at_ := fun (page i : Nat) => (Memory.read x.mem ((256 + page) * 1024 + i)).toNat
    let two := fun (page i : Nat) => at_ page i * 256 + at_ page (i + 1)
    let four := fun (page i : Nat) => two page i * 65536 + two page (i + 2)
    let usable := fun page : Nat => (256 + page) ∉ x.spoiled ∧ (∃ i : Nat, i < 1024 ∧ at_ page i ≠ 255) ∧
      (((List.range 1020).map (at_ page)).sum + four page 1020) % 4294967296 = 0
    let held := fun j : Nat =>
      let k := j / 8
      let b := 16 * (j % 8)
      (⟨four k (b + 1), ⟨at_ k (b + 5), at_ k (b + 6), at_ k (b + 7) + 2000⟩, two k (b + 8), two k (b + 10), two k (b + 12),
        at_ k (b + 14), decide (at_ k (b + 15) = 0)⟩ : DayEntry)
    let fits := fun j : Nat =>
      let e := held j
      at_ (j / 8) (16 * (j % 8)) = 1 ∧ at_ (j / 8) (16 * (j % 8) + 15) ≤ 1 ∧ 1 ≤ e.commit ∧ e.date.valid = true ∧ e.first < 1280 ∧
        e.pages ≤ 1280 ∧ e.records ≤ 2400 ∧ e.conflicts ≤ 32
    let table := (List.range (at_ 0 128)).map fun i => two 0 (129 + 2 * i)
    let tableFits := at_ 0 128 ≤ 64 ∧ table.Pairwise (fun a b => a < b) ∧ ∀ q ∈ table, q < 1280
    Memory.wf x.mem = true →
      y = { x with dir := y.dir, bad := y.bad, nextCommit := y.nextCommit } ∧ y.dir.length = 32 ∧
        (∀ j : Nat, j < 32 → (usable (j / 8) ∧ fits j → y.dir[j]? = some (some (held j))) ∧
          (¬ (usable (j / 8) ∧ fits j) → y.dir[j]? = some none)) ∧
        (usable 0 ∧ tableFits → y.bad = table) ∧ (¬ (usable 0 ∧ tableFits) → y.bad = []) ∧
        ((∀ e : DayEntry, some e ∉ y.dir) → y.nextCommit = 1) ∧
        ∀ e : DayEntry, some e ∈ y.dir → (∀ f : DayEntry, some f ∈ y.dir → f.commit ≤ e.commit) →
          y.nextCommit = min (e.commit + 1) 4294967295) ∧
  (∀ s : State, s.link.loading = true → s.link.queue = [] →
    ∃ t : State, exec .settingsLoadDone s = .next t ∧
      t.link.loading = false ∧
      t.set = s.store.loadSettings.getD factorySettings ∧ t.link.loaded = s.store.loadSettings.isSome ∧
      (s.store.loadSettings = none → t.link.isSet .settingsDefault = true) ∧
      (s.clock.isSet = false → t.link.isSet .clockUnset = true) ∧
      t.store.mem = s.store.mem ∧ t.clock = s.clock ∧ t.store = s.store.readDirectory) ∧
  (∀ s : State, s.link.loading = true →
    ∃ x : State,
      x.link.loading = false ∧ x.link.queue = s.link.queue ∧ x.link.hand = s.link.hand ∧
      x.set = s.store.loadSettings.getD factorySettings ∧ x.link.loaded = s.store.loadSettings.isSome ∧
      (s.store.loadSettings = none → x.link.isSet .settingsDefault = true) ∧
      (s.clock.isSet = false → x.link.isSet .clockUnset = true) ∧
      x.clock = s.clock ∧ x.store = s.store.readDirectory ∧ x.plan = s.plan ∧ x.bells = s.bells ∧ x.lamps = s.lamps ∧
      (s.link.hand ≠ none ∨ s.link.queue = [] → Does .settingsLoadDone s x) ∧
      ∀ (w : Waiting) (rest : List Waiting), s.link.hand = none → s.link.queue = w :: rest →
        Does .settingsLoadDone s (x.take w rest)) ∧
    (∀ s : State, s.link.loading = false → Does .settingsLoadDone s s) ∧
    (∀ x : Store,
      let at_ := fun i : Nat => (Memory.read x.mem (255 * 1024 + i)).toNat
      let data := Memory.dataPages x.mem
      let word := at_ 1020 * 16777216 + at_ 1021 * 65536 + at_ 1022 * 256 + at_ 1023
      let agrees := 255 ∉ x.spoiled ∧ at_ 0 = 0 ∧ at_ 1 = 1 ∧ at_ 2 = 255 ∧ ((data.map (·.toNat)).sum + word) % 4294967296 = 0
      (agrees → x.loadSettings = Settings.ofImage data) ∧ (¬ agrees → x.loadSettings = none) ∧
        data.length = 255 * 1024 ∧ ∀ a : Nat, a < 255 * 1024 → data[a]? = some (Memory.read x.mem a)) ∧
    ∀ l : List Byte,
      let entry := fun (t : TableName) (stride i : Nat) => (l.drop (imageAt t + stride * i)).take stride
      let holds := fun x : Settings =>
        (∀ i : Nat, i < 2400 → readPupil (entry .pupils 33 i) = some (Tab.get factoryPupil x.pupils i)) ∧
          (∀ i : Nat, i < 7200 → readContact (entry .contacts 20 i) = some (Tab.get factoryContact x.contacts i)) ∧
          (∀ i : Nat, i < 120 → readGroup (entry .groups 10 i) = some (Tab.get factoryGroup x.groups i)) ∧
          (∀ i : Nat, i < 16 → readPlan (entry .plans 92 i) = some (Tab.get factoryPlan x.plans i, false)) ∧
          (∀ i : Fin 4, readZone (entry .zones 9 i.val) = some (x.zones.get i, false)) ∧
          (∀ i : Fin 6, readStation (entry .stations 7 i.val) = some (x.stations.get i, false)) ∧
          (∀ i : Nat, i < 8 → readTemplate (entry .templates 201 i) = some (Tab.get factoryTemplate x.templates i)) ∧
          (∀ i : Fin 4, readLamp (entry .lamps 3 i.val) = some (x.lamps.get i, false)) ∧
          readOptions (l.drop (imageAt .options)) = some (x.options, false) ∧ x.canonical ∧
          (∀ i : Nat, 2400 ≤ i → Tab.get factoryPupil x.pupils i = factoryPupil i) ∧
          (∀ i : Nat, 7200 ≤ i → Tab.get factoryContact x.contacts i = factoryContact i) ∧
          (∀ i : Nat, 120 ≤ i → Tab.get factoryGroup x.groups i = factoryGroup i) ∧
          (∀ i : Nat, 16 ≤ i → Tab.get factoryPlan x.plans i = factoryPlan i) ∧
          ∀ i : Nat, 8 ≤ i → Tab.get factoryTemplate x.templates i = factoryTemplate i
      (∀ x : Settings, holds x → x.codesDiffer → x.sendersBounded → Settings.ofImage l = some x) ∧
        (∀ x : Settings, Settings.ofImage l = some x → holds x ∧ x.codesDiffer ∧ x.sendersBounded)

/-- R195, R211: a kind that names no request is answered UNKNOWN_KIND with reply kind FEh, and a body whose length does not suit its kind
BAD_ARG; neither changes anything else. Every request of section 12.2 that has one length, two or three refuses any other so, and so do the
bodies that a frame cannot carry: a REGISTER SUBMIT with part of an entry, a number or a text whose count is not its length. Where section
12.2 gives a body no layout, its lengths are read out of R211 (log 11, DEDUCED). -/
def Obligations.UnknownKindsAndBadBodies : Prop :=
  let lengths : List (Nat × List Nat) :=
    [(0x01, [0]), (0x02, [0]), (0x03, [3]), (0x04, [1]), (0x05, [2]), (0x08, [4]), (0x09, [1]), (0x0B, [0]), (0x0C, [5]),
      (0x10, [6]), (0x11, [7, 11]), (0x12, [1]), (0x13, [0]), (0x14, [2]), (0x15, [2]), (0x16, [1, 2]), (0x18, [1]),
      (0x19, [1]), (0x1A, [1]), (0x1B, [1]), (0x20, [1]), (0x21, [1]), (0x22, [5, 8]), (0x23, [0]), (0x24, [3]),
      (0x25, [0]), (0x26, [1]), (0x29, [6, 9]), (0x2A, [3]), (0x2B, [2]), (0x30, [1]), (0x31, [2, 3, 6]), (0x32, [1]),
      (0x33, [6]), (0x38, [1]), (0x3A, [1]), (0x3B, [2]), (0x3C, [0]), (0x3D, [1]), (0x40, [1]), (0x41, [6]), (0x42, [0])]
  let known := [0x0A, 0x0D, 0x28, 0x39] ++ lengths.map (·.1)
  (∀ (s : State) (tag kind : Nat), s.ready →
      Does (.unknownKind tag kind) s
        (let x := s.inHand 0xFE tag
         { x with link := { x.link.send ⟨false, 0xFE, tag, [0x11#8]⟩ with hand := some ⟨tag, 0xFE, true⟩ } })) ∧
    (∀ (s : State) (tag kind : Nat) (body : List Byte), s.ready → tag < 256 → kind < 256 → body.length ≤ 240 →
      let c : Instr := .hostFrame kind tag body (checkOf (b1 body.length ++ b1 kind ++ b1 tag ++ body))
      (kind ∉ known → exec c s = exec (.unknownKind tag kind) s) ∧
        (kind ∈ known → decodeRequest kind body = .badBody kind → Refuses c s kind tag .badArg)) ∧
    (∀ (kind : Nat) (ns : List Nat) (body : List Byte), (kind, ns) ∈ lengths → body.length ∉ ns →
      decodeRequest kind body = .badBody kind) ∧
    (∀ body : List Byte, body.length < 2 ∨ body.length % 4 ≠ 2 → decodeRequest 0x28 body = .badBody 0x28) ∧
    (decodeRequest 0x0D [] = .badBody 0x0D ∧
      ∀ (n : Byte) (l : List Byte), n.toNat ≠ l.length → decodeRequest 0x0D (n :: l) = .badBody 0x0D) ∧
    (∀ body : List Byte, body.length < 5 → decodeRequest 0x39 body = .badBody 0x39) ∧
    (∀ (a b ss n : Byte) (l : List Byte), n.toNat ≠ l.length →
      decodeRequest 0x39 (a :: b :: ss :: 0x01#8 :: n :: l) = .badBody 0x39) ∧
    ∀ (a b ss n : Byte) (l : List Byte), l ≠ [] → decodeRequest 0x39 (a :: b :: ss :: 0x00#8 :: n :: l) = .badBody 0x39

/-! ## The settings tables (11.3, 11.6, 01) -/

/-- R198: TABLE SELECT with a table, an index in its range and a step mode sets the cursor and answers the table's number of entries;
any other is refused with BAD_ARG and leaves the cursor.
R199: TABLE READ with a count from 1 to the table's entries per request returns that many entries from the cursor, or those up to the
table's last, and in mode BOTH moves the cursor past them, stopping at the last entry; another count is refused with BAD_ARG. That the number returned is itself the count
byte of the entries, with no second one of R211, is the model's reading of the reply (log 11, DEDUCED). -/
def Obligations.TableSelectAndRead : Prop :=
  (∀ (s : State) (tag table index mode : Nat), s.ready →
      (∀ (t : TableName) (m : StepMode), TableName.ofCode table = some t → StepMode.ofCode mode = some m →
        t.first ≤ index → index < t.first + t.entries →
        Answers (.tableSelect tag table index mode) s 0x08 tag (fun x => { x with link.cursor := ⟨t, index, m⟩ }) .ok
          (b2 t.entries)) ∧
        ((9 ≤ table ∨ 3 ≤ mode) → Refuses (.tableSelect tag table index mode) s 0x08 tag .badArg) ∧
        (∀ t : TableName, TableName.ofCode table = some t → (index < t.first ∨ t.first + t.entries ≤ index) →
          Refuses (.tableSelect tag table index mode) s 0x08 tag .badArg)) ∧
    (∀ (s : State) (tag count : Nat), s.ready →
      let c := s.link.cursor
      let last := c.table.first + c.table.entries - 1
      let n := min count (last + 1 - c.index)
      let next := if c.mode = .both then min (c.index + n) last else c.index
      (1 ≤ count → count ≤ c.table.perRequest →
        Answers (.tableRead tag count) s 0x09 tag (fun x => { x with link.cursor := { c with index := next } }) .ok
          (b2 c.index ++ b1 n ++ (List.range n).flatMap (fun i => s.set.entryBytes c.table (c.index + i)) ++
            b1 c.table.code ++ b2 next ++ b1 c.mode.code)) ∧
        (count = 0 ∨ c.table.perRequest < count → Refuses (.tableRead tag count) s 0x09 tag .badArg))

/-- R200, R6, R7: what TABLE WRITE does with one group entry of a code of at most 6 printable characters: it is written at the cursor in
the day state CLOSED, and with the same track in any day state; in modes BOTH and WRITE the cursor moves on, stopping at the last entry;
with no entry, during a settings save, with a site zone above 3, and with another track while the day is not CLOSED it is refused and
nothing is written. That the number accepted is itself the count byte of the accepted entries, with no second one of R211, and the absent
deficit that the reply's refused entry carries are the model's reading of the reply (log 11, DEDUCED). -/
def Obligations.TableWriteOfAGroup : Prop :=
  ∀ (s : State) (tag : Nat) (e : Group) (mode : StepMode) (i : Nat), s.ready → s.link.cursor = ⟨.groups, i, mode⟩ → i < 120 →
    e.code.length ≤ 6 → e.code.all printable = true →
    let body := b1 1 ++ b1 e.code.length ++ e.code ++ b1 e.track.val ++ b1 e.zone.val ++ bFlag e.lateNotices
    let next := if mode = .still then i else min (i + 1) 119
    ((∀ (ph : SavePhase) (n : Nat), s.store.job ≠ .save ph n) →
      (s.plan.dayState = .closed ∨ (s.group i).track = e.track) →
      Answers (.tableWrite tag body) s 0x0A tag
        (fun x => { x with
          set.groups := Tab.put factoryGroup x.set.groups i e
          link.cursor := ⟨.groups, next, mode⟩ }) .ok
        (b1 1 ++ b1 0 ++ (b1 0 ++ b4 0) ++ b1 2 ++ b2 next ++ b1 mode.code)) ∧
      (∀ (ph : SavePhase) (n : Nat), s.store.job = .save ph n → Refuses (.tableWrite tag body) s 0x0A tag .busy) ∧
      Refuses (.tableWrite tag [0]) s 0x0A tag .badArg ∧
      ((∀ (ph : SavePhase) (n : Nat), s.store.job ≠ .save ph n) → s.plan.dayState ≠ .closed →
        (s.group i).track ≠ e.track →
        Answers (.tableWrite tag body) s 0x0A tag id .state
          (b1 0 ++ (b1 1 ++ b1 0x12 ++ b1 0 ++ b2 0) ++ b1 2 ++ b2 i ++ b1 mode.code)) ∧
      (∀ z : Nat, 4 ≤ z → z < 256 → (∀ (ph : SavePhase) (n : Nat), s.store.job ≠ .save ph n) →
        Answers (.tableWrite tag (b1 1 ++ b1 e.code.length ++ e.code ++ b1 e.track.val ++ b1 z ++ bFlag e.lateNotices)) s
          0x0A tag id .badArg (b1 0 ++ (b1 1 ++ b1 0x10 ++ b1 0 ++ b2 0) ++ b1 2 ++ b2 i ++ b1 mode.code))

/-- R200: how TABLE WRITE takes its entries, as many as the request carries, whatever the table: in order at the cursor, which moves on past
each accepted one in modes BOTH and WRITE; a refused entry ends the request and gives its code, one left untaken at the table's end BAD_ARG,
and a clamped one CLAMPED. It is said of every count entry by entry (`writeEntries`), and of one and of two entries outright.
R1, R2, R5, R8, R10, R26, R27, R41, R58, R60, R149: what becomes of an entry of the tables of pupils, contacts, plans, zones, stations and
templates: BAD_ARG out of range; then STATE in an open day; then DUPLICATE for a repeated code and FULL for a ninth pupil of a number (the
order of the refusals too is the first section's); SHORTFALL of a plan in force that cannot absorb its delay and early close; otherwise
written, with the clamps the table gives. The lamps (section 11.5) and the options (sections 8.1, 9.2), whose credits below what is held on
reserve are BUSY, follow. A write that both disables a station and changes its divisor is the disabling alone (log 31, DESIGN CHOICE), and
the place of a refused entry's deficit is read into the reply, as is the number accepted that is itself the count byte of the accepted
entries, with no second one of R211 (log 11, DEDUCED). That a zone written to another track or to NONE in CLOSED
keeps the closed day's bell list is the model's choice (log 41, DESIGN CHOICE): the zones clause changes the settings alone. An
accepted LAMPS entry acts on its lamp's stretch remaining at once: the new entry's stretch where the old entry's source was true and the new
one's is not, 0 where it is the other way round, and otherwise as it was (log 23, the model's reading); so a second entry over the same
index finds what the first has left. -/
def Obligations.TableWritesOfTheOtherTables : Prop :=
  (∀ (s : State) (tag : Nat) (t : TableName) (i : Nat) (mode : StepMode), s.ready → s.link.cursor = ⟨t, i, mode⟩ →
    t.first ≤ i → i < t.first + t.entries →
    let last := t.first + t.entries - 1
    let next := fun j : Nat => if mode = .still then j else min (j + 1) last
    let cursor := fun j : Nat => b1 t.code ++ b2 j ++ b1 mode.code
    let moved := fun (x : State) (j : Nat) => ({ x with link.cursor := ⟨t, j, mode⟩ } : State)
    let whole := b1 0 ++ b4 0
    let broken := fun r : Refused => b1 1 ++ b1 r.code.byte ++ bOpt 2 b2 r.deficit
    let item := fun clamped : Bool => b1 (if clamped then 2 else 0)
    let code := fun clamped : Bool => if clamped then Code.clamped else Code.ok
    let u := s.inHand 0x0A tag
    let saving := ∃ (ph : SavePhase) (n : Nat), s.store.job = .save ph n
    let fills := fun (body : List Byte) (l : List (List Byte)) =>
      ∃ rest : List Byte, body = b1 l.length ++ rest ∧ 1 ≤ l.length ∧ l.length ≤ t.perRequest ∧ splitEntries t l.length rest = some l
    (∀ body : List Byte, body.length ≤ 240 → (∀ l : List (List Byte), ¬ fills body l) →
        Refuses (.tableWrite tag body) s 0x0A tag .badArg) ∧
      (∀ (body : List Byte) (l : List (List Byte)), fills body l → saving → Refuses (.tableWrite tag body) s 0x0A tag .busy) ∧
      (∀ (body e : List Byte), fills body [e] → ¬ saving →
        (∀ r : Refused, writeEntry t u i e = .error r →
          Answers (.tableWrite tag body) s 0x0A tag id r.code (b1 0 ++ broken r ++ cursor i)) ∧
        (∀ (x : State) (c : Bool), writeEntry t u i e = .ok (x, c) →
          Answers (.tableWrite tag body) s 0x0A tag (fun _ => moved x (next i)) (code c)
            (b1 1 ++ item c ++ whole ++ cursor (next i)))) ∧
      (∀ body e f : List Byte, fills body [e, f] → ¬ saving →
        (∀ r : Refused, writeEntry t u i e = .error r →
          Answers (.tableWrite tag body) s 0x0A tag id r.code (b1 0 ++ broken r ++ cursor i)) ∧
        (∀ (x : State) (c : Bool), writeEntry t u i e = .ok (x, c) → mode ≠ .still → i = last →
          Answers (.tableWrite tag body) s 0x0A tag (fun _ => moved x i) .badArg (b1 1 ++ item c ++ whole ++ cursor i)) ∧
        (∀ (x : State) (c : Bool), writeEntry t u i e = .ok (x, c) → mode = .still ∨ i < last →
          let j := next i
          (∀ r : Refused, writeEntry t (moved x j) j f = .error r →
            Answers (.tableWrite tag body) s 0x0A tag (fun _ => moved x j) r.code (b1 1 ++ item c ++ broken r ++ cursor j)) ∧
          ∀ (y : State) (d : Bool), writeEntry t (moved x j) j f = .ok (y, d) →
            Answers (.tableWrite tag body) s 0x0A tag (fun _ => moved y (next j)) (code (c || d))
              (b1 2 ++ item c ++ item d ++ whole ++ cursor (next j)))) ∧
      ∀ (body : List Byte) (l : List (List Byte)), fills body l → ¬ saving →
        let r := u.writeEntries [] l
        let at_ := r.1.link.cursor
        let answer := match r.2.refused with
          | some x => x.code
          | none => if r.2.untaken then .badArg else code (decide (true ∈ r.2.accepted))
        let refused := match r.2.refused with
          | some x => broken x
          | none => whole
        Answers (.tableWrite tag body) s 0x0A tag (fun _ => r.1) answer
          (b1 r.2.accepted.length ++ r.2.accepted.flatMap item ++ refused ++ b1 at_.table.code ++ b2 at_.index ++ b1 at_.mode.code)) ∧
  (∀ (x : State) (done : List Bool), x.writeEntries done [] = (x, ⟨done, none, false⟩)) ∧
  (∀ (x : State) (t : TableName) (i : Nat) (mode : StepMode) (done : List Bool) (e : List Byte) (l : List (List Byte)),
    x.link.cursor = ⟨t, i, mode⟩ →
    let last := t.first + t.entries - 1
    let w := writeEntry t x i e
    let result := x.writeEntries done (e :: l)
    (∀ r : Refused, w = .error r → result = (x, ⟨done, some r, false⟩)) ∧
      ∀ (y : State) (c : Bool), w = .ok (y, c) →
        (mode = .still → result = y.writeEntries (done ++ [c]) l) ∧
          (mode ≠ .still → i = last → result = (y, ⟨done ++ [c], none, decide (l ≠ [])⟩)) ∧
          (mode ≠ .still → i ≠ last →
            result = State.writeEntries { y with link.cursor := ⟨t, min (i + 1) last, mode⟩ } (done ++ [c]) l)) ∧
  (∀ (s : State) (i : Nat) (l : List Byte), Tab.wf factoryPupil s.set.pupils = true →
    let name := (l.drop 8).take (byteAt l 7)
    let e : Pupil := ⟨byteAt l 0 == 1, numAt l 1 2, numAt l 3 4, name, byteAt l 32⟩
    let old := s.pupil i
    let t : Settings := { s.set with pupils := Tab.put factoryPupil s.set.pupils i e }
    let fits := byteAt l 0 ≤ 1 ∧ 1 ≤ e.short ∧ e.short ≤ 9999 ∧ 1 ≤ byteAt l 7 ∧ byteAt l 7 ≤ 24 ∧
      (∀ c ∈ name, 0x20 ≤ c.toNat ∧ c.toNat ≤ 0x7E) ∧ e.group < 120
    let moves := s.plan.dayState ≠ .closed ∧ (old.inUse ≠ e.inUse ∨ old.short ≠ e.short ∨ old.group ≠ e.group)
    let repeats := e.inUse = true ∧ ∃ q : Nat, q ≠ i ∧ (s.pupil q).inUse = true ∧
      ((s.pupil q).short = e.short ∨ (e.badge ≠ 0 ∧ (s.pupil q).badge = e.badge))
    let ninth := old.inUse = false ∧ e.inUse = true ∧
      ∃ k : Fin 3, 8 < (t.senderList (s.contact (3 * i + k.val)).number).length
    let w := writeEntry .pupils s i l
    (¬ fits → w = .error ⟨.badArg, none⟩) ∧ (fits → moves → w = .error ⟨.state, none⟩) ∧
      (fits → ¬ moves → repeats → w = .error ⟨.duplicate, none⟩) ∧
      (fits → ¬ moves → ¬ repeats → ninth → w = .error ⟨.full, none⟩) ∧
      (fits → ¬ moves → ¬ repeats → ¬ ninth → w = .ok ({ s with set := t }, false))) ∧
  (∀ (s : State) (i : Nat) (l : List Byte),
    let number := (l.drop 2).take (byteAt l 1)
    let f := byteAt l 19
    let channel := fun n : Nat => if n = 0 then Channel.text else Channel.voice
    let e : Contact := ⟨byteAt l 0 == 1, number, channel (byteAt l 17),
      if byteAt l 18 ≤ 1 then some (channel (byteAt l 18)) else none, f % 2 == 1, f / 2 % 2 == 1, f / 4 % 2 == 1⟩
    let t : Settings := { s.set with contacts := Tab.put factoryContact s.set.contacts i e }
    let fits := byteAt l 0 ≤ 1 ∧ 1 ≤ number.length ∧ byteAt l 1 ≤ 15 ∧ (∀ c ∈ number, 0x30 ≤ c.toNat ∧ c.toNat ≤ 0x39) ∧
      byteAt l 17 ≤ 1 ∧ byteAt l 18 ≤ 2 ∧ byteAt l 18 ≠ byteAt l 17 ∧ f < 8
    let w := writeEntry .contacts s i l
    (¬ fits → w = .error ⟨.badArg, none⟩) ∧ (fits → 8 < (t.senderList number).length → w = .error ⟨.full, none⟩) ∧
      (fits → (t.senderList number).length ≤ 8 → w = .ok ({ s with set := t }, false))) ∧
  (∀ p : Plan, p.start < 65536 → p.segs.length < 256 → (∀ g ∈ p.segs, g.nominal < 256 ∧ g.minimum < 256) → p.grace < 256 →
    p.kAm < 256 → p.kPm < 256 → p.allowance < 256 → p.warning < 256 →
    let carries := fun (ss : Session) (k : Nat) => ∃ g : Segment, p.segs[k]? = some g ∧ g.point = some ss
    let fits := p.start ≤ 1439 ∧ 1 ≤ p.segs.length ∧ p.segs.length ≤ 12 ∧
      (∀ g ∈ p.segs, 1 ≤ g.nominal ∧ g.nominal ≤ 180 ∧ 1 ≤ g.minimum ∧ g.minimum ≤ g.nominal) ∧
      p.start + (p.segs.map (·.nominal)).sum ≤ 1439 ∧ (∃ a : Nat, carries .am a) ∧
      (∀ (ss : Session) (a b : Nat), carries ss a → carries ss b → a = b) ∧ ∀ a b : Nat, carries .am a → carries .pm b → a < b
    let held : Plan := { p with
      grace := min p.grace 15
      kAm := min p.kAm 60
      kPm := min p.kPm 60
      allowance := min p.allowance 10
      warning := min p.warning 5 }
    (fits → ∃ c : Bool, readPlan p.bytes = some (held, c) ∧ (c = true ↔ held ≠ p)) ∧ (¬ fits → readPlan p.bytes = none)) ∧
  (∀ (s : State) (tr : Fin 4) (k : DayKind) (l : List Byte),
    let i := tr.val * 4 + k.code
    let x := s.plan.tracks.get tr
    let w := writeEntry .plans s i l
    (readPlan l = none → w = .error ⟨.badArg, none⟩) ∧
      ∀ (p : Plan) (c : Bool), readPlan l = some (p, c) →
        let put : State := { s with set.plans := Tab.put factoryPlan s.set.plans i p }
        let closed := s.plan.dayState = .closed
        let own := ¬ closed ∧ x.state = .planned ∧ x.kind = some k
        (closed ∨ (x.state = .planned ∧ x.kind ≠ some k) → w = .ok (put, c)) ∧
          (¬ closed → x.state ≠ .planned → w = .error ⟨.state, none⟩) ∧
          (own → (p.start + x.delay) * 60 ≤ s.clock.secs → w = .error ⟨.state, none⟩) ∧
          (own → s.clock.secs < (p.start + x.delay) * 60 →
            (∀ d : Nat, buildTrack p x.kind x.delay x.early s.clock.secs = .error d → w = .error ⟨.shortfall, some d⟩) ∧
            ∀ y : Track, buildTrack p x.kind x.delay x.early s.clock.secs = .ok y →
              w = .ok (({ put with plan.tracks := s.plan.tracks.set tr y }).recomputeBells tr, c))) ∧
  (∀ (s : State) (z : Fin 4) (l : List Byte),
    let held := fun (low top k : Nat) => max low (min (byteAt l k) top)
    let e : ZoneCfg := ⟨if h : byteAt l 0 < 4 then some ⟨byteAt l 0, h⟩ else none, held 1 15 1, held 1 15 2, held 1 15 3,
      held 1 15 4, held 1 15 5, held 0 7 6, held 1 8 7, byteAt l 8 == 1⟩
    let fits := (byteAt l 0 < 4 ∨ byteAt l 0 = 255) ∧ byteAt l 8 ≤ 1
    let moves := s.plan.dayState ≠ .closed ∧ (s.set.zones.get z).track ≠ e.track
    let asWritten := (∀ k : Nat, 1 ≤ k → k ≤ 5 → 1 ≤ byteAt l k ∧ byteAt l k ≤ 15) ∧ byteAt l 6 ≤ 7 ∧ 1 ≤ byteAt l 7 ∧ byteAt l 7 ≤ 8
    let w := writeEntry .zones s z.val l
    (¬ fits → w = .error ⟨.badArg, none⟩) ∧ (fits → moves → w = .error ⟨.state, none⟩) ∧
      (fits → ¬ moves → ∃ c : Bool, w = .ok ({ s with set.zones := s.set.zones.set z e }, c) ∧ (c = false ↔ asWritten))) ∧
  (∀ (s : State) (n : Fin 6) (l : List Byte),
    let w := writeEntry .stations s (n.val + 1) l
    (2 ≤ byteAt l 0 ∨ divisorFor (numAt l 1 4) = none → w = .error ⟨.badArg, none⟩) ∧
      ∀ d : Nat, byteAt l 0 ≤ 1 → divisorFor (numAt l 1 4) = some d →
        let e : StationCfg := ⟨byteAt l 0 == 1, numAt l 1 4, d, min (byteAt l 6) 30⟩
        w = .ok ({ s with
          set.stations := s.set.stations.set n e
          stations := s.stations.set n ((s.stations.get n).rewrite (s.set.stations.get n) e) }, decide (30 < byteAt l 6))) ∧
  (∀ (x : Station) (old new : StationCfg),
    let y := x.rewrite old new
    let empty : Station := { x with asm := none, gap := 0 }
    (old.enabled = true → new.enabled = true → old.divisor = new.divisor ∨ x.asm = none → y = x) ∧
      (old.enabled = true → new.enabled = true → old.divisor ≠ new.divisor → x.asm ≠ none →
        y = { empty with cnt.abandoned := min (x.cnt.abandoned + 1) 4294967295 }) ∧
      (old.enabled = true → new.enabled = false →
        y = { empty with
          queue := []
          out := []
          sending := none
          held := false
          holdOff := 0
          cnt.discarded := min (x.cnt.discarded + x.queue.length) 4294967295 }) ∧
      (old.enabled = false → new.enabled = true →
        y = Station.show { empty with held := false, queue := [] } ⟨.ready, none, false, [], 0⟩) ∧
      (old.enabled = false → new.enabled = false → y = x)) ∧
  (∀ (s : State) (i : Nat) (l : List Byte),
    let text := (l.drop 1).take (byteAt l 0)
    let fits := byteAt l 0 ≤ 200 ∧ ∀ c ∈ text, (0x20 ≤ c.toNat ∧ c.toNat ≤ 0x7E) ∨ (1 ≤ c.toNat ∧ c.toNat ≤ 6)
    let w := writeEntry .templates s i l
    (¬ fits → w = .error ⟨.badArg, none⟩) ∧
      (fits → w = .ok ({ s with set.templates := Tab.put factoryTemplate s.set.templates i text }, false))) ∧
  (∀ (s : State) (n : Fin 4) (l : List Byte),
    let source := LampSource.ofCode (byteAt l 0)
    let v := byteAt l 2
    let stretch := if v ≤ 2 then v else if v ≤ 4 then 2 else 5
    let was := s.lampSource (s.set.lamps.get n).source
    let now := s.lampSource (source.getD .off)
    let left := if was = now then s.lamps.stretch.get n else if was then stretch else 0
    let w := writeEntry .lamps s n.val l
    (3 ≤ byteAt l 1 → w = .error ⟨.badArg, none⟩) ∧
      ∀ m : LampMode, byteAt l 1 = m.code →
        ∃ c : Bool, w = .ok ({ s with
            set.lamps := s.set.lamps.set n ⟨source.getD .off, m, stretch⟩
            lamps.stretch := s.lamps.stretch.set n left }, c) ∧
          (c = true ↔ 10 ≤ byteAt l 0 ∨ stretch ≠ v)) ∧
  ∀ (s : State) (l : List Byte),
    let held := fun (low top n : Nat) => max low (min n top)
    let c : PerClass Nat := ⟨byteAt l 2, byteAt l 3, byteAt l 4, byteAt l 5⟩
    let n := byteAt l 6
    let fallback := if n = 0 then 1 else if n < 4 then min n 2 else if n < 8 then 4 else 8
    let o : Options := ⟨held 0 60 (byteAt l 0), held 0 9 (byteAt l 1), c, fallback, held 60 900 (numAt l 7 2),
      held 30 600 (numAt l 9 2), held 30 480 (numAt l 11 2), held 30 480 (numAt l 13 2), byteAt l 15 == 1⟩
    let reserved := fun k : MsgClass => (s.pool.msgs.filter fun m => m.cls == k && m.onReserve).length
    let fits := (∀ k : MsgClass, 1 ≤ c.get k ∧ c.get k ≤ 8) ∧ c.alert + c.notice + c.report + c.receipt ≤ 16 ∧ byteAt l 15 ≤ 1
    let busy := ∃ k : MsgClass, c.get k < reserved k
    let taken : State := { s with
      set.options := o
      pool.credits := ⟨c.alert - reserved .alert, c.notice - reserved .notice, c.report - reserved .report,
        c.receipt - reserved .receipt⟩ }
    let rises := ∃ k : MsgClass, s.pool.credits.get k < c.get k - reserved k
    let asWritten := o.alertDelay = byteAt l 0 ∧ o.threshold = byteAt l 1 ∧ fallback = n ∧ o.retry = numAt l 7 2 ∧
      o.timeout = numAt l 9 2 ∧ o.noticeLife = numAt l 11 2 ∧ o.receiptLife = numAt l 13 2
    let w := writeEntry .options s 0 l
    (¬ fits → w = .error ⟨.badArg, none⟩) ∧ (fits → busy → w = .error ⟨.busy, none⟩) ∧
      (fits → ¬ busy → ∃ d : Bool, (d = false ↔ asWritten) ∧
        (rises → w = .ok (taken.servePass, d)) ∧ (¬ rises → w = .ok (taken, d)))

/-! ## The Clock and the school day (02) -/

/-- R18, R19: CLOCK SET. An invalid date or time is BAD_ARG; with the Clock UNSET or the day CLOSED any step is taken; during a day a step
that changes the date or exceeds 120 s is refused with STATE, a step back or of nothing sets the time alone, and a step forward, answered OK
too, also gives every PENDING bell it reaches the outcome SKIPPED, ringing none; a SUPPRESSED one counts as reached from then on.
R19, R31, R99: within a forward step of an OPENING or OPEN day every segment whose start is reached begins, a track whose first segment has
begun leaves PLANNED for RUNNING and one whose day end is reached is ENDED; a session whose point has begun opens, and one whose close time is
reached closes; no other session changes, and in CLOSING none does.
R112, R106, R108, R107: a session so closed leaves its group statuses, REGISTER_MISSING, its marks N and their alerts as SESSION CLOSE does
(`followed`), no alert marked N of a track so ended stays WITHHELD, and a HELD alert whose due time is reached falls due, each with the effect
that ALERT DUE has. That the bells go first, then the tracks with their sessions and ends, and then the alerts, is the model's order (log 5,
DESIGN CHOICE).
Beyond that a forward step changes nothing but what the storage that its alerts ask for brings about: messages, slips, statistics and
conditions. Every other accepted CLOCK SET changes the Clock alone. The phase of the lamps runs on (log 37, DESIGN CHOICE). -/
def Obligations.ClockSetSteps : Prop :=
  ∀ (s : State) (tag : Nat) (d : RawDate) (t : RawTime), s.ready →
    let day : Date := ⟨d.day, d.month, d.year + 2000⟩
    let secs := t.hour * 3600 + t.minute * 60 + t.second
    let valid := d.year ≤ 99 ∧ day.valid = true ∧ t.hour ≤ 23 ∧ t.minute ≤ 59 ∧ t.second ≤ 59
    (¬ valid → Refuses (.clockSet tag d t) s 0x10 tag .badArg) ∧
      (valid → s.clock.isSet = false ∨ s.plan.dayState = .closed →
        Answers (.clockSet tag d t) s 0x10 tag (fun x => { x with clock := ⟨day, day.weekday, secs, true⟩ }) .ok []) ∧
      (valid → s.clock.isSet = true → s.plan.dayState ≠ .closed →
        ((day ≠ s.clock.date ∨ s.clock.secs + 120 < secs ∨ secs + 120 < s.clock.secs) →
          Refuses (.clockSet tag d t) s 0x10 tag .state) ∧
        (day = s.clock.date → secs ≤ s.clock.secs → s.clock.secs ≤ secs + 120 →
          Answers (.clockSet tag d t) s 0x10 tag (fun x => { x with clock.secs := secs }) .ok []) ∧
        (day = s.clock.date → s.clock.secs < secs → secs ≤ s.clock.secs + 120 →
          let skipped := fun e : BellEvent =>
            if e.outcome = .pending ∧ e.time * 60 ≤ secs then { e with outcome := .skipped }
            else if e.outcome = .suppressed ∧ e.time * 60 ≤ secs then { e with passed := true }
            else e
          let at_ : State := { s.inHand 0x10 tag with
            clock.secs := secs
            bells := s.bells.map fun z => { z with list := z.list.map skipped } }
          let u := at_.followTracks.alertsDue
          let only : State := { at_ with plan.tracks := u.plan.tracks, reg.sess := u.reg.sess }
          let noClose := ∀ (i : Fin 4) (ss : Session), u.session i ss = some .closed → s.session i ss = some .closed
          let falls := fun r : Rec => r.alert = .held ∧ ∃ k : Nat, r.due = some k ∧ k ≤ secs
          Answers (.clockSet tag d t) s 0x10 tag (fun _ => u) .ok [] ∧
            State.poolLeaves { only with reg.status := u.reg.status, reg.tallies := u.reg.tallies } u ∧
            u.desk = { s.desk with stats := u.desk.stats } ∧
            (Tab.wf zeroTally s.reg.tallies = true → u.reg.tallies = s.reg.tallies) ∧
            (noClose → (∀ e ∈ s.reg.recs, e.2.alert ≠ .withheld ∧ ¬ falls e.2) → u = only) ∧
            (∀ (p : Nat) (ss : Session), Tab.wf clearedAt s.reg.recs = true → noClose →
              (∀ e ∈ s.reg.recs, e.2.alert ≠ .withheld ∧ (e.1 ≠ 2 * p + sessionCode ss → ¬ falls e.2)) → falls (s.record p ss) →
              u = only.alertFallsDue p ss) ∧
            (∀ (p : Nat) (ss : Session) (k : Nat), Tab.wf clearedAt s.reg.recs = true → (s.record p ss).alert = .held →
              (s.record p ss).due = some k →
              let v := u.record p ss
              (secs < k → v.alert = .held ∧ v.due = some k) ∧ (k ≤ secs → v.mark ≠ .n → v.alert = .cancelled ∧ v.due = none) ∧
                (k ≤ secs → v.mark = .n → (v.alert = .due ∨ v.alert = .queued ∨ v.alert = .undelivered) ∧ v.due = none)) ∧
            (s.plan.dayState = .closing → u = at_.alertsDue ∧ u.plan = s.plan ∧ u.reg.sess = s.reg.sess ∧
              u.reg.status = s.reg.status) ∧
            (s.plan.dayState ≠ .closing → s.plan.dayDate = some s.clock.date → at_.followed u ∧ ∀ (i : Fin 4) (p : PlanIF),
              (s.plan.tracks.get i).plan = some p →
              let x := s.plan.tracks.get i
              let q : PlanIF :=
                { p with segs := (p.segs.zip (segStarts (p.start + x.delay) p.segs)).map fun e =>
                    { e.1 with begun := e.1.begun || decide (e.2 * 60 ≤ secs) } }
              (x.state = .ended → u.plan.tracks.get i = x) ∧
                (x.state ≠ .ended → u.plan.tracks.get i =
                  { x with
                    plan := some q
                    state :=
                      if (p.start + x.delay + (p.segs.map (·.len)).sum) * 60 ≤ secs then .ended
                      else if q.segs.head?.any (·.begun) then .running else x.state }))))

/-- R17, R16: within the range the next day's number and weekday are one on, February has its leap days, and 01/01/2000, a Saturday, follows
31/12/2099.
R16, R17, R24: a second event counts one second and passes midnight after second 86399; MIDNIGHT EVENT, which takes the midnight as reached
at any second (log 4, DESIGN CHOICE), takes the Clock to the next day,
UNSET with CLOCK_UNSET latched after 31/12/2099, closes an OPEN day, defers the close in OPENING and during a settings save, and leaves the
day state of CLOSING and CLOSED.
R47, R62, R68, R93, R95, R155, R161, R204: what else a second event counts (`secondCounted`): the rings and probes,
which end as RING END and PROBE END end them; the silence and the hold-off of each station line, of the host's frame and of the gateway's
record; the stall timer, which stalls the printer at 20; the desk statistics; the lamps' stretches, the flash beginning anew; the wait
entries' and messages' lifetimes, retry delays and delivery timeouts, one that runs out having its effect; the gateway's silence, which
loses the link at 60. R107: then each HELD alert whose due time has come falls due.
R16, R24: a second event that ends a minute raises the minute event between the two, with the effect that its own row has, and one that
passes midnight the midnight event before that: an OPEN day is closed as DAY CLOSE closes it. The order of these within the event is the
model's (log 5, DESIGN CHOICE); each clause is stated where the others do not touch what it speaks of. -/
def Obligations.ClockCountsTheCalendar : Prop :=
  ((∀ d : Date, d.valid = true → d ≠ ⟨31, 12, 2099⟩ →
        d.next.valid = true ∧ d.next.number = d.number + 1 ∧ d.next.weekday = (d.weekday + 1) % 7) ∧
      Date.next ⟨31, 12, 2099⟩ = ⟨1, 1, 2000⟩ ∧ Date.weekday ⟨1, 1, 2000⟩ = 5 ∧
      (∀ y : Nat, 2000 ≤ y → y ≤ 2099 → Date.valid ⟨29, 2, y⟩ = decide (y % 4 = 0))) ∧
    ((∀ (s : State) (peak : Quad Nat), ∃ t : State, exec (.secondEvent peak) s = .next t ∧
        (s.clock.secs < 86399 → t.clock = { s.clock with secs := s.clock.secs + 1 }) ∧
        (86399 ≤ s.clock.secs → t.clock.date = s.clock.date.next ∧ t.clock.secs = 0 ∧
          t.clock.weekday = s.clock.date.next.weekday)) ∧
      ∀ s : State, ∃ t : State, exec .midnightEvent s = .next t ∧
        t.clock.date = s.clock.date.next ∧ t.clock.secs = 0 ∧ t.clock.weekday = s.clock.date.next.weekday ∧
        t.plan.dayDate = s.plan.dayDate ∧
        (s.clock.date ≠ ⟨31, 12, 2099⟩ → t.clock.isSet = s.clock.isSet) ∧
        (s.clock.date = ⟨31, 12, 2099⟩ → t.clock.isSet = false ∧ t.link.isSet .clockUnset = true) ∧
        (s.plan.dayState = .opened → (∀ (ph : SavePhase) (n : Nat), s.store.job ≠ .save ph n) →
          t.plan.dayState = .closing ∧ ∀ i : Fin 4, (t.plan.tracks.get i) = { s.plan.tracks.get i with state := .ended }) ∧
        (s.plan.dayState = .opened → (∃ (ph : SavePhase) (n : Nat), s.store.job = .save ph n) →
          t.plan = { s.plan with deferredClose := true }) ∧
        (s.plan.dayState = .opening → t.plan = { s.plan with deferredClose := true }) ∧
        (s.plan.dayState = .closing ∨ s.plan.dayState = .closed → t.plan = s.plan) ∧
        ∃ x : State, x = { s with clock := x.clock, link := x.link } ∧ x.clock.date = s.clock.date.next ∧ x.clock.secs = 0 ∧
          t = State.settle s x.midnightClose) ∧
    (∀ (s : State) (peak : Quad Nat),
      let steady := fun m : Message => ∀ o : Outbound, m.body = .out o → o.life ≠ some 0 ∧ o.life ≠ some 1 ∧
        (∀ k : Nat, o.state = .waitRetry k → 2 ≤ k) ∧ ∀ tag k : Nat, o.state = .sending tag k → 2 ≤ k
      let linkStays := s.gw.up = true → s.gw.since + 1 < 60
      let now := s.clock.secs + 1
      let noneDue := ∀ e ∈ s.reg.recs, e.2.alert = .held → ∀ d : Nat, e.2.due = some d → now < d
      let next : Clock := { s.clock with secs := now }
      let stays := fun v : State => v.plan = s.plan ∧ v.set = s.set ∧ v.reg.sess = s.reg.sess ∧ v.reg.status = s.reg.status ∧
        ∀ (p : Nat) (ss : Session), (v.record p ss).mark = (s.record p ss).mark ∧
          (v.record p ss).locked = (s.record p ss).locked ∧ (v.record p ss).expected = (s.record p ss).expected
      (now < 86400 → now % 60 ≠ 0 → ∃ u : State, Does (.secondEvent peak) s u ∧ s.secondCounted u peak next noneDue ∧
        (Tab.wf clearedAt s.reg.recs = true → (∀ m ∈ s.pool.msgs, steady m) → linkStays →
          ∀ (p : Nat) (ss : Session) (d : Nat), (s.record p ss).alert = .held → (s.record p ss).due = some d →
            let r := u.record p ss
            (now < d → r.alert = .held ∧ r.due = some d) ∧
              (d ≤ now → (s.record p ss).mark ≠ .n → r.alert = .cancelled ∧ r.due = none) ∧
              (d ≤ now → (s.record p ss).mark = .n → (r.alert = .due ∨ r.alert = .queued ∨ r.alert = .undelivered) ∧ r.due = none))) ∧
        (now < 86400 → now % 60 = 0 → ∃ v : State, Does (.secondEvent peak) s v.minute.alertsDue ∧
          s.secondCounted v peak next True ∧ stays v) ∧
        (86400 ≤ now → ∃ (v : State) (passed : Clock), Does (.secondEvent peak) s v.midnightClose.minute.alertsDue ∧
          passed.date = s.clock.date.next ∧ passed.secs = 0 ∧ s.secondCounted v peak passed True ∧ stays v)) ∧
    (∀ x : State, x.plan.dayState = .opened → (∀ (ph : SavePhase) (n : Nat), x.store.job ≠ .save ph n) →
      x.midnightClose = x.performClose) ∧
    ∀ x : State, Tab.wf clearedAt x.reg.recs = true → ∀ (p : Nat) (ss : Session) (d : Nat), (x.record p ss).alert = .held →
      (x.record p ss).due = some d →
      let r := x.alertsDue.record p ss
      (x.clock.secs < d → r.alert = .held ∧ r.due = some d) ∧
        (d ≤ x.clock.secs → (x.record p ss).mark ≠ .n → r.alert = .cancelled ∧ r.due = none) ∧
        (d ≤ x.clock.secs → (x.record p ss).mark = .n →
          (r.alert = .due ∨ r.alert = .queued ∨ r.alert = .undelivered) ∧ r.due = none)

/-- R31, R99: at a minute event of an OPENING or OPEN day every segment whose start is reached has begun, a track whose first segment has
begun leaves PLANNED for RUNNING, and a track whose day end is reached is ENDED; at other times the tracks stay.
R99, R112, R106: a BEFORE session whose point has begun opens, and one whose close time is reached closes as SESSION CLOSE closes it, with its
close time: the group statuses, REGISTER_MISSING, the marks N and the alerts HELD or WITHHELD. No other session, status or mark changes.
R47: in each zone the PENDING events whose time is reached come due in list order: in IDLE and CHECKING the first starts ringing, a check being
ABORTED, and the others become WAITING; in RINGING all do. A SUPPRESSED event has then been reached. SEGMENT BEGIN sets its
segment's begun flag, starting a PLANNED track with the first, and opens the BEFORE session whose point it carries. DAY END ends its
track, and no alert of the track's pupils marked N stays WITHHELD (R108). A row for a point of time has that point's effect alone, whenever
it is taken (log 4, DESIGN CHOICE). -/
def Obligations.TracksFollowTheTime : Prop :=
  (∀ s : State, Does .minuteEvent s s.minute) ∧
  (∀ (s : State) (z : Fin 4),
    let x := s.bells.get z
    let y := s.minute.bells.get z
    let c := s.set.zones.get z
    let due := fun f : BellEvent => f.outcome = .pending ∧ f.time * 60 ≤ s.clock.secs
    let other := fun f : BellEvent =>
      if f.outcome = .suppressed ∧ f.time * 60 ≤ s.clock.secs then { f with passed := true } else f
    let waits := fun f : BellEvent => if due f then { f with outcome := .waiting } else other f
    (x.list.map (·.source)).Nodup →
      ((∀ f ∈ x.list, ¬ due f) → y = { x with list := x.list.map other }) ∧
        (∀ what : RingWhat, x.act = .ringing what → y = { x with list := x.list.map waits }) ∧
        ∀ (a b : List BellEvent) (e : BellEvent), x.list = a ++ e :: b → due e → (∀ f ∈ a, ¬ due f) →
          let time := match e.kind with
            | .start => c.start
            | .change => c.change
            | .warning => c.warning
            | .dayEnd => c.dayEnd
          let rung : Zone :=
            { x with
              act := .ringing (.event e.source e.kind)
              left := time
              openSeen := false
              overSeen := false
              level := c.level
              filter := c.filter
              list := a.map other ++ { e with outcome := .ringing, ringStart := some s.clock.secs } :: b.map waits }
          (x.act = .idle → y = rung) ∧
            (x.act = .checking → y = { rung with lastCheck := some .aborted } ∧ s.minute.link.isSet .checkDone = true)) ∧
  (∀ s : State, s.plan.dayState = .opening ∨ s.plan.dayState = .opened → s.plan.dayDate = some s.clock.date →
    s.followed s.minute) ∧
  (∀ s : State, ∃ t : State, exec .minuteEvent s = .next t ∧ t.clock = s.clock ∧ t.plan.dayState = s.plan.dayState ∧
      ((s.plan.dayState = .closing ∨ s.plan.dayState = .closed) → t.plan = s.plan) ∧
      ∀ (i : Fin 4) (p : PlanIF), (s.plan.tracks.get i).plan = some p →
        s.plan.dayState = .opening ∨ s.plan.dayState = .opened → s.plan.dayDate = some s.clock.date →
        (s.plan.tracks.get i).state ≠ .ended →
        let x := s.plan.tracks.get i
        let q : PlanIF :=
          { p with segs := (p.segs.zip (segStarts (p.start + x.delay) p.segs)).map fun e =>
              { e.1 with begun := e.1.begun || decide (e.2 * 60 ≤ s.clock.secs) } }
        t.plan.tracks.get i =
          { x with
            plan := some q
            state :=
              if (p.start + x.delay + (p.segs.map (·.len)).sum) * 60 ≤ s.clock.secs then .ended
              else if q.segs.head?.any (·.begun) then .running else x.state }) ∧
    (∀ (s : State) (i : Fin 4) (n : Nat) (p : PlanIF), s.plan.dayState = .opening ∨ s.plan.dayState = .opened →
      (s.plan.tracks.get i).plan = some p → (s.plan.tracks.get i).state ≠ .ended → n < p.segs.length →
      ∃ t : State, exec (.segmentBegin i n) s = .next t ∧
        t.plan.tracks.get i =
          { s.plan.tracks.get i with
            state := if n = 0 ∧ (s.plan.tracks.get i).state = .planned then .running else (s.plan.tracks.get i).state
            plan := some { p with segs := p.segs.modify n fun g => { g with begun := true } } } ∧
        (∀ j : Fin 4, j ≠ i → t.plan.tracks.get j = s.plan.tracks.get j) ∧
        ∀ (g : SegIF) (ss : Session), p.segs[n]? = some g → g.seg.point = some ss →
          s.session i ss = some .before → t.session i ss = some .opened) ∧
    ∀ (s : State) (i : Fin 4), s.plan.dayState = .opening ∨ s.plan.dayState = .opened →
      (s.plan.tracks.get i).state ≠ .ended →
      ∃ t : State, exec (.dayEnd i) s = .next t ∧
        t.plan = { s.plan with tracks := s.plan.tracks.set i ({ s.plan.tracks.get i with state := .ended }) } ∧
        ∀ (p : Nat) (ss : Session), (s.record p ss).alert = .withheld → (s.record p ss).mark = .n → s.trackOf p = i →
          (t.record p ss).alert ≠ .withheld

/-- R34, R35: of a cut of T minutes from segments whose slacks sum to S, each segment takes floor(T × s / S) minutes, and one more for the
largest remainders, the later segment first among equals, none for a remainder of 0. The cuts sum to T, no length falls below its minimum,
and a segment that is not eligible keeps its length; a T above S is answered with the deficit T − S (R35). -/
def Obligations.CompressionCutsInProportion : Prop :=
  ∀ (total : Nat) (elig : SegIF → Bool) (segs : List SegIF), (∀ g ∈ segs, elig g = true → g.seg.minimum ≤ g.len) →
    let slack := fun g : SegIF => if elig g then g.len - g.seg.minimum else 0
    let sum := (segs.map slack).sum
    (sum < total → compress total elig segs = .error (total - sum)) ∧
      (total ≤ sum → ∃ out : List SegIF, compress total elig segs = .ok out ∧ out.length = segs.length ∧
        (out.map (·.len)).sum + total = (segs.map (·.len)).sum ∧
        ∀ (i : Nat) (g c : SegIF), segs[i]? = some g → out[i]? = some c →
          c.seg = g.seg ∧ c.begun = g.begun ∧ c.len ≤ g.len ∧ (elig g = true → g.seg.minimum ≤ c.len) ∧
          (elig g = false → c.len = g.len) ∧
          (g.len = c.len + total * slack g / sum ∨
            (g.len = c.len + total * slack g / sum + 1 ∧ 0 < total * slack g % sum ∧
              ∀ (j : Nat) (h e : SegIF), segs[j]? = some h → out[j]? = some e →
                h.len = e.len + total * slack h / sum →
                total * slack h % sum < total * slack g % sum ∨
                  (total * slack h % sum = total * slack g % sum ∧ j < i))))

/-- R29: whatever the command and the state, a step keeps the bounds of every track's plan in force: no length outside its minimum and its
nominal length, and lengths that sum to the nominal day less D and E, while the stored plans' minimums lie within their nominal lengths.
R29, R30: a plan in force built from a stored plan whose minimums lie within its nominal lengths keeps every length between the minimum
and the nominal length; its lengths sum to the nominal day less D and E in force, it starts at the stored start plus D and ends at the
nominal end less E. -/
def Obligations.PlanInForceKeepsItsBounds : Prop :=
  (∀ s t : State, s.plansHold → step s = .next t → t.plansHold) ∧
  ∀ (p : Plan) (kind : Option DayKind) (d e secs : Nat) (t : Track), (∀ g ∈ p.segs, g.minimum ≤ g.nominal) →
    buildTrack p kind d e secs = .ok t →
    ∃ q : PlanIF, t.plan = some q ∧ t.kind = kind ∧ t.delay = d ∧ t.early = e ∧ q.segs.map (·.seg) = p.segs ∧
      (∀ g ∈ q.segs, g.seg.minimum ≤ g.len ∧ g.len ≤ g.seg.nominal) ∧
      (q.segs.map (·.len)).sum + d + e = (p.segs.map (·.nominal)).sum ∧
      dayStart q d = p.start + d ∧ dayEndOf q d + e = p.start + (p.segs.map (·.nominal)).sum

/-- R21: the refusals of DAY OPEN in their order, each changing nothing.
R21, R22, R23, R180: an accepted DAY OPEN is answered ACCEPTED, takes the date, builds the four tracks and the bell lists (R44: what a
list then holds is said with the bells), sets the next slip number to 1 and clears the conflict list, its next id and its counters (R125).
With no store job the day is OPENING while the rebuild has pages to read, and OPEN, with DAY_READY latched, when it has none; under a READ
the rebuild waits for it. No report is held unparsed and no ARCHIVE READ waits: R163 and R180 leave none in a CLOSED day.
R97, R99, R112, R114, R117: every session record is cleared and every tally 0; each session is BEFORE, OPEN when its point has begun, or
CLOSED when its close time is reached; a group of a session that closes so is EMPTY without members and MISSING with them, REGISTER_MISSING
being latched; another is AWAITED, and for PM NOT_HELD when its track has no PM point.
R127: an advance report dated before the day is dropped and counted expired; one of the day is dropped and counted applied, each session it
names becoming R by PARENT, PM only with a PM point, or unmatched when its pupil is not in use; later ones stay.
R96, R146, R173: the desk, pool and gateway statistics are cleared, the peak taking the segments in use.
R118, R189: the pages that the rebuild reads: of the newest entry of each date of the day's week before the day, the good pages of its span
in ring order, 64 records to a page, to its record count. -/
def Obligations.DayOpenIsCheckedAndTaken : Prop :=
  (∀ (s : State) (tag : Nat) (date : RawDate) (kinds : Quad Nat) (delays : Option (Quad Nat)), s.ready →
      let c : Instr := .dayOpen tag date kinds delays
      let d : Quad Nat := delays.getD ⟨0, 0, 0, 0⟩
      let argsOk := (∀ i : Fin 4, kinds.get i ≤ 3 ∧ d.get i ≤ 240) ∧
        (⟨date.day, date.month, date.year + 2000⟩ : Date) = s.clock.date ∧ s.clock.date.valid = true
      let saving := ∃ (ph : SavePhase) (n : Nat), s.store.job = .save ph n
      let late := ∃ i : Fin 4, 0 < d.get i ∧ ((s.storedPlan (i.val * 4 + kinds.get i)).start + d.get i) * 60 ≤ s.clock.secs
      (s.clock.isSet = false → Refuses c s 0x11 tag .noclock) ∧
        (s.clock.isSet = true → ¬ argsOk → Refuses c s 0x11 tag .badArg) ∧
        (s.clock.isSet = true → argsOk → s.plan.dayState ≠ .closed → Refuses c s 0x11 tag .state) ∧
        (s.clock.isSet = true → argsOk → s.plan.dayState = .closed → saving → Refuses c s 0x11 tag .busy) ∧
        (s.clock.isSet = true → argsOk → s.plan.dayState = .closed → ¬ saving → late → Refuses c s 0x11 tag .state) ∧
        (∀ (i : Fin 4) (x : Nat), s.clock.isSet = true → argsOk → s.plan.dayState = .closed → ¬ saving → ¬ late →
          (∀ j : Fin 4, j.val < i.val → ∃ y : Track,
            buildTrack (s.storedPlan (j.val * 4 + kinds.get j)) (DayKind.ofCode (kinds.get j)) (d.get j) 0 s.clock.secs = .ok y) →
          buildTrack (s.storedPlan (i.val * 4 + kinds.get i)) (DayKind.ofCode (kinds.get i)) (d.get i) 0 s.clock.secs = .error x →
          Answers c s 0x11 tag id .shortfall (b1 i.val ++ b2 x))) ∧
    (∀ (s : State) (tag : Nat) (date : RawDate) (kinds : Quad Nat) (delays : Option (Quad Nat)) (tr : Quad Track), s.ready →
      s.clock.isSet = true → s.plan.dayState = .closed →
      s.store.job = .idle ∨ (∃ (r : ReadReq) (l : List DayRecord), s.store.job = .read r l) → s.store.waitingRead = none →
      (∀ m ∈ s.pool.msgs, m.kind ≠ .inbound) →
      let d : Quad Nat := delays.getD ⟨0, 0, 0, 0⟩
      (∀ i : Fin 4, kinds.get i ≤ 3 ∧ d.get i ≤ 240 ∧
        (d.get i = 0 ∨ s.clock.secs < ((s.storedPlan (i.val * 4 + kinds.get i)).start + d.get i) * 60) ∧
        buildTrack (s.storedPlan (i.val * 4 + kinds.get i)) (DayKind.ofCode (kinds.get i)) (d.get i) 0 s.clock.secs =
          .ok (tr.get i)) →
      date.year ≤ 99 → (⟨date.day, date.month, date.year + 2000⟩ : Date) = s.clock.date → s.clock.date.valid = true →
      let day := s.clock.date
      let now : Stamp := ⟨day, s.clock.secs⟩
      let add := fun n k : Nat => if k = 0 then n else min (n + k) 4294967295
      let count := fun f : Advance → Bool => (s.recon.advance.filter f).length
      let pm := fun i : Fin 4 => ∃ q : PlanIF, (tr.get i).plan = some q ∧ hasPm q = true
      let closes := fun (i : Fin 4) (ss : Session) => ∃ (q : PlanIF) (m : Nat), (tr.get i).plan = some q ∧
        sessionClose q (tr.get i).delay ss = some m ∧ m * 60 ≤ s.clock.secs
      let begun := fun (i : Fin 4) (ss : Session) => ∃ (q : PlanIF) (g : SegIF), (tr.get i).plan = some q ∧ g ∈ q.segs ∧
        g.seg.point = some ss ∧ g.begun = true
      let reported := fun (p : Nat) (ss : Session) => (s.pupil p).inUse = true ∧ (ss = .pm → pm (s.trackOf p)) ∧
        ∃ a ∈ s.recon.advance, a.date = day ∧ a.pupil = p ∧
          (a.sessions = .both ∨ (a.sessions = .am ∧ ss = .am) ∨ (a.sessions = .pm ∧ ss = .pm))
      let reads := s.store.rebuildReads day
      ∃ u : State, Answers (.dayOpen tag date kinds delays) s 0x11 tag (fun _ => u) .accepted [] ∧
        u.plan.dayDate = some day ∧ u.plan.tracks = tr ∧ u.plan.deferredClose = false ∧ u.clock = s.clock ∧ u.set = s.set ∧
        u.bells = (State.rebuildBells { s with plan := u.plan }).bells ∧ u.stations = s.stations ∧
        u.slips = { s.slips with next := 1 } ∧ u.desk = { s.desk with stats := DeskStats.cleared now } ∧
        u.pool = { s.pool with stats := ⟨0, ⟨0, 0, 0, 0⟩, ⟨0, 0, 0, 0⟩, 96 - s.pool.freeSegs, now⟩ } ∧ u.sched = s.sched ∧
        u.gw = { s.gw with stats :=
          ⟨0, 0, 0, 0, 0, 0, 0, 0, 0, 0, 0, 0, 0, 0, ⟨0, 0, 0, 0, 0⟩, ⟨0, 0, 0, 0, 0⟩, ⟨0, 0, 0, 0, 0⟩⟩ } ∧
        u.recon = { s.recon with
          conflicts := []
          nextId := 1
          conflictCnt := ⟨0, 0, 0, 0, 0⟩
          advance := s.recon.advance.filter fun a => decide (day.number < a.date.number)
          advCnt := { s.recon.advCnt with
            expired := add s.recon.advCnt.expired (count fun a => decide (a.date.number < day.number))
            applied := add s.recon.advCnt.applied (count fun a => decide (a.date = day) && (s.pupil a.pupil).inUse)
            unmatched := add s.recon.advCnt.unmatched (count fun a => decide (a.date = day) && !(s.pupil a.pupil).inUse) } } ∧
        (∀ (p : Nat) (ss : Session),
          (reported p ss → u.record p ss = { Rec.cleared with mark := .r, source := some .parent }) ∧
            (¬ reported p ss → u.record p ss = Rec.cleared)) ∧
        (∀ p : Nat, u.tally p = ⟨0, 0, false⟩) ∧
        (∀ (i : Fin 4) (ss : Session),
          (closes i ss → u.session i ss = some .closed) ∧ (¬ closes i ss → begun i ss → u.session i ss = some .opened) ∧
            (¬ closes i ss → ¬ begun i ss → u.session i ss = some .before)) ∧
        (∀ (g : Nat) (ss : Session), g < 120 →
          let i := (s.group g).track
          (closes i ss → s.members g = [] → u.groupStatus g ss = .empty) ∧
            (closes i ss → s.members g ≠ [] → u.groupStatus g ss = .missing ∧ u.link.isSet .registerMissing = true) ∧
            (¬ closes i ss → ss = .am ∨ pm i → u.groupStatus g ss = .awaited) ∧
            (ss = .pm → ¬ pm i → u.groupStatus g ss = .notHeld)) ∧
        (s.store.job = .idle → reads = [] → u.plan.dayState = .opened ∧ u.link.isSet .dayReady = true ∧
          u.store = { s.store with op := .idle }) ∧
        (∀ (r : PageRead) (l : List PageRead), s.store.job = .idle → reads = r :: l →
          u.plan.dayState = .opening ∧ u.store = { s.store with job := .rebuild reads [], op := .reading r.page }) ∧
        (s.store.job ≠ .idle → u.plan.dayState = .opening ∧ u.store = { s.store with pendingJob := some .rebuild })) ∧
    ∀ (x : Store) (day : Date) (r : PageRead),
      (∀ (k j : Nat) (e f : DayEntry), x.dir[k]? = some (some e) → x.dir[j]? = some (some f) → e.commit = f.commit → k = j) →
      (r ∈ x.rebuildReads day ↔ ∃ (e : DayEntry) (i p : Nat), some e ∈ x.dir ∧
        e.date.number < day.number ∧ day.number ≤ e.date.number + day.weekday ∧
        (∀ f : DayEntry, some f ∈ x.dir → f.date = e.date → f = e ∨ f.commit < e.commit) ∧
        (((List.range e.pages).map fun k => (e.first + k) % 1280).filter fun q => decide (q ∉ x.bad))[i]? = some p ∧
        64 * i < e.records ∧ r = ⟨260 + p, 0, min 64 (e.records - 64 * i)⟩)

/-- R25, R40: DAY STATUS and PLAN QUERY without a trial answer OK in every day state and change nothing; PLAN QUERY of a track without a plan
in force is NOT_FOUND, and of no track BAD_ARG.
R40, R37, R38: PLAN QUERY with a trial of n minutes answers, in place of the current lengths and times, those that an EARLY CLOSE of n
minutes would give, or SHORTFALL with the deficit; a trial that would bring E above 240 is BAD_ARG, and one on an ENDED track or in another
day state STATE. It changes nothing. Its reply gives E and the flags as they stand, and that of DAY STATUS its four
tracks without a count before them (log 11, DEDUCED: the model's readings). -/
def Obligations.DayStatusAndPlanQuery : Prop :=
  (∀ (s : State) (tag : Nat), s.ready →
      Answers (.dayStatus tag) s 0x13 tag id .ok
        (bDate s.clock.date ++ b1 s.clock.weekday ++ bTime s.clock.secs ++ bFlag s.clock.isSet ++ b1 s.plan.dayState.code ++
          bOpt 3 bDate s.plan.dayDate ++
          [s.plan.tracks.q0, s.plan.tracks.q1, s.plan.tracks.q2, s.plan.tracks.q3].flatMap fun t =>
            b1 t.state.code ++ bOpt 1 (fun k : DayKind => b1 k.code) t.kind ++ b1 t.delay ++ b1 t.early)) ∧
    (∀ (s : State) (tag : Nat) (i : Fin 4) (p : PlanIF), s.ready → (s.plan.tracks.get i).plan = some p →
      let x := s.plan.tracks.get i
      let open_ := s.plan.dayState = .opening ∨ s.plan.dayState = .opened
      let report := fun segs : List SegIF =>
        let q : PlanIF := { p with segs := segs }
        let starts := segStarts (p.start + x.delay) segs
        b1 x.state.code ++ b1 (x.kind.getD .normal).code ++ b1 x.delay ++ b1 x.early ++
          bMinute (p.start + x.delay) ++ bMinute (p.start + x.delay + (segs.map (·.len)).sum) ++
          bMinute? (sessionPoint q x.delay .am) ++ bMinute? (sessionClose q x.delay .am) ++
          bMinute? (sessionPoint q x.delay .pm) ++ bMinute? (sessionClose q x.delay .pm) ++
          b1 p.grace ++ b1 p.kAm ++ b1 p.kPm ++ b1 p.allowance ++ b1 p.warning ++
          bList (fun e : SegIF × Nat => b1 e.1.seg.kind.code ++ bMinute e.2 ++ b1 e.1.len ++ b1 e.1.seg.nominal ++
            b1 e.1.seg.minimum ++ bFlag e.1.seg.compressible ++ bFlag e.1.seg.quiet ++ bFlag e.1.begun) (segs.zip starts)
      let given := fun segs : List SegIF => report ((p.segs.zip segs).map fun e => { e.1 with len := e.2.len })
      Answers (.planQuery tag i.val none) s 0x16 tag id .ok (report p.segs) ∧
        ∀ n : Nat,
          let c : Instr := .planQuery tag i.val (some n)
          (240 < x.early + n → Refuses c s 0x16 tag .badArg) ∧
            (x.early + n ≤ 240 → ¬ (open_ ∧ x.state ≠ .ended) → Refuses c s 0x16 tag .state) ∧
            (x.early + n ≤ 240 → open_ → x.state = .planned →
              (∀ m : Nat, buildTrack (baseOf p) x.kind x.delay (x.early + n) s.clock.secs = .error m →
                Answers c s 0x16 tag id .shortfall (b2 m)) ∧
              ∀ (y : Track) (q : PlanIF), buildTrack (baseOf p) x.kind x.delay (x.early + n) s.clock.secs = .ok y →
                y.plan = some q → Answers c s 0x16 tag id .ok (given q.segs)) ∧
            (x.early + n ≤ 240 → open_ → x.state = .running →
              (∀ m : Nat, compress n (fun g => g.seg.compressible && !g.begun) p.segs = .error m →
                Answers c s 0x16 tag id .shortfall (b2 m)) ∧
              ∀ segs : List SegIF, compress n (fun g => g.seg.compressible && !g.begun) p.segs = .ok segs →
                Answers c s 0x16 tag id .ok (given segs))) ∧
    (∀ (s : State) (tag : Nat) (i : Fin 4) (n : Option Nat), s.ready → (s.plan.tracks.get i).plan = none →
      Refuses (.planQuery tag i.val n) s 0x16 tag .notFound) ∧
    ∀ (s : State) (tag track : Nat) (n : Option Nat), s.ready → 4 ≤ track →
      Refuses (.planQuery tag track n) s 0x16 tag .badArg

/-- R36: OPENING DELAY on a PLANNED track of an OPENING or OPEN day rebuilds its plan in force with T equal to the new D plus E, republishes
it and answers the new day start and AM point; what cannot be absorbed is SHORTFALL with the deficit, a track or delay out of range
BAD_ARG, and a track that is not PLANNED, a start at or before now, or another day state STATE, whether or not the track holds a plan in
force, each changing nothing.
R37, R38: EARLY CLOSE of n minutes rebuilds a PLANNED track with T equal to D plus the old E plus n, and compresses the unbegun
compressible segments of a RUNNING track by n from their current lengths; E grows by n, the plan is republished and the reply gives the
new day end and E. A track outside 0 to 3 and an E above 240 are BAD_ARG, another day state or an ENDED track STATE, whether or not the
track holds a plan in force, and what cannot be absorbed SHORTFALL. -/
def Obligations.DelayAndEarlyClose : Prop :=
  (∀ (s : State) (tag track delay : Nat), s.ready →
      (4 ≤ track ∨ 240 < delay → Refuses (.openingDelay tag track delay) s 0x14 tag .badArg) ∧
        ∀ i : Fin 4, track = i.val → delay ≤ 240 →
          let x := s.plan.tracks.get i
          let may := (s.plan.dayState = .opening ∨ s.plan.dayState = .opened) ∧ x.state = .planned
          (¬ may → Refuses (.openingDelay tag track delay) s 0x14 tag .state) ∧
            ∀ p : PlanIF, x.plan = some p →
              (may → (p.start + delay) * 60 ≤ s.clock.secs → Refuses (.openingDelay tag track delay) s 0x14 tag .state) ∧
              (may → s.clock.secs < (p.start + delay) * 60 →
                (∀ n : Nat, buildTrack (baseOf p) x.kind delay x.early s.clock.secs = .error n →
                  Answers (.openingDelay tag track delay) s 0x14 tag id .shortfall (b2 n)) ∧
                ∀ (y : Track) (q : PlanIF), buildTrack (baseOf p) x.kind delay x.early s.clock.secs = .ok y → y.plan = some q →
                  Answers (.openingDelay tag track delay) s 0x14 tag
                    (fun u => ({ u with plan.tracks := u.plan.tracks.set i y }).recomputeBells i) .ok
                    (bMinute (p.start + delay) ++ bMinute? (sessionPoint q delay .am)))) ∧
    (∀ (s : State) (tag track n : Nat), s.ready → 4 ≤ track → Refuses (.earlyClose tag track n) s 0x15 tag .badArg) ∧
    ∀ (s : State) (tag : Nat) (i : Fin 4) (n : Nat), s.ready →
      let c : Instr := .earlyClose tag i.val n
      let x := s.plan.tracks.get i
      let open_ := s.plan.dayState = .opening ∨ s.plan.dayState = .opened
      (240 < x.early + n → Refuses c s 0x15 tag .badArg) ∧
        (x.early + n ≤ 240 → ¬ (open_ ∧ x.state ≠ .ended) → Refuses c s 0x15 tag .state) ∧
        ∀ p : PlanIF, x.plan = some p →
          (x.early + n ≤ 240 → open_ → x.state = .planned →
            (∀ m : Nat, buildTrack (baseOf p) x.kind x.delay (x.early + n) s.clock.secs = .error m →
              Answers c s 0x15 tag id .shortfall (b2 m)) ∧
            ∀ (y : Track) (q : PlanIF), buildTrack (baseOf p) x.kind x.delay (x.early + n) s.clock.secs = .ok y → y.plan = some q →
              Answers c s 0x15 tag (fun u => ({ u with plan.tracks := u.plan.tracks.set i y }).recomputeBells i) .ok
                (bMinute (dayEndOf q x.delay) ++ b1 (x.early + n))) ∧
          (x.early + n ≤ 240 → open_ → x.state = .running →
            (∀ m : Nat, compress n (fun g => g.seg.compressible && !g.begun) p.segs = .error m →
              Answers c s 0x15 tag id .shortfall (b2 m)) ∧
            ∀ segs : List SegIF, compress n (fun g => g.seg.compressible && !g.begun) p.segs = .ok segs →
              let y : Track := { x with early := x.early + n, plan := some { p with segs := segs } }
              Answers c s 0x15 tag (fun u => ({ u with plan.tracks := u.plan.tracks.set i y }).recomputeBells i) .ok
                (bMinute (p.start + x.delay + (segs.map (·.len)).sum) ++ b1 (x.early + n)))

/-! ## Bell zones (03) -/

/-- R47: a PENDING event that comes due in an IDLE zone becomes RINGING, its ring start is recorded and its ring begins, with the duration
of its kind; in a CHECKING zone the check is ABORTED first, with CHECK_DONE latched; in a RINGING zone it becomes WAITING. An event that is
not PENDING, such as one SKIPPED or SUPPRESSED, never comes due. The row takes the event's time as reached (log 4, DESIGN CHOICE).
R43: the events of a publication: one for each segment that starts with a START or CHANGE bell, at its start; a WARNING W minutes before the
AM point, when W is at least 1 and the time is at or after 00:00; and an END at the day end. Each is SUPPRESSED when it falls within a quiet
segment and PENDING otherwise; they stand in order of time, at equal times segment, WARNING, END, none twice.
R44: what DAY OPEN makes of a zone's list: the events of its track's publication, none for a zone following NONE, those at or before now that
are not SUPPRESSED being SKIPPED; the WAITING events of the old list are kept apart, after those kept apart before (log 38, DESIGN CHOICE),
and its RINGING one rings on kept apart.
R45: what a republication makes of the list of a zone that follows the track: the reached events stay; of the other sources the publication's
events take their places, in order. A SUPPRESSED event at or before now counts as reached (log 22, DESIGN CHOICE). -/
def Obligations.BellEventsComeDue : Prop :=
  (∀ (p : PlanIF) (d : Nat),
    let starts := fun n : Nat => p.start + d + ((p.segs.take n).map (·.len)).sum
    let quiet := fun m : Nat => ∃ (n : Nat) (g : SegIF), p.segs[n]? = some g ∧ starts n ≤ m ∧ m < starts n + g.len ∧
      g.seg.quiet = true
    let made := fun (e : BellEvent) (src : BellSource) (k : BellKind) (time : Nat) (q : Prop) =>
      e.source = src ∧ e.kind = k ∧ e.time = time ∧ e.ringStart = none ∧ e.fault = none ∧ e.passed = false ∧
        (q → e.outcome = .suppressed) ∧ (¬ q → e.outcome = .pending)
    let rank := fun x : BellSource => match x with
      | .segment _ => 0
      | .warning => 1
      | .dayEnd => 2
    (∀ e : BellEvent, e ∈ bellsOf p d ↔
      (∃ (n : Nat) (g : SegIF), p.segs[n]? = some g ∧
        ((g.seg.bell = .start ∧ made e (.segment n) .start (starts n) (g.seg.quiet = true)) ∨
          (g.seg.bell = .change ∧ made e (.segment n) .change (starts n) (g.seg.quiet = true)))) ∨
      (∃ m : Nat, sessionPoint p d .am = some m ∧ 1 ≤ p.warning ∧ p.warning ≤ m ∧
        made e .warning .warning (m - p.warning) (quiet (m - p.warning))) ∨
      made e .dayEnd .dayEnd (starts p.segs.length) (∃ g : SegIF, p.segs.getLast? = some g ∧ g.seg.quiet = true)) ∧
      (bellsOf p d).Pairwise (fun a b => a.time < b.time ∨ (a.time = b.time ∧ rank a.source ≤ rank b.source)) ∧
      ((bellsOf p d).map (·.source)).Nodup) ∧
  (∀ (s : State) (z : Fin 4),
    let x := s.bells.get z
    let past := fun e : BellEvent =>
      if e.outcome = .pending ∧ e.time * 60 ≤ s.clock.secs then { e with outcome := .skipped }
      else if e.outcome = .suppressed ∧ e.time * 60 ≤ s.clock.secs then { e with passed := true } else e
    let track := (s.set.zones.get z).track
    let plan := fun i : Fin 4 => (s.plan.tracks.get i).plan;
    (let y := s.rebuildBells.bells.get z;
      y = { x with act := y.act, kept := x.kept ++ x.list.filter (fun e => e.outcome == .waiting), list := y.list } ∧
        (∀ (src : BellSource) (k : BellKind), x.act = .ringing (.event src k) → y.act = .ringing (.kept k)) ∧
        ((∀ (src : BellSource) (k : BellKind), x.act ≠ .ringing (.event src k)) → y.act = x.act) ∧
        (track = none ∨ (∃ i : Fin 4, track = some i ∧ plan i = none) → y.list = []) ∧
        ∀ (i : Fin 4) (p : PlanIF), track = some i → plan i = some p →
          y.list = (bellsOf p (s.plan.tracks.get i).delay).map past) ∧
      ∀ i : Fin 4,
        let y := (s.recomputeBells i).bells.get z
        let done := fun e : BellEvent => e.outcome ≠ .pending ∧ (e.outcome = .suppressed → e.passed = true)
        (track ≠ some i → y = x) ∧
          ∀ p : PlanIF, track = some i → plan i = some p →
            y = { x with list := y.list } ∧
              (∀ e : BellEvent, e ∈ y.list ↔ (e ∈ x.list ∧ done e) ∨
                ∃ f ∈ bellsOf p (s.plan.tracks.get i).delay, (∀ g ∈ x.list, done g → g.source ≠ f.source) ∧ e = past f) ∧
              y.list.Pairwise (fun a b => a.time ≤ b.time) ∧
              ((x.list.map (·.source)).Nodup → (y.list.map (·.source)).Nodup)) ∧
  ∀ (s : State) (z : Fin 4) (src : BellSource),
    let x := s.bells.get z
    let c := s.set.zones.get z
    (∀ (a b : List BellEvent) (e : BellEvent), x.list = a ++ e :: b → e.source = src → e.outcome = .pending →
      (∀ f ∈ a, f.source ≠ src) →
      let time := match e.kind with
        | .start => c.start
        | .change => c.change
        | .warning => c.warning
        | .dayEnd => c.dayEnd
      let rung : Zone :=
        { x with
          act := .ringing (.event src e.kind)
          left := time
          openSeen := false
          overSeen := false
          level := c.level
          filter := c.filter
          list := a ++ { e with outcome := .ringing, ringStart := some s.clock.secs } :: b }
      (x.act = .idle → Does (.bellEventDue z src) s { s with bells := s.bells.set z rung }) ∧
        (x.act = .checking → Does (.bellEventDue z src) s
          ({ s with bells := s.bells.set z { rung with lastCheck := some .aborted } }.raise .checkDone)) ∧
        (∀ what : RingWhat, x.act = .ringing what → Does (.bellEventDue z src) s
          { s with bells := s.bells.set z { x with list := a ++ { e with outcome := .waiting } :: b } })) ∧
      ((∀ e ∈ x.list, e.source = src → e.outcome ≠ .pending) → Does (.bellEventDue z src) s s)

/-- R52, R49, R44: the end of a ring. It counts one more ring, and one more failed ring when a fault arose in it, OVERLOAD before OPEN; the
fault becomes the zone's active fault, and a failed ring of a zone with auto-check set asks for a check. A list event becomes RUNG or FAILED
and takes the fault; a manual ring leaves that as the last manual outcome; an event kept apart is in no list.
R48: the circuit is handed on in the same event: to the oldest WAITING event kept apart from a discarded list, then to the first WAITING
event of the list, then to a pending manual ring, then to a requested check; with none of them the zone is IDLE. The row takes the ring's
duration as run (log 4, DESIGN CHOICE). That no seconds remain in IDLE (log 39), and that events kept apart from an earlier list ring before
those of a later one (log 38), is the model's choice (DESIGN CHOICE). -/
def Obligations.RingsEndAndHandOn : Prop :=
  ∀ (s : State) (z : Fin 4) (what : RingWhat),
    let x := s.bells.get z
    let c := s.set.zones.get z
    x.act = .ringing what →
    let bad := x.openSeen || x.overSeen
    let seen : FaultSeen := if x.overSeen then .overload else if x.openSeen then .openFault else .clear
    let counted : Zone :=
      { x with
        rings := min (x.rings + 1) 4294967295
        failed := if bad then min (x.failed + 1) 4294967295 else x.failed
        active := if x.overSeen then .overload else if x.openSeen then .openFault else .clear
        autoRequest := x.autoRequest || (bad && c.auto) }
    ∀ done : Zone,
      ((∃ (src : BellSource) (k : BellKind) (a b : List BellEvent) (e : BellEvent), what = .event src k ∧
          x.list = a ++ e :: b ∧ e.source = src ∧ (∀ f ∈ a, f.source ≠ src) ∧
          done = { counted with
            list := a ++ { e with outcome := if bad then .failed else .rung, fault := some seen } :: b }) ∨
        (what = .manual ∧ done = { counted with lastManual := some (!bad) }) ∨
        (∃ k : BellKind, what = .kept k ∧ done = counted)) →
      let becomes := fun y : Zone => Does (.ringEnd z) s { s with bells := s.bells.set z y }
      let rings := fun (y : Zone) (what : RingWhat) (time : Nat) =>
        { y with act := .ringing what, left := time, openSeen := false, overSeen := false, level := c.level, filter := c.filter }
      let duration := fun k : BellKind => match k with
        | .start => c.start
        | .change => c.change
        | .warning => c.warning
        | .dayEnd => c.dayEnd
      let noBell := done.kept = [] ∧ ∀ f ∈ done.list, f.outcome ≠ .waiting
      (∀ (w : BellEvent) (rest : List BellEvent), done.kept = w :: rest →
        becomes (rings { done with kept := rest } (.kept w.kind) (duration w.kind))) ∧
      (∀ (p q : List BellEvent) (w : BellEvent), done.kept = [] → done.list = p ++ w :: q → w.outcome = .waiting →
        (∀ f ∈ p, f.outcome ≠ .waiting ∧ f.source ≠ w.source) →
        becomes (rings { done with list := p ++ { w with outcome := .ringing, ringStart := some s.clock.secs } :: q }
          (.event w.source w.kind) (duration w.kind))) ∧
      (noBell → done.manualPending = true → becomes (rings { done with manualPending := false } .manual c.manual)) ∧
      (noBell → done.manualPending = false → done.autoRequest = true →
        becomes { done with act := .checking, left := 2, autoRequest := false, checks := min (x.checks + 1) 4294967295 }) ∧
      (noBell → done.manualPending = false → done.autoRequest = false → becomes { done with act := .idle, left := 0 })

/-- R50, R51: during a ring, a current below the open level for the filter time raises an open fault once in the ring, counted and with
ZONE_FAULT latched, and the ring goes on; a current above 2.0 A for 50 ms is an overload, counted and with ZONE_FAULT latched, and ends
the ring at once. Outside a ring, or short of the level or the time, neither arises.
R54, R55: ZONE CHECK on an IDLE zone is ACCEPTED and starts a check of 2 s; on another it is BUSY, and a zone above 3 is BAD_ARG. A
probe current above 250 mA for 50 ms is SHORT; a probe that ends is OPEN below 10 mA and OK otherwise. The result sets the active fault,
latches CHECK_DONE, and ZONE_FAULT when it is not OK; with nothing waiting the zone becomes IDLE. The rows carry the currents and their
times (log 6, DESIGN CHOICE); that no seconds remain in IDLE is the model's choice (log 39, DESIGN CHOICE). -/
def Obligations.RingFaultsAndChecks : Prop :=
  (∀ (s : State) (z : Fin 4) (ma ms : Nat),
      let x := s.bells.get z
      let c := s.set.zones.get z
      let level := [25, 50, 75, 100, 150, 200, 300, 400].getD x.level 400
      (∀ what : RingWhat, x.act = .ringing what → x.openSeen = false → ma < level → x.filter * 100 ≤ ms →
        Does (.openFault z ma ms) s
          ({ s with bells := s.bells.set z { x with openSeen := true, opens := min (x.opens + 1) 4294967295 } }.raise
            .zoneFault)) ∧
        ((x.act = .idle ∨ x.act = .checking ∨ x.openSeen = true ∨ level ≤ ma ∨ ms < x.filter * 100) →
          Does (.openFault z ma ms) s s) ∧
        (∀ what : RingWhat, x.act = .ringing what → 2000 < ma → 50 ≤ ms →
          let ended := endRing c s.clock.secs { x with overSeen := true, overloads := min (x.overloads + 1) 4294967295 }
          Does (.overload z ma ms) s ({ s with bells := s.bells.set z ended }.raise .zoneFault)) ∧
        ((x.act = .idle ∨ x.act = .checking ∨ ma ≤ 2000 ∨ ms < 50) → Does (.overload z ma ms) s s)) ∧
    ((∀ (s : State) (tag : Nat) (z : Fin 4), s.ready →
        let x := s.bells.get z
        let next : Zone := { x with act := .checking, left := 2, autoRequest := false, checks := min (x.checks + 1) 4294967295 }
        (x.act = .idle → Answers (.zoneCheck tag z.val) s 0x19 tag (fun u => { u with bells := u.bells.set z next })
          .accepted []) ∧
          (x.act ≠ .idle → Refuses (.zoneCheck tag z.val) s 0x19 tag .busy)) ∧
      (∀ (s : State) (tag zone : Nat), s.ready → 4 ≤ zone → Refuses (.zoneCheck tag zone) s 0x19 tag .badArg) ∧
      ∀ (s : State) (z : Fin 4) (ma ms : Nat),
        let x := s.bells.get z
        let idle := fun (r : CheckResult) (f : ActiveFault) =>
          { s with bells := s.bells.set z { x with act := .idle, left := 0, lastCheck := some r, active := f } }
        (x.act = .checking → x.kept = [] → (∀ e ∈ x.list, e.outcome ≠ .waiting) → x.manualPending = false →
          x.autoRequest = false →
          (250 < ma → 50 ≤ ms → Does (.checkShort z ma ms) s (((idle .short .short).raise .zoneFault).raise .checkDone)) ∧
            (ma < 10 → Does (.probeEnd z ma) s (((idle .openCircuit .openFault).raise .zoneFault).raise .checkDone)) ∧
            (10 ≤ ma → Does (.probeEnd z ma) s ((idle .ok .clear).raise .checkDone))) ∧
          ((ma ≤ 250 ∨ ms < 50 ∨ x.act ≠ .checking) → Does (.checkShort z ma ms) s s))

/-- R49: ZONE RING starts the manual ring of an IDLE zone, stops the check of a CHECKING one with ABORTED and starts it, and in a RINGING
zone holds one ring as pending; with one pending already it is BUSY, and with a zone above 3 BAD_ARG. -/
def Obligations.ZoneRingIsTaken : Prop :=
  ∀ (s : State) (tag : Nat) (z : Fin 4), s.ready →
    let x := s.bells.get z
    let c := s.set.zones.get z
    let rung : Zone :=
      { x with
        act := .ringing .manual
        left := c.manual
        openSeen := false
        overSeen := false
        level := c.level
        filter := c.filter }
    (x.act = .idle → Answers (.zoneRing tag z.val) s 0x18 tag (fun u => { u with bells := u.bells.set z rung }) .ok []) ∧
      (x.act = .checking → Answers (.zoneRing tag z.val) s 0x18 tag
        (fun u => ({ u with bells := u.bells.set z { rung with lastCheck := some .aborted } }).raise .checkDone) .ok []) ∧
      (∀ what : RingWhat, x.act = .ringing what → x.manualPending = false →
        Answers (.zoneRing tag z.val) s 0x18 tag
          (fun u => { u with bells := u.bells.set z { x with manualPending := true } }) .ok []) ∧
      (∀ what : RingWhat, x.act = .ringing what → x.manualPending = true → Refuses (.zoneRing tag z.val) s 0x18 tag .busy) ∧
      (∀ zone : Nat, 4 ≤ zone → Refuses (.zoneRing tag zone) s 0x18 tag .badArg)

/-! ## Station lines (04) -/

/-- R59: the divisor of a target rate is the whole number nearest to 115,200 / target (that is 1,843,200 / (16 × target)), a half taken
upward, less one; a target of 0 or above 230,400, a divisor outside 0 to 255 and an error above 2.0 % are refused, a write of such an entry
with BAD_ARG. The actual rate of a divisor n, 115,200 / (n + 1), enters the error exactly, both sides being multiplied by n + 1. -/
def Obligations.DivisorOfATargetRate : Prop :=
  (∀ target n : Nat, divisorFor target = some n ↔
    0 < target ∧ target ≤ 230400 ∧ n ≤ 255 ∧
      (2 * (n + 1)) * target ≤ 2 * 115200 + target ∧ 2 * 115200 + target < (2 * (n + 1) + 2) * target ∧
      50 * ((115200 - target * (n + 1)) + (target * (n + 1) - 115200)) ≤ target * (n + 1)) ∧
    ∀ (s : State) (k : Fin 6) (l : List Byte), divisorFor (numAt l 1 4) = none →
      writeEntry .stations s (k.val + 1) l = .error ⟨.badArg, none⟩

/-- R60, R64 to R67: a complete ARRIVAL record on an enabled line, while the classifier is busy or the holding queue is empty. A bad record
is counted and answered RETRY in READY and WAIT in HELD; in READY a well-formed one, stamped with the Clock's seconds of day, joins a
queue of fewer than 2 (the classifier being busy) and is an overrun at 2, which makes the line HELD; in HELD it is dropped. A disabled line
ignores it. The date kept with the record is the model's own (log 15, DEDUCED), and that a record under assembly is given up uncounted its
reading (log 20, DEDUCED).
R76, R70: a well-formed record that completes on a READY line with an empty queue while the classifier is IDLE is taken in the same
event: the round-robin pointer stands at its station and the classifier is CLASSIFYING it. -/
def Obligations.ArrivalRecordsAreTaken : Prop :=
  (∀ (s : State) (n : Fin 6) (kind seq check : Byte) (code : Nat), code < 4294967296 →
      let c : Instr := .arrivalRecord n kind seq code check
      let x : Station := { s.stations.get n with asm := none, gap := 0 }
      let good := sum256 (kind :: seq :: b4 code ++ [check]) = 0 ∧ (kind = 0x01#8 ∨ (kind = 0x02#8 ∧ code < 65536))
      let a : Arrival := ⟨seq.toNat, kind == 0x02#8, code, s.clock.secs, s.clock.date⟩
      let busy := s.desk.cur.isSome = true
      let cfg := s.set.stations.get n
      let answer := fun d : Display => (⟨d, some seq.toNat, false, [], 0⟩ : Show)
      (cfg.enabled = false → Does c s s) ∧
        (cfg.enabled = true → ¬ good → busy ∨ x.queue = [] →
          let y := Station.show { x with cnt.bad := min (x.cnt.bad + 1) 4294967295 } (answer (if x.held then .wait else .retry))
          Does c s { s with stations := s.stations.set n y }) ∧
        (cfg.enabled = true → good → x.held = false → x.queue.length < 2 → busy →
          let y : Station := { x with queue := x.queue ++ [a], cnt.received := min (x.cnt.received + 1) 4294967295 }
          Does c s { s with stations := s.stations.set n y }) ∧
        (cfg.enabled = true → good → x.held = false → 2 ≤ x.queue.length → busy →
          let y := Station.show
            { x with
              held := true
              holdOff := cfg.holdOff
              cnt.received := min (x.cnt.received + 1) 4294967295
              cnt.overruns := min (x.cnt.overruns + 1) 4294967295 } (answer .wait)
          Does c s
            ({ s with
              stations := s.stations.set n y
              desk.stats.overruns := s.desk.stats.overruns.set n (min (s.desk.stats.overruns.get n + 1) 4294967295) }.raise
              .stationHeld)) ∧
        (cfg.enabled = true → good → x.held = true → busy ∨ x.queue = [] →
          let y := Station.show
            { x with
              cnt.received := min (x.cnt.received + 1) 4294967295
              cnt.heldDrops := min (x.cnt.heldDrops + 1) 4294967295 } (answer .wait)
          Does c s
            { s with
              stations := s.stations.set n y
              desk.stats.heldDrops := s.desk.stats.heldDrops.set n (min (s.desk.stats.heldDrops.get n + 1) 4294967295) })) ∧
    (∀ (s : State) (n : Fin 6) (kind seq check : Byte) (code : Nat), code < 4294967296 →
      (s.set.stations.get n).enabled = true → s.desk.cur = none → (s.stations.get n).queue = [] → (s.stations.get n).held = false →
      sum256 (kind :: seq :: b4 code ++ [check]) = 0 → kind = 0x01#8 ∨ (kind = 0x02#8 ∧ code < 65536) →
      let x := s.stations.get n
      let y : Station :=
        { x with
          asm := none
          gap := 0
          cnt.received := min (x.cnt.received + 1) 4294967295
          cnt.taken := min (x.cnt.taken + 1) 4294967295 }
      let q := s.desk.stats.stations.get n
      Does (.arrivalRecord n kind seq code check) s
        { s with
          stations := s.stations.set n y
          desk.cur := some (.station n ⟨seq.toNat, kind == 0x02#8, code, s.clock.secs, s.clock.date⟩)
          desk.pointer := n.val + 1
          desk.stats.stations := s.desk.stats.stations.set n { q with taken := min (q.taken + 1) 4294967295 } })

/-- R60, R62, R63: characters of an enabled station line, while the classifier is busy or the holding queue is empty. With nothing under
assembly the start marker E1h begins a record and another character is a stray; inside a record a character is kept until the record is
complete; a bad stop bit and a record abandoned for silence are counted and answered RETRY in READY and WAIT in HELD. A disabled line
ignores them. R62, R64: the character that completes a record, the seventh after the start marker, has the effect of the record's own row.
R68, R69, R72: a hold-off that has run returns a HELD line with an empty queue to READY, telling the station so, and leaves one with
records HELD; a SHOW record joins an output queue of fewer than 4, goes out at once when nothing is being sent, and is dropped and
counted at 4; when one has been sent it is counted and the next begins. The rows for a silence and a hold-off take them as run (log 4, DESIGN
CHOICE). -/
def Obligations.StationCharactersAndShows : Prop :=
  (∀ (s : State) (n : Fin 6) (c : Byte),
      let x := s.stations.get n
      let on := (s.set.stations.get n).enabled = true ∧ (s.desk.cur.isSome = true ∨ x.queue = [])
      let put := fun y : Station => { s with stations := s.stations.set n y }
      let answer : Show := ⟨if x.held then .wait else .retry, none, false, [], 0⟩
      ((s.set.stations.get n).enabled = false →
        Does (.stationCharacter n c) s s ∧ Does (.stationFramingError n) s s ∧ Does (.recordAbandoned n) s s) ∧
        (on → x.asm = none → c = 0xE1#8 → Does (.stationCharacter n c) s (put { x with asm := some [c], gap := 0 })) ∧
        (on → x.asm = none → c ≠ 0xE1#8 →
          Does (.stationCharacter n c) s (put { x with cnt.strays := min (x.cnt.strays + 1) 4294967295 })) ∧
        (∀ l : List Byte, on → x.asm = some l → l.length < 7 →
          Does (.stationCharacter n c) s (put { x with asm := some (l ++ [c]), gap := 0 })) ∧
        (∀ m kind seq c0 c1 c2 c3 : Byte, x.asm = some [m, kind, seq, c0, c1, c2, c3] →
          let code := c0.toNat * 16777216 + c1.toNat * 65536 + c2.toNat * 256 + c3.toNat
          exec (.stationCharacter n c) s = exec (.arrivalRecord n kind seq code c) s) ∧
        (on →
          let y : Station := { x with asm := none, gap := 0, cnt.framing := min (x.cnt.framing + 1) 4294967295 }
          Does (.stationFramingError n) s
            { put (y.show answer) with
              desk.stats.framing := s.desk.stats.framing.set n (min (s.desk.stats.framing.get n + 1) 4294967295) }) ∧
        (∀ l : List Byte, on → x.asm = some l →
          let y : Station := { x with asm := none, gap := 0, cnt.abandoned := min (x.cnt.abandoned + 1) 4294967295 }
          Does (.recordAbandoned n) s (put (y.show answer)))) ∧
    ((∀ (s : State) (n : Fin 6),
        let x := s.stations.get n
        let put := fun y : Station => { s with stations := s.stations.set n y }
        (0 < x.holdOff → x.held = true → x.queue = [] →
          Does (.holdOff n) s (put (Station.show { x with holdOff := 0, held := false } ⟨.ready, none, false, [], 0⟩))) ∧
          (0 < x.holdOff → x.queue ≠ [] → Does (.holdOff n) s (put { x with holdOff := 0 })) ∧
          (∀ r : Show, x.sending = some r → Does (.showSent n) s
            (put { x with
              sending := x.out.head?
              out := x.out.tail
              cnt.showSent := min (x.cnt.showSent + 1) 4294967295 }))) ∧
      ∀ (x : Station) (r : Show),
        (x.sending = none → x.show r = { x with sending := some r }) ∧
          (x.sending ≠ none → x.out.length < 4 → x.show r = { x with out := x.out ++ [r] }) ∧
          (x.sending ≠ none → 4 ≤ x.out.length →
            x.show r = { x with cnt.showDropped := min (x.cnt.showDropped + 1) 4294967295 }))

/-- R71: STATION RESUME on an enabled station discards the record under assembly and every held record, oldest first, each counted and
answered RETRY under its sequence, stops the hold-off, makes the line READY and tells the station, and answers OK with the number
discarded; a disabled station is refused with STATE and a station outside 1 to 6 with BAD_ARG. -/
def Obligations.StationResumeClearsTheQueue : Prop :=
  ∀ (s : State) (tag station : Nat), s.ready →
    (station = 0 ∨ 6 < station → Refuses (.stationResume tag station) s 0x20 tag .badArg) ∧
      ∀ n : Fin 6, station = n.val + 1 →
        let x := s.stations.get n
        let discard := fun (y : Station) (a : Arrival) =>
          Station.show { y with cnt.discarded := min (y.cnt.discarded + 1) 4294967295 } ⟨.retry, some a.sequence, false, [], 0⟩
        let y := x.queue.foldl discard { x with asm := none, gap := 0 }
        let z := Station.show { y with queue := [], holdOff := 0, held := false } ⟨.ready, none, false, [], 0⟩
        ((s.set.stations.get n).enabled = false → Refuses (.stationResume tag station) s 0x20 tag .state) ∧
          ((s.set.stations.get n).enabled = true →
            Answers (.stationResume tag station) s 0x20 tag (fun u => { u with stations := u.stations.set n z }) .ok
              (b1 x.queue.length))

/-- R56, R57: BELL LOG and ZONE STATUS of a zone answer OK in every day state and change nothing; a zone above 3 is BAD_ARG.
R74: STATION STATUS answers OK with the station's settings, line and counters and changes nothing; a station outside 1 to 6 is
BAD_ARG. The actual rate of a divisor is 115,200 / (n + 1) where that is a whole number (how another is reported is open: log 14).
The codes of what a zone sounds and of the last outcomes are read out of R211 (log 11, DEDUCED); the seconds remaining have no flag byte and
are 0 in IDLE by the model's choice (log 39, DESIGN CHOICE), and the number of WAITING events, which no rule bounds, is one byte by the model's
choice (log 46, DESIGN CHOICE). Two more things here are the model's choice: BELL LOG of a zone whose track was
rewritten in CLOSED gives its new track with the closed day's list (log 41, DESIGN CHOICE), and STATION STATUS gives the divisor and the rate
of the station's entry also while a SHOW record ends at the old rate (log 42, DESIGN CHOICE). -/
def Obligations.ZoneAndStationReports : Prop :=
  ((∀ (s : State) (tag : Nat) (z : Fin 4), s.ready →
        Answers (.bellLog tag z.val) s 0x1A tag id .ok
          (b1 (trackCode? (s.set.zones.get z).track) ++ bOpt 3 bDate s.plan.dayDate ++
            bList (fun e : BellEvent => b1 (bellSourceCode e.source) ++ b1 e.kind.code ++ bMinute e.time ++ b1 e.outcome.code ++
              bTime? e.ringStart ++ bOpt 1 (fun f : FaultSeen => b1 f.code) e.fault) (s.bells.get z).list) ∧
        let x := s.bells.get z
        Answers (.zoneStatus tag z.val) s 0x1B tag id .ok
          (b1 x.act.code ++ bOpt 1 b1 x.act.kind ++ b1 x.left ++ bFlag x.manualPending ++ bFlag x.autoRequest ++
            b1 (x.kept.length + (x.list.filter (·.outcome == .waiting)).length) ++ b1 x.active.code ++
            b1 (checkCode x.lastCheck) ++ b1 (manualCode x.lastManual) ++ b4 x.rings ++ b4 x.failed ++ b4 x.opens ++
            b4 x.overloads ++ b4 x.checks)) ∧
      ∀ (s : State) (tag zone : Nat), s.ready → 4 ≤ zone →
        Refuses (.bellLog tag zone) s 0x1A tag .badArg ∧ Refuses (.zoneStatus tag zone) s 0x1B tag .badArg) ∧
    ((∀ (s : State) (tag : Nat) (n : Fin 6), s.ready →
        let c := s.set.stations.get n
        let x := s.stations.get n
        Answers (.stationStatus tag (n.val + 1)) s 0x21 tag id .ok
          (bFlag c.enabled ++ b1 c.divisor ++ b4 (actualRate c.divisor) ++ bFlag x.held ++ b1 x.holdOff ++
            bList (fun a : Arrival => b1 a.sequence ++ bTime a.time) x.queue ++ bFlag x.asm.isSome ++ b1 x.out.length ++
            b4 x.cnt.received ++ b4 x.cnt.taken ++ b4 x.cnt.framing ++ b4 x.cnt.bad ++ b4 x.cnt.abandoned ++
            b4 x.cnt.strays ++ b4 x.cnt.overruns ++ b4 x.cnt.heldDrops ++ b4 x.cnt.discarded ++ b4 x.cnt.showSent ++
            b4 x.cnt.showDropped)) ∧
      (∀ (s : State) (tag station : Nat), s.ready → station = 0 ∨ 6 < station →
        Refuses (.stationStatus tag station) s 0x21 tag .badArg) ∧
      ∀ n : Nat, 115200 % (n + 1) = 0 → actualRate n = 115200 / (n + 1))

/-! ## Arrivals and slips (05) -/

/-- R78, R76: DESK ARRIVAL. A key or arrival time out of range is BAD_ARG and a queue of 2 entries FULL, counted; otherwise the entry takes
the next ticket and the reply gives the ticket and the entries after the join. It waits while the classifier is busy, and is taken at once
when the classifier is IDLE and the queue was empty. The date kept with the entry is the model's own (log 15, DEDUCED). The next ticket is
in 1 to 255, and held by no entry, record or answer when at most seven tickets are held. -/
def Obligations.DeskArrivalJoins : Prop :=
  ∀ (s : State) (tag key value : Nat) (k : KeyKind) (t : Option RawTime), s.ready →
    let c : Instr := .deskArrival tag key value t
    let secs := match t with
      | some t => t.hour * 3600 + t.minute * 60 + t.second
      | none => s.clock.secs
    let timeOk := ∀ x : RawTime, t = some x → x.hour ≤ 23 ∧ x.minute ≤ 59 ∧ x.second ≤ 59 ∧ secs ≤ s.clock.secs
    let keyOk := KeyKind.ofCode key = some k ∧
      match k with
      | .badge => value ≠ 0
      | .short => 1 ≤ value ∧ value ≤ 9999
      | .roster => value < 2400
    let e : OfficeEntry := ⟨s.desk.nextTicket, k, value, secs, s.clock.date⟩
    let next := nextFree 255 (Desk.tickets { s.desk with office := s.desk.office ++ [e] }) 8 s.desk.nextTicket
    (3 ≤ key ∨ ¬ timeOk → Refuses c s 0x22 tag .badArg) ∧
      (KeyKind.ofCode key = some k → ¬ keyOk → Refuses c s 0x22 tag .badArg) ∧
      (keyOk → timeOk → 2 ≤ s.desk.office.length →
        Answers c s 0x22 tag
          (fun u => { u with desk.stats.officeRefused := min (u.desk.stats.officeRefused + 1) 4294967295 }) .full []) ∧
      (keyOk → timeOk → s.desk.office.length < 2 → s.desk.cur.isSome = true →
        Answers c s 0x22 tag (fun u => { u with desk.office := s.desk.office ++ [e], desk.nextTicket := next }) .ok
          (b1 s.desk.nextTicket ++ b1 (s.desk.office.length + 1))) ∧
      (keyOk → timeOk → s.desk.office = [] → s.desk.cur = none →
        Answers c s 0x22 tag
          (fun u => { u with
            desk.cur := some (.office e)
            desk.pointer := 7
            desk.nextTicket := next
            desk.stats.office.taken := min (u.desk.stats.office.taken + 1) 4294967295 }) .ok
          (b1 s.desk.nextTicket ++ b1 1)) ∧
      (∀ (held : List Nat) (m : Nat), held.length ≤ 7 →
        nextFree 255 held 8 m ∉ held ∧ 1 ≤ nextFree 255 held 8 m ∧ (m ≤ 255 → nextFree 255 held 8 m ≤ 255))

/-- R82, R83, R84: how an arrival of a pupil at second t is judged on the pupil's track. Before the day start it is ON-TIME in AM, at or
after the day end AFTER-HOURS; the PM point opens the PM span. Within a span it is U at or after the close time, P before the point plus
the grace, and L otherwise, U and L with floor(e / 60) + 1 minutes, held at 240; the grace is G, and G + F when the site zone's
segment-start bell at the point FAILED. This is so in a day that has not gone past its date, and in one that has for an arrival stamped on
the day's date; one stamped since then is AFTER-HOURS (log 15, DEDUCED: the model's reading of R24). -/
def Obligations.LatenessIsJudged : Prop :=
  ∀ (s : State) (p : Nat) (date : Date) (t am : Nat) (pl : PlanIF), (s.track (s.trackOf p)).plan = some pl →
    let judge := s.judgeArrival p date t
    (∀ day : Date, s.plan.dayDate = some day → day ≠ s.clock.date → date ≠ day → judge = none) ∧
    (s.plan.dayDate = some s.clock.date ∨ s.plan.dayDate = some date →
    let d := (s.track (s.trackOf p)).delay
    let start := pl.start + d
    let dayEnd := start + (pl.segs.map (·.len)).sum
    sessionPoint pl d .am = some am →
    let closeAt := fun (point offset : Nat) => if 1440 ≤ point + offset then 1439 else point + offset
    let failed := fun point : Nat => ∃ e ∈ (s.bells.get (s.group (s.pupil p).group).zone).list,
      (∃ n : Nat, e.source = .segment n) ∧ e.time = point ∧ e.outcome = .failed
    let judged := fun (ss : Session) (point offset : Nat) =>
      let m := min ((t - point * 60) / 60 + 1) 240
      (closeAt point offset * 60 ≤ t → judge = some (ss, .u, m)) ∧
        (t < closeAt point offset * 60 → failed point →
          (t < (point + (pl.grace + pl.allowance)) * 60 → judge = some (ss, .p, 0)) ∧
            ((point + (pl.grace + pl.allowance)) * 60 ≤ t → judge = some (ss, .l, m))) ∧
        (t < closeAt point offset * 60 → ¬ failed point →
          (t < (point + pl.grace) * 60 → judge = some (ss, .p, 0)) ∧
            ((point + pl.grace) * 60 ≤ t → judge = some (ss, .l, m)))
    (t < start * 60 → judge = some (.am, .p, 0)) ∧
      (start * 60 ≤ t → dayEnd * 60 ≤ t → judge = none) ∧
      (start * 60 ≤ t → t < dayEnd * 60 →
        (∀ pm : Nat, sessionPoint pl d .pm = some pm → pm * 60 ≤ t → judged .pm pm pl.kPm) ∧
          (∀ pm : Nat, sessionPoint pl d .pm = some pm → t < pm * 60 → judged .am am pl.kAm) ∧
          (sessionPoint pl d .pm = none → judged .am am pl.kAm)))

/-- R80, R81, R82, R85, R86, R79: the end of the classification of a station record or an office entry. No pupil is answered GREY, a pupil
WAIT in OPENING and CLOSED in CLOSING and CLOSED, and in OPEN an AFTER-HOURS arrival (by its stamp: log 15, DEDUCED) or a locked record SEE
DESK and a record marked P, L or U BLUE, changing no record. An unlocked record of another mark takes the judged mark, its minutes and the
arrival time from the desk; P is answered GREEN. A station's answer goes to its line, or nowhere when the station is disabled; an office
entry's goes to the head of the answer list, which keeps the newest 4.
R89, R88, R87: L and U bring the queued LATE slip of the pupil-session and date up to date, or else make one, which takes the next number and
joins a queue of fewer than 64, and are answered AMBER and RED; at 64 the slip is dropped, counted and latched, and the answer is
AMBER-NOSLIP. A LATE NOTICE is asked for when the record is not expected late, its group has late notices and no correction was asked for.
R77, R70: the next record is then searched for: the head of the first source with work, counted from the one after the round-robin pointer,
is taken, the pointer standing at that source; with no work the classifier is IDLE. A take that empties the queue of a HELD line whose
hold-off has run returns it to READY. -/
def Obligations.ClassificationsAreAnswered : Prop :=
  (∀ (s : State) (i : Item), s.desk.cur = some i →
    let found := match i with
      | .station _ a => if a.keyed then s.set.shortLookup a.code else s.set.badgeLookup a.code
      | .office e => match e.key with
        | .badge => s.set.badgeLookup e.value
        | .short => s.set.shortLookup e.value
        | .roster => if e.value < 2400 ∧ (s.pupil e.value).inUse = true then some e.value else none
    let name := fun (u : State) (p : Option Nat) => match p with
      | some p => (u.pupil p).name
      | none => []
    let mark := fun (u : State) (p : Option Nat) (ss : Option Session) => match p, ss with
      | some p, some ss => some (u.record p ss).mark
      | _, _ => none
    let answers := fun (u : State) (d : Display) (p : Option Nat) (ss : Option Session) (minutes : Nat) (slip : Option Nat)
        (expected : Bool) =>
      let told : State := match i with
        | .station n a =>
          let shown : Show := ⟨d, some a.sequence, expected, name u p, minutes⟩
          if (u.set.stations.get n).enabled = true then
            { u with stations := u.stations.set n ((u.stations.get n).show shown) }
          else u
        | .office e =>
          let answer : OfficeAnswer := ⟨e.ticket, d, p, ss, mark u p ss, minutes, slip, expected⟩
          { u with desk.answers := (answer :: u.desk.answers).take 4 }
      Does .classificationComplete s told.searchNext
    let plain := fun (d : Display) (p : Option Nat) (ss : Option Session) => answers s d p ss 0 none false
    (found = none → plain .grey none none) ∧
      ∀ p : Nat, found = some p →
        (s.plan.dayState = .opening → plain .wait (some p) none) ∧
        (s.plan.dayState = .closing ∨ s.plan.dayState = .closed → plain .closed (some p) none) ∧
        (s.plan.dayState = .opened → s.judgeArrival p i.date i.time = none → plain .seeDesk (some p) none) ∧
        ∀ (ss : Session) (m : Mark) (minutes : Nat), s.plan.dayState = .opened →
          s.judgeArrival p i.date i.time = some (ss, m, minutes) →
          let r := s.record p ss
          let present := r.mark = .p ∨ r.mark = .l ∨ r.mark = .u
          (r.locked = true → plain .seeDesk (some p) (some ss)) ∧
          (r.locked = false → present → plain .blue (some p) (some ss)) ∧
          (r.locked = false → ¬ present →
            let u := (s.deskArrival p ss m minutes i.time).1
            let x := u.record p ss
            x.mark = m ∧ x.minutes = minutes ∧ x.source = some .desk ∧ x.arrival = some i.time ∧ x.locked = false ∧
            ∃ corrected : Bool, (s.deskArrival p ss m minutes i.time).2 = .applied r.expected corrected ∧
              let twin := fun y : Slip => y.kind = .late ∧ y.pupil = p ∧ y.session = ss ∧ y.date = u.plan.dayDate
              let body : SlipBody := .lateness i.time m minutes r.expected
              let noticed := fun v : State =>
                if r.expected = false ∧ (v.group (v.pupil p).group).lateNotices = true ∧ corrected = false then
                  (v.requestMsg .lateNotice (.pupil p ss) none).1
                else v
              let late : Display := if m = .u then .red else .amber
              (m = .p → answers u .green (some p) (some ss) 0 none false) ∧
              (m ≠ .p → ∀ (a b : List Slip) (y : Slip), u.slips.queue = a ++ y :: b → twin y → (∀ w ∈ a ++ b, ¬ twin w) →
                answers (noticed { u with slips.queue := a ++ { y with body := body } :: b }) late (some p) (some ss) minutes
                  (some y.number) r.expected) ∧
              (m ≠ .p → (∀ w ∈ u.slips.queue, ¬ twin w) → u.slips.queue.length < 64 →
                let y : Slip :=
                  { kind := .late
                    number := u.slips.next
                    date := u.plan.dayDate
                    pupil := p
                    short := (u.pupil p).short
                    name := (u.pupil p).name
                    group := (u.group (u.pupil p).group).code
                    session := ss
                    body := body }
                let joined : State := { u with
                  slips.queue := u.slips.queue ++ [y]
                  slips.next := if 9999 ≤ u.slips.next then 1 else u.slips.next + 1
                  slips.queued := min (u.slips.queued + 1) 4294967295
                  desk.stats.slipsQueued := min (u.desk.stats.slipsQueued + 1) 4294967295 }
                answers (noticed joined.fillSlot) late (some p) (some ss) minutes (some u.slips.next) r.expected) ∧
              (m ≠ .p → (∀ w ∈ u.slips.queue, ¬ twin w) → 64 ≤ u.slips.queue.length →
                let dropped := State.raise { u with
                  slips.dropped := min (u.slips.dropped + 1) 4294967295
                  desk.stats.slipsDropped := min (u.desk.stats.slipsDropped + 1) 4294967295 } .slipDrop
                answers (noticed dropped) .amberNoslip (some p) (some ss) minutes none r.expected))) ∧
  ∀ s : State,
    let up := fun n : Nat => min (n + 1) 4294967295
    let work := fun m : Nat => (∃ k : Fin 6, m = k.val + 1 ∧ (s.stations.get k).queue ≠ []) ∨ (m = 7 ∧ s.desk.office ≠ [])
    let turn := fun m : Nat => (m + 6 - s.desk.pointer % 7) % 7
    ((∀ m : Nat, ¬ work m) → s.searchNext = { s with desk.cur := none }) ∧
      (∀ (k : Fin 6) (a : Arrival) (rest : List Arrival), (s.stations.get k).queue = a :: rest →
        (∀ m : Nat, work m → turn (k.val + 1) ≤ turn m) →
        let x := s.stations.get k
        let y : Station := { x with queue := rest, cnt.taken := up x.cnt.taken }
        let q := s.desk.stats.stations.get k
        s.searchNext = { s with
          stations := s.stations.set k
            (if x.held = true ∧ rest = [] ∧ x.holdOff = 0 then
              Station.show { y with held := false } ⟨.ready, none, false, [], 0⟩
            else y)
          desk.cur := some (.station k a)
          desk.pointer := k.val + 1
          desk.stats.stations := s.desk.stats.stations.set k { q with taken := up q.taken } }) ∧
      ∀ (e : OfficeEntry) (rest : List OfficeEntry), s.desk.office = e :: rest → (∀ m : Nat, work m → turn 7 ≤ turn m) →
        s.searchNext = { s with
          desk.office := rest
          desk.cur := some (.office e)
          desk.pointer := 7
          desk.stats.office.taken := up s.desk.stats.office.taken }

/-- R79, R94, R96: DESK ANSWERS and SLIP STATUS answer OK and change nothing; DESK STATISTICS answers OK with the window start, the time
and every count, and with the clear flag set then sets every count to 0 and the window start to now.
R90, R88: SLIP REPRINT of a record with an arrival time joins a COPY slip of the record to a queue of fewer than 64 and answers its
number, the next number following 9999 with 1; at 64 it is dropped, counted, latched and answered FULL; without an arrival time it is
NOT_FOUND, and for no pupil or session BAD_ARG. R91: the CALL slip of an alert that ended UNDELIVERED, with its reason, the time and the
numbers of the pupil's contacts in use, joins or is dropped by the same rule. The order of the desk's counts, and the one flag byte before
the kind and number of the slip in the slot, are read out of R211 (log 11, DEDUCED). -/
def Obligations.DeskAndSlipReports : Prop :=
  ((∀ (s : State) (tag : Nat), s.ready →
        Answers (.deskAnswers tag) s 0x23 tag id .ok
          (bList (fun a : OfficeAnswer => b1 a.ticket ++ b1 a.display.code ++ bOpt 2 b2 a.pupil ++
            bOpt 1 (fun x => b1 (sessionCode x)) a.session ++ bOpt 1 (fun m : Mark => b1 m.code) a.mark ++ b1 a.minutes ++
            bOpt 2 b2 a.slip ++ bFlag a.expected) s.desk.answers)) ∧
      (∀ (s : State) (tag : Nat), s.ready →
        let l := s.slips
        Answers (.slipStatus tag) s 0x25 tag id .ok
          (b1 l.state.code ++ bFlag l.ready ++ b1 l.queue.length ++
            bOpt 3 (fun x : Slip => b1 x.kind.code ++ b2 x.number) l.slot ++ b2 l.next ++ b4 l.queued ++ b4 l.printed ++
            b4 l.dropped ++ b4 l.stalls ++ b4 l.resends)) ∧
      ∀ (s : State) (tag : Nat), s.ready →
        let now : Stamp := ⟨s.clock.date, s.clock.secs⟩
        let body := bStamp s.desk.stats.since ++ bStamp now ++ s.desk.stats.bytes
        Answers (.deskStatistics tag 0) s 0x26 tag id .ok body ∧
          Answers (.deskStatistics tag 1) s 0x26 tag (fun u => { u with desk.stats := DeskStats.cleared now }) .ok body ∧
          (∀ clear : Nat, 2 ≤ clear → Refuses (.deskStatistics tag clear) s 0x26 tag .badArg) ∧
          DeskStats.cleared now =
            ⟨⟨⟨0, 0, 0⟩, ⟨0, 0, 0⟩, ⟨0, 0, 0⟩, ⟨0, 0, 0⟩, ⟨0, 0, 0⟩, ⟨0, 0, 0⟩⟩, ⟨0, 0, 0⟩, ⟨0, 0, 0⟩,
              ⟨0, 0, 0, 0, 0, 0⟩, ⟨0, 0, 0, 0, 0, 0⟩, ⟨0, 0, 0, 0, 0, 0⟩, 0, 0, 0, now⟩) ∧
    (∀ (s : State) (p : Nat) (ss : Session) (reason : CallReason),
      let number := fun i : Nat => if (s.contact (3 * p + i)).inUse then [(s.contact (3 * p + i)).number] else []
      let x : Slip :=
        { kind := .call
          number := s.slips.next
          date := s.plan.dayDate
          pupil := p
          short := (s.pupil p).short
          name := (s.pupil p).name
          group := (s.group (s.pupil p).group).code
          session := ss
          body := .call reason s.clock.secs (number 0 ++ number 1 ++ number 2) }
      (s.slips.queue.length < 64 → s.callSlip p ss reason = State.fillSlot { s with
        slips.queue := s.slips.queue ++ [x]
        slips.next := if 9999 ≤ s.slips.next then 1 else s.slips.next + 1
        slips.queued := min (s.slips.queued + 1) 4294967295
        desk.stats.slipsQueued := min (s.desk.stats.slipsQueued + 1) 4294967295 }) ∧
        (64 ≤ s.slips.queue.length → s.callSlip p ss reason = { s with
          slips.dropped := min (s.slips.dropped + 1) 4294967295
          desk.stats.slipsDropped := min (s.desk.stats.slipsDropped + 1) 4294967295 }.raise .slipDrop)) ∧
    (∀ (s : State) (tag p : Nat) (ss : Session), s.ready → p < 2400 →
      let c : Instr := .slipReprint tag p (sessionCode ss)
      let r := s.record p ss
      (r.arrival = none → Refuses c s 0x24 tag .notFound) ∧
        (∀ t : Nat, r.arrival = some t → 64 ≤ s.slips.queue.length →
          Answers c s 0x24 tag
            (fun u => { u with
              slips.dropped := min (u.slips.dropped + 1) 4294967295
              desk.stats.slipsDropped := min (u.desk.stats.slipsDropped + 1) 4294967295 }.raise .slipDrop) .full []) ∧
        (∀ t : Nat, r.arrival = some t → s.slips.queue.length < 64 →
          let x : Slip :=
            { kind := .copy
              number := s.slips.next
              date := s.plan.dayDate
              pupil := p
              short := (s.pupil p).short
              name := (s.pupil p).name
              group := (s.group (s.pupil p).group).code
              session := ss
              body := .lateness t r.mark r.minutes r.expected }
          Answers c s 0x24 tag
            (fun u => State.fillSlot { u with
              slips.queue := u.slips.queue ++ [x]
              slips.next := if 9999 ≤ s.slips.next then 1 else s.slips.next + 1
              slips.queued := min (u.slips.queued + 1) 4294967295
              desk.stats.slipsQueued := min (u.desk.stats.slipsQueued + 1) 4294967295 }) .ok (b2 s.slips.next)) ∧
        (∀ pupil session : Nat, 2400 ≤ pupil ∨ 2 ≤ session → Refuses (.slipReprint tag pupil session) s 0x24 tag .badArg))

/-- R92, R93: the printer. A ready report in EMPTY is remembered, in WAITING sends the slip, in SENDING is ignored, in PRINTING ends the
slip, the head of a queue that holds slips moving to the slot and being sent at once, and in STALLED sets the ready flag and sends the slip
whole, a resend when it was sent before, or with an empty slot leaves the printer EMPTY; the last character of the record makes it PRINTING
with the stall timer at 0. A paper-out report and a stall timer that reaches 20 (its row takes it as reached: log 4, DESIGN CHOICE) make it
STALLED, counted and with PRINTER_STALL latched.
R92, R93: the head of the queue moves to an empty slot, counted as taken: an EMPTY printer becomes WAITING with the stall timer at 0, or
SENDING with the ready flag cleared when it was set, and a STALLED one stays so; otherwise nothing moves. -/
def Obligations.PrinterStates : Prop :=
  ∀ s : State,
    let l := s.slips
    let put := fun m : SlipLine => { s with slips := m }
    let moved := fun m : SlipLine =>
      { s with slips := m, desk.stats.slip.taken := min (s.desk.stats.slip.taken + 1) 4294967295 }
    let ended : SlipLine :=
      { l with state := .empty, slot := none, sentBefore := false, ready := true, printed := min (l.printed + 1) 4294967295 }
    (l.state = .empty → Does .printerReady s (put { l with ready := true })) ∧
      (l.state = .waiting → Does .printerReady s (put { l with state := .sending, ready := false, sentBefore := true })) ∧
      (l.state = .sending → Does .printerReady s s) ∧
      (l.state = .printing → l.queue = [] → Does .printerReady s (put ended)) ∧
      (∀ (x : Slip) (rest : List Slip), l.state = .printing → l.queue = x :: rest →
        Does .printerReady s
          (moved { ended with state := .sending, slot := some x, queue := rest, ready := false, sentBefore := true })) ∧
      (∀ x : Slip, l.state = .stalled → l.slot = some x →
        Does .printerReady s
          (put { l with
            state := .sending
            ready := true
            sentBefore := true
            resends := if l.sentBefore then min (l.resends + 1) 4294967295 else l.resends })) ∧
      (l.state = .stalled → l.slot = none → l.queue = [] → Does .printerReady s (put { l with state := .empty, ready := true })) ∧
      (l.state = .sending → Does .slipRecordSent s (put { l with state := .printing, stall := 0 })) ∧
      (l.state ≠ .stalled →
        Does .paperOut s
          (put { l with state := .stalled, ready := false, stalls := min (l.stalls + 1) 4294967295 }|>.raise .printerStall)) ∧
      (l.state = .stalled → Does .paperOut s (put { l with ready := false })) ∧
      ((l.state = .waiting ∧ l.ready = false) ∨ l.state = .printing →
        Does .printerStall s
          (put { l with state := .stalled, stalls := min (l.stalls + 1) 4294967295 }|>.raise .printerStall)) ∧
      (l.slot ≠ none ∨ l.queue = [] → s.fillSlot = s) ∧
      ∀ (x : Slip) (rest : List Slip), l.slot = none → l.queue = x :: rest →
        let m : SlipLine := { l with slot := some x, queue := rest, sentBefore := false }
        (l.state = .stalled → s.fillSlot = moved m) ∧
          (l.state = .empty → l.ready = true →
            s.fillSlot = moved { m with state := .sending, ready := false, sentBefore := true }) ∧
          (l.state = .empty → l.ready = false → s.fillSlot = moved { m with state := .waiting, stall := 0 })

/-! ## Looking up codes and numbers (01) -/

/-- R12, R13, R3, R9, R10: PUPIL FIND and SENDER FIND change nothing. A badge or short code that is a key is answered with the pupil and group,
another with NOT_FOUND; a short code outside 1 to 9999 and another key kind are BAD_ARG. A number of 1 to 15 digits that is a key is answered
with its pupils, another with NOT_FOUND, and what is no such number with BAD_ARG. The keys are the in-use pupils' codes, badge code 0 apart, and
a number's pupils are the in-use pupils with a slot in use that carries it and accepts reports, in ascending roster index, none twice, and 1 to
8 of them when the number is a key and serves no more than R10 allows. -/
def Obligations.MapLookups : Prop :=
  ∀ (s : State) (tag : Nat), s.ready →
    (∀ key value : Nat, 2 ≤ key ∨ (key = 1 ∧ (value = 0 ∨ 9999 < value)) →
        Refuses (.pupilFind tag key value) s 0x0C tag .badArg) ∧
      (∀ value : Nat, s.set.badgeLookup value = none → Refuses (.pupilFind tag 0 value) s 0x0C tag .notFound) ∧
      (∀ value p : Nat, s.set.badgeLookup value = some p →
        Answers (.pupilFind tag 0 value) s 0x0C tag id .ok (b2 p ++ b1 (s.pupil p).group)) ∧
      (∀ value : Nat, 1 ≤ value → value ≤ 9999 → s.set.shortLookup value = none →
        Refuses (.pupilFind tag 1 value) s 0x0C tag .notFound) ∧
      (∀ value p : Nat, 1 ≤ value → value ≤ 9999 → s.set.shortLookup value = some p →
        Answers (.pupilFind tag 1 value) s 0x0C tag id .ok (b2 p ++ b1 (s.pupil p).group)) ∧
      (∀ number : Text,
        let digits := 1 ≤ number.length ∧ number.length ≤ 15 ∧ ∀ c ∈ number, 0x30 ≤ c.toNat ∧ c.toNat ≤ 0x39
        (¬ digits → Refuses (.senderFind tag number) s 0x0D tag .badArg) ∧
          (digits → s.set.senderList number = [] → Refuses (.senderFind tag number) s 0x0D tag .notFound) ∧
          (digits → s.set.senderList number ≠ [] →
            Answers (.senderFind tag number) s 0x0D tag id .ok
              (b1 (s.set.senderList number).length ++ (s.set.senderList number).flatMap b2))) ∧
      (Tab.wf factoryPupil s.set.pupils = true →
        (∀ value p : Nat, s.set.badgeLookup value = some p →
          value ≠ 0 ∧ (s.pupil p).inUse = true ∧ (s.pupil p).badge = value) ∧
        (∀ p : Nat, (s.pupil p).inUse = true → (s.pupil p).badge ≠ 0 → s.set.badgeLookup (s.pupil p).badge ≠ none) ∧
        (∀ value p : Nat, s.set.shortLookup value = some p → (s.pupil p).inUse = true ∧ (s.pupil p).short = value) ∧
        (∀ p : Nat, (s.pupil p).inUse = true → s.set.shortLookup (s.pupil p).short ≠ none) ∧
        ∀ number : Text,
          let serves := fun p : Nat => (s.pupil p).inUse = true ∧ ∃ i : Fin 3, (s.contact (3 * p + i.val)).inUse = true ∧
            (s.contact (3 * p + i.val)).acceptsReports = true ∧ (s.contact (3 * p + i.val)).number = number
          (∀ p : Nat, p ∈ s.set.senderList number ↔ serves p) ∧
            (s.set.senderList number).Pairwise (fun a b => a < b) ∧
            ((∀ l : List Nat, l.Nodup → (∀ p ∈ l, serves p) → l.length ≤ 8) → (s.set.senderList number).length ≤ 8) ∧
            ((∃ p : Nat, serves p) → 1 ≤ (s.set.senderList number).length))

/-! ## The register (06) -/

/-- R100, R98, R101, R102, R117: what an unlocked record takes from the class register, the desk and a parent, by the mark it holds. A mark
taken carries its minutes and source into the record, clears and keeps the other fields as R98 says, and adjusts the pupil's tally, and no
other record's mark changes; a mark kept changes nothing; a conflict is handed on with the record kept, or for a desk arrival after its
mark is taken. A locked record is answered LOCKED and nothing changes. That a register L on a record marked L is kept follows R100's table,
whose text speaks of a change of minutes: the model's choice (log 32, DESIGN CHOICE).
R103: every command but MARK SET, CONFLICT RESOLVE, DAY OPEN, a reset, and a command that may carry or take such a request from the host
leaves a locked record's mark, minutes, source, arrival time and its expected-late, explained and locked flags. -/
def Obligations.SourcesTakeTheirPrecedence : Prop :=
  (∀ (c : Instr) (s t : State) (p : Nat) (ss : Session), exec c s = .next t → Tab.wf clearedAt s.reg.recs = true →
    s.link.hand ≠ none ∨ s.link.queue = [] →
    (match c with
      | .markSet _ _ _ _ _ _ _ => False
      | .conflictResolve _ _ _ => False
      | .dayOpen _ _ _ _ => False
      | .hostFrame _ _ _ _ => False
      | .hostCharacter _ => False
      | .hostFrameSent => False
      | .settingsLoadDone => False
      | .powerOnReset _ => False
      | .pinReset _ => False
      | _ => True) →
    let r := s.record p ss
    let x := t.record p ss
    r.locked = true →
      x.mark = r.mark ∧ x.minutes = r.minutes ∧ x.source = r.source ∧ x.arrival = r.arrival ∧ x.expected = r.expected ∧
        x.explained = r.explained ∧ x.locked = true) ∧
  ∀ (s : State) (p : Nat) (ss : Session), Tab.wf zeroTally s.reg.tallies = true →
    let r := s.record p ss
    let takes := fun (x : State × EntryOutcome) (m : Mark) (n : Nat) => x.2 = .applied ∧ s.tookMark x.1 p ss m n .register
    let clash := (s.handConflict p ss .registerDisagrees r.mark, EntryOutcome.conflict)
    (r.mark = .nothing ∨ r.mark = .x → takes (s.registerEntry p ss .p) .p 0) ∧
      (r.mark = .r → s.registerEntry p ss .p = clash) ∧
      (r.mark = .n ∨ r.mark = .a ∨ r.mark = .p ∨ r.mark = .l ∨ r.mark = .u → s.registerEntry p ss .p = (s, .kept)) ∧
      (r.mark = .nothing ∨ r.mark = .x ∨ (r.mark = .p ∧ r.source = some .register) → takes (s.registerEntry p ss .x) .x 0) ∧
      ((r.mark = .p ∧ r.source ≠ some .register) ∨ r.mark = .l ∨ r.mark = .u → s.registerEntry p ss .x = clash) ∧
      (r.mark = .n ∨ r.mark = .r ∨ r.mark = .a → s.registerEntry p ss .x = (s, .kept)) ∧
      (∀ n : Nat,
        (r.mark = .nothing ∨ r.mark = .x ∨ r.mark = .p → takes (s.registerEntry p ss (.l n)) .l n) ∧
        (r.mark = .r → s.registerEntry p ss (.l n) = clash) ∧
        (r.mark = .n ∨ r.mark = .a ∨ r.mark = .l ∨ r.mark = .u → s.registerEntry p ss (.l n) = (s, .kept))) ∧
      (∀ (m : Mark) (n t : Nat), m = .p ∨ m = .l ∨ m = .u →
        let d := s.deskArrival p ss m n t
        (r.locked = true → d = (s, .locked)) ∧
        (r.locked = false → r.mark = .p ∨ r.mark = .l ∨ r.mark = .u → d = (s, .alreadyIn)) ∧
        (r.locked = false → r.mark = .nothing ∨ r.mark = .x ∨ r.mark = .n →
          (∃ c : Bool, d.2 = .applied r.expected c) ∧ s.tookMark d.1 p ss m n .desk ∧ (d.1.record p ss).arrival = some t) ∧
        (r.locked = false → r.mark = .r ∨ r.mark = .a →
          (∃ c : Bool, d.2 = .applied r.expected c) ∧
            ∃ u : State, s.tookMark u p ss m n .desk ∧ (u.record p ss).arrival = some t ∧
              d.1 = u.handConflict p ss .arrivedAfterReport m)) ∧
      (r.locked = true → s.parentAbsent p ss = (s, .locked)) ∧
      (r.locked = false → r.mark = .nothing ∨ r.mark = .x ∨ r.mark = .n →
        (s.parentAbsent p ss).2 = .applied ∧ s.tookMark (s.parentAbsent p ss).1 p ss .r 0 .parent) ∧
      (r.locked = false → r.mark = .r ∨ r.mark = .a → s.parentAbsent p ss = (s, .kept)) ∧
      (r.locked = false → r.mark = .p ∨ r.mark = .l ∨ r.mark = .u →
        s.parentAbsent p ss = (s.handConflict p ss .reportWhilePresent r.mark, .conflict))

/-- R110, R111, R113: REGISTER SUBMIT. A value out of range is BAD_ARG; another day state than OPEN, a session BEFORE, and a session CLOSED whose
group is not MISSING or LATE-SUBMITTED are STATE, nothing being applied. In an OPEN session it is an on-time register and the group becomes
SUBMITTED, in a CLOSED one a late register and the group becomes LATE-SUBMITTED; the reply is OK with one outcome for each entry. STATE for a
group AWAITED or NOT_HELD in a CLOSED session is the model's choice, R110 naming neither there (log 43, DESIGN CHOICE). An entry of
no member or of a locked record applies nothing, another goes through the register rows of R100, and a late X on NONE or X makes the record
N and starts its alert. BAD_ARG for the PM session of a track that holds no plan in force is the model's reading (log 25, DEDUCED). -/
def Obligations.RegisterSubmitIsTaken : Prop :=
  (∀ (s : State) (tag group session : Nat) (entries : List RawEntry), s.ready →
      let c : Instr := .registerSubmit tag group session entries
      let t := (s.group group).track
      let suits := fun e : RawEntry => e.pupil < 2400 ∧
        (((e.mark = 1 ∨ e.mark = 4) ∧ e.minutes = 0) ∨ (e.mark = 2 ∧ 1 ≤ e.minutes ∧ e.minutes ≤ 240))
      let argsOk := group < 120 ∧ session ≤ 1 ∧ 1 ≤ entries.length ∧ entries.length ≤ 48 ∧ (∀ e ∈ entries, suits e) ∧
        (session = 1 → s.trackHasPm t = true)
      (¬ argsOk → Refuses c s 0x28 tag .badArg) ∧
        (argsOk → s.plan.dayState ≠ .opened → Refuses c s 0x28 tag .state) ∧
        (∀ ss : Session, argsOk → s.plan.dayState = .opened → session = sessionCode ss →
          let l := entries.map fun e : RawEntry =>
            (e.pupil, if e.mark = 1 then Entry.p else if e.mark = 4 then Entry.x else Entry.l e.minutes)
          let taken := fun (late : Bool) (x : GroupStatus) =>
            let y := (s.inHand 0x28 tag).takeEntries group ss late l
            y.2.length = entries.length ∧
              Answers c s 0x28 tag (fun _ => y.1.setGroupStatus group ss x) .ok (y.2.flatMap fun o => b1 o.byte)
          (s.session t ss = some .opened → taken false .submitted) ∧
            (s.session t ss = some .closed → s.groupStatus group ss = .missing ∨ s.groupStatus group ss = .lateSubmitted →
              taken true .lateSubmitted) ∧
            (s.session t ss = none ∨ s.session t ss = some .before ∨
              (s.session t ss = some .closed ∧ s.groupStatus group ss ≠ .missing ∧ s.groupStatus group ss ≠ .lateSubmitted) →
              Refuses c s 0x28 tag .state))) ∧
    ∀ (s : State) (g p : Nat) (ss : Session) (late : Bool) (e : Entry) (l : List (Nat × Entry)),
      Tab.wf zeroTally s.reg.tallies = true →
      let r := s.record p ss
      let member := (s.pupil p).inUse = true ∧ (s.pupil p).group = g
      let one := s.takeEntry g ss late (p, e)
      let rest := one.1.takeEntries g ss late l
      s.takeEntries g ss late ((p, e) :: l) = (rest.1, one.2 :: rest.2) ∧
        (¬ member → one = (s, .notMember)) ∧
        (member → r.locked = true → one = (s, .locked)) ∧
        (member → r.locked = false → late = false ∨ e ≠ .x ∨ (r.mark ≠ .nothing ∧ r.mark ≠ .x) → one = s.registerEntry p ss e) ∧
        (member → r.locked = false → late = true → e = .x → r.mark = .nothing ∨ r.mark = .x →
          one.2 = .applied ∧ ∃ u : State, s.tookMark u p ss .n 0 .register ∧ one.1 = u.startAlert p ss s.clock.secs false)

/-- R115, R98, R109, R106: MARK SET. Values out of range, mark R, minutes that break R98, an invalid arrival time and a PM session without a PM
point are BAD_ARG, a pupil not in use NOT_FOUND, and a day state or session state that does not allow it STATE. Otherwise the record takes
the mark, minutes, source OFFICE and lock, locked or not, and the pupil's tally follows; an arrival given with P, L or U replaces the
arrival. Writing the mark held changes no alert; leaving N cancels an alert that is HELD, WITHHELD, DUE or QUEUED; becoming N in OPEN starts a
HELD alert with the alert delay where none was started. BAD_ARG for the PM session of a track that holds no plan in force is the model's
reading (log 25, DEDUCED).
R109, R119: whichever source writes a mark, an ARRIVAL CORRECTION is asked for, and the corrected flag set, exactly when the mark changes to
P, L or U with the alert SENDING or SENT and the flag clear; a PATTERN NOTICE is asked for, and the pattern-notified flag set, exactly when a
change into L or U brings the count to a threshold other than 0 with that flag clear. With room and a recipient each is QUEUED. MARK SET's
reply says whether a correction was asked for. -/
def Obligations.MarkSetIsTaken : Prop :=
  (∀ (s : State) (p : Nat) (ss : Session),
    let r := s.record p ss
    let t := s.tally p
    let k := s.set.options.threshold
    let asks := (r.mark = .p ∨ r.mark = .l ∨ r.mark = .u) ∧ (r.alert = .sending ∨ r.alert = .sent) ∧ r.corrected = false
    let notifies := k ≠ 0 ∧ k ≤ t.count ∧ t.notified = false
    (asks → s.correctAlert p ss =
        ((State.requestMsg (s.putRec p ss { r with corrected := true }) .arrivalCorrection (.pupil p ss) none).1, true)) ∧
      (¬ asks → s.correctAlert p ss = (s, false)) ∧
      (notifies → s.patternNotice p ss =
        (State.requestMsg (s.putTally p { t with notified := true }) .patternNotice (.pupil p ss) none).1) ∧
      (¬ notifies → s.patternNotice p ss = s)) ∧
  (∀ (s : State) (p : Nat) (ss : Session) (w : MarkWrite), Tab.wf zeroTally s.reg.tallies = true →
    Tab.wf clearedAt s.reg.recs = true →
    let r := s.record p ss
    let t := s.tally p
    let k := s.set.options.threshold
    let late := fun m : Mark => m = .l ∨ m = .u
    let asked := r.mark ≠ w.mark ∧ (w.mark = .p ∨ late w.mark) ∧ (r.alert = .sending ∨ r.alert = .sent) ∧ r.corrected = false
    let rises := ¬ late r.mark ∧ late w.mark ∧ k ≠ 0 ∧ k ≤ min (t.count + 1) 15 ∧ t.notified = false
    let u := s.applyMark p ss w
    let waits := fun (v : State) (kind : MsgKind) => ∃ (m : Message) (o : Outbound), m ∈ v.pool.msgs ∧ m.kind = kind ∧
      m.cls = .notice ∧ m.body = .out o ∧ o.subject = .pupil p ss ∧ o.state = .queued ∧ m.number ∈ v.sched.noticeQ
    (u.2.correction = true ↔ asked) ∧ ((u.1.record p ss).corrected = true ↔ r.corrected = true ∨ asked) ∧
      ((u.1.tally p).notified = true ↔ t.notified = true ∨ rises) ∧
      (2 ≤ s.pool.freeDesc → 12 ≤ s.pool.freeSegs → r.mark ≠ .n ∨ r.alert = .sending ∨ r.alert = .sent →
        s.recipients .notice (.pupil p ss) ≠ [] →
        (asked → waits u.1 .arrivalCorrection) ∧ (rises → waits u.1 .patternNotice))) ∧
  ∀ (s : State) (tag p mark minutes lock : Nat) (ss : Session) (m : Mark) (arrival : Option RawTime), s.ready →
    Tab.wf zeroTally s.reg.tallies = true → Tab.wf clearedAt s.reg.recs = true →
    let c : Instr := .markSet tag p (sessionCode ss) mark minutes lock arrival
    let r := s.record p ss
    let state := s.session (s.trackOf p) ss
    let late := m = .l ∨ m = .u
    let timeOk := ∀ t : RawTime, arrival = some t → t.hour ≤ 23 ∧ t.minute ≤ 59 ∧ t.second ≤ 59
    let argsOk := p < 2400 ∧ m ≠ .r ∧ lock ≤ 1 ∧ timeOk ∧ (ss = .pm → s.trackHasPm (s.trackOf p) = true) ∧
      ((late ∧ 1 ≤ minutes ∧ minutes ≤ 240) ∨ (¬ late ∧ minutes = 0))
    let dayOk := s.plan.dayState = .opened ∨ (s.plan.dayState = .closed ∧ s.plan.dayDate ≠ none)
    let suits := match m with
      | .p => state ≠ none
      | .l => state ≠ none
      | .u => state ≠ none
      | .a => state ≠ none
      | .nothing => state = some .before ∨ state = some .opened
      | .x => state = some .before ∨ state = some .opened
      | .n => state = some .closed
      | .r => False
    (8 ≤ mark → Refuses c s 0x29 tag .badArg) ∧
      (∀ session : Nat, 2 ≤ session → Refuses (.markSet tag p session mark minutes lock arrival) s 0x29 tag .badArg) ∧
      (mark = m.code →
        (¬ argsOk → Refuses c s 0x29 tag .badArg) ∧
        (argsOk → (s.pupil p).inUse = false → Refuses c s 0x29 tag .notFound) ∧
        (argsOk → (s.pupil p).inUse = true → ¬ (dayOk ∧ suits) → Refuses c s 0x29 tag .state) ∧
        (argsOk → (s.pupil p).inUse = true → dayOk → suits →
          ∃ (u : State) (stopped corrected : Bool),
            Answers c s 0x29 tag (fun _ => u) .ok ((u.record p ss).bytes ++ bFlag stopped ++ bFlag corrected) ∧
            s.changedMark u p ss m minutes .office ∧ (u.record p ss).locked = decide (lock = 1) ∧
            (u.record p ss).expected = r.expected ∧
            (∀ t : RawTime, arrival = some t → m = .p ∨ late →
              (u.record p ss).arrival = some (t.hour * 3600 + t.minute * 60 + t.second)) ∧
            (arrival = none → m = .p ∨ late → (u.record p ss).arrival = r.arrival) ∧
            (m = r.mark → (u.record p ss).alert = r.alert) ∧
            (r.mark = .n → m ≠ .n → r.alert = .held ∨ r.alert = .withheld ∨ r.alert = .due ∨ r.alert = .queued →
              (u.record p ss).alert = .cancelled ∧ (u.record p ss).due = none ∧ stopped = true) ∧
            (m = .n → r.mark ≠ .n → s.plan.dayState = .opened → r.alert = .noAlert ∨ r.alert = .cancelled → r.expected = false →
              s.clock.secs < 86399 → 1 ≤ s.set.options.alertDelay →
              (u.record p ss).alert = .held ∧
                (u.record p ss).due = some (min (s.clock.secs + s.set.options.alertDelay * 60) 86399)) ∧
            (m = .n → s.plan.dayState = .closed → (u.record p ss).alert = r.alert) ∧
            (let asks := r.mark ≠ m ∧ (m = .p ∨ late) ∧ (r.alert = .sending ∨ r.alert = .sent) ∧ r.corrected = false;
              (corrected = true ↔ asks) ∧ ((u.record p ss).corrected = true ↔ r.corrected = true ∨ asks)) ∧
            ((u.tally p).notified = true ↔ (s.tally p).notified = true ∨
              (¬ (r.mark = .l ∨ r.mark = .u) ∧ late ∧ s.set.options.threshold ≠ 0 ∧
                s.set.options.threshold ≤ min ((s.tally p).count + 1) 15))))

/-- R112, R99, R106: a session's close. The session becomes CLOSED; each group of its track without members becomes EMPTY, an AWAITED group with
members MISSING, REGISTER_MISSING being latched, and another group keeps its status; in a SUBMITTED group each unlocked NONE or X record becomes
N by CLOSE with 0 minutes, its alert HELD until the close time plus the alert delay; no other record's mark changes. R107: ALERT DUE makes a
HELD alert whose mark has left N CANCELLED, and another DUE, asking the pool for storage at once: without room it stays DUE, counted as a
reject. R91: one without a recipient ends UNDELIVERED in the event, its storage returned, ALERT_UNDELIVERED latched and a CALL slip with reason
NO_RECIPIENT handed to the Slip Line. The rows take the close and the due time as reached (log 4, DESIGN CHOICE). -/
def Obligations.SessionCloseStartsAlerts : Prop :=
  (∀ (s : State) (i : Fin 4) (ss : Session) (pl : PlanIF) (x : SessState) (close : Nat),
      s.plan.dayState = .opening ∨ s.plan.dayState = .opened → (s.track i).plan = some pl → s.session i ss = some x →
      x ≠ .closed → sessionClose pl (s.track i).delay ss = some close →
      let ours := fun g : Nat => g < 120 ∧ (s.group g).track = i
      let marked := fun p : Nat => (s.pupil p).inUse = true ∧ ours (s.pupil p).group ∧
        s.groupStatus (s.pupil p).group ss = .submitted ∧ (s.record p ss).locked = false ∧
        ((s.record p ss).mark = .nothing ∨ (s.record p ss).mark = .x)
      Tab.wf factoryPupil s.set.pupils = true → Tab.wf clearedAt s.reg.recs = true →
      ∃ u : State, Does (.sessionClose i ss) s u ∧ u.session i ss = some .closed ∧
        (∀ g : Nat, ours g → s.members g = [] → u.groupStatus g ss = .empty) ∧
        (∀ g : Nat, ours g → s.members g ≠ [] → s.groupStatus g ss = .awaited →
          u.groupStatus g ss = .missing ∧ u.link.isSet .registerMissing = true) ∧
        (∀ g : Nat, ours g → s.members g ≠ [] → s.groupStatus g ss ≠ .awaited → u.groupStatus g ss = s.groupStatus g ss) ∧
        (∀ (g : Nat) (st : Session), ¬ ours g ∨ st ≠ ss → u.groupStatus g st = s.groupStatus g st) ∧
        (∀ p : Nat, marked p →
          (u.record p ss).mark = .n ∧ (u.record p ss).minutes = 0 ∧ (u.record p ss).source = some .close ∧
            (u.record p ss).locked = false) ∧
        (∀ p : Nat, marked p → (s.record p ss).alert = .noAlert → (s.record p ss).expected = false →
          let due := min (close * 60 + s.set.options.alertDelay * 60) 86399
          s.clock.secs < due → (u.record p ss).alert = .held ∧ (u.record p ss).due = some due) ∧
        ∀ (p : Nat) (st : Session), ¬ (st = ss ∧ marked p) →
          (u.record p st).mark = (s.record p st).mark ∧ (u.record p st).minutes = (s.record p st).minutes ∧
            (u.record p st).source = (s.record p st).source) ∧
    ∀ (s : State) (p : Nat) (ss : Session),
      let r := s.record p ss
      let due := s.putRec p ss { r with alert := .due, due := none, asked := some ⟨s.clock.date, s.clock.secs⟩ }
      (r.alert ≠ .held → Does (.alertDue p ss) s s) ∧
        (r.alert = .held → r.mark ≠ .n →
          Does (.alertDue p ss) s (s.putRec p ss { r with alert := .cancelled, due := none })) ∧
        (r.alert = .held → r.mark = .n → s.pool.freeDesc = 0 → s.pool.credits.alert = 0 →
          Does (.alertDue p ss) s
            ({ due with pool.stats.rejects.alert := min (due.pool.stats.rejects.alert + 1) 4294967295 }.raise .poolReject)) ∧
        (r.alert = .held → r.mark = .n → 1 ≤ s.pool.freeDesc → 6 ≤ s.pool.freeSegs →
          (s.recipients .alert (.pupil p ss)) ≠ [] →
          ∃ u : State, Does (.alertDue p ss) s u ∧ (u.record p ss).alert = .queued ∧ (u.record p ss).due = none ∧
            u.sched.alertQ = s.sched.alertQ ++ [s.pool.nextNum] ∧ u.pool.freeDesc + 1 = s.pool.freeDesc) ∧
        (r.alert = .held → r.mark = .n → 1 ≤ s.pool.freeDesc → 6 ≤ s.pool.freeSegs → s.recipients .alert (.pupil p ss) = [] →
          s.dueKeys = [] → s.recon.waits = [] → Tab.wf clearedAt s.reg.recs = true →
          (∀ m ∈ s.pool.msgs, m.number ≠ s.pool.nextNum) →
          ∃ u : State, Does (.alertDue p ss) s u ∧ (u.record p ss).alert = .undelivered ∧ (u.record p ss).due = none ∧
            u.link.isSet .alertUndelivered = true ∧ u.slips = (s.callSlip p ss .noRecipient).slips ∧
            u.desk = (s.callSlip p ss .noRecipient).desk ∧ u.pool.msgs = s.pool.msgs ∧ u.sched = s.sched ∧
            u.pool.freeDesc = s.pool.freeDesc ∧
            u.gw.stats.alert.undelivered = min (s.gw.stats.alert.undelivered + 1) 4294967295)

/-- R114, R116, R123, R128: MARK QUERY, GROUP STATUS, CONFLICT LIST and ADVANCE LIST answer OK in every day state and change nothing; a value out
of range is BAD_ARG. That GROUP STATUS of ALL is group code 120 is the model's reading (log 11, DEDUCED). -/
def Obligations.RegisterAndListReports : Prop :=
  ∀ (s : State) (tag : Nat), s.ready →
    (∀ (p : Nat) (ss : Session),
      let r := s.record p ss
      let w := s.tally p
      (p < 2400 → Answers (.markQuery tag p (sessionCode ss)) s 0x2A tag id .ok
        (b1 r.mark.code ++ b1 r.minutes ++ bOpt 1 (fun x : MarkSource => b1 x.code) r.source ++ bFlag r.locked ++
          bFlag r.expected ++ bFlag r.explained ++ bFlag r.corrected ++ bTime? r.arrival ++ b1 r.alert.code ++
          bTime? r.due ++ bOpt 1 b1 r.conflict ++ bOpt 1 (fun y : SessState => b1 y.code) (s.session (s.trackOf p) ss) ++
          b1 w.count ++ b2 w.minutes ++ bFlag w.notified)) ∧
        (2400 ≤ p → Refuses (.markQuery tag p (sessionCode ss)) s 0x2A tag .badArg)) ∧
      (∀ p session : Nat, 2 ≤ session → Refuses (.markQuery tag p session) s 0x2A tag .badArg) ∧
      (∀ (g : Nat) (ss : Session), g < 120 →
        let t := (s.group g).track
        let count := fun f : Rec → Bool => b2 ((s.members g).filter fun p => f (s.record p ss)).length
        Answers (.groupStatus tag (sessionCode ss) g) s 0x2B tag id .ok
          (b1 t.val ++ bOpt 1 (fun y : SessState => b1 y.code) (s.session t ss) ++ b1 (s.groupStatus g ss).code ++
            b2 (s.members g).length ++
            [Mark.nothing, .p, .l, .u, .x, .n, .r, .a].flatMap (fun m => count fun r => r.mark == m) ++
            count (fun r => r.locked) ++
            [AlertState.noAlert, .held, .withheld, .due, .queued, .sending, .sent, .cancelled, .undelivered].flatMap
              fun a => count fun r => r.alert == a)) ∧
      (∀ ss : Session,
        let having := fun x : GroupStatus => (List.range 120).filter fun g => s.groupStatus g ss == x
        Answers (.groupStatus tag (sessionCode ss) 120) s 0x2B tag id .ok
          ([GroupStatus.awaited, .submitted, .missing, .lateSubmitted, .empty, .notHeld].flatMap
            (fun x => b1 (having x).length) ++ bList b1 (having .missing))) ∧
      (∀ session g : Nat, 2 ≤ session ∨ 120 < g → Refuses (.groupStatus tag session g) s 0x2B tag .badArg) ∧
      (∀ start : Nat,
        let c := s.recon.conflictCnt
        let a := s.recon.advCnt
        (start ≤ 31 → Answers (.conflictList tag start) s 0x30 tag id .ok
          (b1 s.recon.conflicts.length ++ b4 c.recorded ++ b4 c.replaced ++ b4 c.overflowed ++ b4 c.resolved ++
            b4 c.dismissed ++
            bList (fun x : Conflict × Nat => b1 x.2 ++ b1 x.1.id ++ b2 x.1.pupil ++ b1 (sessionCode x.1.session) ++
              b1 x.1.kind.code ++ bTime x.1.time ++ b1 x.1.mark.code)
              (((s.recon.conflicts.drop start).take 16).zipIdx start))) ∧
        (31 < start → Refuses (.conflictList tag start) s 0x30 tag .badArg) ∧
        (start ≤ 127 → Answers (.advanceList tag start) s 0x32 tag id .ok
          (b1 s.recon.advance.length ++ b4 a.taken ++ b4 a.merged ++ b4 a.refusedFull ++ b4 a.applied ++ b4 a.unmatched ++
            b4 a.expired ++ b4 a.cancelled ++
            bList (fun x : Advance × Nat => b1 x.2 ++ bDate x.1.date ++ b2 x.1.pupil ++ b1 x.1.sessions.code ++
              bOpt 2 b2 x.1.report) (((s.recon.advance.drop start).take 16).zipIdx start))) ∧
        (127 < start → Refuses (.advanceList tag start) s 0x32 tag .badArg))

/-! ## Reconciliation (07) -/

/-- R121, R122, R124: a conflict for a pupil-session without an entry joins the tail of a list of fewer than 32 under the next id, the record
taking the id; at 32 it overflows and is not recorded; for a pupil-session with an entry it replaces the entry's kind and time. CONFLICT
RESOLVE of an id of 0 or above 255 is BAD_ARG and of an id no entry holds NOT_FOUND; DISMISS removes the entry and the record's reference
and counts it; with a mark it is MARK SET with the lock set, whose refusal is the reply, and when taken the entry and reference go. -/
def Obligations.ConflictsAreRecordedAndResolved : Prop :=
  (∀ (s : State) (p : Nat) (ss : Session) (k : ConflictKind) (m : Mark),
      let l := s.recon.conflicts
      let c := s.recon.conflictCnt
      let t := s.handConflict p ss k m
      ((∀ e ∈ l, ¬ (e.pupil = p ∧ e.session = ss)) → l.length < 32 →
        t.recon.conflicts = l ++ [⟨s.recon.nextId, p, ss, k, s.clock.secs, m⟩] ∧
          t.recon.conflictCnt = { c with recorded := min (c.recorded + 1) 4294967295 } ∧
          t.reg = (s.putRec p ss { s.record p ss with conflict := some s.recon.nextId }).reg ∧
          t.link = s.link.raise .conflict ∧
          (t.recon.nextId ∉ t.recon.conflicts.map (·.id)) ∧ 1 ≤ t.recon.nextId) ∧
        ((∀ e ∈ l, ¬ (e.pupil = p ∧ e.session = ss)) → 32 ≤ l.length →
          t = { s with recon.conflictCnt.overflowed := min (c.overflowed + 1) 4294967295 }.raise .conflictOverflow) ∧
        (∀ (a b : List Conflict) (e : Conflict), l = a ++ e :: b → e.pupil = p → e.session = ss →
          (∀ f ∈ a ++ b, ¬ (f.pupil = p ∧ f.session = ss)) →
          t = { s with
            recon.conflicts := a ++ { e with kind := k, time := s.clock.secs } :: b
            recon.conflictCnt.replaced := min (c.replaced + 1) 4294967295 }.raise .conflict)) ∧
    ∀ (s : State) (tag id : Nat) (what : RawResolve), s.ready →
      (id = 0 ∨ 255 < id → Refuses (.conflictResolve tag id what) s 0x31 tag .badArg) ∧
        (1 ≤ id → id ≤ 255 → (∀ e ∈ s.recon.conflicts, e.id ≠ id) →
          Refuses (.conflictResolve tag id what) s 0x31 tag .notFound) ∧
        ∀ (a b : List Conflict) (e : Conflict), s.recon.conflicts = a ++ e :: b → e.id = id → 1 ≤ id → id ≤ 255 →
          (∀ f ∈ a ++ b, f.id ≠ id) →
          let drop := fun u : State =>
            { u with recon.conflicts := u.recon.conflicts.filter (·.id != id) }.putRec e.pupil e.session
              { u.record e.pupil e.session with conflict := none }
          (what = .dismiss → Answers (.conflictResolve tag id what) s 0x31 tag
            (fun u => { drop u with recon.conflictCnt.dismissed := min (u.recon.conflictCnt.dismissed + 1) 4294967295 }) .ok []) ∧
          ∀ (mark minutes : Nat) (t : Option RawTime), what = .settle mark minutes t →
            let set := (s.inHand 0x31 tag).setMark e.pupil (sessionCode e.session) mark minutes 1 t
            (∀ x : Code, set = .error x → Refuses (.conflictResolve tag id what) s 0x31 tag x) ∧
              ∀ (st : Session) (u : State) (f : MarkEffect), set = .ok (st, u, f) →
                Answers (.conflictResolve tag id what) s 0x31 tag
                  (fun _ => { drop u with recon.conflictCnt.resolved := min (u.recon.conflictCnt.resolved + 1) 4294967295 }) .ok
                  (((drop u).record e.pupil e.session).bytes ++ bFlag (f.alert != .untouched) ++ bFlag f.correction)

/-- R126, R129, R133: an advance report dated 1 to 21 days ahead joins the list of fewer than 128 in date and pupil order, or merges into the entry
of its date and pupil; another date is REFUSED and a full list FULL. ADVANCE CANCEL takes the sessions named out of the entry, removing it
when none is left, counts it and answers what is left; without such an entry or session it is NOT_FOUND. WAIT ENTRY EXPIRY removes the entry
at its position, counted as expired and as UNDELIVERED for its class, the row taking its lifetime as run (log 4, DESIGN CHOICE). -/
def Obligations.AdvanceAndWaitEntries : Prop :=
  (∀ (s : State) (p : Nat) (d : Date) (x : Sessions) (report : Option Nat),
      let t := s.takeAdvance p d x report
      let l := s.recon.advance
      let soon := s.clock.date.number < d.number ∧ d.number ≤ s.clock.date.number + 21
      (¬ soon → t = (s, .refused)) ∧
        (∀ (a b : List Advance) (e : Advance), soon → l = a ++ e :: b → e.date = d → e.pupil = p →
          (∀ f ∈ a ++ b, ¬ (f.date = d ∧ f.pupil = p)) →
          let joined := if e.sessions = x then x else Sessions.both
          t = ({ s with
            recon.advance := a ++ { e with sessions := joined, report := report.or e.report } :: b
            recon.advCnt.merged := min (s.recon.advCnt.merged + 1) 4294967295 }, .taken)) ∧
        (soon → (∀ e ∈ l, ¬ (e.date = d ∧ e.pupil = p)) → 128 ≤ l.length →
          t = ({ s with recon.advCnt.refusedFull := min (s.recon.advCnt.refusedFull + 1) 4294967295 }, .full)) ∧
        (∀ a b : List Advance, soon → l = a ++ b → l.length < 128 →
          let before := fun e : Advance => e.date.number < d.number ∨ (e.date.number = d.number ∧ e.pupil < p)
          (∀ e ∈ a, before e) → (∀ e ∈ b, ¬ before e ∧ ¬ (e.date = d ∧ e.pupil = p) ∧ (e.date.number = d.number → e.pupil ≠ p)) →
          t = ({ s with
            recon.advance := a ++ ⟨d, p, x, report⟩ :: b
            recon.advCnt.taken := min (s.recon.advCnt.taken + 1) 4294967295 }, .taken))) ∧
    (∀ (s : State) (tag p sessions : Nat) (rd : RawDate), s.ready →
      let d : Date := ⟨rd.day, rd.month, rd.year + 2000⟩
      let argsOk := rd.year ≤ 99 ∧ d.valid = true ∧ p < 2400 ∧ sessions ≤ 2
      let c : Instr := .advanceCancel tag rd p sessions
      (¬ argsOk → Refuses c s 0x33 tag .badArg) ∧
        (argsOk → (∀ e ∈ s.recon.advance, ¬ (e.date = d ∧ e.pupil = p)) → Refuses c s 0x33 tag .notFound) ∧
        ∀ (a b : List Advance) (e : Advance) (x : Sessions), argsOk → s.recon.advance = a ++ e :: b → e.date = d → e.pupil = p →
          (∀ f ∈ a ++ b, ¬ (f.date = d ∧ f.pupil = p)) → sessions = x.code →
          let cut := fun (u : State) (mid : List Advance) =>
            { u with
              recon.advance := a ++ mid ++ b
              recon.advCnt.cancelled := min (u.recon.advCnt.cancelled + 1) 4294967295 }
          (x = .both ∨ x = e.sessions → Answers c s 0x33 tag (fun u => cut u []) .ok [0, 0]) ∧
            (x = .am → e.sessions = .both → Answers c s 0x33 tag (fun u => cut u [{ e with sessions := .pm }]) .ok [1, 1]) ∧
            (x = .pm → e.sessions = .both → Answers c s 0x33 tag (fun u => cut u [{ e with sessions := .am }]) .ok [1, 0]) ∧
            ((x = .am ∧ e.sessions = .pm) ∨ (x = .pm ∧ e.sessions = .am) → Refuses c s 0x33 tag .notFound)) ∧
    ∀ (s : State) (i : Nat),
      (s.recon.waits.length ≤ i → Does (.waitEntryExpiry i) s s) ∧
        ∀ e : WaitEntry, s.recon.waits[i]? = some e →
          let t : State := { s with
            recon.waits := s.recon.waits.eraseIdx i
            recon.waitCnt.expired := min (s.recon.waitCnt.expired + 1) 4294967295 }
          (e.kind = .reportReceipt → Does (.waitEntryExpiry i) s
            { t with gw.stats.receipt.undelivered := min (s.gw.stats.receipt.undelivered + 1) 4294967295 }) ∧
            (e.kind ≠ .reportReceipt → Does (.waitEntryExpiry i) s
              { t with gw.stats.notice.undelivered := min (s.gw.stats.notice.undelivered + 1) 4294967295 })

/-! ## The message pool (08) -/

/-- R138, R139, R143: a message of a length needs the length over 48 rounded up, at least 1. An attempt takes a shared descriptor and its segments
when both are free, counting them and the peak; otherwise a free credit of its class with the lowest free area, counted, with POOL_RESERVE
latched; otherwise it is rejected and takes nothing. A free returns the descriptor and segments, or the class's credit, and removes the
message's record; a class that a settings load has left with more messages on reserve than credits gets none back, and a free credit that
finds no free area serves nothing (log 33, DESIGN CHOICE). An allocation from the reserve adds one to its class's reserve uses and its k to no
statistic: R146's table is followed where R138 says that k is counted too (log 47, DESIGN CHOICE).
R144, R140, R141, R133: a free is followed by the serve pass. The first stage attempts the DUE alerts in ascending pupil, AM before PM, and
stops at the first that is rejected; the second then attempts the wait list from its head and stops at the first that is rejected, an entry
that takes storage leaving the list, served. A rejected attempt changes nothing. An alert that takes storage is QUEUED with its record, an
entry's message with the lifetime it had left; with no recipient an alert ends UNDELIVERED at once, its CALL slip joining or dropped (R91). -/
def Obligations.StorageIsTakenAndReturned : Prop :=
  (∀ n : Nat, 1 ≤ segmentsFor n ∧ n ≤ 48 * segmentsFor n ∧ (48 < n → 48 * segmentsFor n < n + 48) ∧
      (n ≤ 48 → segmentsFor n = 1)) ∧
    (∀ (s : State) (c : MsgClass) (k : Nat),
      let free := fun a : Nat => a < 16 ∧ ∀ m ∈ s.pool.msgs, m.storage ≠ .reserve a
      let inUse := 96 - (s.pool.freeSegs - k)
      let t := s.pool.stats
      (1 ≤ s.pool.freeDesc → k ≤ s.pool.freeSegs →
        s.allocate c k = some ({ s with
          pool.freeDesc := s.pool.freeDesc - 1
          pool.freeSegs := s.pool.freeSegs - k
          pool.stats.acquired := min (t.acquired + k) 4294967295
          pool.stats.peak := max t.peak inUse }, .shared k)) ∧
        (∀ a : Nat, s.pool.freeDesc = 0 ∨ s.pool.freeSegs < k → 1 ≤ s.pool.credits.get c → free a →
          (∀ b : Nat, b < a → ¬ free b) →
          s.allocate c k = some ({ s with
            pool.credits := s.pool.credits.set c (s.pool.credits.get c - 1)
            pool.stats.reserveUses := t.reserveUses.set c (min (t.reserveUses.get c + 1) 4294967295) }.raise .poolReserve,
            .reserve a)) ∧
        (s.pool.freeDesc = 0 ∨ s.pool.freeSegs < k → s.pool.credits.get c = 0 ∨ (∀ a : Nat, ¬ free a) → s.allocate c k = none)) ∧
    (∀ s : State,
      let now : Stamp := ⟨s.clock.date, s.clock.secs⟩
      let stored := fun (v : State) (c : MsgClass) (kind : MsgKind) (st : Storage) (subject : Subject) (text : Text) (life : Option Nat) =>
        let w := v.addMessage c kind st text
          (.out ⟨subject, s.recipients c subject, ⟨0, false, 0⟩, .queued, life, false⟩)
        { w with sched := w.sched.setQueue c (s.sched.queue c ++ [s.pool.nextNum]) }
      (∀ m : Message, s.freeMessage m = (s.release m).servePass) ∧
        (let v := serveAlerts s.dueKeys s; s.servePass = serveWaits v.recon.waits.length v) ∧
        (s.dueKeys = [] → s.recon.waits = [] → s.servePass = s) ∧
        (Tab.wf clearedAt s.reg.recs = true →
          (∀ (p : Nat) (ss : Session), 2 * p + sessionCode ss ∈ s.dueKeys ↔ (s.record p ss).alert = .due) ∧
            s.dueKeys.Pairwise (fun a b => a < b)) ∧
        (∀ (p : Nat) (ss : Session) (l : List Nat),
          let r := s.record p ss
          let text := s.compose 0 (.pupil p ss) (r.asked.getD now)
          let attempt := s.allocate .alert (segmentsFor text.length)
          (attempt = none → serveAlerts ((2 * p + sessionCode ss) :: l) s = s) ∧
            (∀ (v : State) (st : Storage), attempt = some (v, st) → s.recipients .alert (.pupil p ss) ≠ [] →
              serveAlerts ((2 * p + sessionCode ss) :: l) s = serveAlerts l
                ((stored v .alert .absenceAlert st (.pupil p ss) text none).putRec p ss { r with alert := .queued, asked := none })) ∧
            (∀ (v : State) (st : Storage), attempt = some (v, st) → s.recipients .alert (.pupil p ss) = [] →
              ∃ u : State, serveAlerts ((2 * p + sessionCode ss) :: l) s = serveAlerts l u ∧
                (Tab.wf clearedAt s.reg.recs = true → (u.record p ss).alert = .undelivered) ∧
                u.link.isSet .alertUndelivered = true ∧ u.slips = (s.callSlip p ss .noRecipient).slips ∧
                u.desk = (s.callSlip p ss .noRecipient).desk ∧
                u.pool.msgs = s.pool.msgs.filter (fun m => m.number != s.pool.nextNum) ∧ u.sched = s.sched)) ∧
        serveAlerts [] s = s ∧
        (∀ n : Nat, s.recon.waits = [] → serveWaits n s = s) ∧
        ∀ (e : WaitEntry) (rest : List WaitEntry) (n : Nat), s.recon.waits = e :: rest →
          let c : MsgClass := if e.kind = .reportReceipt then .receipt else .notice
          let text := s.compose (templateOf e.kind e.template) e.subject e.stamp
          let attempt := s.allocate c (segmentsFor text.length)
          let served := fun u : State =>
            { u with recon.waits := rest, recon.waitCnt.served := min (u.recon.waitCnt.served + 1) 4294967295 }
          (attempt = none → serveWaits (n + 1) s = s) ∧
            (∀ (v : State) (st : Storage), attempt = some (v, st) → s.recipients c e.subject ≠ [] →
              serveWaits (n + 1) s = serveWaits n (served (stored v c e.kind st e.subject text (some e.life)))) ∧
            (∀ (v : State) (st : Storage), attempt = some (v, st) → s.recipients c e.subject = [] →
              ∃ u : State, serveWaits (n + 1) s = serveWaits n (served u) ∧
                u.pool.msgs = s.pool.msgs.filter (fun m => m.number != s.pool.nextNum) ∧ u.sched = s.sched ∧ u.reg = s.reg ∧
                u.recon = s.recon)) ∧
    ∀ (s : State) (m : Message),
      let rest := s.pool.msgs.filter fun x => x.number != m.number
      (∀ k : Nat, m.storage = .shared k → s.release m = { s with
        pool.msgs := rest
        pool.freeDesc := s.pool.freeDesc + 1
        pool.freeSegs := s.pool.freeSegs + k }) ∧
        (∀ a : Nat, m.storage = .reserve a →
          let held := (s.pool.msgs.filter fun x => x.cls == m.cls && x.onReserve).length
          (held ≤ s.set.options.credits.get m.cls → s.release m = { s with
            pool.msgs := rest
            pool.credits := s.pool.credits.set m.cls (s.pool.credits.get m.cls + 1) }) ∧
            (s.set.options.credits.get m.cls < held → s.release m = { s with pool.msgs := rest }))

/-- R135, R136, R137: what every step keeps of the pool, whatever the command: the free shared descriptors and the messages on shared storage
number 48, the free and held shared segments 96; each class's free credits are its credit setting less its messages on reserve, and none
where a settings load gave it fewer (log 33, DESIGN CHOICE); each area holds one message, each number names one, and no message holds the
next number. -/
def Obligations.StepsConserveThePool : Prop :=
  ∀ s t : State, s.poolBalances → step s = .next t → t.poolBalances

/-! ## Parent messaging (09) -/

/-- R169, R141, R132, R171, R156, R172: MESSAGE SEND out of range is BAD_ARG and for a pupil not in use NOT_FOUND; a text or template that
takes shared storage joins the NOTICE queue QUEUED and is answered with its number, one without a recipient with NO_RECIPIENT; a template
that finds no room waits in the list with its position, and a text, or a template at 32 entries, is answered as dropped. MESSAGE CANCEL of
number 0 is BAD_ARG, of no message NOT_FOUND, of a report STATE, of a message in SENDING BUSY, and of a waiting notice on shared storage OK,
its storage returned. INBOUND NEXT answers the oldest kept report, each answer by its place in its own list (R102, R126, R130), and frees it;
an empty list is NOT_FOUND. The position counts the entries
ahead, from 0: R169 gives no base, and this is the model's choice (log 35, DESIGN CHOICE); the other bytes of the replies are read out of
R211 (log 11, DEDUCED).
R150, R151: a message's text is its template's characters and its fields' values in order, cut to the first 288, TIME and MINUTES only when
the request date is the day date; which template a kind uses; and its recipients, the pupil's contact slots in use with the flag of the
class, in slot order, none when the pupil is not in use, or the sender alone (under slot 0, which R151 does not give a receipt).
R141: what becomes of a request of each NOTICE and RECEIPT kind: stored with room, and otherwise counted as a reject and handed to the wait
list, or dropped at 32 entries. A message cancelled or returned is followed by the serve pass. -/
def Obligations.MessageRequests : Prop :=
  (∀ (s : State) (n : Nat) (stamp : Stamp),
    let digit := fun k : Nat => (BitVec.ofNat 8 (48 + k % 10) : Byte)
    let two := fun k : Nat => [digit (k / 10), digit k]
    let date := two stamp.date.day ++ [0x2F#8] ++ two stamp.date.month
    let time := fun t : Nat => two (t / 3600) ++ [0x3A#8] ++ two (t / 60 % 60)
    let composed := fun field : Nat → Text =>
      ((s.template n).flatMap fun c => if c.toNat < 32 then field c.toNat else [c]).take 288
    (∀ (p : Nat) (ss : Session),
      let r := s.record p ss
      let m := r.minutes
      let today := s.plan.dayDate = some stamp.date
      m < 1000 →
      s.compose n (.pupil p ss) stamp = composed fun k => match k with
        | 1 => (s.pupil p).name
        | 2 => (s.group (s.pupil p).group).code
        | 3 => date
        | 4 => if ss = .am then [0x41#8, 0x4D#8] else [0x50#8, 0x4D#8]
        | 5 => if today then (match r.arrival with
          | some t => time t
          | none => []) else []
        | 6 =>
          if today ∧ m ≠ 0 then
            if m < 10 then [digit m] else if m < 100 then two m else digit (m / 100) :: two m
          else []
        | _ => []) ∧
      ∀ (number : Text) (report : Nat), s.compose n (.sender number report) stamp = composed fun k => match k with
        | 3 => date
        | 5 => time stamp.secs
        | _ => []) ∧
  (∀ n : Option Nat, templateOf .absenceAlert n = 0 ∧ templateOf .lateNotice n = 1 ∧ templateOf .patternNotice n = 2 ∧
    templateOf .arrivalCorrection n = 3 ∧ templateOf .reportReceipt n = 4 ∧ ∀ k : Nat, templateOf .officeNotice (some k) = k) ∧
  (∀ (s : State) (c : MsgClass),
    (∀ (p : Nat) (ss : Session),
      let l := s.recipients c (.pupil p ss)
      ((s.pupil p).inUse = false → l = []) ∧
        ((s.pupil p).inUse = true →
          (∀ r : Recipient, r ∈ l ↔ ∃ i : Fin 3,
            let x := s.contact (3 * p + i.val)
            x.inUse = true ∧ (c = .alert → x.notifyAlert = true) ∧ (c ≠ .alert → x.notifyNotice = true) ∧
              r = ⟨i.val, x.number, x.first, x.second⟩) ∧
          l.Pairwise (fun a b => a.slot < b.slot))) ∧
      ∀ (number : Text) (n : Nat), s.recipients c (.sender number n) = [⟨0, number, .text, none⟩]) ∧
  (∀ (s : State) (kind : MsgKind) (subject : Subject) (template : Option Nat), kind = .lateNotice ∨ kind = .patternNotice ∨
    kind = .arrivalCorrection ∨ kind = .reportReceipt ∨ kind = .officeNotice →
    let now : Stamp := ⟨s.clock.date, s.clock.secs⟩
    let c : MsgClass := if kind = .reportReceipt then .receipt else .notice
    let text := s.compose (templateOf kind template) subject now
    let life := (if kind = .reportReceipt then s.set.options.receiptLife else s.set.options.noticeLife) * 60
    let k := segmentsFor text.length
    let to_ := s.recipients c subject
    let t := s.requestMsg kind subject template
    let rejected : State :=
      { s with pool.stats.rejects := s.pool.stats.rejects.set c (min (s.pool.stats.rejects.get c + 1) 4294967295) }.raise .poolReject
    let full := s.pool.freeDesc = 0 ∧ s.pool.credits.get c = 0
    (1 ≤ s.pool.freeDesc → k ≤ s.pool.freeSegs → to_ ≠ [] →
      t.2 = .queued s.pool.nextNum ∧ t.1.sched = s.sched.setQueue c (s.sched.queue c ++ [s.pool.nextNum]) ∧
        t.1.pool.msgs = s.pool.msgs ++
          [⟨s.pool.nextNum, c, kind, .shared k, now, text, .out ⟨subject, to_, ⟨0, false, 0⟩, .queued, some life, false⟩⟩] ∧
        t.1.pool.freeDesc + 1 = s.pool.freeDesc ∧ t.1.pool.freeSegs + k = s.pool.freeSegs ∧ t.1.reg = s.reg ∧ t.1.recon = s.recon) ∧
      (full → s.recon.waits.length < 32 → t = ({ rejected with
        recon.waits := s.recon.waits ++ [⟨kind, subject, template, now, life⟩]
        recon.waitCnt.joined := min (s.recon.waitCnt.joined + 1) 4294967295 }, .waiting s.recon.waits.length)) ∧
      (full → 32 ≤ s.recon.waits.length → t = ({ rejected with
        recon.waitCnt.dropped := min (s.recon.waitCnt.dropped + 1) 4294967295 }, .dropped))) ∧
  (∀ (s : State) (tag p session : Nat) (what : RawSend), s.ready →
      let c : Instr := .messageSend tag p session what
      let suits := match what with
        | .template n => n ≤ 7
        | .text t => t.length ≤ 200 ∧ ∀ x ∈ t, 0x20 ≤ x.toNat ∧ x.toNat ≤ 0x7E
      let argsOk := p < 2400 ∧ session ≤ 1 ∧ suits
      (¬ argsOk → Refuses c s 0x39 tag .badArg) ∧
        (argsOk → (s.pupil p).inUse = false → Refuses c s 0x39 tag .notFound) ∧
        ∀ ss : Session, argsOk → (s.pupil p).inUse = true → session = sessionCode ss →
          let subject : Subject := .pupil p ss
          let now : Stamp := ⟨s.clock.date, s.clock.secs⟩
          let text := match what with
            | .template n => s.compose n subject now
            | .text t => t
          let life := s.set.options.noticeLife * 60
          let to_ := s.recipients .notice subject
          let room := 1 ≤ s.pool.freeDesc ∧ segmentsFor text.length ≤ s.pool.freeSegs
          let full := s.pool.freeDesc = 0 ∧ s.pool.credits.notice = 0
          let rejected := fun u : State =>
            { u with pool.stats.rejects.notice := min (u.pool.stats.rejects.notice + 1) 4294967295 }.raise .poolReject
          (room → to_ ≠ [] →
            ∃ u : State, Answers c s 0x39 tag (fun _ => u) .ok (b1 0 ++ b2 s.pool.nextNum) ∧
              u.pool.msgs = s.pool.msgs ++ [⟨s.pool.nextNum, .notice, .officeNotice, .shared (segmentsFor text.length), now, text,
                .out ⟨subject, to_, ⟨0, false, 0⟩, .queued, some life, false⟩⟩] ∧
              u.sched.noticeQ = s.sched.noticeQ ++ [s.pool.nextNum] ∧ u.pool.freeDesc + 1 = s.pool.freeDesc ∧
              u.pool.freeSegs + segmentsFor text.length = s.pool.freeSegs) ∧
            (room → to_ = [] → s.recon.waits = [] → ∃ u : State, Answers c s 0x39 tag (fun _ => u) .ok [1] ∧
              u.gw.stats.notice.undelivered = min (s.gw.stats.notice.undelivered + 1) 4294967295) ∧
            (∀ t : Text, full → what = .text t → Answers c s 0x39 tag rejected .ok [3]) ∧
            (∀ n : Nat, full → what = .template n → s.recon.waits.length < 32 →
              Answers c s 0x39 tag
                (fun u => { rejected u with
                  recon.waits := u.recon.waits ++ [⟨.officeNotice, subject, some n, now, life⟩]
                  recon.waitCnt.joined := min (u.recon.waitCnt.joined + 1) 4294967295 }) .ok
                (b1 2 ++ b1 s.recon.waits.length)) ∧
            (∀ n : Nat, full → what = .template n → 32 ≤ s.recon.waits.length →
              Answers c s 0x39 tag
                (fun u => { rejected u with
                  recon.waitCnt.dropped := min (u.recon.waitCnt.dropped + 1) 4294967295 }) .ok [3])) ∧
    (∀ (s : State) (tag n : Nat), s.ready →
      let c : Instr := .messageCancel tag n
      (n = 0 → Refuses c s 0x3B tag .badArg) ∧
        (n ≠ 0 → s.message n = none → Refuses c s 0x3B tag .notFound) ∧
        (∀ (m : Message) (r : Report), n ≠ 0 → s.message n = some m → m.body = .report r → Refuses c s 0x3B tag .state) ∧
        (∀ (m : Message) (o : Outbound) (x left : Nat), n ≠ 0 → s.message n = some m → m.body = .out o →
          o.state = .sending x left → Refuses c s 0x3B tag .busy) ∧
        ∀ (m : Message) (o : Outbound) (k : Nat), n ≠ 0 → s.message n = some m → m.body = .out o →
          o.state = .queued ∨ (∃ left : Nat, o.state = .waitRetry left) → m.cls = .notice → m.kind ≠ .absenceAlert →
          m.storage = .shared k →
          Answers c s 0x3B tag
            (fun u => State.servePass { u with
              pool.msgs := u.pool.msgs.filter fun x => x.number != n
              pool.freeDesc := u.pool.freeDesc + 1
              pool.freeSegs := u.pool.freeSegs + k
              sched.noticeQ := u.sched.noticeQ.filter fun x => x != n
              gw.stats.notice.withdrawn := min (u.gw.stats.notice.withdrawn + 1) 4294967295 }) .ok []) ∧
    ∀ (s : State) (tag : Nat), s.ready →
      (s.sched.kept = [] → Refuses (.inboundNext tag) s 0x3C tag .notFound) ∧
        ∀ (n : Nat) (rest : List Nat) (m : Message) (r : Report) (k : KeepReasons), s.sched.kept = n :: rest →
          s.message n = some m → m.body = .report r → r.kept = some k →
          let answer := fun a : Answer =>
            match a with
            | .absent .applied => b1 0
            | .absent .kept => b1 1
            | .absent .conflict => b1 2
            | .absent .locked => b1 3
            | .advance .refused => b1 0
            | .advance .taken => b1 1
            | .advance .full => b1 2
            | .lateness .locked => b1 0
            | .lateness .explained => b1 1
            | .lateness .expected => b1 2
            | .lateness .conflict => b1 3
          Answers (.inboundNext tag) s 0x3C tag (fun u => { u with sched.kept := rest }.freeMessage m) .ok
            (b2 n ++ b1 r.sender.length ++ r.sender ++ bStamp m.made ++ b1 m.text.length ++ m.text ++ b1 m.kind.code ++
              bList b1 ((if k.reason then [0] else []) ++ (if k.unmatched then [1] else []) ++
                (if k.locked then [2] else []) ++ (if k.conflict then [3] else []) ++ (if k.office then [4] else [])) ++
              bList (fun x : Nat × List Answer => b2 x.1 ++ bList answer x.2) r.answers)

/-- R147, R170, R173, R190, R192: POOL STATUS, MESSAGE LIST, GATEWAY STATUS, ARCHIVE DIRECTORY and STORE STATUS answer OK in every day state and
under every job and change nothing, but that a set clear flag clears the statistics after the reply's values are taken, the peak taking the
segments in use; a value out of range is BAD_ARG. While a commit runs its open entry is reported PARTIAL with 0 pages and 0 records. That
MESSAGE LIST is cut to the longest beginning that fits 237 bytes is the model's reading (log 17, DEDUCED), and so are the codes, the one flag
byte before fields that are none together, the byte that marks an entry in progress and the order and form of a message's fields (log 11,
DEDUCED). While
the oldest entry is being removed, the pages spanned and records done of the commit before are reported (log 40, DESIGN CHOICE). -/
def Obligations.PoolAndStoreReports : Prop :=
  ∀ (s : State) (tag : Nat), s.ready →
    let code := fun x : OutState => match x with
      | .queued => 0
      | .sending _ _ => 1
      | .waitRetry _ => 2
    let tagOf := fun x : OutState => match x with
      | .sending t _ => some t
      | _ => none
    let left := fun x : OutState => match x with
      | .sending _ k => some k
      | .waitRetry k => some k
      | .queued => none
    let entry := fun m : Message =>
      b2 m.number ++ b1 m.cls.code ++ b1 m.kind.code ++
        (match m.storage with
          | .shared k => b1 0 ++ b1 k
          | .reserve a => b1 1 ++ b1 a) ++
        b2 m.text.length ++ bTime m.made.secs ++
        match m.body with
          | .out o =>
            b1 (code o.state) ++
              (match o.subject with
                | .pupil p ss => b2 p ++ b1 (sessionCode ss)
                | .sender number _ => b1 number.length ++ number) ++
              b1 o.recipients.length ++ b1 o.cursor.recipient ++ bFlag o.cursor.second ++ b1 o.cursor.attempts ++
              bOpt 1 b1 (tagOf o.state) ++ bOpt 2 b2 (left o.state) ++ bOpt 2 b2 o.life
          | .report r =>
            match r.kept with
              | none => b1 0
              | some k => b1 1 ++ bList b1 ((if k.reason then [0] else []) ++ (if k.unmatched then [1] else []) ++
                  (if k.locked then [2] else []) ++ (if k.conflict then [3] else []) ++ (if k.office then [4] else []))
    let status :=
      let g := s.gw.stats
      let ends := fun e : EndCounts => b4 e.delivered ++ b4 e.undelivered ++ b4 e.expired ++ b4 e.withdrawn ++ b4 e.cancelled
      let q := s.sched
      bFlag (!s.gw.up) ++ bOpt 2 (fun w : Window => b1 w.size ++ bFlag (!w.accepting)) s.gw.window ++ b1 s.gw.since ++
        bList (fun b : Submission =>
          let o := (s.message b.number).bind Message.outbound
          let at_ := o.bind fun x => (x.recipients[x.cursor.recipient]?).map fun r =>
            if x.cursor.second then r.second.getD r.first else r.first
          b1 b.tag ++ b2 b.number ++ b1 ((at_.map (·.code)).getD 0) ++ b2 ((o.bind fun x => left x.state).getD 0)) q.out ++
        b1 q.alertQ.length ++ b1 q.noticeQ.length ++ b1 q.receiptQ.length ++
        b1 (s.pool.msgs.filter fun m => m.outbound.any fun o => code o.state == 2).length ++ b1 q.nextTag ++
        b1 q.kept.length ++ b4 g.submissions ++ b4 g.delivered ++ b4 g.noAnswer ++ b4 g.invalidNumber ++ b4 g.lineBusy ++
        b4 g.refused ++ b4 g.timeouts ++ b4 g.stale ++ b4 g.unknown ++ b4 g.badRecords ++ b4 g.inboundTaken ++
        b4 g.inboundBusy ++ b4 g.recalls ++ b4 g.downs ++ ends g.alert ++ ends g.notice ++ ends g.receipt
    (let p := s.pool
      let w := s.recon.waitCnt
      let now : Stamp := ⟨s.clock.date, s.clock.secs⟩
      let four := fun x : PerClass Nat => b4 x.alert ++ b4 x.notice ++ b4 x.report ++ b4 x.receipt
      let held := fun c : MsgClass => (p.msgs.filter fun m => m.cls == c).length
      let reserved := fun c : MsgClass => (p.msgs.filter fun m => m.cls == c && m.onReserve).length
      let body :=
        b1 p.freeDesc ++ b1 p.freeSegs ++ b1 (96 - p.freeSegs) ++
          [MsgClass.alert, .notice, .report, .receipt].flatMap (fun c =>
            b1 (held c) ++ b1 (held c - reserved c) ++ b1 (reserved c) ++ b1 (s.set.options.credits.get c) ++
              b1 (p.credits.get c)) ++
          (List.range 16).flatMap (fun a => bOpt 3 (fun m : Message => b1 m.cls.code ++ b2 m.number)
            (p.msgs.find? fun m => m.storage == .reserve a)) ++
          b2 s.dueKeys.length ++ bOpt 3 (fun k => b2 (k / 2) ++ b1 (k % 2)) s.dueKeys.head? ++
          b1 s.recon.waits.length ++ b4 w.joined ++ b4 w.served ++ b4 w.dropped ++ b4 w.expired ++ b4 w.withdrawn ++
          b4 p.stats.acquired ++ four p.stats.reserveUses ++ four p.stats.rejects ++ b4 p.stats.peak ++ bStamp now ++
          bStamp p.stats.since
      Answers (.poolStatus tag 0) s 0x38 tag id .ok body ∧
        Answers (.poolStatus tag 1) s 0x38 tag
          (fun u => { u with pool.stats := ⟨0, ⟨0, 0, 0, 0⟩, ⟨0, 0, 0, 0⟩, 96 - p.freeSegs, now⟩ }) .ok body) ∧
      (∀ clear : Nat, 2 ≤ clear → Refuses (.poolStatus tag clear) s 0x38 tag .badArg ∧
        Refuses (.gatewayStatus tag clear) s 0x3D tag .badArg) ∧
      (∀ start : Nat,
        (start ≤ 63 → ∃ l : List Message, l <+: (s.pool.msgs.drop start).take 8 ∧
          (l.map fun m => (entry m).length).sum ≤ 237 ∧
          (∀ m : Message, l ++ [m] <+: (s.pool.msgs.drop start).take 8 →
            237 < (l.map fun x => (entry x).length).sum + (entry m).length) ∧
          ((((s.pool.msgs.drop start).take 8).map fun m => (entry m).length).sum ≤ 237 → l = (s.pool.msgs.drop start).take 8) ∧
          Answers (.messageList tag start) s 0x3A tag id .ok
            (b1 s.pool.msgs.length ++ b1 l.length ++ l.flatMap entry)) ∧
        (63 < start → Refuses (.messageList tag start) s 0x3A tag .badArg)) ∧
      (Answers (.gatewayStatus tag 0) s 0x3D tag id .ok status ∧
        Answers (.gatewayStatus tag 1) s 0x3D tag
          (fun u => { u with gw.stats :=
            ⟨0, 0, 0, 0, 0, 0, 0, 0, 0, 0, 0, 0, 0, 0, ⟨0, 0, 0, 0, 0⟩, ⟨0, 0, 0, 0, 0⟩, ⟨0, 0, 0, 0, 0⟩⟩ }) .ok
          status) ∧
      (∀ start : Nat,
        (start ≤ 31 → ∃ l : List (Nat × DayEntry),
          (∀ (k : Nat) (e : DayEntry), (k, e) ∈ l ↔ s.store.dir[k]? = some (some e)) ∧
          l.Pairwise (fun a b => a.2.commit ≤ b.2.commit) ∧
          Answers (.archiveDirectory tag start) s 0x40 tag id .ok
            (b1 l.length ++ bList (fun x : Nat × DayEntry =>
              let open_ := s.store.inProgress x.1
              b1 x.1 ++ b4 x.2.commit ++ bDate x.2.date ++ b2 x.2.first ++ b2 (if open_ then 0 else x.2.pages) ++
                b2 (if open_ then 0 else x.2.records) ++ b1 x.2.conflicts ++ bFlag (open_ || !x.2.complete) ++
                bFlag open_) ((l.drop start).take 12))) ∧
        (31 < start → Refuses (.archiveDirectory tag start) s 0x40 tag .badArg)) ∧
      let commit := match s.store.job with
        | .commit c =>
          let number := match (s.store.dir[c.slot]?).join with
            | some e => e.commit
            | none => s.store.nextCommit
          b1 1 ++ b4 number ++ b2 s.store.spanned ++ b2 s.store.done ++ b2 s.inUsePupils.length
        | _ => List.replicate 11 0
      Answers (.storeStatus tag) s 0x42 tag id .ok
        (b1 s.store.job.code ++ b1 s.store.op.code ++ commit ++ bList b2 s.store.bad ++ b1 s.store.entries.length ++
          b2 s.store.nextPage ++ b1 (commitCode s.store.lastCommit) ++ b1 (saveCode s.store.lastSave))

/-- R157, R158, R159: the gateway link. A bad record is counted, and one abandoned for silence with it; the record sent gives way to the
next; outside a record the marker C5h begins one, and inside one a character is kept until the record is complete. A READY of window 1 to 4
and status ACCEPTING or PAUSED brings the link UP with that window and restarts the silence; another is bad and no READY. Its submissions
beyond the window are recalled, and at the loss of the link all are, the link going DOWN, counted, with GATEWAY_DOWN latched. The rows for a
silence, of the record or of the link, take it as run (log 4, DESIGN CHOICE). That a record of any kind and length is taken to the end that
its length bytes declare is the model's choice (log 34, DESIGN CHOICE), and that an assembly under way at a whole-record row is given up
uncounted its reading (log 20, DEDUCED). The check character completes a record with the effect of its own row: READY, RESULT and INBOUND where
the sum, the kind and the fields' lengths agree, and a bad record otherwise.
R158, R159, R153: recalled messages return to QUEUED at the heads of their class queues, in submission order, before the messages that stood
there; their tags are released, each recall is counted, and an alert's record becomes QUEUED with its message, unless it is detached. R162:
a recalled alert that is detached or whose mark has left N ends CANCELLED instead; its storage and queues are stated where nothing waits for
it. -/
def Obligations.GatewayLink : Prop :=
  ∀ s : State,
    let clear : State := { s with gw.asm := none, gw.gap := 0 }
    let bad : State := { clear with gw.stats.badRecords := min (s.gw.stats.badRecords + 1) 4294967295 }
    Does .gatewayBadRecord s bad ∧
      (∀ l : List Byte, s.gw.asm = some l → Does .gatewayRecordAbandoned s bad) ∧
      (∀ r : GwRecord, s.gw.sending = some r →
        Does .gatewayRecordSent s { s with gw.sending := s.gw.outQ.head?, gw.outQ := s.gw.outQ.tail }) ∧
      (s.gw.asm = none → Does (.gatewayCharacter 0xC5#8) s { s with gw.asm := some [], gw.gap := 0 }) ∧
      (∀ (l : List Byte) (c : Byte), s.gw.asm = some l → l.length < 3 →
        Does (.gatewayCharacter c) s { s with gw.asm := some (l ++ [c]), gw.gap := 0 }) ∧
      (∀ (k h n c : Byte) (l : List Byte), s.gw.asm = some (k :: h :: n :: l) → l.length + 1 < h.toNat * 256 + n.toNat + 1 →
        Does (.gatewayCharacter c) s { s with gw.asm := some (k :: h :: n :: l ++ [c]), gw.gap := 0 }) ∧
      (∀ (k h n c : Byte) (l : List Byte), s.gw.asm = some (k :: h :: n :: l) → l.length = h.toNat * 256 + n.toNat →
        let agrees := sum256 (k :: h :: n :: l ++ [c]) = 0
        let sent := exec (.gatewayCharacter c) s
        let isInbound := fun sender text : Text => ∃ a b : Byte, l = a :: sender ++ b :: text ∧ a.toNat = sender.length ∧
          b.toNat = text.length
        (∀ w st : Byte, agrees → k = 0x01#8 → l = [w, st] → sent = exec (.ready w.toNat st.toNat) s) ∧
          (∀ tag r : Byte, agrees → k = 0x02#8 → l = [tag, r] → sent = exec (.result tag.toNat r.toNat) s) ∧
          (∀ sender text : Text, agrees → k = 0x03#8 → isInbound sender text → sent = exec (.inbound sender text) s) ∧
          (¬ agrees ∨ (k ≠ 0x01#8 ∧ k ≠ 0x02#8 ∧ k ≠ 0x03#8) ∨ ((k = 0x01#8 ∨ k = 0x02#8) ∧ l.length ≠ 2) ∨
              (k = 0x03#8 ∧ ∀ sender text : Text, ¬ isInbound sender text) →
            sent = exec .gatewayBadRecord s)) ∧
      (∀ w st : Nat, w = 0 ∨ 4 < w ∨ 2 ≤ st → Does (.ready w st) s bad) ∧
      (∀ w st : Nat, 1 ≤ w → w ≤ 4 → st ≤ 1 →
        let up : State := { clear with gw.up := true, gw.window := some ⟨w, st == 0⟩, gw.since := 0 }
        (s.sched.out.length ≤ w → Does (.ready w st) s (State.recall up [])) ∧
          Does (.ready w st) s (State.recall up (s.sched.out.drop w)) ∧ State.recall up [] = up) ∧
      (s.gw.up = false → Does .linkLoss s s) ∧
      (s.gw.up = true →
        let down : State := { s with
          gw.up := false
          gw.window := none
          gw.since := 60
          gw.stats.downs := min (s.gw.stats.downs + 1) 4294967295 }
        Does .linkLoss s ((down.raise .gatewayDown).recall s.sched.out)) ∧
      (∀ m : Message, s.deadAlert m ≠ none ↔ ∃ (o : Outbound) (p : Nat) (ss : Session), m.kind = .absenceAlert ∧
        m.body = .out o ∧ o.subject = .pupil p ss ∧ (o.detached = true ∨ (s.record p ss).mark ≠ .n)) ∧
      (∀ l : List Submission, l ≠ [] →
        (∀ b ∈ l, ∃ (m : Message) (o : Outbound), s.message b.number = some m ∧ m.body = .out o) →
        let t := s.recall l
        let lives := fun b : Submission => (s.message b.number).any fun m => (s.deadAlert m).isNone
        let back := (l.filter lives).map (·.number)
        let gone := (l.filter fun b => !lives b).map (·.number)
        let ofClass := fun (c : MsgClass) (n : Nat) => (s.message n).any fun m => m.cls == c
        let queued := fun m : Message => match m.body with
          | .out o => if m.number ∈ back then { m with body := .out { o with state := .queued } } else m
          | .report _ => m
        gone = [] ∨ (s.dueKeys = [] ∧ s.recon.waits = [] ∧ ∀ m ∈ s.pool.msgs, m.kind ≠ .arrivalCorrection) →
          (∀ c : MsgClass, c ≠ .report → t.sched.queue c = back.filter (ofClass c) ++
            (s.sched.queue c).filter fun n => !(gone.contains n && ofClass c n)) ∧
            t.pool.msgs = (s.pool.msgs.filter fun m => !gone.contains m.number).map queued ∧
            t.sched.out = s.sched.out.filter (fun x => !(l.map (·.tag)).contains x.tag) ∧
            (∀ b ∈ l, b.tag ∈ t.sched.released) ∧
            t.gw.stats.recalls = min (s.gw.stats.recalls + l.length) 4294967295 ∧
            (Tab.wf clearedAt s.reg.recs = true → (l.map (·.number)).Nodup →
              ∀ b ∈ l, ∀ (m : Message) (o : Outbound) (p : Nat) (ss : Session), s.message b.number = some m → m.body = .out o →
                m.kind = .absenceAlert → o.subject = .pupil p ss → o.detached = false →
                ((s.record p ss).mark = .n → (t.record p ss).alert = .queued) ∧
                  ((s.record p ss).mark ≠ .n → (t.record p ss).alert = .cancelled))) ∧
      ∀ (b : Submission) (m : Message) (o : Outbound), s.message b.number = some m → m.body = .out o → s.deadAlert m = none →
        let t := s.recallOne b
        t.sched.out = s.sched.out.filter (fun x => x.tag != b.tag) ∧ b.tag ∈ t.sched.released ∧
          t.gw.stats.recalls = min (s.gw.stats.recalls + 1) 4294967295 ∧
          (∀ x : Message, t.message b.number = some x → x = { m with body := .out { o with state := .queued } })

/-- R161, R154, R155, R162: a RESULT for no outstanding submission is stale when its tag was released by a timeout or a recall, and unknown
otherwise. For an outstanding one the tag is released and the outcome counted. A timeout does as a failure, is counted, and leaves its tag
among the released ones, where it may already stand. A message of any class: DELIVERED ends it, an alert's record SENT. A failure with attempts
left makes it WAIT_RETRY with the retry delay; the last attempt on the first channel moves it to the second, INVALID_NUMBER or the last attempt
on the last channel to the next recipient, at its queue's tail without a delay; after the last recipient it ends UNDELIVERED. An alert whose
mark is N goes the same way, its record QUEUED or in the end UNDELIVERED, with ALERT_UNDELIVERED latched and a CALL slip with reason UNDELIVERED
(R91). An end takes the message out of its queue, is counted, and its storage is returned and served on.
A retry delay that has run returns the message to its queue's tail; a lifetime that has run ends a waiting message EXPIRED, and in SENDING lets
the attempt run, a failure of which then ends it EXPIRED. An alert has no lifetime.
A failed alert whose mark has left N, or which is detached, ends CANCELLED with the ARRIVAL CORRECTION entries and waiting messages of its
pupil and session withdrawn, no CALL slip and nothing latched; a detached one leaves its record, which DELIVERED leaves too. A tag
that is not outstanding and a message that is not in the pool time nothing. The timed rows take the time as run (log 4, DESIGN CHOICE). That an
assembly at a RESULT row is given up uncounted is the model's reading (log 20, DEDUCED). That a dead alert's waiting ARRIVAL CORRECTIONs go
before its own storage is freed is the model's choice (log 12, DESIGN CHOICE), and that attempts above a lowered N end the channel at the next
failure its reading (log 13, DEDUCED). -/
def Obligations.ResultsAndTimers : Prop :=
  let up := fun k : Nat => min (k + 1) 4294967295
  let ends := fun (z : State) (m : Message) (count : EndCounts → EndCounts) =>
    State.servePass (State.release
      { z with
        sched := z.sched.setQueue m.cls ((z.sched.queue m.cls).filter fun x => x != m.number)
        gw.stats := z.gw.stats.modEnds m.cls count } m)
  let joins := fun (z : State) (m : Message) => { z with sched := z.sched.setQueue m.cls (z.sched.queue m.cls ++ [m.number]) }
  let expires := fun e : EndCounts => { e with undelivered := up e.undelivered, expired := up e.expired }
  (∀ (s : State) (tag outcome : Nat), Tab.wf clearedAt s.reg.recs = true →
      let clear : State := { s with gw.asm := none, gw.gap := 0 }
      let g := s.gw.stats
      (tag = 0 ∨ 255 < tag ∨ 5 ≤ outcome →
        Does (.result tag outcome) s { clear with gw.stats.badRecords := min (g.badRecords + 1) 4294967295 }) ∧
        (1 ≤ tag → tag ≤ 255 → outcome ≤ 4 → (∀ b ∈ s.sched.out, b.tag ≠ tag) →
          (tag ∈ s.sched.released →
            Does (.result tag outcome) s { clear with gw.stats.stale := min (g.stale + 1) 4294967295 }) ∧
          (tag ∉ s.sched.released →
            Does (.result tag outcome) s { clear with gw.stats.unknown := min (g.unknown + 1) 4294967295 })) ∧
        ((∀ b ∈ s.sched.out, b.tag ≠ tag) → Does (.deliveryTimeout tag) s s) ∧
        ∀ (a b : List Submission) (n : Nat) (m : Message) (o : Outbound), 1 ≤ tag → tag ≤ 255 →
          s.sched.out = a ++ ⟨tag, n⟩ :: b → (∀ x ∈ a ++ b, x.tag ≠ tag) → s.message n = some m → m.body = .out o →
          let left := a ++ b
          let cur := o.cursor
          let put := fun (z : State) (next : Cursor) (st : OutState) => { z with
            pool.msgs := s.pool.msgs.map fun x =>
              if x.number = n then { x with body := .out { o with cursor := next, state := st } } else x }
          let told := fun (z : State) (alert : AlertState) => match m.kind, o.subject with
            | .absenceAlert, .pupil p ss => if o.detached then z else z.putRec p ss { z.record p ss with alert := alert }
            | _, _ => z
          let dead := m.kind = .absenceAlert ∧
            ∃ (p : Nat) (ss : Session), o.subject = .pupil p ss ∧ (o.detached = true ∨ (s.record p ss).mark ≠ .n)
          let result := fun t : GwStats => { clear with sched.out := left, gw.stats := t }
          let fails : Instr → Bool → State → Prop := fun c invalid y =>
            (c = .result tag 1 ∧ invalid = false ∧ y = result { g with noAnswer := up g.noAnswer }) ∨
              (c = .result tag 2 ∧ invalid = true ∧ y = result { g with invalidNumber := up g.invalidNumber }) ∨
              (c = .result tag 3 ∧ invalid = false ∧ y = result { g with lineBusy := up g.lineBusy }) ∨
              (c = .result tag 4 ∧ invalid = false ∧ y = result { g with refused := up g.refused }) ∨
              (c = .deliveryTimeout tag ∧ invalid = false ∧
                y = { s with
                  sched.out := left
                  sched.released := if tag ∈ s.sched.released then s.sched.released else s.sched.released ++ [tag]
                  gw.stats.timeouts := up g.timeouts })
          Does (.result tag 0) s (ends (told (result { g with delivered := up g.delivered }) .sent) m
            fun e => { e with delivered := up e.delivered }) ∧
            (∀ (c : Instr) (invalid : Bool) (y : State), fails c invalid y → ¬ dead → (∀ x ∈ s.pool.msgs, x.number = n → x = m) →
              (o.life = some 0 → Does c s (ends y m expires)) ∧
                (o.life ≠ some 0 → invalid = false → cur.attempts + 1 < s.set.options.fallback →
                  Does c s (told (put y { cur with attempts := cur.attempts + 1 } (.waitRetry s.set.options.retry)) .queued)) ∧
                (o.life ≠ some 0 → invalid = false → s.set.options.fallback ≤ cur.attempts + 1 → cur.second = false →
                  o.secondChannel ≠ none → Does c s (joins (told (put y ⟨cur.recipient, true, 0⟩ .queued) .queued) m)) ∧
                (o.life ≠ some 0 → invalid = true ∨ (s.set.options.fallback ≤ cur.attempts + 1 ∧
                  (cur.second = true ∨ o.secondChannel = none)) →
                  (cur.recipient + 1 < o.recipients.length →
                    Does c s (joins (told (put y ⟨cur.recipient + 1, false, 0⟩ .queued) .queued) m)) ∧
                  (o.recipients.length ≤ cur.recipient + 1 →
                    (m.kind ≠ .absenceAlert → Does c s (ends y m fun e => { e with undelivered := up e.undelivered })) ∧
                    ∀ (p : Nat) (ss : Session), m.kind = .absenceAlert → o.subject = .pupil p ss →
                      Does c s (ends (((told y .undelivered).raise .alertUndelivered).callSlip p ss .undelivered) m
                        fun e => { e with undelivered := up e.undelivered })))) ∧
          (∀ k : Nat, outcome = 0 → m.cls = .notice → m.kind ≠ .absenceAlert → m.storage = .shared k → s.dueKeys = [] →
            s.recon.waits = [] →
            Does (.result tag outcome) s
              { clear with
                sched.out := left
                sched.noticeQ := s.sched.noticeQ.filter fun x => x != n
                pool.msgs := s.pool.msgs.filter fun x => x.number != n
                pool.freeDesc := s.pool.freeDesc + 1
                pool.freeSegs := s.pool.freeSegs + k
                gw.stats.delivered := min (g.delivered + 1) 4294967295
                gw.stats.notice.delivered := min (g.notice.delivered + 1) 4294967295 }) ∧
            (∀ (p : Nat) (ss : Session), outcome = 0 → m.kind = .absenceAlert → o.subject = .pupil p ss → o.detached = false →
              ∃ u : State, Does (.result tag outcome) s u ∧ (u.record p ss).alert = .sent ∧
                (u.record p ss).mark = (s.record p ss).mark ∧ u.sched.out = left) ∧
            (∀ k : Nat, outcome = 1 → o.life = some 0 → m.cls = .notice → m.kind ≠ .absenceAlert → m.storage = .shared k →
              s.dueKeys = [] → s.recon.waits = [] →
              Does (.result tag outcome) s
                { clear with
                  sched.out := left
                  sched.noticeQ := s.sched.noticeQ.filter fun x => x != n
                  pool.msgs := s.pool.msgs.filter fun x => x.number != n
                  pool.freeDesc := s.pool.freeDesc + 1
                  pool.freeSegs := s.pool.freeSegs + k
                  gw.stats.noAnswer := min (g.noAnswer + 1) 4294967295
                  gw.stats.notice.undelivered := min (g.notice.undelivered + 1) 4294967295
                  gw.stats.notice.expired := min (g.notice.expired + 1) 4294967295 }) ∧
            (∀ (p : Nat) (ss : Session) (c : Instr) (invalid : Bool) (y : State), fails c invalid y → m.kind = .absenceAlert →
              o.subject = .pupil p ss → o.detached = false → (s.record p ss).mark = .n → o.life ≠ some 0 →
              invalid = true ∨ (s.set.options.fallback ≤ cur.attempts + 1 ∧ (cur.second = true ∨ o.secondChannel = none)) →
              o.recipients.length ≤ cur.recipient + 1 →
              ∃ u : State, Does c s u ∧ (u.record p ss).alert = .undelivered ∧ u.sched.out = left ∧
                u.link.isSet .alertUndelivered = true ∧
                (s.dueKeys = [] → s.recon.waits = [] → u.slips = (s.callSlip p ss .undelivered).slips ∧
                  u.desk = (s.callSlip p ss .undelivered).desk)) ∧
            (∀ (p : Nat) (ss : Session) (c : Instr) (invalid : Bool) (y : State), fails c invalid y → m.kind = .absenceAlert →
              o.subject = .pupil p ss → o.detached = false → (s.record p ss).mark ≠ .n →
              ∃ u : State, Does c s u ∧ (u.record p ss).alert = .cancelled ∧ u.sched.out = left ∧
                (s.dueKeys = [] → s.recon.waits = [] → u.link = s.link)) ∧
            (∀ (p : Nat) (ss : Session) (c : Instr) (invalid : Bool) (y : State), fails c invalid y → m.kind = .absenceAlert →
              m.cls = .alert → o.subject = .pupil p ss → o.detached = true ∨ (s.record p ss).mark ≠ .n → s.dueKeys = [] →
              (∀ e ∈ s.recon.waits, e.kind = .arrivalCorrection ∧ e.subject = .pupil p ss) →
              (s.pool.msgs.map (·.number)).Nodup →
              let corrects := fun x : Message => x.kind = .arrivalCorrection ∧
                ∃ y : Outbound, x.body = .out y ∧ y.subject = .pupil p ss ∧ ∀ t l : Nat, y.state ≠ .sending t l
              ∃ u : State, Does c s u ∧ u.sched.out = left ∧ u.recon.waits = [] ∧
                u.recon.waitCnt.withdrawn = min (s.recon.waitCnt.withdrawn + s.recon.waits.length) 4294967295 ∧
                (∀ x : Message, x ∈ u.pool.msgs ↔ x ∈ s.pool.msgs ∧ x.number ≠ n ∧ ¬ corrects x) ∧
                u.gw.stats.alert.cancelled = min (g.alert.cancelled + 1) 4294967295 ∧ u.link = s.link ∧ u.slips = s.slips ∧
                (∀ (q : Nat) (st : Session), u.record q st =
                  if q = p ∧ st = ss ∧ o.detached = false then { s.record q st with alert := .cancelled }
                  else s.record q st)) ∧
            ∀ (p : Nat) (ss : Session), outcome = 0 → m.kind = .absenceAlert → m.cls = .alert → o.subject = .pupil p ss →
              o.detached = true → s.dueKeys = [] → s.recon.waits = [] →
              ∃ u : State, Does (.result tag 0) s u ∧ u.sched.out = left ∧ u.reg = s.reg ∧
                (∀ x : Message, x ∈ u.pool.msgs ↔ x ∈ s.pool.msgs ∧ x.number ≠ n) ∧
                u.gw.stats.alert.delivered = min (g.alert.delivered + 1) 4294967295) ∧
    (∀ (o : Outbound) (n : Nat), 1 ≤ n → o.cursor.attempts < n →
      let c := o.cursor
      let next : AfterFailure :=
        if c.recipient + 1 < o.recipients.length then .queue ⟨c.recipient + 1, false, 0⟩ else .undelivered
      (c.attempts + 1 < n → o.afterFailure n false = .retry { c with attempts := c.attempts + 1 }) ∧
        (c.attempts + 1 = n → c.second = false → o.secondChannel ≠ none →
          o.afterFailure n false = .queue ⟨c.recipient, true, 0⟩) ∧
        (c.attempts + 1 = n → c.second = true ∨ o.secondChannel = none → o.afterFailure n false = next) ∧
        o.afterFailure n true = next) ∧
    (∀ (s : State) (n : Nat), s.message n = none → Does (.retryDelay n) s s ∧ Does (.messageLifetime n) s s) ∧
    ∀ (s : State) (n : Nat) (m : Message) (o : Outbound), s.message n = some m → m.body = .out o →
      (∀ x ∈ s.pool.msgs, x.number = n → x = m) →
      let put := fun (x : Outbound) => s.pool.msgs.map fun y : Message => if y.number = n then { y with body := .out x } else y
      (∀ left : Nat, o.state = .waitRetry left →
        Does (.retryDelay n) s (joins { s with pool.msgs := put { o with state := .queued } } m)) ∧
        ((∀ left : Nat, o.state ≠ .waitRetry left) → Does (.retryDelay n) s s) ∧
        (o.life = none → Does (.messageLifetime n) s s) ∧
        (∀ life x left : Nat, o.life = some life → o.state = .sending x left →
          Does (.messageLifetime n) s { s with pool.msgs := put { o with life := some 0 } }) ∧
        (∀ life : Nat, o.life = some life → o.state = .queued ∨ (∃ left : Nat, o.state = .waitRetry left) →
          Does (.messageLifetime n) s (ends s m expires)) ∧
        ∀ life k : Nat, o.life = some life → o.state = .queued ∨ (∃ left : Nat, o.state = .waitRetry left) → m.cls = .notice →
          m.storage = .shared k → s.dueKeys = [] → s.recon.waits = [] →
          Does (.messageLifetime n) s
            { s with
              pool.msgs := s.pool.msgs.filter fun x => x.number != n
              pool.freeDesc := s.pool.freeDesc + 1
              pool.freeSegs := s.pool.freeSegs + k
              sched.noticeQ := s.sched.noticeQ.filter fun x => x != n
              gw.stats.notice.undelivered := min (s.gw.stats.notice.undelivered + 1) 4294967295
              gw.stats.notice.expired := min (s.gw.stats.notice.expired + 1) 4294967295 }

/-- R163, R142, R168: an INBOUND whose sender is not 1 to 15 digits, or whose text is longer than 160 or not printable, is a bad record.
Without room it is answered BUSY and counted, the reject counted and POOL_REJECT latched; with shared room, or a REPORT credit and the
lowest free reserve area, it is answered TAKEN and stored, unparsed in OPENING and otherwise parsed in the same event: a text of no known
form is kept for the office as UNMATCHED with INBOUND_WAITING latched.
R163: as the rebuild completes and the day becomes OPEN, the held reports are parsed in the order in which they took storage, by the
operation that parses a new one once stored, before a deferred close is performed.
R131: explaining a late record withdraws every LATE NOTICE entry that waits for its pupil and session, each counted.
R164, R165: the forms of a text, the year of a date, and the pupils that a sender's number and a code give. A text with neither keyword
has no reason (log 16, DEDUCED).
R166, R102, R126, R167, R130: a matched report of one or several pupils. While the day is OPEN, ABSENT for the day date makes R by PARENT
of every unlocked NONE, X or N record whose span has not ended, leaves every other mark and hands each unlocked P, L or U one to the
conflict list; LATE explains an unlocked late record, expects another unlocked one, its HELD or DUE alert becoming WITHHELD, and after the
day's end hands a conflict on. ABSENT for a date 1 to 21 days ahead goes to the advance list pupil by pupil, and FULL to the office; any
other ABSENT, and LATE in CLOSING or CLOSED, goes to the office and changes no record.
R168: a report with a reason, a LOCKED or a CONFLICT answer, or a part routed to the office is kept with those reasons and its pupils, and
another is not; with receipts enabled and room the sender is sent one.
No span is open on an ENDED track (log 26, DEDUCED), and an assembly under way at an INBOUND row is given up uncounted (log 20, DEDUCED). -/
def Obligations.InboundTexts : Prop :=
  (∀ (s : State) (p : Nat) (ss : Session) (ended : Bool),
    let r := s.record p ss
    let mine := fun e : WaitEntry => e.kind == .lateNotice && e.subject == .pupil p ss
    r.locked = false → r.mark = .l ∨ r.mark = .u →
      s.takeLateness p ss ended =
        ({ s.putRec p ss { r with explained := true } with
          recon.waits := s.recon.waits.filter fun e => !mine e
          recon.waitCnt.withdrawn := min (s.recon.waitCnt.withdrawn + (s.recon.waits.filter mine).length) 4294967295 },
          .explained)) ∧
  (∀ (s : State) (r : PageRead) (acc : Tab Tally) (q : Nat), s.store.op = .reading q → s.store.job = .rebuild [r] acc →
    s.store.waitingRead = none →
    let held := (s.pool.msgs.filter fun m => m.kind == .inbound).map (·.number)
    let opened : State := { s with
      store.job := .idle
      store.op := .idle
      reg.tallies := (s.store.readRecords r).foldl s.set.addRecord acc
      plan.dayState := .opened }.raise .dayReady
    let parsed := held.foldl State.parseReport opened
    (s.plan.deferredClose = false → Does .pageReadDone s parsed) ∧
      (s.plan.deferredClose = true → Does .pageReadDone s (State.performClose { parsed with plan.deferredClose := false }))) ∧
  (∀ (x : State) (n : Nat) (m : Message) (r : Report), x.message n = some m → m.body = .report r →
    (∀ y ∈ x.pool.msgs, y.number = n → y = m) →
    (∃ b : Bool, parseText x.clock.date m.text = .unmatched b) ∨
      (∃ (c : Option Nat) (b : Bool), x.set.reportPupils r.sender c = none ∧
        (parseText x.clock.date m.text = .lateness c b ∨ ∃ d : Date, parseText x.clock.date m.text = .absence c d b)) →
    let u := x.parseReport n
    u.sched.kept = x.sched.kept ++ [n] ∧ u.link.isSet .inboundWaiting = true ∧ u.reg = x.reg ∧
      ∃ k : KeepReasons, k.unmatched = true ∧ k.locked = false ∧ k.conflict = false ∧ k.office = false ∧
        u.pool.msgs = x.pool.msgs.map fun y =>
          if y.number = n then { m with kind := .unmatchedReport, body := .report { r with kept := some k, answers := [] } }
          else y) ∧
  (∀ (now : Date) (t w : Text) (l : List Text), tokens t = w :: l →
    let absent := w.map upper = wordAbsent
    let late := w.map upper = wordLate
    let code := fun c : Text => c ≠ [] ∧ c.all isDigit = true
    let fits := fun c : Text => c.length ≤ 4 ∧ 1 ≤ digitsValue c
    let refused := ∃ b : Bool, parseText now t = .unmatched b
    let more := fun r : List Text => !r.isEmpty
    (¬ absent → ¬ late → parseText now t = .unmatched false) ∧
      (absent → l = [] → parseText now t = .absence none now false) ∧
      (∀ (c : Text) (r : List Text), absent → l = c :: r → ¬ code c → dayMonth c = none →
        parseText now t = .absence none now true) ∧
      (∀ (c : Text) (r : List Text), absent ∨ late → l = c :: r → code c → ¬ fits c → refused) ∧
      (∀ (c : Text) (r : List Text), absent → l = c :: r → code c → fits c → (∀ x : Text, r.head? = some x → dayMonth x = none) →
        parseText now t = .absence (some (digitsValue c)) now (more r)) ∧
      (∀ (c x : Text) (r : List Text) (a b : Nat), absent → l = c :: x :: r → code c → fits c → dayMonth x = some (a, b) →
        (reportDate now a b = none → refused) ∧
          ∀ d : Date, reportDate now a b = some d → parseText now t = .absence (some (digitsValue c)) d (more r)) ∧
      (∀ (x : Text) (r : List Text) (a b : Nat), absent → l = x :: r → dayMonth x = some (a, b) →
        (reportDate now a b = none → refused) ∧
          ∀ d : Date, reportDate now a b = some d → parseText now t = .absence none d (more r)) ∧
      (late → l = [] → parseText now t = .lateness none false) ∧
      (∀ (c : Text) (r : List Text), late → l = c :: r → ¬ code c → parseText now t = .lateness none true) ∧
      ∀ (c : Text) (r : List Text), late → l = c :: r → code c → fits c →
        parseText now t = .lateness (some (digitsValue c)) (more r)) ∧
  (∀ (now : Date) (a b : Nat),
    let d : Date := ⟨a, b, now.year⟩
    let e : Date := ⟨a, b, now.year + 1⟩
    let nextYear := d.number < now.number ∧ e.valid = true ∧ now.number < e.number ∧ e.number ≤ now.number + 21
    (d.valid = false → reportDate now a b = none) ∧ (d.valid = true → nextYear → reportDate now a b = some e) ∧
      (d.valid = true → ¬ nextYear → reportDate now a b = some d)) ∧
  (∀ (x : Settings) (sender : Text),
    let l := x.senderList sender
    (l = [] → ∀ c : Option Nat, x.reportPupils sender c = none) ∧ (l ≠ [] → x.reportPupils sender none = some l) ∧
      ∀ c : Nat, l ≠ [] →
        (∀ p : Nat, x.shortLookup c = some p → p ∈ l → x.reportPupils sender (some c) = some [p]) ∧
          ((∀ p : Nat, x.shortLookup c = some p → p ∉ l) → x.reportPupils sender (some c) = none)) ∧
  ∀ (s : State) (sender text : Text),
    let clear : State := { s with gw.asm := none, gw.gap := 0 }
    let digits := 1 ≤ sender.length ∧ sender.length ≤ 15 ∧ ∀ c ∈ sender, 0x30 ≤ c.toNat ∧ c.toNat ≤ 0x39
    let good := digits ∧ text.length ≤ 160 ∧ ∀ c ∈ text, 0x20 ≤ c.toNat ∧ c.toNat ≤ 0x7E
    let k := segmentsFor text.length
    let answer := fun r : GwRecord => match s.gw.sending with
      | none => (some r, s.gw.outQ)
      | some x => (some x, s.gw.outQ ++ [r])
    let shared := 1 ≤ s.pool.freeDesc ∧ k ≤ s.pool.freeSegs
    let free := fun a : Nat => a < 16 ∧ ∀ m ∈ s.pool.msgs, m.storage ≠ .reserve a
    (¬ good → Does (.inbound sender text) s
        { clear with gw.stats.badRecords := min (s.gw.stats.badRecords + 1) 4294967295 }) ∧
      (good → ¬ shared → s.pool.credits.report = 0 →
        Does (.inbound sender text) s
          ({ clear with
            pool.stats.rejects.report := min (s.pool.stats.rejects.report + 1) 4294967295
            gw.sending := (answer .busy).1
            gw.outQ := (answer .busy).2
            gw.stats.inboundBusy := min (s.gw.stats.inboundBusy + 1) 4294967295 }.raise .poolReject)) ∧
      (good → 1 ≤ s.pool.freeDesc → k ≤ s.pool.freeSegs →
        ∃ u : State, Does (.inbound sender text) s u ∧ u.gw.sending = (answer .taken).1 ∧ u.gw.outQ = (answer .taken).2 ∧
          u.gw.stats.inboundTaken = min (s.gw.stats.inboundTaken + 1) 4294967295 ∧
          let msg := fun (kind : MsgKind) (kept : Option KeepReasons) =>
            (⟨s.pool.nextNum, .report, kind, .shared k, ⟨s.clock.date, s.clock.secs⟩, text, .report ⟨sender, kept, []⟩⟩ : Message)
          (s.plan.dayState = .opening → u.pool.msgs = s.pool.msgs ++ [msg .inbound none] ∧ u.reg = s.reg) ∧
          (s.plan.dayState ≠ .opening →
            (∃ x : Bool, parseText s.clock.date text = .unmatched x) ∨
              (∃ (c : Option Nat) (x : Bool), s.set.reportPupils sender c = none ∧
                (parseText s.clock.date text = .lateness c x ∨ ∃ d : Date, parseText s.clock.date text = .absence c d x)) →
            (∀ m ∈ s.pool.msgs, m.number ≠ s.pool.nextNum) →
            u.sched.kept = s.sched.kept ++ [s.pool.nextNum] ∧ u.link.isSet .inboundWaiting = true ∧ u.reg = s.reg ∧
              ∃ r : KeepReasons, r.unmatched = true ∧ u.pool.msgs = s.pool.msgs ++ [msg .unmatchedReport (some r)])) ∧
      (∀ a : Nat, good → ¬ shared → 1 ≤ s.pool.credits.report → free a → (∀ b : Nat, b < a → ¬ free b) →
        s.plan.dayState = .opening →
        ∃ next : Nat, Does (.inbound sender text) s
          ({ clear with
            pool.credits.report := s.pool.credits.report - 1
            pool.stats.reserveUses.report := min (s.pool.stats.reserveUses.report + 1) 4294967295
            pool.msgs := s.pool.msgs ++ [(⟨s.pool.nextNum, .report, .inbound, .reserve a, ⟨s.clock.date, s.clock.secs⟩, text,
              .report ⟨sender, none, []⟩⟩ : Message)]
            pool.nextNum := next
            gw.sending := (answer .taken).1
            gw.outQ := (answer .taken).2
            gw.stats.inboundTaken := min (s.gw.stats.inboundTaken + 1) 4294967295 }.raise .poolReserve)) ∧
      (good → shared → s.plan.dayState ≠ .opening →
        ∃ next : Nat, Does (.inbound sender text) s
          (State.parseReport { clear with
            pool.freeDesc := s.pool.freeDesc - 1
            pool.freeSegs := s.pool.freeSegs - k
            pool.stats.acquired := min (s.pool.stats.acquired + k) 4294967295
            pool.stats.peak := max s.pool.stats.peak (96 - (s.pool.freeSegs - k))
            pool.msgs := s.pool.msgs ++ [(⟨s.pool.nextNum, .report, .inbound, .shared k, ⟨s.clock.date, s.clock.secs⟩, text,
              .report ⟨sender, none, []⟩⟩ : Message)]
            pool.nextNum := next
            gw.sending := (answer .taken).1
            gw.outQ := (answer .taken).2
            gw.stats.inboundTaken := min (s.gw.stats.inboundTaken + 1) 4294967295 } s.pool.nextNum)) ∧
      (good → shared ∨ (1 ≤ s.pool.credits.report ∧ ∃ a : Nat, free a) → s.plan.dayState ≠ .opening →
        Tab.wf clearedAt s.reg.recs = true → s.poolBalances →
        ∀ (ps : List Nat) (code : Option Nat) (reason : Bool), s.set.reportPupils sender code = some ps → ps.Nodup →
          let n := s.pool.nextNum
          let parsed := parseText s.clock.date text
          let track := fun p : Nat => s.track (s.trackOf p)
          let opens := fun (p : Nat) (ss : Session) =>
            ∃ pl : PlanIF, (track p).plan = some pl ∧ (track p).state ≠ .ended ∧
              let dayEnd := dayEndOf pl (track p).delay
              match ss with
              | .am =>
                let amEnd := match sessionPoint pl (track p).delay .pm with
                  | some m => m
                  | none => dayEnd
                s.clock.secs < amEnd * 60
              | .pm => hasPm pl = true ∧ s.clock.secs < dayEnd * 60
          let isLate := fun r : Rec => r.mark = .l ∨ r.mark = .u
          let isKept := fun (u : State) (kind : MsgKind) (locked clash office : Prop) =>
            u.sched.kept = s.sched.kept ++ [n] ∧ u.link.isSet .inboundWaiting = true ∧
              ∃ (m : Message) (y : KeepReasons) (a : List (Nat × List Answer)), m ∈ u.pool.msgs ∧ m.number = n ∧ m.kind = kind ∧
                m.text = text ∧ m.body = .report ⟨sender, some y, a⟩ ∧ a.map (·.1) = ps ∧ y.reason = reason ∧
                y.unmatched = false ∧ (y.locked = true ↔ locked) ∧ (y.conflict = true ↔ clash) ∧ (y.office = true ↔ office)
          let settles := fun (u : State) (kind : MsgKind) (locked clash office : Prop) =>
            (reason = true ∨ locked ∨ clash ∨ office → isKept u kind locked clash office) ∧
              (¬ (reason = true ∨ locked ∨ clash ∨ office) → u.sched.kept = s.sched.kept)
          let receipt := fun u : State => s.dueKeys = [] → s.recon.waits = [] →
            (∀ m ∈ s.pool.msgs, m.kind = .absenceAlert → m.cls = .alert) →
            (s.set.options.receipts = false → u.sched.receiptQ = s.sched.receiptQ) ∧
              (s.set.options.receipts = true → reason = true → 2 ≤ s.pool.freeDesc → k + 6 ≤ s.pool.freeSegs →
                ∃ (m : Message) (o : Outbound), m ∈ u.pool.msgs ∧ m.kind = .reportReceipt ∧ m.cls = .receipt ∧
                  m.body = .out o ∧ o.subject = .sender sender n ∧ u.sched.receiptQ = s.sched.receiptQ ++ [m.number])
          let conflicts := fun (u : State) (kind : ConflictKind) (order : List (Nat × Session)) (clash : Nat → Session → Prop) =>
            ∀ l : List (Nat × Session), l.Sublist order → (∀ x : Nat × Session, x ∈ l ↔ x ∈ order ∧ clash x.1 x.2) →
              u.recon.conflicts =
                (l.foldl (fun t x => t.handConflict x.1 x.2 kind (s.record x.1 x.2).mark) s).recon.conflicts
          let both := ps.flatMap fun p => [(p, Session.am), (p, Session.pm)]
          let today := fun d : Date => s.plan.dayState = .opened ∧ s.plan.dayDate = some d
          let soon := fun d : Date => s.clock.date.number < d.number ∧ d.number ≤ s.clock.date.number + 21
          (∀ d : Date, parsed = .absence code d reason → today d →
            let clashes := fun (p : Nat) (ss : Session) => opens p ss ∧ (s.record p ss).locked = false ∧
              ((s.record p ss).mark = .p ∨ isLate (s.record p ss))
            let locked := ∃ p ∈ ps, ∃ ss : Session, opens p ss ∧ (s.record p ss).locked = true
            let clash := ∃ p ∈ ps, ∃ ss : Session, clashes p ss
            let office := ∃ p ∈ ps, ∀ ss : Session, ¬ opens p ss
            ∃ u : State, Does (.inbound sender text) s u ∧ receipt u ∧
              (∀ p ∈ ps, ∀ ss : Session,
                let r := s.record p ss
                let v := u.record p ss
                let takes := opens p ss ∧ r.locked = false ∧ (r.mark = .nothing ∨ r.mark = .x ∨ r.mark = .n)
                (takes → v.mark = .r ∧ v.minutes = 0 ∧ v.source = some .parent) ∧
                  (¬ takes → v.mark = r.mark ∧ v.minutes = r.minutes ∧ v.source = r.source)) ∧
              (∀ (q : Nat) (ss : Session), q ∉ ps → (u.record q ss).mark = (s.record q ss).mark) ∧
              conflicts u .reportWhilePresent both clashes ∧ settles u .absenceReport locked clash office) ∧
          (∀ d : Date, parsed = .absence code d reason → ¬ today d → soon d →
            let report := if reason then some n else none
            let upTo := fun i : Nat => (ps.take i).foldl (fun (t : State) p => (t.takeAdvance p d .both report).1) s
            let office := ∃ i p : Nat, ps[i]? = some p ∧ ((upTo i).takeAdvance p d .both report).2 ≠ .taken
            ∃ u : State, Does (.inbound sender text) s u ∧ receipt u ∧
              u.recon.advance = (upTo ps.length).recon.advance ∧ u.recon.advCnt = (upTo ps.length).recon.advCnt ∧
              (∀ p : Nat, ps = [p] → (∀ a ∈ s.recon.advance, ¬ (a.date = d ∧ a.pupil = p)) → s.recon.advance.length < 128 →
                ∀ a : Advance, a ∈ u.recon.advance ↔ a ∈ s.recon.advance ∨ a = ⟨d, p, .both, report⟩) ∧
              (∀ (q : Nat) (ss : Session), (u.record q ss).mark = (s.record q ss).mark) ∧
              settles u .absenceReport False False office) ∧
          (∀ d : Date, parsed = .absence code d reason → ¬ today d → ¬ soon d →
            ∃ u : State, Does (.inbound sender text) s u ∧ receipt u ∧ u.reg = s.reg ∧
              u.recon.advance = s.recon.advance ∧ u.recon.conflicts = s.recon.conflicts ∧
              isKept u .absenceReport False False True) ∧
          (parsed = .lateness code reason → s.plan.dayState ≠ .opened →
            ∃ u : State, Does (.inbound sender text) s u ∧ receipt u ∧ u.reg = s.reg ∧
              u.recon.advance = s.recon.advance ∧ u.recon.conflicts = s.recon.conflicts ∧
              isKept u .latenessReport False False True) ∧
          (parsed = .lateness code reason → s.plan.dayState = .opened →
            let targets := fun (p : Nat) (ss : Session) => ∃ pl : PlanIF, (track p).plan = some pl ∧
              ss = if (track p).state = .ended then (if hasPm pl then .pm else .am)
                else match sessionPoint pl (track p).delay .pm with
                  | some m => if m * 60 ≤ s.clock.secs then .pm else .am
                  | none => .am
            let clashes := fun (p : Nat) (ss : Session) => targets p ss ∧ (s.record p ss).locked = false ∧
              ¬ isLate (s.record p ss) ∧ (track p).state = .ended
            let locked := ∃ p ∈ ps, ∃ ss : Session, targets p ss ∧ (s.record p ss).locked = true
            let clash := ∃ p ∈ ps, ∃ ss : Session, clashes p ss
            let office := ∃ p ∈ ps, (track p).plan = none
            ∃ u : State, Does (.inbound sender text) s u ∧ receipt u ∧
              (∀ (q : Nat) (st : Session), (u.record q st).mark = (s.record q st).mark ∧
                (u.record q st).minutes = (s.record q st).minutes) ∧
              (∀ p ∈ ps, ∀ ss : Session, targets p ss →
                let r := s.record p ss
                let v := u.record p ss
                (r.locked = true → v.expected = r.expected ∧ v.explained = r.explained) ∧
                  (r.locked = false → isLate r → v.expected = r.expected ∧ v.explained = true) ∧
                  (r.locked = false → ¬ isLate r → (track p).state ≠ .ended → v.expected = true ∧ v.explained = r.explained ∧
                    (r.alert = .held ∨ r.alert = .due → v.alert = .withheld ∧ v.due = none)) ∧
                  (clashes p ss → v.expected = r.expected ∧ v.explained = r.explained ∧
                    (ps = [p] → s.recon.conflicts.length < 32 → (∀ c ∈ s.recon.conflicts, ¬ (c.pupil = p ∧ c.session = ss)) →
                      u.recon.conflicts =
                          s.recon.conflicts ++ [⟨s.recon.nextId, p, ss, .lateReportNoArrival, s.clock.secs, r.mark⟩] ∧
                        v.conflict = some s.recon.nextId))) ∧
              conflicts u .lateReportNoArrival both clashes ∧ settles u .latenessReport locked clash office))

/-! ## The day's close and the store (10) -/

/-- R174, R175, R176, R125: DAY CLOSE with a flag neither set nor clear is BAD_ARG, in another day state than OPEN STATE, during a settings save
BUSY, and without force while a track runs STATE. Otherwise it is ACCEPTED with the commit number and the in-use pupils: the day is CLOSING,
every track ENDED with its plan kept, no session BEFORE or OPEN, no record's alert HELD, WITHHELD or DUE, every alert in SENDING detached, the
conflict list empty and its count handed on, and the commit runs, or waits for the READ under way.
R175, R112: an OPEN session closes as at a close time: the unlocked NONE and X records of a SUBMITTED group become N by CLOSE, a group without
members EMPTY, an AWAITED one MISSING with REGISTER_MISSING latched; a BEFORE session changes no record and an AWAITED group becomes NOT_HELD.
R176: an alert HELD, WITHHELD or DUE, one that the close starts among them, becomes CANCELLED; an alert message that waits is withdrawn, its
record CANCELLED; one in SENDING stays, detached; other messages stay. With no alert message in the pool, and none of the wait list's entries
an ABSENCE ALERT, as every step keeps it (R132), an alert SENT or UNDELIVERED is left as it is.
R182, R183: with every slot filled the entry of the lowest commit number gives up its slot, whose directory page is written first; otherwise
the open entry takes the lowest empty slot, the next commit number and the page after the newest entry's span. That the next commit number
stays at 4,294,967,295 is the model's choice (log 29, DESIGN CHOICE). -/
def Obligations.DayCloseIsTaken : Prop :=
  ∀ (s : State) (tag force : Nat), s.ready →
    let c : Instr := .dayClose tag force
    let saving := ∃ (ph : SavePhase) (n : Nat), s.store.job = .save ph n
    let runs := ∃ i : Fin 4, (s.plan.tracks.get i).state ≠ .ended
    (2 ≤ force → Refuses c s 0x12 tag .badArg) ∧
      (force ≤ 1 → s.plan.dayState ≠ .opened → Refuses c s 0x12 tag .state) ∧
      (force ≤ 1 → s.plan.dayState = .opened → saving → Refuses c s 0x12 tag .busy) ∧
      (force = 0 → s.plan.dayState = .opened → ¬ saving → runs → Refuses c s 0x12 tag .state) ∧
      (force ≤ 1 → s.plan.dayState = .opened → ¬ saving → force = 1 ∨ ¬ runs →
        ∃ u : State, Answers c s 0x12 tag (fun _ => u) .accepted (b4 s.store.nextCommit ++ b2 s.inUsePupils.length) ∧
          u = (s.inHand 0x12 tag).performClose ∧ u.plan.dayState = .closing ∧ u.plan.dayDate = s.plan.dayDate ∧
          (∀ i : Fin 4, u.plan.tracks.get i = { s.plan.tracks.get i with state := .ended }) ∧
          (∀ (i : Fin 4) (ss : Session), u.session i ss = none ∨ u.session i ss = some .closed) ∧
          (∀ (p : Nat) (ss : Session),
            (u.record p ss).alert ≠ .held ∧ (u.record p ss).alert ≠ .withheld ∧ (u.record p ss).alert ≠ .due) ∧
          (∀ (m : Message) (o : Outbound), m ∈ u.pool.msgs → m.kind = .absenceAlert → m.body = .out o → o.detached = true) ∧
          u.recon.conflicts = [] ∧ u.store.unresolved = s.recon.conflicts.length ∧ u.clock = s.clock ∧ u.set = s.set ∧
          (∀ z : Fin 4, ∀ e ∈ (u.bells.get z).list, e.outcome ≠ .pending) ∧
          (Tab.wf factoryPupil s.set.pupils = true → Tab.wf clearedAt s.reg.recs = true →
            let at_ := fun (p : Nat) (ss : Session) => s.session (s.trackOf p) ss
            let marked := fun (p : Nat) (ss : Session) => (s.pupil p).inUse = true ∧ (s.pupil p).group < 120 ∧
              at_ p ss = some .opened ∧ s.groupStatus (s.pupil p).group ss = .submitted ∧ (s.record p ss).locked = false ∧
              ((s.record p ss).mark = .nothing ∨ (s.record p ss).mark = .x)
            let later := s.clock.secs < min (s.clock.secs + s.set.options.alertDelay * 60) 86399
            (∀ (g : Nat) (ss : Session), g < 120 →
              let x := s.session (s.group g).track ss
              let was := s.groupStatus g ss
              (x = some .before → u.groupStatus g ss = if was = .awaited then .notHeld else was) ∧
                (x = some .opened → s.members g = [] → u.groupStatus g ss = .empty) ∧
                (x = some .opened → s.members g ≠ [] → was = .awaited →
                  u.groupStatus g ss = .missing ∧ u.link.isSet .registerMissing = true) ∧
                (x = some .opened → s.members g ≠ [] → was ≠ .awaited → u.groupStatus g ss = was) ∧
                (x = some .closed ∨ x = none → u.groupStatus g ss = was)) ∧
              (∀ (p : Nat) (ss : Session),
                let r := s.record p ss
                let v := u.record p ss
                (marked p ss → v.mark = .n ∧ v.minutes = 0 ∧ v.source = some .close ∧ v.locked = false) ∧
                  (¬ marked p ss → v.mark = r.mark ∧ v.minutes = r.minutes ∧ v.source = r.source) ∧
                  (marked p ss → later → r.alert = .noAlert ∨ r.alert = .cancelled → v.alert = .cancelled ∧ v.due = none) ∧
                  (r.alert = .held ∨ r.alert = .withheld ∨ (r.alert = .due ∧ later) → v.alert = .cancelled ∧ v.due = none) ∧
                  (r.alert = .sent ∨ r.alert = .undelivered → (∀ m ∈ s.pool.msgs, m.kind ≠ .absenceAlert) → s.waitsHold →
                    v.alert = r.alert)) ∧
              (s.poolBalances → s.waitsHold →
                (∀ (m : Message) (o : Outbound), m ∈ s.pool.msgs → m.body = .out o →
                  (m.kind = .absenceAlert → (∃ t left : Nat, o.state = .sending t left) →
                    { m with body := .out { o with detached := true } } ∈ u.pool.msgs) ∧
                  (m.kind ≠ .absenceAlert → m ∈ u.pool.msgs) ∧
                  ∀ (p : Nat) (ss : Session), m.kind = .absenceAlert → o.subject = .pupil p ss → o.detached = false →
                    (∀ t left : Nat, o.state ≠ .sending t left) → (u.record p ss).alert = .cancelled) ∧
                ∀ (m : Message) (o : Outbound), m ∈ u.pool.msgs → m.kind = .absenceAlert → m.body = .out o →
                  ∃ t left : Nat, o.state = .sending t left)) ∧
          (let x : Store := { s.store with unresolved := s.recon.conflicts.length }
            let page := s.store.nextPage
            ((∀ e : DayEntry, some e ∉ s.store.dir) → page = 0) ∧
              (∀ e : DayEntry, some e ∈ s.store.dir → (∀ f : DayEntry, some f ∈ s.store.dir → f = e ∨ f.commit < e.commit) →
                page = (e.first + e.pages) % 1280) ∧
              ((∃ (r : ReadReq) (l : List DayRecord), s.store.job = .read r l) →
                u.store = { x with pendingJob := some .commit }) ∧
              ((∀ (r : ReadReq) (l : List DayRecord), s.store.job ≠ .read r l) →
                (∀ (k : Nat) (e : DayEntry), none ∉ s.store.dir → s.store.dir[k]? = some (some e) →
                  (∀ (j : Nat) (f : DayEntry), j ≠ k → s.store.dir[j]? = some (some f) → e.commit < f.commit) →
                  u.store = { x with
                    dir := s.store.dir.set k none
                    job := .commit ⟨k, .dropOldest⟩
                    op := .erasing (256 + k / 8)
                    retried := false }) ∧
                ∀ j : Nat, s.store.dir[j]? = some none → (∀ i : Nat, i < j → s.store.dir[i]? ≠ some none) →
                  u.store = { x with
                    dir := s.store.dir.set j (some ⟨s.store.nextCommit, s.plan.dayDate.getD ⟨1, 1, 2000⟩, page, 0, 0,
                      s.recon.conflicts.length, false⟩)
                    nextCommit := min (s.store.nextCommit + 1) 4294967295
                    spanned := 0
                    done := 0
                    recBuf := []
                    job := .commit ⟨j, .openEntry⟩
                    op := .erasing (256 + j / 8)
                    retried := false })))

/-- R191, R180: ARCHIVE READ of an impossible date, an index above 2400 or past the entry's records, or a count outside 1 to 8 is BAD_ARG, of a date
no entry holds NOT_FOUND, and under a commit or a save BUSY. That it is BUSY under a READ too, which R180's table marks as a case that cannot
arise, is the model's choice (log 44, DESIGN CHOICE). With no job a read of records starts with its first page, its request in hand without a
reply, and one of no records is answered at once; under a rebuild it waits in hand. Record i of an entry stands at place i mod 64 of good page
i div 64 of its span, in ring order with the bad pages passed over, and the read takes the records from the index on, as many as asked or as
the entry has left. -/
def Obligations.ArchiveReadIsServed : Prop :=
  ∀ (s : State) (tag index count : Nat) (rd : RawDate), s.ready →
    let c : Instr := .archiveRead tag rd index count
    let d : Date := ⟨rd.day, rd.month, rd.year + 2000⟩
    let argsOk := rd.year ≤ 99 ∧ d.valid = true ∧ index ≤ 2400 ∧ 1 ≤ count ∧ count ≤ 8
    (¬ argsOk → Refuses c s 0x41 tag .badArg) ∧
      (argsOk → (∀ e : DayEntry, some e ∈ s.store.dir → e.date ≠ d) → Refuses c s 0x41 tag .notFound) ∧
      ∀ e : DayEntry, argsOk → some e ∈ s.store.dir → e.date = d →
        (∀ f : DayEntry, some f ∈ s.store.dir → f.date = d → f = e ∨ f.commit < e.commit) →
        let r := s.store.readFor tag e index count
        let waiting := s.inHand 0x41 tag
        let good := ((List.range e.pages).map fun k => (e.first + k) % 1280).filter fun q => decide (q ∉ s.store.bad)
        (index ≤ e.records → e.records ≤ 64 * good.length →
          r.tag = tag ∧ r.entry = e ∧ r.index = index ∧
            (r.pages.flatMap fun p => (List.range p.count).map fun j => (p.page, p.from_ + j)) =
              (List.range (min count (e.records - index))).map fun j =>
                (260 + good.getD ((index + j) / 64) 0, (index + j) % 64)) ∧
        (e.records < index → Refuses c s 0x41 tag .badArg) ∧
          (index ≤ e.records →
            (∀ p : PageRead, s.store.job = .idle → r.pages.head? = some p →
              Does c s { waiting with store.job := .read r [], store.op := .reading p.page }) ∧
            (s.store.job = .idle → r.pages = [] →
              Answers c s 0x41 tag id .ok (bFlag (!e.complete) ++ b2 e.records ++ b1 0 ++ b2 index)) ∧
            (∀ (l : List PageRead) (acc : Tab Tally), s.store.job = .rebuild l acc →
              Does c s { waiting with store.waitingRead := some r }) ∧
            ((∃ x : Commit, s.store.job = .commit x) ∨ (∃ (ph : SavePhase) (n : Nat), s.store.job = .save ph n) ∨
              (∃ (q : ReadReq) (l : List DayRecord), s.store.job = .read q l) → Refuses c s 0x41 tag .busy))

/-- R178, R187, R188, R206: SETTINGS SAVE with no job is ACCEPTED and starts by erasing store page 255; with a job it is BUSY. An erase
leaves every byte of its page FFh and a program the buffer's bytes with FFh after them, and neither touches another byte. A first failed
blank check erases again, a first failed verify programs again. The blank check page leads to data page 0, each verified data page to the
next and page 254 to the check page, which takes the count 255 and the check word of the contents (R205); verified, it ends the
save DONE with SAVE_DONE, and a second failure of any page FAILED; the final verified write of a commit latches ARCHIVE_DONE and makes the
day CLOSED.
R191, R180: a page of an ARCHIVE READ that is not its last adds its records and the next is read; the last gives the reply and ends the
job, and a commit or a rebuild that waited for it starts in the same event.
R182, R183, R184, R185, R186: with the oldest entry dropped the open entry is made in the lowest empty slot; each
verified page leads on round the ring, dropping an entry whose span is reached, passing over a bad page, writing the next 64 records of
the day set, and at the end the open entry, COMPLETE. An archive page that fails twice is made bad, or with 64 bad pages ends the commit
PARTIAL; a directory page that fails twice ends it with ARCHIVE_FAIL latched (what the entry then holds: log 36, DESIGN CHOICE).
R24: a close deferred by a rebuild or a save is performed in the event in which that ends.
R118, R189: a page of the rebuild adds its records; with the last one the tallies are taken, the day is OPEN, DAY_READY is latched, an ARCHIVE
READ that waited starts, or is answered where it has no page to read, and the held reports are parsed (R163); a deferred close comes last.
What a page holds after a failed check is free (log 2, DESIGN CHOICE). The write buffer is held in two fields (log 19, DEDUCED), and a
next commit number of 4,294,967,295 stays there (log 29, DESIGN CHOICE). -/
def Obligations.StorePageOperations : Prop :=
  let fails := fun (s : State) (c : Instr) (p : Nat) =>
    (c = .pageVerifyDone false ∧ s.store.op = .verifying p) ∨ (c = .blankCheckDone false ∧ s.store.op = .blankCheck p);
  let saved := fun (s : State) (ok : Bool) (spoiled : List Nat) => State.raise
    { s with
      store.job := .idle
      store.op := .idle
      store.retried := false
      store.pageBuf := []
      store.spoiled := spoiled
      store.lastSave := some ok } .saveDone;
  let saveDone := fun s : State => saved s true (s.store.spoiled.filter fun q => q != 255);
  let saveFailed := fun (s : State) (p : Nat) =>
    let known := (s.tearPage p).store.spoiled
    saved (s.tearPage p) false (if 255 ∈ known then known else 255 :: known);
  (∀ (s : State) (tag : Nat), s.ready →
      (s.store.job = .idle →
        Answers (.settingsSave tag) s 0x0B tag
          (fun x => { x with store.job := .save .clearCheck 0, store.op := .erasing 255, store.retried := false })
          .accepted []) ∧
        (s.store.job ≠ .idle → Refuses (.settingsSave tag) s 0x0B tag .busy)) ∧
    (∀ (s : State) (p : Nat), s.store.op = .erasing p →
      ∃ mem : List (Nat × Byte),
        Does .pageEraseDone s { s with
          store.mem := mem
          store.spoiled := s.store.spoiled.filter fun q => q != p
          store.op := .blankCheck p } ∧
        ∀ a : Nat, (p * 1024 ≤ a ∧ a < (p + 1) * 1024 → Memory.read mem a = 0xFF#8) ∧
          (a < p * 1024 ∨ (p + 1) * 1024 ≤ a → Memory.read mem a = Memory.read s.store.mem a)) ∧
    (∀ (s : State) (p : Nat), s.store.op = .programming p →
      let buf := if 260 ≤ p then s.store.recBuf.flatten else s.store.pageBuf
      ∃ mem : List (Nat × Byte),
        Does .pageProgramDone s { s with
          store.mem := mem
          store.spoiled := s.store.spoiled.filter fun q => q != p
          store.op := .verifying p } ∧
        ∀ a : Nat, (∀ i : Nat, i < 1024 → a = p * 1024 + i → Memory.read mem a = buf.getD i 0xFF#8) ∧
          (a < p * 1024 ∨ (p + 1) * 1024 ≤ a → Memory.read mem a = Memory.read s.store.mem a)) ∧
    (∀ (s : State) (p : Nat),
      let t := s.tearPage p
      t = { s with store.mem := t.store.mem, store.spoiled := s.store.spoiled.filter fun q => q != p, free := s.free + 1024 } ∧
        (∀ i : Nat, i < 1024 → Memory.read t.store.mem (p * 1024 + i) = Config.freeByte (s.free + i)) ∧
        ∀ a : Nat, a < p * 1024 ∨ (p + 1) * 1024 ≤ a → Memory.read t.store.mem a = Memory.read s.store.mem a) ∧
    (∀ (s : State) (k : Nat) (e : DayEntry), s.store.dir[k]? = some (some e) →
      let p := (e.first + s.store.spanned) % 1280
      let reaches := fun (q j : Nat) (f : DayEntry) => j ≠ k ∧ s.store.dir[j]? = some (some f) ∧ (q + 1280 - f.first) % 1280 < f.pages
      let write := fun (x : Store) (ph : CommitPhase) (page : Nat) =>
        { s with store := { x with job := .commit ⟨k, ph⟩, op := .erasing page, retried := false } }
      let fresh := ((s.inUsePupils.drop s.store.done).take 64).map s.dayRecord
      (s.inUsePupils.length ≤ s.store.done →
        s.commitOn k = write { s.store with
          dir := s.store.dir.set k (some { e with pages := s.store.spanned, records := s.store.done, complete := true }) }
          (.final .complete) (256 + k / 8)) ∧
        (∀ (j : Nat) (f : DayEntry), s.store.done < s.inUsePupils.length → reaches p j f →
          (∀ (i : Nat) (g : DayEntry), reaches p i g → i = j) →
          s.commitOn k = write { s.store with dir := s.store.dir.set j none } (.dropReached p) (256 + j / 8)) ∧
        (s.store.done < s.inUsePupils.length → (∀ (i : Nat) (g : DayEntry), ¬ reaches p i g) → p ∉ s.store.bad →
          s.store.recBuf = [] → s.commitOn k = write { s.store with recBuf := fresh } (.page p) (260 + p)) ∧
        (let q := (p + 1) % 1280;
          s.store.done < s.inUsePupils.length → (∀ (i : Nat) (g : DayEntry), ¬ reaches p i g ∧ ¬ reaches q i g) →
            p ∈ s.store.bad → q ∉ s.store.bad → s.store.recBuf ≠ [] →
            s.commitOn k = write { s.store with spanned := s.store.spanned + 1 } (.page q) (260 + q))) ∧
    (∀ (q : Nat) (l : List Nat), l.Pairwise (fun a b => a < b) → q ∉ l →
      (insertBad q l).Pairwise (fun a b => a < b) ∧ ∀ a : Nat, a ∈ insertBad q l ↔ a = q ∨ a ∈ l) ∧
    (∀ (x : Settings) (acc : Tab Tally) (l : DayRecord) (p : Nat), Tab.wf zeroTally acc = true →
      x.shortLookup (numAt l 0 2) = some p →
      let t := Tab.get zeroTally acc p
      let counts := fun m : Nat => m = 2 ∨ m = 3
      let v := Tab.get zeroTally (x.addRecord acc l) p
      (v.notified = true ↔ t.notified = true ∨ byteAt l 6 / 16 % 2 = 1) ∧
        (∀ q : Nat, q ≠ p → Tab.get zeroTally (x.addRecord acc l) q = Tab.get zeroTally acc q) ∧
        (¬ counts (byteAt l 2) → ¬ counts (byteAt l 4) → v.count = t.count ∧ v.minutes = t.minutes) ∧
        (counts (byteAt l 2) → ¬ counts (byteAt l 4) →
          v.count = min (t.count + 1) 15 ∧ v.minutes = min (t.minutes + byteAt l 3) 4095) ∧
        (¬ counts (byteAt l 2) → counts (byteAt l 4) →
          v.count = min (t.count + 1) 15 ∧ v.minutes = min (t.minutes + byteAt l 5) 4095) ∧
        (counts (byteAt l 2) → counts (byteAt l 4) →
          v.count = min (t.count + 2) 15 ∧ v.minutes = min (t.minutes + byteAt l 3 + byteAt l 5) 4095)) ∧
    (∀ (x : Settings) (acc : Tab Tally) (l : DayRecord), x.shortLookup (numAt l 0 2) = none →
      x.addRecord acc l = acc) ∧
    (∀ (s : State) (r : PageRead) (rest : List PageRead) (acc : Tab Tally) (q : Nat), s.store.op = .reading q →
      s.store.job = .rebuild (r :: rest) acc → s.plan.deferredClose = false →
      let records := (List.range r.count).map fun i =>
        (List.range 16).map fun j => Memory.read s.store.mem (1024 * r.page + 16 * (r.from_ + i) + j)
      let sum := records.foldl s.set.addRecord acc
      (∀ (x : PageRead) (more : List PageRead), rest = x :: more →
        Does .pageReadDone s { s with store.job := .rebuild rest sum, store.op := .reading x.page }) ∧
        (rest = [] → s.store.waitingRead = none → (∀ m ∈ s.pool.msgs, m.kind ≠ .inbound) →
          Does .pageReadDone s
            ({ s with store.job := .idle, store.op := .idle, reg.tallies := sum, plan.dayState := .opened }.raise .dayReady))) ∧
    (∀ s : State, s.plan.deferredClose = true →
      (∀ (r : PageRead) (acc : Tab Tally) (q : Nat), s.store.op = .reading q → s.store.job = .rebuild [r] acc →
        (∀ m ∈ s.pool.msgs, m.kind ≠ .inbound) →
        let sum := (s.store.readRecords r).foldl s.set.addRecord acc
        let opened : State := { s with
          store.job := .idle
          store.op := .idle
          reg.tallies := sum
          plan.dayState := .opened
          plan.deferredClose := false }.raise .dayReady
        (s.store.waitingRead = none → Does .pageReadDone s opened.performClose) ∧
          ∀ (x : ReadReq) (y : PageRead) (l : List PageRead), s.store.waitingRead = some x → x.pages = y :: l →
            Does .pageReadDone s (State.performClose { opened with
              store.waitingRead := none
              store.job := .read x []
              store.op := .reading y.page })) ∧
      (s.plan.dayState = .opened →
        (∀ sum : Nat, s.store.op = .verifying 255 → s.store.job = .save .writeCheck sum →
          Does (.pageVerifyDone true) s (State.performClose { saveDone s with plan.deferredClose := false })) ∧
        ∀ (p sum : Nat) (ph : SavePhase) (c : Instr), fails s c p → s.store.job = .save ph sum → s.store.retried = true →
          Does c s (State.performClose { saveFailed s p with plan.deferredClose := false }))) ∧
    (∀ (s : State) (r : PageRead) (acc : Tab Tally) (q : Nat) (x : ReadReq), s.store.op = .reading q →
      s.store.job = .rebuild [r] acc → s.store.waitingRead = some x →
      let opened : State := { s with
        store.job := .idle
        store.op := .idle
        store.waitingRead := none
        reg.tallies := (s.store.readRecords r).foldl s.set.addRecord acc
        plan.dayState := .opened }.raise .dayReady
      let held := (s.pool.msgs.filter fun m => m.kind == .inbound).map (·.number)
      let then_ := fun z : State =>
        let parsed := held.foldl State.parseReport z
        if s.plan.deferredClose then State.performClose { parsed with plan.deferredClose := false } else parsed
      (∀ (y : PageRead) (l : List PageRead), x.pages = y :: l →
        Does .pageReadDone s (then_ { opened with store.job := .read x [], store.op := .reading y.page })) ∧
        ∀ tag : Nat, x.pages = [] → s.link.hand = some ⟨tag, 0x41, false⟩ →
          Does .pageReadDone s (then_ (opened.withReply 0x41 tag .ok
            (bFlag (!x.entry.complete) ++ b2 x.entry.records ++ b1 0 ++ b2 x.index)))) ∧
    ∀ s : State, s.plan.deferredClose = false →
      let idle : State := { s with store.job := .idle, store.op := .idle, store.retried := false, store.pageBuf := [] }
      (∀ p : Nat, s.store.op = .blankCheck p → s.store.retried = false →
        Does (.blankCheckDone false) s { s.tearPage p with store.op := .erasing p, store.retried := true }) ∧
      (∀ p : Nat, s.store.op = .verifying p → s.store.retried = false →
        Does (.pageVerifyDone false) s { s.tearPage p with store.op := .programming p, store.retried := true }) ∧
      (∀ sum : Nat, s.store.op = .blankCheck 255 → s.store.job = .save .clearCheck sum →
        Does (.blankCheckDone true) s
          { s with store.job := .save (.data 0) sum, store.op := .erasing 0, store.retried := false }) ∧
      (∀ (k sum : Nat), s.store.op = .blankCheck k → s.store.job = .save (.data k) sum →
        Does (.blankCheckDone true) s
          { s with store.pageBuf := s.set.page k, store.op := .programming k, store.retried := false }) ∧
      (∀ sum : Nat, s.store.op = .verifying 255 → s.store.job = .save .writeCheck sum →
        Does (.pageVerifyDone true) s (saveDone s)) ∧
      (∀ (p sum : Nat) (ph : SavePhase) (c : Instr), fails s c p → s.store.job = .save ph sum → s.store.retried = true →
        Does c s (saveFailed s p)) ∧
      (∀ p k sum : Nat, s.store.op = .verifying p → s.store.job = .save (.data k) sum →
        let total := sum + (s.store.pageBuf.map fun b => b.toNat).sum
        let good : State := { s with store.spoiled := s.store.spoiled.filter fun q => q != p }
        (k < 254 → Does (.pageVerifyDone true) s
          { good with store.job := .save (.data (k + 1)) total, store.op := .erasing (k + 1), store.retried := false }) ∧
        (254 ≤ k → Does (.pageVerifyDone true) s
          { good with
            store.job := .save .writeCheck total
            store.pageBuf := b2 1 ++ b1 255 ++ List.replicate 1017 0#8 ++ b4 ((4294967296 - total % 4294967296) % 4294967296)
            store.op := .programming 255
            store.retried := false })) ∧
      (∀ (p k : Nat), s.store.op = .verifying p → s.store.job = .commit ⟨k, .final .complete⟩ →
        Does (.pageVerifyDone true) s
          ({ idle with
            store.spoiled := s.store.spoiled.filter fun q => q != p
            store.recBuf := []
            store.lastCommit := some .complete
            plan.dayState := .closed }.raise .archiveDone)) ∧
      (∀ (p k : Nat) (ph : CommitPhase), s.store.op = .blankCheck p → s.store.job = .commit ⟨k, ph⟩ →
        ((∃ q : Nat, ph = .page q) →
          Does (.blankCheckDone true) s { s with store.op := .programming p, store.retried := false }) ∧
        ((∀ q : Nat, ph ≠ .page q) →
          Does (.blankCheckDone true) s
            { s with
              store.pageBuf := s.store.directoryBytes (p - 256)
              store.op := .programming p
              store.retried := false })) ∧
      (∀ (p k : Nat) (ph : CommitPhase), s.store.op = .verifying p → s.store.job = .commit ⟨k, ph⟩ →
        let good : State := { s with store.spoiled := s.store.spoiled.filter fun q => q != p }
        (ph = .dropOldest → ∀ j : Nat, j < s.store.dir.length → s.store.dir[j]? = some none →
          (∀ i : Nat, i < j → s.store.dir[i]? ≠ some none) →
          Does (.pageVerifyDone true) s
            { good with
              store.dir := s.store.dir.set j (some ⟨s.store.nextCommit, s.plan.dayDate.getD ⟨1, 1, 2000⟩, s.store.nextPage, 0, 0,
                s.store.unresolved, false⟩)
              store.nextCommit := min (s.store.nextCommit + 1) 4294967295
              store.spanned := 0
              store.done := 0
              store.recBuf := []
              store.job := .commit ⟨j, .openEntry⟩
              store.op := .erasing (256 + j / 8)
              store.retried := false }) ∧
        (ph = .openEntry ∨ (∃ q : Nat, ph = .dropReached q) → Does (.pageVerifyDone true) s (good.commitOn k)) ∧
        (∀ q : Nat, ph = .badTable q →
          Does (.pageVerifyDone true) s (State.commitOn { good with store.spanned := s.store.spanned + 1 } k)) ∧
        (∀ q : Nat, ph = .page q →
          Does (.pageVerifyDone true) s
            (State.commitOn { good with
              store.done := s.store.done + s.store.recBuf.length
              store.recBuf := []
              store.spanned := s.store.spanned + 1 } k)) ∧
        (∀ o : CommitOutcome, ph = .final o → o ≠ .complete →
          Does (.pageVerifyDone true) s
            ({ idle with
              store.spoiled := s.store.spoiled.filter fun q => q != p
              store.recBuf := []
              store.lastCommit := some o
              plan.dayState := .closed }.raise .archiveFail))) ∧
      (∀ (p k : Nat) (ph : CommitPhase) (c : Instr), fails s c p → s.store.job = .commit ⟨k, ph⟩ → s.store.retried = true →
        (∀ q : Nat, ph = .page q → p = 260 + q →
          let torn := s.tearPage p
          (s.store.bad.length < 64 →
            Does c s
              { torn with
                store.bad := insertBad q s.store.bad
                store.job := .commit ⟨k, .badTable q⟩
                store.op := .erasing 256
                store.retried := false }) ∧
          (∀ e : DayEntry, 64 ≤ s.store.bad.length → s.store.dir[k]? = some (some e) →
            Does c s
              { torn with
                store.dir := s.store.dir.set k (some { e with
                  pages := s.store.spanned
                  records := s.store.done
                  complete := false })
                store.job := .commit ⟨k, .final .tableFull⟩
                store.op := .erasing (256 + k / 8)
                store.retried := false })) ∧
        ((∀ q : Nat, ph ≠ .page q) →
          ∃ u : State, Does c s u ∧ u.store.lastCommit = some .directoryFailed ∧ u.store.job = .idle ∧
            u.store.op = .idle ∧ u.store.recBuf = [] ∧ u.plan = { s.plan with dayState := .closed } ∧
            u.link = s.link.raise .archiveFail ∧ u.reg = s.reg ∧ u.store.nextCommit = s.store.nextCommit ∧
            (ph = .dropOldest ∨ (∃ o : CommitOutcome, ph = .final o) → u.store.dir = s.store.dir) ∧
            (∀ e : DayEntry, ph = .openEntry ∨ (∃ q : Nat, ph = .dropReached q ∨ ph = .badTable q) →
              s.store.dir[k]? = some (some e) →
              u.store.dir = s.store.dir.set k (some { e with
                pages := s.store.spanned
                records := s.store.done
                complete := false })))) ∧
      ∀ (r : ReadReq) (p : PageRead) (l : List DayRecord) (q tag : Nat), s.store.op = .reading q → s.store.job = .read r l →
        let got := l ++ (List.range p.count).map fun i =>
          (List.range 16).map fun j => Memory.read s.store.mem (1024 * p.page + 16 * (p.from_ + i) + j)
        (∀ (x : PageRead) (more : List PageRead), r.pages = p :: x :: more →
          Does .pageReadDone s
            { s with store.job := .read { r with pages := x :: more } got, store.op := .reading x.page }) ∧
          (r.pages = [p] → s.link.hand = some ⟨tag, 0x41, false⟩ →
            let v := { s with store.job := .idle, store.op := .idle, store.pendingJob := none }.withReply 0x41 tag .ok
              (bFlag (!r.entry.complete) ++ b2 r.entry.records ++ b1 got.length ++ b2 (r.index + got.length) ++ got.flatten)
            (s.store.pendingJob = none → Does .pageReadDone s v) ∧
              (s.store.pendingJob = some .commit →
                (∀ (k : Nat) (e : DayEntry), none ∉ s.store.dir → s.store.dir[k]? = some (some e) →
                  (∀ (j : Nat) (f : DayEntry), j ≠ k → s.store.dir[j]? = some (some f) → e.commit < f.commit) →
                  Does .pageReadDone s { v with
                    store.dir := s.store.dir.set k none
                    store.job := .commit ⟨k, .dropOldest⟩
                    store.op := .erasing (256 + k / 8)
                    store.retried := false }) ∧
                ∀ j : Nat, s.store.dir[j]? = some none → (∀ i : Nat, i < j → s.store.dir[i]? ≠ some none) →
                  Does .pageReadDone s { v with
                    store.dir := s.store.dir.set j (some ⟨s.store.nextCommit, s.plan.dayDate.getD ⟨1, 1, 2000⟩,
                      s.store.nextPage, 0, 0, s.store.unresolved, false⟩)
                    store.nextCommit := min (s.store.nextCommit + 1) 4294967295
                    store.spanned := 0
                    store.done := 0
                    store.recBuf := []
                    store.job := .commit ⟨j, .openEntry⟩
                    store.op := .erasing (256 + j / 8)
                    store.retried := false }) ∧
              (∀ day : Date, s.store.pendingJob = some .rebuild → s.plan.dayDate = some day →
                let reads := s.store.rebuildReads day
                (∀ (x : PageRead) (more : List PageRead), reads = x :: more →
                  Does .pageReadDone s { v with store.job := .rebuild reads [], store.op := .reading x.page }) ∧
                  (reads = [] → s.store.waitingRead = none → (∀ m ∈ s.pool.msgs, m.kind ≠ .inbound) →
                    Does .pageReadDone s ({ v with reg.tallies := [], plan.dayState := .opened }.raise .dayReady))))

/-! ## What every step keeps -/

/-- Section 10.2, R160: whatever the command and the state, a step keeps the store's bytes in their canonical form, and keeps the submissions
awaiting a result under the window last announced while the link is UP and at none while it is DOWN.
R2, R10: a step keeps the settings tables, the session records, the group statuses and the tallies in their canonical form, no code of an
in-use pupil repeated and no number serving more than 8 pupils.
R132: the notice wait list holds NOTICE and RECEIPT requests, so a step leaves no ABSENCE ALERT in it where none was. -/
def Obligations.StepsKeepTheStoreAndTheWindow : Prop :=
  ∀ s t : State, step s = .next t →
    (Memory.wf s.store.mem = true → Memory.wf t.store.mem = true) ∧ (s.windowHolds → t.windowHolds) ∧
      (s.tablesHold → t.tablesHold) ∧ (s.waitsHold → t.waitsHold)

/-- The state after reset meets what every step keeps: the store's canonical form, the balance of the pool, the window, the tables, the wait
list's kinds and the plans' bounds. -/
def Obligations.ResetMeetsTheInvariants : Prop :=
  Memory.wf State.reset.store.mem = true ∧ State.reset.poolBalances ∧ State.reset.windowHolds ∧ State.reset.tablesHold ∧
    State.reset.waitsHold ∧ State.reset.plansHold

end
end

