-- ==== Sys2Proof/Laws/Link.lean ====
section
/-! SUPPORT. What a host request does when the link is ready for it: the one lemma that statements about requests cite. -/

namespace Sys2Proof.Machine

/-- With the link ready, a good frame is taken at once: its request is handled in hand, and its reply made unless it waits (R195). -/
theorem goodFrame_ready {s : State} (h : s.ready) (tag : Nat) (r : Request) :
    s.goodFrame tag r =
      match handle tag r (s.inHand (Request.handKind r) tag) with
      | (x, some p) => x.giveReply p
      | (x, none) => x := by
  obtain ⟨h1, h2, h3⟩ := h
  simp [State.goodFrame, State.joinFrame, State.frameEnds, h2, Config.frameQueueMax, State.takeNext, h1, h3, State.take,
    State.inHand] <;> rfl

/-- Making the reply to the request in hand. -/
theorem giveReply_inHand {x : State} {kind tag : Nat} (h : x.link.hand = some ⟨tag, kind, false⟩) (hk : kind ≠ 0xFE)
    (code : Code) (body : List Byte) : x.giveReply ⟨code, body⟩ = x.withReply kind tag code body := by
  simp [State.giveReply, h, State.withReply, replyKind, hk, replyFrame, b1]

/-- A request that is answered in the event of its take. -/
theorem answers_of_handle {i : Instr} {s : State} {tag kind : Nat} {r : Request} {f : State → State} {code : Code}
    {body : List Byte} (h : s.ready) (hi : exec i s = request tag r s) (hk : Request.handKind r = kind) (hne : kind ≠ 0xFE)
    (hh : handle tag r (s.inHand kind tag) = (f (s.inHand kind tag), some ⟨code, body⟩))
    (hf : (f (s.inHand kind tag)).link.hand = some ⟨tag, kind, false⟩) : Answers i s kind tag f code body := by
  simp [Answers, Does, hi, request, run, goodFrame_ready h, hk, hh, giveReply_inHand hf hne]

end Sys2Proof.Machine
end

