-- ==== Sys2Proof/Laws/Tab.lean ====
section
/-! SUPPORT. Sparse tables: what a read gives after a write, and that every operation keeps the canonical form. -/

namespace Sys2Proof.Machine

variable {α : Type} {dflt : Nat → α}

theorem Tab.get_insert_same (t : Tab α) (i : Nat) (v : α) : Tab.get dflt (t.insert i v) i = v := by
  induction t with
  | nil => simp [Tab.insert, Tab.get]
  | cons e t ih =>
    obtain ⟨j, a⟩ := e
    unfold Tab.insert
    split
    · simp [Tab.get]
    · split
      · simp [Tab.get]
      · simp [Tab.get, *]

theorem Tab.get_insert_other (t : Tab α) {i k : Nat} (v : α) (h : k ≠ i) :
    Tab.get dflt (t.insert i v) k = Tab.get dflt t k := by
  induction t with
  | nil => simp [Tab.insert, Tab.get, h]
  | cons e t ih =>
    obtain ⟨j, a⟩ := e
    unfold Tab.insert
    split
    · subst i; simp [Tab.get, h]
    · split
      · simp [Tab.get, h]
      · simp [Tab.get, ih]

theorem Tab.get_erase_other (t : Tab α) {i k : Nat} (h : k ≠ i) : Tab.get dflt (t.erase i) k = Tab.get dflt t k := by
  induction t with
  | nil => rfl
  | cons e t ih =>
    obtain ⟨j, a⟩ := e
    unfold Tab.erase
    split
    · subst i; simp [Tab.get, h]
    · split
      · rfl
      · simp [Tab.get, ih]

variable [DecidableEq α]

/-- A canonical table from a later index is one from an earlier index. -/
theorem Tab.canonFrom_mono {lo lo' : Nat} {t : Tab α} (h : lo' ≤ lo) (ht : Tab.canonFrom dflt lo t = true) :
    Tab.canonFrom dflt lo' t = true := by
  cases t with
  | nil => rfl
  | cons e t =>
    simp only [Tab.canonFrom, Bool.and_eq_true, decide_eq_true_eq] at ht ⊢
    exact ⟨⟨le_trans h ht.1.1, ht.1.2⟩, ht.2⟩

/-- An index below a canonical table reads as its default. -/
theorem Tab.get_below {lo i : Nat} {t : Tab α} (ht : Tab.canonFrom dflt lo t = true) (h : i < lo) :
    Tab.get dflt t i = dflt i := by
  induction t generalizing lo with
  | nil => rfl
  | cons e t ih =>
    simp only [Tab.canonFrom, Bool.and_eq_true, decide_eq_true_eq] at ht
    have hne : i ≠ e.1 := by omega
    simp only [Tab.get, hne, if_false]
    exact ih ht.2 (by omega)

theorem Tab.canonFrom_insert {lo i : Nat} {v : α} {t : Tab α} (ht : Tab.canonFrom dflt lo t = true) (h : lo ≤ i)
    (hv : v ≠ dflt i) : Tab.canonFrom dflt lo (t.insert i v) = true := by
  induction t generalizing lo with
  | nil => simp [Tab.insert, Tab.canonFrom, h, hv]
  | cons e t ih =>
    obtain ⟨j, a⟩ := e
    simp only [Tab.canonFrom, Bool.and_eq_true, decide_eq_true_eq] at ht
    unfold Tab.insert
    split
    · subst i
      simp only [Tab.canonFrom, Bool.and_eq_true, decide_eq_true_eq]
      exact ⟨⟨h, hv⟩, ht.2⟩
    · split
      · rename_i h2
        simp only [Tab.canonFrom, Bool.and_eq_true, decide_eq_true_eq]
        exact ⟨⟨h, hv⟩, ⟨by omega, ht.1.2⟩, ht.2⟩
      · simp only [Tab.canonFrom, Bool.and_eq_true, decide_eq_true_eq]
        exact ⟨ht.1, ih ht.2 (by omega)⟩

theorem Tab.canonFrom_erase {lo : Nat} (i : Nat) {t : Tab α} (ht : Tab.canonFrom dflt lo t = true) :
    Tab.canonFrom dflt lo (t.erase i) = true := by
  induction t generalizing lo with
  | nil => rfl
  | cons e t ih =>
    obtain ⟨j, a⟩ := e
    have ht' := ht
    simp only [Tab.canonFrom, Bool.and_eq_true, decide_eq_true_eq] at ht
    unfold Tab.erase
    split
    · exact Tab.canonFrom_mono (by omega) ht.2
    · split
      · exact ht'
      · simp only [Tab.canonFrom, Bool.and_eq_true, decide_eq_true_eq]
        exact ⟨ht.1, ih ht.2⟩

theorem Tab.get_erase_same {lo : Nat} (i : Nat) {t : Tab α} (ht : Tab.canonFrom dflt lo t = true) :
    Tab.get dflt (t.erase i) i = dflt i := by
  induction t generalizing lo with
  | nil => rfl
  | cons e t ih =>
    obtain ⟨j, a⟩ := e
    have ht' := ht
    simp only [Tab.canonFrom, Bool.and_eq_true, decide_eq_true_eq] at ht
    unfold Tab.erase
    split
    · exact Tab.get_below ht.2 (by omega)
    · split
      · rename_i h1 h2
        simp only [Tab.get, h1, if_false]
        exact Tab.get_below ht.2 (by omega)
      · rename_i h1 h2
        simp only [Tab.get, h1, if_false]
        exact ih ht.2

/-- What a write does: the index written reads as the value; the canonical form makes it so for the default too. -/
theorem Tab.get_put_same {t : Tab α} (ht : Tab.wf dflt t = true) (i : Nat) (v : α) :
    Tab.get dflt (Tab.put dflt t i v) i = v := by
  unfold Tab.put
  split
  · rename_i h; rw [Tab.get_erase_same i ht, h]
  · exact Tab.get_insert_same t i v

/-- A write leaves every other index alone. -/
theorem Tab.get_put_other (t : Tab α) {i k : Nat} (v : α) (h : k ≠ i) :
    Tab.get dflt (Tab.put dflt t i v) k = Tab.get dflt t k := by
  unfold Tab.put
  split
  · exact Tab.get_erase_other t h
  · exact Tab.get_insert_other t v h

/-- A write keeps the canonical form. -/
theorem Tab.wf_put {t : Tab α} (ht : Tab.wf dflt t = true) (i : Nat) (v : α) :
    Tab.wf dflt (Tab.put dflt t i v) = true := by
  unfold Tab.put
  split
  · exact Tab.canonFrom_erase i ht
  · rename_i h; exact Tab.canonFrom_insert ht (Nat.zero_le i) h

theorem Tab.canonFrom_filter {lo : Nat} (p : Nat × α → Bool) {t : Tab α} (ht : Tab.canonFrom dflt lo t = true) :
    Tab.canonFrom dflt lo (List.filter p t) = true := by
  induction t generalizing lo with
  | nil => rfl
  | cons e t ih =>
    simp only [Tab.canonFrom, Bool.and_eq_true, decide_eq_true_eq] at ht
    simp only [List.filter_cons]
    split
    · simp only [Tab.canonFrom, Bool.and_eq_true, decide_eq_true_eq]
      exact ⟨ht.1, ih ht.2⟩
    · exact Tab.canonFrom_mono (by omega) (ih ht.2)

/-- Every listed index of a canonical table is at least its bound. -/
theorem Tab.le_of_mem {lo : Nat} {t : Tab α} (ht : Tab.canonFrom dflt lo t = true) {e : Nat × α} (he : e ∈ t) : lo ≤ e.1 := by
  induction t generalizing lo with
  | nil => cases he
  | cons f t ih =>
    simp only [Tab.canonFrom, Bool.and_eq_true, decide_eq_true_eq] at ht
    cases he with
    | head => exact ht.1.1
    | tail _ h => have := ih ht.2 h; omega

/-- Two canonical tables, every index of the first below the second's bound, make a canonical table. -/
theorem Tab.canonFrom_append {lo mid : Nat} {t u : Tab α} (ht : Tab.canonFrom dflt lo t = true)
    (hu : Tab.canonFrom dflt mid u = true) (hlo : lo ≤ mid) (h : ∀ e ∈ t, e.1 < mid) :
    Tab.canonFrom dflt lo (List.append t u) = true := by
  induction t generalizing lo with
  | nil => exact Tab.canonFrom_mono hlo hu
  | cons e t ih =>
    simp only [Tab.canonFrom, Bool.and_eq_true, decide_eq_true_eq] at ht
    have he := h e (List.mem_cons_self ..)
    change Tab.canonFrom dflt lo (e :: List.append t u) = true
    simp only [Tab.canonFrom, Bool.and_eq_true, decide_eq_true_eq]
    exact ⟨ht.1, ih ht.2 (by omega) fun x hx => h x (List.mem_cons_of_mem _ hx)⟩

end Sys2Proof.Machine
end

