-- ==== Sys2Proof/Laws/Memory.lean ====
section
/-! SUPPORT. The store's bytes: every operation keeps the canonical form, and what a read gives after an erase or a program. -/

namespace Sys2Proof.Machine

/-! ## Reads of parts of a table -/

theorem Tab.get_filter_key {α : Type} (dflt : Nat → α) (p : Nat → Bool) (t : Tab α) (i : Nat) :
    Tab.get dflt (List.filter (fun e => p e.1) t) i = if p i then Tab.get dflt t i else dflt i := by
  induction t with
  | nil => simp [Tab.get]
  | cons e t ih =>
    obtain ⟨j, a⟩ := e
    by_cases hj : i = j
    · subst hj
      by_cases hp : p i
      · simp [hp, Tab.get]
      · simp only [Bool.not_eq_true] at hp
        simpa [List.filter_cons, hp] using ih
    · by_cases hp : p j
      · simp [hp, Tab.get, hj, ih]
      · simp only [Bool.not_eq_true] at hp
        simpa [List.filter_cons, hp, Tab.get, hj] using ih

theorem Tab.get_append_left {α : Type} (dflt : Nat → α) (t u : Tab α) (i : Nat) (h : ∀ e ∈ u, e.1 ≠ i) :
    Tab.get dflt (List.append t u) i = Tab.get dflt t i := by
  induction t with
  | nil =>
    change Tab.get dflt u i = dflt i
    induction u with
    | nil => rfl
    | cons e u ih =>
      have he : i ≠ e.1 := (h e (List.mem_cons_self ..)).symm
      simp only [Tab.get, he, if_false]
      exact ih fun x hx => h x (List.mem_cons_of_mem _ hx)
  | cons e t ih =>
    change Tab.get dflt (e :: List.append t u) i = _
    simp only [Tab.get, ih]

theorem Tab.get_append_right {α : Type} (dflt : Nat → α) (t u : Tab α) (i : Nat) (h : ∀ e ∈ t, e.1 ≠ i) :
    Tab.get dflt (List.append t u) i = Tab.get dflt u i := by
  induction t with
  | nil => rfl
  | cons e t ih =>
    have he : i ≠ e.1 := (h e (List.mem_cons_self ..)).symm
    change Tab.get dflt (e :: List.append t u) i = _
    simp only [Tab.get, he, if_false]
    exact ih fun x hx => h x (List.mem_cons_of_mem _ hx)

/-! ## Cells -/

theorem Memory.cells_canon (a : Nat) (l : List Byte) : Tab.canonFrom blankAt a (Memory.cells a l) = true := by
  induction l generalizing a with
  | nil => rfl
  | cons b l ih =>
    unfold Memory.cells
    split
    · exact Tab.canonFrom_mono (Nat.le_succ a) (ih (a + 1))
    · rename_i h
      simp only [Tab.canonFrom, Bool.and_eq_true, decide_eq_true_eq]
      exact ⟨⟨le_refl a, h⟩, ih (a + 1)⟩

theorem Memory.cells_below (a : Nat) (l : List Byte) : ∀ e ∈ Memory.cells a l, a ≤ e.1 ∧ e.1 < a + l.length := by
  induction l generalizing a with
  | nil => intro e he; cases he
  | cons b l ih =>
    intro e he
    unfold Memory.cells at he
    split at he
    · have := ih (a + 1) e he
      simp only [List.length_cons]
      omega
    · cases he with
      | head => simp only [List.length_cons]; omega
      | tail _ he =>
        have := ih (a + 1) e he
        simp only [List.length_cons]
        omega

theorem Memory.read_cells (a : Nat) (l : List Byte) (k : Nat) :
    Tab.get blankAt (Memory.cells a l) (a + k) = l[k]?.getD Config.blankByte := by
  induction l generalizing a k with
  | nil => rfl
  | cons b l ih =>
    cases k with
    | zero =>
      unfold Memory.cells
      split
      · rename_i h
        rw [Tab.get_below (Memory.cells_canon (a + 1) l) (by omega)]
        simp [blankAt, h]
      · simp [Tab.get]
    | succ k =>
      have h1 : a + (k + 1) = a + 1 + k := by omega
      have h2 : a + 1 + k ≠ a := by omega
      unfold Memory.cells
      split
      · rw [h1, ih]; simp
      · rw [h1]
        simp only [Tab.get, h2, if_false, ih]
        simp

/-! ## Erase -/

/-- A place of a store page. -/
def onPage (p a : Nat) : Prop := pageAddr p ≤ a ∧ a < pageAddr p + Config.pageBytes

theorem Memory.wf_erasePage {m : List (Nat × Byte)} (h : Memory.wf m = true) (p : Nat) :
    Memory.wf (Memory.erasePage m p) = true := Tab.canonFrom_filter _ h

/-- R178: an erase leaves every byte of the page blank. -/
theorem Memory.read_erasePage_on (m : List (Nat × Byte)) {p a : Nat} (h : onPage p a) :
    Memory.read (Memory.erasePage m p) a = Config.blankByte := by
  have := Tab.get_filter_key blankAt (fun x => decide (x < pageAddr p) || decide (pageAddr p + Config.pageBytes ≤ x)) m a
  unfold onPage at h
  have hp : (decide (a < pageAddr p) || decide (pageAddr p + Config.pageBytes ≤ a)) = false := by simp; omega
  rw [hp] at this
  exact this

/-- An erase leaves every byte of another page alone. -/
theorem Memory.read_erasePage_off (m : List (Nat × Byte)) {p a : Nat} (h : ¬ onPage p a) :
    Memory.read (Memory.erasePage m p) a = Memory.read m a := by
  have := Tab.get_filter_key blankAt (fun x => decide (x < pageAddr p) || decide (pageAddr p + Config.pageBytes ≤ x)) m a
  unfold onPage at h
  have hp : (decide (a < pageAddr p) || decide (pageAddr p + Config.pageBytes ≤ a)) = true := by simp; omega
  rw [hp] at this
  exact this

/-! ## Program -/

theorem Memory.programPage_eq (m : List (Nat × Byte)) (p : Nat) (buf : List Byte) :
    Memory.programPage m p buf =
      List.append (m.filter fun c => decide (c.1 < pageAddr p))
        (List.append (Memory.cells (pageAddr p) (buf.take Config.pageBytes))
          (m.filter fun c => decide (pageAddr p + Config.pageBytes ≤ c.1))) := by
  unfold Memory.programPage
  rw [List.append_assoc]
  rfl

theorem Memory.take_length (buf : List Byte) : (buf.take Config.pageBytes).length ≤ Config.pageBytes := by
  rw [List.length_take]; exact Nat.min_le_left _ _

theorem Memory.cells_mem {p : Nat} {buf : List Byte} {e : Nat × Byte}
    (h : e ∈ Memory.cells (pageAddr p) (buf.take Config.pageBytes)) : onPage p e.1 := by
  have h1 := Memory.cells_below (pageAddr p) (buf.take Config.pageBytes) e h
  have h2 := Memory.take_length buf
  unfold onPage
  omega

theorem Memory.wf_programPage {m : List (Nat × Byte)} (h : Memory.wf m = true) (p : Nat) (buf : List Byte) :
    Memory.wf (Memory.programPage m p buf) = true := by
  rw [Memory.programPage_eq]
  have hlow : Tab.canonFrom blankAt 0 (m.filter fun c => decide (c.1 < pageAddr p)) = true := Tab.canonFrom_filter _ h
  have hhigh : Tab.canonFrom blankAt (pageAddr p + Config.pageBytes)
      (m.filter fun c => decide (pageAddr p + Config.pageBytes ≤ c.1)) = true := by
    have hf : Tab.canonFrom blankAt 0 (m.filter fun c => decide (pageAddr p + Config.pageBytes ≤ c.1)) = true :=
      Tab.canonFrom_filter _ h
    revert hf
    generalize hu : (m.filter fun c => decide (pageAddr p + Config.pageBytes ≤ c.1)) = u
    intro hf
    cases u with
    | nil => rfl
    | cons e u =>
      have he : e ∈ m.filter fun c => decide (pageAddr p + Config.pageBytes ≤ c.1) := by rw [hu]; exact List.mem_cons_self ..
      have := (List.mem_filter.mp he).2
      simp only [decide_eq_true_eq] at this
      simp only [Tab.canonFrom, Bool.and_eq_true, decide_eq_true_eq] at hf ⊢
      exact ⟨⟨this, hf.1.2⟩, hf.2⟩
  refine Tab.canonFrom_append (mid := pageAddr p) hlow ?_ (Nat.zero_le _) ?_
  · refine Tab.canonFrom_append (mid := pageAddr p + Config.pageBytes) (Memory.cells_canon _ _) hhigh (by omega) ?_
    intro e he
    exact (Memory.cells_mem he).2
  · intro e he
    have := (List.mem_filter.mp he).2
    simpa using this

/-- R178, R212: a program writes the buffer into the page; places beyond the buffer stay blank. -/
theorem Memory.read_programPage_on (m : List (Nat × Byte)) (p : Nat) (buf : List Byte) {k : Nat} (hk : k < Config.pageBytes) :
    Memory.read (Memory.programPage m p buf) (pageAddr p + k) = buf[k]?.getD Config.blankByte := by
  unfold Memory.read
  rw [Memory.programPage_eq, Tab.get_append_right, Tab.get_append_left, Memory.read_cells, List.getElem?_take]
  · simp [hk]
  · intro e he
    have := (List.mem_filter.mp he).2
    simp only [decide_eq_true_eq] at this
    omega
  · intro e he
    have := (List.mem_filter.mp he).2
    simp only [decide_eq_true_eq] at this
    omega

/-- A program leaves every byte of another page alone. -/
theorem Memory.read_programPage_off (m : List (Nat × Byte)) (p : Nat) (buf : List Byte) {a : Nat} (h : ¬ onPage p a) :
    Memory.read (Memory.programPage m p buf) a = Memory.read m a := by
  unfold Memory.read
  rw [Memory.programPage_eq]
  unfold onPage at h
  by_cases hlow : a < pageAddr p
  · rw [Tab.get_append_left, Tab.get_filter_key blankAt (fun x => decide (x < pageAddr p))]
    · simp [hlow]
    · intro e he
      rcases List.mem_append.mp he with he | he
      · have := Memory.cells_mem he; unfold onPage at this; omega
      · have := (List.mem_filter.mp he).2
        simp only [decide_eq_true_eq] at this
        omega
  · rw [Tab.get_append_right, Tab.get_append_right,
      Tab.get_filter_key blankAt (fun x => decide (pageAddr p + Config.pageBytes ≤ x))]
    · have : pageAddr p + Config.pageBytes ≤ a := by omega
      simp [this]
    · intro e he
      have := Memory.cells_mem he; unfold onPage at this; omega
    · intro e he
      have := (List.mem_filter.mp he).2
      simp only [decide_eq_true_eq] at this
      omega

theorem State.tearPage_wf {s : State} (h : Memory.wf s.store.mem = true) (p : Nat) :
    Memory.wf (s.tearPage p).store.mem = true := Memory.wf_programPage h p _

theorem State.reset_mem_wf : Memory.wf State.reset.store.mem = true := rfl

end Sys2Proof.Machine
end

