-- ==== Sys2Proof/Laws/PerInstr.lean ====
section
/-! SUPPORT. One lemma for each command: a well-formed command that carries a host request carries it under a tag, a kind and a body
that a frame can hold (R193, section 11.1). -/

namespace Sys2Proof.Laws.Kinded

/-- The tag and the kind fit a byte, and the body is no longer than 240 characters. -/
def Statement (i : Instr) : Prop :=
  i.wellFormed = true → ∀ (tag : Nat) (r : Request), i.request? = some (tag, r) →
    tag < 256 ∧ r.kind < 256 ∧ r.body.length ≤ 240

theorem of_request {i : Instr} {tag : Nat} {r : Request} (h : i.request? = some (tag, r))
    (hk : r.ok = true → r.kind < 256) : Statement i := by
  intro hw t q hq
  rw [h] at hq
  obtain ⟨rfl, rfl⟩ := Prod.mk.inj (Option.some.inj hq)
  simp only [Instr.wellFormed, h, Bool.and_eq_true, byteOk, decide_eq_true_eq] at hw
  have hb := hw.2
  simp only [Request.ok, Bool.and_eq_true, decide_eq_true_eq] at hb
  exact ⟨hw.1, hk hw.2, hb.2⟩

theorem of_event {i : Instr} (h : i.request? = none) : Statement i := by
  intro _ t q hq
  rw [h] at hq
  exact absurd hq (by simp)

theorem hello (tag : Nat) : Statement (.hello tag) :=
  of_request rfl fun _ => by simp only [Request.kind]; decide

theorem conditions (tag : Nat) : Statement (.conditions tag) :=
  of_request rfl fun _ => by simp only [Request.kind]; decide

theorem attentionMask (tag : Nat) (set : Nat) : Statement (.attentionMask tag set) :=
  of_request rfl fun _ => by simp only [Request.kind]; decide

theorem reset (tag : Nat) (confirm : Nat) : Statement (.reset tag confirm) :=
  of_request rfl fun _ => by simp only [Request.kind]; decide

theorem lampForce (tag : Nat) (lamp : Nat) (force : Nat) : Statement (.lampForce tag lamp force) :=
  of_request rfl fun _ => by simp only [Request.kind]; decide

theorem tableSelect (tag : Nat) (table : Nat) (index : Nat) (mode : Nat) : Statement (.tableSelect tag table index mode) :=
  of_request rfl fun _ => by simp only [Request.kind]; decide

theorem tableRead (tag : Nat) (count : Nat) : Statement (.tableRead tag count) :=
  of_request rfl fun _ => by simp only [Request.kind]; decide

theorem tableWrite (tag : Nat) (body : List Byte) : Statement (.tableWrite tag body) :=
  of_request rfl fun _ => by simp only [Request.kind]; decide

theorem settingsSave (tag : Nat) : Statement (.settingsSave tag) :=
  of_request rfl fun _ => by simp only [Request.kind]; decide

theorem pupilFind (tag : Nat) (key : Nat) (value : Nat) : Statement (.pupilFind tag key value) :=
  of_request rfl fun _ => by simp only [Request.kind]; decide

theorem senderFind (tag : Nat) (number : Text) : Statement (.senderFind tag number) :=
  of_request rfl fun _ => by simp only [Request.kind]; decide

theorem clockSet (tag : Nat) (date : RawDate) (time : RawTime) : Statement (.clockSet tag date time) :=
  of_request rfl fun _ => by simp only [Request.kind]; decide

theorem dayOpen (tag : Nat) (date : RawDate) (kinds : Quad Nat) (delays : Option (Quad Nat)) : Statement (.dayOpen tag date kinds delays) :=
  of_request rfl fun _ => by simp only [Request.kind]; decide

theorem dayClose (tag : Nat) (force : Nat) : Statement (.dayClose tag force) :=
  of_request rfl fun _ => by simp only [Request.kind]; decide

theorem dayStatus (tag : Nat) : Statement (.dayStatus tag) :=
  of_request rfl fun _ => by simp only [Request.kind]; decide

theorem openingDelay (tag : Nat) (track : Nat) (delay : Nat) : Statement (.openingDelay tag track delay) :=
  of_request rfl fun _ => by simp only [Request.kind]; decide

theorem earlyClose (tag : Nat) (track : Nat) (minutes : Nat) : Statement (.earlyClose tag track minutes) :=
  of_request rfl fun _ => by simp only [Request.kind]; decide

theorem planQuery (tag : Nat) (track : Nat) (trial : Option Nat) : Statement (.planQuery tag track trial) :=
  of_request rfl fun _ => by simp only [Request.kind]; decide

theorem zoneRing (tag : Nat) (zone : Nat) : Statement (.zoneRing tag zone) :=
  of_request rfl fun _ => by simp only [Request.kind]; decide

theorem zoneCheck (tag : Nat) (zone : Nat) : Statement (.zoneCheck tag zone) :=
  of_request rfl fun _ => by simp only [Request.kind]; decide

theorem bellLog (tag : Nat) (zone : Nat) : Statement (.bellLog tag zone) :=
  of_request rfl fun _ => by simp only [Request.kind]; decide

theorem zoneStatus (tag : Nat) (zone : Nat) : Statement (.zoneStatus tag zone) :=
  of_request rfl fun _ => by simp only [Request.kind]; decide

theorem stationResume (tag : Nat) (station : Nat) : Statement (.stationResume tag station) :=
  of_request rfl fun _ => by simp only [Request.kind]; decide

theorem stationStatus (tag : Nat) (station : Nat) : Statement (.stationStatus tag station) :=
  of_request rfl fun _ => by simp only [Request.kind]; decide

theorem deskArrival (tag : Nat) (key : Nat) (value : Nat) (arrival : Option RawTime) : Statement (.deskArrival tag key value arrival) :=
  of_request rfl fun _ => by simp only [Request.kind]; decide

theorem deskAnswers (tag : Nat) : Statement (.deskAnswers tag) :=
  of_request rfl fun _ => by simp only [Request.kind]; decide

theorem slipReprint (tag : Nat) (pupil : Nat) (session : Nat) : Statement (.slipReprint tag pupil session) :=
  of_request rfl fun _ => by simp only [Request.kind]; decide

theorem slipStatus (tag : Nat) : Statement (.slipStatus tag) :=
  of_request rfl fun _ => by simp only [Request.kind]; decide

theorem deskStatistics (tag : Nat) (clear : Nat) : Statement (.deskStatistics tag clear) :=
  of_request rfl fun _ => by simp only [Request.kind]; decide

theorem registerSubmit (tag : Nat) (group : Nat) (session : Nat) (entries : List RawEntry) : Statement (.registerSubmit tag group session entries) :=
  of_request rfl fun _ => by simp only [Request.kind]; decide

theorem markSet (tag : Nat) (pupil : Nat) (session : Nat) (mark : Nat) (minutes : Nat) (lock : Nat) (arrival : Option RawTime) : Statement (.markSet tag pupil session mark minutes lock arrival) :=
  of_request rfl fun _ => by simp only [Request.kind]; decide

theorem markQuery (tag : Nat) (pupil : Nat) (session : Nat) : Statement (.markQuery tag pupil session) :=
  of_request rfl fun _ => by simp only [Request.kind]; decide

theorem groupStatus (tag : Nat) (session : Nat) (group : Nat) : Statement (.groupStatus tag session group) :=
  of_request rfl fun _ => by simp only [Request.kind]; decide

theorem conflictList (tag : Nat) (start : Nat) : Statement (.conflictList tag start) :=
  of_request rfl fun _ => by simp only [Request.kind]; decide

theorem conflictResolve (tag : Nat) (id : Nat) (what : RawResolve) : Statement (.conflictResolve tag id what) :=
  of_request rfl fun _ => by simp only [Request.kind]; decide

theorem advanceList (tag : Nat) (start : Nat) : Statement (.advanceList tag start) :=
  of_request rfl fun _ => by simp only [Request.kind]; decide

theorem advanceCancel (tag : Nat) (date : RawDate) (pupil : Nat) (sessions : Nat) : Statement (.advanceCancel tag date pupil sessions) :=
  of_request rfl fun _ => by simp only [Request.kind]; decide

theorem poolStatus (tag : Nat) (clear : Nat) : Statement (.poolStatus tag clear) :=
  of_request rfl fun _ => by simp only [Request.kind]; decide

theorem messageSend (tag : Nat) (pupil : Nat) (session : Nat) (what : RawSend) : Statement (.messageSend tag pupil session what) :=
  of_request rfl fun _ => by simp only [Request.kind]; decide

theorem messageList (tag : Nat) (start : Nat) : Statement (.messageList tag start) :=
  of_request rfl fun _ => by simp only [Request.kind]; decide

theorem messageCancel (tag : Nat) (number : Nat) : Statement (.messageCancel tag number) :=
  of_request rfl fun _ => by simp only [Request.kind]; decide

theorem inboundNext (tag : Nat) : Statement (.inboundNext tag) :=
  of_request rfl fun _ => by simp only [Request.kind]; decide

theorem gatewayStatus (tag : Nat) (clear : Nat) : Statement (.gatewayStatus tag clear) :=
  of_request rfl fun _ => by simp only [Request.kind]; decide

theorem archiveDirectory (tag : Nat) (start : Nat) : Statement (.archiveDirectory tag start) :=
  of_request rfl fun _ => by simp only [Request.kind]; decide

theorem archiveRead (tag : Nat) (date : RawDate) (index : Nat) (count : Nat) : Statement (.archiveRead tag date index count) :=
  of_request rfl fun _ => by simp only [Request.kind]; decide

theorem storeStatus (tag : Nat) : Statement (.storeStatus tag) :=
  of_request rfl fun _ => by simp only [Request.kind]; decide

theorem unknownKind (tag : Nat) (kind : Nat) : Statement (.unknownKind tag kind) :=
  of_request rfl fun h => by
    simp only [Request.ok, Request.fieldsOk, byteOk, Bool.and_eq_true, decide_eq_true_eq] at h
    exact h.1.1

theorem hostFrame (kind : Nat) (tag : Nat) (body : List Byte) (check : Byte) : Statement (.hostFrame kind tag body check) :=
  of_event rfl

theorem hostFramingCharacter : Statement (.hostFramingCharacter) :=
  of_event rfl

theorem hostLengthError (length : Nat) : Statement (.hostLengthError length) :=
  of_event rfl

theorem hostFrameTimeout : Statement (.hostFrameTimeout) :=
  of_event rfl

theorem hostFrameSent : Statement (.hostFrameSent) :=
  of_event rfl

theorem powerOnReset (strapHigh : Bool) : Statement (.powerOnReset strapHigh) :=
  of_event rfl

theorem pinReset (strapHigh : Bool) : Statement (.pinReset strapHigh) :=
  of_event rfl

theorem settingsLoadDone : Statement (.settingsLoadDone) :=
  of_event rfl

theorem secondEvent (peak : Quad Nat) : Statement (.secondEvent peak) :=
  of_event rfl

theorem minuteEvent : Statement (.minuteEvent) :=
  of_event rfl

theorem midnightEvent : Statement (.midnightEvent) :=
  of_event rfl

theorem segmentBegin (track : Fin 4) (segment : Nat) : Statement (.segmentBegin track segment) :=
  of_event rfl

theorem dayEnd (track : Fin 4) : Statement (.dayEnd track) :=
  of_event rfl

theorem sessionClose (track : Fin 4) (session : Session) : Statement (.sessionClose track session) :=
  of_event rfl

theorem alertDue (pupil : Nat) (session : Session) : Statement (.alertDue pupil session) :=
  of_event rfl

theorem bellEventDue (zone : Fin 4) (source : BellSource) : Statement (.bellEventDue zone source) :=
  of_event rfl

theorem ringEnd (zone : Fin 4) : Statement (.ringEnd zone) :=
  of_event rfl

theorem openFault (zone : Fin 4) (peak : Nat) (ms : Nat) : Statement (.openFault zone peak ms) :=
  of_event rfl

theorem overload (zone : Fin 4) (least : Nat) (ms : Nat) : Statement (.overload zone least ms) :=
  of_event rfl

theorem checkShort (zone : Fin 4) (least : Nat) (ms : Nat) : Statement (.checkShort zone least ms) :=
  of_event rfl

theorem probeEnd (zone : Fin 4) (peak : Nat) : Statement (.probeEnd zone peak) :=
  of_event rfl

theorem arrivalRecord (station : Fin 6) (kind : Byte) (sequence : Byte) (code : Nat) (check : Byte) : Statement (.arrivalRecord station kind sequence code check) :=
  of_event rfl

theorem stationFramingError (station : Fin 6) : Statement (.stationFramingError station) :=
  of_event rfl

theorem recordAbandoned (station : Fin 6) : Statement (.recordAbandoned station) :=
  of_event rfl

theorem holdOff (station : Fin 6) : Statement (.holdOff station) :=
  of_event rfl

theorem showSent (station : Fin 6) : Statement (.showSent station) :=
  of_event rfl

theorem classificationComplete : Statement (.classificationComplete) :=
  of_event rfl

theorem printerReady : Statement (.printerReady) :=
  of_event rfl

theorem paperOut : Statement (.paperOut) :=
  of_event rfl

theorem slipRecordSent : Statement (.slipRecordSent) :=
  of_event rfl

theorem printerStall : Statement (.printerStall) :=
  of_event rfl

theorem waitEntryExpiry (position : Nat) : Statement (.waitEntryExpiry position) :=
  of_event rfl

theorem ready (window : Nat) (status : Nat) : Statement (.ready window status) :=
  of_event rfl

theorem result (tag : Nat) (outcome : Nat) : Statement (.result tag outcome) :=
  of_event rfl

theorem inbound (sender : Text) (text : Text) : Statement (.inbound sender text) :=
  of_event rfl

theorem gatewayBadRecord : Statement (.gatewayBadRecord) :=
  of_event rfl

theorem gatewayRecordAbandoned : Statement (.gatewayRecordAbandoned) :=
  of_event rfl

theorem gatewayRecordSent : Statement (.gatewayRecordSent) :=
  of_event rfl

theorem linkLoss : Statement (.linkLoss) :=
  of_event rfl

theorem deliveryTimeout (tag : Nat) : Statement (.deliveryTimeout tag) :=
  of_event rfl

theorem retryDelay (number : Nat) : Statement (.retryDelay number) :=
  of_event rfl

theorem messageLifetime (number : Nat) : Statement (.messageLifetime number) :=
  of_event rfl

theorem pageEraseDone : Statement (.pageEraseDone) :=
  of_event rfl

theorem blankCheckDone (blank : Bool) : Statement (.blankCheckDone blank) :=
  of_event rfl

theorem pageProgramDone : Statement (.pageProgramDone) :=
  of_event rfl

theorem pageVerifyDone (agrees : Bool) : Statement (.pageVerifyDone agrees) :=
  of_event rfl

theorem pageReadDone : Statement (.pageReadDone) :=
  of_event rfl

theorem lampStretch (lamp : Fin 4) : Statement (.lampStretch lamp) :=
  of_event rfl

theorem stationCharacter (station : Fin 6) (c : Byte) : Statement (.stationCharacter station c) :=
  of_event rfl

theorem hostCharacter (c : Byte) : Statement (.hostCharacter c) :=
  of_event rfl

theorem gatewayCharacter (c : Byte) : Statement (.gatewayCharacter c) :=
  of_event rfl

theorem lampFlashPhase : Statement (.lampFlashPhase) :=
  of_event rfl

end Sys2Proof.Laws.Kinded
end

