-- ==== Sys2Proof/Laws/State.lean ====
section
/-! SUPPORT. What each update of State leaves alone: one lemma per field, true by rfl; and what writing a lamp's entry does. -/

namespace Sys2Proof.Machine

@[simp] theorem State.raise_clock (s : State) (c : Condition) : (s.raise c).clock = s.clock := rfl
@[simp] theorem State.raise_set (s : State) (c : Condition) : (s.raise c).set = s.set := rfl
@[simp] theorem State.raise_plan (s : State) (c : Condition) : (s.raise c).plan = s.plan := rfl
@[simp] theorem State.raise_bells (s : State) (c : Condition) : (s.raise c).bells = s.bells := rfl
@[simp] theorem State.raise_stations (s : State) (c : Condition) : (s.raise c).stations = s.stations := rfl
@[simp] theorem State.raise_desk (s : State) (c : Condition) : (s.raise c).desk = s.desk := rfl
@[simp] theorem State.raise_slips (s : State) (c : Condition) : (s.raise c).slips = s.slips := rfl
@[simp] theorem State.raise_reg (s : State) (c : Condition) : (s.raise c).reg = s.reg := rfl
@[simp] theorem State.raise_recon (s : State) (c : Condition) : (s.raise c).recon = s.recon := rfl
@[simp] theorem State.raise_pool (s : State) (c : Condition) : (s.raise c).pool = s.pool := rfl
@[simp] theorem State.raise_sched (s : State) (c : Condition) : (s.raise c).sched = s.sched := rfl
@[simp] theorem State.raise_gw (s : State) (c : Condition) : (s.raise c).gw = s.gw := rfl
@[simp] theorem State.raise_store (s : State) (c : Condition) : (s.raise c).store = s.store := rfl
@[simp] theorem State.raise_lamps (s : State) (c : Condition) : (s.raise c).lamps = s.lamps := rfl
@[simp] theorem State.raise_free (s : State) (c : Condition) : (s.raise c).free = s.free := rfl
@[simp] theorem State.raise_pending (s : State) (c : Condition) : (s.raise c).pending = s.pending := rfl

@[simp] theorem State.putRec_clock (s : State) (p : Nat) (ss : Session) (r : Rec) : (s.putRec p ss r).clock = s.clock := rfl
@[simp] theorem State.putRec_set (s : State) (p : Nat) (ss : Session) (r : Rec) : (s.putRec p ss r).set = s.set := rfl
@[simp] theorem State.putRec_plan (s : State) (p : Nat) (ss : Session) (r : Rec) : (s.putRec p ss r).plan = s.plan := rfl
@[simp] theorem State.putRec_bells (s : State) (p : Nat) (ss : Session) (r : Rec) : (s.putRec p ss r).bells = s.bells := rfl
@[simp] theorem State.putRec_stations (s : State) (p : Nat) (ss : Session) (r : Rec) : (s.putRec p ss r).stations = s.stations := rfl
@[simp] theorem State.putRec_desk (s : State) (p : Nat) (ss : Session) (r : Rec) : (s.putRec p ss r).desk = s.desk := rfl
@[simp] theorem State.putRec_slips (s : State) (p : Nat) (ss : Session) (r : Rec) : (s.putRec p ss r).slips = s.slips := rfl
@[simp] theorem State.putRec_recon (s : State) (p : Nat) (ss : Session) (r : Rec) : (s.putRec p ss r).recon = s.recon := rfl
@[simp] theorem State.putRec_pool (s : State) (p : Nat) (ss : Session) (r : Rec) : (s.putRec p ss r).pool = s.pool := rfl
@[simp] theorem State.putRec_sched (s : State) (p : Nat) (ss : Session) (r : Rec) : (s.putRec p ss r).sched = s.sched := rfl
@[simp] theorem State.putRec_gw (s : State) (p : Nat) (ss : Session) (r : Rec) : (s.putRec p ss r).gw = s.gw := rfl
@[simp] theorem State.putRec_store (s : State) (p : Nat) (ss : Session) (r : Rec) : (s.putRec p ss r).store = s.store := rfl
@[simp] theorem State.putRec_link (s : State) (p : Nat) (ss : Session) (r : Rec) : (s.putRec p ss r).link = s.link := rfl
@[simp] theorem State.putRec_lamps (s : State) (p : Nat) (ss : Session) (r : Rec) : (s.putRec p ss r).lamps = s.lamps := rfl
@[simp] theorem State.putRec_free (s : State) (p : Nat) (ss : Session) (r : Rec) : (s.putRec p ss r).free = s.free := rfl
@[simp] theorem State.putRec_pending (s : State) (p : Nat) (ss : Session) (r : Rec) : (s.putRec p ss r).pending = s.pending := rfl

@[simp] theorem State.modRec_clock (s : State) (p : Nat) (ss : Session) (f : Rec → Rec) : (s.modRec p ss f).clock = s.clock := rfl
@[simp] theorem State.modRec_set (s : State) (p : Nat) (ss : Session) (f : Rec → Rec) : (s.modRec p ss f).set = s.set := rfl
@[simp] theorem State.modRec_plan (s : State) (p : Nat) (ss : Session) (f : Rec → Rec) : (s.modRec p ss f).plan = s.plan := rfl
@[simp] theorem State.modRec_bells (s : State) (p : Nat) (ss : Session) (f : Rec → Rec) : (s.modRec p ss f).bells = s.bells := rfl
@[simp] theorem State.modRec_stations (s : State) (p : Nat) (ss : Session) (f : Rec → Rec) : (s.modRec p ss f).stations = s.stations := rfl
@[simp] theorem State.modRec_desk (s : State) (p : Nat) (ss : Session) (f : Rec → Rec) : (s.modRec p ss f).desk = s.desk := rfl
@[simp] theorem State.modRec_slips (s : State) (p : Nat) (ss : Session) (f : Rec → Rec) : (s.modRec p ss f).slips = s.slips := rfl
@[simp] theorem State.modRec_recon (s : State) (p : Nat) (ss : Session) (f : Rec → Rec) : (s.modRec p ss f).recon = s.recon := rfl
@[simp] theorem State.modRec_pool (s : State) (p : Nat) (ss : Session) (f : Rec → Rec) : (s.modRec p ss f).pool = s.pool := rfl
@[simp] theorem State.modRec_sched (s : State) (p : Nat) (ss : Session) (f : Rec → Rec) : (s.modRec p ss f).sched = s.sched := rfl
@[simp] theorem State.modRec_gw (s : State) (p : Nat) (ss : Session) (f : Rec → Rec) : (s.modRec p ss f).gw = s.gw := rfl
@[simp] theorem State.modRec_store (s : State) (p : Nat) (ss : Session) (f : Rec → Rec) : (s.modRec p ss f).store = s.store := rfl
@[simp] theorem State.modRec_link (s : State) (p : Nat) (ss : Session) (f : Rec → Rec) : (s.modRec p ss f).link = s.link := rfl
@[simp] theorem State.modRec_lamps (s : State) (p : Nat) (ss : Session) (f : Rec → Rec) : (s.modRec p ss f).lamps = s.lamps := rfl
@[simp] theorem State.modRec_free (s : State) (p : Nat) (ss : Session) (f : Rec → Rec) : (s.modRec p ss f).free = s.free := rfl
@[simp] theorem State.modRec_pending (s : State) (p : Nat) (ss : Session) (f : Rec → Rec) : (s.modRec p ss f).pending = s.pending := rfl

@[simp] theorem State.putTally_clock (s : State) (p : Nat) (t : Tally) : (s.putTally p t).clock = s.clock := rfl
@[simp] theorem State.putTally_set (s : State) (p : Nat) (t : Tally) : (s.putTally p t).set = s.set := rfl
@[simp] theorem State.putTally_plan (s : State) (p : Nat) (t : Tally) : (s.putTally p t).plan = s.plan := rfl
@[simp] theorem State.putTally_bells (s : State) (p : Nat) (t : Tally) : (s.putTally p t).bells = s.bells := rfl
@[simp] theorem State.putTally_stations (s : State) (p : Nat) (t : Tally) : (s.putTally p t).stations = s.stations := rfl
@[simp] theorem State.putTally_desk (s : State) (p : Nat) (t : Tally) : (s.putTally p t).desk = s.desk := rfl
@[simp] theorem State.putTally_slips (s : State) (p : Nat) (t : Tally) : (s.putTally p t).slips = s.slips := rfl
@[simp] theorem State.putTally_recon (s : State) (p : Nat) (t : Tally) : (s.putTally p t).recon = s.recon := rfl
@[simp] theorem State.putTally_pool (s : State) (p : Nat) (t : Tally) : (s.putTally p t).pool = s.pool := rfl
@[simp] theorem State.putTally_sched (s : State) (p : Nat) (t : Tally) : (s.putTally p t).sched = s.sched := rfl
@[simp] theorem State.putTally_gw (s : State) (p : Nat) (t : Tally) : (s.putTally p t).gw = s.gw := rfl
@[simp] theorem State.putTally_store (s : State) (p : Nat) (t : Tally) : (s.putTally p t).store = s.store := rfl
@[simp] theorem State.putTally_link (s : State) (p : Nat) (t : Tally) : (s.putTally p t).link = s.link := rfl
@[simp] theorem State.putTally_lamps (s : State) (p : Nat) (t : Tally) : (s.putTally p t).lamps = s.lamps := rfl
@[simp] theorem State.putTally_free (s : State) (p : Nat) (t : Tally) : (s.putTally p t).free = s.free := rfl
@[simp] theorem State.putTally_pending (s : State) (p : Nat) (t : Tally) : (s.putTally p t).pending = s.pending := rfl

@[simp] theorem State.setGroupStatus_clock (s : State) (g : Nat) (ss : Session) (v : GroupStatus) : (s.setGroupStatus g ss v).clock = s.clock := rfl
@[simp] theorem State.setGroupStatus_set (s : State) (g : Nat) (ss : Session) (v : GroupStatus) : (s.setGroupStatus g ss v).set = s.set := rfl
@[simp] theorem State.setGroupStatus_plan (s : State) (g : Nat) (ss : Session) (v : GroupStatus) : (s.setGroupStatus g ss v).plan = s.plan := rfl
@[simp] theorem State.setGroupStatus_bells (s : State) (g : Nat) (ss : Session) (v : GroupStatus) : (s.setGroupStatus g ss v).bells = s.bells := rfl
@[simp] theorem State.setGroupStatus_stations (s : State) (g : Nat) (ss : Session) (v : GroupStatus) : (s.setGroupStatus g ss v).stations = s.stations := rfl
@[simp] theorem State.setGroupStatus_desk (s : State) (g : Nat) (ss : Session) (v : GroupStatus) : (s.setGroupStatus g ss v).desk = s.desk := rfl
@[simp] theorem State.setGroupStatus_slips (s : State) (g : Nat) (ss : Session) (v : GroupStatus) : (s.setGroupStatus g ss v).slips = s.slips := rfl
@[simp] theorem State.setGroupStatus_recon (s : State) (g : Nat) (ss : Session) (v : GroupStatus) : (s.setGroupStatus g ss v).recon = s.recon := rfl
@[simp] theorem State.setGroupStatus_pool (s : State) (g : Nat) (ss : Session) (v : GroupStatus) : (s.setGroupStatus g ss v).pool = s.pool := rfl
@[simp] theorem State.setGroupStatus_sched (s : State) (g : Nat) (ss : Session) (v : GroupStatus) : (s.setGroupStatus g ss v).sched = s.sched := rfl
@[simp] theorem State.setGroupStatus_gw (s : State) (g : Nat) (ss : Session) (v : GroupStatus) : (s.setGroupStatus g ss v).gw = s.gw := rfl
@[simp] theorem State.setGroupStatus_store (s : State) (g : Nat) (ss : Session) (v : GroupStatus) : (s.setGroupStatus g ss v).store = s.store := rfl
@[simp] theorem State.setGroupStatus_link (s : State) (g : Nat) (ss : Session) (v : GroupStatus) : (s.setGroupStatus g ss v).link = s.link := rfl
@[simp] theorem State.setGroupStatus_lamps (s : State) (g : Nat) (ss : Session) (v : GroupStatus) : (s.setGroupStatus g ss v).lamps = s.lamps := rfl
@[simp] theorem State.setGroupStatus_free (s : State) (g : Nat) (ss : Session) (v : GroupStatus) : (s.setGroupStatus g ss v).free = s.free := rfl
@[simp] theorem State.setGroupStatus_pending (s : State) (g : Nat) (ss : Session) (v : GroupStatus) : (s.setGroupStatus g ss v).pending = s.pending := rfl

@[simp] theorem State.setSession_clock (s : State) (t : Fin 4) (ss : Session) (v : Option SessState) : (s.setSession t ss v).clock = s.clock := rfl
@[simp] theorem State.setSession_set (s : State) (t : Fin 4) (ss : Session) (v : Option SessState) : (s.setSession t ss v).set = s.set := rfl
@[simp] theorem State.setSession_plan (s : State) (t : Fin 4) (ss : Session) (v : Option SessState) : (s.setSession t ss v).plan = s.plan := rfl
@[simp] theorem State.setSession_bells (s : State) (t : Fin 4) (ss : Session) (v : Option SessState) : (s.setSession t ss v).bells = s.bells := rfl
@[simp] theorem State.setSession_stations (s : State) (t : Fin 4) (ss : Session) (v : Option SessState) : (s.setSession t ss v).stations = s.stations := rfl
@[simp] theorem State.setSession_desk (s : State) (t : Fin 4) (ss : Session) (v : Option SessState) : (s.setSession t ss v).desk = s.desk := rfl
@[simp] theorem State.setSession_slips (s : State) (t : Fin 4) (ss : Session) (v : Option SessState) : (s.setSession t ss v).slips = s.slips := rfl
@[simp] theorem State.setSession_recon (s : State) (t : Fin 4) (ss : Session) (v : Option SessState) : (s.setSession t ss v).recon = s.recon := rfl
@[simp] theorem State.setSession_pool (s : State) (t : Fin 4) (ss : Session) (v : Option SessState) : (s.setSession t ss v).pool = s.pool := rfl
@[simp] theorem State.setSession_sched (s : State) (t : Fin 4) (ss : Session) (v : Option SessState) : (s.setSession t ss v).sched = s.sched := rfl
@[simp] theorem State.setSession_gw (s : State) (t : Fin 4) (ss : Session) (v : Option SessState) : (s.setSession t ss v).gw = s.gw := rfl
@[simp] theorem State.setSession_store (s : State) (t : Fin 4) (ss : Session) (v : Option SessState) : (s.setSession t ss v).store = s.store := rfl
@[simp] theorem State.setSession_link (s : State) (t : Fin 4) (ss : Session) (v : Option SessState) : (s.setSession t ss v).link = s.link := rfl
@[simp] theorem State.setSession_lamps (s : State) (t : Fin 4) (ss : Session) (v : Option SessState) : (s.setSession t ss v).lamps = s.lamps := rfl
@[simp] theorem State.setSession_free (s : State) (t : Fin 4) (ss : Session) (v : Option SessState) : (s.setSession t ss v).free = s.free := rfl
@[simp] theorem State.setSession_pending (s : State) (t : Fin 4) (ss : Session) (v : Option SessState) : (s.setSession t ss v).pending = s.pending := rfl

@[simp] theorem State.setTrack_clock (s : State) (t : Fin 4) (v : Track) : (s.setTrack t v).clock = s.clock := rfl
@[simp] theorem State.setTrack_set (s : State) (t : Fin 4) (v : Track) : (s.setTrack t v).set = s.set := rfl
@[simp] theorem State.setTrack_bells (s : State) (t : Fin 4) (v : Track) : (s.setTrack t v).bells = s.bells := rfl
@[simp] theorem State.setTrack_stations (s : State) (t : Fin 4) (v : Track) : (s.setTrack t v).stations = s.stations := rfl
@[simp] theorem State.setTrack_desk (s : State) (t : Fin 4) (v : Track) : (s.setTrack t v).desk = s.desk := rfl
@[simp] theorem State.setTrack_slips (s : State) (t : Fin 4) (v : Track) : (s.setTrack t v).slips = s.slips := rfl
@[simp] theorem State.setTrack_reg (s : State) (t : Fin 4) (v : Track) : (s.setTrack t v).reg = s.reg := rfl
@[simp] theorem State.setTrack_recon (s : State) (t : Fin 4) (v : Track) : (s.setTrack t v).recon = s.recon := rfl
@[simp] theorem State.setTrack_pool (s : State) (t : Fin 4) (v : Track) : (s.setTrack t v).pool = s.pool := rfl
@[simp] theorem State.setTrack_sched (s : State) (t : Fin 4) (v : Track) : (s.setTrack t v).sched = s.sched := rfl
@[simp] theorem State.setTrack_gw (s : State) (t : Fin 4) (v : Track) : (s.setTrack t v).gw = s.gw := rfl
@[simp] theorem State.setTrack_store (s : State) (t : Fin 4) (v : Track) : (s.setTrack t v).store = s.store := rfl
@[simp] theorem State.setTrack_link (s : State) (t : Fin 4) (v : Track) : (s.setTrack t v).link = s.link := rfl
@[simp] theorem State.setTrack_lamps (s : State) (t : Fin 4) (v : Track) : (s.setTrack t v).lamps = s.lamps := rfl
@[simp] theorem State.setTrack_free (s : State) (t : Fin 4) (v : Track) : (s.setTrack t v).free = s.free := rfl
@[simp] theorem State.setTrack_pending (s : State) (t : Fin 4) (v : Track) : (s.setTrack t v).pending = s.pending := rfl

@[simp] theorem State.setStation_clock (s : State) (n : Fin 6) (x : Station) : (s.setStation n x).clock = s.clock := rfl
@[simp] theorem State.setStation_set (s : State) (n : Fin 6) (x : Station) : (s.setStation n x).set = s.set := rfl
@[simp] theorem State.setStation_plan (s : State) (n : Fin 6) (x : Station) : (s.setStation n x).plan = s.plan := rfl
@[simp] theorem State.setStation_bells (s : State) (n : Fin 6) (x : Station) : (s.setStation n x).bells = s.bells := rfl
@[simp] theorem State.setStation_desk (s : State) (n : Fin 6) (x : Station) : (s.setStation n x).desk = s.desk := rfl
@[simp] theorem State.setStation_slips (s : State) (n : Fin 6) (x : Station) : (s.setStation n x).slips = s.slips := rfl
@[simp] theorem State.setStation_reg (s : State) (n : Fin 6) (x : Station) : (s.setStation n x).reg = s.reg := rfl
@[simp] theorem State.setStation_recon (s : State) (n : Fin 6) (x : Station) : (s.setStation n x).recon = s.recon := rfl
@[simp] theorem State.setStation_pool (s : State) (n : Fin 6) (x : Station) : (s.setStation n x).pool = s.pool := rfl
@[simp] theorem State.setStation_sched (s : State) (n : Fin 6) (x : Station) : (s.setStation n x).sched = s.sched := rfl
@[simp] theorem State.setStation_gw (s : State) (n : Fin 6) (x : Station) : (s.setStation n x).gw = s.gw := rfl
@[simp] theorem State.setStation_store (s : State) (n : Fin 6) (x : Station) : (s.setStation n x).store = s.store := rfl
@[simp] theorem State.setStation_link (s : State) (n : Fin 6) (x : Station) : (s.setStation n x).link = s.link := rfl
@[simp] theorem State.setStation_lamps (s : State) (n : Fin 6) (x : Station) : (s.setStation n x).lamps = s.lamps := rfl
@[simp] theorem State.setStation_free (s : State) (n : Fin 6) (x : Station) : (s.setStation n x).free = s.free := rfl
@[simp] theorem State.setStation_pending (s : State) (n : Fin 6) (x : Station) : (s.setStation n x).pending = s.pending := rfl

@[simp] theorem State.modMessage_clock (s : State) (n : Nat) (f : Message → Message) : (s.modMessage n f).clock = s.clock := rfl
@[simp] theorem State.modMessage_set (s : State) (n : Nat) (f : Message → Message) : (s.modMessage n f).set = s.set := rfl
@[simp] theorem State.modMessage_plan (s : State) (n : Nat) (f : Message → Message) : (s.modMessage n f).plan = s.plan := rfl
@[simp] theorem State.modMessage_bells (s : State) (n : Nat) (f : Message → Message) : (s.modMessage n f).bells = s.bells := rfl
@[simp] theorem State.modMessage_stations (s : State) (n : Nat) (f : Message → Message) : (s.modMessage n f).stations = s.stations := rfl
@[simp] theorem State.modMessage_desk (s : State) (n : Nat) (f : Message → Message) : (s.modMessage n f).desk = s.desk := rfl
@[simp] theorem State.modMessage_slips (s : State) (n : Nat) (f : Message → Message) : (s.modMessage n f).slips = s.slips := rfl
@[simp] theorem State.modMessage_reg (s : State) (n : Nat) (f : Message → Message) : (s.modMessage n f).reg = s.reg := rfl
@[simp] theorem State.modMessage_recon (s : State) (n : Nat) (f : Message → Message) : (s.modMessage n f).recon = s.recon := rfl
@[simp] theorem State.modMessage_sched (s : State) (n : Nat) (f : Message → Message) : (s.modMessage n f).sched = s.sched := rfl
@[simp] theorem State.modMessage_gw (s : State) (n : Nat) (f : Message → Message) : (s.modMessage n f).gw = s.gw := rfl
@[simp] theorem State.modMessage_store (s : State) (n : Nat) (f : Message → Message) : (s.modMessage n f).store = s.store := rfl
@[simp] theorem State.modMessage_link (s : State) (n : Nat) (f : Message → Message) : (s.modMessage n f).link = s.link := rfl
@[simp] theorem State.modMessage_lamps (s : State) (n : Nat) (f : Message → Message) : (s.modMessage n f).lamps = s.lamps := rfl
@[simp] theorem State.modMessage_free (s : State) (n : Nat) (f : Message → Message) : (s.modMessage n f).free = s.free := rfl
@[simp] theorem State.modMessage_pending (s : State) (n : Nat) (f : Message → Message) : (s.modMessage n f).pending = s.pending := rfl

@[simp] theorem State.enqueue_clock (s : State) (c : MsgClass) (n : Nat) : (s.enqueue c n).clock = s.clock := rfl
@[simp] theorem State.enqueue_set (s : State) (c : MsgClass) (n : Nat) : (s.enqueue c n).set = s.set := rfl
@[simp] theorem State.enqueue_plan (s : State) (c : MsgClass) (n : Nat) : (s.enqueue c n).plan = s.plan := rfl
@[simp] theorem State.enqueue_bells (s : State) (c : MsgClass) (n : Nat) : (s.enqueue c n).bells = s.bells := rfl
@[simp] theorem State.enqueue_stations (s : State) (c : MsgClass) (n : Nat) : (s.enqueue c n).stations = s.stations := rfl
@[simp] theorem State.enqueue_desk (s : State) (c : MsgClass) (n : Nat) : (s.enqueue c n).desk = s.desk := rfl
@[simp] theorem State.enqueue_slips (s : State) (c : MsgClass) (n : Nat) : (s.enqueue c n).slips = s.slips := rfl
@[simp] theorem State.enqueue_reg (s : State) (c : MsgClass) (n : Nat) : (s.enqueue c n).reg = s.reg := rfl
@[simp] theorem State.enqueue_recon (s : State) (c : MsgClass) (n : Nat) : (s.enqueue c n).recon = s.recon := rfl
@[simp] theorem State.enqueue_pool (s : State) (c : MsgClass) (n : Nat) : (s.enqueue c n).pool = s.pool := rfl
@[simp] theorem State.enqueue_gw (s : State) (c : MsgClass) (n : Nat) : (s.enqueue c n).gw = s.gw := rfl
@[simp] theorem State.enqueue_store (s : State) (c : MsgClass) (n : Nat) : (s.enqueue c n).store = s.store := rfl
@[simp] theorem State.enqueue_link (s : State) (c : MsgClass) (n : Nat) : (s.enqueue c n).link = s.link := rfl
@[simp] theorem State.enqueue_lamps (s : State) (c : MsgClass) (n : Nat) : (s.enqueue c n).lamps = s.lamps := rfl
@[simp] theorem State.enqueue_free (s : State) (c : MsgClass) (n : Nat) : (s.enqueue c n).free = s.free := rfl
@[simp] theorem State.enqueue_pending (s : State) (c : MsgClass) (n : Nat) : (s.enqueue c n).pending = s.pending := rfl

@[simp] theorem State.dequeue_clock (s : State) (c : MsgClass) (n : Nat) : (s.dequeue c n).clock = s.clock := rfl
@[simp] theorem State.dequeue_set (s : State) (c : MsgClass) (n : Nat) : (s.dequeue c n).set = s.set := rfl
@[simp] theorem State.dequeue_plan (s : State) (c : MsgClass) (n : Nat) : (s.dequeue c n).plan = s.plan := rfl
@[simp] theorem State.dequeue_bells (s : State) (c : MsgClass) (n : Nat) : (s.dequeue c n).bells = s.bells := rfl
@[simp] theorem State.dequeue_stations (s : State) (c : MsgClass) (n : Nat) : (s.dequeue c n).stations = s.stations := rfl
@[simp] theorem State.dequeue_desk (s : State) (c : MsgClass) (n : Nat) : (s.dequeue c n).desk = s.desk := rfl
@[simp] theorem State.dequeue_slips (s : State) (c : MsgClass) (n : Nat) : (s.dequeue c n).slips = s.slips := rfl
@[simp] theorem State.dequeue_reg (s : State) (c : MsgClass) (n : Nat) : (s.dequeue c n).reg = s.reg := rfl
@[simp] theorem State.dequeue_recon (s : State) (c : MsgClass) (n : Nat) : (s.dequeue c n).recon = s.recon := rfl
@[simp] theorem State.dequeue_pool (s : State) (c : MsgClass) (n : Nat) : (s.dequeue c n).pool = s.pool := rfl
@[simp] theorem State.dequeue_gw (s : State) (c : MsgClass) (n : Nat) : (s.dequeue c n).gw = s.gw := rfl
@[simp] theorem State.dequeue_store (s : State) (c : MsgClass) (n : Nat) : (s.dequeue c n).store = s.store := rfl
@[simp] theorem State.dequeue_link (s : State) (c : MsgClass) (n : Nat) : (s.dequeue c n).link = s.link := rfl
@[simp] theorem State.dequeue_lamps (s : State) (c : MsgClass) (n : Nat) : (s.dequeue c n).lamps = s.lamps := rfl
@[simp] theorem State.dequeue_free (s : State) (c : MsgClass) (n : Nat) : (s.dequeue c n).free = s.free := rfl
@[simp] theorem State.dequeue_pending (s : State) (c : MsgClass) (n : Nat) : (s.dequeue c n).pending = s.pending := rfl

@[simp] theorem State.countEnd_clock (s : State) (c : MsgClass) (f : EndCounts → EndCounts) : (s.countEnd c f).clock = s.clock := rfl
@[simp] theorem State.countEnd_set (s : State) (c : MsgClass) (f : EndCounts → EndCounts) : (s.countEnd c f).set = s.set := rfl
@[simp] theorem State.countEnd_plan (s : State) (c : MsgClass) (f : EndCounts → EndCounts) : (s.countEnd c f).plan = s.plan := rfl
@[simp] theorem State.countEnd_bells (s : State) (c : MsgClass) (f : EndCounts → EndCounts) : (s.countEnd c f).bells = s.bells := rfl
@[simp] theorem State.countEnd_stations (s : State) (c : MsgClass) (f : EndCounts → EndCounts) : (s.countEnd c f).stations = s.stations := rfl
@[simp] theorem State.countEnd_desk (s : State) (c : MsgClass) (f : EndCounts → EndCounts) : (s.countEnd c f).desk = s.desk := rfl
@[simp] theorem State.countEnd_slips (s : State) (c : MsgClass) (f : EndCounts → EndCounts) : (s.countEnd c f).slips = s.slips := rfl
@[simp] theorem State.countEnd_reg (s : State) (c : MsgClass) (f : EndCounts → EndCounts) : (s.countEnd c f).reg = s.reg := rfl
@[simp] theorem State.countEnd_recon (s : State) (c : MsgClass) (f : EndCounts → EndCounts) : (s.countEnd c f).recon = s.recon := rfl
@[simp] theorem State.countEnd_pool (s : State) (c : MsgClass) (f : EndCounts → EndCounts) : (s.countEnd c f).pool = s.pool := rfl
@[simp] theorem State.countEnd_sched (s : State) (c : MsgClass) (f : EndCounts → EndCounts) : (s.countEnd c f).sched = s.sched := rfl
@[simp] theorem State.countEnd_store (s : State) (c : MsgClass) (f : EndCounts → EndCounts) : (s.countEnd c f).store = s.store := rfl
@[simp] theorem State.countEnd_link (s : State) (c : MsgClass) (f : EndCounts → EndCounts) : (s.countEnd c f).link = s.link := rfl
@[simp] theorem State.countEnd_lamps (s : State) (c : MsgClass) (f : EndCounts → EndCounts) : (s.countEnd c f).lamps = s.lamps := rfl
@[simp] theorem State.countEnd_free (s : State) (c : MsgClass) (f : EndCounts → EndCounts) : (s.countEnd c f).free = s.free := rfl
@[simp] theorem State.countEnd_pending (s : State) (c : MsgClass) (f : EndCounts → EndCounts) : (s.countEnd c f).pending = s.pending := rfl

@[simp] theorem State.eraseOp_clock (s : State) (p : Nat) : (s.eraseOp p).clock = s.clock := rfl
@[simp] theorem State.eraseOp_set (s : State) (p : Nat) : (s.eraseOp p).set = s.set := rfl
@[simp] theorem State.eraseOp_plan (s : State) (p : Nat) : (s.eraseOp p).plan = s.plan := rfl
@[simp] theorem State.eraseOp_bells (s : State) (p : Nat) : (s.eraseOp p).bells = s.bells := rfl
@[simp] theorem State.eraseOp_stations (s : State) (p : Nat) : (s.eraseOp p).stations = s.stations := rfl
@[simp] theorem State.eraseOp_desk (s : State) (p : Nat) : (s.eraseOp p).desk = s.desk := rfl
@[simp] theorem State.eraseOp_slips (s : State) (p : Nat) : (s.eraseOp p).slips = s.slips := rfl
@[simp] theorem State.eraseOp_reg (s : State) (p : Nat) : (s.eraseOp p).reg = s.reg := rfl
@[simp] theorem State.eraseOp_recon (s : State) (p : Nat) : (s.eraseOp p).recon = s.recon := rfl
@[simp] theorem State.eraseOp_pool (s : State) (p : Nat) : (s.eraseOp p).pool = s.pool := rfl
@[simp] theorem State.eraseOp_sched (s : State) (p : Nat) : (s.eraseOp p).sched = s.sched := rfl
@[simp] theorem State.eraseOp_gw (s : State) (p : Nat) : (s.eraseOp p).gw = s.gw := rfl
@[simp] theorem State.eraseOp_link (s : State) (p : Nat) : (s.eraseOp p).link = s.link := rfl
@[simp] theorem State.eraseOp_lamps (s : State) (p : Nat) : (s.eraseOp p).lamps = s.lamps := rfl
@[simp] theorem State.eraseOp_free (s : State) (p : Nat) : (s.eraseOp p).free = s.free := rfl
@[simp] theorem State.eraseOp_pending (s : State) (p : Nat) : (s.eraseOp p).pending = s.pending := rfl

@[simp] theorem State.spoil_clock (s : State) (p : Nat) : (s.spoil p).clock = s.clock := rfl
@[simp] theorem State.spoil_set (s : State) (p : Nat) : (s.spoil p).set = s.set := rfl
@[simp] theorem State.spoil_plan (s : State) (p : Nat) : (s.spoil p).plan = s.plan := rfl
@[simp] theorem State.spoil_bells (s : State) (p : Nat) : (s.spoil p).bells = s.bells := rfl
@[simp] theorem State.spoil_stations (s : State) (p : Nat) : (s.spoil p).stations = s.stations := rfl
@[simp] theorem State.spoil_desk (s : State) (p : Nat) : (s.spoil p).desk = s.desk := rfl
@[simp] theorem State.spoil_slips (s : State) (p : Nat) : (s.spoil p).slips = s.slips := rfl
@[simp] theorem State.spoil_reg (s : State) (p : Nat) : (s.spoil p).reg = s.reg := rfl
@[simp] theorem State.spoil_recon (s : State) (p : Nat) : (s.spoil p).recon = s.recon := rfl
@[simp] theorem State.spoil_pool (s : State) (p : Nat) : (s.spoil p).pool = s.pool := rfl
@[simp] theorem State.spoil_sched (s : State) (p : Nat) : (s.spoil p).sched = s.sched := rfl
@[simp] theorem State.spoil_gw (s : State) (p : Nat) : (s.spoil p).gw = s.gw := rfl
@[simp] theorem State.spoil_link (s : State) (p : Nat) : (s.spoil p).link = s.link := rfl
@[simp] theorem State.spoil_lamps (s : State) (p : Nat) : (s.spoil p).lamps = s.lamps := rfl
@[simp] theorem State.spoil_free (s : State) (p : Nat) : (s.spoil p).free = s.free := rfl
@[simp] theorem State.spoil_pending (s : State) (p : Nat) : (s.spoil p).pending = s.pending := rfl

@[simp] theorem State.discardFrame_clock (s : State) : (s.discardFrame).clock = s.clock := rfl
@[simp] theorem State.discardFrame_set (s : State) : (s.discardFrame).set = s.set := rfl
@[simp] theorem State.discardFrame_plan (s : State) : (s.discardFrame).plan = s.plan := rfl
@[simp] theorem State.discardFrame_bells (s : State) : (s.discardFrame).bells = s.bells := rfl
@[simp] theorem State.discardFrame_stations (s : State) : (s.discardFrame).stations = s.stations := rfl
@[simp] theorem State.discardFrame_desk (s : State) : (s.discardFrame).desk = s.desk := rfl
@[simp] theorem State.discardFrame_slips (s : State) : (s.discardFrame).slips = s.slips := rfl
@[simp] theorem State.discardFrame_reg (s : State) : (s.discardFrame).reg = s.reg := rfl
@[simp] theorem State.discardFrame_recon (s : State) : (s.discardFrame).recon = s.recon := rfl
@[simp] theorem State.discardFrame_pool (s : State) : (s.discardFrame).pool = s.pool := rfl
@[simp] theorem State.discardFrame_sched (s : State) : (s.discardFrame).sched = s.sched := rfl
@[simp] theorem State.discardFrame_gw (s : State) : (s.discardFrame).gw = s.gw := rfl
@[simp] theorem State.discardFrame_store (s : State) : (s.discardFrame).store = s.store := rfl
@[simp] theorem State.discardFrame_lamps (s : State) : (s.discardFrame).lamps = s.lamps := rfl
@[simp] theorem State.discardFrame_free (s : State) : (s.discardFrame).free = s.free := rfl
@[simp] theorem State.discardFrame_pending (s : State) : (s.discardFrame).pending = s.pending := rfl

@[simp] theorem State.frameEnds_clock (s : State) : (s.frameEnds).clock = s.clock := rfl
@[simp] theorem State.frameEnds_set (s : State) : (s.frameEnds).set = s.set := rfl
@[simp] theorem State.frameEnds_plan (s : State) : (s.frameEnds).plan = s.plan := rfl
@[simp] theorem State.frameEnds_bells (s : State) : (s.frameEnds).bells = s.bells := rfl
@[simp] theorem State.frameEnds_stations (s : State) : (s.frameEnds).stations = s.stations := rfl
@[simp] theorem State.frameEnds_desk (s : State) : (s.frameEnds).desk = s.desk := rfl
@[simp] theorem State.frameEnds_slips (s : State) : (s.frameEnds).slips = s.slips := rfl
@[simp] theorem State.frameEnds_reg (s : State) : (s.frameEnds).reg = s.reg := rfl
@[simp] theorem State.frameEnds_recon (s : State) : (s.frameEnds).recon = s.recon := rfl
@[simp] theorem State.frameEnds_pool (s : State) : (s.frameEnds).pool = s.pool := rfl
@[simp] theorem State.frameEnds_sched (s : State) : (s.frameEnds).sched = s.sched := rfl
@[simp] theorem State.frameEnds_gw (s : State) : (s.frameEnds).gw = s.gw := rfl
@[simp] theorem State.frameEnds_store (s : State) : (s.frameEnds).store = s.store := rfl
@[simp] theorem State.frameEnds_lamps (s : State) : (s.frameEnds).lamps = s.lamps := rfl
@[simp] theorem State.frameEnds_free (s : State) : (s.frameEnds).free = s.free := rfl
@[simp] theorem State.frameEnds_pending (s : State) : (s.frameEnds).pending = s.pending := rfl

@[simp] theorem State.onZones_clock (s : State) (f : Fin 4 → Zone → Zone) : (s.onZones f).clock = s.clock := rfl
@[simp] theorem State.onZones_set (s : State) (f : Fin 4 → Zone → Zone) : (s.onZones f).set = s.set := rfl
@[simp] theorem State.onZones_plan (s : State) (f : Fin 4 → Zone → Zone) : (s.onZones f).plan = s.plan := rfl
@[simp] theorem State.onZones_stations (s : State) (f : Fin 4 → Zone → Zone) : (s.onZones f).stations = s.stations := rfl
@[simp] theorem State.onZones_desk (s : State) (f : Fin 4 → Zone → Zone) : (s.onZones f).desk = s.desk := rfl
@[simp] theorem State.onZones_slips (s : State) (f : Fin 4 → Zone → Zone) : (s.onZones f).slips = s.slips := rfl
@[simp] theorem State.onZones_reg (s : State) (f : Fin 4 → Zone → Zone) : (s.onZones f).reg = s.reg := rfl
@[simp] theorem State.onZones_recon (s : State) (f : Fin 4 → Zone → Zone) : (s.onZones f).recon = s.recon := rfl
@[simp] theorem State.onZones_pool (s : State) (f : Fin 4 → Zone → Zone) : (s.onZones f).pool = s.pool := rfl
@[simp] theorem State.onZones_sched (s : State) (f : Fin 4 → Zone → Zone) : (s.onZones f).sched = s.sched := rfl
@[simp] theorem State.onZones_gw (s : State) (f : Fin 4 → Zone → Zone) : (s.onZones f).gw = s.gw := rfl
@[simp] theorem State.onZones_store (s : State) (f : Fin 4 → Zone → Zone) : (s.onZones f).store = s.store := rfl
@[simp] theorem State.onZones_link (s : State) (f : Fin 4 → Zone → Zone) : (s.onZones f).link = s.link := rfl
@[simp] theorem State.onZones_lamps (s : State) (f : Fin 4 → Zone → Zone) : (s.onZones f).lamps = s.lamps := rfl
@[simp] theorem State.onZones_free (s : State) (f : Fin 4 → Zone → Zone) : (s.onZones f).free = s.free := rfl
@[simp] theorem State.onZones_pending (s : State) (f : Fin 4 → Zone → Zone) : (s.onZones f).pending = s.pending := rfl

@[simp] theorem State.endTracks_clock (s : State) : (s.endTracks).clock = s.clock := rfl
@[simp] theorem State.endTracks_set (s : State) : (s.endTracks).set = s.set := rfl
@[simp] theorem State.endTracks_bells (s : State) : (s.endTracks).bells = s.bells := rfl
@[simp] theorem State.endTracks_stations (s : State) : (s.endTracks).stations = s.stations := rfl
@[simp] theorem State.endTracks_desk (s : State) : (s.endTracks).desk = s.desk := rfl
@[simp] theorem State.endTracks_slips (s : State) : (s.endTracks).slips = s.slips := rfl
@[simp] theorem State.endTracks_reg (s : State) : (s.endTracks).reg = s.reg := rfl
@[simp] theorem State.endTracks_recon (s : State) : (s.endTracks).recon = s.recon := rfl
@[simp] theorem State.endTracks_pool (s : State) : (s.endTracks).pool = s.pool := rfl
@[simp] theorem State.endTracks_sched (s : State) : (s.endTracks).sched = s.sched := rfl
@[simp] theorem State.endTracks_gw (s : State) : (s.endTracks).gw = s.gw := rfl
@[simp] theorem State.endTracks_store (s : State) : (s.endTracks).store = s.store := rfl
@[simp] theorem State.endTracks_link (s : State) : (s.endTracks).link = s.link := rfl
@[simp] theorem State.endTracks_lamps (s : State) : (s.endTracks).lamps = s.lamps := rfl
@[simp] theorem State.endTracks_free (s : State) : (s.endTracks).free = s.free := rfl
@[simp] theorem State.endTracks_pending (s : State) : (s.endTracks).pending = s.pending := rfl

@[simp] theorem State.cancelAlerts_clock (s : State) : (s.cancelAlerts).clock = s.clock := rfl
@[simp] theorem State.cancelAlerts_set (s : State) : (s.cancelAlerts).set = s.set := rfl
@[simp] theorem State.cancelAlerts_plan (s : State) : (s.cancelAlerts).plan = s.plan := rfl
@[simp] theorem State.cancelAlerts_bells (s : State) : (s.cancelAlerts).bells = s.bells := rfl
@[simp] theorem State.cancelAlerts_stations (s : State) : (s.cancelAlerts).stations = s.stations := rfl
@[simp] theorem State.cancelAlerts_desk (s : State) : (s.cancelAlerts).desk = s.desk := rfl
@[simp] theorem State.cancelAlerts_slips (s : State) : (s.cancelAlerts).slips = s.slips := rfl
@[simp] theorem State.cancelAlerts_recon (s : State) : (s.cancelAlerts).recon = s.recon := rfl
@[simp] theorem State.cancelAlerts_pool (s : State) : (s.cancelAlerts).pool = s.pool := rfl
@[simp] theorem State.cancelAlerts_sched (s : State) : (s.cancelAlerts).sched = s.sched := rfl
@[simp] theorem State.cancelAlerts_gw (s : State) : (s.cancelAlerts).gw = s.gw := rfl
@[simp] theorem State.cancelAlerts_store (s : State) : (s.cancelAlerts).store = s.store := rfl
@[simp] theorem State.cancelAlerts_link (s : State) : (s.cancelAlerts).link = s.link := rfl
@[simp] theorem State.cancelAlerts_lamps (s : State) : (s.cancelAlerts).lamps = s.lamps := rfl
@[simp] theorem State.cancelAlerts_free (s : State) : (s.cancelAlerts).free = s.free := rfl
@[simp] theorem State.cancelAlerts_pending (s : State) : (s.cancelAlerts).pending = s.pending := rfl

@[simp] theorem State.detachAlerts_clock (s : State) : (s.detachAlerts).clock = s.clock := rfl
@[simp] theorem State.detachAlerts_set (s : State) : (s.detachAlerts).set = s.set := rfl
@[simp] theorem State.detachAlerts_plan (s : State) : (s.detachAlerts).plan = s.plan := rfl
@[simp] theorem State.detachAlerts_bells (s : State) : (s.detachAlerts).bells = s.bells := rfl
@[simp] theorem State.detachAlerts_stations (s : State) : (s.detachAlerts).stations = s.stations := rfl
@[simp] theorem State.detachAlerts_desk (s : State) : (s.detachAlerts).desk = s.desk := rfl
@[simp] theorem State.detachAlerts_slips (s : State) : (s.detachAlerts).slips = s.slips := rfl
@[simp] theorem State.detachAlerts_reg (s : State) : (s.detachAlerts).reg = s.reg := rfl
@[simp] theorem State.detachAlerts_recon (s : State) : (s.detachAlerts).recon = s.recon := rfl
@[simp] theorem State.detachAlerts_sched (s : State) : (s.detachAlerts).sched = s.sched := rfl
@[simp] theorem State.detachAlerts_gw (s : State) : (s.detachAlerts).gw = s.gw := rfl
@[simp] theorem State.detachAlerts_store (s : State) : (s.detachAlerts).store = s.store := rfl
@[simp] theorem State.detachAlerts_link (s : State) : (s.detachAlerts).link = s.link := rfl
@[simp] theorem State.detachAlerts_lamps (s : State) : (s.detachAlerts).lamps = s.lamps := rfl
@[simp] theorem State.detachAlerts_free (s : State) : (s.detachAlerts).free = s.free := rfl
@[simp] theorem State.detachAlerts_pending (s : State) : (s.detachAlerts).pending = s.pending := rfl

@[simp] theorem State.clearDeskStats_clock (s : State) : (s.clearDeskStats).clock = s.clock := rfl
@[simp] theorem State.clearDeskStats_set (s : State) : (s.clearDeskStats).set = s.set := rfl
@[simp] theorem State.clearDeskStats_plan (s : State) : (s.clearDeskStats).plan = s.plan := rfl
@[simp] theorem State.clearDeskStats_bells (s : State) : (s.clearDeskStats).bells = s.bells := rfl
@[simp] theorem State.clearDeskStats_stations (s : State) : (s.clearDeskStats).stations = s.stations := rfl
@[simp] theorem State.clearDeskStats_slips (s : State) : (s.clearDeskStats).slips = s.slips := rfl
@[simp] theorem State.clearDeskStats_reg (s : State) : (s.clearDeskStats).reg = s.reg := rfl
@[simp] theorem State.clearDeskStats_recon (s : State) : (s.clearDeskStats).recon = s.recon := rfl
@[simp] theorem State.clearDeskStats_pool (s : State) : (s.clearDeskStats).pool = s.pool := rfl
@[simp] theorem State.clearDeskStats_sched (s : State) : (s.clearDeskStats).sched = s.sched := rfl
@[simp] theorem State.clearDeskStats_gw (s : State) : (s.clearDeskStats).gw = s.gw := rfl
@[simp] theorem State.clearDeskStats_store (s : State) : (s.clearDeskStats).store = s.store := rfl
@[simp] theorem State.clearDeskStats_link (s : State) : (s.clearDeskStats).link = s.link := rfl
@[simp] theorem State.clearDeskStats_lamps (s : State) : (s.clearDeskStats).lamps = s.lamps := rfl
@[simp] theorem State.clearDeskStats_free (s : State) : (s.clearDeskStats).free = s.free := rfl
@[simp] theorem State.clearDeskStats_pending (s : State) : (s.clearDeskStats).pending = s.pending := rfl

@[simp] theorem State.clearPoolStats_clock (s : State) : (s.clearPoolStats).clock = s.clock := rfl
@[simp] theorem State.clearPoolStats_set (s : State) : (s.clearPoolStats).set = s.set := rfl
@[simp] theorem State.clearPoolStats_plan (s : State) : (s.clearPoolStats).plan = s.plan := rfl
@[simp] theorem State.clearPoolStats_bells (s : State) : (s.clearPoolStats).bells = s.bells := rfl
@[simp] theorem State.clearPoolStats_stations (s : State) : (s.clearPoolStats).stations = s.stations := rfl
@[simp] theorem State.clearPoolStats_desk (s : State) : (s.clearPoolStats).desk = s.desk := rfl
@[simp] theorem State.clearPoolStats_slips (s : State) : (s.clearPoolStats).slips = s.slips := rfl
@[simp] theorem State.clearPoolStats_reg (s : State) : (s.clearPoolStats).reg = s.reg := rfl
@[simp] theorem State.clearPoolStats_recon (s : State) : (s.clearPoolStats).recon = s.recon := rfl
@[simp] theorem State.clearPoolStats_sched (s : State) : (s.clearPoolStats).sched = s.sched := rfl
@[simp] theorem State.clearPoolStats_gw (s : State) : (s.clearPoolStats).gw = s.gw := rfl
@[simp] theorem State.clearPoolStats_store (s : State) : (s.clearPoolStats).store = s.store := rfl
@[simp] theorem State.clearPoolStats_link (s : State) : (s.clearPoolStats).link = s.link := rfl
@[simp] theorem State.clearPoolStats_lamps (s : State) : (s.clearPoolStats).lamps = s.lamps := rfl
@[simp] theorem State.clearPoolStats_free (s : State) : (s.clearPoolStats).free = s.free := rfl
@[simp] theorem State.clearPoolStats_pending (s : State) : (s.clearPoolStats).pending = s.pending := rfl

@[simp] theorem State.clearGwStats_clock (s : State) : (s.clearGwStats).clock = s.clock := rfl
@[simp] theorem State.clearGwStats_set (s : State) : (s.clearGwStats).set = s.set := rfl
@[simp] theorem State.clearGwStats_plan (s : State) : (s.clearGwStats).plan = s.plan := rfl
@[simp] theorem State.clearGwStats_bells (s : State) : (s.clearGwStats).bells = s.bells := rfl
@[simp] theorem State.clearGwStats_stations (s : State) : (s.clearGwStats).stations = s.stations := rfl
@[simp] theorem State.clearGwStats_desk (s : State) : (s.clearGwStats).desk = s.desk := rfl
@[simp] theorem State.clearGwStats_slips (s : State) : (s.clearGwStats).slips = s.slips := rfl
@[simp] theorem State.clearGwStats_reg (s : State) : (s.clearGwStats).reg = s.reg := rfl
@[simp] theorem State.clearGwStats_recon (s : State) : (s.clearGwStats).recon = s.recon := rfl
@[simp] theorem State.clearGwStats_pool (s : State) : (s.clearGwStats).pool = s.pool := rfl
@[simp] theorem State.clearGwStats_sched (s : State) : (s.clearGwStats).sched = s.sched := rfl
@[simp] theorem State.clearGwStats_store (s : State) : (s.clearGwStats).store = s.store := rfl
@[simp] theorem State.clearGwStats_link (s : State) : (s.clearGwStats).link = s.link := rfl
@[simp] theorem State.clearGwStats_lamps (s : State) : (s.clearGwStats).lamps = s.lamps := rfl
@[simp] theorem State.clearGwStats_free (s : State) : (s.clearGwStats).free = s.free := rfl
@[simp] theorem State.clearGwStats_pending (s : State) : (s.clearGwStats).pending = s.pending := rfl

@[simp] theorem State.tearPage_clock (s : State) (p : Nat) : (s.tearPage p).clock = s.clock := rfl
@[simp] theorem State.tearPage_set (s : State) (p : Nat) : (s.tearPage p).set = s.set := rfl
@[simp] theorem State.tearPage_plan (s : State) (p : Nat) : (s.tearPage p).plan = s.plan := rfl
@[simp] theorem State.tearPage_bells (s : State) (p : Nat) : (s.tearPage p).bells = s.bells := rfl
@[simp] theorem State.tearPage_stations (s : State) (p : Nat) : (s.tearPage p).stations = s.stations := rfl
@[simp] theorem State.tearPage_desk (s : State) (p : Nat) : (s.tearPage p).desk = s.desk := rfl
@[simp] theorem State.tearPage_slips (s : State) (p : Nat) : (s.tearPage p).slips = s.slips := rfl
@[simp] theorem State.tearPage_reg (s : State) (p : Nat) : (s.tearPage p).reg = s.reg := rfl
@[simp] theorem State.tearPage_recon (s : State) (p : Nat) : (s.tearPage p).recon = s.recon := rfl
@[simp] theorem State.tearPage_pool (s : State) (p : Nat) : (s.tearPage p).pool = s.pool := rfl
@[simp] theorem State.tearPage_sched (s : State) (p : Nat) : (s.tearPage p).sched = s.sched := rfl
@[simp] theorem State.tearPage_gw (s : State) (p : Nat) : (s.tearPage p).gw = s.gw := rfl
@[simp] theorem State.tearPage_link (s : State) (p : Nat) : (s.tearPage p).link = s.link := rfl
@[simp] theorem State.tearPage_lamps (s : State) (p : Nat) : (s.tearPage p).lamps = s.lamps := rfl
@[simp] theorem State.tearPage_pending (s : State) (p : Nat) : (s.tearPage p).pending = s.pending := rfl

@[simp] theorem State.followLamps_clock (s : State) (b : State) : (b.followLamps s).clock = s.clock := rfl
@[simp] theorem State.followLamps_set (s : State) (b : State) : (b.followLamps s).set = s.set := rfl
@[simp] theorem State.followLamps_plan (s : State) (b : State) : (b.followLamps s).plan = s.plan := rfl
@[simp] theorem State.followLamps_bells (s : State) (b : State) : (b.followLamps s).bells = s.bells := rfl
@[simp] theorem State.followLamps_stations (s : State) (b : State) : (b.followLamps s).stations = s.stations := rfl
@[simp] theorem State.followLamps_desk (s : State) (b : State) : (b.followLamps s).desk = s.desk := rfl
@[simp] theorem State.followLamps_slips (s : State) (b : State) : (b.followLamps s).slips = s.slips := rfl
@[simp] theorem State.followLamps_reg (s : State) (b : State) : (b.followLamps s).reg = s.reg := rfl
@[simp] theorem State.followLamps_recon (s : State) (b : State) : (b.followLamps s).recon = s.recon := rfl
@[simp] theorem State.followLamps_pool (s : State) (b : State) : (b.followLamps s).pool = s.pool := rfl
@[simp] theorem State.followLamps_sched (s : State) (b : State) : (b.followLamps s).sched = s.sched := rfl
@[simp] theorem State.followLamps_gw (s : State) (b : State) : (b.followLamps s).gw = s.gw := rfl
@[simp] theorem State.followLamps_store (s : State) (b : State) : (b.followLamps s).store = s.store := rfl
@[simp] theorem State.followLamps_link (s : State) (b : State) : (b.followLamps s).link = s.link := rfl
@[simp] theorem State.followLamps_free (s : State) (b : State) : (b.followLamps s).free = s.free := rfl
@[simp] theorem State.followLamps_pending (s : State) (b : State) : (b.followLamps s).pending = s.pending := rfl

@[simp] theorem State.setLamp_clock (s : State) (l : Fin 4) (e : LampCfg) : (s.setLamp l e).clock = s.clock := rfl
@[simp] theorem State.setLamp_plan (s : State) (l : Fin 4) (e : LampCfg) : (s.setLamp l e).plan = s.plan := rfl
@[simp] theorem State.setLamp_bells (s : State) (l : Fin 4) (e : LampCfg) : (s.setLamp l e).bells = s.bells := rfl
@[simp] theorem State.setLamp_stations (s : State) (l : Fin 4) (e : LampCfg) : (s.setLamp l e).stations = s.stations := rfl
@[simp] theorem State.setLamp_desk (s : State) (l : Fin 4) (e : LampCfg) : (s.setLamp l e).desk = s.desk := rfl
@[simp] theorem State.setLamp_slips (s : State) (l : Fin 4) (e : LampCfg) : (s.setLamp l e).slips = s.slips := rfl
@[simp] theorem State.setLamp_reg (s : State) (l : Fin 4) (e : LampCfg) : (s.setLamp l e).reg = s.reg := rfl
@[simp] theorem State.setLamp_recon (s : State) (l : Fin 4) (e : LampCfg) : (s.setLamp l e).recon = s.recon := rfl
@[simp] theorem State.setLamp_pool (s : State) (l : Fin 4) (e : LampCfg) : (s.setLamp l e).pool = s.pool := rfl
@[simp] theorem State.setLamp_sched (s : State) (l : Fin 4) (e : LampCfg) : (s.setLamp l e).sched = s.sched := rfl
@[simp] theorem State.setLamp_gw (s : State) (l : Fin 4) (e : LampCfg) : (s.setLamp l e).gw = s.gw := rfl
@[simp] theorem State.setLamp_store (s : State) (l : Fin 4) (e : LampCfg) : (s.setLamp l e).store = s.store := rfl
@[simp] theorem State.setLamp_link (s : State) (l : Fin 4) (e : LampCfg) : (s.setLamp l e).link = s.link := rfl
@[simp] theorem State.setLamp_free (s : State) (l : Fin 4) (e : LampCfg) : (s.setLamp l e).free = s.free := rfl
@[simp] theorem State.setLamp_pending (s : State) (l : Fin 4) (e : LampCfg) : (s.setLamp l e).pending = s.pending := rfl
@[simp] theorem State.setLamp_set (s : State) (l : Fin 4) (e : LampCfg) :
    (s.setLamp l e).set = { s.set with lamps := s.set.lamps.set l e } := rfl
@[simp] theorem State.setLamp_lamps (s : State) (l : Fin 4) (e : LampCfg) :
    (s.setLamp l e).lamps = { s.lamps with
      stretch := s.lamps.stretch.set l
        (followLamp (s.lampOn l) (s.lampSource e.source) e.stretch (s.lamps.stretch.get l)) } := rfl
/-- A lamp's stretch remaining by the two values of its source (R204). -/
theorem followLamp_eq (was now : Bool) (stretch left : Nat) :
    followLamp was now stretch left = if was = now then left else if was then stretch else 0 := by
  cases was <;> cases now <;> rfl
/-- No source is a lamp's entry or its stretch, so a new entry leaves every source's value (section 11.5). -/
@[simp] theorem State.setLamp_lampSource (s : State) (l : Fin 4) (e : LampCfg) (x : LampSource) :
    (s.setLamp l e).lampSource x = s.lampSource x := by cases x <;> rfl

/-- What writing a LAMPS entry can do (R204): refused with nothing written, or the lamp takes the entry it spells. -/
theorem writeLamp_cases (s : State) (i : Nat) (l : List Byte) :
    writeLamp s i l = refusedWith .badArg ∨
      ∃ (e : LampCfg) (clamped : Bool) (n : Fin 4), readLamp l = some (e, clamped) ∧ fin4? i = some n ∧
        writeLamp s i l = .ok (s.setLamp n e, clamped) := by
  unfold writeLamp
  split
  · exact .inr ⟨_, _, _, ‹_›, ‹_›, rfl⟩
  · exact .inl rfl

@[simp] theorem State.requestReset_clock (s : State) : s.requestReset.clock = s.clock := rfl
@[simp] theorem State.requestReset_lamps (s : State) :
    s.requestReset.lamps = { State.reset.lamps with phase := s.lamps.phase } := rfl
@[simp] theorem State.requestReset_pending (s : State) : s.requestReset.pending = s.pending := rfl

@[simp] theorem PlanIF.withLengths_start (p q : PlanIF) : (p.withLengths q).start = p.start := rfl
@[simp] theorem PlanIF.withLengths_grace (p q : PlanIF) : (p.withLengths q).grace = p.grace := rfl
@[simp] theorem PlanIF.withLengths_kAm (p q : PlanIF) : (p.withLengths q).kAm = p.kAm := rfl
@[simp] theorem PlanIF.withLengths_kPm (p q : PlanIF) : (p.withLengths q).kPm = p.kPm := rfl
@[simp] theorem PlanIF.withLengths_allowance (p q : PlanIF) : (p.withLengths q).allowance = p.allowance := rfl
@[simp] theorem PlanIF.withLengths_warning (p q : PlanIF) : (p.withLengths q).warning = p.warning := rfl

end Sys2Proof.Machine
end

