-- ==== Sys2Proof/Laws/Pool.lean ====
section
/-! SUPPORT. What the shared operations of the pool and the delivery do, each said once: an allocation, a free, a serve pass, a request,
and the blocks that none of them touches. -/

namespace Sys2Proof.Machine

theorem State.poolLeaves_refl (s : State) : s.poolLeaves s := by simp [State.poolLeaves]

theorem State.poolLeaves_trans {a b c : State} (h : a.poolLeaves b) (k : b.poolLeaves c) : a.poolLeaves c := by
  obtain ⟨⟨h1, h2, h3, h4, h5⟩, ⟨h6, h7, h8, h9⟩, ⟨h10, h11, h12⟩, ⟨h13, h14, h15, h16, h17⟩, ⟨h18, h19, h20, h21⟩, h22, h23⟩ := h
  obtain ⟨⟨k1, k2, k3, k4, k5⟩, ⟨k6, k7, k8, k9⟩, ⟨k10, k11, k12⟩, ⟨k13, k14, k15, k16, k17⟩, ⟨k18, k19, k20, k21⟩, k22, k23⟩ := k
  refine ⟨⟨k1.trans h1, k2.trans h2, k3.trans h3, k4.trans h4, k5.trans h5⟩, ⟨k6.trans h6, k7.trans h7, k8.trans h8, k9.trans h9⟩,
    ⟨k10.trans h10, k11.trans h11, k12.trans h12⟩,
    ⟨k13.trans h13, k14.trans h14, k15.trans h15, k16.trans h16, k17.trans h17⟩,
    ⟨k18.trans h18, k19.trans h19, k20.trans h20, k21.trans h21⟩, ?_, ?_⟩
  · rw [← h22, ← k22]
  · rw [← h23, ← k23]

/-- An allocation attempt (R139): from the shared store, from the reserve, or rejected. -/
theorem State.allocate_cases (s : State) (c : MsgClass) (k : Nat) :
    (1 ≤ s.pool.freeDesc ∧ k ≤ s.pool.freeSegs ∧ s.allocate c k = some (s.takeShared k, .shared k)) ∨
      (¬ (1 ≤ s.pool.freeDesc ∧ k ≤ s.pool.freeSegs) ∧ 1 ≤ s.pool.credits.get c ∧
        ∃ a : Nat, s.pool.freeArea = some a ∧ s.allocate c k = some (s.takeReserve c, .reserve a)) ∨
      (¬ (1 ≤ s.pool.freeDesc ∧ k ≤ s.pool.freeSegs) ∧ (s.pool.credits.get c = 0 ∨ s.pool.freeArea = none) ∧
        s.allocate c k = none) := by
  unfold State.allocate
  by_cases h : 1 ≤ s.pool.freeDesc ∧ k ≤ s.pool.freeSegs
  · exact .inl ⟨h.1, h.2, by simp [h]⟩
  · by_cases hc : 1 ≤ s.pool.credits.get c
    · cases ha : s.pool.freeArea with
      | none => exact .inr (.inr ⟨h, .inr rfl, by simp [h]⟩)
      | some a => exact .inr (.inl ⟨h, hc, a, rfl, by simp [h, hc]⟩)
    · exact .inr (.inr ⟨h, .inl (by omega), by simp [h, hc]⟩)

theorem State.takeShared_leaves (s : State) (k : Nat) : s.poolLeaves (s.takeShared k) := by
  simp [State.poolLeaves, State.takeShared]

theorem State.takeReserve_leaves (s : State) (c : MsgClass) : s.poolLeaves (s.takeReserve c) := by
  simp [State.poolLeaves, State.takeReserve, State.raise, HostLink.raise]

theorem State.allocate_leaves {s t : State} {c : MsgClass} {k : Nat} {st : Storage} (h : s.allocate c k = some (t, st)) :
    s.poolLeaves t := by
  rcases s.allocate_cases c k with ⟨_, _, e⟩ | ⟨_, _, a, _, e⟩ | ⟨_, _, e⟩ <;> rw [e] at h
  · obtain ⟨rfl, _⟩ := Prod.mk.inj (Option.some.inj h)
    exact s.takeShared_leaves k
  · obtain ⟨rfl, _⟩ := Prod.mk.inj (Option.some.inj h)
    exact s.takeReserve_leaves c
  · exact absurd h (by simp)

theorem State.addMessage_leaves (s : State) (c : MsgClass) (k : MsgKind) (st : Storage) (t : Text) (b : MsgBody) :
    s.poolLeaves (s.addMessage c k st t b) := by simp [State.poolLeaves, State.addMessage]

/-- A free returns what the message took (R143). -/
theorem State.release_leaves (s : State) (m : Message) : s.poolLeaves (s.release m) := by
  unfold State.release
  cases m.storage <;> simp [State.poolLeaves]

theorem State.enqueue_leaves (s : State) (c : MsgClass) (n : Nat) : s.poolLeaves (s.enqueue c n) := by
  cases c <;> simp [State.poolLeaves, State.enqueue, Scheduler.setQueue]

theorem State.dequeue_leaves (s : State) (c : MsgClass) (n : Nat) : s.poolLeaves (s.dequeue c n) := by
  cases c <;> simp [State.poolLeaves, State.dequeue, Scheduler.setQueue]

theorem State.countEnd_leaves (s : State) (c : MsgClass) (f : EndCounts → EndCounts) : s.poolLeaves (s.countEnd c f) := by
  simp [State.poolLeaves, State.countEnd]

theorem State.modRec_leaves (s : State) (p : Nat) (ss : Session) (f : Rec → Rec) : s.poolLeaves (s.modRec p ss f) := by
  simp [State.poolLeaves, State.modRec, State.putRec]

theorem State.raise_leaves (s : State) (c : Condition) : s.poolLeaves (s.raise c) := by
  simp [State.poolLeaves, State.raise, HostLink.raise]

/-- The numbers that a recall keeps beside the state do not touch it. -/
theorem foldl_recallNext_fst (l : List Submission) (x : State × List Nat) :
    (l.foldl recallNext x).1 = l.foldl State.recallOne x.1 := by
  induction l generalizing x with
  | nil => rfl
  | cons b l ih => exact ih (recallNext x b)

/-- R153: a recall recalls the submissions one by one, and then puts the numbers kept at the heads of the class queues. -/
theorem recall_eq (s : State) (l : List Submission) :
    ∃ ns : List Nat, s.recall l = msgClasses.foldl (fun t c => t.headOfQueue c ns) (l.foldl State.recallOne s) :=
  ⟨(l.foldl recallNext (s, [])).2, by rw [← foldl_recallNext_fst l (s, [])]; rfl⟩

@[simp] theorem headOfQueue_pool (s : State) (c : MsgClass) (ns : List Nat) : (s.headOfQueue c ns).pool = s.pool := rfl
@[simp] theorem headOfQueue_reg (s : State) (c : MsgClass) (ns : List Nat) : (s.headOfQueue c ns).reg = s.reg := rfl
@[simp] theorem headOfQueue_gw (s : State) (c : MsgClass) (ns : List Nat) : (s.headOfQueue c ns).gw = s.gw := rfl

end Sys2Proof.Machine
end

