-- ==== Sys2Proof/Tests/Slice0.lean ====
section
/-! SUPPORT. The model's own tests: ill-formed commands refused, worked figures of the spec, and for each statement with hypotheses a
state and operands that meet them. -/

namespace Sys2Proof.Tests

open Sys2Proof Sys2Proof.Machine

/-! ## States to test on -/

/-- The part after the settings load of a blank store. -/
def live : State := { State.reset with link := { State.reset.link with loading := false } }

/-- A day that is open on 02/09/2024 at 09:00:00, every track on the factory plan. -/
def openDay : State :=
  let p : PlanIF :=
    { start := 520
      segs := (factoryPlan 0).segs.map fun g => ⟨g, g.nominal, false⟩
      grace := 5
      kAm := 20
      kPm := 15
      allowance := 5
      warning := 2 }
  { live with
    clock := ⟨⟨2, 9, 2024⟩, 0, 32400, true⟩
    plan := ⟨.opened, some ⟨2, 9, 2024⟩, Quad.all ⟨.planned, some .normal, 0, 0, some p⟩, false⟩
    reg.sess := Quad.all ⟨some .opened, some .before⟩ }

/-- Pupil 3 in use, in group 0. -/
def pupil3 : Pupil := ⟨true, 4, 77, [0x41#8], 0⟩

def school : State := { openDay with set.pupils := [(3, pupil3)] }

def sender : Recipient := ⟨0, [0x31#8], .text, none⟩

def notice (st : OutState) : Outbound := ⟨.pupil 3 .am, [sender], ⟨0, false, 0⟩, st, some 60, false⟩

def alert (st : OutState) : Outbound := ⟨.pupil 3 .am, [sender], ⟨0, false, 0⟩, st, none, false⟩

def message (c : MsgClass) (k : MsgKind) (b : MsgBody) : Message := ⟨1, c, k, .shared 1, ⟨⟨1, 1, 2000⟩, 0⟩, [0x41#8], b⟩

/-- A pool that holds one message, numbered 1. -/
def holding (m : Message) : State := { live with pool.msgs := [m], pool.freeDesc := 47, pool.freeSegs := 95, pool.nextNum := 2 }

def noticeIn (st : OutState) : State := holding (message .notice .officeNotice (.out (notice st)))

def alertIn (st : OutState) : State := holding (message .alert .absenceAlert (.out (alert st)))

def kept : KeepReasons := ⟨false, true, false, false, false⟩

def reportIn : State := holding (message .report .unmatchedReport (.report ⟨[0x31#8], some kept, []⟩))

def frame : OutFrame := ⟨false, 0x81, 1, []⟩

/-- A next state, to look at. -/
def after (o : Outcome) : State :=
  match o with
  | .next s => s
  | .fault _ => State.reset
  | .refused _ => State.reset

/-! ## Ill-formed commands -/

theorem test_wellFormed_tag : Instr.wellFormed (.hello 256) = false := by decide
theorem test_wellFormed_byte : Instr.wellFormed (.reset 1 256) = false := by decide
theorem test_wellFormed_word : Instr.wellFormed (.tableSelect 1 0 65536 0) = false := by decide
theorem test_wellFormed_set : Instr.wellFormed (.attentionMask 1 16777216) = false := by decide
theorem test_wellFormed_long : Instr.wellFormed (.pupilFind 1 0 4294967296) = false := by decide
theorem test_wellFormed_date : Instr.wellFormed (.clockSet 1 ⟨1, 1, 256⟩ ⟨0, 0, 0⟩) = false := by decide
theorem test_wellFormed_time : Instr.wellFormed (.deskArrival 1 0 1 (some ⟨0, 256, 0⟩)) = false := by decide
theorem test_wellFormed_quad : Instr.wellFormed (.dayOpen 1 ⟨1, 1, 0⟩ ⟨0, 0, 256, 0⟩ none) = false := by decide
theorem test_wellFormed_delays : Instr.wellFormed (.dayOpen 1 ⟨1, 1, 0⟩ ⟨0, 0, 0, 0⟩ (some ⟨0, 0, 0, 256⟩)) = false := by
  decide
theorem test_wellFormed_entry : Instr.wellFormed (.registerSubmit 1 0 0 [⟨1, 256, 0⟩]) = false := by decide
set_option maxRecDepth 4000 in
theorem test_wellFormed_body : Instr.wellFormed (.tableWrite 1 (List.replicate 241 0)) = false := by decide
theorem test_wellFormed_known_kind : Instr.wellFormed (.unknownKind 1 0x42) = false := by decide
theorem test_wellFormed_length_error : Instr.wellFormed (.hostLengthError 240) = false := by decide
theorem test_wellFormed_segment : Instr.wellFormed (.segmentBegin 0 12) = false := by decide
theorem test_wellFormed_pupil : Instr.wellFormed (.alertDue 2400 .am) = false := by decide
theorem test_wellFormed_bell : Instr.wellFormed (.bellEventDue 0 (.segment 12)) = false := by decide
theorem test_wellFormed_record : Instr.wellFormed (.arrivalRecord 0 0 0 4294967296 0) = false := by decide
theorem test_wellFormed_position : Instr.wellFormed (.waitEntryExpiry 32) = false := by decide
theorem test_wellFormed_number : Instr.wellFormed (.retryDelay 0) = false := by decide
theorem test_wellFormed_accepts : Instr.wellFormed (.lampForce 255 4 2) = true := by decide

/-! ## Figures of the spec -/

/-- R59's table. -/
theorem test_divisors : divisorFor 115200 = some 0 ∧ divisorFor 57600 = some 1 ∧ divisorFor 38400 = some 2 := by decide

/-- R138's table. -/
theorem test_segments : [0, 48, 49, 100, 160, 200, 241, 288].map segmentsFor = [1, 1, 2, 3, 4, 5, 6, 6] := by decide

/-- The worked example of a delayed opening (02): the lengths that a delay of 75 leaves of the factory plan. -/
theorem test_delayed_opening :
    (match buildTrack (factoryPlan 0) none 75 0 25800 with
      | .ok t => (t.plan.map fun p => p.segs.map (·.len)).getD []
      | .error _ => []) = [10, 48, 47, 14, 47, 36, 47, 46] := by decide

/-- R17: the day after 31/12/2099, and 2024's leap day. -/
theorem test_calendar :
    Date.next ⟨31, 12, 2099⟩ = ⟨1, 1, 2000⟩ ∧ Date.next ⟨28, 2, 2024⟩ = ⟨29, 2, 2024⟩ ∧
      Date.weekday ⟨9, 5, 2024⟩ = 3 := by decide

/-- R135, R137: what the pool holds after reset. -/
theorem test_pool_reset :
    State.reset.pool.freeDesc = 48 ∧ State.reset.pool.freeSegs = 96 ∧ State.reset.pool.credits = ⟨6, 3, 5, 2⟩ := by decide

/-- R100: a register X on a P of the register, and on a P of the desk. -/
theorem test_register_x_on_p :
    registerCell .x .p (some .register) = .take .x 0 ∧ registerCell .x .p (some .desk) = .clash := by decide

/-- The worked example of the weekly tally (06): 26 minutes and a count of 2, then L13. -/
theorem test_tally : Tally.adjust ⟨2, 26, false⟩ .nothing 0 .l 13 = ⟨3, 39, false⟩ := by decide

/-- R164: an ABSENT report with a code and a date. "ABSENT 1807 16/05" on 14/05/2024. -/
theorem test_parse_absent :
    parseText ⟨14, 5, 2024⟩
      [0x41#8, 0x42#8, 0x53#8, 0x45#8, 0x4E#8, 0x54#8, 0x20#8, 0x31#8, 0x38#8, 0x30#8, 0x37#8, 0x20#8, 0x31#8, 0x36#8,
        0x2F#8, 0x30#8, 0x35#8] = .absence (some 1807) ⟨16, 5, 2024⟩ false := by decide

/-- R211: REGISTER SUBMIT's kind. -/
theorem test_request_kind : Request.kind (.registerSubmit 15 0 [⟨812, 4, 0⟩]) = 0x28 := by decide

/-- R195, R211: HELLO is answered at once, with kind 81h, its tag, OK and the identity 0F24h. -/
theorem test_hello :
    ((after (exec (.hello 7) live)).link.sending.map fun f => (f.kind, f.tag, f.body.take 3)) =
      some (0x81, 7, [0x00#8, 0x0F#8, 0x24#8]) := by decide

/-- R195: a kind that names no request is answered FEh, UNKNOWN_KIND. -/
theorem test_unknown_kind :
    (after (exec (.unknownKind 9 0x7F) live)).link.sending = some ⟨false, 0xFE, 9, [0x11#8]⟩ := by decide

/-- R200, R204: of two LAMPS entries over one index each acts at once. GATEWAY_LINK_DOWN, true, gives way to OFF with a stretch of 5, which
the second entry, OFF with a stretch of 1, leaves running. -/
theorem test_lamp_entries_in_order :
    let s : State := { live with set.lamps.q2 := ⟨.gatewayLinkDown, .solid, 0⟩, link.cursor := ⟨.lamps, 2, .still⟩ }
    let t := after (exec (.tableWrite 1 [2#8, 0#8, 0#8, 5#8, 0#8, 0#8, 1#8]) s)
    s.lampOn 2 = true ∧ t.lamps.stretch.get 2 = 5 ∧ (t.set.lamps.get 2).stretch = 1 := by decide

/-- R208: frames wait until the settings load has ended. -/
theorem test_load_waits : (after (exec (.hello 7) State.reset)).link.queue.length = 1 := by decide

/-! ## Witnesses of the statements' hypotheses -/

def isOk {α β : Type} (x : Except α β) : Bool :=
  match x with
  | .ok _ => true
  | .error _ => false

theorem witness_ready : live.ready := by decide

theorem witness_step :
    ({ live with pending := [.storeStatus 1] } : State).pending = .storeStatus 1 :: [] ∧ live.pending = [] := by decide

theorem witness_no_submission : live.gw.up = false := by decide

theorem witness_submission :
    let b : State := { noticeIn .queued with gw.up := true, gw.window := some ⟨1, true⟩, sched.noticeQ := [1] }
    let c : State := { alertIn .queued with gw.up := true, gw.window := some ⟨1, true⟩, sched.alertQ := [1] }
    b.gw.up = true ∧ b.gw.window = some ⟨b.sched.out.length + 1, true⟩ ∧
      b.message 1 = some (message .notice .officeNotice (.out (notice .queued))) ∧
      (notice .queued).recipients[(notice .queued).cursor.recipient]? = some sender ∧
      b.sched.alertQ = [] ∧ b.sched.noticeQ.head? = some 1 ∧ b.gw.sending = none ∧
      c.message 1 = some (message .alert .absenceAlert (.out (alert .queued))) ∧ c.sched.alertQ.head? = some 1 ∧
      (alert .queued).subject = .pupil 3 .am := by decide

set_option maxRecDepth 4000 in
theorem witness_requests :
    Request.ok (.attentionMask 16777215) = true ∧ Request.ok (.tableWrite (List.replicate 240 0)) = true ∧
      Request.ok (.unknownKind 0x7F) = true := by decide

theorem witness_frames :
    live.link.asm = none ∧ (255 : Nat) < 256 ∧ Request.ok (.reset 90) = true ∧
      Instr.request? (.reset 255 90) = some (255, .reset 90) ∧ Instr.wellFormed (.reset 255 90) = true ∧
      sum256 (b1 1 ++ b1 4 ++ b1 255 ++ b1 90 ++ [0xA2#8]) = 0 ∧ sum256 (b1 1 ++ b1 4 ++ b1 255 ++ b1 90 ++ [0#8]) ≠ 0 := by
  decide

theorem witness_frame_errors :
    let inside : State := { live with link.asm := some [] }
    live.link.asm = none ∧ inside.link.asm = some [] ∧ 240 < 241 ∧
      ({ live.link with out := [⟨true, 0xFF, 0, []⟩] } : HostLink).out.any (·.notice) = true ∧
      live.link.out.any (·.notice) = false ∧ live.link.sending = none ∧
      ({ live.link with sending := some frame } : HostLink).sending ≠ none := by decide

theorem witness_characters :
    let inside : State := { live with link.asm := some [] }
    let more : State := { live with link.asm := some [240#8] }
    inside.link.asm = some [] ∧ 240 < (241#8 : Byte).toNat ∧ more.link.asm = some (240#8 :: []) ∧
      (240#8 : Byte).toNat ≤ 240 ∧ ([] : List Byte).length + 2 < (240#8 : Byte).toNat + 4 ∧ (0xA4#8 : Byte) ≠ 0xA5#8 := by decide

theorem witness_waiting :
    let busy : State := { live with link.hand := some ⟨1, 1, false⟩, link.queue := List.replicate 3 ⟨1, .hello⟩ }
    let full : State := { State.reset with link.queue := List.replicate 4 ⟨1, .hello⟩ }
    busy.link.hand ≠ none ∧ busy.link.queue.length < 4 ∧ full.link.loading = true ∧ 4 ≤ full.link.queue.length ∧
      Instr.request? (.hello 1) = some (1, .hello) := by decide

theorem witness_frame_sent :
    let notice : OutFrame := ⟨true, 0xFF, 0, []⟩
    let a : State := { live with link.sending := some notice }
    let b : State := { live with link.sending := some frame, link.queue := [⟨1, .hello⟩] }
    a.link.sending = some notice ∧ notice.notice = true ∧ b.link.sending = some frame ∧ frame.notice = false ∧
      b.link.resetPending = false ∧ b.link.loading = false ∧ b.link.queue = ⟨1, .hello⟩ :: [] ∧ live.link.queue = [] := by
  decide

theorem witness_mask : live.ready ∧ 2 ^ 20 - 1 < 2 ^ 20 ∧ 2 ^ 20 ≤ 2 ^ 20 := by decide

theorem witness_lamps :
    live.ready ∧ 2 < 3 ∧ 4 < 5 ∧ 3 ≤ 3 ∧
      ({ live with set.lamps.q0.source := .gatewayLinkDown } : State).lampOn 0 = true ∧ live.lampOn 0 = false := by decide

theorem witness_reset :
    let s : State := { live with link.sending := some frame, link.resetPending := true }
    s.link.sending = some frame ∧ frame.notice = false ∧ s.link.resetPending = true ∧ live.ready ∧ 91 ≠ 90 := by decide

theorem witness_load :
    State.reset.link.loading = true ∧ State.reset.link.hand = none ∧ State.reset.link.queue = [] ∧
      State.reset.pool.msgs = [] ∧ State.reset.sched = Scheduler.initial ∧ State.reset.recon.waits = [] ∧
      State.reset.reg.recs = [] ∧ live.link.loading = false ∧ 255 ∉ live.store.spoiled := by decide

set_option maxRecDepth 4000 in
theorem witness_bad_bodies :
    live.ready ∧ (List.replicate 240 (0#8 : Byte)).length ≤ 240 ∧ (List.replicate 240 (0#8 : Byte)).length ∉ [6] ∧
      (List.replicate 10 (0#8 : Byte)).length ∉ [7, 11] ∧ [0#8].length ∉ [0] ∧
      decodeRequest 0x10 (List.replicate 240 0) = .badBody 0x10 ∧ decodeRequest 0x0A [] ≠ .badBody 0x0A ∧
      [0#8].length < 2 ∧ (List.replicate 7 (0#8 : Byte)).length % 4 ≠ 2 ∧ (2#8 : Byte).toNat ≠ [0x31#8].length ∧
      ([] : List Byte).length < 5 ∧ [0x41#8] ≠ [] ∧ 255 < 256 := by decide

theorem witness_table :
    TableName.ofCode 0 = some .pupils ∧ StepMode.ofCode 2 = some .write ∧ TableName.pupils.first ≤ 2399 ∧
      2399 < TableName.pupils.first + TableName.pupils.entries ∧
      TableName.pupils.first + TableName.pupils.entries ≤ 2400 ∧ 9 ≤ 9 ∧ 3 ≤ 3 ∧
      1 ≤ live.link.cursor.table.perRequest ∧ live.link.cursor.table.perRequest < 250 := by decide

theorem witness_group_write :
    let s : State := { live with link.cursor := ⟨.groups, 119, .both⟩ }
    let t : State := { s with plan.dayState := .opened }
    let e : Group := ⟨[0x37#8, 0x41#8], 1, 3, true⟩
    s.ready ∧ t.ready ∧ s.link.cursor = ⟨.groups, 119, .both⟩ ∧ 119 < 120 ∧ e.code.length ≤ 6 ∧
      e.code.all printable = true ∧ s.store.job = .idle ∧ s.plan.dayState = .closed ∧ t.plan.dayState ≠ .closed ∧
      (t.group 119).track ≠ e.track ∧ ({ s with store.job := .save .clearCheck 0 } : State).store.job = .save .clearCheck 0 := by
  decide

theorem witness_clock :
    let d : Date := ⟨2, 9, 24 + 2000⟩
    openDay.ready ∧ openDay.clock.isSet = true ∧ openDay.plan.dayState ≠ .closed ∧ d = openDay.clock.date ∧
      d.valid = true ∧ live.clock.isSet = false ∧ Date.valid ⟨29, 2, 2023⟩ = false ∧
      32400 < 9 * 3600 + 2 * 60 ∧ 9 * 3600 + 2 * 60 ≤ 32400 + 120 ∧ 8 * 3600 + 58 * 60 + 120 ≤ 32400 ∧
      32400 + 120 < 9 * 3600 + 2 * 60 + 1 := by decide

theorem witness_midnight :
    openDay.plan.dayState = .opened ∧ openDay.store.job = .idle ∧ live.plan.dayState = .closed ∧
      ({ openDay with clock.date := ⟨31, 12, 2099⟩ } : State).clock.date = ⟨31, 12, 2099⟩ ∧
      ({ openDay with plan.dayState := .opening } : State).plan.dayState = .opening ∧
      ({ openDay with clock.secs := 86399 } : State).clock.secs = 86399 ∧
      ({ openDay with store.job := .save .clearCheck 0 } : State).store.job = .save .clearCheck 0 := by decide

theorem witness_tracks :
    (openDay.plan.tracks.get 3).plan.isSome = true ∧ openDay.plan.dayState = .opened ∧
      openDay.plan.dayDate = some openDay.clock.date ∧ (openDay.plan.tracks.get 3).state ≠ .ended ∧
      7 < ((openDay.plan.tracks.get 3).plan.map (·.segs.length)).getD 0 ∧
      (({ openDay with reg.recs := [(0, { Rec.cleared with mark := .n, alert := .withheld })] } : State).record 0 .am).alert =
        .withheld := by decide

theorem witness_compression :
    let g : SegIF := ⟨⟨.lesson, 60, 40, true, .change, false, none⟩, 60, false⟩
    (∀ x ∈ [g], x.seg.minimum ≤ x.len) ∧ 21 > (60 - 40) ∧ 20 ≤ 60 - 40 := by decide

theorem witness_plan :
    (∀ g ∈ (factoryPlan 0).segs, g.minimum ≤ g.nominal) ∧
      (match buildTrack (factoryPlan 0) none 120 0 0 with
        | .ok _ => true
        | .error _ => false) = true := by decide

theorem witness_day_open :
    let s : State := { live with clock := ⟨⟨2, 9, 2024⟩, 0, 25800, true⟩ }
    s.ready ∧ s.clock.isSet = true ∧ s.plan.dayState = .closed ∧ s.store.job = .idle ∧ s.store.waitingRead = none ∧
      s.pool.msgs = [] ∧ s.recon.advance = [] ∧ (⟨2, 9, 24 + 2000⟩ : Date) = s.clock.date ∧ s.clock.date.valid = true ∧
      s.clock.secs < ((s.storedPlan 0).start + 75) * 60 ∧
      (match buildTrack (s.storedPlan 0) (DayKind.ofCode 0) 75 0 s.clock.secs with
        | .ok _ => true
        | .error _ => false) = true ∧
      (match buildTrack (s.storedPlan 0) (DayKind.ofCode 0) 121 0 s.clock.secs with
        | .ok _ => none
        | .error n => some n) = some 1 ∧
      live.clock.isSet = false ∧ openDay.plan.dayState ≠ .closed := by decide

theorem witness_plan_query :
    let s : State := { openDay with clock.secs := 25800 }
    let r : State := { openDay with plan.tracks := openDay.plan.tracks.map fun t => { t with state := .running } }
    let p := nominalPlan (factoryPlan 0)
    openDay.ready ∧ (openDay.plan.tracks.get 0).plan.isSome = true ∧ (live.plan.tracks.get 0).plan = none ∧ 4 ≤ 4 ∧ s.ready ∧
      (s.plan.tracks.get 0).plan = some p ∧ (s.plan.tracks.get 0).state = .planned ∧ s.plan.dayState = .opened ∧
      (s.plan.tracks.get 0).early + 120 ≤ 240 ∧ 240 < (s.plan.tracks.get 0).early + 241 ∧
      isOk (buildTrack (baseOf p) (some .normal) 0 120 s.clock.secs) = true ∧
      isOk (buildTrack (baseOf p) (some .normal) 0 121 s.clock.secs) = false ∧ (r.plan.tracks.get 0).state = .running ∧
      isOk (compress 120 (fun g => g.seg.compressible && !g.begun) p.segs) = true ∧
      isOk (compress 121 (fun g => g.seg.compressible && !g.begun) p.segs) = false ∧
      ({ openDay with plan.dayState := .closing } : State).plan.dayState ≠ .opened := by decide

theorem witness_delay :
    let s : State := { openDay with clock.secs := 25800 }
    s.ready ∧ s.plan.dayState = .opened ∧ (s.plan.tracks.get 0).state = .planned ∧
      s.clock.secs < (520 + 0) * 60 ∧ (s.plan.tracks.get 0).early + 240 ≤ 240 ∧ 240 < (s.plan.tracks.get 0).early + 241 ∧
      live.ready ∧ (live.plan.tracks.get 0).plan = none ∧ live.plan.dayState = .closed ∧
      (live.plan.tracks.get 0).early + 0 ≤ 240 ∧ (520 + 0) * 60 ≤ openDay.clock.secs := by decide

/-- A zone with a pending bell of the day end. -/
def bell (o : BellOutcome) : BellEvent := ⟨.dayEnd, .dayEnd, 890, o, none, none, false⟩

theorem witness_bells :
    let z : Zone := { Zone.initial with list := [bell .pending] }
    let s : State := { live with bells := Quad.all z }
    let r : State := { live with bells := Quad.all { z with act := .ringing .manual } }
    let c : State := { live with bells := Quad.all { z with act := .checking } }
    (s.bells.get 0).list = [] ++ bell .pending :: [] ∧ (bell .pending).source = .dayEnd ∧
      (bell .pending).outcome = .pending ∧ (s.bells.get 0).act = .idle ∧ (r.bells.get 0).act = .ringing .manual ∧
      (c.bells.get 0).act = .checking ∧ (∀ e ∈ (live.bells.get 0).list, e.source = .dayEnd → e.outcome ≠ .pending) := by decide

theorem witness_ring_end :
    let w : BellEvent := ⟨.segment 0, .start, 520, .waiting, none, none, false⟩
    let z : Zone := { Zone.initial with act := .ringing (.event .dayEnd .dayEnd), list := [bell .ringing, w] }
    let s : State := { live with bells := Quad.all z }
    let m : State := { live with bells := Quad.all { Zone.initial with act := .ringing .manual, kept := [w], manualPending := true } }
    let k : State := { live with bells := Quad.all { Zone.initial with act := .ringing (.kept .start), autoRequest := true } }
    (s.bells.get 0).act = .ringing (.event .dayEnd .dayEnd) ∧ (s.bells.get 0).kept = [] ∧
      (s.bells.get 0).list = [] ++ bell .ringing :: [w] ∧ (bell .ringing).source = .dayEnd ∧
      (s.bells.get 0).manualPending = false ∧ w.outcome = .waiting ∧
      (∀ f ∈ [] ++ bell .ringing :: [], f.outcome ≠ .waiting ∧ f.source ≠ w.source) ∧
      (m.bells.get 0).act = .ringing .manual ∧ (m.bells.get 0).kept = w :: [] ∧ (m.bells.get 0).manualPending = true ∧
      (k.bells.get 0).act = .ringing (.kept .start) ∧ (k.bells.get 0).kept = [] ∧ (k.bells.get 0).autoRequest = true ∧
      (∀ f ∈ (k.bells.get 0).list, f.outcome ≠ .waiting) := by decide

theorem witness_ring_faults :
    let s : State := { live with bells := Quad.all { Zone.initial with act := .ringing .manual, level := 1, filter := 3 } }
    let c : State := { live with bells := Quad.all { Zone.initial with act := .checking } }
    (s.bells.get 0).act = .ringing .manual ∧ (s.bells.get 0).openSeen = false ∧ 49 < 50 ∧
      (s.bells.get 0).filter * 100 ≤ 300 ∧ 2000 < 2001 ∧ (c.bells.get 0).act = .checking ∧ (c.bells.get 0).kept = [] ∧
      (∀ e ∈ (c.bells.get 0).list, e.outcome ≠ .waiting) ∧ (c.bells.get 0).manualPending = false ∧
      (c.bells.get 0).autoRequest = false ∧ 250 < 251 ∧ 9 < 10 ∧ 10 ≤ 10 ∧ live.ready ∧ (live.bells.get 3).act = .idle := by
  decide

/-- Station 1 on, with the classifier busy. -/
def busyDesk : State :=
  { live with set.stations.h1.enabled := true, desk.cur := some (.office ⟨1, .roster, 0, 0, ⟨2, 9, 2024⟩⟩) }

theorem witness_arrivals :
    let held : State := { busyDesk with stations := busyDesk.stations.set 0 { Station.initial with held := true } }
    let full : State :=
      { busyDesk with stations := busyDesk.stations.set 0 { Station.initial with queue := List.replicate 2 ⟨1, false, 9, 0, ⟨2, 9, 2024⟩⟩ } }
    let idle : State := { busyDesk with desk.cur := none }
    (busyDesk.set.stations.get 0).enabled = true ∧ busyDesk.desk.cur.isSome = true ∧
      sum256 (0x01#8 :: 5#8 :: b4 77 ++ [0xAD#8]) = 0 ∧ 77 < 4294967296 ∧ (held.stations.get 0).held = true ∧
      2 ≤ (full.stations.get 0).queue.length ∧ (busyDesk.stations.get 0).queue.length < 2 ∧ idle.desk.cur = none ∧
      (idle.stations.get 0).queue = [] ∧ ({ live with set.stations.h1.enabled := false } : State).set.stations.h1.enabled = false ∧
      sum256 (0x01#8 :: 5#8 :: b4 77 ++ [0#8]) ≠ 0 := by decide

theorem witness_station_characters :
    let inside : State :=
      { busyDesk with stations := busyDesk.stations.set 0 { Station.initial with asm := some (List.replicate 6 0#8) } }
    let held : State := { live with stations := live.stations.set 0 { Station.initial with held := true, holdOff := 1 } }
    let out : State := { live with stations := live.stations.set 0 { Station.initial with sending := some ⟨.ready, none, false, [], 0⟩ } }
    (inside.stations.get 0).asm = some (List.replicate 6 0#8) ∧ (List.replicate 6 (0#8 : Byte)).length < 7 ∧
      (busyDesk.stations.get 0).asm = none ∧ 0 < (held.stations.get 0).holdOff ∧ (held.stations.get 0).held = true ∧
      (held.stations.get 0).queue = [] ∧ (out.stations.get 0).sending = some ⟨.ready, none, false, [], 0⟩ := by decide

theorem witness_station_resume :
    busyDesk.ready ∧ (6 : Nat) < 7 ∧ 6 = (5 : Fin 6).val + 1 ∧ (busyDesk.set.stations.get 0).enabled = true ∧
      ({ live with set.stations.h6.enabled := false } : State).set.stations.h6.enabled = false := by decide

theorem witness_desk_arrival :
    let s : State := { openDay with desk.cur := some (.office ⟨1, .roster, 0, 0, ⟨2, 9, 2024⟩⟩) }
    let full : State := { s with desk.office := List.replicate 2 ⟨1, .roster, 0, 0, ⟨2, 9, 2024⟩⟩ }
    s.ready ∧ KeyKind.ofCode 2 = some .roster ∧ 2399 < 2400 ∧ 9 * 3600 ≤ s.clock.secs ∧ s.desk.office.length < 2 ∧
      s.desk.cur.isSome = true ∧ 2 ≤ full.desk.office.length ∧ openDay.desk.cur = none ∧ openDay.desk.office = [] ∧
      (List.range 7).length ≤ 7 := by decide

theorem witness_lateness :
    let past : State := { openDay with clock := ⟨⟨3, 9, 2024⟩, 1, 5, true⟩ }
    (openDay.track (openDay.trackOf 3)).plan.isSome = true ∧ openDay.plan.dayDate = some openDay.clock.date ∧
      ((openDay.track 0).plan.bind fun p => sessionPoint p 0 .am) = some 520 ∧
      ((openDay.track 0).plan.bind fun p => sessionPoint p 0 .pm) = some 775 ∧
      (past.track (past.trackOf 3)).plan.isSome = true ∧ past.plan.dayDate = some ⟨2, 9, 2024⟩ ∧
      (⟨2, 9, 2024⟩ : Date) ≠ past.clock.date ∧ past.judgeArrival 3 ⟨2, 9, 2024⟩ 0 = some (.am, .p, 0) := by decide

theorem witness_classification :
    let a : Arrival := ⟨5, false, 77, 32400, ⟨2, 9, 2024⟩⟩
    let e : OfficeEntry := ⟨1, .roster, 3, 32400, ⟨2, 9, 2024⟩⟩
    let s : State := { school with set.stations.h1.enabled := true, desk.cur := some (.station 0 a) }
    let o : State := { school with desk.cur := some (.office e), desk.office := [e], desk.pointer := 6 }
    let u := (s.deskArrival 3 .am .u 21 32400).1
    let y : Slip := ⟨.late, 1, some ⟨2, 9, 2024⟩, 3, 4, [], [], .am, .lateness 31500 .l 3 false⟩
    let v := (({ s with slips.queue := [y] } : State).deskArrival 3 .am .u 21 32400).1
    let w := (({ s with slips.queue := List.replicate 64 { y with pupil := 4 } } : State).deskArrival 3 .am .u 21 32400).1
    let twin := fun x : Slip => x.kind = .late ∧ x.pupil = 3 ∧ x.session = .am ∧ x.date = u.plan.dayDate
    s.desk.cur = some (.station 0 a) ∧ (s.set.stations.get 0).enabled = true ∧ s.desk.office = [] ∧
      (∀ k : Fin 6, (s.stations.get k).queue = []) ∧ s.set.badgeLookup 77 = some 3 ∧ s.set.badgeLookup 78 = none ∧
      s.plan.dayState = .opened ∧ s.judgeArrival 3 a.date 32400 = some (.am, .u, 21) ∧ (s.record 3 .am).locked = false ∧
      u.slips.queue.length < 64 ∧ (∀ w ∈ u.slips.queue, ¬ twin w) ∧ v.slips.queue = [] ++ y :: [] ∧ twin y ∧
      64 ≤ w.slips.queue.length ∧ (∀ x ∈ w.slips.queue, ¬ twin x) ∧
      o.desk.cur = some (.office e) ∧ 3 < 2400 ∧ (o.pupil 3).inUse = true ∧ o.desk.office = e :: [] ∧
      (7 + 6 - o.desk.pointer % 7) % 7 = 0 ∧ (1 + 6 - s.desk.pointer % 7) % 7 = 0 := by decide

/-- A HELD line whose hold-off has run, with one record left, is served next. -/
theorem witness_next_record :
    let a : Arrival := ⟨5, false, 77, 32400, ⟨2, 9, 2024⟩⟩
    let s : State := { school with stations := school.stations.set 3 { Station.initial with held := true, queue := [a] } }
    (s.stations.get 3).queue = a :: [] ∧ (s.stations.get 3).held = true ∧ (s.stations.get 3).holdOff = 0 ∧
      (∀ k : Fin 6, (s.stations.get k).queue ≠ [] → k = 3) ∧ s.desk.office = [] ∧ school.desk.office = [] ∧
      (∀ k : Fin 6, (school.stations.get k).queue = []) := by decide

theorem witness_slips :
    let s : State := { school with
      reg.recs := [(6, { Rec.cleared with mark := .l, minutes := 3, source := some .desk, arrival := some 31500 })]
      slips.slot := some ⟨.late, 1, none, 3, 4, [], [], .am, .lateness 31500 .l 3 false⟩ }
    s.ready ∧ (s.record 3 .am).arrival = some 31500 ∧ s.slips.slot.isSome = true ∧ s.slips.queue.length < 64 ∧
      (s.record 3 .pm).arrival = none ∧ 2400 ≤ 2400 ∧ 2 ≤ 2 ∧ 3 < 2400 := by decide

theorem witness_printer :
    let x : Slip := ⟨.late, 1, none, 3, 4, [], [], .am, .lateness 31500 .l 3 false⟩
    let l : SlipLine := { live.slips with state := .stalled, slot := some x }
    let p : SlipLine := { live.slips with state := .printing, slot := some x, queue := [x] }
    let e : SlipLine := { live.slips with queue := [x] }
    live.slips.state = .empty ∧ l.state = .stalled ∧ l.slot = some x ∧ live.slips.queue = [] ∧
      live.slips.state ≠ .stalled ∧ ({ live.slips with state := .waiting, ready := false } : SlipLine).ready = false ∧
      p.state = .printing ∧ p.queue = x :: [] ∧ p.slot ≠ none ∧ e.state = .empty ∧ e.slot = none ∧ e.queue = x :: [] ∧
      e.ready = false ∧ ({ e with ready := true } : SlipLine).ready = true ∧
      ({ live.slips with state := .stalled } : SlipLine).slot = none := by decide

theorem witness_lookups :
    school.ready ∧ school.set.badgeLookup 77 = some 3 ∧ school.set.shortLookup 4 = some 3 ∧ school.set.badgeLookup 0 = none ∧
      school.set.shortLookup 9999 = none ∧ school.set.senderList [0x31#8] = [] ∧
      ({ school with set.contacts := [(9, ⟨true, [0x31#8], .text, none, true, true, true⟩)] } : State).set.senderList [0x31#8] =
        [3] ∧ Tab.wf factoryPupil school.set.pupils = true := by decide

/-- Records with each mark that R100 tells apart. -/
def marked (m : Mark) (l : Bool) : State :=
  { school with reg.recs := [(6, { Rec.cleared with mark := m, source := some .register, locked := l })] }

theorem witness_precedence :
    Tab.wf zeroTally school.reg.tallies = true ∧ (school.record 3 .am).mark = .nothing ∧
      ([Mark.p, .l, .u, .x, .n, .r, .a].all fun m => ((marked m false).record 3 .am).mark == m) = true ∧
      ((marked .p false).record 3 .am).source = some .register ∧ ((marked .p true).record 3 .am).locked = true := by decide

theorem witness_register :
    let closed : State := { school with
      reg.sess := Quad.all ⟨some .closed, some .before⟩
      reg.status := [(0, .missing)] }
    school.ready ∧ (0 : Nat) < 120 ∧ 0 ≤ 1 ∧ 3 < 2400 ∧ 240 ≤ 240 ∧ school.plan.dayState = .opened ∧
      school.session (school.group 0).track .am = some .opened ∧ closed.session 0 .am = some .closed ∧
      closed.groupStatus 0 .am = .missing ∧ school.session 0 .pm = some .before ∧ school.trackHasPm 0 = true ∧
      (school.pupil 3).inUse = true ∧ (school.pupil 3).group = 0 := by decide

theorem witness_mark_set :
    let s : State := { school with reg.sess := Quad.all ⟨some .closed, some .opened⟩ }
    let n : State := { s with reg.recs := [(6, { Rec.cleared with mark := .n, source := some .close, alert := .held, due := some 33000 })] }
    s.ready ∧ Mark.code .n = 5 ∧ 2399 < 2400 ∧ s.session (s.trackOf 3) .am = some .closed ∧ s.plan.dayState = .opened ∧
      (s.pupil 3).inUse = true ∧ (s.pupil 4).inUse = false ∧ s.clock.secs < 86399 ∧ 1 ≤ s.set.options.alertDelay ∧
      (n.record 3 .am).mark = .n ∧ (n.record 3 .am).alert = .held ∧ Tab.wf zeroTally n.reg.tallies = true ∧
      Tab.wf clearedAt n.reg.recs = true ∧ Tab.wf clearedAt s.reg.recs = true ∧ (s.record 3 .am).alert = .noAlert := by decide

theorem witness_session_close :
    let s : State := { school with reg.status := [(0, .submitted)] }
    s.plan.dayState = .opened ∧ (s.track 0).plan.isSome = true ∧ s.session 0 .am = some .opened ∧
      ((s.track 0).plan.bind fun p => sessionClose p 0 .am) = some 540 ∧ Tab.wf factoryPupil s.set.pupils = true ∧
      Tab.wf clearedAt s.reg.recs = true ∧ s.groupStatus 0 .am = .submitted ∧ (s.record 3 .am).mark = .nothing ∧
      s.members 0 = [3] ∧ s.members 119 = [] ∧ school.groupStatus 0 .am = .awaited ∧
      s.clock.secs < min (540 * 60 + s.set.options.alertDelay * 60) 86399 := by decide

theorem witness_alert_due :
    let s : State := { school with
      set.contacts := [(9, ⟨true, [0x31#8], .text, none, true, true, true⟩)]
      reg.recs := [(6, { Rec.cleared with mark := .n, source := some .close, alert := .held, due := some 32400 })] }
    let full : State := { s with pool.freeDesc := 0, pool.credits.alert := 0 }
    (s.record 3 .am).alert = .held ∧ (s.record 3 .am).mark = .n ∧ 1 ≤ s.pool.freeDesc ∧ 6 ≤ s.pool.freeSegs ∧
      s.recipients .alert (.pupil 3 .am) ≠ [] ∧ full.pool.freeDesc = 0 ∧ full.pool.credits.alert = 0 ∧
      ((marked .p false).record 3 .am).alert ≠ .held := by decide

theorem witness_lists :
    live.ready ∧ 2399 < 2400 ∧ 2400 ≤ 2400 ∧ 119 < 120 ∧ 120 < 121 ∧ 31 ≤ 31 ∧ 31 < 32 ∧ 127 ≤ 127 ∧ 127 < 128 := by decide

theorem witness_conflicts :
    let e : Conflict := ⟨7, 3, .am, .registerDisagrees, 0, .r⟩
    let s : State := { school with recon.conflicts := [e] }
    let full : State := { school with recon.conflicts := List.replicate 32 e }
    s.ready ∧ s.recon.conflicts = [] ++ e :: [] ∧ e.id = 7 ∧ (∀ x ∈ s.recon.conflicts, ¬ (x.pupil = 3 ∧ x.session = .pm)) ∧
      s.recon.conflicts.length < 32 ∧ 32 ≤ full.recon.conflicts.length ∧
      (∀ x ∈ full.recon.conflicts, ¬ (x.pupil = 4 ∧ x.session = .am)) ∧ (∀ x ∈ s.recon.conflicts, x.id ≠ 255) := by decide

theorem witness_advance :
    let d : Date := ⟨3, 9, 2024⟩
    let e : Advance := ⟨d, 3, .both, none⟩
    let s : State := { school with recon.advance := [e] }
    s.ready ∧ s.clock.date.number < d.number ∧ d.number ≤ s.clock.date.number + 21 ∧ s.recon.advance = [] ++ e :: [] ∧
      s.recon.advance.length < 128 ∧ d.valid = true ∧ Sessions.code .am = 0 ∧
      ({ live with recon.waits := [⟨.lateNotice, .pupil 3 .am, none, ⟨d, 0⟩, 1⟩] } : State).recon.waits[0]?.isSome = true ∧
      live.recon.waits.length ≤ 0 := by decide

theorem witness_storage :
    let none_ : State := { live with pool.freeDesc := 0 }
    1 ≤ live.pool.freeDesc ∧ 6 ≤ live.pool.freeSegs ∧ none_.pool.freeDesc = 0 ∧ 1 ≤ none_.pool.credits.get .report ∧
      (∀ m ∈ none_.pool.msgs, m.storage ≠ .reserve 0) ∧ ({ none_ with pool.credits.alert := 0 } : State).pool.credits.get .alert = 0 ∧
      (message .notice .officeNotice (.out (notice .queued))).storage = .shared 1 := by decide

theorem witness_pool_balance : (noticeIn .queued).poolBalances ∧ (noticeIn .queued).link.loading = false := by
  refine ⟨⟨by decide, by decide, ?_, by decide, by decide, by decide, by decide⟩, by decide⟩
  intro c
  cases c <;> decide

theorem witness_messages :
    let room : State := { school with set.contacts := [(9, ⟨true, [0x31#8], .text, none, true, true, true⟩)] }
    let full : State := { school with pool.freeDesc := 0, pool.credits.notice := 0 }
    school.ready ∧ 7 ≤ 7 ∧ (school.pupil 3).inUse = true ∧ room.recipients .notice (.pupil 3 .am) ≠ [] ∧
      school.recipients .notice (.pupil 3 .am) = [] ∧ 1 ≤ room.pool.freeDesc ∧ full.pool.credits.notice = 0 ∧
      full.recon.waits.length < 32 ∧ (noticeIn .queued).ready ∧
      (noticeIn .queued).message 1 = some (message .notice .officeNotice (.out (notice .queued))) ∧
      (noticeIn (.sending 1 60)).message 1 = some (message .notice .officeNotice (.out (notice (.sending 1 60)))) ∧
      (noticeIn .queued).dueKeys = [] ∧ (noticeIn .queued).recon.waits = [] ∧ reportIn.ready ∧
      reportIn.message 1 = some (message .report .unmatchedReport (.report ⟨[0x31#8], some kept, []⟩)) ∧
      ({ reportIn with sched.kept := [1] } : State).sched.kept = 1 :: [] ∧ live.message 65535 = none := by decide

/-- R211: LOCKED and CONFLICT are numbered by R102 in a Register answer and by R130's table in an answer to a lateness report. -/
theorem test_answers_keep_their_own_codes :
    [Answer.absent .conflict, .absent .locked, .lateness .locked, .lateness .conflict, .advance .taken].map Answer.code =
        [2, 3, 0, 3, 1] ∧
      (keepReasons false false ⟨[(3, [.lateness .locked]), (4, [.absent .conflict])], false⟩).codes = [2, 3] := by decide

theorem witness_gateway :
    let up : State := { live with gw.up := true, gw.window := some ⟨4, true⟩, sched.out := [⟨1, 1⟩, ⟨2, 2⟩] }
    let part : State := { live with gw.asm := some [0x03#8, 0x00#8, 0x02#8] }
    up.gw.up = true ∧ up.sched.out.length ≤ 4 ∧ live.gw.up = false ∧ live.gw.asm = none ∧
      part.gw.asm = some (0x03#8 :: 0x00#8 :: 0x02#8 :: []) ∧
      ([] : List Byte).length + 1 < (0x00#8 : Byte).toNat * 256 + (0x02#8 : Byte).toNat + 1 ∧
      ({ live with gw.sending := some .taken } : State).gw.sending = some .taken ∧
      (noticeIn (.sending 1 60)).deadAlert (message .notice .officeNotice (.out (notice (.sending 1 60)))) = none := by decide

theorem witness_results :
    let s : State := { noticeIn (.sending 255 60) with sched.out := [⟨255, 1⟩] }
    let a : State := { alertIn (.sending 255 60) with sched.out := [⟨255, 1⟩] }
    s.sched.out = [] ++ ⟨255, 1⟩ :: [] ∧
      s.message 1 = some (message .notice .officeNotice (.out (notice (.sending 255 60)))) ∧ s.dueKeys = [] ∧
      s.recon.waits = [] ∧ (notice (.sending 255 60)).cursor.attempts + 1 < 4 ∧
      a.message 1 = some (message .alert .absenceAlert (.out (alert (.sending 255 60)))) ∧
      (alert (.sending 255 60)).subject = .pupil 3 .am ∧ (a.record 3 .am).mark ≠ .n ∧
      (∀ b ∈ live.sched.out, b.tag ≠ 1) ∧ 255 ∉ s.sched.released ∧
      ({ live with sched.released := [1] } : State).sched.released = [1] := by decide

theorem witness_fallback :
    let o : Outbound := { notice .queued with cursor := ⟨0, false, 1⟩, recipients := [⟨0, [0x31#8], .text, some .voice⟩, sender] }
    1 ≤ 2 ∧ o.cursor.attempts < 2 ∧ o.cursor.attempts + 1 = 2 ∧ o.cursor.second = false ∧ o.secondChannel ≠ none ∧
      (notice .queued).secondChannel = none ∧ (notice .queued).cursor.attempts + 1 < 2 := by decide

theorem witness_timers :
    (noticeIn (.waitRetry 0)).message 1 = some (message .notice .officeNotice (.out (notice (.waitRetry 0)))) ∧
      (∀ x ∈ (noticeIn (.waitRetry 0)).pool.msgs, x.number = 1 →
        x = message .notice .officeNotice (.out (notice (.waitRetry 0)))) ∧
      (notice (.waitRetry 0)).life = some 60 ∧ (alert .queued).life = none ∧ (notice (.sending 1 9)).state = .sending 1 9 := by
  decide

theorem witness_inbound :
    let full : State := { live with pool.freeDesc := 0, pool.credits.report := 0 }
    let opening : State := { live with plan.dayState := .opening }
    1 ≤ [0x31#8].length ∧ (∀ c ∈ [0x31#8], 0x30 ≤ c.toNat ∧ c.toNat ≤ 0x39) ∧ [0x41#8].length ≤ 160 ∧
      (∀ c ∈ [0x41#8], 0x20 ≤ c.toNat ∧ c.toNat ≤ 0x7E) ∧ full.pool.freeDesc = 0 ∧ full.pool.credits.report = 0 ∧
      1 ≤ live.pool.freeDesc ∧ segmentsFor 1 ≤ live.pool.freeSegs ∧ opening.plan.dayState = .opening ∧
      live.plan.dayState ≠ .opening ∧ parseText live.clock.date [0x41#8] = .unmatched false ∧
      (∀ m ∈ live.pool.msgs, m.number ≠ live.pool.nextNum) := by decide

theorem witness_day_close :
    let ended : State := { openDay with plan.tracks := openDay.plan.tracks.map fun t => { t with state := .ended } }
    openDay.ready ∧ openDay.plan.dayState = .opened ∧ openDay.store.job = .idle ∧
      (openDay.plan.tracks.get 0).state ≠ .ended ∧ (∀ i : Fin 4, (ended.plan.tracks.get i).state = .ended) ∧
      live.plan.dayState ≠ .opened := by decide

/-- A day entry of two records on archive page 0. -/
def entry : DayEntry := ⟨1, ⟨2, 9, 2024⟩, 0, 1, 2, 0, true⟩

theorem witness_archive_read :
    let s : State := { live with store.dir := [some entry] }
    s.ready ∧ some entry ∈ s.store.dir ∧ entry.date = ⟨2, 9, 24 + 2000⟩ ∧ (⟨2, 9, 24 + 2000⟩ : Date).valid = true ∧
      (s.store.readFor 1 entry 0 8).pages.head? = some ⟨260, 0, 2⟩ ∧ (s.store.readFor 1 entry 2 8).pages = [] ∧
      s.store.job = .idle ∧ entry.records < 3 ∧ 2 ≤ entry.records := by decide

theorem witness_store :
    let s : State := { live with store.job := .save .writeCheck 0, store.op := .verifying 255 }
    let r : ReadReq := ⟨1, entry, 0, [⟨260, 0, 2⟩]⟩
    let q : State := { live with
      store.job := .read r []
      store.op := .reading 260
      link.hand := some ⟨1, 0x41, false⟩ }
    live.ready ∧ live.store.job = .idle ∧ s.store.job ≠ .idle ∧ s.store.op = .verifying 255 ∧ s.plan.deferredClose = false ∧
      s.store.retried = false ∧ q.store.job = .read r [] ∧ r.pages = [⟨260, 0, 2⟩] ∧ q.store.pendingJob = none ∧
      ({ live with store.op := .erasing 1539 } : State).store.op = .erasing 1539 := by decide

theorem witness_invariants :
    Memory.wf [(0, 0#8), (1023, 1#8)] = true ∧ Memory.wf [(0, 0xFF#8)] = false ∧
      ({ live with gw.up := true, gw.window := some ⟨1, true⟩, sched.out := [⟨1, 1⟩] } : State).windowHolds := by
  refine ⟨by decide, by decide, fun _ => ⟨⟨1, true⟩, rfl, by decide, by decide, by decide⟩, fun h => by cases h⟩

/-! ### The settings load and the tables -/

/-- An entry of a run of entries of one length. -/
theorem slice {f : Nat → List Byte} {k : Nat} (r : List Byte) :
    ∀ n s i : Nat, (∀ j, j < s + n → (f j).length = k) → i < n →
      ((((List.range' s n).flatMap f) ++ r).drop (k * i)).take k = f (s + i) := by
  intro n
  induction n with
  | zero => intro s i _ hi; omega
  | succ n ih =>
    intro s i hk hi
    have h0 : (f s).length = k := hk s (by omega)
    rw [List.range'_succ, List.flatMap_cons, List.append_assoc]
    cases i with
    | zero => simp [← h0]
    | succ i =>
      have : k * (i + 1) = (f s).length + k * i := by rw [h0, Nat.mul_succ, Nat.add_comm]
      rw [this, List.drop_append, List.drop_eq_nil_of_le (by omega), List.nil_append, Nat.add_sub_cancel_left,
        ih (s + 1) i (fun j hj => hk j (by omega)) (by omega)]
      congr 1; omega

/-- The length of such a run. -/
theorem length_part {f : Nat → List Byte} {k : Nat} : ∀ n s : Nat, (∀ j, j < s + n → (f j).length = k) →
    ((List.range' s n).flatMap f).length = k * n := by
  intro n
  induction n with
  | zero => intro s _; simp
  | succ n ih =>
    intro s hk
    rw [List.range'_succ, List.flatMap_cons, List.length_append, hk s (by omega), ih (s + 1) (fun j hj => hk j (by omega)),
      Nat.mul_succ, Nat.add_comm]

/-- One part of an image, after what precedes it. -/
theorem part_entry {f : Nat → List Byte} {k n i at_ : Nat} (pre post : List Byte) (hp : pre.length = at_)
    (hf : ∀ j, j < n → (f j).length = k) (hi : i < n) :
    ((pre ++ ((List.range n).flatMap f ++ post)).drop (at_ + k * i)).take k = f i := by
  rw [List.drop_append, List.drop_eq_nil_of_le (by omega), List.nil_append, hp, Nat.add_sub_cancel_left, List.range_eq_range',
    slice post n 0 i (by simpa using hf) hi, Nat.zero_add]

/-- An entry of the factory settings at its stride. -/
def part (t : TableName) (stride : Nat) (i : Nat) : List Byte := padTo stride (factorySettings.entryBytes t (t.first + i))

theorem part_length_pupils (i : Nat) : (part .pupils 33 i).length = 33 := rfl
theorem part_length_contacts (i : Nat) : (part .contacts 20 i).length = 20 := rfl
theorem part_length_groups (i : Nat) : (part .groups 10 i).length = 10 := rfl
set_option maxRecDepth 4000 in
theorem part_length_plans (i : Nat) : (part .plans 92 i).length = 92 := by show (padTo 92 (factoryPlan 0).bytes).length = 92; decide
theorem part_length_zones : ∀ i, i < 4 → (part .zones 9 i).length = 9 := by decide
theorem part_length_stations : ∀ i, i < 6 → (part .stations 7 i).length = 7 := by decide
set_option maxRecDepth 4000 in
theorem part_length_templates : ∀ i, i < 8 → (part .templates 201 i).length = 201 := by decide
theorem part_length_lamps : ∀ i, i < 4 → (part .lamps 3 i).length = 3 := by decide

set_option maxRecDepth 4000 in
theorem read_pupil (i : Nat) (h : i < 2400) : readPupil (part .pupils 33 i) = some (factoryPupil i) := by
  have e : numAt (part .pupils 33 i) 1 2 = i + 1 := by
    show num (b2 (0 + i + 1)) = i + 1
    simp [num, b2]; omega
  have e1 : byteAt (part .pupils 33 i) 0 = 0 := rfl
  have e2 : byteAt (part .pupils 33 i) 7 = 1 := rfl
  have e3 : byteAt (part .pupils 33 i) 32 = 0 := rfl
  have e4 : numAt (part .pupils 33 i) 3 4 = 0 := by
    show num (b4 0) = 0
    decide
  have e5 : ((part .pupils 33 i).drop 8).take 1 = [0x2D#8] := rfl
  simp only [readPupil, e, e1, e2, e3, e4, e5, flagOf]
  simp [factoryPupil, Config.groups, printable]
  omega

set_option maxRecDepth 8000 in
/-- The factory settings' own image meets what a load asks of its data. -/
theorem witness_image :
    let l := factorySettings.image
    let x := factorySettings
    let entry := fun (t : TableName) (stride i : Nat) => (l.drop (imageAt t + stride * i)).take stride
    ((∀ i : Nat, i < 2400 → readPupil (entry .pupils 33 i) = some (Tab.get factoryPupil x.pupils i)) ∧
      (∀ i : Nat, i < 7200 → readContact (entry .contacts 20 i) = some (Tab.get factoryContact x.contacts i)) ∧
      (∀ i : Nat, i < 120 → readGroup (entry .groups 10 i) = some (Tab.get factoryGroup x.groups i)) ∧
      (∀ i : Nat, i < 16 → readPlan (entry .plans 92 i) = some (Tab.get factoryPlan x.plans i, false)) ∧
      (∀ i : Fin 4, readZone (entry .zones 9 i.val) = some (x.zones.get i, false)) ∧
      (∀ i : Fin 6, readStation (entry .stations 7 i.val) = some (x.stations.get i, false)) ∧
      (∀ i : Nat, i < 8 → readTemplate (entry .templates 201 i) = some (Tab.get factoryTemplate x.templates i)) ∧
      (∀ i : Fin 4, readLamp (entry .lamps 3 i.val) = some (x.lamps.get i, false)) ∧
      readOptions (l.drop (imageAt .options)) = some (x.options, false)) ∧ x.canonical ∧ x.codesDiffer ∧ x.sendersBounded := by
  intro l x entry
  let P := fun (t : TableName) (k n : Nat) => (List.range n).flatMap (part t k)
  have len : ∀ (t : TableName) (k n : Nat), (∀ i, i < n → (part t k i).length = k) → (P t k n).length = k * n :=
    fun t k n h => by
      show ((List.range n).flatMap (part t k)).length = k * n
      rw [List.range_eq_range']
      exact length_part n 0 (by simpa using h)
  have n1 : (P .pupils 33 2400).length = 79200 := len _ _ _ fun i _ => part_length_pupils i
  have n2 : (P .contacts 20 7200).length = 144000 := len _ _ _ fun i _ => part_length_contacts i
  have n3 : (P .groups 10 120).length = 1200 := len _ _ _ fun i _ => part_length_groups i
  have n4 : (P .plans 92 16).length = 1472 := len _ _ _ fun i _ => part_length_plans i
  have n5 : (P .zones 9 4).length = 36 := len _ _ _ part_length_zones
  have n6 : (P .stations 7 6).length = 42 := len _ _ _ part_length_stations
  have n7 : (P .templates 201 8).length = 1608 := len _ _ _ part_length_templates
  have n8 : (P .lamps 3 4).length = 12 := len _ _ _ part_length_lamps
  have image : l = P .pupils 33 2400 ++ P .contacts 20 7200 ++ P .groups 10 120 ++ P .plans 92 16 ++ P .zones 9 4 ++
      P .stations 7 6 ++ P .templates 201 8 ++ P .lamps 3 4 ++ P .options 16 1 := rfl
  have at_ : ∀ (t : TableName) (k n i : Nat) (pre post : List Byte), l = pre ++ (P t k n ++ post) → pre.length = imageAt t →
      (∀ j, j < n → (part t k j).length = k) → i < n → entry t k i = part t k i := by
    intro t k n i pre post hl hp hf hi
    show (l.drop (imageAt t + k * i)).take k = _
    rw [hl]
    exact part_entry pre post hp hf hi
  refine ⟨⟨?_, ?_, ?_, ?_, ?_, ?_, ?_, ?_, ?_⟩, ?_, ?_, ?_⟩
  · intro i h
    rw [at_ .pupils 33 2400 i [] _ (by rw [image]; simp only [List.append_assoc, List.nil_append]; rfl) rfl
      (fun j _ => part_length_pupils j) h]
    exact read_pupil i h
  · intro i h
    rw [at_ .contacts 20 7200 i (P .pupils 33 2400) _ (by rw [image]; simp only [List.append_assoc]; rfl) n1
      (fun j _ => part_length_contacts j) h]
    show readContact (padTo 20 (factoryContact 0).bytes) = some (factoryContact 0)
    decide
  · intro i h
    rw [at_ .groups 10 120 i (P .pupils 33 2400 ++ P .contacts 20 7200) _ (by rw [image]; simp only [List.append_assoc]; rfl)
      (by simp [n1, n2]; rfl) (fun j _ => part_length_groups j) h]
    show readGroup (padTo 10 (factoryGroup 0).bytes) = some (factoryGroup 0)
    decide
  · intro i h
    rw [at_ .plans 92 16 i (P .pupils 33 2400 ++ P .contacts 20 7200 ++ P .groups 10 120) _
      (by rw [image]; simp only [List.append_assoc]; rfl) (by simp [n1, n2, n3]; rfl) (fun j _ => part_length_plans j) h]
    show readPlan (padTo 92 (factoryPlan 0).bytes) = some (factoryPlan 0, false)
    decide
  · intro i
    rw [at_ .zones 9 4 i.val (P .pupils 33 2400 ++ P .contacts 20 7200 ++ P .groups 10 120 ++ P .plans 92 16) _
      (by rw [image]; simp only [List.append_assoc]; rfl) (by simp [n1, n2, n3, n4]; rfl) part_length_zones i.isLt]
    revert i; decide
  · intro i
    rw [at_ .stations 7 6 i.val (P .pupils 33 2400 ++ P .contacts 20 7200 ++ P .groups 10 120 ++ P .plans 92 16 ++ P .zones 9 4) _
      (by rw [image]; simp only [List.append_assoc]; rfl) (by simp [n1, n2, n3, n4, n5]; rfl) part_length_stations i.isLt]
    revert i; decide
  · intro i h
    rw [at_ .templates 201 8 i (P .pupils 33 2400 ++ P .contacts 20 7200 ++ P .groups 10 120 ++ P .plans 92 16 ++ P .zones 9 4 ++
      P .stations 7 6) _ (by rw [image]; simp only [List.append_assoc]; rfl) (by simp [n1, n2, n3, n4, n5, n6]; rfl)
      part_length_templates h]
    interval_cases i <;> decide
  · intro i
    rw [at_ .lamps 3 4 i.val (P .pupils 33 2400 ++ P .contacts 20 7200 ++ P .groups 10 120 ++ P .plans 92 16 ++ P .zones 9 4 ++
      P .stations 7 6 ++ P .templates 201 8) _ (by rw [image]; simp only [List.append_assoc]; rfl)
      (by simp [n1, n2, n3, n4, n5, n6, n7]; rfl) part_length_lamps i.isLt]
    revert i; decide
  · have h : l.drop (imageAt .options) = P .options 16 1 := by
      rw [image, List.drop_append_of_le_length (by simp [n1, n2, n3, n4, n5, n6, n7, n8, imageAt]),
        List.drop_eq_nil_of_le (by simp [n1, n2, n3, n4, n5, n6, n7, n8, imageAt]), List.nil_append]
    rw [h]
    decide
  · exact ⟨rfl, rfl, rfl, rfl, rfl⟩
  · intro p q _ a b ha; cases ha
  · intro number; exact Nat.zero_le _

/-- A check page that agrees with data pages of FFh: format 1, 255 pages, the check word. -/
def checkCells : List (Nat × Byte) :=
  [(261120, 0#8), (261121, 1#8), (262140, 0xFC#8), (262141, 0x07#8), (262142, 0xFC#8), (262143, 0x00#8)]

theorem witness_check_page :
    let at_ := fun i : Nat => (Memory.read checkCells (255 * 1024 + i)).toNat
    let data := Memory.dataPages checkCells
    let word := at_ 1020 * 16777216 + at_ 1021 * 65536 + at_ 1022 * 256 + at_ 1023
    Memory.wf checkCells = true ∧ at_ 0 = 0 ∧ at_ 1 = 1 ∧ at_ 2 = 255 ∧ ((data.map (·.toNat)).sum + word) % 4294967296 = 0 := by
  intro at_ data word
  have low : ∀ a : Nat, a < 261120 → Memory.read checkCells a = 0xFF#8 := by
    intro a h
    unfold checkCells
    simp only [Memory.read, Tab.get]
    repeat rw [if_neg (by omega)]
    rfl
  have page : ∀ p : Nat, p < 255 → Memory.readPage checkCells p = List.replicate 1024 0xFF#8 := by
    intro p h
    refine List.eq_replicate_iff.mpr ⟨by simp [Memory.readPage, Config.pageBytes], fun b hb => ?_⟩
    simp only [Memory.readPage, List.mem_map, List.mem_range, pageAddr, Config.pageBytes] at hb
    obtain ⟨i, hi, rfl⟩ := hb
    exact low _ (by omega)
  have all : data = (List.range 255).flatMap fun _ => List.replicate 1024 0xFF#8 :=
    List.flatMap_congr fun p hp => page p (List.mem_range.mp hp)
  have sum : (data.map (·.toNat)).sum = 255 * (1024 * 255) := by
    have go : ∀ n : Nat, (((List.range n).flatMap fun _ => List.replicate 1024 (0xFF#8 : Byte)).map (·.toNat)).sum =
        n * (1024 * 255) := by
      intro n
      induction n with
      | zero => rfl
      | succ n ih =>
        rw [List.range_succ, List.flatMap_append, List.map_append, List.sum_append, ih, Nat.succ_mul, List.flatMap_cons,
          List.flatMap_nil, List.append_nil, List.map_replicate, List.sum_replicate_nat]
        norm_num
        omega
    rw [all]; exact go 255
  refine ⟨by decide, by decide, by decide, by decide, ?_⟩
  rw [sum]; decide

def contact1 : Contact := ⟨true, [0x31#8], .text, none, true, true, true⟩

theorem witness_table_writes :
    let e := pupil3.bytes
    let s : State := { live with link.cursor := ⟨.pupils, 2399, .both⟩ }
    let saving : State := { s with store.job := .save .clearCheck 0 }
    s.ready ∧ s.link.cursor = ⟨.pupils, 2399, .both⟩ ∧ TableName.pupils.first ≤ 2399 ∧
      2399 < TableName.pupils.first + TableName.pupils.entries ∧ 2 ≤ TableName.pupils.perRequest ∧
      splitEntries .pupils 1 e = some [e] ∧ splitEntries .pupils 2 (e ++ e) = some [e, e] ∧ splitEntries .pupils 1 [] = none ∧
      s.store.job = .idle ∧ saving.store.job = .save .clearCheck 0 ∧ isOk (writeEntry .pupils s 2399 e) = true ∧
      writeEntry .pupils s 2399 [] = .error ⟨.badArg, none⟩ ∧ StepMode.still ≠ StepMode.both := by decide

/-- Eight pupils whose slots carry one number, and a ninth pupil's slot that carries it too. -/
def crowd : State :=
  { live with
    set.pupils := (List.range 8).map fun i => (i, ⟨true, i + 1, 0, [0x41#8], 0⟩)
    set.contacts := (List.range 9).map fun i => (3 * i, contact1) }

theorem witness_pupil_writes :
    let e : Pupil := ⟨true, 9999, 0, List.replicate 24 0x7E#8, 119⟩
    let t : Settings := { crowd.set with pupils := Tab.put factoryPupil crowd.set.pupils 8 e }
    let full : Settings := { t with contacts := Tab.put factoryContact t.contacts 25 contact1 }
    byteAt e.bytes 0 = 1 ∧ numAt e.bytes 1 2 = 9999 ∧ byteAt e.bytes 7 = 24 ∧ byteAt e.bytes 32 = 119 ∧
      (e.bytes.drop 8).take 24 = e.name ∧ Tab.wf factoryPupil crowd.set.pupils = true ∧ (crowd.pupil 8).inUse = false ∧
      8 < (t.senderList (crowd.contact 24).number).length ∧ (crowd.pupil 7).short = 8 ∧ openDay.plan.dayState ≠ .closed ∧
      (openDay.pupil 3).inUse ≠ pupil3.inUse ∧ byteAt ([] : List Byte) 7 = 0 ∧ 8 < (full.senderList [0x31#8]).length ∧
      (live.set.senderList [0x31#8]).length ≤ 8 ∧ byteAt contact1.bytes 1 = 1 ∧ byteAt contact1.bytes 18 = 2 ∧
      byteAt contact1.bytes 19 = 7 := by decide

theorem witness_plan_reading :
    let g : Segment := ⟨.registration, 180, 180, false, .start, false, some .am⟩
    let p : Plan := ⟨1259, [g], 255, 60, 61, 10, 5⟩
    let carries := fun (ss : Session) (k : Nat) => ∃ g : Segment, p.segs[k]? = some g ∧ g.point = some ss
    p.start ≤ 1439 ∧ (∀ g ∈ p.segs, 1 ≤ g.nominal ∧ g.nominal ≤ 180 ∧ 1 ≤ g.minimum ∧ g.minimum ≤ g.nominal) ∧
      p.start + (p.segs.map (·.nominal)).sum ≤ 1439 ∧ (∃ a : Nat, carries .am a) ∧
      (∀ (ss : Session) (a b : Nat), carries ss a → carries ss b → a = b) ∧ ∀ a b : Nat, carries .am a → carries .pm b → a < b := by
  intro g p carries
  have one : ∀ (ss : Session) (k : Nat), carries ss k → k = 0 ∧ ss = .am := by
    rintro ss (_ | k) ⟨x, h, hp⟩
    · cases h; cases hp; exact ⟨rfl, rfl⟩
    · cases h
  exact ⟨by decide, by decide, by decide, ⟨0, g, rfl, rfl⟩, fun ss a b ha hb => by rw [(one ss a ha).1, (one ss b hb).1],
    fun a b _ hb => by cases (one .pm b hb).2⟩

theorem witness_other_writes :
    let early : State := { openDay with clock.secs := 25800 }
    let p := factoryPlan 0
    let z : List Byte := [255#8, 0#8, 16#8, 1#8, 15#8, 5#8, 7#8, 9#8, 1#8]
    let full : Message := { message .notice .officeNotice (.out (notice .queued)) with storage := .reserve 15 }
    (early.plan.tracks.get 0).state = .planned ∧ (early.plan.tracks.get 0).kind = some .normal ∧ early.plan.dayState ≠ .closed ∧
      early.clock.secs < (p.start + 0) * 60 ∧ isOk (buildTrack p (some .normal) 0 0 25800) = true ∧
      isOk (buildTrack p (some .normal) 0 240 25800) = false ∧ (p.start + 0) * 60 ≤ openDay.clock.secs ∧
      (readPlan p.bytes).isSome = true ∧ readPlan [] = none ∧ DayKind.normal ≠ .exam ∧
      byteAt z 0 = 255 ∧ byteAt z 8 ≤ 1 ∧ (early.set.zones.get 0).track ≠ none ∧ byteAt [4#8] 0 = 4 ∧
      divisorFor 9600 = some 11 ∧ divisorFor 0 = none ∧ byteAt [6#8, 2#8, 3#8] 1 = LampMode.code .fast ∧ 3 ≤ byteAt [0#8, 3#8] 1 ∧
      byteAt factoryOptions.bytes 2 + byteAt factoryOptions.bytes 3 + byteAt factoryOptions.bytes 4 + byteAt factoryOptions.bytes 5 ≤ 16 ∧
      byteAt factoryOptions.bytes 15 ≤ 1 ∧
      1 ≤ ((holding full).pool.msgs.filter fun m => m.cls == .notice && m.onReserve).length ∧ live.pool.credits.get .receipt < 8 := by
  decide

theorem witness_skipped_bells :
    (bell .suppressed).time * 60 ≤ 53400 ∧ (bell .pending).time * 60 ≤ 53400 ∧ openDay.clock.secs < 53400 := by decide

/-- A moment at which everything that a second event counts is counting. -/
def ticking : State :=
  let x : Station := Station.initial
  { noticeIn (.sending 255 1) with
    clock := ⟨⟨2, 9, 2024⟩, 0, 86398 - 60, true⟩
    bells := ⟨{ Zone.initial with act := .ringing .manual, left := 1 }, { Zone.initial with act := .checking, left := 1 },
      { Zone.initial with act := .checking, left := 2 }, Zone.initial⟩
    stations := ⟨{ x with asm := some [] }, { x with asm := some [], gap := 1 }, { x with holdOff := 2 },
      { x with holdOff := 1, queue := [⟨1, false, 9, 0, ⟨2, 9, 2024⟩⟩] }, { x with holdOff := 1, held := true }, x⟩
    link.asm := some []
    link.gap := 1
    gw.asm := some []
    gw.up := true
    gw.since := 58
    gw.window := some ⟨1, true⟩
    slips.slot := some ⟨.late, 1, none, 3, 4, [], [], .am, .lateness 31500 .l 3 false⟩
    slips.state := .printing
    slips.stall := 19
    recon.waits := [⟨.lateNotice, .pupil 3 .am, none, ⟨⟨2, 9, 2024⟩, 0⟩, 1⟩]
    sched.out := [⟨255, 1⟩]
    reg.recs := [(6, { Rec.cleared with mark := .n, alert := .held, due := some 86340 })] }

theorem witness_second :
    ticking.clock.secs < 86399 ∧ ticking.clock.secs % 60 ≠ 59 ∧ (ticking.bells.get 0).left ≤ 1 ∧
      (ticking.bells.get 2).act ≠ .idle ∧ 2 ≤ (ticking.bells.get 2).left ∧ (ticking.set.stations.get 0).enabled = true ∧
      (ticking.stations.get 0).asm ≠ none ∧ (ticking.stations.get 0).gap = 0 ∧ 1 ≤ (ticking.stations.get 1).gap ∧
      (ticking.stations.get 3).queue ≠ [] ∧ (ticking.stations.get 4).held = true ∧ (ticking.stations.get 4).queue = [] ∧
      ticking.link.asm ≠ none ∧ 1 ≤ ticking.link.gap ∧ ticking.gw.asm ≠ none ∧ ticking.gw.gap = 0 ∧ ticking.slips.slot ≠ none ∧
      ticking.slips.state = .printing ∧ 19 ≤ ticking.slips.stall ∧ ticking.gw.since + 1 < 60 ∧
      (∀ e ∈ ticking.reg.recs, e.2.due = some 86340 ∧ ticking.clock.secs + 1 < 86340) ∧
      (∃ e ∈ ticking.recon.waits, e.life ≤ 1) ∧ Tab.wf clearedAt ticking.reg.recs = true ∧
      (ticking.record 3 .am).alert = .held ∧ (ticking.record 3 .am).mark = .n ∧ (notice .queued).life ≠ some 1 ∧
      ticking.sched.out = [] ++ ⟨255, 1⟩ :: [] ∧ (notice (.sending 255 1)).cursor.attempts + 1 < 4 ∧
      (∀ x ∈ ticking.pool.msgs, x.number = 1) ∧ (noticeIn .queued).dueKeys = [] := by decide

/-- A message whose timers run on past the next second. -/
theorem witness_steady (o : Outbound) (h : (message .notice .officeNotice (.out (notice (.sending 255 2)))).body = .out o) :
    o.life ≠ some 0 ∧ o.life ≠ some 1 ∧ (∀ k : Nat, o.state = .waitRetry k → 2 ≤ k) ∧
      ∀ tag k : Nat, o.state = .sending tag k → 2 ≤ k := by
  cases h
  exact ⟨by decide, by decide, fun k h => (by cases h), fun tag k h => (by cases h; decide)⟩

theorem witness_locked :
    ((marked .p true).record 3 .am).locked = true ∧ Tab.wf clearedAt (marked .p true).reg.recs = true ∧
      (marked .p true).link.hand = none ∧ (marked .p true).link.queue = [] := by decide

theorem witness_plans_hold : openDay.plansHold := by
  have e : ∀ i : Fin 4, openDay.plan.tracks.get i = openDay.plan.tracks.get 0 := by decide
  refine ⟨by decide, fun i p h => ?_⟩
  rw [e i] at h ⊢
  cases h
  exact ⟨by decide, by decide⟩

theorem witness_tables_hold : ticking.tablesHold := by
  refine ⟨⟨rfl, rfl, rfl, rfl, rfl⟩, ?_, fun _ => Nat.zero_le _, by decide, rfl, rfl, ?_⟩
  · intro p q _ a b h
    cases h
  · intro l acc h
    cases h

theorem witness_alert_results :
    let a : State := { alertIn (.sending 255 60) with
      sched.out := [⟨255, 1⟩]
      reg.recs := [(6, { Rec.cleared with mark := .n, alert := .sending })] }
    let o := alert (.sending 255 60)
    let last : Outbound := { o with cursor := ⟨0, false, 1⟩ }
    Tab.wf clearedAt a.reg.recs = true ∧ a.sched.out = [] ++ ⟨255, 1⟩ :: [] ∧
      a.message 1 = some (message .alert .absenceAlert (.out o)) ∧ o.subject = .pupil 3 .am ∧ o.detached = false ∧
      (a.record 3 .am).mark = .n ∧ o.life ≠ some 0 ∧ o.cursor.attempts + 1 < a.set.options.fallback ∧
      a.set.options.fallback ≤ last.cursor.attempts + 1 ∧ last.secondChannel = none ∧
      last.recipients.length ≤ last.cursor.recipient + 1 ∧ live.message 1 = none ∧ (∀ b ∈ live.sched.out, b.tag ≠ 255) ∧
      ({ notice (.sending 255 60) with life := some 0 } : Outbound).life = some 0 := by decide

/-- Pupil 3 with a contact whose number is "1". -/
def family : State := { school with set.contacts := [(9, contact1)] }

theorem witness_matched_reports :
    let absent : Text := [0x41#8, 0x42#8, 0x53#8, 0x45#8, 0x4E#8, 0x54#8]
    let later : Text := absent ++ [0x20#8, 0x33#8, 0x2F#8, 0x39#8]
    let late : Text := [0x6C#8, 0x61#8, 0x74#8, 0x65#8]
    let ended : State := { family with plan.tracks := family.plan.tracks.map fun t => { t with state := .ended } }
    let d : Date := ⟨3, 9, 2024⟩
    family.plan.dayState = .opened ∧ Tab.wf clearedAt family.reg.recs = true ∧
      (∀ m ∈ family.pool.msgs, m.number ≠ family.pool.nextNum) ∧ family.set.reportPupils [0x31#8] none = some [3] ∧
      (family.track (family.trackOf 3)).plan.isSome = true ∧
      parseText family.clock.date absent = .absence none family.clock.date false ∧ family.plan.dayDate = some family.clock.date ∧
      parseText family.clock.date later = .absence none d false ∧ family.plan.dayDate ≠ some d ∧
      family.clock.date.number < d.number ∧ d.number ≤ family.clock.date.number + 21 ∧ family.recon.advance = [] ∧
      parseText family.clock.date late = .lateness none false ∧ (ended.track (ended.trackOf 3)).state = .ended ∧
      family.dueKeys = [] ∧ family.recon.waits = [] ∧ family.set.options.receipts = true ∧ 2 ≤ family.pool.freeDesc ∧
      segmentsFor absent.length + 6 ≤ family.pool.freeSegs ∧ family.recon.conflicts = [] ∧
      (family.record 3 .am).mark = .nothing ∧ (family.record 3 .am).locked = false ∧ family.clock.secs < 775 * 60 ∧
      1 ≤ segmentsFor 0 ∧ (1 : Nat) ≤ family.pool.freeDesc := by decide

theorem witness_report_dates :
    reportDate ⟨2, 9, 2024⟩ 30 2 = none ∧ Date.valid ⟨30, 2, 2024⟩ = false ∧
      reportDate ⟨20, 12, 2024⟩ 10 1 = some ⟨10, 1, 2025⟩ ∧ reportDate ⟨19, 12, 2024⟩ 10 1 = some ⟨10, 1, 2024⟩ := by decide

/-- A commit at a phase, its open entry alone in the directory, its operation on a page. -/
def committing (ph : CommitPhase) (op : PageOp) : State :=
  { school with
    plan.dayState := .closing
    store.dir := [some ⟨1, ⟨2, 9, 2024⟩, 1279, 0, 0, 0, false⟩, none]
    store.job := .commit ⟨0, ph⟩
    store.op := op }

theorem witness_commit :
    let s := committing (.page 1279) (.verifying 1539)
    let done : State := { s with store.done := 1 }
    let spoilt : State := { s with store.bad := [1279], store.recBuf := [List.replicate 16 0#8], store.retried := true }
    s.inUsePupils = [3] ∧ s.store.done < s.inUsePupils.length ∧ done.inUsePupils.length ≤ done.store.done ∧
      (1279 + s.store.spanned) % 1280 = 1279 ∧ (1279 + 1) % 1280 ∉ spoilt.store.bad ∧ 1279 ∈ spoilt.store.bad ∧
      s.store.recBuf = [] ∧ spoilt.store.recBuf ≠ [] ∧ s.store.job = .commit ⟨0, .page 1279⟩ ∧ s.store.op = .verifying 1539 ∧
      1539 = 260 + 1279 ∧ s.store.bad.length < 64 ∧ s.plan.deferredClose = false ∧ s.store.dir[1]? = some none ∧
      s.store.dir[0]? ≠ some none ∧ CommitOutcome.tableFull ≠ .complete ∧
      (committing .dropOldest (.blankCheck 256)).store.op = .blankCheck 256 ∧ CommitPhase.dropOldest ≠ .openEntry := by decide

theorem witness_no_entry_reached (i : Nat) (f : DayEntry) :
    ¬ (i ≠ 0 ∧ (committing .openEntry .idle).store.dir[i]? = some (some f) ∧ (1279 + 1280 - f.first) % 1280 < f.pages) := by
  rintro ⟨h, e, -⟩
  rcases i with _ | _ | i
  · exact h rfl
  · cases e
  · cases e

theorem witness_rebuild :
    let s : State := { school with
      plan.dayState := .opening
      store.job := .rebuild [⟨260, 0, 2⟩] []
      store.op := .reading 260 }
    let l : DayRecord := b2 4 ++ b1 2 ++ b1 9 ++ b1 3 ++ b1 30 ++ b1 16
    s.store.job = .rebuild (⟨260, 0, 2⟩ :: []) [] ∧ s.store.waitingRead = none ∧ s.plan.deferredClose = false ∧
      (∀ m ∈ s.pool.msgs, m.kind ≠ .inbound) ∧ s.set.shortLookup (numAt l 0 2) = some 3 ∧ byteAt l 2 = 2 ∧ byteAt l 4 = 3 ∧
      s.set.shortLookup (numAt [] 0 2) = none ∧ Tab.wf zeroTally ([] : Tab Tally) = true := by decide

/-! ### The wider clauses -/

theorem witness_lamp_modes :
    let m := fun x : LampMode => ({ live with set.lamps.q0.mode := x, lamps.stretch := Quad.all 1 } : State)
    State.reset.link.loading = true ∧ State.reset.link.queue = [] ∧ State.reset.gw.up = false ∧ live.lamps.force.get 0 = .free ∧
      ((m .solid).set.lamps.get 0).mode = .solid ∧ ((m .slow).set.lamps.get 0).mode = .slow ∧
      ((m .fast).set.lamps.get 0).mode = .fast ∧ 0 < (m .fast).lamps.stretch.get 0 ∧ live.lampOn 0 = false ∧
      live.lamps.stretch.get 0 = 0 := by decide

theorem witness_forward_step :
    let x := openDay.plan.tracks.get 0
    let p := nominalPlan (factoryPlan 0)
    x.plan = some p ∧ x.state ≠ .ended ∧ openDay.plan.dayState ≠ .closing ∧ openDay.plan.dayDate = some openDay.clock.date ∧
      openDay.clock.secs < 32520 ∧ 32520 ≤ openDay.clock.secs + 120 ∧ openDay.session 0 .pm = some .before ∧
      ((sessionClose p 0 .am).any fun m => decide (m * 60 ≤ 32520)) = true ∧ openDay.session 0 .am ≠ none ∧
      ((sessionClose p 0 .pm).any fun m => decide (m * 60 ≤ 32520)) = false := by decide

theorem witness_opening_lists :
    let a := fun (d : Date) (p : Nat) => (⟨d, p, .both, none⟩ : Advance)
    let s : State := { live with
      clock := ⟨⟨4, 9, 2024⟩, 2, 25800, true⟩
      set.pupils := [(3, pupil3)]
      recon.advance := [a ⟨3, 9, 2024⟩ 3, a ⟨4, 9, 2024⟩ 3, a ⟨4, 9, 2024⟩ 4, a ⟨5, 9, 2024⟩ 3]
      store.dir := [some ⟨1, ⟨2, 9, 2024⟩, 1279, 2, 65, 0, true⟩, some ⟨2, ⟨3, 9, 2024⟩, 1, 1, 64, 0, true⟩] }
    let read : State := { s with store.job := .read ⟨1, entry, 0, [⟨260, 0, 2⟩]⟩ [] }
    s.ready ∧ s.plan.dayState = .closed ∧ (s.pupil 3).inUse = true ∧ (s.pupil 4).inUse = false ∧
      s.store.rebuildReads s.clock.date = [⟨1539, 0, 64⟩, ⟨260, 0, 1⟩, ⟨261, 0, 64⟩] ∧ read.store.waitingRead = none ∧
      read.store.job = .read ⟨1, entry, 0, [⟨260, 0, 2⟩]⟩ [] ∧
      isOk (buildTrack (s.storedPlan 0) (DayKind.ofCode 0) 0 0 s.clock.secs) = true := by decide

theorem witness_bell_lists :
    let p := nominalPlan (factoryPlan 0)
    let z : Zone := { Zone.initial with list := [bell .rung], act := .ringing (.event .dayEnd .dayEnd) }
    let s : State := { openDay with bells := Quad.all z }
    (bellsOf p 0).length = 10 ∧ (s.set.zones.get 0).track = some 0 ∧ (s.plan.tracks.get 0).plan = some p ∧
      (live.plan.tracks.get 0).plan = none ∧ (s.bells.get 0).act = .ringing (.event .dayEnd .dayEnd) ∧
      (bell .rung).outcome ≠ .pending ∧ ((s.bells.get 0).list.map (·.source)).Nodup := by decide

/-- Pupil 3 with a contact whose number is "1" and a threshold of 1. -/
def asking (r : Rec) : State := { school with set.contacts := [(9, contact1)], set.options.threshold := 1, reg.recs := [(6, r)] }

theorem witness_mark_requests :
    let s := asking { Rec.cleared with mark := .n, alert := .sent }
    let t := asking { Rec.cleared with mark := .l, minutes := 4, alert := .sending }
    (s.record 3 .am).mark ≠ .l ∧ (s.record 3 .am).alert = .sent ∧ (s.record 3 .am).corrected = false ∧
      (t.record 3 .am).mark = .l ∧ s.set.options.threshold ≤ min ((s.tally 3).count + 1) 15 ∧ (s.tally 3).notified = false ∧
      2 ≤ s.pool.freeDesc ∧ 12 ≤ s.pool.freeSegs ∧ s.recipients .notice (.pupil 3 .am) ≠ [] ∧
      Tab.wf zeroTally s.reg.tallies = true ∧ Tab.wf clearedAt s.reg.recs = true ∧
      (asking { Rec.cleared with mark := .p }).set.options.threshold ≠ 0 := by decide

theorem witness_serve_pass :
    let s : State := { asking { Rec.cleared with mark := .n, alert := .due } with
      recon.waits := [⟨.lateNotice, .pupil 3 .am, none, ⟨⟨2, 9, 2024⟩, 0⟩, 60⟩] }
    let none_ : State := { s with pool.freeDesc := 0, pool.credits := ⟨0, 0, 0, 0⟩ }
    let nobody : State := { s with set.contacts := [] }
    s.dueKeys = [2 * 3 + sessionCode .am] ∧ s.recon.waits ≠ [] ∧ (s.allocate .alert 6).isSome = true ∧
      (none_.allocate .alert 1).isNone = true ∧ s.recipients .alert (.pupil 3 .am) ≠ [] ∧
      nobody.recipients .alert (.pupil 3 .am) = [] ∧ nobody.recipients .notice (.pupil 3 .am) = [] := by decide

theorem witness_requests_for_storage :
    let full : State := { family with pool.freeDesc := 0, pool.credits.notice := 0 }
    let e : WaitEntry := ⟨.lateNotice, .pupil 3 .am, none, ⟨⟨2, 9, 2024⟩, 0⟩, 60⟩
    (family.record 3 .am).minutes < 1000 ∧ 1 ≤ family.pool.freeDesc ∧ 6 ≤ family.pool.freeSegs ∧
      family.recipients .notice (.pupil 3 .am) = [sender] ∧ full.pool.credits.get .notice = 0 ∧
      full.recon.waits.length < 32 ∧ 32 ≤ ({ full with recon.waits := List.replicate 32 e } : State).recon.waits.length := by decide

theorem witness_moves :
    let two : Outbound :=
      { notice (.sending 255 60) with recipients := [⟨0, [0x31#8], .text, some .voice⟩, sender], cursor := ⟨0, false, 1⟩ }
    let onVoice : Outbound := { two with cursor := ⟨0, true, 1⟩ }
    let last : Outbound := { two with cursor := ⟨1, false, 1⟩ }
    let s : State := { holding (message .notice .officeNotice (.out two)) with sched.out := [⟨255, 1⟩] }
    s.message 1 = some (message .notice .officeNotice (.out two)) ∧ 255 ∉ s.sched.released ∧ two.life ≠ some 0 ∧
      s.set.options.fallback ≤ two.cursor.attempts + 1 ∧ two.cursor.second = false ∧ two.secondChannel ≠ none ∧
      two.cursor.recipient + 1 < two.recipients.length ∧ onVoice.cursor.second = true ∧ last.secondChannel = none ∧
      last.recipients.length ≤ last.cursor.recipient + 1 := by decide

theorem witness_dead_alerts :
    let o : Outbound := { alert (.sending 255 60) with detached := true }
    let c : Message := { message .notice .arrivalCorrection (.out (notice .queued)) with number := 2 }
    let s : State := { holding (message .alert .absenceAlert (.out o)) with
      pool.msgs := [message .alert .absenceAlert (.out o), c]
      recon.waits := [⟨.arrivalCorrection, .pupil 3 .am, none, ⟨⟨2, 9, 2024⟩, 0⟩, 60⟩]
      sched.out := [⟨255, 1⟩] }
    s.message 1 = some (message .alert .absenceAlert (.out o)) ∧ o.subject = .pupil 3 .am ∧ o.detached = true ∧ s.dueKeys = [] ∧
      (s.record 3 .am).mark ≠ .n ∧ (∀ e ∈ s.recon.waits, e.kind = .arrivalCorrection ∧ e.subject = .pupil 3 .am) ∧
      (s.pool.msgs.map (·.number)).Nodup ∧ c.kind = .arrivalCorrection ∧ (notice .queued).subject = .pupil 3 .am := by decide

/-- Pupils 3 and 5 with contacts whose number is "1". -/
def siblings : State :=
  { family with set.pupils := [(3, pupil3), (5, { pupil3 with short := 6, badge := 78 })], set.contacts := [(9, contact1), (15, contact1)] }

theorem witness_routes :
    let absent : Text := [0x41#8, 0x42#8, 0x53#8, 0x45#8, 0x4E#8, 0x54#8]
    let past : Text := absent ++ [0x20#8, 0x31#8, 0x2F#8, 0x39#8]
    let reserve : State := { siblings with plan.dayState := .opening, pool.freeDesc := 0 }
    let closing : State := { siblings with plan.dayState := .closing }
    siblings.set.reportPupils [0x31#8] none = some [3, 5] ∧ [3, 5].Nodup ∧ siblings.plan.dayState = .opened ∧
      reserve.pool.freeDesc = 0 ∧ 1 ≤ reserve.pool.credits.report ∧ (∀ m ∈ reserve.pool.msgs, m.storage ≠ .reserve 0) ∧
      parseText siblings.clock.date past = .absence none ⟨1, 9, 2024⟩ false ∧
      ¬ (siblings.clock.date.number < Date.number ⟨1, 9, 2024⟩) ∧ closing.plan.dayState ≠ .opened ∧
      closing.plan.dayState ≠ .opening ∧ parseText siblings.clock.date absent = .absence none siblings.clock.date false := by decide

theorem witness_report_pool : siblings.poolBalances := by
  refine ⟨by decide, by decide, ?_, by decide, by decide, by decide, by decide⟩
  intro c
  cases c <;> decide

theorem witness_close_effects :
    let s : State := { openDay with
      set.pupils := [(3, pupil3), (5, { pupil3 with short := 6, group := 1 })]
      reg.status := [(0, .submitted)]
      reg.recs := [(7, { Rec.cleared with mark := .n, alert := .held, due := some 50000 })]
      store.dir := [none, some entry]
      pool := (alertIn .queued).pool }
    let full : State := { s with store.dir := [some { entry with commit := 2 }, some entry] }
    Tab.wf factoryPupil s.set.pupils = true ∧ Tab.wf clearedAt s.reg.recs = true ∧ s.session 0 .am = some .opened ∧
      s.session 0 .pm = some .before ∧ s.groupStatus 0 .am = .submitted ∧ s.groupStatus 1 .am = .awaited ∧ s.members 1 = [5] ∧
      s.members 2 = [] ∧ (s.record 3 .am).mark = .nothing ∧ (s.record 3 .pm).alert = .held ∧
      s.clock.secs < min (s.clock.secs + s.set.options.alertDelay * 60) 86399 ∧ s.recon.waits = [] ∧
      s.store.dir[0]? = some none ∧ none ∉ full.store.dir ∧ full.store.dir[1]? = some (some entry) ∧ entry.commit < 2 ∧
      s.pool.msgs = [message .alert .absenceAlert (.out (alert .queued))] := by decide

theorem witness_alert_told :
    let s : State := { school with reg.recs := [(7, { Rec.cleared with mark := .n, alert := .sent })] }
    s.ready ∧ s.plan.dayState = .opened ∧ (∀ (ph : SavePhase) (n : Nat), s.store.job ≠ .save ph n) ∧
      Tab.wf factoryPupil s.set.pupils = true ∧ Tab.wf clearedAt s.reg.recs = true ∧ (s.record 3 .pm).alert = .sent ∧
      s.pool.msgs = [] ∧ s.waitsHold ∧ s.poolBalances := by
  refine ⟨by decide, by decide, nofun, by decide, by decide, by decide, by decide, nofun, ?_⟩
  refine ⟨by decide, by decide, ?_, by decide, by decide, by decide, by decide⟩
  intro c
  cases c <;> decide

theorem witness_lamp_entry :
    let s : State := { live with set.lamps.q0.source := .gatewayLinkDown }
    s.lampOn 0 = true ∧ s.lampSource .off = false ∧ live.lampOn 0 = false ∧ live.lampSource .gatewayLinkDown = true ∧
      (1 : Fin 4) ≠ 0 := by decide

theorem witness_record_places :
    let e : DayEntry := ⟨1, ⟨2, 9, 2024⟩, 1279, 3, 65, 0, true⟩
    let s : State := { live with store.dir := [some e], store.bad := [0] }
    let busy : State := { s with store.job := .commit ⟨0, .openEntry⟩ }
    ((List.range e.pages).map fun k => (e.first + k) % 1280).filter (fun q => decide (q ∉ s.store.bad)) = [1279, 1] ∧
      63 ≤ e.records ∧ e.records ≤ 64 * 2 ∧ (s.store.readFor 9 e 63 8).pages = [⟨1539, 63, 1⟩, ⟨261, 0, 1⟩] ∧ some e ∈ busy.store.dir ∧
      busy.store.job = .commit ⟨0, .openEntry⟩ ∧
      ({ s with store.job := .rebuild [⟨260, 0, 1⟩] [] } : State).store.job = .rebuild [⟨260, 0, 1⟩] [] ∧
      ({ s with store.job := .save .writeCheck 0 } : State).store.job = .save .writeCheck 0 ∧
      ({ s with store.job := .read ⟨1, e, 0, [⟨260, 0, 1⟩]⟩ [] } : State).store.job = .read ⟨1, e, 0, [⟨260, 0, 1⟩]⟩ [] := by decide

theorem witness_page_failures :
    let save : State := { openDay with store.job := .save (.data 254) 0, store.op := .verifying 254 }
    let torn : State := { save with store.op := .blankCheck 254, store.retried := true, plan.deferredClose := true }
    let page : State := { committing (.page 1279) (.blankCheck 1539) with store.retried := true }
    let dirPage : State := { committing .openEntry (.blankCheck 256) with store.retried := true }
    let rebuild : State := { school with
      plan := { school.plan with dayState := .opening, deferredClose := true }
      store.job := .rebuild [⟨260, 0, 2⟩] []
      store.op := .reading 260 }
    let waits : State := { rebuild with store.waitingRead := some ⟨1, entry, 0, [⟨260, 0, 2⟩]⟩ }
    save.store.job = .save (.data 254) 0 ∧ save.store.op = .verifying 254 ∧ save.plan.deferredClose = false ∧
      torn.store.op = .blankCheck 254 ∧ torn.store.retried = true ∧ torn.plan.deferredClose = true ∧ torn.plan.dayState = .opened ∧
      page.store.op = .blankCheck 1539 ∧ 1539 = 260 + 1279 ∧ page.store.bad.length < 64 ∧ dirPage.store.op = .blankCheck 256 ∧
      dirPage.store.retried = true ∧ rebuild.plan.deferredClose = true ∧ rebuild.store.waitingRead = none ∧
      (∀ m ∈ rebuild.pool.msgs, m.kind ≠ .inbound) ∧ waits.store.waitingRead = some ⟨1, entry, 0, [⟨260, 0, 2⟩]⟩ := by decide

/-! ### Events of the Clock, completed records, recalls, and what follows a read -/

/-- An open day at 09:00, the AM close, with two bells due and one suppressed. -/
def onTheMinute : State :=
  let w : BellEvent := ⟨.warning, .warning, 530, .pending, none, none, false⟩
  let q : BellEvent := ⟨.segment 0, .start, 520, .suppressed, none, none, false⟩
  let z : Zone := { Zone.initial with list := [q, w, { bell .pending with time := 540 }] }
  { school with
    reg.status := [(0, .submitted)]
    bells := ⟨z, { z with act := .checking }, { z with act := .ringing .manual }, Zone.initial⟩ }

theorem witness_minute :
    let s := onTheMinute
    s.plan.dayState = .opened ∧ s.plan.dayDate = some s.clock.date ∧ ((s.bells.get 0).list.map (·.source)).Nodup ∧
      (s.bells.get 0).list.map (fun f => decide (f.outcome = .pending ∧ f.time * 60 ≤ s.clock.secs)) = [false, true, true] ∧
      (s.bells.get 1).act = .checking ∧ (s.bells.get 2).act = .ringing .manual ∧ s.session 0 .am = some .opened ∧
      ((s.plan.tracks.get 0).plan.bind fun p => sessionClose p 0 .am) = some 540 ∧ 540 * 60 ≤ s.clock.secs ∧
      Tab.wf factoryPupil s.set.pupils = true ∧ Tab.wf clearedAt s.reg.recs = true ∧ s.groupStatus 0 .am = .submitted ∧
      s.members 119 = [] ∧ (s.pupil 3).inUse = true ∧ (s.record 3 .am).mark = .nothing ∧ (s.record 3 .am).alert = .noAlert ∧
      s.clock.secs < min (540 * 60 + s.set.options.alertDelay * 60) 86399 ∧ s.session 0 .pm = some .before := by decide

set_option maxRecDepth 4096 in
/-- R47, R112: what the minute event makes of that state. -/
theorem test_minute :
    let u := onTheMinute.minute
    ((u.bells.get 0).list.map (·.outcome)) = [.suppressed, .ringing, .waiting] ∧ (u.bells.get 0).act = .ringing (.event .warning .warning) ∧
      (u.bells.get 1).lastCheck = some .aborted ∧ ((u.bells.get 2).list.map (·.outcome)) = [.suppressed, .waiting, .waiting] ∧
      u.session 0 .am = some .closed ∧ (u.record 3 .am).mark = .n ∧ (u.record 3 .am).due = some 33000 := by decide

theorem witness_events_of_a_second :
    let s : State := { ticking with clock.secs := 86339 }
    let m : State := { ticking with clock.secs := 86399 }
    s.clock.secs + 1 < 86400 ∧ (s.clock.secs + 1) % 60 = 0 ∧ 86400 ≤ m.clock.secs + 1 ∧ openDay.plan.dayState = .opened ∧
      openDay.store.job = .idle ∧ (ticking.clock.secs + 1) % 60 ≠ 0 := by decide

theorem witness_completed_records :
    let at_ := fun l : List Byte => ({ live with stations := Hex.all { Station.initial with asm := some l } } : State)
    let s := at_ [0xE1#8, 0x01#8, 0x07#8, 0x00#8, 0x00#8, 0x00#8, 0x04#8]
    let gw := fun l : List Byte => ({ live with gw.asm := some l } : State)
    (s.stations.get 0).asm = some [0xE1#8, 0x01#8, 0x07#8, 0x00#8, 0x00#8, 0x00#8, 0x04#8] ∧
      (gw [0x01#8, 0x00#8, 0x02#8, 0x04#8, 0x00#8]).gw.asm = some (0x01#8 :: 0x00#8 :: 0x02#8 :: [0x04#8, 0x00#8]) ∧
      sum256 (0x01#8 :: 0x00#8 :: 0x02#8 :: [0x04#8, 0x00#8] ++ [0xF9#8]) = 0 ∧
      sum256 (0x02#8 :: 0x00#8 :: 0x02#8 :: [0xFF#8, 0x01#8] ++ [0xFC#8]) = 0 ∧
      sum256 (0x03#8 :: 0x00#8 :: 0x04#8 :: (0x01#8 :: [0x31#8] ++ 0x01#8 :: [0x41#8]) ++ [0x85#8]) = 0 ∧
      sum256 (0x04#8 :: 0x00#8 :: 0x00#8 :: [] ++ [0x00#8]) ≠ 0 ∧
      (0x02#8 : Byte).toNat = [0x04#8, 0x00#8].length ∧ (0x04#8 : Byte).toNat = (0x01#8 :: [0x31#8] ++ 0x01#8 :: [0x41#8]).length := by
  decide

/-- R62, R157: the completing characters of the records above. -/
theorem test_completed_records :
    let s : State := { live with
      stations := Hex.all { Station.initial with asm := some [0xE1#8, 0x01#8, 0x07#8, 0x00#8, 0x00#8, 0x00#8, 0x04#8] }
      gw.asm := some [0x01#8, 0x00#8, 0x02#8, 0x04#8, 0x00#8] }
    ((after (exec (.stationCharacter 0 0xF4#8) s)).desk.cur.isSome = true) ∧
      (after (exec (.gatewayCharacter 0xF9#8) s)).gw.window = some ⟨4, true⟩ := by decide

/-- Two notices and an alert that R162 judges, awaiting results. -/
def awaiting : State :=
  let n := message .notice .officeNotice (.out (notice (.sending 1 60)))
  let o : Outbound := { alert (.sending 2 60) with detached := true }
  let a : Message := { message .alert .absenceAlert (.out o) with number := 2 }
  { holding n with
    pool.msgs := [n, a, { n with number := 3, body := .out (notice (.sending 3 60)) }, { n with number := 4 }]
    pool.freeDesc := 44
    pool.freeSegs := 92
    pool.nextNum := 5
    sched.noticeQ := [4]
    sched.out := [⟨1, 1⟩, ⟨2, 2⟩, ⟨3, 3⟩] }

theorem witness_recalls :
    let s := awaiting
    s.sched.out ≠ [] ∧ (∀ b ∈ s.sched.out, ((s.message b.number).bind Message.outbound).isSome = true) ∧ s.dueKeys = [] ∧
      s.recon.waits = [] ∧ (∀ m ∈ s.pool.msgs, m.kind ≠ .arrivalCorrection) ∧ (s.sched.out.map (·.number)).Nodup ∧
      (s.sched.out.map fun b => (s.message b.number).any fun m => (s.deadAlert m).isNone) = [true, false, true] ∧
      Tab.wf clearedAt s.reg.recs = true := by decide

/-- R153, R158, R162: the recalled notices stand at the head, in submission order; the dead alert is gone. -/
theorem test_recalls :
    let t := awaiting.recall awaiting.sched.out
    t.sched.noticeQ = [1, 3, 4] ∧ t.pool.msgs.map (·.number) = [1, 3, 4] ∧ t.gw.stats.recalls = 3 ∧ t.sched.out = [] := by decide

/-- R136, R153: a recalled correction that the dead alert after it withdraws gives its number up, and the message that takes the number in
the serve pass stands in its queue once. -/
theorem test_recalled_number :
    let c : Message := { message .notice .arrivalCorrection (.out (notice (.sending 1 60))) with number := 7 }
    let a : Message := { message .alert .absenceAlert (.out (alert (.sending 2 60))) with number := 8 }
    let e : WaitEntry := ⟨.lateNotice, .pupil 3 .am, none, ⟨⟨2, 9, 2024⟩, 0⟩, 60⟩
    let s : State := { family with
      pool.msgs := [c, a]
      pool.freeDesc := 46
      pool.freeSegs := 94
      pool.nextNum := 6
      recon.waits := [e, e]
      sched.out := [⟨1, 7⟩, ⟨2, 8⟩] }
    (s.recall s.sched.out).sched.noticeQ = [6, 7] := by decide

theorem witness_longest_list :
    let m : Message := { message .receipt .reportReceipt (.out { notice .queued with
      subject := .sender (List.replicate 15 0x31#8) 1 }) with text := [] }
    let s : State := { live with pool.msgs := List.replicate 8 m }
    237 < (((s.pool.msgs.drop 0).take 8).map fun m => m.bytes.length).sum ∧ s.ready := by decide

theorem witness_held_reports :
    let n := message .report .inbound (.report ⟨[0x31#8], none, []⟩)
    let s : State := { school with
      plan.dayState := .opening
      store.job := .rebuild [⟨260, 0, 2⟩] []
      store.op := .reading 260
      pool := (holding n).pool }
    let d : State := { s with plan.deferredClose := true }
    s.store.op = .reading 260 ∧ s.store.job = .rebuild [⟨260, 0, 2⟩] [] ∧ s.store.waitingRead = none ∧
      s.plan.deferredClose = false ∧ d.plan.deferredClose = true ∧ s.message 1 = some n ∧
      (∀ y ∈ s.pool.msgs, y.number = 1 → y = n) ∧ parseText s.clock.date n.text = .unmatched false ∧
      ((marked .l false).record 3 .am).locked = false ∧ ((marked .l false).record 3 .am).mark = .l := by decide

theorem witness_read_pages :
    let r : ReadReq := ⟨1, entry, 0, [⟨260, 63, 1⟩, ⟨261, 0, 1⟩]⟩
    let s : State := { openDay with store.job := .read r [], store.op := .reading 260, link.hand := some ⟨1, 0x41, false⟩ }
    let last : State := { s with store.job := .read { r with pages := [⟨261, 0, 1⟩] } [], store.op := .reading 261 }
    let commit : State := { last with
      plan.dayState := .closing
      store.pendingJob := some .commit
      store.dir := [some { entry with commit := 2 }, none] }
    let full : State := { commit with store.dir := [some { entry with commit := 2 }, some entry] }
    let rebuild : State := { last with
      plan.dayState := .opening
      store.pendingJob := some .rebuild
      store.dir := [some { entry with date := ⟨1, 9, 2024⟩ }] }
    let week : State := { rebuild with plan.dayDate := some ⟨3, 9, 2024⟩, store.dir := [some entry] }
    s.plan.deferredClose = false ∧ r.pages = ⟨260, 63, 1⟩ :: ⟨261, 0, 1⟩ :: [] ∧ commit.store.pendingJob = some .commit ∧
      commit.store.dir[1]? = some none ∧ commit.store.dir[0]? ≠ some none ∧ none ∉ full.store.dir ∧
      full.store.dir[1]? = some (some entry) ∧ entry.commit < 2 ∧ rebuild.store.rebuildReads ⟨2, 9, 2024⟩ = [] ∧
      rebuild.plan.dayDate = some ⟨2, 9, 2024⟩ ∧ (∀ m ∈ rebuild.pool.msgs, m.kind ≠ .inbound) ∧
      week.store.rebuildReads ⟨3, 9, 2024⟩ = [⟨260, 0, 2⟩] ∧ rebuild.store.waitingRead = none := by decide

theorem witness_call_slips :
    let s : State := { school with
      reg.recs := [(6, { Rec.cleared with mark := .n, source := some .close, alert := .held, due := some 32400 })] }
    let full : State := { s with slips.queue := List.replicate 64 ⟨.late, 1, none, 3, 4, [], [], .am, .lateness 31500 .l 3 false⟩ }
    (s.record 3 .am).alert = .held ∧ (s.record 3 .am).mark = .n ∧ s.recipients .alert (.pupil 3 .am) = [] ∧ s.dueKeys = [] ∧
      s.recon.waits = [] ∧ Tab.wf clearedAt s.reg.recs = true ∧ (∀ m ∈ s.pool.msgs, m.number ≠ s.pool.nextNum) ∧
      1 ≤ s.pool.freeDesc ∧ 6 ≤ s.pool.freeSegs ∧ s.slips.queue.length < 64 ∧ 64 ≤ full.slips.queue.length := by decide

set_option maxRecDepth 4096 in
/-- R91: the CALL slip of an alert without a recipient moves to the empty slot. -/
theorem test_call_slip :
    let s : State := { school with
      reg.recs := [(6, { Rec.cleared with mark := .n, source := some .close, alert := .held, due := some 32400 })] }
    let t := after (exec (.alertDue 3 .am) s)
    (t.record 3 .am).alert = .undelivered ∧ t.slips.slot.map (·.body) = some (.call .noRecipient 32400 []) ∧
      t.pool.freeDesc = 48 := by decide

/-- A directory page whose first slot holds an entry, with an empty bad page table and its check; the other bytes are FFh. -/
def directoryCells : List (Nat × Byte) :=
  (entryBytes entry).zipIdx.map (fun e => (262144 + e.2, e.1)) ++ [(262144 + 128, 0#8)] ++
    ((b4 (checkWord (byteSum (entryBytes entry) + 1003 * 255))).zipIdx.map fun e => (262144 + 1020 + e.2, e.1)).filter
      fun e => e.2 != 0xFF#8

set_option maxRecDepth 4096 in
theorem witness_directory :
    let at_ := fun i : Nat => (Memory.read directoryCells (256 * 1024 + i)).toNat
    let word := at_ 1020 * 16777216 + at_ 1021 * 65536 + at_ 1022 * 256 + at_ 1023
    Memory.wf directoryCells = true ∧ at_ 0 = 1 ∧ at_ 4 = 1 ∧ at_ 15 = 0 ∧ at_ 128 = 0 ∧
      (((List.range 1020).map at_).sum + word) % 4294967296 = 0 := by
  intro at_ word
  have rest : ∀ i ∈ List.range' 129 891, at_ i = 255 := by
    intro i h
    obtain ⟨k, h, rfl⟩ := List.mem_range'.mp h
    have low : ∀ (l : List (Nat × Byte)) (a : Nat), (∀ e ∈ l, e.1 ≠ a) → Memory.read l a = 0xFF#8 := by
      intro l
      induction l with
      | nil => intro a _; rfl
      | cons e l ih =>
        intro a h
        rw [Memory.read, Tab.get, if_neg (Ne.symm (h e (List.mem_cons_self ..)))]
        exact ih a fun e' h' => h e' (List.mem_cons_of_mem _ h')
    have := low directoryCells (256 * 1024 + (129 + 1 * k)) (by
      intro e he
      have : ∀ e ∈ directoryCells, e.1 < 262144 + 129 ∨ 262144 + 1020 ≤ e.1 := by decide
      rcases this e he with h | h <;> omega)
    simp only [at_, this]
    rfl
  have sum : ((List.range 1020).map at_).sum = ((List.range 129).map at_).sum + 891 * 255 := by
    rw [show List.range 1020 = List.range 129 ++ List.range' 129 891 from by
      rw [List.range_eq_range', List.range_eq_range', List.range'_append_1], List.map_append, List.sum_append,
      List.map_congr_left rest, List.map_const', List.length_range', List.sum_replicate_nat]
  refine ⟨by decide, by decide, by decide, by decide, by decide, ?_⟩
  rw [sum]
  decide

/-! ### Loads with a frame waiting, longer writes, forward steps, failures of every class -/

theorem witness_load_with_frames :
    let w : Waiting := ⟨1, .hello⟩
    let s : State := { State.reset with link.queue := [w] }
    s.link.loading = true ∧ s.link.hand = none ∧ s.link.queue = w :: [] := by decide

/-- R208: the load's end takes the first frame that waits, and its reply is made. -/
theorem test_load_takes :
    (State.take { live with link.queue := [⟨7, .hello⟩] } ⟨7, .hello⟩ []).link.sending.map (fun f => (f.kind, f.tag)) =
      some (0x81, 7) := by decide

theorem witness_longer_writes :
    let e := pupil3.bytes
    let s : State := { live with link.cursor := ⟨.pupils, 2398, .both⟩ }
    s.ready ∧ 3 ≤ TableName.pupils.perRequest ∧ splitEntries .pupils 3 (e ++ e ++ e) = some [e, e, e] ∧
      isOk (writeEntry .pupils s 2398 e) = true ∧ writeEntry .pupils s 2398 [] = .error ⟨.badArg, none⟩ ∧
      2398 ≠ TableName.pupils.first + TableName.pupils.entries - 1 ∧
      2399 = TableName.pupils.first + TableName.pupils.entries - 1 := by decide

/-- Fifty seconds before the AM close, with an alert HELD until five seconds after it. -/
def beforeClose : State :=
  { onTheMinute with
    clock.secs := 32350
    set.pupils := [(3, pupil3), (4, pupil3)]
    reg.recs := [(8, { Rec.cleared with mark := .n, alert := .held, due := some 32405 })] }

theorem witness_step_over_a_close :
    let s := beforeClose
    s.ready ∧ s.clock.isSet = true ∧ s.plan.dayState = .opened ∧ s.plan.dayDate = some s.clock.date ∧
      Tab.wf factoryPupil s.set.pupils = true ∧ Tab.wf clearedAt s.reg.recs = true ∧ Tab.wf zeroTally s.reg.tallies = true ∧
      ((s.plan.tracks.get 0).plan.bind fun p => sessionClose p 0 .am) = some 540 ∧ s.session 0 .am = some .opened ∧
      s.groupStatus 0 .am = .submitted ∧ (s.record 3 .am).mark = .nothing ∧ (s.record 4 .am).alert = .held ∧
      ({ s with plan.dayState := .closing } : State).plan.dayState = .closing := by decide

set_option maxRecDepth 4096 in
/-- A step that closes no session, in which the one alert falls due when it is HELD until then, and none when it is HELD until later. -/
theorem witness_step_without_a_close :
    let held := fun k : Nat =>
      ({ beforeClose with reg.recs := [(8, { Rec.cleared with mark := .n, alert := .held, due := some k })] } : State)
    let u := ({ held 32360 with clock.secs := 32370 } : State).followTracks.alertsDue
    (∀ i : Fin 4, ∀ ss ∈ [Session.am, Session.pm], u.session i ss = some .closed → (held 32360).session i ss = some .closed) ∧
      ((held 32360).record 4 .am).due = some 32360 ∧ 32360 ≤ 32370 ∧ (∀ e ∈ (held 32360).reg.recs, e.1 = 2 * 4 + sessionCode .am) ∧
      (∀ e ∈ (held 32380).reg.recs, e.2.alert = .held ∧ e.2.due = some 32380) ∧ 32370 < 32380 := by decide

set_option maxRecDepth 4096 in
/-- R19, R112, R107: a step over the AM close marks the pupil N, its alert HELD for the delay, and the alert due within the step falls due. -/
theorem test_forward_step :
    let t := after (exec (.clockSet 1 ⟨2, 9, 24⟩ ⟨9, 0, 10⟩) beforeClose)
    t.session 0 .am = some .closed ∧ (t.record 3 .am).mark = .n ∧ (t.record 3 .am).due = some 33000 ∧
      (t.record 4 .am).alert = .undelivered ∧ t.clock.secs = 32410 := by decide

/-- A message of a class in SENDING under tag 1, whose tag an earlier timeout has released too. -/
def sendingIn (c : MsgClass) (k : MsgKind) (o : Outbound) : State :=
  { holding (message c k (.out o)) with
    reg.recs := [(6, { Rec.cleared with mark := .n, alert := .sending })]
    sched.out := [⟨1, 1⟩]
    sched.released := [1] }

theorem witness_failures :
    let a := sendingIn .alert .absenceAlert (alert (.sending 1 60))
    let r := sendingIn .receipt .reportReceipt { notice (.sending 1 60) with subject := .sender [0x31#8] 9, life := some 0 }
    let dead : State := { a with reg.recs := [] }
    let n := a.set.options.fallback
    a.sched.out = [] ++ ⟨1, 1⟩ :: [] ∧ 1 ∈ a.sched.released ∧ (a.record 3 .am).mark = .n ∧ (dead.record 3 .am).mark ≠ .n ∧
      Tab.wf clearedAt a.reg.recs = true ∧ (∀ x ∈ a.pool.msgs, x.number = 1 → x = message .alert .absenceAlert (.out (alert (.sending 1 60)))) ∧
      0 + 1 < n ∧ n ≤ 3 + 1 ∧ (alert (.sending 1 60)).recipients.length ≤ 0 + 1 ∧ (alert (.sending 1 60)).life ≠ some 0 ∧
      (r.message 1).bind Message.outbound = some { notice (.sending 1 60) with subject := .sender [0x31#8] 9, life := some 0 } := by
  decide

/-- R161, R154: INVALID_NUMBER at an alert's only recipient ends it UNDELIVERED. -/
theorem test_alert_invalid_number :
    let t := after (exec (.result 1 2) (sendingIn .alert .absenceAlert (alert (.sending 1 60))))
    (t.record 3 .am).alert = .undelivered ∧ t.pool.msgs = [] ∧ t.link.isSet .alertUndelivered = true ∧ t.slips.slot.isSome = true := by
  decide

theorem witness_timers_of_every_class :
    let a := holding (message .alert .absenceAlert (.out (alert (.waitRetry 9))))
    let r := holding (message .receipt .reportReceipt (.out { notice (.waitRetry 9) with subject := .sender [0x31#8] 9 }))
    (a.message 1).bind Message.outbound = some (alert (.waitRetry 9)) ∧ (alert (.waitRetry 9)).life = none ∧
      (r.message 1).bind Message.outbound = some { notice (.waitRetry 9) with subject := .sender [0x31#8] 9 } ∧
      (notice (.waitRetry 9)).life = some 60 := by decide

theorem witness_read_after_rebuild :
    let x : ReadReq := ⟨1, entry, 0, [⟨260, 0, 2⟩]⟩
    let s : State := { school with
      plan.dayState := .opening
      store.job := .rebuild [⟨260, 0, 2⟩] []
      store.op := .reading 260
      store.waitingRead := some x
      link.hand := some ⟨1, 0x41, false⟩ }
    let none_ : State := { s with store.waitingRead := some { x with pages := [] } }
    s.store.op = .reading 260 ∧ s.store.job = .rebuild [⟨260, 0, 2⟩] [] ∧ s.store.waitingRead = some x ∧ s.plan.deferredClose = false ∧
      x.pages = ⟨260, 0, 2⟩ :: [] ∧ none_.store.waitingRead = some ⟨1, entry, 0, []⟩ ∧ none_.link.hand = some ⟨1, 0x41, false⟩ := by
  decide

end Sys2Proof.Tests
end

