-- ==== Sys2Proof/Proofs/FrameOfPoolAndDelivery.lean ====
section
/-! SUPPORT. The parts of State that the invariants of every step speak of, and how each shared operation of the bells, the slips, the pool
and the delivery keeps them. -/

namespace Sys2Proof.Machine

/-- What the invariants of every step speak of: the settings, the gateway's link and the submissions outstanding, the store's bytes and
job, the Register's tables, and the notice wait list. -/
structure Guarded where
  set : Settings
  up : Bool
  window : Option Window
  out : List Submission
  mem : List (Nat × Byte)
  job : Job
  recs : Tab Rec
  status : Tab GroupStatus
  tallies : Tab Tally
  waits : List WaitEntry

def State.guarded (s : State) : Guarded :=
  ⟨s.set, s.gw.up, s.gw.window, s.sched.out, s.store.mem, s.store.job, s.reg.recs, s.reg.status, s.reg.tallies, s.recon.waits⟩

/-- The tallies, and those that a rebuild under way has gathered, are in their canonical form. -/
def Guarded.tallied (x : Guarded) : Prop :=
  Tab.wf zeroTally x.tallies = true ∧ ∀ (l : List PageRead) (acc : Tab Tally), x.job = .rebuild l acc → Tab.wf zeroTally acc = true

/-- What a step that writes no settings, makes no submission and leaves the link as it is does to the guarded parts: the settings, the
link and the window stay, submissions are only taken away, and each canonical form is kept. -/
structure Guarded.Le (x y : Guarded) : Prop where
  set : y.set = x.set
  up : y.up = x.up
  window : y.window = x.window
  out : y.out.Sublist x.out
  mem : Memory.wf x.mem = true → Memory.wf y.mem = true
  recs : Tab.wf clearedAt x.recs = true → Tab.wf clearedAt y.recs = true
  status : Tab.wf awaitedAt x.status = true → Tab.wf awaitedAt y.status = true
  tallies : x.tallied → y.tallied
  waits : (∀ e ∈ x.waits, e.kind ≠ .absenceAlert) → ∀ e ∈ y.waits, e.kind ≠ .absenceAlert

/-- `b` follows from `a` by operations that keep the invariants of every step and change neither the settings nor the gateway's link. An
operation on parts that are not guarded keeps this by definition: its proof is the hypothesis itself. -/
def Keeps (a b : State) : Prop := a.guarded.Le b.guarded

namespace Keeps

variable {a s t : State}

theorem refl (s : State) : Keeps s s := ⟨rfl, rfl, rfl, List.Sublist.refl _, id, id, id, id, id⟩

theorem trans (h : Keeps a s) (k : Keeps s t) : Keeps a t :=
  ⟨k.set.trans h.set, k.up.trans h.up, k.window.trans h.window, k.out.trans h.out, k.mem ∘ h.mem, k.recs ∘ h.recs,
    k.status ∘ h.status, k.tallies ∘ h.tallies, k.waits ∘ h.waits⟩

theorem foldl {β : Type} {f : State → β → State} (hf : ∀ (s : State) (x : β), Keeps a s → Keeps a (f s x)) (h : Keeps a s)
    (l : List β) : Keeps a (l.foldl f s) := by
  induction l generalizing s with
  | nil => exact h
  | cons x l ih => exact ih (hf s x h)

/-! ## The guarded parts themselves -/

theorem putRec (h : Keeps a s) (p : Nat) (ss : Session) (r : Rec) : Keeps a (s.putRec p ss r) :=
  { h with recs := fun hw => Tab.wf_put (h.recs hw) _ _ }

theorem modRec (h : Keeps a s) (p : Nat) (ss : Session) (f : Rec → Rec) : Keeps a (s.modRec p ss f) := h.putRec _ _ _

theorem putTally (h : Keeps a s) (p : Nat) (t : Tally) : Keeps a (s.putTally p t) :=
  { h with tallies := fun hw => ⟨Tab.wf_put (h.tallies hw).1 _ _, (h.tallies hw).2⟩ }

theorem setGroupStatus (h : Keeps a s) (g : Nat) (ss : Session) (v : GroupStatus) : Keeps a (s.setGroupStatus g ss v) :=
  { h with status := fun hw => Tab.wf_put (h.status hw) _ _ }

theorem raise (h : Keeps a s) (c : Condition) : Keeps a (s.raise c) := h

theorem raiseAll (h : Keeps a s) (l : List Condition) : Keeps a (s.raiseAll l) := foldl (f := State.raise) (fun _ c h => h.raise c) h l

/-- A field of the store other than its bytes and its job changes. -/
theorem storeJob (h : Keeps a s) {x : Store} (hm : x.mem = s.store.mem)
    (hj : ∀ (l : List PageRead) (acc : Tab Tally), x.job ≠ .rebuild l acc) : Keeps a { s with store := x } :=
  { h with
    mem := fun hw => (congrArg Memory.wf hm).trans (h.mem hw)
    tallies := fun hw => ⟨(h.tallies hw).1, fun l acc e => absurd e (hj l acc)⟩ }

theorem storeMem (h : Keeps a s) {x : Store} (hj : x.job = s.store.job)
    (hm : Memory.wf s.store.mem = true → Memory.wf x.mem = true) : Keeps a { s with store := x } :=
  { h with
    mem := fun hw => hm (h.mem hw)
    tallies := fun hw => ⟨(h.tallies hw).1, fun l acc e => (h.tallies hw).2 l acc (hj.symm.trans e)⟩ }

theorem waitsOf (h : Keeps a s) {x : Recon} (hx : s.waitsHold → ∀ e ∈ x.waits, e.kind ≠ .absenceAlert) :
    Keeps a { s with recon := x } :=
  { h with waits := fun hw => hx (h.waits hw) }

theorem outOf (h : Keeps a s) {x : Scheduler} (hx : x.out.Sublist s.sched.out) : Keeps a { s with sched := x } :=
  { h with out := hx.trans h.out }

/-! ## Bells, conflicts, slips -/

theorem onZone (h : Keeps a s) (z : Fin 4) (f : ZoneCfg → Zone → Zone × List Condition) : Keeps a (s.onZone z f) :=
  raiseAll (s := { s with bells := s.bells.set z (f (s.set.zones.get z) (s.bells.get z)).1 }) h _

theorem recomputeBells (h : Keeps a s) (t : Fin 4) : Keeps a (s.recomputeBells t) := h

theorem ringDueBells (h : Keeps a s) : Keeps a s.ringDueBells :=
  foldl (s := s.onZones _) (fun _ _ h => foldl (fun _ _ h => h.onZone _ _) h _) h _

theorem handConflict (h : Keeps a s) (p : Nat) (ss : Session) (kind : ConflictKind) (mark : Mark) :
    Keeps a (s.handConflict p ss kind mark) := by
  unfold State.handConflict
  split
  · exact h
  · split
    · refine raise (modRec ?_ _ _ _) _
      exact h
    · exact h

theorem removeConflict (h : Keeps a s) (c : Conflict) : Keeps a (s.removeConflict c) := by
  refine modRec ?_ _ _ _
  exact h

theorem emptyConflicts (h : Keeps a s) : Keeps a s.emptyConflicts :=
  foldl (fun _ c h => h.removeConflict c) h _

theorem takeAdvance (h : Keeps a s) (p : Nat) (d : Date) (ss : Sessions) (report : Option Nat) :
    Keeps a (s.takeAdvance p d ss report).1 := by
  unfold State.takeAdvance
  repeat' split
  all_goals exact h

theorem joinWait (h : Keeps a s) {e : WaitEntry} (he : e.kind ≠ .absenceAlert) : Keeps a (s.joinWait e).1 := by
  unfold State.joinWait
  split
  · refine h.waitsOf fun hw x hx => ?_
    rcases List.mem_append.mp hx with hx | hx
    · exact hw x hx
    · exact List.mem_singleton.mp hx ▸ he
  · exact h

theorem withdrawWaits (h : Keeps a s) (kind : MsgKind) (p : Nat) (ss : Session) : Keeps a (s.withdrawWaits kind p ss) :=
  h.waitsOf fun hw e he => hw e (List.mem_filter.mp he).1

theorem fillSlot (h : Keeps a s) : Keeps a s.fillSlot := by
  unfold State.fillSlot
  split <;> exact h

theorem joinSlip (h : Keeps a s) (x : Slip) : Keeps a (s.joinSlip x).1 := by
  unfold State.joinSlip
  split
  · exact fillSlot (s := { s with slips := _, desk := _ }) h
  · exact h

theorem lateSlip (h : Keeps a s) (p : Nat) (ss : Session) (arrival : Nat) (mark : Mark) (minutes : Nat) (expected : Bool) :
    Keeps a (s.lateSlip p ss arrival mark minutes expected).1 := by
  unfold State.lateSlip
  split
  · exact h
  · exact h.joinSlip _

theorem callSlip (h : Keeps a s) (p : Nat) (ss : Session) (reason : CallReason) : Keeps a (s.callSlip p ss reason) :=
  h.joinSlip _

theorem stallPrinter (h : Keeps a s) : Keeps a s.stallPrinter := h

theorem printerReadyReport (h : Keeps a s) : Keeps a s.printerReadyReport := by
  unfold State.printerReadyReport
  split
  · exact h
  · exact h
  · exact h
  · exact fillSlot (s := { s with slips := _ }) h
  · split
    · exact h
    · exact fillSlot (s := { s with slips := _ }) h

theorem paperOutReport (h : Keeps a s) : Keeps a s.paperOutReport := by
  unfold State.paperOutReport
  split <;> exact h

theorem slipSent (h : Keeps a s) : Keeps a s.slipSent := by
  unfold State.slipSent
  split <;> exact h

theorem stallReached (h : Keeps a s) : Keeps a s.stallReached := by
  unfold State.stallReached
  split <;> exact h

theorem slipSecond (h : Keeps a s) : Keeps a s.slipSecond := by
  dsimp only [State.slipSecond]
  repeat' split
  all_goals exact h

/-! ## Pool and delivery -/

theorem allocate (h : Keeps a s) {c : MsgClass} {k : Nat} {st : Storage} (e : s.allocate c k = some (t, st)) : Keeps a t := by
  rcases s.allocate_cases c k with ⟨_, _, e'⟩ | ⟨_, _, _, _, e'⟩ | ⟨_, _, e'⟩ <;> rw [e'] at e <;> cases e
  · exact h
  · exact h

theorem addMessage (h : Keeps a s) (c : MsgClass) (k : MsgKind) (st : Storage) (text : Text) (b : MsgBody) :
    Keeps a (s.addMessage c k st text b) := h

theorem modMessage (h : Keeps a s) (n : Nat) (f : Message → Message) : Keeps a (s.modMessage n f) := h

theorem setQueue (h : Keeps a s) (c : MsgClass) (l : List Nat) : Keeps a { s with sched := s.sched.setQueue c l } := by
  cases c <;> exact h

theorem enqueue (h : Keeps a s) (c : MsgClass) (n : Nat) : Keeps a (s.enqueue c n) := h.setQueue _ _

theorem dequeue (h : Keeps a s) (c : MsgClass) (n : Nat) : Keeps a (s.dequeue c n) := h.setQueue _ _

theorem countEnd (h : Keeps a s) (c : MsgClass) (f : EndCounts → EndCounts) : Keeps a (s.countEnd c f) := h

theorem release (h : Keeps a s) (m : Message) : Keeps a (s.release m) := by
  unfold State.release
  split <;> exact h

theorem alertUndelivered (h : Keeps a s) (p : Nat) (ss : Session) (reason : CallReason) :
    Keeps a (s.alertUndelivered p ss reason) := ((h.modRec p ss _).raise _).callSlip p ss reason

theorem storeOut (h : Keeps a s) {cls : MsgClass} {kind : MsgKind} {subj : Subject} {text : Text} {life : Option Nat}
    {st : Stored} (e : s.storeOut cls kind subj text life = some (t, st)) : Keeps a t := by
  dsimp only [State.storeOut] at e
  split at e
  · cases e
  · rename_i s1 st' he
    have h1 := h.allocate he
    split at e
    · split at e <;> cases e
      · exact ((h1.addMessage cls kind st' text _).countEnd cls EndCounts.addUndelivered).release _
      · exact h1
    · cases e
      exact (h1.addMessage cls kind st' text _).enqueue _ _

theorem tryAlert (h : Keeps a s) {p : Nat} {ss : Session} {st : Stored} (e : s.tryAlert p ss = some (t, st)) : Keeps a t := by
  dsimp only [State.tryAlert] at e
  split at e
  · cases e
  · rename_i he
    cases e
    exact (h.storeOut he).modRec _ _ _
  · rename_i he
    cases e
    exact ((h.storeOut he).modRec _ _ _).alertUndelivered _ _ _

theorem tryEntry (h : Keeps a s) {e : WaitEntry} {st : Stored} (he : s.tryEntry e = some (t, st)) : Keeps a t := h.storeOut he

theorem serveAlerts (h : Keeps a s) (l : List Nat) : Keeps a (serveAlerts l s) := by
  induction l generalizing s with
  | nil => exact h
  | cons k l ih =>
    unfold Machine.serveAlerts
    split
    · exact h
    · rename_i he
      exact ih (h.tryAlert he)

theorem serveWaits (h : Keeps a s) (fuel : Nat) : Keeps a (serveWaits fuel s) := by
  induction fuel generalizing s with
  | zero => exact h
  | succ fuel ih =>
    unfold Machine.serveWaits
    split
    · exact h
    · rename_i e rest hs
      split
      · exact h
      · rename_i t st he
        have hrest : ∀ x ∈ rest, x ∈ s.recon.waits := fun x hx => hs ▸ List.mem_cons_of_mem e hx
        exact ih { h.tryEntry he with waits := fun hw x hx => h.waits hw x (hrest x hx) }

theorem servePass (h : Keeps a s) : Keeps a s.servePass := (h.serveAlerts _).serveWaits _

theorem freeMessage (h : Keeps a s) (m : Message) : Keeps a (s.freeMessage m) := (h.release m).servePass

theorem afterStored (h : Keeps a s) (x : Stored) : Keeps a (s.afterStored x) := by
  cases x
  · exact h
  · exact h.servePass

theorem countReject (h : Keeps a s) (c : MsgClass) : Keeps a (s.countReject c) := h

theorem alertBecomesDue (h : Keeps a s) (p : Nat) (ss : Session) : Keeps a (s.alertBecomesDue p ss) := by
  dsimp only [State.alertBecomesDue]
  split
  · exact (h.modRec _ _ _).countReject _
  · rename_i he
    exact ((h.modRec _ _ _).tryAlert he).afterStored _

theorem requestMsg (h : Keeps a s) {kind : MsgKind} (hk : kind ≠ .absenceAlert) (subj : Subject) (template : Option Nat) :
    Keeps a (s.requestMsg kind subj template).1 := by
  dsimp only [State.requestMsg]
  split
  · rename_i he
    exact (h.tryEntry he).afterStored _
  · exact (h.countReject _).joinWait hk

theorem requestDirect (h : Keeps a s) (p : Nat) (ss : Session) (text : Text) : Keeps a (s.requestDirect p ss text).1 := by
  unfold State.requestDirect
  split
  · rename_i he
    exact (h.storeOut he).afterStored _
  · exact h

theorem storeReport (h : Keeps a s) {sender text : Text} {n : Nat} (e : s.storeReport sender text = some (t, n)) : Keeps a t := by
  unfold State.storeReport at e
  split at e
  · cases e
  · rename_i he
    cases e
    exact (h.allocate he).addMessage _ _ _ _ _

theorem modOut (h : Keeps a s) (n : Nat) (f : Outbound → Outbound) : Keeps a (s.modOut n f) := h

theorem alertMark (h : Keeps a s) (m : Message) (x : AlertState) : Keeps a (s.alertMark m x) := by
  unfold State.alertMark
  repeat' split
  · exact h
  · exact h.modRec _ _ _
  · exact h
  · exact h

theorem finishMessage (h : Keeps a s) (m : Message) (f : EndCounts → EndCounts) : Keeps a (s.finishMessage m f) :=
  ((h.dequeue _ _).countEnd _ _).freeMessage m

theorem withdraw (h : Keeps a s) (m : Message) : Keeps a (s.withdraw m) := (h.alertMark _ _).finishMessage _ _

theorem withdrawAll (h : Keeps a s) (ns : List Nat) : Keeps a (s.withdrawAll ns) := by
  refine foldl (fun t n h => ?_) h ns
  repeat' split
  · exact h.withdraw _
  · exact h
  · exact h

theorem endDeadAlert (h : Keeps a s) (m : Message) (p : Nat) (ss : Session) : Keeps a (s.endDeadAlert m p ss) :=
  (((h.withdrawWaits _ _ _).withdrawAll _).alertMark _ _).finishMessage _ _

theorem endUndelivered (h : Keeps a s) (m : Message) : Keeps a (s.endUndelivered m) := by
  refine finishMessage ?_ _ _
  repeat' split
  · exact h.alertUndelivered _ _ _
  · exact h
  · exact h

theorem failAttempt (h : Keeps a s) (n : Nat) (invalid : Bool) : Keeps a (s.failAttempt n invalid) := by
  unfold State.failAttempt
  split
  · exact h
  · split
    · exact h.endDeadAlert _ _ _
    · split
      · exact h.finishMessage _ _
      · split
        · exact (h.modOut _ _).alertMark _ _
        · exact ((h.modOut _ _).alertMark _ _).enqueue _ _
        · exact h.endUndelivered _
    · exact h

theorem releaseTag (h : Keeps a s) (tag : Nat) : Keeps a { s with sched := s.sched.releaseTag tag } :=
  h.outOf List.filter_sublist

/-- Recalling a submission does, beyond taking it away, only what keeps the invariants. -/
theorem recallOne_after_release (s : State) (b : Submission) :
    Keeps { s with sched := s.sched.releaseTag b.tag } (s.recallOne b) := by
  dsimp only [State.recallOne]
  have h : Keeps { s with sched := s.sched.releaseTag b.tag } { s with sched := s.sched.releaseTag b.tag } := refl _
  split
  · exact h
  · split
    · refine endDeadAlert ?_ _ _ _
      exact h
    · refine alertMark ?_ _ _
      exact h

theorem recallOne (h : Keeps a s) (b : Submission) : Keeps a (s.recallOne b) :=
  (h.releaseTag b.tag).trans (recallOne_after_release s b)

theorem headOfQueue (h : Keeps a s) (c : MsgClass) (ns : List Nat) : Keeps a (s.headOfQueue c ns) := h.setQueue _ _

theorem recallEach (h : Keeps a s) (l : List Submission) : Keeps a (s.recall l) := by
  obtain ⟨ns, e⟩ := recall_eq s l
  rw [e]
  exact foldl (fun _ c h => h.headOfQueue c ns) (foldl (fun _ b h => h.recallOne b) h l) _

theorem endDelivered (h : Keeps a s) (n : Nat) : Keeps a (s.endDelivered n) := by
  unfold State.endDelivered
  split
  · exact h
  · exact (h.alertMark _ _).finishMessage _ _

theorem strayResult (h : Keeps a s) (tag : Nat) : Keeps a (s.strayResult tag) := by
  unfold State.strayResult
  split <;> exact h

theorem takeResult (h : Keeps a s) (tag : Nat) (r : GwOutcome) : Keeps a (s.takeResult tag r) := by
  dsimp only [State.takeResult]
  split
  · exact h.strayResult tag
  · have h1 : Keeps a { s with sched.out := s.sched.out.filter (·.tag != tag), gw.stats := s.gw.stats.countResult r } :=
      { h with out := List.filter_sublist.trans h.out }
    split
    · exact h1.endDelivered _
    · exact h1.failAttempt _ _
    · exact h1.failAttempt _ _

theorem timeOut (h : Keeps a s) (tag : Nat) : Keeps a (s.timeOut tag) := by
  dsimp only [State.timeOut]
  split
  · exact h
  · refine failAttempt ?_ _ _
    exact h.releaseTag tag

theorem retryReached (h : Keeps a s) (n : Nat) : Keeps a (s.retryReached n) := by
  unfold State.retryReached
  repeat' split
  · exact h
  · exact (h.modOut _ _).enqueue _ _
  · exact h
  · exact h

theorem lifeReached (h : Keeps a s) (n : Nat) : Keeps a (s.lifeReached n) := by
  unfold State.lifeReached
  repeat' split
  · exact h
  · exact h
  · exact h
  · exact h.finishMessage _ _
  · exact h

theorem deliverySecond (h : Keeps a s) : Keeps a s.deliverySecond := by
  refine foldl (fun _ _ h => h.timeOut _) (foldl (fun _ _ h => h.retryReached _) (foldl (fun _ _ h => h.lifeReached _) ?_ _) _) _
  exact h

theorem expireWait (h : Keeps a s) (i : Nat) : Keeps a (s.expireWait i) := by
  unfold State.expireWait
  split
  · exact h
  · refine countEnd ?_ _ _
    exact h.waitsOf fun hw e he => hw e (List.mem_of_mem_eraseIdx he)

theorem expireWaits (h : Keeps a s) (fuel i : Nat) : Keeps a (s.expireWaits fuel i) := by
  induction fuel generalizing s i with
  | zero => exact h
  | succ fuel ih =>
    unfold State.expireWaits
    split
    · exact h
    · split
      · exact ih (h.expireWait i) i
      · exact ih h _

theorem waitsSecond (h : Keeps a s) : Keeps a s.waitsSecond := by
  refine expireWaits (h.waitsOf fun hw e he => ?_) _ _
  obtain ⟨x, hx, rfl⟩ := List.mem_map.mp he
  exact hw x hx

end Keeps
end Sys2Proof.Machine
end

