-- ==== Sys2Proof/Proofs/FrameOfRegisterAndDesk.lean ====
section
/-! SUPPORT. How the operations of the Register, the station lines, the classifier and the Report Parser keep the guarded parts. -/

namespace Sys2Proof.Machine.Keeps

variable {a s t : State}

/-! ## The Register -/

theorem stopAlert (h : Keeps a s) (p : Nat) (ss : Session) : Keeps a (s.stopAlert p ss).1 := by
  dsimp only [State.stopAlert]
  split
  · exact h.modRec _ _ _
  · exact h.modRec _ _ _
  · exact h.modRec _ _ _
  · exact (h.modRec _ _ _).withdrawAll _
  · exact h

theorem correctAlert (h : Keeps a s) (p : Nat) (ss : Session) : Keeps a (s.correctAlert p ss).1 := by
  dsimp only [State.correctAlert]
  split
  · exact (h.modRec _ _ _).requestMsg (by decide) _ _
  · exact h

theorem patternNotice (h : Keeps a s) (p : Nat) (ss : Session) : Keeps a (s.patternNotice p ss) := by
  dsimp only [State.patternNotice]
  split
  · exact (h.putTally _ _).requestMsg (by decide) _ _
  · exact h

theorem ite_op {c : Prop} [Decidable c] (f : State → State) (hf : Keeps a s → Keeps a (f s)) (h : Keeps a s) :
    Keeps a (if c then f s else s) := by
  split
  · exact hf h
  · exact h

theorem ite_op_fst {β : Type} {c : Prop} [Decidable c] {y : β} (f : State → State × β)
    (hf : Keeps a s → Keeps a (f s).1) (h : Keeps a s) : Keeps a (if c then f s else (s, y)).1 := by
  split
  · exact hf h
  · exact h

theorem applyMark (h : Keeps a s) (p : Nat) (ss : Session) (w : MarkWrite) : Keeps a (s.applyMark p ss w).1 := by
  refine ite_op (fun x => x.patternNotice p ss) (fun h => h.patternNotice p ss) (putTally ?_ p _)
  refine ite_op_fst (fun x => x.correctAlert p ss) (fun h => h.correctAlert p ss) ?_
  exact ite_op_fst (fun x => x.stopAlert p ss) (fun h => h.stopAlert p ss) (h.putRec p ss _)

theorem heldDue (h : Keeps a s) (p : Nat) (ss : Session) : Keeps a (s.heldDue p ss) := by
  unfold State.heldDue
  split
  · exact h.alertBecomesDue _ _
  · exact h.modRec _ _ _

theorem startAlert (h : Keeps a s) (p : Nat) (ss : Session) (start : Nat) (closing : Bool) :
    Keeps a (s.startAlert p ss start closing) := by
  dsimp only [State.startAlert]
  split
  · split
    · split
      · exact (h.modRec _ _ _).alertBecomesDue _ _
      · exact h.modRec _ _ _
    · split
      · exact (h.modRec _ _ _).heldDue _ _
      · exact h.modRec _ _ _
  · exact h

theorem alertDueAt (h : Keeps a s) (p : Nat) (ss : Session) : Keeps a (s.alertDueAt p ss) := by
  unfold State.alertDueAt
  split
  · exact h.heldDue _ _
  · exact h

theorem alertsDue (h : Keeps a s) : Keeps a s.alertsDue := foldl (fun _ _ h => h.alertDueAt _ _) h _

theorem withheldDue (h : Keeps a s) (i : Fin 4) : Keeps a (s.withheldDue i) := foldl (fun _ _ h => h.alertBecomesDue _ _) h _

theorem setExpected (h : Keeps a s) (p : Nat) (ss : Session) : Keeps a (s.setExpected p ss) := h.modRec _ _ _

theorem setExplained (h : Keeps a s) (p : Nat) (ss : Session) : Keeps a (s.setExplained p ss) :=
  (h.modRec _ _ _).withdrawWaits _ _ _

theorem deskArrival (h : Keeps a s) (p : Nat) (ss : Session) (mark : Mark) (minutes arrival : Nat) :
    Keeps a (s.deskArrival p ss mark minutes arrival).1 := by
  dsimp only [State.deskArrival]
  split
  · exact h
  · split
    · exact h
    · split
      · exact (h.applyMark _ _ _).handConflict _ _ _ _
      · exact h.applyMark _ _ _

theorem parentAbsent (h : Keeps a s) (p : Nat) (ss : Session) : Keeps a (s.parentAbsent p ss).1 := by
  dsimp only [State.parentAbsent]
  split
  · exact h
  · split
    · exact h
    · exact h
    · exact h.handConflict _ _ _ _
    · exact h.handConflict _ _ _ _
    · exact h.handConflict _ _ _ _
    · exact h.applyMark _ _ _

theorem registerEntry (h : Keeps a s) (p : Nat) (ss : Session) (e : Entry) : Keeps a (s.registerEntry p ss e).1 := by
  dsimp only [State.registerEntry]
  split
  · exact h.applyMark _ _ _
  · exact h
  · exact h.handConflict _ _ _ _

theorem lateEntry (h : Keeps a s) (p : Nat) (ss : Session) (e : Entry) : Keeps a (s.lateEntry p ss e).1 := by
  dsimp only [State.lateEntry]
  split
  · exact (h.applyMark _ _ _).startAlert _ _ _ _
  · exact h.registerEntry _ _ _

theorem closeRecord (h : Keeps a s) (ss : Session) (start : Nat) (closing : Bool) (p : Nat) :
    Keeps a (State.closeRecord ss start closing s p) := by
  dsimp only [State.closeRecord]
  split
  · exact (h.applyMark _ _ _).startAlert _ _ _ _
  · exact h

theorem closeGroup {x : State × Bool} (h : Keeps a x.1) (ss : Session) (start : Nat) (closing : Bool) (g : Nat) :
    Keeps a (State.closeGroup ss start closing x g).1 := by
  dsimp only [State.closeGroup]
  split
  · exact h.setGroupStatus _ _ _
  · split
    · exact foldl (fun _ _ h => h.closeRecord _ _ _ _) h _
    · exact h.setGroupStatus _ _ _
    · exact h

theorem closeGroups (ss : Session) (start : Nat) (closing : Bool) (l : List Nat) {x : State × Bool} (h : Keeps a x.1) :
    Keeps a (l.foldl (State.closeGroup ss start closing) x).1 := by
  induction l generalizing x with
  | nil => exact h
  | cons g l ih => exact ih (h.closeGroup ss start closing g)

theorem closeSession (h : Keeps a s) (i : Fin 4) (ss : Session) (start : Nat) (closing : Bool) :
    Keeps a (s.closeSession i ss start closing) := by
  have h1 := closeGroups (x := (s.setSession i ss (some .closed), false)) ss start closing
    ((s.setSession i ss (some .closed)).groupsOf i) h
  dsimp only [State.closeSession]
  split
  · exact h1.raise _
  · exact h1

theorem openSessionAt (h : Keeps a s) (i : Fin 4) (ss : Session) : Keeps a (s.openSessionAt i ss) := by
  unfold State.openSessionAt
  repeat' split
  all_goals exact h

theorem closeSessionAt (h : Keeps a s) (i : Fin 4) (ss : Session) : Keeps a (s.closeSessionAt i ss) := by
  unfold State.closeSessionAt
  split
  · split
    · split
      · exact h.closeSession _ _ _ _
      · exact h
    · exact h
  · exact h

theorem followSessions (h : Keeps a s) (i : Fin 4) : Keeps a (s.followSessions i) :=
  (((h.openSessionAt _ _).openSessionAt _ _).closeSessionAt _ _).closeSessionAt _ _

theorem setTrack (h : Keeps a s) (i : Fin 4) (x : Track) : Keeps a (s.setTrack i x) := h

theorem followTrack (h : Keeps a s) (i : Fin 4) : Keeps a (s.followTrack i) := by
  dsimp only [State.followTrack]
  split
  · exact ((h.setTrack _ _).followSessions i).withheldDue i
  · exact (h.setTrack _ _).followSessions i

theorem followTracks (h : Keeps a s) : Keeps a s.followTracks := by
  unfold State.followTracks
  split
  · exact foldl (fun _ _ h => h.followTrack _) h _
  · exact h

theorem clearRegister (h : Keeps a s) : Keeps a s.clearRegister :=
  foldl (fun _ _ h => h.setGroupStatus _ _ _)
    (s := { s with reg := ⟨[], Quad.all ⟨some .before, some .before⟩, [], []⟩ })
    { h with recs := fun _ => rfl, status := fun _ => rfl, tallies := fun hw => ⟨rfl, (h.tallies hw).2⟩ } _

/-! ## Stations and the classifier -/

theorem setStation (h : Keeps a s) (n : Fin 6) (x : Station) : Keeps a (s.setStation n x) := h

theorem arrivalComplete (h : Keeps a s) (n : Fin 6) (l : List Byte) : Keeps a (s.arrivalComplete n l) := by
  dsimp only [State.arrivalComplete, State.goodArrival]
  repeat' split
  all_goals exact h

theorem stationChar (h : Keeps a s) (n : Fin 6) (c : Byte) : Keeps a (s.stationChar n c) := by
  dsimp only [State.stationChar]
  split
  · split <;> exact h
  · split
    · exact h
    · exact h.arrivalComplete _ _

theorem stationSecond (h : Keeps a s) (n : Fin 6) : Keeps a (s.stationSecond n) := by
  unfold State.stationSecond
  split <;> exact h

theorem stationsSecond (h : Keeps a s) : Keeps a s.stationsSecond := foldl (fun _ _ h => h.stationSecond _) h _

theorem takeFrom (h : Keeps a s) (src : Source) : Keeps a (s.takeFrom src) := by
  unfold State.takeFrom
  split
  · split <;> exact h
  · split <;> exact h

theorem gainWork (h : Keeps a s) (src : Source) : Keeps a (s.gainWork src) := by
  unfold State.gainWork
  split
  · split
    · exact h.takeFrom _
    · exact h
  · exact h

theorem searchNext (h : Keeps a s) : Keeps a s.searchNext := by
  dsimp only [State.searchNext]
  split
  · exact takeFrom (s := { s with desk.cur := none }) h _
  · exact h

theorem lateNotice (h : Keeps a s) (p : Nat) (ss : Session) (expected corrected : Bool) :
    Keeps a (s.lateNotice p ss expected corrected) := by
  unfold State.lateNotice
  split
  · exact h.requestMsg (by decide) _ _
  · exact h

theorem applyArrival (h : Keeps a s) (p t : Nat) (ss : Session) (m : Mark) (minutes : Nat) :
    Keeps a (s.applyArrival p t ss m minutes).1 := by
  have h1 := h.deskArrival p ss m minutes t
  unfold State.applyArrival
  split
  all_goals rename_i e; rw [e] at h1
  · exact h1
  · exact h1
  · split
    · exact (h1.lateSlip _ _ _ _ _ _).lateNotice _ _ _ _
    · exact h1

theorem classify (h : Keeps a s) (i : Item) : Keeps a (s.classify i).1 := by
  unfold State.classify
  split
  · exact h
  · split
    · exact h
    · exact h
    · exact h
    · split
      · exact h
      · exact h.applyArrival _ _ _ _ _

theorem giveAnswer (h : Keeps a s) (i : Item) (v : Verdict) : Keeps a (s.giveAnswer i v) := by
  unfold State.giveAnswer
  split
  · unfold State.stationAnswer
    split <;> exact h
  · exact h

theorem completeClassification (h : Keeps a s) : Keeps a s.completeClassification := by
  unfold State.completeClassification
  split
  · exact h
  · exact ((h.classify _).giveAnswer _ _).searchNext

theorem deskSample (h : Keeps a s) : Keeps a s.deskSample := h

/-! ## Reports -/

theorem absentSessions (h : Keeps a s) (p : Nat) (l : List Session) : Keeps a (s.absentSessions p l).1 := by
  induction l generalizing s with
  | nil => exact h
  | cons ss l ih => exact ih (h.parentAbsent p ss)

theorem routeToday {x : State × Routed} (h : Keeps a x.1) (p : Nat) : Keeps a (routeToday x p).1 := by
  unfold Machine.routeToday
  split
  · exact h
  · exact h.absentSessions _ _

theorem routeAdvance (d : Date) (report : Option Nat) {x : State × Routed} (h : Keeps a x.1) (p : Nat) :
    Keeps a (routeAdvance d report x p).1 := h.takeAdvance _ _ _ _

theorem takeLateness (h : Keeps a s) (p : Nat) (ss : Session) (ended : Bool) : Keeps a (s.takeLateness p ss ended).1 := by
  dsimp only [State.takeLateness]
  split
  · exact h
  · split
    · exact h.setExplained _ _
    · split
      · exact h.handConflict _ _ _ _
      · exact h.setExpected _ _

theorem routeLate {x : State × Routed} (h : Keeps a x.1) (p : Nat) : Keeps a (routeLate x p).1 := by
  unfold Machine.routeLate
  split
  · exact h
  · exact h.takeLateness _ _ _

/-- Routing one pupil after another keeps what routing each keeps. -/
theorem routeEach {f : State × Routed → Nat → State × Routed}
    (hf : ∀ (x : State × Routed) (p : Nat), Keeps a x.1 → Keeps a (f x p).1) (l : List Nat) {x : State × Routed}
    (h : Keeps a x.1) : Keeps a (l.foldl f x).1 := by
  induction l generalizing x with
  | nil => exact h
  | cons p l ih => exact ih (hf x p h)

theorem routeAbsence (h : Keeps a s) (n : Nat) (ps : List Nat) (d : Date) (reason : Bool) :
    Keeps a (s.routeAbsence n ps d reason).1 := by
  unfold State.routeAbsence
  split
  · exact routeEach (fun _ p h => h.routeToday p) ps h
  · split
    · exact routeEach (fun _ p h => routeAdvance d _ h p) ps h
    · exact h

theorem routeLateness (h : Keeps a s) (ps : List Nat) : Keeps a (s.routeLateness ps).1 := by
  unfold State.routeLateness
  split
  · exact routeEach (fun _ p h => h.routeLate p) ps h
  · exact h

theorem settleReport (h : Keeps a s) (n : Nat) (k : KeepReasons) (l : List (Nat × List Answer)) :
    Keeps a (s.settleReport n k l) := by
  unfold State.settleReport
  split
  · exact h
  · split
    · exact h.freeMessage _
    · exact h

theorem requestReceipt (h : Keeps a s) (sender : Text) (n : Nat) : Keeps a (s.requestReceipt sender n) := by
  unfold State.requestReceipt
  split
  · exact h.requestMsg (by decide) _ _
  · exact h

theorem setKind (h : Keeps a s) (n : Nat) (k : MsgKind) : Keeps a (s.setKind n k) := h

theorem unmatchedReport (h : Keeps a s) (n : Nat) (reason : Bool) : Keeps a (s.unmatchedReport n reason) :=
  (h.setKind _ _).settleReport _ _ _

theorem finishReport {x : State × Routed} (h : Keeps a x.1) (n : Nat) (sender : Text) (reason : Bool) :
    Keeps a (State.finishReport x n sender reason) := (h.settleReport _ _ _).requestReceipt _ _

theorem parseReport (h : Keeps a s) (n : Nat) : Keeps a (s.parseReport n) := by
  unfold State.parseReport
  split
  · exact h
  · split
    · exact h
    · split
      · exact h.unmatchedReport _ _
      · split
        · exact h.unmatchedReport _ _
        · exact ((h.setKind _ _).routeAbsence _ _ _ _).finishReport _ _ _
      · split
        · exact h.unmatchedReport _ _
        · exact ((h.setKind _ _).routeLateness _).finishReport _ _ _

theorem parseHeld (h : Keeps a s) : Keeps a s.parseHeld := foldl (fun _ _ h => h.parseReport _) h _

end Sys2Proof.Machine.Keeps
end

