-- ==== Sys2Proof/Proofs/FrameOfStoreAndDay.lean ====
section
/-! SUPPORT. How the operations of the Store Engine, the school day, the Clock and the links keep the guarded parts. -/

namespace Sys2Proof.Machine

/-- A rebuild's records leave the tallies it gathers in their canonical form. -/
theorem Settings.wf_addRecords (x : Settings) (l : List DayRecord) {acc : Tab Tally}
    (h : Tab.wf zeroTally acc = true) : Tab.wf zeroTally (l.foldl x.addRecord acc) = true := by
  induction l generalizing acc with
  | nil => exact h
  | cons r l ih =>
    refine ih ?_
    unfold Settings.addRecord
    split
    · exact h
    · exact Tab.wf_put h _ _

/-- A settled alert is the one it was, or CANCELLED: no record listed becomes a cleared one. -/
theorem Rec.settleAlert_ne_cleared {r : Rec} (h : r ≠ Rec.cleared) : r.settleAlert ≠ Rec.cleared := by
  unfold Rec.settleAlert
  split
  · intro e
    exact absurd (congrArg Rec.alert e) (by simp [Rec.cleared])
  · exact h

theorem Tab.canonFrom_map {α : Type} [DecidableEq α] {dflt : Nat → α} {f : α → α}
    (hf : ∀ (i : Nat) (x : α), x ≠ dflt i → f x ≠ dflt i) {lo : Nat} {l : Tab α} (h : Tab.canonFrom dflt lo l = true) :
    Tab.canonFrom dflt lo (List.map (fun e => (e.1, f e.2)) l) = true := by
  induction l generalizing lo with
  | nil => rfl
  | cons e l ih =>
    simp only [Tab.canonFrom, List.map_cons, Bool.and_eq_true, decide_eq_true_eq] at h ⊢
    exact ⟨⟨h.1.1, hf _ _ h.1.2⟩, ih h.2⟩

namespace Keeps

variable {a s t : State}

/-! ## The store -/

theorem tearPage (h : Keeps a s) (p : Nat) : Keeps a (s.tearPage p) :=
  h.storeMem rfl fun hw => Memory.wf_programPage hw p _

theorem spoil (h : Keeps a s) (p : Nat) : Keeps a (s.spoil p) := h

theorem beginCommitWrite (h : Keeps a s) (slot : Nat) (ph : CommitPhase) (page : Nat) :
    Keeps a (s.beginCommitWrite slot ph page) := h.storeJob rfl (by simp)

theorem endCommit (h : Keeps a s) (o : CommitOutcome) (c : Condition) : Keeps a (s.endCommit o c) := by
  refine raise ?_ c
  exact h.storeJob rfl (by simp)

theorem closeEntry (h : Keeps a s) (slot : Nat) (complete : Bool) : Keeps a { s with store := s.store.closeEntry slot complete } := by
  unfold Store.closeEntry
  split <;> exact h

theorem finalWrite (h : Keeps a s) (slot : Nat) (o : CommitOutcome) : Keeps a (s.finalWrite slot o) :=
  (h.closeEntry slot _).beginCommitWrite _ _ _

theorem comeTo (h : Keeps a s) (slot fuel p : Nat) : Keeps a (State.comeTo slot fuel p s) := by
  induction fuel generalizing s p with
  | zero => exact h
  | succ fuel ih =>
    unfold State.comeTo
    split
    · exact h.finalWrite _ _
    · split
      · refine beginCommitWrite ?_ _ _ _
        exact h
      · split
        · exact ih (s := { s with store.spanned := s.store.spanned + 1 }) h _
        · refine beginCommitWrite ?_ _ _ _
          exact h

theorem commitOn (h : Keeps a s) (slot : Nat) : Keeps a (s.commitOn slot) := by
  unfold State.commitOn
  split
  · exact h.comeTo _ _ _
  · exact h

theorem openEntry (h : Keeps a s) : Keeps a s.openEntry := by
  refine beginCommitWrite ?_ _ _ _
  exact h

theorem startCommit (h : Keeps a s) : Keeps a s.startCommit := by
  unfold State.startCommit
  split
  · split
    · refine beginCommitWrite ?_ _ _ _
      exact h
    · exact h.openEntry
  · exact h.openEntry

theorem makeBad (h : Keeps a s) (slot p : Nat) : Keeps a (s.makeBad slot p) := by
  unfold State.makeBad
  split
  · refine beginCommitWrite ?_ _ _ _
    exact h
  · exact h.finalWrite _ _

theorem directoryFailed (h : Keeps a s) (c : Commit) : Keeps a (s.directoryFailed c) := by
  refine endCommit ?_ _ _
  split
  · exact h
  · exact h
  · exact h.closeEntry _ _

theorem commitVerified (h : Keeps a s) (c : Commit) : Keeps a (s.commitVerified c) := by
  unfold State.commitVerified
  split
  · exact h.openEntry
  · exact h.commitOn _
  · exact h.commitOn _
  · refine commitOn ?_ _
    exact h
  · refine commitOn ?_ _
    exact h
  · exact h.endCommit _ _
  · exact h.endCommit _ _

theorem commitFailed (h : Keeps a s) (c : Commit) : Keeps a (s.commitFailed c) := by
  unfold State.commitFailed
  split
  · exact h.makeBad _ _
  · exact h.directoryFailed _

theorem saveWrite (h : Keeps a s) (ph : SavePhase) (sum page : Nat) : Keeps a (s.saveWrite ph sum page) :=
  h.storeJob rfl (by simp)

theorem endSave (h : Keeps a s) (ok : Bool) : Keeps a (s.endSave ok) := by
  refine raise ?_ _
  exact h.storeJob rfl (by simp)

theorem saveVerified (h : Keeps a s) (ph : SavePhase) (sum : Nat) : Keeps a (s.saveVerified ph sum) := by
  dsimp only [State.saveVerified]
  split
  · exact h
  · split
    · exact h.saveWrite _ _ _
    · exact h.storeJob rfl (by simp)
  · exact h.endSave _

theorem giveReply (h : Keeps a s) (r : Reply) : Keeps a (s.giveReply r) := by
  unfold State.giveReply
  split <;> exact h

theorem serveRead (h : Keeps a s) (r : ReadReq) : Keeps a (s.serveRead r) := by
  unfold State.serveRead
  split
  · exact h.giveReply _
  · exact h.storeJob rfl (by simp)

theorem startWaitingRead (h : Keeps a s) : Keeps a s.startWaitingRead := by
  unfold State.startWaitingRead
  split
  · exact h
  · refine serveRead ?_ _
    exact h

theorem rebuildDone (h : Keeps a s) {acc : Tab Tally} (hacc : a.guarded.tallied → Tab.wf zeroTally acc = true) :
    Keeps a (s.rebuildDone acc) := by
  refine parseHeld (startWaitingRead (raise ?_ _))
  exact { h with tallies := fun hw => ⟨hacc hw, fun l acc e => by cases e⟩ }

theorem startRebuild (h : Keeps a s) : Keeps a s.startRebuild := by
  dsimp only [State.startRebuild]
  split
  · exact h.rebuildDone fun _ => rfl
  · exact { h with tallies := fun hw => ⟨(h.tallies hw).1, fun l acc e => by cases e; rfl⟩ }

theorem startPending (h : Keeps a s) : Keeps a s.startPending := by
  unfold State.startPending
  split
  · exact h
  · refine startCommit ?_
    exact h
  · refine startRebuild ?_
    exact h

theorem wantCommit (h : Keeps a s) : Keeps a s.wantCommit := by
  unfold State.wantCommit
  split
  · exact h
  · exact h.startCommit

theorem wantRebuild (h : Keeps a s) : Keeps a s.wantRebuild := by
  unfold State.wantRebuild
  split
  · exact h
  · exact h.startRebuild

theorem eraseDone (h : Keeps a s) : Keeps a s.eraseDone := by
  unfold State.eraseDone
  split
  · exact h.storeMem rfl fun hw => Memory.wf_erasePage hw _
  · exact h

theorem fillBuffer (h : Keeps a s) (p : Nat) : Keeps a (s.fillBuffer p) := by
  unfold State.fillBuffer
  split
  · exact h.storeMem rfl id
  · exact h
  · exact h.storeMem rfl id
  · exact h

theorem pageFailed (h : Keeps a s) (p : Nat) : Keeps a (s.pageFailed p) := by
  dsimp only [State.pageFailed]
  split
  · refine commitFailed ?_ _
    exact ite_op (fun x => x.spoil p) (fun h => h.spoil p) (h.tearPage p)
  · exact ((h.tearPage p).spoil _).endSave _
  · exact h.tearPage p

theorem blankChecked (h : Keeps a s) (ok : Bool) : Keeps a (s.blankChecked ok) := by
  unfold State.blankChecked
  split
  · split
    · unfold State.blankOk
      split
      · exact h.saveWrite _ _ _
      · exact h.fillBuffer _
    · split
      · exact h.pageFailed _
      · exact h.tearPage _
  · exact h

theorem programDone (h : Keeps a s) : Keeps a s.programDone := by
  unfold State.programDone
  split
  · exact h.storeMem rfl fun hw => Memory.wf_programPage hw _ _
  · exact h

theorem pageWritten (h : Keeps a s) (p : Nat) : Keeps a (s.pageWritten p) := by
  dsimp only [State.pageWritten]
  split
  · refine commitVerified ?_ _
    exact h
  · refine saveVerified ?_ _ _
    exact h
  · exact h

theorem verified (h : Keeps a s) (ok : Bool) : Keeps a (s.verified ok) := by
  unfold State.verified
  split
  · split
    · exact h.pageWritten _
    · split
      · exact h.pageFailed _
      · exact h.tearPage _
  · exact h

theorem rebuildRead (h : Keeps a s) {r : PageRead} {rest l : List PageRead} {acc : Tab Tally} (hj : s.store.job = .rebuild l acc) :
    Keeps a (s.rebuildRead r rest acc) := by
  have hacc : a.guarded.tallied → Tab.wf zeroTally ((s.store.readRecords r).foldl s.set.addRecord acc) = true :=
    fun hw => Settings.wf_addRecords _ _ ((h.tallies hw).2 l acc hj)
  dsimp only [State.rebuildRead]
  split
  · exact h.rebuildDone hacc
  · exact { h with tallies := fun hw => ⟨(h.tallies hw).1, fun l acc e => by cases e; exact hacc hw⟩ }

theorem archiveRead (h : Keeps a s) (r : ReadReq) (p : PageRead) (rest : List PageRead) (got : List DayRecord) :
    Keeps a (s.archiveRead r p rest got) := by
  dsimp only [State.archiveRead]
  split
  · refine startPending (giveReply ?_ _)
    exact h.storeJob rfl (by simp)
  · exact h.storeJob rfl (by simp)

theorem readDone (h : Keeps a s) : Keeps a s.readDone := by
  unfold State.readDone
  split
  · exact h.rebuildRead ‹_›
  · split
    · exact h.archiveRead _ _ _ _
    · exact h
  · exact h

/-! ## Resets -/

theorem cutPage (h : Keeps a s) : Keeps a s.cutPage := by
  unfold State.cutPage
  split
  · exact h.tearPage _
  · exact h

theorem cutSave (h : Keeps a s) : Keeps a s.cutSave := by
  unfold State.cutSave
  split
  · exact h.spoil _
  · exact h

/-! ## The school day -/

theorem applyAdvanceTo (h : Keeps a s) (x : Advance) (ss : Session) : Keeps a (s.applyAdvanceTo x ss) := by
  unfold State.applyAdvanceTo
  split
  · exact h.parentAbsent _ _
  · exact h

theorem applyAdvance (h : Keeps a s) (day : Date) (x : Advance) : Keeps a (applyAdvance day s x) := by
  unfold Machine.applyAdvance
  repeat' split
  · exact h
  · exact h
  · exact (h.applyAdvanceTo _ _).applyAdvanceTo _ _
  · exact h

theorem applyAdvances (h : Keeps a s) (day : Date) : Keeps a (s.applyAdvances day) :=
  foldl (fun _ _ h => h.applyAdvance day _) h _

theorem clearConflicts (h : Keeps a s) : Keeps a s.clearConflicts := h

theorem clearDeskStats (h : Keeps a s) : Keeps a s.clearDeskStats := h

theorem clearPoolStats (h : Keeps a s) : Keeps a s.clearPoolStats := h

theorem clearGwStats (h : Keeps a s) : Keeps a s.clearGwStats := h

theorem rebuildBells (h : Keeps a s) : Keeps a s.rebuildBells := h

theorem openDay (h : Keeps a s) (day : Date) (tracks : Quad Track) : Keeps a (s.openDay day tracks) := by
  have opening : Keeps a { s with plan := ⟨.opening, some day, tracks, false⟩, slips.next := 1 } := h
  have advanced := opening.clearRegister.clearConflicts.applyAdvances day
  have followed := foldl (f := State.followSessions) (fun _ _ h => h.followSessions _) advanced fours
  exact followed.clearDeskStats.clearPoolStats.clearGwStats.rebuildBells

theorem notHeld (h : Keeps a s) (ss : Session) (g : Nat) : Keeps a (State.notHeld ss s g) := by
  unfold State.notHeld
  split
  · exact h.setGroupStatus _ _ _
  · exact h

theorem settleSession (h : Keeps a s) (i : Fin 4) (ss : Session) : Keeps a (s.settleSession i ss) := by
  unfold State.settleSession
  split
  · exact h.closeSession _ _ _ _
  · refine foldl (fun _ _ h => h.notHeld _ _) ?_ _
    exact h
  · exact h

theorem settleSessions (h : Keeps a s) : Keeps a s.settleSessions :=
  foldl (fun _ _ h => (h.settleSession _ _).settleSession _ _) h _

theorem cancelAlerts (h : Keeps a s) : Keeps a s.cancelAlerts :=
  { h with recs := fun hw => Tab.canonFrom_map (fun _ _ => Rec.settleAlert_ne_cleared) (h.recs hw) }

theorem settleAlerts (h : Keeps a s) : Keeps a s.settleAlerts := h.cancelAlerts.withdrawAll _

theorem onZones (h : Keeps a s) (f : Fin 4 → Zone → Zone) : Keeps a (s.onZones f) := h

theorem performClose (h : Keeps a s) : Keeps a s.performClose := by
  have closing : Keeps a ({ s with plan.dayState := .closing } : State).endTracks := h
  exact (closing.settleSessions.settleAlerts.onZones fun _ => skipAll).emptyConflicts.wantCommit

theorem midnightClose (h : Keeps a s) : Keeps a s.midnightClose := by
  unfold State.midnightClose
  split
  · split
    · exact h
    · exact h.performClose
  · exact h
  · exact h

theorem settleDeferred (h : Keeps a s) : Keeps a s.settleDeferred := by
  unfold State.settleDeferred
  split
  · refine performClose ?_
    exact h
  · exact h

theorem acceptOpen (h : Keeps a s) (day : Date) (tracks : Quad Track) : Keeps a (s.acceptOpen day tracks) :=
  (h.openDay day tracks).wantRebuild.settleDeferred

theorem republish (h : Keeps a s) (i : Fin 4) (x : Track) : Keeps a (s.republish i x) := h

/-! ## The Clock -/

theorem stepForward (h : Keeps a s) : Keeps a s.stepForward := by
  refine alertsDue (followTracks ?_)
  exact h

theorem stepClock (h : Keeps a s) (n : Nat) : Keeps a (s.stepClock n) := by
  dsimp only [State.stepClock]
  split
  · refine stepForward ?_
    exact h
  · exact h

theorem passMidnight (h : Keeps a s) : Keeps a s.passMidnight := by
  dsimp only [State.passMidnight]
  split <;> exact h

theorem countSecond (h : Keeps a s) : Keeps a s.countSecond := by
  unfold State.countSecond
  split
  · exact h.passMidnight
  · exact h

theorem minute (h : Keeps a s) : Keeps a s.minute := h.followTracks.ringDueBells

theorem bellSecond (h : Keeps a s) (peak : Quad Nat) : Keeps a (s.bellSecond peak) := foldl (fun _ _ h => h.onZone _ _) h _

theorem timesOfDay (h : Keeps a s) (wrapped : Bool) : Keeps a (s.timesOfDay wrapped) :=
  (ite_op State.minute (fun h => h.minute) (ite_op State.midnightClose (fun h => h.midnightClose) h)).alertsDue

theorem segmentBegins (h : Keeps a s) (i : Fin 4) (n : Nat) : Keeps a (s.segmentBegins i n) := by
  dsimp only [State.segmentBegins]
  split
  · exact h
  · split
    · exact ((h.setTrack _ _).openSessionAt _ _).openSessionAt _ _
    · exact h

theorem dayEnds (h : Keeps a s) (i : Fin 4) : Keeps a (s.dayEnds i) := by
  dsimp only [State.dayEnds]
  split
  · exact (h.setTrack _ _).withheldDue _
  · exact h

theorem sessionCloses (h : Keeps a s) (i : Fin 4) (ss : Session) : Keeps a (s.sessionCloses i ss) := by
  unfold State.sessionCloses
  split
  · split
    · split
      · exact h.closeSession _ _ _ _
      · exact h
    · exact h
  · exact h

theorem alertFallsDue (h : Keeps a s) (p : Nat) (ss : Session) : Keeps a (s.alertFallsDue p ss) := by
  unfold State.alertFallsDue
  split
  · exact h.heldDue _ _
  · exact h

theorem onLine (h : Keeps a s) (n : Fin 6) {f : State → State} (hf : Keeps a s → Keeps a (f s)) : Keeps a (s.onLine n f) := by
  unfold State.onLine
  split
  · exact (hf h).gainWork _
  · exact h

theorem recordAbandoned (h : Keeps a s) (n : Fin 6) : Keeps a (s.recordAbandoned n) := by
  unfold State.recordAbandoned
  split <;> exact h

theorem stationFraming (h : Keeps a s) (n : Fin 6) : Keeps a (s.stationFraming n) := h

theorem lampsSecond (h : Keeps a s) : Keeps a { s with lamps := s.lamps.second } := h

theorem stretchEnds (h : Keeps a s) (l : Fin 4) : Keeps a (s.stretchEnds l) := h

theorem flash (h : Keeps a s) : Keeps a s.flash := h

/-! ## The lines' records and the host's frames under assembly -/

theorem gwClear (h : Keeps a s) : Keeps a s.gwClear := h

theorem gwBad (h : Keeps a s) : Keeps a s.gwBad := h

theorem send (h : Keeps a s) (r : GwRecord) (f : GwStats → GwStats) :
    Keeps a { s with gw := { s.gw.send r with stats := f s.gw.stats } } := by
  unfold Gateway.send
  split <;> exact h

theorem gwInbound (h : Keeps a s) (sender text : Text) : Keeps a (s.gwInbound sender text) := by
  dsimp only [State.gwInbound]
  split
  · exact (h.countReject .report).send .busy fun g => { g with inboundBusy := inc32 g.inboundBusy }
  · rename_i s1 n e
    have h1 := (h.storeReport e).send .taken fun g => { g with inboundTaken := inc32 g.inboundTaken }
    split
    · exact h1
    · exact h1.parseReport _

theorem gwAbandon (h : Keeps a s) : Keeps a s.gwAbandon := by
  unfold State.gwAbandon
  split <;> exact h

theorem gwGapSecond (h : Keeps a s) : Keeps a s.gwGapSecond := by
  unfold State.gwGapSecond
  split
  · exact h
  · split
    · exact h.gwAbandon
    · exact h

theorem gwSent (h : Keeps a s) : Keeps a s.gwSent := by
  unfold State.gwSent
  split <;> exact h

theorem discardFrame (h : Keeps a s) : Keeps a s.discardFrame := h

theorem framingChar (h : Keeps a s) : Keeps a s.framingChar := by
  dsimp only [State.framingChar]
  split <;> exact h

theorem frameTimeout (h : Keeps a s) : Keeps a s.frameTimeout := by
  unfold State.frameTimeout
  split <;> exact h

theorem linkSecond (h : Keeps a s) : Keeps a s.linkSecond := by
  unfold State.linkSecond
  split
  · exact h
  · split <;> exact h

theorem lengthError (h : Keeps a s) (n : Nat) : Keeps a (s.lengthError n) := by
  unfold State.lengthError
  split <;> exact h

theorem joinFrame (h : Keeps a s) (w : Waiting) : Keeps a (s.joinFrame w) := by
  unfold State.joinFrame
  split <;> exact h

end Keeps

end Sys2Proof.Machine
end

