-- ==== Sys2Proof/Proofs/FrameOfRequests.lean ====
section
/-! SUPPORT. How every host request but TABLE WRITE keeps the guarded parts. -/

namespace Sys2Proof.Machine

namespace Keeps

variable {a s t : State}

/-! ## The host's requests -/

theorem reqSettingsSave (h : Keeps a s) : Keeps a (reqSettingsSave s).1 := by
  unfold Machine.reqSettingsSave
  split
  · exact h.storeJob rfl (by simp)
  · exact h

theorem reqClockSet (h : Keeps a s) (date : RawDate) (time : RawTime) : Keeps a (reqClockSet date time s).1 := by
  unfold Machine.reqClockSet
  split
  · split
    · exact h
    · split
      · exact h
      · exact h.stepClock _
  · exact h

theorem reqDayOpen (h : Keeps a s) (date : RawDate) (kinds : Quad Nat) (delays : Option (Quad Nat)) :
    Keeps a (reqDayOpen date kinds delays s).1 := by
  dsimp only [Machine.reqDayOpen]
  split
  · exact h
  · split
    · split
      · exact h
      · split
        · exact h
        · split
          · exact h
          · split
            · exact h
            · split
              · exact h
              · exact h.acceptOpen _ _
    · exact h

theorem reqDayClose (h : Keeps a s) (force : Nat) : Keeps a (reqDayClose force s).1 := by
  unfold Machine.reqDayClose
  repeat' split
  · exact h
  · exact h
  · exact h
  · exact h
  · exact h.performClose

theorem reqOpeningDelay (h : Keeps a s) (track delay : Nat) : Keeps a (reqOpeningDelay track delay s).1 := by
  dsimp only [Machine.reqOpeningDelay]
  repeat' split
  all_goals exact h

theorem reqEarlyClose (h : Keeps a s) (track minutes : Nat) : Keeps a (reqEarlyClose track minutes s).1 := by
  dsimp only [Machine.reqEarlyClose]
  repeat' split
  all_goals exact h

theorem reqZoneRing (h : Keeps a s) (zone : Nat) : Keeps a (reqZoneRing zone s).1 := by
  unfold Machine.reqZoneRing
  split
  · exact h
  · split
    · exact h
    · refine raiseAll ?_ _
      exact h

theorem reqDeskArrival (h : Keeps a s) (key value : Nat) (arrival : Option RawTime) :
    Keeps a (reqDeskArrival key value arrival s).1 := by
  dsimp only [Machine.reqDeskArrival]
  split
  · split
    · split
      · refine gainWork ?_ _
        exact h
      · exact h
    · exact h
  · exact h

theorem reqSlipReprint (h : Keeps a s) (pupil session : Nat) : Keeps a (reqSlipReprint pupil session s).1 := by
  dsimp only [Machine.reqSlipReprint]
  split
  · exact h
  · rename_i ss _
    split
    · split
      · exact h
      · rename_i arrived _
        have joined := h.joinSlip (s.makeSlip .copy pupil ss
          (.lateness arrived (s.record pupil ss).mark (s.record pupil ss).minutes (s.record pupil ss).expected))
        split
        all_goals rename_i e; rw [e] at joined; exact joined
    · exact h

theorem takeEntry (h : Keeps a s) (g : Nat) (ss : Session) (late : Bool) (e : Nat × Entry) :
    Keeps a (s.takeEntry g ss late e).1 := by
  dsimp only [State.takeEntry]
  repeat' split
  · exact h
  · exact h
  · exact h.lateEntry _ _ _
  · exact h.registerEntry _ _ _

theorem takeEntries (h : Keeps a s) (g : Nat) (ss : Session) (late : Bool) (l : List (Nat × Entry)) :
    Keeps a (s.takeEntries g ss late l).1 := by
  induction l generalizing s with
  | nil => exact h
  | cons e l ih => exact ih (h.takeEntry g ss late e)

theorem takeRegister (h : Keeps a s) (g : Nat) (ss : Session) (late : Bool) (l : List (Nat × Entry)) :
    Keeps a (s.takeRegister g ss late l).1 := (h.takeEntries _ _ _ _).setGroupStatus _ _ _

theorem reqRegisterSubmit (h : Keeps a s) (group session : Nat) (entries : List RawEntry) :
    Keeps a (reqRegisterSubmit group session entries s).1 := by
  dsimp only [Machine.reqRegisterSubmit]
  split
  · split
    · exact h
    · split
      · exact h
      · split
        · exact h.takeRegister _ _ _ _
        · exact h.takeRegister _ _ _ _
        · exact h.takeRegister _ _ _ _
        · exact h
  · exact h

theorem officeMark (h : Keeps a s) (p : Nat) (ss : Session) (m : Mark) (minutes : Nat) (lock : Bool) (arrival : Option Nat) :
    Keeps a (s.officeMark p ss m minutes lock arrival).1 := by
  have marked := h.applyMark p ss ⟨m, minutes, .office, arrival, some lock⟩
  dsimp only [State.officeMark]
  split
  · exact marked.startAlert _ _ _ _
  · exact marked

theorem setMark (h : Keeps a s) {pupil session mark minutes lock : Nat} {arrival : Option RawTime} {ss : Session} {e : MarkEffect}
    (hm : s.setMark pupil session mark minutes lock arrival = .ok (ss, t, e)) : Keeps a t := by
  unfold State.setMark at hm
  split at hm
  · rename_i ss' m x k _ _
    split at hm
    · cases hm
    · split at hm
      · cases hm
      · have hm := (Prod.mk.inj (Except.ok.inj hm)).2
        have marked := h.officeMark pupil ss' m minutes k x
        rw [hm] at marked
        exact marked
  · cases hm

theorem reqMarkSet (h : Keeps a s) (pupil session mark minutes lock : Nat) (arrival : Option RawTime) :
    Keeps a (reqMarkSet pupil session mark minutes lock arrival s).1 := by
  unfold Machine.reqMarkSet
  split
  · exact h
  · exact h.setMark ‹_›

theorem reqConflictResolve (h : Keeps a s) (id : Nat) (what : RawResolve) : Keeps a (reqConflictResolve id what s).1 := by
  unfold Machine.reqConflictResolve
  split
  · exact h
  · split
    · exact h
    · split
      · exact h.removeConflict _
      · dsimp only [State.settleConflict]
        split
        · exact h
        · rename_i e
          exact (h.setMark e).removeConflict _

theorem reqMessageSend (h : Keeps a s) (pupil session : Nat) (what : RawSend) : Keeps a (reqMessageSend pupil session what s).1 := by
  unfold Machine.reqMessageSend
  split
  · exact h
  · split
    · exact h
    · split
      · exact h
      · cases what
        · exact h.requestMsg (by decide) _ _
        · exact h.requestDirect _ _ _

theorem reqMessageCancel (h : Keeps a s) (number : Nat) : Keeps a (reqMessageCancel number s).1 := by
  unfold Machine.reqMessageCancel
  split
  · exact h
  · split
    · exact h
    · split
      · exact h
      · split
        · exact h.withdraw _
        · exact h

theorem reqInboundNext (h : Keeps a s) : Keeps a (reqInboundNext s).1 := by
  dsimp only [Machine.reqInboundNext]
  split
  · exact h
  · split
    · exact h
    · split
      · exact h
      · refine freeMessage ?_ _
        exact h

theorem reqArchiveRead (h : Keeps a s) (tag : Nat) (date : RawDate) (index count : Nat) :
    Keeps a (reqArchiveRead tag date index count s).1 := by
  dsimp only [Machine.reqArchiveRead]
  split
  · exact h
  · split
    · exact h
    · split
      · exact h
      · split
        · exact h
        · split
          · split
            · exact h
            · exact h.storeJob rfl (by simp)
          · exact h
          · exact h

theorem reqAdvanceCancel (h : Keeps a s) (date : RawDate) (pupil sessions : Nat) :
    Keeps a (reqAdvanceCancel date pupil sessions s).1 := by
  unfold Machine.reqAdvanceCancel State.cancelAdvance
  repeat' split
  all_goals exact h

/-- A request other than TABLE WRITE keeps the invariants and the settings. -/
theorem handle (h : Keeps a s) (tag : Nat) {r : Request} (hr : ∀ body : List Byte, r ≠ .tableWrite body) :
    Keeps a (handle tag r s).1 := by
  cases r with
  | tableWrite body => exact absurd rfl (hr body)
  | settingsSave => exact h.reqSettingsSave
  | clockSet date time => exact h.reqClockSet date time
  | dayOpen date kinds delays => exact h.reqDayOpen date kinds delays
  | dayClose force => exact h.reqDayClose force
  | openingDelay track delay => exact h.reqOpeningDelay track delay
  | earlyClose track minutes => exact h.reqEarlyClose track minutes
  | zoneRing zone => exact h.reqZoneRing zone
  | deskArrival key value arrival => exact h.reqDeskArrival key value arrival
  | slipReprint pupil session => exact h.reqSlipReprint pupil session
  | registerSubmit group session entries => exact h.reqRegisterSubmit group session entries
  | markSet pupil session mark minutes lock arrival => exact h.reqMarkSet pupil session mark minutes lock arrival
  | conflictResolve id what => exact h.reqConflictResolve id what
  | advanceCancel date pupil sessions => exact h.reqAdvanceCancel date pupil sessions
  | messageSend pupil session what => exact h.reqMessageSend pupil session what
  | messageCancel number => exact h.reqMessageCancel number
  | inboundNext => exact h.reqInboundNext
  | archiveRead date index count => exact h.reqArchiveRead tag date index count
  | _ =>
    -- the other requests read, or write what is not guarded
    dsimp only [Machine.handle, answered, reqHello, reqConditions, reqAttentionMask, reqReset, reqLampForce, reqTableSelect, reqTableRead,
      reqPupilFind, reqSenderFind, reqDayStatus, reqPlanQuery, reqZoneCheck, reqBellLog, reqZoneStatus, reqStationResume,
      reqStationStatus, reqDeskAnswers, reqSlipStatus, reqDeskStatistics, reqMarkQuery, reqGroupStatus, reqConflictList,
      reqAdvanceList, reqPoolStatus, reqMessageList, reqGatewayStatus, reqArchiveDirectory, reqStoreStatus]
    repeat' split
    all_goals exact h

end Keeps
end Sys2Proof.Machine
end

