-- ==== Sys2Proof/Proofs/SoundSettings.lean ====
section
/-! SUPPORT. What a canonical table lists, the codes and the senders of the settings tables (R2, R9, R10), and that a write or a load that the
part accepts keeps them. -/

namespace Sys2Proof.Machine

/-! ## What a canonical table lists -/

section
variable {α : Type} [DecidableEq α] {dflt : Nat → α}

/-- A canonical table lists an entry exactly when its index reads as that entry and the entry is not the default. -/
theorem Tab.mem_iff_get {lo : Nat} {t : Tab α} (h : Tab.canonFrom dflt lo t = true) (i : Nat) (x : α) :
    (i, x) ∈ t ↔ lo ≤ i ∧ Tab.get dflt t i = x ∧ x ≠ dflt i := by
  induction t generalizing lo with
  | nil =>
    simp only [List.not_mem_nil, Tab.get, false_iff]
    rintro ⟨-, rfl, hne⟩
    exact hne rfl
  | cons e t ih =>
    obtain ⟨j, y⟩ := e
    simp only [Tab.canonFrom, Bool.and_eq_true, decide_eq_true_eq] at h
    obtain ⟨⟨hlo, hy⟩, ht⟩ := h
    rw [List.mem_cons, ih ht, Prod.mk.injEq, Tab.get]
    split
    · subst i
      constructor
      · rintro (⟨-, rfl⟩ | ⟨hj, -⟩)
        · exact ⟨hlo, rfl, hy⟩
        · omega
      · rintro ⟨-, rfl, -⟩
        exact .inl ⟨rfl, rfl⟩
    · rename_i hij
      constructor
      · rintro (⟨rfl, -⟩ | ⟨hj, hx⟩)
        · exact absurd rfl hij
        · exact ⟨by omega, hx⟩
      · rintro ⟨hi, hx, hne⟩
        refine .inr ⟨?_, hx, hne⟩
        by_contra hlt
        exact hne (hx ▸ Tab.get_below ht (by omega))

/-- The indexes that a filter of a canonical table gives, when the default fails its condition. -/
theorem Tab.mem_filter_iff {t : Tab α} (h : Tab.wf dflt t = true) {p : Nat → α → Bool} {i : Nat} (hp : p i (dflt i) = false) :
    i ∈ Tab.filter t p ↔ p i (Tab.get dflt t i) = true := by
  simp only [Tab.filter, List.mem_filterMap, Prod.exists]
  constructor
  · rintro ⟨j, x, hm, hx⟩
    split at hx
    · cases hx
      rename_i hpx
      exact ((Tab.mem_iff_get h _ _).mp hm).2.1 ▸ hpx
    · cases hx
  · intro hpx
    refine ⟨i, Tab.get dflt t i, (Tab.mem_iff_get h _ _).mpr ⟨Nat.zero_le _, rfl, fun e => ?_⟩, by simp [hpx]⟩
    rw [e, hp] at hpx
    cases hpx

theorem Tab.filter_pairwise {lo : Nat} {t : Tab α} (h : Tab.canonFrom dflt lo t = true) (p : Nat → α → Bool) :
    (Tab.filter t p).Pairwise (· < ·) ∧ ∀ i ∈ Tab.filter t p, lo ≤ i := by
  induction t generalizing lo with
  | nil => exact ⟨.nil, by simp [Tab.filter]⟩
  | cons e t ih =>
    simp only [Tab.canonFrom, Bool.and_eq_true, decide_eq_true_eq] at h
    obtain ⟨⟨hlo, -⟩, ht⟩ := h
    obtain ⟨hpair, hle⟩ := ih ht
    have hrest : ∀ i ∈ Tab.filter t p, lo ≤ i := fun i hi => by have := hle i hi; omega
    simp only [Tab.filter, List.filterMap_cons] at hpair hle hrest ⊢
    split <;> rename_i hx
    · exact ⟨hpair, hrest⟩
    · split at hx <;> cases hx
      refine ⟨List.pairwise_cons.mpr ⟨fun i hi => by have := hle i hi; omega, hpair⟩, fun i hi => ?_⟩
      rcases List.mem_cons.mp hi with rfl | hi
      · exact hlo
      · exact hrest i hi

theorem Tab.wf_ofList (i : Nat) (l : List α) : Tab.canonFrom dflt i (Tab.ofList dflt i l) = true := by
  induction l generalizing i with
  | nil => rfl
  | cons x l ih =>
    unfold Tab.ofList
    split
    · exact Tab.canonFrom_mono (Nat.le_succ i) (ih (i + 1))
    · simp only [Tab.canonFrom, Bool.and_eq_true, decide_eq_true_eq]
      exact ⟨⟨le_refl i, ‹_›⟩, ih (i + 1)⟩

end

/-! ## Settings that keep R2 and R10 -/

/-- What the tables keep of the settings: their canonical form, R2 and R10. -/
def Settings.sound (x : Settings) : Prop := x.canonical ∧ x.codesDiffer ∧ x.sendersBounded

theorem Settings.reportsFrom_iff (x : Settings) (p : Nat) (number : Text) :
    x.reportsFrom p number = true ↔ ∃ i : Fin 3, (x.contactAt (3 * p + i.val)).inUse = true ∧
      (x.contactAt (3 * p + i.val)).acceptsReports = true ∧ (x.contactAt (3 * p + i.val)).number = number := by
  simp [Settings.reportsFrom, Settings.contactAt, Fin.exists_fin_succ, and_assoc]

theorem Settings.mem_senderList (x : Settings) (h : Tab.wf factoryPupil x.pupils = true) (p : Nat) (number : Text) :
    p ∈ x.senderList number ↔ (Tab.get factoryPupil x.pupils p).inUse = true ∧ x.reportsFrom p number = true := by
  rw [Settings.senderList, Tab.mem_filter_iff h (by simp [factoryPupil]), Bool.and_eq_true]

theorem Settings.senderList_pairwise (x : Settings) (h : Tab.wf factoryPupil x.pupils = true) (number : Text) :
    (x.senderList number).Pairwise (· < ·) := (Tab.filter_pairwise h _).1

theorem Settings.senderList_nodup (x : Settings) (h : Tab.wf factoryPupil x.pupils = true) (number : Text) :
    (x.senderList number).Nodup := (x.senderList_pairwise h number).imp Nat.ne_of_lt

/-- A number that serves no pupil more than before serves no more of them. -/
theorem Settings.senderList_length_le {x y : Settings} (hy : Tab.wf factoryPupil y.pupils = true) (number : Text)
    (h : ∀ p ∈ y.senderList number, p ∈ x.senderList number) : (y.senderList number).length ≤ (x.senderList number).length :=
  ((y.senderList_nodup hy number).subperm h).length_le

/-- R2: what makes an entry repeat a code. -/
theorem Settings.duplicates_iff (x : Settings) (h : Tab.wf factoryPupil x.pupils = true) (i : Nat) (e : Pupil) :
    x.duplicates i e = true ↔ e.inUse = true ∧ ∃ q : Nat, q ≠ i ∧ (Tab.get factoryPupil x.pupils q).inUse = true ∧
      ((Tab.get factoryPupil x.pupils q).short = e.short ∨ (e.badge ≠ 0 ∧ (Tab.get factoryPupil x.pupils q).badge = e.badge)) := by
  simp only [Settings.duplicates, Bool.and_eq_true, List.any_eq_true, Prod.exists, bne_iff_ne, Bool.or_eq_true, beq_iff_eq, and_assoc]
  refine and_congr_right fun _ => exists_congr fun q => ?_
  constructor
  · rintro ⟨y, hm, hq, hu, hc⟩
    obtain ⟨-, rfl, -⟩ := (Tab.mem_iff_get h q y).mp hm
    exact ⟨hq, hu, hc⟩
  · rintro ⟨hq, hu, hc⟩
    refine ⟨_, (Tab.mem_iff_get h q _).mpr ⟨Nat.zero_le _, rfl, fun e => ?_⟩, hq, hu, hc⟩
    rw [e] at hu
    cases hu

/-- R2, with an entry of the table: when no other repeats its codes, its codes differ from every other pupil's in use. -/
theorem Settings.codes_differ_of_not_duplicates {x : Settings} (h : Tab.wf factoryPupil x.pupils = true) {i q : Nat} {e : Pupil}
    (hd : x.duplicates i e = false) (hq : q ≠ i) (he : e.inUse = true) (hu : (Tab.get factoryPupil x.pupils q).inUse = true) :
    (Tab.get factoryPupil x.pupils q).short ≠ e.short ∧ (e.badge ≠ 0 → (Tab.get factoryPupil x.pupils q).badge ≠ e.badge) := by
  have hn : ¬ _ := fun k => Bool.false_ne_true (hd.symm.trans ((x.duplicates_iff h i e).mpr k))
  exact ⟨fun hs => hn ⟨he, q, hq, hu, .inl hs⟩, fun hb hs => hn ⟨he, q, hq, hu, .inr ⟨hb, hs⟩⟩⟩

theorem Settings.overServed_eq_false (x : Settings) (number : Text) :
    x.overServed number = false ↔ (x.senderList number).length ≤ 8 := by
  rw [Settings.overServed, decide_eq_false_iff_not, Nat.not_lt]
  rfl

theorem Settings.factory_sound : factorySettings.sound :=
  ⟨⟨rfl, rfl, rfl, rfl, rfl⟩, fun _ _ _ h => (Bool.false_ne_true h).elim, fun _ => Nat.zero_le _⟩

/-- R10: a number that serves a pupil is the number of one of the pupil's slots in use. -/
theorem Settings.exists_contact_of_mem_senderList {x : Settings} (h : Tab.wf factoryPupil x.pupils = true) {p : Nat} {number : Text}
    (hp : p ∈ x.senderList number) : ∃ i : Fin 3, (x.contactAt (3 * p + i.val)).inUse = true ∧
      (x.contactAt (3 * p + i.val)).number = number := by
  obtain ⟨i, hu, -, hn⟩ := (x.reportsFrom_iff p number).mp ((x.mem_senderList h p number).mp hp).2
  exact ⟨i, hu, hn⟩

/-- R15: the check of a load gives R2 and R10. -/
theorem Settings.sound_of_consistent {x : Settings} (h : x.canonical) (hc : x.consistent = true) : x.sound := by
  obtain ⟨hp, hct, -⟩ := id h
  simp only [Settings.consistent, Bool.and_eq_true, List.all_eq_true, Bool.not_eq_true', Prod.forall] at hc
  obtain ⟨hdup, hserved⟩ := hc
  refine ⟨h, fun p q hne => ?_, fun number => ?_⟩
  · intro pp pq hup huq
    have hlisted : (p, pp) ∈ x.pupils :=
      (Tab.mem_iff_get hp _ _).mpr ⟨Nat.zero_le _, rfl, fun e => by rw [e] at hup; cases hup⟩
    obtain ⟨hs, hb⟩ := Settings.codes_differ_of_not_duplicates hp (hdup _ _ hlisted) hne.symm hup huq
    exact ⟨fun e => hs e.symm, fun h0 e => hb h0 e.symm⟩
  · cases hl : x.senderList number with
    | nil => exact Nat.zero_le _
    | cons p l =>
      obtain ⟨i, hu, hn⟩ := Settings.exists_contact_of_mem_senderList (number := number) hp (hl ▸ List.mem_cons_self ..)
      have hlisted : (3 * p + i.val, x.contactAt (3 * p + i.val)) ∈ x.contacts :=
        (Tab.mem_iff_get hct _ _).mpr ⟨Nat.zero_le _, rfl, fun e => by rw [e] at hu; cases hu⟩
      exact hl ▸ hn ▸ (x.overServed_eq_false _).mp (hserved _ _ hlisted)

/-- R207: the settings that a load finds are sound. -/
theorem Settings.ofImage_sound {l : List Byte} {x : Settings} (h : Settings.ofImage l = some x) : x.sound := by
  dsimp only [Settings.ofImage] at h
  split at h
  · split at h
    · rename_i hc
      cases h
      exact Settings.sound_of_consistent
        ⟨Tab.wf_ofList 0 _, Tab.wf_ofList 0 _, Tab.wf_ofList 0 _, Tab.wf_ofList 0 _, Tab.wf_ofList 0 _⟩ hc
    · cases h
  · cases h

/-- R207: the settings that a load takes, found or factory, are sound. -/
theorem Store.loadSettings_sound (x : Store) : (x.loadSettings.getD factorySettings).sound := by
  unfold Store.loadSettings
  cases hs : x.saved.bind Settings.ofImage with
  | none => exact Settings.factory_sound
  | some y =>
    obtain ⟨l, -, hy⟩ := Option.bind_eq_some_iff.mp hs
    exact Settings.ofImage_sound hy

/-- R2: an entry that repeats no code leaves the codes of the pupils in use different. -/
theorem Settings.codesDiffer_put {x : Settings} (h : Tab.wf factoryPupil x.pupils = true) (hc : x.codesDiffer) {i : Nat} {e : Pupil}
    (hd : x.duplicates i e = false) : ({ x with pupils := Tab.put factoryPupil x.pupils i e } : Settings).codesDiffer := by
  intro p q hne
  dsimp only
  by_cases hp : p = i
  · subst hp
    rw [Tab.get_put_same h, Tab.get_put_other _ _ hne.symm]
    intro he hu
    obtain ⟨hs, hb⟩ := Settings.codes_differ_of_not_duplicates h hd hne.symm he hu
    exact ⟨fun e => hs e.symm, fun h0 e => hb h0 e.symm⟩
  · rw [Tab.get_put_other _ _ hp]
    by_cases hq : q = i
    · subst hq
      rw [Tab.get_put_same h]
      intro hu he
      obtain ⟨hs, hb⟩ := Settings.codes_differ_of_not_duplicates h hd hne he hu
      exact ⟨hs, fun h0 e' => hb (e' ▸ h0) e'⟩
    · rw [Tab.get_put_other _ _ hq]
      exact hc p q hne

/-- R10 for a pupil: a pupil who comes into use is served by no number past its limit. -/
theorem Settings.sendersBounded_putPupil {x : Settings} (h : Tab.wf factoryPupil x.pupils = true) (hb : x.sendersBounded) {i : Nat}
    {e : Pupil} (hf : ¬ ((Tab.get factoryPupil x.pupils i).inUse = false ∧ e.inUse = true ∧
      ({ x with pupils := Tab.put factoryPupil x.pupils i e } : Settings).pupilOverServed i = true)) :
    ({ x with pupils := Tab.put factoryPupil x.pupils i e } : Settings).sendersBounded := by
  intro number
  set t : Settings := { x with pupils := Tab.put factoryPupil x.pupils i e } with ht
  have hw : Tab.wf factoryPupil t.pupils = true := Tab.wf_put h i e
  by_cases hi : (Tab.get factoryPupil x.pupils i).inUse = false ∧ i ∈ t.senderList number
  · obtain ⟨hold, hin⟩ := hi
    obtain ⟨k, -, hn⟩ := Settings.exists_contact_of_mem_senderList hw hin
    have he := ((t.mem_senderList hw i number).mp hin).1
    rw [ht, Tab.get_put_same h] at he
    have hserved : t.pupilOverServed i = false := by
      by_contra hne
      exact hf ⟨hold, he, Bool.not_eq_false _ ▸ hne⟩
    simp only [Settings.pupilOverServed, List.any_eq_false, Bool.not_eq_true] at hserved
    refine hn ▸ (t.overServed_eq_false _).mp (hserved _ ?_)
    fin_cases k <;> simp
  · refine (Settings.senderList_length_le (x := x) hw number fun p hp => ?_).trans (hb number)
    obtain ⟨hu, hr⟩ := (t.mem_senderList hw p number).mp hp
    refine (x.mem_senderList h p number).mpr ⟨?_, hr⟩
    by_cases hpi : p = i
    · subst hpi
      by_contra hne
      exact hi ⟨Bool.not_eq_true _ ▸ hne, hp⟩
    · rwa [ht, Tab.get_put_other _ _ hpi] at hu

/-- R10 for a contact: only the number written can serve more pupils than before. -/
theorem Settings.sendersBounded_putContact {x : Settings} (h : Tab.wf factoryPupil x.pupils = true)
    (hc : Tab.wf factoryContact x.contacts = true) (hb : x.sendersBounded) {i : Nat} {e : Contact}
    (hs : ({ x with contacts := Tab.put factoryContact x.contacts i e } : Settings).overServed e.number = false) :
    ({ x with contacts := Tab.put factoryContact x.contacts i e } : Settings).sendersBounded := by
  intro number
  set t : Settings := { x with contacts := Tab.put factoryContact x.contacts i e } with ht
  by_cases hn : number = e.number
  · exact hn ▸ (t.overServed_eq_false _).mp hs
  · refine (Settings.senderList_length_le (x := x) (y := t) h number fun p hp => ?_).trans (hb number)
    obtain ⟨hu, hr⟩ := (t.mem_senderList h p number).mp hp
    obtain ⟨k, hk⟩ := (t.reportsFrom_iff p number).mp hr
    refine (x.mem_senderList h p number).mpr ⟨hu, (x.reportsFrom_iff p number).mpr ⟨k, ?_⟩⟩
    by_cases hki : 3 * p + k.val = i
    · rw [ht, Settings.contactAt, hki, Tab.get_put_same hc] at hk
      exact absurd hk.2.2.symm hn
    · rwa [ht, Settings.contactAt, Tab.get_put_other _ _ hki] at hk

end Sys2Proof.Machine
end

