-- ==== Sys2Proof/Proofs/InvariantsOfEveryStep.lean ====
section
/-! SUPPORT. The window of submissions (R160), the table writes, the load and the resets; every step keeps the invariants. -/

namespace Sys2Proof.Machine

/-- Each invariant of every step that `a` meets, `b` meets too. -/
structure Upholds (a b : State) : Prop where
  mem : Memory.wf a.store.mem = true → Memory.wf b.store.mem = true
  window : a.windowHolds → b.windowHolds
  tables : a.tablesHold → b.tablesHold
  waits : a.waitsHold → b.waitsHold

/-! ## The window (R160) while submissions are made and recalled -/

/-- A submission recalled is outstanding no more. -/
theorem recallEach_out (l : List Submission) (s : State) :
    (l.foldl State.recallOne s).sched.out.Sublist (s.sched.out.filter fun b => decide (b.tag ∉ l.map (·.tag))) := by
  induction l generalizing s with
  | nil => simp
  | cons b l ih =>
    refine (ih (s.recallOne b)).trans (((Keeps.recallOne_after_release s b).out.filter _).trans ?_)
    simp only [State.guarded, Scheduler.releaseTag, List.filter_filter]
    rw [List.filter_congr fun x _ => show _ = decide (x.tag ∉ b.tag :: l.map (·.tag)) by grind]
    exact List.Sublist.refl _

theorem recall_out (s : State) (l : List Submission) :
    (s.recall l).sched.out.Sublist (s.sched.out.filter fun b => decide (b.tag ∉ l.map (·.tag))) := by
  obtain ⟨ns, e⟩ := recall_eq s l
  have heads : Keeps (l.foldl State.recallOne s) (s.recall l) :=
    e ▸ Keeps.foldl (fun _ c h => h.headOfQueue c ns) (Keeps.refl _) msgClasses
  exact heads.out.trans (recallEach_out l s)

/-- R158: no more submissions stay outstanding than the window holds. -/
theorem recallBeyond_out_length (s : State) (n : Nat) : (s.recallBeyond n).sched.out.length ≤ n := by
  have hdrop : (s.sched.out.drop n).filter (fun b => decide (b.tag ∉ (s.sched.out.drop n).map (·.tag))) = [] := by
    simp only [List.filter_eq_nil_iff, decide_eq_true_eq, not_not]
    exact fun b hb => List.mem_map_of_mem hb
  calc (s.recallBeyond n).sched.out.length
      ≤ (s.sched.out.filter fun b => decide (b.tag ∉ (s.sched.out.drop n).map (·.tag))).length := (recall_out s _).length_le
    _ = ((s.sched.out.take n).filter fun b => decide (b.tag ∉ (s.sched.out.drop n).map (·.tag))).length := by
        conv_lhs => rw [← List.take_append_drop n s.sched.out, List.filter_append]
        simp only [List.take_append_drop, hdrop, List.append_nil]
    _ ≤ (s.sched.out.take n).length := List.length_filter_le _ _
    _ ≤ n := List.length_take_le _ _

/-- R159: with every submission recalled none is outstanding. -/
theorem recall_all_out (s : State) : (s.recall s.sched.out).sched.out = [] := by
  have hall : (s.sched.out.filter fun b => decide (b.tag ∉ s.sched.out.map (·.tag))) = [] := by
    simp only [List.filter_eq_nil_iff, decide_eq_true_eq, not_not]
    exact fun b hb => List.mem_map_of_mem hb
  exact List.sublist_nil.mp (hall ▸ recall_out s _)

namespace Upholds

variable {a s t : State}

theorem refl (s : State) : Upholds s s := ⟨id, id, id, id⟩

theorem trans (h : Upholds a s) (k : Upholds s t) : Upholds a t :=
  ⟨k.mem ∘ h.mem, k.window ∘ h.window, k.tables ∘ h.tables, k.waits ∘ h.waits⟩

theorem keeps (h : Upholds a s) (k : Keeps s t) : Upholds a t where
  mem hw := k.mem (h.mem hw)
  window hw := by
    obtain ⟨hup, hdown⟩ := h.window hw
    constructor
    · intro e
      obtain ⟨w, hs, hlow, htop, hlen⟩ := hup (k.up.symm.trans e)
      exact ⟨w, k.window.trans hs, hlow, htop, k.out.length_le.trans hlen⟩
    · intro e
      exact List.sublist_nil.mp (hdown (k.up.symm.trans e) ▸ k.out)
  tables hw := by
    obtain ⟨hc, hd, hb, hrecs, hstatus, htallies, hacc⟩ := h.tables hw
    have hset : t.set = s.set := k.set
    obtain ⟨htallies', hacc'⟩ := k.tallies ⟨htallies, hacc⟩
    exact ⟨hset ▸ hc, hset ▸ hd, hset ▸ hb, k.recs hrecs, k.status hstatus, htallies', hacc'⟩
  waits hw := k.waits (h.waits hw)

theorem foldl {β : Type} {f : State → β → State} (hf : ∀ (s : State) (x : β), Upholds a s → Upholds a (f s x)) (h : Upholds a s)
    (l : List β) : Upholds a (l.foldl f s) := by
  induction l generalizing s with
  | nil => exact h
  | cons x l ih => exact ih (hf s x h)

theorem withSettings (h : Upholds a s) {x : Settings} (hx : s.set.sound → x.sound) : Upholds a { s with set := x } :=
  { h with
    tables := fun hw => by
      obtain ⟨hc, hd, hb, hrest⟩ := h.tables hw
      obtain ⟨hc', hd', hb'⟩ := hx ⟨hc, hd, hb⟩
      exact ⟨hc', hd', hb', hrest⟩ }

/-- R160: a submission is made only while the window leaves room for it. -/
theorem withSubmission (h : Upholds a s) (ho : s.windowOpen = true) {x : Scheduler} {g : Gateway} {b : Submission}
    (hx : x.out = s.sched.out ++ [b]) (hup : g.up = s.gw.up) (hw : g.window = s.gw.window) :
    Upholds a { s with sched := x, gw := g } :=
  { h with
    window := fun hold => by
      obtain ⟨hu, hd⟩ := h.window hold
      simp only [State.windowOpen, Bool.and_eq_true] at ho
      obtain ⟨hso, hroom⟩ := ho
      constructor
      · intro _
        obtain ⟨w, hs, hlow, htop, -⟩ := hu hso
        simp only [hs, Bool.and_eq_true, decide_eq_true_eq] at hroom
        refine ⟨w, hw.trans hs, hlow, htop, ?_⟩
        show x.out.length ≤ w.size
        rw [hx, List.length_append]
        exact hroom.2
      · intro e
        exact absurd (hup.symm.trans e) (by simp [hso]) }

theorem submit (h : Upholds a s) (ho : s.windowOpen = true) (m : Message) (o : Outbound) : Upholds a (s.submit m o) := by
  have waiting : Keeps s ((s.dequeue m.cls m.number).modOut m.number fun x =>
      { x with state := .sending s.sched.nextTag s.set.options.timeout }) := ((Keeps.refl s).dequeue _ _).modOut _ _
  refine keeps (s := { (s.dequeue m.cls m.number).modOut m.number _ with sched := _, gw := _ }) ?_ ((Keeps.refl _).alertMark _ _)
  refine withSubmission (h.keeps waiting) ?_ rfl ?_ ?_
  · unfold State.dequeue
    cases m.cls <;> exact ho
  · unfold Gateway.send
    split <;> rfl
  · unfold Gateway.send
    split <;> rfl

theorem pump (h : Upholds a s) (fuel : Nat) : Upholds a (s.pump fuel) := by
  induction fuel generalizing s with
  | zero => exact h
  | succ fuel ih =>
    unfold State.pump
    split
    · rename_i ho
      split
      · exact h
      · split
        · exact h
        · split
          · exact ih (h.submit ho _ _)
          · exact h
    · exact h

/-- What follows every command keeps the invariants (R160, R204). -/
theorem settle (h : Upholds a s) (before : State) : Upholds a (before.settle s) := (h.pump 4).keeps (Keeps.refl _)

/-! ## The gateway's link -/

/-- A link that changes keeps every other invariant; the window's own is to be shown where the change has ended. -/
theorem relinked (h : Upholds a s) {g : Gateway} (k : Keeps { s with gw := g } t) (hw : t.windowHolds) : Upholds a t where
  mem ha := k.mem (h.mem ha)
  window _ := hw
  tables ha := ((refl { s with gw := g }).keeps k).tables (h.tables ha)
  waits ha := k.waits (h.waits ha)

theorem gwReady (h : Upholds a s) {w : Window} (hlow : 1 ≤ w.size) (htop : w.size ≤ 4) : Upholds a (s.gwReady w) := by
  set up : State := { s with gw.up := true, gw.window := some w, gw.since := 0 }
  have k : Keeps up (up.recallBeyond w.size) := (Keeps.refl up).recallEach _
  exact h.relinked k ⟨fun _ => ⟨w, k.window, hlow, htop, recallBeyond_out_length up _⟩, fun e => absurd (k.up.symm.trans e) (by simp [State.guarded, up])⟩

theorem gwDown (h : Upholds a s) : Upholds a s.gwDown := by
  unfold State.gwDown
  split
  · set down : State := State.raise { s with
      gw.up := false
      gw.window := none
      gw.since := 60
      gw.stats.downs := inc32 s.gw.stats.downs } .gatewayDown
    have k : Keeps down (down.recall down.sched.out) := (Keeps.refl down).recallEach _
    exact (h.keeps ((Keeps.refl s).raise .gatewayDown)).relinked k
      ⟨fun e => absurd (k.up.symm.trans e) (by simp [State.guarded, down]), fun _ => recall_all_out down⟩
  · exact h

theorem gwSecond (h : Upholds a s) : Upholds a s.gwSecond := by
  unfold State.gwSecond
  split
  · split
    · exact h.gwDown
    · exact h.keeps (Keeps.refl s)
  · exact h

/-- A record received carries a window of 1 to 4 when it is a READY (R157). -/
def windowed (x : Option GwIn) : Prop := ∀ w : Window, x = some (.ready w) → 1 ≤ w.size ∧ w.size ≤ 4

theorem windowed_gwReady? (window status : Nat) : windowed (gwReady? window status) := by
  intro w e
  unfold gwReady? at e
  repeat' split at e
  · cases e
    assumption
  · cases e
  · cases e

theorem windowed_gwResult? (tag outcome : Nat) : windowed (gwResult? tag outcome) := by
  intro w e
  unfold gwResult? at e
  repeat' split at e
  all_goals cases e

theorem windowed_gwInbound? (sender text : Text) : windowed (gwInbound? sender text) := by
  intro w e
  unfold gwInbound? at e
  split at e <;> cases e

theorem windowed_gwParse (l : List Byte) : windowed (gwParse l) := by
  have none_ : windowed none := fun w e => by cases e
  unfold gwParse gwBody
  repeat' split
  · exact windowed_gwReady? _ _
  · exact windowed_gwResult? _ _
  · exact windowed_gwInbound? _ _
  all_goals exact none_

theorem gwTake (h : Upholds a s) {x : Option GwIn} (hx : windowed x) : Upholds a (s.gwTake x) := by
  unfold State.gwTake
  split
  · exact h.gwReady (hx _ rfl).1 (hx _ rfl).2
  · exact h.keeps ((Keeps.refl s).takeResult _ _)
  · exact h.keeps ((Keeps.refl s).gwInbound _ _)
  · exact h.keeps (Keeps.refl s).gwBad

theorem gwChar (h : Upholds a s) (c : Byte) : Upholds a (s.gwChar c) := by
  dsimp only [State.gwChar]
  split
  · split
    · exact h.keeps (Keeps.refl s)
    · exact h
  · split
    · exact (h.keeps (Keeps.refl s).gwClear).gwTake (windowed_gwParse _)
    · exact h.keeps (Keeps.refl s)

/-! ## The second event -/

theorem countDown (h : Upholds a s) (peak : Quad Nat) : Upholds a (s.countDown peak) := by
  have lines := (Keeps.refl s).deskSample.linkSecond.stationsSecond.gwGapSecond
  have counted := ((lines.bellSecond peak).slipSecond.waitsSecond).deliverySecond
  exact (h.keeps counted).gwSecond.keeps (Keeps.refl _).lampsSecond

theorem second (h : Upholds a s) (peak : Quad Nat) : Upholds a (s.second peak) :=
  ((h.keeps (Keeps.refl s).countSecond).countDown peak).keeps ((Keeps.refl _).timesOfDay _)

/-! ## Table writes, the settings load and resets -/

theorem takeOptions (h : Upholds a s) (o : Options) : Upholds a (s.takeOptions o) := by
  have written : Upholds a { s with set.options := o, pool.credits := s.freeCredits o.credits } :=
    (h.withSettings (x := { s.set with options := o }) id).keeps (Keeps.refl _)
  dsimp only [State.takeOptions]
  split
  · exact written.keeps (Keeps.refl _).servePass
  · exact written

theorem writePupil (h : Upholds a s) {i : Nat} {l : List Byte} {c : Bool} (e : writePupil s i l = .ok (t, c)) : Upholds a t := by
  unfold Machine.writePupil at e
  split at e
  · cases e
  · rename_i x _
    dsimp only at e
    split at e
    · cases e
    · split at e
      · cases e
      · split at e
        · cases e
        · rename_i _ hd hf
          cases e
          refine h.withSettings fun ⟨hc, hcodes, hb⟩ => ?_
          obtain ⟨hp, hrest⟩ := id hc
          exact ⟨⟨Tab.wf_put hp i x, hrest⟩, Settings.codesDiffer_put hp hcodes (by simpa using hd),
            Settings.sendersBounded_putPupil hp hb fun ⟨hold, hnew, hs⟩ => hf (by simp [State.pupil, hold, hnew, hs])⟩

theorem writeContact (h : Upholds a s) {i : Nat} {l : List Byte} {c : Bool} (e : writeContact s i l = .ok (t, c)) : Upholds a t := by
  unfold Machine.writeContact at e
  split at e
  · cases e
  · rename_i x _
    dsimp only at e
    split at e
    · cases e
    · rename_i hs
      cases e
      refine h.withSettings fun ⟨hc, hcodes, hb⟩ => ?_
      obtain ⟨hp, hct, hrest⟩ := id hc
      exact ⟨⟨hp, Tab.wf_put hct i x, hrest⟩, hcodes, Settings.sendersBounded_putContact hp hct hb (by simpa using hs)⟩

theorem writeGroup (h : Upholds a s) {i : Nat} {l : List Byte} {c : Bool} (e : writeGroup s i l = .ok (t, c)) : Upholds a t := by
  unfold Machine.writeGroup at e
  split at e
  · cases e
  · rename_i x _
    split at e <;> cases e
    exact h.withSettings fun ⟨⟨hp, hct, hg, hrest⟩, hcodes, hb⟩ => ⟨⟨hp, hct, Tab.wf_put hg i x, hrest⟩, hcodes, hb⟩

theorem storePlan (h : Upholds a s) (i : Nat) (p : Plan) (x : Option (Fin 4 × Track)) : Upholds a (s.storePlan i p x) := by
  have written : Upholds a { s with set.plans := Tab.put factoryPlan s.set.plans i p } :=
    h.withSettings fun ⟨⟨hp, hct, hg, hpl, ht⟩, hcodes, hb⟩ => ⟨⟨hp, hct, hg, Tab.wf_put hpl i p, ht⟩, hcodes, hb⟩
  dsimp only [State.storePlan]
  split
  · exact written
  · exact written.keeps (((Keeps.refl _).setTrack _ _).recomputeBells _)

theorem writePlan (h : Upholds a s) {i : Nat} {l : List Byte} {c : Bool} (e : writePlan s i l = .ok (t, c)) : Upholds a t := by
  unfold Machine.writePlan at e
  split at e
  · dsimp only at e
    repeat' split at e
    all_goals cases e
    · exact h.storePlan _ _ _
    · exact h.storePlan _ _ _
    · exact h.storePlan _ _ _
  · cases e

theorem writeZone (h : Upholds a s) {i : Nat} {l : List Byte} {c : Bool} (e : writeZone s i l = .ok (t, c)) : Upholds a t := by
  unfold Machine.writeZone at e
  split at e
  · split at e <;> cases e
    exact h.withSettings id
  · cases e

theorem writeStation (h : Upholds a s) {i : Nat} {l : List Byte} {c : Bool} (e : writeStation s i l = .ok (t, c)) : Upholds a t := by
  unfold Machine.writeStation at e
  split at e
  · rename_i x _ n _ _
    cases e
    exact (h.withSettings (x := { s.set with stations := s.set.stations.set n x }) id).keeps ((Keeps.refl _).setStation _ _)
  · cases e

theorem writeTemplate (h : Upholds a s) {i : Nat} {l : List Byte} {c : Bool} (e : writeTemplate s i l = .ok (t, c)) : Upholds a t := by
  unfold Machine.writeTemplate at e
  split at e <;> cases e
  exact h.withSettings fun ⟨⟨hp, hct, hg, hpl, ht⟩, hcodes, hb⟩ => ⟨⟨hp, hct, hg, hpl, Tab.wf_put ht _ _⟩, hcodes, hb⟩

theorem writeLamp (h : Upholds a s) {i : Nat} {l : List Byte} {c : Bool} (e : writeLamp s i l = .ok (t, c)) : Upholds a t := by
  rcases writeLamp_cases s i l with e' | ⟨x, d, n, -, -, e'⟩ <;> rw [e'] at e <;> cases e
  exact (h.withSettings (x := { s.set with lamps := s.set.lamps.set n x }) id).keeps (Keeps.refl _)

theorem writeOptions (h : Upholds a s) {l : List Byte} {c : Bool} (e : writeOptions s l = .ok (t, c)) : Upholds a t := by
  unfold Machine.writeOptions at e
  split at e
  · cases e
  · split at e <;> cases e
    exact h.takeOptions _

/-- An entry accepted by a table keeps the invariants, R2 and R10 among them. -/
theorem writeEntry (h : Upholds a s) {n : TableName} {i : Nat} {l : List Byte} {c : Bool} (e : writeEntry n s i l = .ok (t, c)) :
    Upholds a t := by
  cases n with
  | pupils => exact h.writePupil e
  | contacts => exact h.writeContact e
  | groups => exact h.writeGroup e
  | plans => exact h.writePlan e
  | zones => exact h.writeZone e
  | stations => exact h.writeStation e
  | templates => exact h.writeTemplate e
  | lamps => exact h.writeLamp e
  | options => exact h.writeOptions e

theorem writeEntries (h : Upholds a s) (done : List Bool) (l : List (List Byte)) : Upholds a (s.writeEntries done l).1 := by
  induction l generalizing s done with
  | nil => exact h
  | cons e l ih =>
    dsimp only [State.writeEntries]
    split
    · exact h
    · rename_i s1 c he
      have written := h.writeEntry he
      split
      · exact ih written _
      · split
        · exact written
        · refine ih (written.keeps ?_) _
          exact Keeps.refl s1

theorem reqTableWrite (h : Upholds a s) (body : List Byte) : Upholds a (reqTableWrite body s).1 := by
  unfold Machine.reqTableWrite
  split
  · exact h
  · dsimp only
    split
    · exact h
    · split
      · exact h
      · split
        · exact h
        · exact h.writeEntries _ _

theorem handle (h : Upholds a s) (tag : Nat) (r : Request) : Upholds a (handle tag r s).1 := by
  by_cases hr : ∃ body : List Byte, r = .tableWrite body
  · obtain ⟨body, rfl⟩ := hr
    exact h.reqTableWrite body
  · exact h.keeps ((Keeps.refl s).handle tag fun body e => hr ⟨body, e⟩)

theorem take (h : Upholds a s) (w : Waiting) (rest : List Waiting) : Upholds a (s.take w rest) := by
  have taken := (h.keeps (t := { s with link.queue := rest, link.hand := some ⟨w.tag, Request.handKind w.req, false⟩ })
    (Keeps.refl s)).handle w.tag w.req
  dsimp only [State.take]
  split
  all_goals rename_i e; rw [e] at taken
  · exact taken.keeps ((Keeps.refl _).giveReply _)
  · exact taken

theorem takeNext (h : Upholds a s) : Upholds a s.takeNext := by
  unfold State.takeNext
  split
  · split
    · exact h
    · exact h.take _ _
  · exact h

theorem goodFrame (h : Upholds a s) (tag : Nat) (r : Request) : Upholds a (s.goodFrame tag r) :=
  takeNext (h.keeps (Keeps.joinFrame (s := { s.frameEnds with link.good := inc32 s.link.good }) (Keeps.refl s) _))

theorem frameDone (h : Upholds a s) (l : List Byte) : Upholds a (s.frameDone l) := by
  unfold State.frameDone
  split
  · exact h.goodFrame _ _
  · exact h.keeps (Keeps.refl s)

theorem hostChar (h : Upholds a s) (c : Byte) : Upholds a (s.hostChar c) := by
  unfold State.hostChar
  split
  · split <;> exact h.keeps (Keeps.refl s)
  · dsimp only [State.frameChar]
    split
    · exact h.keeps ((Keeps.refl s).lengthError _)
    · split
      · exact h.frameDone _
      · exact h.keeps (Keeps.refl s)

theorem hostFrame (h : Upholds a s) (kind tag : Nat) (body : List Byte) (check : Byte) : Upholds a (s.hostFrame kind tag body check) := by
  unfold State.hostFrame
  split
  · exact h.keeps ((Keeps.refl s).lengthError _)
  · exact h.frameDone _

theorem frameSent (h : Upholds a s) : Upholds a s.frameSent := by
  unfold State.frameSent
  split
  · exact h
  · split
    · exact h.keeps (Keeps.refl s)
    · exact takeNext (h.keeps (Keeps.refl s))

theorem takeSettings (h : Upholds a s) {x : Settings} (hx : x.sound) : Upholds a (s.takeSettings x) := by
  have written : Upholds a { s with set := { x with options := s.set.options } } := h.withSettings fun _ => hx
  have lines := foldl (f := fun t n => t.setStation n ((t.station n).rewrite (s.set.stations.get n) (x.stations.get n)))
    (fun _ _ h => h.keeps ((Keeps.refl _).setStation _ _)) written sixes
  exact lines.takeOptions x.options

theorem ite_raise (h : Upholds a s) {p : Prop} [Decidable p] (c : Condition) : Upholds a (if p then s else s.raise c) := by
  split
  · exact h
  · exact h.keeps ((Keeps.refl s).raise c)

theorem loadDone (h : Upholds a s) : Upholds a s.loadDone := by
  have read : Upholds a { s.takeSettings (s.store.loadSettings.getD factorySettings) with
      store := (s.takeSettings (s.store.loadSettings.getD factorySettings)).store.readDirectory
      link.loaded := s.store.loadSettings.isSome
      link.loading := false } :=
    (h.takeSettings s.store.loadSettings_sound).keeps ((Keeps.refl _).storeMem rfl id)
  exact (read.ite_raise .clockUnset).ite_raise .settingsDefault

/-- A reset leaves the store's bytes in their canonical form, and everything else as it is after any reset (R208, R209). -/
theorem restart (h : Upholds a s) (cause : ResetCause) (fast : Bool) (clock : Clock) : Upholds a (s.restart cause fast clock) where
  mem hw := ((Keeps.refl s).cutPage.cutSave).mem (h.mem hw)
  window _ := ⟨fun e => absurd e Bool.false_ne_true, fun _ => rfl⟩
  tables _ := ⟨Settings.factory_sound.1, Settings.factory_sound.2.1, Settings.factory_sound.2.2, rfl, rfl, rfl, fun l acc e => by cases e⟩
  waits _ := fun e he => by cases he

/-! ## A step -/

/-- A command whose own effect keeps the invariants keeps them with what follows it. -/
theorem run (h : Upholds a t) {u : State} (e : run s t = .next u) : Upholds a u := by
  cases e
  exact h.settle s

theorem request (h : Upholds a s) {tag : Nat} {r : Request} (e : request tag r s = .next t) : Upholds a t := (h.goodFrame tag r).run e

/-- A command whose own effect keeps the invariants and the settings. -/
theorem runKeeps {u : State} (k : Keeps s t) (e : Machine.run s t = .next u) : Upholds s u := ((refl s).keeps k).run e

end Upholds

theorem exec_upholds {i : Instr} {s t : State} (e : exec i s = .next t) : Upholds s t := by
  have h := Upholds.refl s
  have k := Keeps.refl s
  cases i with
  | hostFrame kind tag body check => exact (h.hostFrame kind tag body check).run e
  | hostFramingCharacter => exact Upholds.runKeeps k.framingChar e
  | hostLengthError length => exact Upholds.runKeeps (k.lengthError length) e
  | hostFrameTimeout => exact Upholds.runKeeps k.frameTimeout e
  | hostFrameSent =>
    simp only [exec, execHostFrameSent] at e
    split at e
    · cases e
      exact (h.restart .request s.link.fastRate s.clock).keeps (Keeps.refl _)
    · exact h.frameSent.run e
  | hostCharacter c => exact (h.hostChar c).run e
  | powerOnReset strapHigh =>
    cases e
    exact h.restart _ _ _
  | pinReset strapHigh =>
    cases e
    exact h.restart _ _ _
  | settingsLoadDone =>
    simp only [exec, execSettingsLoadDone] at e
    split at e
    · exact h.loadDone.takeNext.run e
    · exact h.run e
  | secondEvent peak => exact (h.second peak).run e
  | minuteEvent => exact Upholds.runKeeps k.minute e
  | midnightEvent => exact Upholds.runKeeps k.passMidnight.midnightClose e
  | segmentBegin track segment => exact Upholds.runKeeps (k.segmentBegins track segment) e
  | dayEnd track => exact Upholds.runKeeps (k.dayEnds track) e
  | sessionClose track session => exact Upholds.runKeeps (k.sessionCloses track session) e
  | alertDue pupil session => exact Upholds.runKeeps (k.alertFallsDue pupil session) e
  | bellEventDue zone source => exact Upholds.runKeeps (k.onZone zone _) e
  | ringEnd zone => exact Upholds.runKeeps (k.onZone zone _) e
  | openFault zone peak ms => exact Upholds.runKeeps (k.onZone zone _) e
  | overload zone least ms => exact Upholds.runKeeps (k.onZone zone _) e
  | checkShort zone least ms => exact Upholds.runKeeps (k.onZone zone _) e
  | probeEnd zone peak => exact Upholds.runKeeps (k.onZone zone _) e
  | arrivalRecord station kind sequence code check =>
    exact Upholds.runKeeps (k.onLine station fun h => h.arrivalComplete station _) e
  | stationFramingError station => exact Upholds.runKeeps (k.onLine station fun h => h.stationFraming station) e
  | recordAbandoned station => exact Upholds.runKeeps (k.onLine station fun h => h.recordAbandoned station) e
  | stationCharacter station c => exact Upholds.runKeeps (k.onLine station fun h => h.stationChar station c) e
  | holdOff station => exact Upholds.runKeeps (k.setStation station _) e
  | showSent station => exact Upholds.runKeeps (k.setStation station _) e
  | classificationComplete => exact Upholds.runKeeps k.completeClassification e
  | printerReady => exact Upholds.runKeeps k.printerReadyReport e
  | paperOut => exact Upholds.runKeeps k.paperOutReport e
  | slipRecordSent => exact Upholds.runKeeps k.slipSent e
  | printerStall => exact Upholds.runKeeps k.stallReached e
  | waitEntryExpiry position => exact Upholds.runKeeps (k.expireWait position) e
  | ready window status => exact ((h.keeps k.gwClear).gwTake (Upholds.windowed_gwReady? window status)).run e
  | result tag outcome => exact ((h.keeps k.gwClear).gwTake (Upholds.windowed_gwResult? tag outcome)).run e
  | inbound sender text => exact ((h.keeps k.gwClear).gwTake (Upholds.windowed_gwInbound? sender text)).run e
  | gatewayBadRecord => exact Upholds.runKeeps k.gwClear.gwBad e
  | gatewayRecordAbandoned => exact Upholds.runKeeps k.gwAbandon e
  | gatewayRecordSent => exact Upholds.runKeeps k.gwSent e
  | gatewayCharacter c => exact (h.gwChar c).run e
  | linkLoss => exact h.gwDown.run e
  | deliveryTimeout tag => exact Upholds.runKeeps (k.timeOut tag) e
  | retryDelay number => exact Upholds.runKeeps (k.retryReached number) e
  | messageLifetime number => exact Upholds.runKeeps (k.lifeReached number) e
  | pageEraseDone => exact Upholds.runKeeps k.eraseDone e
  | blankCheckDone blank => exact Upholds.runKeeps (k.blankChecked blank).settleDeferred e
  | pageProgramDone => exact Upholds.runKeeps k.programDone e
  | pageVerifyDone agrees => exact Upholds.runKeeps (k.verified agrees).settleDeferred e
  | pageReadDone => exact Upholds.runKeeps k.readDone.settleDeferred e
  | lampStretch lamp => exact Upholds.runKeeps (k.stretchEnds lamp) e
  | lampFlashPhase => exact Upholds.runKeeps k.flash e
  | _ => exact h.request e

theorem step_upholds {s t : State} (e : step s = .next t) : Upholds s t := by
  unfold step at e
  split at e
  · cases e
    exact Upholds.refl s
  · rename_i i rest _
    have waiting : Upholds s { s with pending := rest } := (Upholds.refl s).keeps (Keeps.refl s)
    exact waiting.trans (exec_upholds e)

/-- Settles O59: every command is built from operations that keep the invariants. -/
theorem stepsKeepTheStoreAndTheWindow : Obligations.StepsKeepTheStoreAndTheWindow := by
  intro s t e
  obtain ⟨hmem, hwindow, htables, hwaits⟩ := step_upholds e
  exact ⟨hmem, hwindow, htables, hwaits⟩

/-- Settles O60. -/
theorem resetMeetsTheInvariants : Obligations.ResetMeetsTheInvariants := by
  refine ⟨State.reset_mem_wf, ?_, ?_, ?_, ?_, ?_⟩
  · exact ⟨rfl, rfl, fun c => by cases c <;> rfl, .nil, fun _ h => (List.not_mem_nil h).elim, .nil, fun _ h => (List.not_mem_nil h).elim⟩
  · exact ⟨fun e => absurd e Bool.false_ne_true, fun _ => rfl⟩
  · obtain ⟨hc, hd, hb⟩ := Settings.factory_sound
    exact ⟨hc, hd, hb, rfl, rfl, rfl, fun _ _ e => by cases e⟩
  · exact fun _ h => (List.not_mem_nil h).elim
  · refine ⟨fun _ h => (List.not_mem_nil h).elim, fun i p h => ?_⟩
    fin_cases i <;> cases h

end Sys2Proof.Machine
end

