-- ==== Sys2Proof/Proofs/Lookups.lean ====
section
/-! SUPPORT. PUPIL FIND and SENDER FIND (R12, R13) and what the maps hold (R3, R9). -/

namespace Sys2Proof.Machine

section
variable {s : State} {tag : Nat} {code : Code} {body : List Byte}

theorem pupilFind_answers {key value : Nat} (h : s.ready)
    (e : reqPupilFind key value (s.inHand 0x0C tag) = (s.inHand 0x0C tag, ⟨code, body⟩)) :
    Answers (.pupilFind tag key value) s 0x0C tag id code body :=
  answers_of_handle h rfl rfl (by decide) (congrArg answered e) rfl

theorem senderFind_answers {number : Text} (h : s.ready)
    (e : reqSenderFind number (s.inHand 0x0D tag) = (s.inHand 0x0D tag, ⟨code, body⟩)) :
    Answers (.senderFind tag number) s 0x0D tag id code body :=
  answers_of_handle h rfl rfl (by decide) (congrArg answered e) rfl

end

/-! ## What a lookup finds (R3) -/

theorem Settings.badgeLookup_some {x : Settings} (h : Tab.wf factoryPupil x.pupils = true) {value p : Nat}
    (e : x.badgeLookup value = some p) :
    value ≠ 0 ∧ (Tab.get factoryPupil x.pupils p).inUse = true ∧ (Tab.get factoryPupil x.pupils p).badge = value := by
  unfold Settings.badgeLookup at e
  split at e
  · cases e
  · have hm := (Tab.mem_filter_iff h (by simp [factoryPupil])).mp (List.mem_of_mem_head? e)
    simp only [Bool.and_eq_true, beq_iff_eq] at hm
    exact ⟨‹_›, hm⟩

theorem Settings.badgeLookup_ne_none {x : Settings} (h : Tab.wf factoryPupil x.pupils = true) {p : Nat}
    (hu : (Tab.get factoryPupil x.pupils p).inUse = true) (hb : (Tab.get factoryPupil x.pupils p).badge ≠ 0) :
    x.badgeLookup (Tab.get factoryPupil x.pupils p).badge ≠ none := by
  rw [Settings.badgeLookup, if_neg hb, Ne, List.head?_eq_none_iff]
  exact List.ne_nil_of_mem ((Tab.mem_filter_iff (i := p) h (by simp [factoryPupil])).mpr (by simp [hu]))

theorem Settings.shortLookup_some {x : Settings} (h : Tab.wf factoryPupil x.pupils = true) {value p : Nat}
    (e : x.shortLookup value = some p) :
    (Tab.get factoryPupil x.pupils p).inUse = true ∧ (Tab.get factoryPupil x.pupils p).short = value := by
  have hm := (Tab.mem_filter_iff h (by simp [factoryPupil])).mp (List.mem_of_mem_head? e)
  simpa only [Bool.and_eq_true, beq_iff_eq] using hm

theorem Settings.shortLookup_ne_none {x : Settings} (h : Tab.wf factoryPupil x.pupils = true) {p : Nat}
    (hu : (Tab.get factoryPupil x.pupils p).inUse = true) : x.shortLookup (Tab.get factoryPupil x.pupils p).short ≠ none := by
  rw [Settings.shortLookup, Ne, List.head?_eq_none_iff]
  exact List.ne_nil_of_mem ((Tab.mem_filter_iff (i := p) h (by simp [factoryPupil])).mpr (by simp [hu]))

/-! ## What the requests answer (R12, R13) -/

section
variable {s : State} {tag : Nat}

theorem pupilFind_badArg (h : s.ready) {key value : Nat} (hk : 2 ≤ key ∨ (key = 1 ∧ (value = 0 ∨ 9999 < value))) :
    Refuses (.pupilFind tag key value) s 0x0C tag .badArg := by
  refine pupilFind_answers h ?_
  unfold reqPupilFind
  rcases hk with hk | ⟨rfl, hv⟩
  · match key, hk with
    | 2, _ => rfl
    | key + 3, _ => rfl
  · exact if_neg (by omega)

theorem pupilFind_badge_notFound (h : s.ready) {value : Nat} (e : s.set.badgeLookup value = none) :
    Refuses (.pupilFind tag 0 value) s 0x0C tag .notFound :=
  pupilFind_answers h (by simp [reqPupilFind, KeyKind.ofCode, State.inHand, e, State.refuse, Reply.just])

theorem pupilFind_badge_found (h : s.ready) {value p : Nat} (e : s.set.badgeLookup value = some p) :
    Answers (.pupilFind tag 0 value) s 0x0C tag id .ok (b2 p ++ b1 (s.pupil p).group) :=
  pupilFind_answers h (by simp [reqPupilFind, KeyKind.ofCode, State.inHand, e, State.answer, Reply.ok, State.pupil])

theorem pupilFind_short_notFound (h : s.ready) {value : Nat} (hlow : 1 ≤ value) (htop : value ≤ 9999)
    (e : s.set.shortLookup value = none) : Refuses (.pupilFind tag 1 value) s 0x0C tag .notFound :=
  pupilFind_answers h (by simp [reqPupilFind, KeyKind.ofCode, State.inHand, hlow, htop, e, State.refuse, Reply.just])

theorem pupilFind_short_found (h : s.ready) {value p : Nat} (hlow : 1 ≤ value) (htop : value ≤ 9999)
    (e : s.set.shortLookup value = some p) :
    Answers (.pupilFind tag 1 value) s 0x0C tag id .ok (b2 p ++ b1 (s.pupil p).group) :=
  pupilFind_answers h
    (by simp [reqPupilFind, KeyKind.ofCode, State.inHand, hlow, htop, e, State.answer, Reply.ok, State.pupil])

theorem validNumber_iff (number : Text) : validNumber number = true ↔
    1 ≤ number.length ∧ number.length ≤ 15 ∧ ∀ c ∈ number, 0x30 ≤ c.toNat ∧ c.toNat ≤ 0x39 := by
  simp [validNumber, isDigit, and_assoc]

theorem senderFind_badArg (h : s.ready) {number : Text} (hn : validNumber number = false) :
    Refuses (.senderFind tag number) s 0x0D tag .badArg :=
  senderFind_answers h (by simp [reqSenderFind, hn, State.refuse, Reply.just])

theorem senderFind_notFound (h : s.ready) {number : Text} (hn : validNumber number = true) (e : s.set.senderList number = []) :
    Refuses (.senderFind tag number) s 0x0D tag .notFound :=
  senderFind_answers h (by simp [reqSenderFind, hn, State.inHand, e, State.refuse, Reply.just])

theorem senderFind_found (h : s.ready) {number : Text} (hn : validNumber number = true) (e : s.set.senderList number ≠ []) :
    Answers (.senderFind tag number) s 0x0D tag id .ok
      (b1 (s.set.senderList number).length ++ (s.set.senderList number).flatMap b2) := by
  refine senderFind_answers h ?_
  rw [reqSenderFind, if_pos hn]
  split
  · exact absurd ‹_› e
  · rfl

end

/-- R9, R10: what the sender map holds for a number, `serves` saying which pupils it is to hold. -/
theorem Settings.senderList_spec {x : Settings} (h : Tab.wf factoryPupil x.pupils = true) (number : Text) {serves : Nat → Prop}
    (hs : ∀ p : Nat, p ∈ x.senderList number ↔ serves p) :
    (x.senderList number).Pairwise (· < ·) ∧
      ((∀ l : List Nat, l.Nodup → (∀ p ∈ l, serves p) → l.length ≤ 8) → (x.senderList number).length ≤ 8) ∧
      ((∃ p : Nat, serves p) → 1 ≤ (x.senderList number).length) :=
  ⟨x.senderList_pairwise h number, fun hb => hb _ (x.senderList_nodup h number) fun p hp => (hs p).mp hp,
    fun ⟨p, hp⟩ => List.length_pos_of_mem ((hs p).mpr hp)⟩

/-- Settles O41. -/
theorem mapLookups : Obligations.MapLookups := by
  intro s tag h
  refine ⟨fun _ _ => pupilFind_badArg h, fun _ => pupilFind_badge_notFound h, fun _ _ => pupilFind_badge_found h,
    fun _ => pupilFind_short_notFound h, fun _ _ => pupilFind_short_found h, fun number => ?_, fun hw => ?_⟩
  · refine ⟨fun hn => senderFind_badArg h ?_, fun hn => senderFind_notFound h ?_, fun hn => senderFind_found h ?_⟩
    · exact Bool.eq_false_iff.mpr fun k => hn ((validNumber_iff number).mp k)
    · exact (validNumber_iff number).mpr hn
    · exact (validNumber_iff number).mpr hn
  · refine ⟨fun _ _ => Settings.badgeLookup_some hw, fun _ => Settings.badgeLookup_ne_none hw, fun _ _ => Settings.shortLookup_some hw,
      fun _ => Settings.shortLookup_ne_none hw, fun number => ?_⟩
    have hs : ∀ p : Nat, p ∈ s.set.senderList number ↔ _ := fun p =>
      (s.set.mem_senderList hw p number).trans (and_congr_right' (s.set.reportsFrom_iff p number))
    exact ⟨hs, Settings.senderList_spec hw number hs⟩

end Sys2Proof.Machine
end

