-- ==== Sys2Proof/Proofs/TableEntries.lean ====
section
/-! SUPPORT. What becomes of one entry of the tables of pupils, contacts, zones, stations, templates and lamps (R1, R8, R41, R58, R149, R204). -/

namespace Sys2Proof.Machine

/-! ## Bytes that entries are read from -/

theorem flagOf_eq (n : Nat) : flagOf n = if n ≤ 1 then some (n == 1) else none :=
  match n with
  | 0 => rfl
  | 1 => rfl
  | n + 2 => (if_neg (by omega)).symm

theorem printable_iff (c : Byte) : printable c = true ↔ 0x20 ≤ c.toNat ∧ c.toNat ≤ 0x7E := by simp [printable]

theorem all_printable {l : List Byte} : l.all printable = true ↔ ∀ c ∈ l, 0x20 ≤ c.toNat ∧ c.toNat ≤ 0x7E := by
  simp only [List.all_eq_true, printable_iff]

theorem State.not_dayClosed_iff (s : State) : (!s.dayClosed) = true ↔ s.plan.dayState ≠ .closed := by simp [State.dayClosed]

/-! ## Pupils (R1, R2, R5, R10) -/

/-- The pupil that an entry's bytes spell. -/
def spelledPupil (l : List Byte) : Pupil := ⟨byteAt l 0 == 1, numAt l 1 2, numAt l 3 4, (l.drop 8).take (byteAt l 7), byteAt l 32⟩

/-- R1: the bytes of a pupil lie in their ranges. -/
def pupilFits (l : List Byte) : Prop :=
  byteAt l 0 ≤ 1 ∧ 1 ≤ (spelledPupil l).short ∧ (spelledPupil l).short ≤ 9999 ∧ 1 ≤ byteAt l 7 ∧ byteAt l 7 ≤ 24 ∧
    (∀ c ∈ (spelledPupil l).name, 0x20 ≤ c.toNat ∧ c.toNat ≤ 0x7E) ∧ (spelledPupil l).group < 120

theorem readPupil_of_fits {l : List Byte} (h : pupilFits l) : readPupil l = some (spelledPupil l) := by
  obtain ⟨hu, hlow, htop, hmin, hmax, hname, hgroup⟩ := h
  simp only [readPupil, flagOf_eq, if_pos hu]
  exact if_pos ⟨hlow, htop, hmin, hmax, all_printable.mpr hname, hgroup⟩

theorem readPupil_of_not_fits {l : List Byte} (h : ¬ pupilFits l) : readPupil l = none := by
  simp only [readPupil, flagOf_eq]
  split
  · rfl
  · rename_i hu
    obtain ⟨hflag, ⟨⟩⟩ := Option.ite_none_right_eq_some.mp hu
    exact if_neg fun ⟨hlow, htop, hmin, hmax, hname, hgroup⟩ => h ⟨hflag, hlow, htop, hmin, hmax, all_printable.mp hname, hgroup⟩

theorem Pupil.moves_iff (old new : Pupil) :
    old.moves new = true ↔ old.inUse ≠ new.inUse ∨ old.short ≠ new.short ∨ old.group ≠ new.group := by
  simp [Pupil.moves, or_assoc]

theorem Settings.overServed_iff (x : Settings) (number : Text) : x.overServed number = true ↔ 8 < (x.senderList number).length :=
  decide_eq_true_iff

theorem Settings.pupilOverServed_iff (x : Settings) (i : Nat) :
    x.pupilOverServed i = true ↔ ∃ k : Fin 3, 8 < (x.senderList (x.contactAt (3 * i + k.val)).number).length := by
  simp [Settings.pupilOverServed, Settings.overServed_iff, Fin.exists_fin_succ]

/-- R1, R2, R5, R10: what becomes of a pupil's entry, its refusals in order. -/
theorem writePupil_spec (s : State) (i : Nat) (l : List Byte) (hw : Tab.wf factoryPupil s.set.pupils = true) :
    let e := spelledPupil l
    let old := s.pupil i
    let t : Settings := { s.set with pupils := Tab.put factoryPupil s.set.pupils i e }
    let moves := s.plan.dayState ≠ .closed ∧ (old.inUse ≠ e.inUse ∨ old.short ≠ e.short ∨ old.group ≠ e.group)
    let repeats := e.inUse = true ∧ ∃ q : Nat, q ≠ i ∧ (s.pupil q).inUse = true ∧
      ((s.pupil q).short = e.short ∨ (e.badge ≠ 0 ∧ (s.pupil q).badge = e.badge))
    let ninth := old.inUse = false ∧ e.inUse = true ∧
      ∃ k : Fin 3, 8 < (t.senderList (s.contact (3 * i + k.val)).number).length
    let w := writePupil s i l
    (¬ pupilFits l → w = .error ⟨.badArg, none⟩) ∧ (pupilFits l → moves → w = .error ⟨.state, none⟩) ∧
      (pupilFits l → ¬ moves → repeats → w = .error ⟨.duplicate, none⟩) ∧
      (pupilFits l → ¬ moves → ¬ repeats → ninth → w = .error ⟨.full, none⟩) ∧
      (pupilFits l → ¬ moves → ¬ repeats → ¬ ninth → w = .ok ({ s with set := t }, false)) := by
  intro e old t moves repeats ninth w
  have hmoves : (!s.dayClosed && old.moves e) = true ↔ moves := by
    rw [Bool.and_eq_true, s.not_dayClosed_iff, Pupil.moves_iff]
  have hrepeats : s.set.duplicates i e = true ↔ repeats := s.set.duplicates_iff hw i e
  have hninth : (!old.inUse && e.inUse && t.pupilOverServed i) = true ↔ ninth := by
    rw [Bool.and_eq_true, Bool.and_eq_true, t.pupilOverServed_iff, Bool.not_eq_true', and_assoc]
    rfl
  have hread (hf : pupilFits l) : w = if !s.dayClosed && old.moves e then refusedWith .state
      else if s.set.duplicates i e then refusedWith .duplicate
      else if !old.inUse && e.inUse && t.pupilOverServed i then refusedWith .full
      else .ok ({ s with set := t }, false) := by
    simp only [w, writePupil, readPupil_of_fits hf]
    rfl
  refine ⟨fun hf => ?_, fun hf hm => ?_, fun hf hm hr => ?_, fun hf hm hr hn => ?_, fun hf hm hr hn => ?_⟩
  · simp only [w, writePupil, readPupil_of_not_fits hf]
    rfl
  · rw [hread hf, if_pos (hmoves.mpr hm)]
    rfl
  · rw [hread hf, if_neg (mt hmoves.mp hm), if_pos (hrepeats.mpr hr)]
    rfl
  · rw [hread hf, if_neg (mt hmoves.mp hm), if_neg (mt hrepeats.mp hr), if_pos (hninth.mpr hn)]
    rfl
  · rw [hread hf, if_neg (mt hmoves.mp hm), if_neg (mt hrepeats.mp hr), if_neg (mt hninth.mp hn)]

/-! ## Contacts (R8, R10) -/

/-- TEXT 00h, VOICE 01h. -/
def channelOf (n : Nat) : Channel := if n = 0 then .text else .voice

/-- The contact slot that an entry's bytes spell. -/
def spelledContact (l : List Byte) : Contact :=
  ⟨byteAt l 0 == 1, (l.drop 2).take (byteAt l 1), channelOf (byteAt l 17),
    if byteAt l 18 ≤ 1 then some (channelOf (byteAt l 18)) else none,
    byteAt l 19 % 2 == 1, byteAt l 19 / 2 % 2 == 1, byteAt l 19 / 4 % 2 == 1⟩

/-- R8, R212: the bytes of a contact slot lie in their ranges. -/
def contactFits (l : List Byte) : Prop :=
  byteAt l 0 ≤ 1 ∧ 1 ≤ (spelledContact l).number.length ∧ byteAt l 1 ≤ 15 ∧
    (∀ c ∈ (spelledContact l).number, 0x30 ≤ c.toNat ∧ c.toNat ≤ 0x39) ∧
    byteAt l 17 ≤ 1 ∧ byteAt l 18 ≤ 2 ∧ byteAt l 18 ≠ byteAt l 17 ∧ byteAt l 19 < 8

theorem channelOfCode_eq (n : Nat) : Channel.ofCode n = if n ≤ 1 then some (channelOf n) else none :=
  match n with
  | 0 => rfl
  | 1 => rfl
  | n + 2 => (if_neg (by omega)).symm

theorem secondChannel?_eq (n : Nat) :
    secondChannel? n = if n ≤ 2 then some (if n ≤ 1 then some (channelOf n) else none) else none :=
  match n with
  | 0 => rfl
  | 1 => rfl
  | 2 => rfl
  | n + 3 => (if_neg (by omega)).symm

/-- R8: the second channel is another than the first exactly when their bytes differ. -/
theorem channels_differ_iff {m n : Nat} (hm : m ≤ 1) (hn : n ≤ 2) :
    (if n ≤ 1 then some (channelOf n) else none) ≠ some (channelOf m) ↔ n ≠ m := by
  interval_cases m <;> interval_cases n <;> decide

theorem readContact_of_fits {l : List Byte} (h : contactFits l) : readContact l = some (spelledContact l) := by
  obtain ⟨hu, hmin, hmax, hdigits, hc, hd, hne, hf⟩ := h
  simp only [readContact, flagOf_eq, channelOfCode_eq, secondChannel?_eq, if_pos hu, if_pos hc, if_pos hd]
  exact if_pos ⟨hmax, (validNumber_iff _).mpr ⟨hmin, (List.length_take_le _ _).trans hmax, hdigits⟩,
    (channels_differ_iff hc hd).mpr hne, hf⟩

theorem readContact_of_not_fits {l : List Byte} (h : ¬ contactFits l) : readContact l = none := by
  simp only [readContact, flagOf_eq, channelOfCode_eq, secondChannel?_eq]
  split
  · rename_i hu hc hd
    obtain ⟨hflag, ⟨⟩⟩ := Option.ite_none_right_eq_some.mp hu
    obtain ⟨hfirst, ⟨⟩⟩ := Option.ite_none_right_eq_some.mp hc
    obtain ⟨hsecond, ⟨⟩⟩ := Option.ite_none_right_eq_some.mp hd
    refine if_neg fun ⟨hmax, hvalid, hne, hf⟩ => h ?_
    obtain ⟨hmin, -, hdigits⟩ := (validNumber_iff _).mp hvalid
    exact ⟨hflag, hmin, hmax, hdigits, hfirst, hsecond, (channels_differ_iff hfirst hsecond).mp hne, hf⟩
  · rfl

/-- R8, R10: what becomes of a contact's entry. -/
theorem writeContact_spec (s : State) (i : Nat) (l : List Byte) :
    let t : Settings := { s.set with contacts := Tab.put factoryContact s.set.contacts i (spelledContact l) }
    let w := writeContact s i l
    (¬ contactFits l → w = .error ⟨.badArg, none⟩) ∧
      (contactFits l → 8 < (t.senderList (spelledContact l).number).length → w = .error ⟨.full, none⟩) ∧
      (contactFits l → (t.senderList (spelledContact l).number).length ≤ 8 → w = .ok ({ s with set := t }, false)) := by
  intro t w
  refine ⟨fun hf => ?_, fun hf hs => ?_, fun hf hs => ?_⟩
  · simp only [w, writeContact, readContact_of_not_fits hf]
    rfl
  · simp only [w, writeContact, readContact_of_fits hf]
    exact if_pos ((t.overServed_iff _).mpr hs)
  · simp only [w, writeContact, readContact_of_fits hf]
    exact if_neg (mt (t.overServed_iff _).mp (Nat.not_lt.mpr hs))

/-! ## Zones (R41) -/

/-- The zone that an entry's bytes spell, held in its ranges. -/
def spelledZone (l : List Byte) : ZoneCfg :=
  let held := fun (low top k : Nat) => max low (min (byteAt l k) top)
  ⟨if h : byteAt l 0 < 4 then some ⟨byteAt l 0, h⟩ else none, held 1 15 1, held 1 15 2, held 1 15 3, held 1 15 4, held 1 15 5,
    held 0 7 6, held 1 8 7, byteAt l 8 == 1⟩

/-- R41: the track and the flag of a zone lie in their ranges. -/
def zoneFits (l : List Byte) : Prop := (byteAt l 0 < 4 ∨ byteAt l 0 = 255) ∧ byteAt l 8 ≤ 1

/-- R41: no value of a zone is clamped. -/
def zoneAsWritten (l : List Byte) : Prop :=
  (∀ k : Nat, 1 ≤ k → k ≤ 5 → 1 ≤ byteAt l k ∧ byteAt l k ≤ 15) ∧ byteAt l 6 ≤ 7 ∧ 1 ≤ byteAt l 7 ∧ byteAt l 7 ≤ 8

theorem zoneTrack?_eq (n : Nat) :
    zoneTrack? n = if n < 4 ∨ n = 255 then some (if h : n < 4 then some ⟨n, h⟩ else none) else none := by
  unfold zoneTrack? fin4?
  by_cases h : n < 4
  · have h' : n ≠ 255 := by omega
    simp [h, h']
  · simp [h]

theorem fin4?_val (z : Fin 4) : fin4? z.val = some z := dif_pos z.isLt

theorem station?_val (n : Fin 6) : station? (n.val + 1) = some n := by
  have h : 1 ≤ n.val + 1 ∧ n.val + 1 ≤ 6 := by omega
  simp [station?, h]

theorem capIn_snd (low top n : Nat) : (capIn low top n).2 = decide (¬ (low ≤ n ∧ n ≤ top)) := by
  simp only [capIn, ← Bool.decide_or]
  exact decide_eq_decide.mpr (by omega)

theorem readZone_of_fits {l : List Byte} (h : zoneFits l) :
    ∃ c : Bool, readZone l = some (spelledZone l, c) ∧ (c = false ↔ zoneAsWritten l) := by
  obtain ⟨ht, ha⟩ := h
  simp only [readZone, zoneTrack?_eq, flagOf_eq, if_pos ht, if_pos ha]
  refine ⟨_, rfl, ?_⟩
  simp only [Bool.or_eq_false_iff, capIn_snd, capAt, decide_eq_false_iff_not, not_not, zoneAsWritten, Nat.not_lt]
  constructor
  · rintro ⟨⟨⟨⟨⟨⟨h1, h2⟩, h3⟩, h4⟩, h5⟩, h6⟩, h7⟩
    refine ⟨fun k hlow htop => ?_, h6, h7⟩
    interval_cases k <;> assumption
  · rintro ⟨hk, h6, h7⟩
    exact ⟨⟨⟨⟨⟨⟨hk 1 (by omega) (by omega), hk 2 (by omega) (by omega)⟩, hk 3 (by omega) (by omega)⟩,
      hk 4 (by omega) (by omega)⟩, hk 5 (by omega) (by omega)⟩, h6⟩, h7⟩

theorem readZone_of_not_fits {l : List Byte} (h : ¬ zoneFits l) : readZone l = none := by
  simp only [readZone, zoneTrack?_eq, flagOf_eq]
  split
  · rename_i ht ha
    exact absurd ⟨(Option.ite_none_right_eq_some.mp ht).1, (Option.ite_none_right_eq_some.mp ha).1⟩ h
  · rfl

/-- R41: what becomes of a zone's entry; in CLOSED the settings alone change (log 41). -/
theorem writeZone_spec (s : State) (z : Fin 4) (l : List Byte) :
    let moves := s.plan.dayState ≠ .closed ∧ (s.set.zones.get z).track ≠ (spelledZone l).track
    let w := writeZone s z.val l
    (¬ zoneFits l → w = .error ⟨.badArg, none⟩) ∧ (zoneFits l → moves → w = .error ⟨.state, none⟩) ∧
      (zoneFits l → ¬ moves →
        ∃ c : Bool, w = .ok ({ s with set.zones := s.set.zones.set z (spelledZone l) }, c) ∧ (c = false ↔ zoneAsWritten l)) := by
  intro moves w
  have hmoves : (!s.dayClosed && (s.set.zones.get z).track != (spelledZone l).track) = true ↔ moves := by
    rw [Bool.and_eq_true, s.not_dayClosed_iff, bne_iff_ne]
  refine ⟨fun hf => ?_, fun hf hm => ?_, fun hf hm => ?_⟩
  · simp only [w, writeZone, readZone_of_not_fits hf]
    rfl
  · obtain ⟨c, hread, -⟩ := readZone_of_fits hf
    simp only [w, writeZone, hread, fin4?_val]
    exact if_pos (hmoves.mpr hm)
  · obtain ⟨c, hread, hc⟩ := readZone_of_fits hf
    refine ⟨c, ?_, hc⟩
    simp only [w, writeZone, hread, fin4?_val]
    exact if_neg (mt hmoves.mp hm)

/-! ## Stations (R58, R60) -/

/-- R58: what becomes of a station's entry. -/
theorem writeStation_spec (s : State) (n : Fin 6) (l : List Byte) :
    let w := writeStation s (n.val + 1) l
    (2 ≤ byteAt l 0 ∨ divisorFor (numAt l 1 4) = none → w = .error ⟨.badArg, none⟩) ∧
      ∀ d : Nat, byteAt l 0 ≤ 1 → divisorFor (numAt l 1 4) = some d →
        let e : StationCfg := ⟨byteAt l 0 == 1, numAt l 1 4, d, min (byteAt l 6) 30⟩
        w = .ok ({ s with
          set.stations := s.set.stations.set n e
          stations := s.stations.set n ((s.stations.get n).rewrite (s.set.stations.get n) e) }, decide (30 < byteAt l 6)) := by
  intro w
  refine ⟨fun h => ?_, fun d hu hd => ?_⟩
  · have hread : readStation l = none := by
      simp only [readStation, flagOf_eq]
      rcases h with hu | hd
      · rw [if_neg (by omega)]
      · rw [hd]
        split <;> rename_i e
        · cases e
        · rfl
    simp only [w, writeStation, hread]
    rfl
  · simp only [w, writeStation, readStation, flagOf_eq, if_pos hu, hd, station?_val]
    rfl

/-- R60: what an accepted entry does on its line. -/
theorem Station.rewrite_spec (x : Station) (old new : StationCfg) :
    let y := x.rewrite old new
    let empty : Station := { x with asm := none, gap := 0 }
    (old.enabled = true → new.enabled = true → old.divisor = new.divisor ∨ x.asm = none → y = x) ∧
      (old.enabled = true → new.enabled = true → old.divisor ≠ new.divisor → x.asm ≠ none →
        y = { empty with cnt.abandoned := min (x.cnt.abandoned + 1) 4294967295 }) ∧
      (old.enabled = true → new.enabled = false →
        y = { empty with
          queue := []
          out := []
          sending := none
          held := false
          holdOff := 0
          cnt.discarded := min (x.cnt.discarded + x.queue.length) 4294967295 }) ∧
      (old.enabled = false → new.enabled = true →
        y = Station.show { empty with held := false, queue := [] } ⟨.ready, none, false, [], 0⟩) ∧
      (old.enabled = false → new.enabled = false → y = x) := by
  intro y empty
  refine ⟨fun ho hn h => ?_, fun ho hn hd ha => ?_, fun ho hn => ?_, fun ho hn => ?_, fun ho hn => ?_⟩
  · simp only [y, Station.rewrite, ho, hn]
    split
    · rfl
    · rename_i hd
      rw [h.resolve_left hd]
  · obtain ⟨r, hr⟩ := Option.ne_none_iff_exists'.mp ha
    simp only [y, Station.rewrite, ho, hn, if_neg hd, hr]
    rfl
  · simp only [y, Station.rewrite, ho, hn]
    rfl
  · simp only [y, Station.rewrite, ho, hn]
    rfl
  · simp only [y, Station.rewrite, ho, hn]

/-! ## Templates (R149) -/

/-- R149, R210: the places of a template are printable characters and field markers, 200 at most. -/
def templateFits (l : List Byte) : Prop :=
  byteAt l 0 ≤ 200 ∧ ∀ c ∈ (l.drop 1).take (byteAt l 0), (0x20 ≤ c.toNat ∧ c.toNat ≤ 0x7E) ∨ (1 ≤ c.toNat ∧ c.toNat ≤ 6)

theorem placeOk_iff (c : Byte) : placeOk c = true ↔ (0x20 ≤ c.toNat ∧ c.toNat ≤ 0x7E) ∨ (1 ≤ c.toNat ∧ c.toNat ≤ 6) := by
  simp [placeOk, printable]

theorem templateFits_iff (l : List Byte) :
    templateFits l ↔ byteAt l 0 ≤ 200 ∧ ((l.drop 1).take (byteAt l 0)).all placeOk = true := by
  simp only [templateFits, List.all_eq_true, placeOk_iff]

/-- R149: what becomes of a template's entry. -/
theorem writeTemplate_spec (s : State) (i : Nat) (l : List Byte) :
    (¬ templateFits l → writeTemplate s i l = .error ⟨.badArg, none⟩) ∧
      (templateFits l → writeTemplate s i l =
        .ok ({ s with set.templates := Tab.put factoryTemplate s.set.templates i ((l.drop 1).take (byteAt l 0)) }, false)) := by
  refine ⟨fun hf => ?_, fun hf => ?_⟩
  · simp only [writeTemplate, readTemplate, if_neg (mt (templateFits_iff l).mpr hf)]
    rfl
  · simp only [writeTemplate, readTemplate, if_pos ((templateFits_iff l).mp hf)]

/-! ## Lamps (R204) -/

theorem LampMode.ofCode_code (m : LampMode) : LampMode.ofCode m.code = some m := by cases m <;> rfl

theorem LampMode.ofCode_eq_none {n : Nat} (h : 3 ≤ n) : LampMode.ofCode n = none :=
  match n, h with
  | _ + 3, _ => rfl

theorem LampSource.ofCode_eq_none_iff (n : Nat) : LampSource.ofCode n = none ↔ 10 ≤ n := by
  constructor
  · intro h
    by_contra hn
    interval_cases n <;> cases h
  · intro h
    match n, h with
    | _ + 10, _ => rfl

/-- R204: the stretch is held at 0, 1, 2 or 5. -/
theorem capStretch_spec (n : Nat) : (capStretch n).1 = (if n ≤ 2 then n else if n ≤ 4 then 2 else 5) ∧
    ((capStretch n).2 = true ↔ (capStretch n).1 ≠ n) := by
  unfold capStretch
  split_ifs <;> simp <;> omega

/-- R204: what becomes of a lamp's entry, and of the lamp's stretch remaining (log 23). -/
theorem writeLamp_spec (s : State) (n : Fin 4) (l : List Byte) :
    let source := LampSource.ofCode (byteAt l 0)
    let v := byteAt l 2
    let stretch := if v ≤ 2 then v else if v ≤ 4 then 2 else 5
    let was := s.lampSource (s.set.lamps.get n).source
    let now := s.lampSource (source.getD .off)
    let left := if was = now then s.lamps.stretch.get n else if was then stretch else 0
    let w := writeLamp s n.val l
    (3 ≤ byteAt l 1 → w = .error ⟨.badArg, none⟩) ∧
      ∀ m : LampMode, byteAt l 1 = m.code →
        ∃ c : Bool, w = .ok ({ s with
            set.lamps := s.set.lamps.set n ⟨source.getD .off, m, stretch⟩
            lamps.stretch := s.lamps.stretch.set n left }, c) ∧
          (c = true ↔ 10 ≤ byteAt l 0 ∨ stretch ≠ v) := by
  intro source v stretch was now left w
  refine ⟨fun h => ?_, fun m hm => ?_⟩
  · simp only [w, writeLamp, readLamp, LampMode.ofCode_eq_none h]
    rfl
  · obtain ⟨hcap, hclamped⟩ := capStretch_spec v
    have hread : ∃ c : Bool, readLamp l = some (⟨source.getD .off, m, stretch⟩, c) ∧ (c = true ↔ 10 ≤ byteAt l 0 ∨ stretch ≠ v) := by
      simp only [readLamp, hm, LampMode.ofCode_code, stretch, ← hcap, ← LampSource.ofCode_eq_none_iff]
      cases hs : LampSource.ofCode (byteAt l 0) with
      | some x => exact ⟨_, by simp only [source, hs]; rfl, by simpa using hclamped⟩
      | none => exact ⟨true, by simp only [source, hs]; rfl, by simp⟩
    obtain ⟨c, hread, hc⟩ := hread
    refine ⟨c, ?_, hc⟩
    simp only [w, writeLamp, hread, fin4?_val, State.setLamp, followLamp_eq]
    rfl

end Sys2Proof.Machine
end

