-- ==== Sys2Proof/Proofs/OptionsEntry.lean ====
section
/-! SUPPORT. What becomes of the OPTIONS entry (R106, R119, R137, R152). -/

namespace Sys2Proof.Machine

/-! ## OPTIONS (R106, R119, R137, R152) -/

/-- A value held in a range. -/
def heldIn (low top n : Nat) : Nat := max low (min n top)

/-- The four credits that an OPTIONS entry's bytes spell. -/
def spelledCredits (l : List Byte) : PerClass Nat := ⟨byteAt l 2, byteAt l 3, byteAt l 4, byteAt l 5⟩

/-- R152: the fallback count held at 1, 2, 4 or 8. -/
def fallbackHeld (n : Nat) : Nat := if n = 0 then 1 else if n < 4 then min n 2 else if n < 8 then 4 else 8

/-- The options that an entry's bytes spell, held in their ranges. -/
def spelledOptions (l : List Byte) : Options :=
  ⟨heldIn 0 60 (byteAt l 0), heldIn 0 9 (byteAt l 1), spelledCredits l, fallbackHeld (byteAt l 6), heldIn 60 900 (numAt l 7 2),
    heldIn 30 600 (numAt l 9 2), heldIn 30 480 (numAt l 11 2), heldIn 30 480 (numAt l 13 2), byteAt l 15 == 1⟩

/-- R137: the credits and the flag of an OPTIONS entry lie in their ranges. -/
def optionsFit (l : List Byte) : Prop :=
  let c := spelledCredits l
  (∀ k : MsgClass, 1 ≤ c.get k ∧ c.get k ≤ 8) ∧ c.alert + c.notice + c.report + c.receipt ≤ 16 ∧ byteAt l 15 ≤ 1

/-- No value of an OPTIONS entry is clamped. -/
def optionsAsWritten (l : List Byte) : Prop :=
  let o := spelledOptions l
  o.alertDelay = byteAt l 0 ∧ o.threshold = byteAt l 1 ∧ o.fallback = byteAt l 6 ∧ o.retry = numAt l 7 2 ∧
    o.timeout = numAt l 9 2 ∧ o.noticeLife = numAt l 11 2 ∧ o.receiptLife = numAt l 13 2

theorem capAt_spec (top n : Nat) : (capAt top n).1 = heldIn 0 top n ∧ ((capAt top n).2 = false ↔ heldIn 0 top n = n) := by
  simp only [capAt, heldIn, decide_eq_false_iff_not]
  omega

theorem capIn_spec (low top n : Nat) (h : low ≤ top) :
    (capIn low top n).1 = heldIn low top n ∧ ((capIn low top n).2 = false ↔ heldIn low top n = n) := by
  refine ⟨rfl, ?_⟩
  rw [capIn_snd, decide_eq_false_iff_not, not_not, heldIn]
  omega

theorem capFallback_spec (n : Nat) : (capFallback n).1 = fallbackHeld n ∧ ((capFallback n).2 = false ↔ fallbackHeld n = n) := by
  unfold capFallback fallbackHeld
  split_ifs <;> simp <;> omega

theorem MsgClass.forall_iff {p : MsgClass → Prop} : (∀ k, p k) ↔ p .alert ∧ p .notice ∧ p .report ∧ p .receipt := by
  constructor
  · exact fun h => ⟨h _, h _, h _, h _⟩
  · rintro ⟨ha, hn, hr, hc⟩ k
    cases k <;> assumption

theorem any_msgClasses_iff (p : MsgClass → Bool) : msgClasses.any p = true ↔ ∃ k, p k = true := by
  have hall (k : MsgClass) : k ∈ msgClasses := by cases k <;> decide
  simp only [List.any_eq_true, hall, true_and]

theorem creditsOk_iff (c : PerClass Nat) :
    creditsOk c = true ↔ (∀ k : MsgClass, 1 ≤ c.get k ∧ c.get k ≤ 8) ∧ c.alert + c.notice + c.report + c.receipt ≤ 16 := by
  simp only [creditsOk, creditOk, Bool.and_eq_true, decide_eq_true_eq, MsgClass.forall_iff, PerClass.get, and_assoc]

theorem readOptions_of_fits {l : List Byte} (h : optionsFit l) :
    ∃ d : Bool, readOptions l = some (spelledOptions l, d) ∧ (d = false ↔ optionsAsWritten l) := by
  obtain ⟨hcredits, hsum, hflag⟩ := h
  obtain ⟨hd, hd'⟩ := capAt_spec 60 (byteAt l 0)
  obtain ⟨ht, ht'⟩ := capAt_spec 9 (byteAt l 1)
  obtain ⟨hn, hn'⟩ := capFallback_spec (byteAt l 6)
  obtain ⟨hy, hy'⟩ := capIn_spec 60 900 (numAt l 7 2) (by decide)
  obtain ⟨ho, ho'⟩ := capIn_spec 30 600 (numAt l 9 2) (by decide)
  obtain ⟨ha, ha'⟩ := capIn_spec 30 480 (numAt l 11 2) (by decide)
  obtain ⟨hb, hb'⟩ := capIn_spec 30 480 (numAt l 13 2) (by decide)
  simp only [readOptions, flagOf_eq, if_pos hflag, hd, ht, hn, hy, ho, ha, hb]
  refine ⟨_, if_pos ((creditsOk_iff _).mpr ⟨hcredits, hsum⟩), ?_⟩
  simp only [Bool.or_eq_false_iff, hd', ht', hn', hy', ho', ha', hb', optionsAsWritten, spelledOptions, and_assoc]

theorem readOptions_of_not_fits {l : List Byte} (h : ¬ optionsFit l) : readOptions l = none := by
  simp only [readOptions, flagOf_eq]
  split
  · rfl
  · rename_i hu
    obtain ⟨hflag, ⟨⟩⟩ := Option.ite_none_right_eq_some.mp hu
    refine if_neg fun hc => h ?_
    obtain ⟨hcredits, hsum⟩ := (creditsOk_iff _).mp hc
    exact ⟨hcredits, hsum, hflag⟩

/-- R137, R144: credits that rise for some class let the serve pass run. -/
theorem State.takeOptions_spec (s : State) (o : Options) :
    let taken : State := { s with set.options := o, pool.credits := s.freeCredits o.credits }
    let rises := ∃ k : MsgClass, s.pool.credits.get k < o.credits.get k - s.pool.reserveHeld k
    (rises → s.takeOptions o = taken.servePass) ∧ (¬ rises → s.takeOptions o = taken) := by
  intro taken rises
  have hrises : (msgClasses.any fun k => decide (s.pool.credits.get k < (s.freeCredits o.credits).get k)) = true ↔ rises := by
    rw [any_msgClasses_iff]
    refine exists_congr fun k => ?_
    rw [decide_eq_true_iff]
    cases k <;> rfl
  exact ⟨fun h => if_pos (hrises.mpr h), fun h => if_neg (mt hrises.mp h)⟩

/-- R137: credits below what some class holds on reserve are refused. -/
theorem State.creditsBusy_iff (s : State) (c : PerClass Nat) :
    s.creditsBusy c = true ↔ ∃ k : MsgClass, c.get k < s.pool.reserveHeld k := by
  simp only [State.creditsBusy, any_msgClasses_iff, decide_eq_true_iff]

/-- R106, R119, R137, R152: what becomes of the OPTIONS entry. -/
theorem writeOptions_spec (s : State) (l : List Byte) :
    let o := spelledOptions l
    let busy := ∃ k : MsgClass, o.credits.get k < s.pool.reserveHeld k
    let taken : State := { s with set.options := o, pool.credits := s.freeCredits o.credits }
    let rises := ∃ k : MsgClass, s.pool.credits.get k < o.credits.get k - s.pool.reserveHeld k
    let w := writeOptions s l
    (¬ optionsFit l → w = .error ⟨.badArg, none⟩) ∧ (optionsFit l → busy → w = .error ⟨.busy, none⟩) ∧
      (optionsFit l → ¬ busy → ∃ d : Bool, (d = false ↔ optionsAsWritten l) ∧
        (rises → w = .ok (taken.servePass, d)) ∧ (¬ rises → w = .ok (taken, d))) := by
  intro o busy taken rises w
  have hbusy : s.creditsBusy o.credits = true ↔ busy := s.creditsBusy_iff _
  refine ⟨fun hf => ?_, fun hf hb => ?_, fun hf hb => ?_⟩
  · simp only [w, writeOptions, readOptions_of_not_fits hf]
    rfl
  · obtain ⟨d, hread, -⟩ := readOptions_of_fits hf
    simp only [w, writeOptions, hread]
    exact if_pos (hbusy.mpr hb)
  · obtain ⟨d, hread, hd⟩ := readOptions_of_fits hf
    have hw : w = .ok (s.takeOptions o, d) := by
      simp only [w, writeOptions, hread]
      exact if_neg (mt hbusy.mp hb)
    obtain ⟨hserved, hunserved⟩ := s.takeOptions_spec o
    exact ⟨d, hd, fun h => by rw [hw, hserved h], fun h => by rw [hw, hunserved h]⟩

end Sys2Proof.Machine
end

