-- ==== Sys2Proof/Proofs/PlanEntries.lean ====
section
/-! SUPPORT. A plan is read back from its bytes with its clamps, and what becomes of its entry (R26, R27). -/

namespace Sys2Proof.Machine

/-! ## A plan's bytes read back (R26) -/

theorem toNat_ofNat_byte {n : Nat} (h : n < 256) : (BitVec.ofNat 8 n).toNat = n :=
  (BitVec.toNat_ofNat n 8).trans (Nat.mod_eq_of_lt h)

theorem num_b2 {n : Nat} (h : n < 65536) : num (b2 n) = n := by
  simp only [num, b2, List.foldl_cons, List.foldl_nil, BitVec.toNat_ofNat]
  omega

theorem byteAt_append_add (l m : List Byte) (k : Nat) : byteAt (l ++ m) (l.length + k) = byteAt m k := by
  simp only [byteAt, List.getElem?_append_right (Nat.le_add_right _ _), Nat.add_sub_cancel_left]

/-- A segment's lengths are bytes. -/
def Segment.byteLengths (g : Segment) : Prop := g.nominal < 256 ∧ g.minimum < 256

/-- R26: a segment's lengths lie in their ranges. -/
def Segment.fits (g : Segment) : Prop := 1 ≤ g.nominal ∧ g.nominal ≤ 180 ∧ 1 ≤ g.minimum ∧ g.minimum ≤ g.nominal

theorem Segment.length_bytes (g : Segment) : g.bytes.length = 7 := rfl

theorem readSegment_bytes {g : Segment} (h : g.byteLengths) :
    (g.fits → readSegment g.bytes = some g) ∧ (¬ g.fits → readSegment g.bytes = none) := by
  have hk : SegKind.ofCode (byteAt g.bytes 0) = some g.kind := by
    rcases g with ⟨k, -, -, -, -, -, -⟩
    cases k <;> rfl
  have hc : flagOf (byteAt g.bytes 3) = some g.compressible := by
    rcases g with ⟨-, -, -, c, -, -, -⟩
    cases c <;> rfl
  have hb : StartBell.ofCode (byteAt g.bytes 4) = some g.bell := by
    rcases g with ⟨-, -, -, -, b, -, -⟩
    cases b <;> rfl
  have hq : flagOf (byteAt g.bytes 5) = some g.quiet := by
    rcases g with ⟨-, -, -, -, -, q, -⟩
    cases q <;> rfl
  have hp : pointOf (byteAt g.bytes 6) = some g.point := by
    rcases g with ⟨-, -, -, -, -, -, p⟩
    rcases p with - | - | - <;> rfl
  have hnom : byteAt g.bytes 1 = g.nominal := toNat_ofNat_byte h.1
  have hmin : byteAt g.bytes 2 = g.minimum := toNat_ofNat_byte h.2
  simp only [readSegment, hk, hb, hp, hc, hq, hnom, hmin]
  exact ⟨fun hf => if_pos hf, fun hf => if_neg hf⟩

theorem readSegments_append (g : Segment) (n : Nat) (l : List Byte) (h : g.byteLengths) :
    (g.fits → readSegments (n + 1) (g.bytes ++ l) = (readSegments n l).map (g :: ·)) ∧
      (¬ g.fits → readSegments (n + 1) (g.bytes ++ l) = none) := by
  have htake : (g.bytes ++ l).take 7 = g.bytes := List.take_left' g.length_bytes
  have hdrop : (g.bytes ++ l).drop 7 = l := List.drop_left' g.length_bytes
  obtain ⟨hfits, hnot⟩ := readSegment_bytes h
  rw [readSegments, htake, hdrop]
  refine ⟨fun hf => ?_, fun hf => ?_⟩
  · rw [hfits hf]
    cases readSegments n l <;> rfl
  · rw [hnot hf]

theorem readSegments_of_fits {gs : List Segment} (h : ∀ g ∈ gs, g.byteLengths) (hf : ∀ g ∈ gs, g.fits) (l : List Byte) :
    readSegments gs.length (gs.flatMap Segment.bytes ++ l) = some gs := by
  induction gs with
  | nil => rfl
  | cons g gs ih =>
    rw [List.forall_mem_cons] at h hf
    rw [List.length_cons, List.flatMap_cons, List.append_assoc, (readSegments_append g _ _ h.1).1 hf.1, ih h.2 hf.2]
    rfl

theorem readSegments_of_not_fits {gs : List Segment} (h : ∀ g ∈ gs, g.byteLengths) (hf : ¬ ∀ g ∈ gs, g.fits) (l : List Byte) :
    readSegments gs.length (gs.flatMap Segment.bytes ++ l) = none := by
  induction gs with
  | nil => exact absurd (List.forall_mem_nil _) hf
  | cons g gs ih =>
    rw [List.forall_mem_cons] at h hf
    rw [List.length_cons, List.flatMap_cons, List.append_assoc]
    by_cases hg : g.fits
    · rw [(readSegments_append g _ _ h.1).1 hg, ih h.2 fun hgs => hf ⟨hg, hgs⟩]
      rfl
    · exact (readSegments_append g _ _ h.1).2 hg

/-! ## The session points of a plan (R26) -/

theorem mem_pointPlaces {ss : Session} {l : List Segment} {k : Nat} :
    k ∈ pointPlaces ss l ↔ ∃ g : Segment, l[k]? = some g ∧ g.point = some ss := by
  simp [pointPlaces, List.mem_zipIdx_iff_getElem?]

theorem nodup_pointPlaces (ss : Session) (l : List Segment) : (pointPlaces ss l).Nodup := by
  have hall : (l.zipIdx.map Prod.snd).Nodup := by
    rw [List.zipIdx_map_snd]
    exact List.nodup_range'
  exact hall.sublist (List.filter_sublist.map _)

/-- One AM place, at most one PM place, and that after it. -/
def pointsOk : List Nat → List Nat → Bool
  | [_], [] => true
  | [a], [b] => decide (a < b)
  | _, _ => false

theorem pointsOk_iff {am pm : List Nat} (ha : am.Nodup) (hp : pm.Nodup) :
    pointsOk am pm = true ↔ (∃ a, a ∈ am) ∧ (∀ a b, a ∈ am → b ∈ am → a = b) ∧ (∀ a b, a ∈ pm → b ∈ pm → a = b) ∧
      ∀ a b, a ∈ am → b ∈ pm → a < b := by
  match am, pm with
  | [], _ => simp [pointsOk]
  | [a], [] => simp [pointsOk]
  | [a], [b] => simp [pointsOk]
  | [a], b :: b' :: pm =>
    have hne : b ≠ b' := fun e => by simp [e] at hp
    simp only [pointsOk, Bool.false_eq_true, false_iff]
    exact fun ⟨_, _, hpm, _⟩ => hne (hpm b b' (by simp) (by simp))
  | a :: a' :: am, pm =>
    have hne : a ≠ a' := fun e => by simp [e] at ha
    simp only [pointsOk, Bool.false_eq_true, false_iff]
    exact fun ⟨_, ham, _, _⟩ => hne (ham a a' (by simp) (by simp))

/-- A segment of a plan at a place carries a session's point. -/
def Plan.carries (p : Plan) (ss : Session) (k : Nat) : Prop := ∃ g : Segment, p.segs[k]? = some g ∧ g.point = some ss

theorem planShapeOk_eq (p : Plan) :
    planShapeOk p = (decide (p.start ≤ 1439) && decide (p.start + (p.segs.map (·.nominal)).sum ≤ 1439) &&
      pointsOk (pointPlaces .am p.segs) (pointPlaces .pm p.segs)) := rfl

theorem planShapeOk_iff (p : Plan) :
    planShapeOk p = true ↔ p.start ≤ 1439 ∧ p.start + (p.segs.map (·.nominal)).sum ≤ 1439 ∧ (∃ a : Nat, p.carries .am a) ∧
      (∀ (ss : Session) (a b : Nat), p.carries ss a → p.carries ss b → a = b) ∧
      ∀ a b : Nat, p.carries .am a → p.carries .pm b → a < b := by
  have hss {q : Session → Prop} : (∀ ss, q ss) ↔ q .am ∧ q .pm :=
    ⟨fun h => ⟨h _, h _⟩, fun ⟨ha, hp⟩ ss => by cases ss <;> assumption⟩
  rw [planShapeOk_eq, Bool.and_eq_true, Bool.and_eq_true, decide_eq_true_iff, decide_eq_true_iff,
    pointsOk_iff (nodup_pointPlaces _ _) (nodup_pointPlaces _ _), hss, and_assoc, and_assoc]
  simp only [mem_pointPlaces, Plan.carries]

/-! ## PLANS (R26, R27) -/

/-- A plan's numbers fit the bytes that carry them. -/
structure Plan.byteSized (p : Plan) : Prop where
  start : p.start < 65536
  count : p.segs.length < 256
  lengths : ∀ g ∈ p.segs, g.byteLengths
  grace : p.grace < 256
  kAm : p.kAm < 256
  kPm : p.kPm < 256
  allowance : p.allowance < 256
  warning : p.warning < 256

/-- R26: the start and the segments of a plan. -/
def Plan.fits (p : Plan) : Prop :=
  p.start ≤ 1439 ∧ 1 ≤ p.segs.length ∧ p.segs.length ≤ 12 ∧ (∀ g ∈ p.segs, g.fits) ∧
    p.start + (p.segs.map (·.nominal)).sum ≤ 1439 ∧ (∃ a : Nat, p.carries .am a) ∧
    (∀ (ss : Session) (a b : Nat), p.carries ss a → p.carries ss b → a = b) ∧
    ∀ a b : Nat, p.carries .am a → p.carries .pm b → a < b

/-- R26: the values of a plan that are held at a maximum. -/
def Plan.held (p : Plan) : Plan :=
  { p with
    grace := min p.grace 15
    kAm := min p.kAm 60
    kPm := min p.kPm 60
    allowance := min p.allowance 10
    warning := min p.warning 5 }

/-- The bytes of a plan after its segments. -/
def Plan.tail (p : Plan) : List Byte := b1 p.grace ++ b1 p.kAm ++ b1 p.kPm ++ b1 p.allowance ++ b1 p.warning

theorem Plan.bytes_eq (p : Plan) : p.bytes = (b2 p.start ++ b1 p.segs.length ++ p.segs.flatMap Segment.bytes) ++ p.tail := by
  simp only [Plan.bytes, Plan.tail, bList, List.append_assoc]

theorem length_segment_bytes (gs : List Segment) : (gs.flatMap Segment.bytes).length = 7 * gs.length := by
  induction gs with
  | nil => rfl
  | cons g gs ih =>
    rw [List.flatMap_cons, List.length_append, ih, g.length_bytes, List.length_cons]
    omega

theorem Plan.byteAt_tail (p : Plan) (k : Nat) : byteAt p.bytes (3 + 7 * p.segs.length + k) = byteAt p.tail k := by
  have hlen : (b2 p.start ++ b1 p.segs.length ++ p.segs.flatMap Segment.bytes).length = 3 + 7 * p.segs.length := by
    rw [List.length_append, length_segment_bytes]
    rfl
  rw [p.bytes_eq, ← hlen, byteAt_append_add]

theorem capAt_snd (top n : Nat) : (capAt top n).2 = false ↔ min n top = n := by
  simp only [capAt, decide_eq_false_iff_not]
  omega

theorem Plan.held_eq_iff (p : Plan) :
    p.held = p ↔ min p.grace 15 = p.grace ∧ min p.kAm 60 = p.kAm ∧ min p.kPm 60 = p.kPm ∧ min p.allowance 10 = p.allowance ∧
      min p.warning 5 = p.warning := by
  rcases p with ⟨_, _, _, _, _, _, _⟩
  simp only [Plan.held, Plan.mk.injEq, true_and]

/-- R26: a plan's bytes are read back as the plan with its clamps, or refused. -/
theorem readPlan_bytes {p : Plan} (h : p.byteSized) :
    (p.fits → ∃ c : Bool, readPlan p.bytes = some (p.held, c) ∧ (c = true ↔ p.held ≠ p)) ∧ (¬ p.fits → readPlan p.bytes = none) := by
  have hn : byteAt p.bytes 2 = p.segs.length := toNat_ofNat_byte h.count
  have hstart : numAt p.bytes 0 2 = p.start := num_b2 h.start
  have hdrop : p.bytes.drop 3 = p.segs.flatMap Segment.bytes ++ p.tail := by
    rw [p.bytes_eq]
    rfl
  have hgrace : byteAt p.bytes (3 + 7 * p.segs.length) = p.grace := (p.byteAt_tail 0).trans (toNat_ofNat_byte h.grace)
  have hkAm : byteAt p.bytes (3 + 7 * p.segs.length + 1) = p.kAm := (p.byteAt_tail 1).trans (toNat_ofNat_byte h.kAm)
  have hkPm : byteAt p.bytes (3 + 7 * p.segs.length + 2) = p.kPm := (p.byteAt_tail 2).trans (toNat_ofNat_byte h.kPm)
  have hallow : byteAt p.bytes (3 + 7 * p.segs.length + 3) = p.allowance := (p.byteAt_tail 3).trans (toNat_ofNat_byte h.allowance)
  have hwarn : byteAt p.bytes (3 + 7 * p.segs.length + 4) = p.warning := (p.byteAt_tail 4).trans (toNat_ofNat_byte h.warning)
  simp only [readPlan, hn, hdrop, hstart, hgrace, hkAm, hkPm, hallow, hwarn]
  by_cases hs : ∀ g ∈ p.segs, g.fits
  · simp only [readSegments_of_fits h.lengths hs]
    have hshape : planShapeOk p.held = true ↔ _ := planShapeOk_iff p.held
    refine ⟨fun hf => ?_, fun hf => ?_⟩
    · obtain ⟨hlow, hmin, hmax, -, hend, hpoints⟩ := hf
      refine ⟨_, if_pos ⟨hmin, hmax, hshape.mpr ⟨hlow, hend, hpoints⟩⟩, ?_⟩
      rw [← not_iff_not, not_not, Bool.not_eq_true, p.held_eq_iff]
      simp only [Bool.or_eq_false_iff, capAt_snd, and_assoc]
    · refine if_neg fun ⟨hmin, hmax, hok⟩ => hf ?_
      obtain ⟨hlow, hend, hpoints⟩ := hshape.mp hok
      exact ⟨hlow, hmin, hmax, hs, hend, hpoints⟩
  · simp only [readSegments_of_not_fits h.lengths hs]
    exact ⟨fun ⟨_, _, _, hf, _⟩ => absurd hf hs, fun _ => trivial⟩

theorem DayKind.code_inj {k j : DayKind} : k.code = j.code ↔ k = j := by
  cases k <;> cases j <;> decide

/-- R26, R27: what becomes of a plan's entry. -/
theorem writePlan_spec (s : State) (tr : Fin 4) (k : DayKind) (l : List Byte) :
    let i := tr.val * 4 + k.code
    let x := s.plan.tracks.get tr
    let w := writePlan s i l
    (readPlan l = none → w = .error ⟨.badArg, none⟩) ∧
      ∀ (p : Plan) (c : Bool), readPlan l = some (p, c) →
        let put : State := { s with set.plans := Tab.put factoryPlan s.set.plans i p }
        let closed := s.plan.dayState = .closed
        let own := ¬ closed ∧ x.state = .planned ∧ x.kind = some k
        (closed ∨ (x.state = .planned ∧ x.kind ≠ some k) → w = .ok (put, c)) ∧
          (¬ closed → x.state ≠ .planned → w = .error ⟨.state, none⟩) ∧
          (own → (p.start + x.delay) * 60 ≤ s.clock.secs → w = .error ⟨.state, none⟩) ∧
          (own → s.clock.secs < (p.start + x.delay) * 60 →
            (∀ d : Nat, buildTrack p x.kind x.delay x.early s.clock.secs = .error d → w = .error ⟨.shortfall, some d⟩) ∧
            ∀ y : Track, buildTrack p x.kind x.delay x.early s.clock.secs = .ok y →
              w = .ok (({ put with plan.tracks := s.plan.tracks.set tr y }).recomputeBells tr, c)) := by
  intro i x w
  have hk : k.code < 4 := by cases k <;> decide
  have htrack : fin4? (i / 4) = some tr := by
    have e : i / 4 = tr.val := by simp only [i]; omega
    rw [e, fin4?_val]
  have hcode : i % 4 = k.code := by simp only [i]; omega
  have hkind : x.kind.map DayKind.code = some k.code ↔ x.kind = some k := by
    cases x.kind <;> simp [DayKind.code_inj]
  refine ⟨fun hread => ?_, fun p c hread => ?_⟩
  · simp only [w, writePlan, hread]
    rfl
  · intro put closed own
    have hw : w = if s.dayClosed then .ok (put, c)
        else if x.state ≠ .planned then refusedWith .state
        else if x.kind.map DayKind.code ≠ some k.code then .ok (put, c)
        else if reached (p.start + x.delay) s.clock.secs then refusedWith .state
        else match buildTrack p x.kind x.delay x.early s.clock.secs with
          | .error d => .error ⟨.shortfall, some d⟩
          | .ok y => .ok (({ put with plan.tracks := s.plan.tracks.set tr y }).recomputeBells tr, c) := by
      simp only [w, writePlan, hread, htrack, hcode]
      rfl
    have hclosed : s.dayClosed = true ↔ closed := beq_iff_eq
    have hreached : reached (p.start + x.delay) s.clock.secs = true ↔ (p.start + x.delay) * 60 ≤ s.clock.secs := decide_eq_true_iff
    refine ⟨fun h => ?_, fun hc hx => ?_, fun ⟨hc, hx, hy⟩ hr => ?_, fun ⟨hc, hx, hy⟩ hr => ?_⟩
    · rcases h with hc | ⟨hx, hy⟩
      · rw [hw, if_pos (hclosed.mpr hc)]
      · rw [hw, if_neg (not_not.mpr hx), if_pos (mt hkind.mp hy), ite_self]
    · rw [hw, if_neg (mt hclosed.mp hc), if_pos hx]
      rfl
    · rw [hw, if_neg (mt hclosed.mp hc), if_neg (not_not.mpr hx), if_neg (not_not.mpr (hkind.mpr hy)),
        if_pos (hreached.mpr hr)]
      rfl
    · rw [hw, if_neg (mt hclosed.mp hc), if_neg (not_not.mpr hx), if_neg (not_not.mpr (hkind.mpr hy)),
        if_neg (mt hreached.mp (Nat.not_le.mpr hr))]
      exact ⟨fun d hd => by rw [hd], fun y hy => by rw [hy]⟩

end Sys2Proof.Machine
end

