-- ==== Sys2Proof/Proofs/FrameOfTableWrites.lean ====
section
/-! SUPPORT. A serve pass is pool work, and a table write keeps the request in hand and the cursor. -/

namespace Sys2Proof.Machine

/-! ## A serve pass is pool work -/

namespace State
variable {s t : State}

theorem fillSlot_leaves (s : State) : s.poolLeaves s.fillSlot := by
  unfold State.fillSlot
  split <;> exact s.poolLeaves_refl

theorem joinSlip_leaves (s : State) (x : Slip) : s.poolLeaves (s.joinSlip x).1 := by
  unfold State.joinSlip
  split
  · exact poolLeaves_trans s.poolLeaves_refl (fillSlot_leaves { s with slips := _, desk := _ })
  · exact poolLeaves_trans s.poolLeaves_refl (raise_leaves { s with slips := _, desk := _ } _)

theorem alertUndelivered_leaves (s : State) (p : Nat) (ss : Session) (reason : CallReason) :
    s.poolLeaves (s.alertUndelivered p ss reason) :=
  poolLeaves_trans (poolLeaves_trans (s.modRec_leaves p ss _) (raise_leaves _ _)) (joinSlip_leaves _ _)

theorem storeOut_leaves {cls : MsgClass} {kind : MsgKind} {subj : Subject} {text : Text} {life : Option Nat} {st : Stored}
    (e : s.storeOut cls kind subj text life = some (t, st)) : s.poolLeaves t := by
  dsimp only [State.storeOut] at e
  split at e
  · cases e
  · rename_i s1 st' he
    have added := poolLeaves_trans (allocate_leaves he) (s1.addMessage_leaves cls kind st' text
      (.out ⟨subj, s1.recipients cls subj, ⟨0, false, 0⟩, .queued, life, false⟩))
    split at e
    · have counted := poolLeaves_trans added (countEnd_leaves _ cls EndCounts.addUndelivered)
      split at e <;> cases e
      · exact poolLeaves_trans counted (release_leaves _ _)
      · exact counted
    · cases e
      exact poolLeaves_trans added (enqueue_leaves _ _ _)

theorem tryAlert_leaves {p : Nat} {ss : Session} {st : Stored} (e : s.tryAlert p ss = some (t, st)) : s.poolLeaves t := by
  dsimp only [State.tryAlert] at e
  split at e
  · cases e
  · rename_i he
    cases e
    exact poolLeaves_trans (storeOut_leaves he) (modRec_leaves _ _ _ _)
  · rename_i he
    cases e
    exact poolLeaves_trans (poolLeaves_trans (storeOut_leaves he) (modRec_leaves _ _ _ _)) (alertUndelivered_leaves _ _ _ _)

theorem serveAlerts_leaves (s : State) (l : List Nat) : s.poolLeaves (serveAlerts l s) := by
  induction l generalizing s with
  | nil => exact s.poolLeaves_refl
  | cons k l ih =>
    unfold Machine.serveAlerts
    split
    · exact s.poolLeaves_refl
    · rename_i he
      exact poolLeaves_trans (tryAlert_leaves he) (ih _)

theorem serveWaits_leaves (s : State) (fuel : Nat) : s.poolLeaves (serveWaits fuel s) := by
  induction fuel generalizing s with
  | zero => exact s.poolLeaves_refl
  | succ fuel ih =>
    unfold Machine.serveWaits
    split
    · exact s.poolLeaves_refl
    · split
      · exact s.poolLeaves_refl
      · rename_i t st he
        have stored : s.poolLeaves t := storeOut_leaves he
        refine poolLeaves_trans stored (poolLeaves_trans ?_ (ih _))
        exact t.poolLeaves_refl

theorem servePass_leaves (s : State) : s.poolLeaves s.servePass := poolLeaves_trans (s.serveAlerts_leaves _) (serveWaits_leaves _ _)

/-! ## A table write keeps the request in hand and the cursor -/

/-- The request in hand and the table cursor are the same. -/
def sameHand (s t : State) : Prop := t.link.hand = s.link.hand ∧ t.link.cursor = s.link.cursor

theorem sameHand_of_poolLeaves (h : s.poolLeaves t) : s.sameHand t := by
  obtain ⟨-, -, -, -, -, hlink, -⟩ := h
  exact ⟨(congrArg HostLink.hand hlink :), (congrArg HostLink.cursor hlink :)⟩

theorem takeOptions_sameHand (s : State) (o : Options) : s.sameHand (s.takeOptions o) := by
  dsimp only [State.takeOptions]
  split
  · have served := sameHand_of_poolLeaves
      (servePass_leaves { s with set.options := o, pool.credits := s.freeCredits o.credits })
    exact served
  · exact ⟨rfl, rfl⟩

theorem storePlan_sameHand (s : State) (i : Nat) (p : Plan) (x : Option (Fin 4 × Track)) : s.sameHand (s.storePlan i p x) := by
  cases x <;> exact ⟨rfl, rfl⟩

theorem writeEntry_sameHand {n : TableName} {i : Nat} {l : List Byte} {c : Bool} (e : writeEntry n s i l = .ok (t, c)) : s.sameHand t := by
  cases n <;>
    dsimp only [writeEntry, writePupil, writeContact, writeGroup, writePlan, writeZone, writeStation, writeTemplate, writeLamp,
      writeOptions] at e
  case plans =>
    repeat' split at e
    all_goals cases e
    all_goals exact s.storePlan_sameHand _ _ _
  case options =>
    repeat' split at e
    all_goals cases e
    exact s.takeOptions_sameHand _
  all_goals -- the other tables write no more than their settings and their line or lamp
    repeat' split at e
    all_goals cases e
    exact ⟨rfl, rfl⟩

end State

end Sys2Proof.Machine
end

