-- ==== Sys2Proof/Proofs/EntriesInOrder.lean ====
section
/-! SUPPORT. TABLE WRITE takes its entries in order at the cursor (R200). -/

namespace Sys2Proof.Machine

/-! ## The entries are taken in order at the cursor (R200) -/

/-- The cursor's next index after an accepted entry. -/
def TableCursor.next (c : TableCursor) : Nat := if c.mode = .still then c.index else min (c.index + 1) c.table.last

/-- The cursor moved to an index. -/
def State.moved (x : State) (c : TableCursor) (j : Nat) : State := { x with link.cursor := { c with index := j } }

theorem State.moved_self {x : State} {c : TableCursor} (h : x.link.cursor = c) : x.moved c c.index = x := by
  subst h
  rfl

section
variable {x y : State} {done : List Bool} {e : List Byte} {l : List (List Byte)} {c : TableCursor}

theorem writeEntries_refused {r : Refused} (h : writeEntry x.link.cursor.table x x.link.cursor.index e = .error r) :
    x.writeEntries done (e :: l) = (x, ⟨done, some r, false⟩) := by
  simp only [State.writeEntries, h]

variable {clamped : Bool} (h : writeEntry x.link.cursor.table x x.link.cursor.index e = .ok (y, clamped))
include h

theorem writeEntries_still (hm : x.link.cursor.mode = .still) :
    x.writeEntries done (e :: l) = y.writeEntries (done ++ [clamped]) l := by
  simp only [State.writeEntries, h, hm]

theorem writeEntries_last (hm : x.link.cursor.mode ≠ .still) (hi : x.link.cursor.index = x.link.cursor.table.last) :
    x.writeEntries done (e :: l) = (y, ⟨done ++ [clamped], none, !l.isEmpty⟩) := by
  rw [State.writeEntries, h]
  dsimp only
  split
  · exact absurd ‹_› hm
  · rw [if_pos hi]

theorem writeEntries_advance (hm : x.link.cursor.mode ≠ .still) (hi : x.link.cursor.index ≠ x.link.cursor.table.last) :
    x.writeEntries done (e :: l) =
      State.writeEntries { y with link.cursor := x.link.cursor.advance 1 } (done ++ [clamped]) l := by
  rw [State.writeEntries, h]
  dsimp only
  split
  · exact absurd ‹_› hm
  · rw [if_neg hi]

end

/-- An accepted entry that is not taken at the table's end lets the next one be taken at the next index. -/
theorem writeEntries_goes_on {x y : State} {c : TableCursor} {done : List Bool} {e : List Byte} {clamped : Bool}
    (hc : x.link.cursor = c) (h : writeEntry c.table x c.index e = .ok (y, clamped)) (hi : c.mode = .still ∨ c.index ≠ c.table.last)
    (l : List (List Byte)) : x.writeEntries done (e :: l) = (y.moved c c.next).writeEntries (done ++ [clamped]) l := by
  subst hc
  by_cases hm : x.link.cursor.mode = .still
  · have hy := (State.writeEntry_sameHand h).2
    rw [writeEntries_still h hm, TableCursor.next, if_pos hm, State.moved_self hy]
  · rw [writeEntries_advance h hm (hi.resolve_left hm), TableCursor.next, if_neg hm]
    rfl

/-- One accepted entry moves the cursor to the next index, which at the table's end is the same. -/
theorem writeEntries_single {x y : State} {c : TableCursor} {done : List Bool} {e : List Byte} {clamped : Bool}
    (hc : x.link.cursor = c) (h : writeEntry c.table x c.index e = .ok (y, clamped)) :
    x.writeEntries done [e] = (y.moved c c.next, ⟨done ++ [clamped], none, false⟩) := by
  by_cases hi : c.mode = .still ∨ c.index ≠ c.table.last
  · exact writeEntries_goes_on hc h hi []
  · obtain ⟨hm, hi⟩ := not_or.mp hi
    rw [not_not] at hi
    have hnext : c.next = c.index := by rw [TableCursor.next, if_neg hm]; omega
    subst hc
    rw [hnext, State.moved_self (State.writeEntry_sameHand h).2]
    exact writeEntries_last h hm hi

theorem writeEntries_hand (x : State) (done : List Bool) (l : List (List Byte)) :
    (x.writeEntries done l).1.link.hand = x.link.hand := by
  induction l generalizing x done with
  | nil => rfl
  | cons e l ih =>
    dsimp only [State.writeEntries]
    split
    · rfl
    · rename_i y c h
      have kept := (State.writeEntry_sameHand h).1
      split
      · exact (ih y _).trans kept
      · split
        · exact kept
        · exact (ih _ _).trans kept

/-! ## TABLE WRITE (R200) -/

theorem length_of_splitEntries {t : TableName} {n : Nat} {l : List Byte} {es : List (List Byte)} (h : splitEntries t n l = some es) :
    es.length = n := by
  induction n generalizing l es with
  | zero =>
    cases l <;> cases h
    rfl
  | succ n ih =>
    simp only [splitEntries, Option.ite_none_left_eq_some, Option.map_eq_some_iff] at h
    obtain ⟨-, es', h, rfl⟩ := h
    exact congrArg Nat.succ (ih h)

/-- R200: the body is a count and that many entries of the table, as many as one request may carry. -/
def TableName.fills (t : TableName) (body : List Byte) (l : List (List Byte)) : Prop :=
  ∃ rest : List Byte, body = b1 l.length ++ rest ∧ 1 ≤ l.length ∧ l.length ≤ t.perRequest ∧ splitEntries t l.length rest = some l

theorem State.saving_iff (s : State) : s.saving = true ↔ ∃ (ph : SavePhase) (n : Nat), s.store.job = .save ph n := by
  unfold State.saving
  split
  · rename_i ph n h
    exact ⟨fun _ => ⟨ph, n, h⟩, fun _ => rfl⟩
  · rename_i h
    exact ⟨nofun, fun ⟨ph, n, e⟩ => absurd e (h ph n)⟩

theorem TableName.perRequest_lt (t : TableName) : t.perRequest < 256 := by cases t <;> decide

section
variable {s : State} {body : List Byte} {l : List (List Byte)}

theorem reqTableWrite_of_fills (h : s.link.cursor.table.fills body l) :
    reqTableWrite body s =
      if s.saving then s.refuse .busy
      else ((s.writeEntries [] l).1, ⟨(s.writeEntries [] l).2.code, (s.writeEntries [] l).2.bytes (s.writeEntries [] l).1.link.cursor⟩) := by
  obtain ⟨rest, rfl, hlow, htop, hsplit⟩ := h
  have hcount : (BitVec.ofNat 8 l.length).toNat = l.length :=
    toNat_ofNat_byte (htop.trans_lt s.link.cursor.table.perRequest_lt)
  have hne : ¬ ((l.isEmpty || decide (s.link.cursor.table.perRequest < l.length)) = true) := by
    simp only [Bool.or_eq_true, List.isEmpty_iff_length_eq_zero, decide_eq_true_eq]
    omega
  simp only [reqTableWrite, b1, List.cons_append, List.nil_append, hcount, hsplit]
  exact if_neg hne

theorem reqTableWrite_of_not_fills (h : ∀ l : List (List Byte), ¬ s.link.cursor.table.fills body l) :
    reqTableWrite body s = s.refuse .badArg := by
  unfold reqTableWrite
  split
  · rfl
  · rename_i k rest
    dsimp only
    split
    · rfl
    · rename_i es hsplit
      refine if_pos ?_
      by_contra hne
      simp only [Bool.or_eq_true, List.isEmpty_iff_length_eq_zero, decide_eq_true_eq, not_or] at hne
      have hlen := length_of_splitEntries hsplit
      refine h es ⟨rest, ?_, by omega, by omega, hlen ▸ hsplit⟩
      rw [hlen, b1, BitVec.ofNat_toNat, BitVec.setWidth_eq]
      rfl

variable {tag : Nat}

theorem tableWrite_refuses {code : Code} (h : s.ready) (e : reqTableWrite body (s.inHand 0x0A tag) = (s.inHand 0x0A tag).refuse code) :
    Refuses (.tableWrite tag body) s 0x0A tag code :=
  answers_of_handle h rfl rfl (by decide) (congrArg answered e) rfl

/-- R200: the answer to a TABLE WRITE that is carried out. -/
theorem tableWrite_answers {x : State} {r : WriteResult} (h : s.ready) (hf : s.link.cursor.table.fills body l) (hs : ¬ s.saving = true)
    (e : (s.inHand 0x0A tag).writeEntries [] l = (x, r)) :
    Answers (.tableWrite tag body) s 0x0A tag (fun _ => x) r.code (r.bytes x.link.cursor) := by
  have hreq : reqTableWrite body (s.inHand 0x0A tag) = (x, ⟨r.code, r.bytes x.link.cursor⟩) := by
    rw [reqTableWrite_of_fills (s := s.inHand 0x0A tag) hf, if_neg (show ¬ (s.inHand 0x0A tag).saving = true from hs), e]
  refine answers_of_handle h rfl rfl (by decide) (congrArg answered hreq) ?_
  exact (congrArg (fun p => p.1.link.hand) e).symm.trans (writeEntries_hand _ _ _)

end

end Sys2Proof.Machine
end

