-- ==== Sys2Proof/Proofs/TableWrites.lean ====
section
/-! SUPPORT. The answers to TABLE WRITE, and the statement about it. -/

namespace Sys2Proof.Machine

/-! ## The reply's parts (R200, R211) -/

/-- The outcome of an accepted entry. -/
def itemByte (clamped : Bool) : List Byte := b1 (if clamped then 2 else 0)

/-- The result code of entries all accepted. -/
def clampCode (clamped : Bool) : Code := if clamped then .clamped else .ok

/-- What stands for the refused entry: its code and deficit, or nothing. -/
def refusedBytes : Option Refused → List Byte
  | some r => b1 1 ++ b1 r.code.byte ++ bOpt 2 b2 r.deficit
  | none => b1 0 ++ b4 0

theorem WriteResult.code_of_taken (done : List Bool) : WriteResult.code ⟨done, none, false⟩ = clampCode (decide (true ∈ done)) := by
  have hany : done.any id = decide (true ∈ done) := by
    rw [Bool.eq_iff_iff, List.any_eq_true, decide_eq_true_iff]
    exact ⟨fun ⟨b, hb, e⟩ => (show b = true from e) ▸ hb, fun h => ⟨true, h, rfl⟩⟩
  simp only [WriteResult.code, hany, clampCode, Bool.false_eq_true, if_false]

theorem WriteResult.bytes_eq (r : WriteResult) (c : TableCursor) :
    r.bytes c = b1 r.accepted.length ++ r.accepted.flatMap itemByte ++ refusedBytes r.refused ++ c.bytes := by
  have hitem : (fun clamped : Bool => b1 (if clamped then Code.clamped.byte else Code.ok.byte)) = itemByte := rfl
  rw [WriteResult.bytes, bList, hitem]
  cases r.refused <;> rfl

section
variable {s : State} {tag : Nat} {c : TableCursor} {body e f : List Byte} (h : s.ready) (hc : s.link.cursor = c) (hs : ¬ s.saving = true)
include h hc hs

/-- R200: a request that carries one entry. -/
theorem tableWrite_single (hf : c.table.fills body [e]) :
    let u := s.inHand 0x0A tag
    (∀ r : Refused, writeEntry c.table u c.index e = .error r →
      Answers (.tableWrite tag body) s 0x0A tag id r.code (b1 0 ++ refusedBytes (some r) ++ c.bytes)) ∧
      (∀ (x : State) (k : Bool), writeEntry c.table u c.index e = .ok (x, k) →
        Answers (.tableWrite tag body) s 0x0A tag (fun _ => x.moved c c.next) (clampCode k)
          (b1 1 ++ itemByte k ++ refusedBytes none ++ { c with index := c.next }.bytes)) := by
  subst hc
  intro u
  refine ⟨fun r hr => ?_, fun x k hk => ?_⟩
  · exact tableWrite_answers h hf hs (writeEntries_refused (x := u) hr)
  · have taken := tableWrite_answers h hf hs (writeEntries_single (x := u) rfl hk)
    rw [WriteResult.bytes_eq, WriteResult.code_of_taken] at taken
    cases k <;> exact taken

/-- R200: a request that carries two entries. -/
theorem tableWrite_pair (hf : c.table.fills body [e, f]) :
    let u := s.inHand 0x0A tag
    let j := c.next
    (∀ r : Refused, writeEntry c.table u c.index e = .error r →
      Answers (.tableWrite tag body) s 0x0A tag id r.code (b1 0 ++ refusedBytes (some r) ++ c.bytes)) ∧
      (∀ (x : State) (k : Bool), writeEntry c.table u c.index e = .ok (x, k) → c.mode ≠ .still → c.index = c.table.last →
        Answers (.tableWrite tag body) s 0x0A tag (fun _ => x.moved c c.index) .badArg
          (b1 1 ++ itemByte k ++ refusedBytes none ++ c.bytes)) ∧
      (∀ (x : State) (k : Bool), writeEntry c.table u c.index e = .ok (x, k) → c.mode = .still ∨ c.index < c.table.last →
        (∀ r : Refused, writeEntry c.table (x.moved c j) j f = .error r →
          Answers (.tableWrite tag body) s 0x0A tag (fun _ => x.moved c j) r.code
            (b1 1 ++ itemByte k ++ refusedBytes (some r) ++ { c with index := j }.bytes)) ∧
        ∀ (y : State) (d : Bool), writeEntry c.table (x.moved c j) j f = .ok (y, d) →
          let next := { c with index := j }.next
          Answers (.tableWrite tag body) s 0x0A tag (fun _ => y.moved c next) (clampCode (k || d))
            (b1 2 ++ itemByte k ++ itemByte d ++ refusedBytes none ++ { c with index := next }.bytes)) := by
  subst hc
  intro u j
  refine ⟨fun r hr => ?_, fun x k hk hm hi => ?_, fun x k hk hi => ?_⟩
  · exact tableWrite_answers h hf hs (writeEntries_refused (x := u) hr)
  · have hx : x.link.cursor = u.link.cursor := (State.writeEntry_sameHand hk).2
    have ended := tableWrite_answers h hf hs (writeEntries_last (x := u) (done := []) (l := [f]) hk hm hi)
    rw [hx, WriteResult.bytes_eq, ← State.moved_self hx] at ended
    cases k <;> exact ended
  · have first (done : List Bool) := writeEntries_goes_on (x := u) (done := done) rfl hk (hi.imp_right ne_of_lt) [f]
    refine ⟨fun r hr => ?_, fun y d hd => ?_⟩
    · have refused := tableWrite_answers h hf hs ((first []).trans (writeEntries_refused (x := x.moved u.link.cursor j) hr))
      rw [WriteResult.bytes_eq] at refused
      cases k <;> exact refused
    · have taken := tableWrite_answers h hf hs ((first []).trans (writeEntries_single (x := x.moved u.link.cursor j) rfl hd))
      rw [WriteResult.bytes_eq, WriteResult.code_of_taken] at taken
      cases k <;> cases d <;> exact taken

end

/-- The result code of a write: the refused entry's, BAD_ARG for one left untaken, CLAMPED, or OK. -/
theorem WriteResult.code_eq (r : WriteResult) :
    r.code = match r.refused with
      | some x => x.code
      | none => if r.untaken then .badArg else clampCode (decide (true ∈ r.accepted)) := by
  rcases r with ⟨done, - | r, - | -⟩
  · exact WriteResult.code_of_taken done
  · rfl
  · rfl
  · rfl

/-- R200: how the entries of a request are taken, from the first on. -/
theorem writeEntries_spec (x : State) (c : TableCursor) (done : List Bool) (e : List Byte) (l : List (List Byte))
    (hc : x.link.cursor = c) :
    let w := writeEntry c.table x c.index e
    let result := x.writeEntries done (e :: l)
    (∀ r : Refused, w = .error r → result = (x, ⟨done, some r, false⟩)) ∧
      ∀ (y : State) (k : Bool), w = .ok (y, k) →
        (c.mode = .still → result = y.writeEntries (done ++ [k]) l) ∧
          (c.mode ≠ .still → c.index = c.table.last → result = (y, ⟨done ++ [k], none, decide (l ≠ [])⟩)) ∧
          (c.mode ≠ .still → c.index ≠ c.table.last →
            result = State.writeEntries { y with link.cursor := c.advance 1 } (done ++ [k]) l) := by
  subst hc
  intro w result
  refine ⟨fun r hr => writeEntries_refused hr, fun y k hk => ⟨writeEntries_still hk, fun hm hi => ?_, writeEntries_advance hk⟩⟩
  have huntaken : decide (l ≠ []) = !l.isEmpty := by cases l <;> rfl
  rw [huntaken]
  exact writeEntries_last hk hm hi

/-- R200: TABLE WRITE of any number of entries. -/
theorem tableWrite_spec (s : State) (tag : Nat) (t : TableName) (i : Nat) (mode : StepMode) (h : s.ready)
    (hc : s.link.cursor = ⟨t, i, mode⟩) :
    let u := s.inHand 0x0A tag
    (∀ body : List Byte, (∀ l : List (List Byte), ¬ t.fills body l) → Refuses (.tableWrite tag body) s 0x0A tag .badArg) ∧
      (∀ (body : List Byte) (l : List (List Byte)), t.fills body l → s.saving = true →
        Refuses (.tableWrite tag body) s 0x0A tag .busy) ∧
      ∀ (body : List Byte) (l : List (List Byte)), t.fills body l → ¬ s.saving = true →
        let r := u.writeEntries [] l
        Answers (.tableWrite tag body) s 0x0A tag (fun _ => r.1) r.2.code (r.2.bytes r.1.link.cursor) := by
  have ht : s.link.cursor.table = t := congrArg TableCursor.table hc
  subst ht
  intro u
  refine ⟨fun body hf => ?_, fun body l hf hs => ?_, fun body l hf hs => tableWrite_answers h hf hs rfl⟩
  · exact tableWrite_refuses h (reqTableWrite_of_not_fills (s := u) hf)
  · exact tableWrite_refuses h ((reqTableWrite_of_fills (s := u) hf).trans (if_pos hs))

/-- Settles O18: TABLE WRITE takes its entries in order at the cursor, and each table's entry is judged by what its bytes spell. -/
theorem tableWritesOfTheOtherTables : Obligations.TableWritesOfTheOtherTables := by
  unfold Obligations.TableWritesOfTheOtherTables
  refine ⟨?_, fun _ _ => rfl, ?_, writePupil_spec, writeContact_spec, ?_, writePlan_spec, writeZone_spec, writeStation_spec,
    Station.rewrite_spec, writeTemplate_spec, writeLamp_spec, writeOptions_spec⟩
  · intro s tag t i mode h hc _ _ last next cursor moved whole broken item code u saving fills
    obtain ⟨hbad, hbusy, hany⟩ := tableWrite_spec s tag t i mode h hc
    have hsaving : s.saving = true ↔ saving := s.saving_iff
    refine ⟨fun body _ => hbad body, fun body l hf hs => hbusy body l hf (hsaving.mpr hs), fun body e hf hs => ?_,
      fun body e f hf hs => ?_, fun body l hf hs => ?_⟩
    · exact tableWrite_single h hc (mt hsaving.mp hs) hf
    · exact tableWrite_pair h hc (mt hsaving.mp hs) hf
    · have answer := hany body l hf (mt hsaving.mp hs)
      dsimp only at answer
      rw [WriteResult.code_eq, WriteResult.bytes_eq, TableCursor.bytes, ← List.append_assoc, ← List.append_assoc] at answer
      exact answer
  · exact fun x t i mode done e l hc => writeEntries_spec x ⟨t, i, mode⟩ done e l hc
  · exact fun p hstart hcount hlengths hgrace hkAm hkPm hallow hwarn =>
      readPlan_bytes ⟨hstart, hcount, hlengths, hgrace, hkAm, hkPm, hallow, hwarn⟩

end Sys2Proof.Machine
end

