-- ==== Sys2Proof/Proofs/Compression.lean ====
section
/-! SUPPORT. Compression (R34, R35): the floors, the remainders in order of size, and what is cut from each segment. -/

namespace Sys2Proof.Machine

/-! ## Ranks in a finite order -/

/-- In a finite set of a linear order, those with fewer than `k` above them are the `k` greatest. -/
theorem card_filter_rank_lt {α : Type} [LinearOrder α] (k : Nat) (S : Finset α) :
    (S.filter fun x => (S.filter (x < ·)).card < k).card = min k S.card := by
  induction S using Finset.induction_on_min with
  | empty => simp
  | insert a S ha ih =>
    have hna : a ∉ S := fun h => lt_irrefl a (ha a h)
    have habove : ∀ x ∈ S, (insert a S).filter (x < ·) = S.filter (x < ·) := fun x hx => by
      rw [Finset.filter_insert, if_neg (ha x hx).asymm]
    have hall : (insert a S).filter (a < ·) = S := by
      rw [Finset.filter_insert, if_neg (lt_irrefl a), Finset.filter_true_of_mem ha]
    have hrest : (S.filter fun x => ((insert a S).filter (x < ·)).card < k) = S.filter fun x => (S.filter (x < ·)).card < k :=
      Finset.filter_congr fun x hx => by rw [habove x hx]
    rw [Finset.filter_insert, hall, hrest, Finset.card_insert_of_notMem hna]
    split
    · rw [Finset.card_insert_of_notMem (fun h => hna (Finset.mem_filter.mp h).1), ih]
      omega
    · rw [ih]
      omega

/-! ## The rank of a remainder -/

/-- The remainders with their places, in the order in which a further minute is given: the greatest first. -/
def remainders (rems : List Nat) : Finset (Nat ×ₗ Nat) := (rems.zipIdx.map toLex).toFinset

theorem nodup_zipIdx (l : List Nat) : l.zipIdx.Nodup :=
  List.Nodup.of_map Prod.snd (by rw [List.zipIdx_map_snd]; exact List.nodup_range')

theorem nodup_zipIdx_toLex (l : List Nat) : (l.zipIdx.map toLex).Nodup := (nodup_zipIdx l).map toLex.injective

theorem card_remainders (rems : List Nat) : (remainders rems).card = rems.length := by
  rw [remainders, List.toFinset_card_of_nodup (nodup_zipIdx_toLex rems)]
  simp

/-- What is counted among the remainders with their places is counted in the list. -/
theorem card_filter_remainders (rems : List Nat) (p : Nat × Nat → Bool) :
    ((remainders rems).filter fun x => p (ofLex x) = true).card = rems.zipIdx.countP p := by
  rw [remainders, ← List.toFinset_filter, List.toFinset_card_of_nodup ((nodup_zipIdx_toLex rems).filter _),
    ← List.countP_eq_length_filter, List.countP_map]
  rfl

theorem rankOf_eq (rems : List Nat) (r i : Nat) :
    rankOf rems r i = ((remainders rems).filter (toLex (r, i) < ·)).card := by
  have h : ∀ e : Nat × Nat, (decide (e.1 > r) || (e.1 == r && decide (e.2 > i))) = decide (toLex (r, i) < toLex e) := fun e => by
    rw [Bool.eq_iff_iff]
    simp only [Bool.or_eq_true, Bool.and_eq_true, decide_eq_true_eq, beq_iff_eq, Prod.Lex.toLex_lt_toLex]
    grind
  rw [rankOf, ← List.countP_eq_length_filter, ← card_filter_remainders]
  congr 1
  refine Finset.filter_congr fun x _ => ?_
  rw [h]
  exact decide_eq_true_iff


/-! ## The cuts (R34) -/

/-- A segment takes one minute more than its floor when its remainder is among the greatest. -/
def oneMore (total : Nat) (slacks : List Nat) (x i : Nat) : Bool :=
  decide (0 < total * x % slacks.sum) &&
    decide (rankOf (slacks.map fun y => total * y % slacks.sum) (total * x % slacks.sum) i <
      total - (slacks.map fun y => total * y / slacks.sum).sum)

theorem cuts_eq (total : Nat) (slacks : List Nat) :
    cuts total slacks =
      slacks.zipIdx.map fun e => total * e.1 / slacks.sum + if oneMore total slacks e.1 e.2 then 1 else 0 := by
  refine List.ext_getElem (by simp [cuts]) fun i h1 h2 => ?_
  simp only [cuts, oneMore, List.getElem_map, List.getElem_zip, List.getElem_zipIdx, Nat.zero_add]
  split <;> simp_all

theorem length_cuts (total : Nat) (slacks : List Nat) : (cuts total slacks).length = slacks.length := by simp [cuts_eq]

theorem getElem_cuts (total : Nat) (slacks : List Nat) (i : Nat) (h : i < (cuts total slacks).length) :
    (cuts total slacks)[i] = total * slacks[i]'(by rwa [length_cuts] at h) / slacks.sum +
      if oneMore total slacks (slacks[i]'(by rwa [length_cuts] at h)) i then 1 else 0 := by
  simp [cuts_eq]

/-- What the floors leave of the total, times the sum, is what the remainders sum to. -/
theorem sum_floors_remainders (total s : Nat) (l : List Nat) :
    s * (l.map fun x => total * x / s).sum + (l.map fun x => total * x % s).sum = total * l.sum := by
  induction l with
  | nil => simp
  | cons x l ih =>
    have := Nat.div_add_mod (total * x) s
    simp only [List.map_cons, List.sum_cons, Nat.mul_add]
    omega

theorem sum_le_mul_countP (s : Nat) (l : List Nat) (h : ∀ r ∈ l, r ≤ s) : l.sum ≤ s * l.countP fun r => decide (0 < r) := by
  induction l with
  | nil => simp
  | cons r l ih =>
    have hr := h r (by simp)
    have ih := ih fun x hx => h x (by simp [hx])
    rw [List.sum_cons, List.countP_cons]
    rcases Nat.eq_zero_or_pos r with h0 | h0
    · simpa [h0] using ih
    · simp only [h0, decide_true, if_true, Nat.mul_add]
      omega

/-- The minutes that the floors leave are no more than the remainders above 0. -/
theorem rest_le_countP {total : Nat} {slacks : List Nat} (h : total ≤ slacks.sum) :
    total - (slacks.map fun x => total * x / slacks.sum).sum ≤
      (slacks.map fun x => total * x % slacks.sum).countP fun r => decide (0 < r) := by
  rcases Nat.eq_zero_or_pos slacks.sum with h0 | hpos
  · omega
  · have hsum := sum_floors_remainders total slacks.sum slacks
    have hle := sum_le_mul_countP slacks.sum (slacks.map fun x => total * x % slacks.sum) fun r hr => by
      obtain ⟨x, -, rfl⟩ := List.mem_map.mp hr
      exact (Nat.mod_lt _ hpos).le
    refine Nat.le_of_mul_le_mul_left ?_ hpos
    rw [Nat.mul_sub, Nat.mul_comm slacks.sum total]
    omega

/-- Before a remainder of 0 stand all the remainders above 0. -/
theorem countP_pos_le_rankOf (rems : List Nat) (i : Nat) : rems.countP (fun r => decide (0 < r)) ≤ rankOf rems 0 i := by
  have h : rems.countP (fun r => decide (0 < r)) = rems.zipIdx.countP fun e => decide (0 < e.1) := by
    conv_lhs => rw [← List.zipIdx_map_fst 0 rems, List.countP_map]
    rfl
  rw [h, rankOf, ← List.countP_eq_length_filter]
  refine List.countP_mono_left fun e _ he => ?_
  simp only [decide_eq_true_eq] at he
  simp [he]

/-- As many segments take one minute more as the floors leave minutes over. -/
theorem countP_oneMore {total : Nat} {slacks : List Nat} (h : total ≤ slacks.sum) :
    slacks.zipIdx.countP (fun e => oneMore total slacks e.1 e.2) =
      total - (slacks.map fun x => total * x / slacks.sum).sum := by
  set rems := slacks.map fun x => total * x % slacks.sum with hrems
  set rest := total - (slacks.map fun x => total * x / slacks.sum).sum with hrest
  have hpos : rest ≤ rems.countP fun r => decide (0 < r) := rest_le_countP h
  have hrank : slacks.zipIdx.countP (fun e => oneMore total slacks e.1 e.2) =
      rems.zipIdx.countP fun e => decide (rankOf rems e.1 e.2 < rest) := by
    rw [hrems, List.zipIdx_map, List.countP_map]
    refine List.countP_congr fun e _ => ?_
    simp only [oneMore, Bool.and_eq_true, decide_eq_true_eq, Function.comp_apply, Prod.map_fst, Prod.map_snd, id_eq,
      ← hrems, ← hrest, and_iff_right_iff_imp]
    intro hlt
    rcases Nat.eq_zero_or_pos (total * e.1 % slacks.sum) with h0 | h0
    · rw [h0] at hlt
      have := countP_pos_le_rankOf rems e.2
      omega
    · exact h0
  have hcount := card_filter_rank_lt rest (remainders rems)
  rw [card_remainders] at hcount
  have hlen := (rems.countP_le_length (p := fun r => decide (0 < r)))
  rw [hrank, ← card_filter_remainders]
  simp only [decide_eq_true_eq, rankOf_eq, Prod.mk.eta, toLex_ofLex]
  omega

theorem sum_map_ite {α : Type} (p : α → Bool) (l : List α) : (l.map fun e => if p e then 1 else 0).sum = l.countP p := by
  induction l with
  | nil => rfl
  | cons e l ih => rw [List.map_cons, List.sum_cons, List.countP_cons, ih, Nat.add_comm]

theorem sum_cuts {total : Nat} {slacks : List Nat} (h : total ≤ slacks.sum) : (cuts total slacks).sum = total := by
  have hfloors : (slacks.map fun x => total * x / slacks.sum).sum ≤ total := by
    rcases Nat.eq_zero_or_pos slacks.sum with h0 | hpos
    · simp [h0]
    · have := sum_floors_remainders total slacks.sum slacks
      exact Nat.le_of_mul_le_mul_left (by rw [Nat.mul_comm slacks.sum total]; omega) hpos
  have hsplit : (slacks.zipIdx.map fun e => total * e.1 / slacks.sum).sum =
      (slacks.map fun x => total * x / slacks.sum).sum := by
    rw [← Function.comp_def (fun x => total * x / slacks.sum) Prod.fst, ← List.map_map, List.zipIdx_map_fst]
  rw [cuts_eq, List.sum_map_add, hsplit, sum_map_ite (fun e : Nat × Nat => oneMore total slacks e.1 e.2), countP_oneMore h]
  omega

/-- No segment is cut by more than its slack. -/
theorem cut_le_slack {total : Nat} {slacks : List Nat} (h : total ≤ slacks.sum) (x i : Nat) :
    (total * x / slacks.sum + if oneMore total slacks x i then 1 else 0) ≤ x := by
  have hmul : total * x ≤ slacks.sum * x := Nat.mul_le_mul_right x h
  split
  · rename_i hm
    simp only [oneMore, Bool.and_eq_true, decide_eq_true_eq] at hm
    have hdiv := Nat.div_add_mod (total * x) slacks.sum
    refine Nat.lt_of_mul_lt_mul_left (a := slacks.sum) ?_
    omega
  · exact Nat.div_le_of_le_mul hmul

/-- A segment that takes no minute more, where another takes one, has a smaller remainder, or the same and an earlier place. -/
theorem oneMore_greatest {total : Nat} {slacks : List Nat} {x y i j : Nat} (hx : oneMore total slacks x i = true)
    (hy : oneMore total slacks y j ≠ true) :
    total * y % slacks.sum < total * x % slacks.sum ∨ (total * y % slacks.sum = total * x % slacks.sum ∧ j < i) := by
  simp only [oneMore, ne_eq, Bool.and_eq_true, decide_eq_true_eq] at hx hy
  obtain ⟨hpos, hrank⟩ := hx
  by_contra hno
  have hle : toLex (total * x % slacks.sum, i) ≤ toLex (total * y % slacks.sum, j) := by
    rw [Prod.Lex.toLex_le_toLex]
    simp only
    omega
  have hmono : rankOf (slacks.map fun z => total * z % slacks.sum) (total * y % slacks.sum) j ≤
      rankOf (slacks.map fun z => total * z % slacks.sum) (total * x % slacks.sum) i := by
    rw [rankOf_eq, rankOf_eq]
    exact Finset.card_le_card fun z hz =>
      Finset.mem_filter.mpr ⟨(Finset.mem_filter.mp hz).1, hle.trans_lt (Finset.mem_filter.mp hz).2⟩
  exact hy ⟨by omega, by omega⟩

/-! ## Compression (R34, R35) -/

theorem compress_of_le {total : Nat} {elig : SegIF → Bool} {segs : List SegIF} {slacks : List Nat}
    (hs : segs.map (fun g => slackOf (elig g) g.len g.seg) = slacks) (h : total ≤ slacks.sum) :
    compress total elig segs = .ok ((segs.zip (cuts total slacks)).map fun e => { e.1 with len := e.1.len - e.2 }) := by
  subst hs
  exact if_pos h

theorem compress_of_lt {total : Nat} {elig : SegIF → Bool} {segs : List SegIF} {slacks : List Nat}
    (hs : segs.map (fun g => slackOf (elig g) g.len g.seg) = slacks) (h : slacks.sum < total) :
    compress total elig segs = .error (total - slacks.sum) := by
  subst hs
  exact if_neg (by omega)

theorem sum_len_cut {segs : List SegIF} {l : List Nat} (hlen : l.length = segs.length)
    (hle : ∀ e ∈ segs.zip l, e.2 ≤ e.1.len) :
    (((segs.zip l).map fun e => { e.1 with len := e.1.len - e.2 }).map (·.len)).sum + l.sum = (segs.map (·.len)).sum := by
  induction segs generalizing l with
  | nil =>
    obtain rfl := List.length_eq_zero_iff.mp hlen
    rfl
  | cons g segs ih =>
    cases l with
    | nil => simp at hlen
    | cons k l =>
      have hk : k ≤ g.len := hle (g, k) (by simp)
      have ih := ih (l := l) (by simpa using hlen) fun e he => hle e (by simp [he])
      simp only [List.zip_cons_cons, List.map_cons, List.sum_cons] at ih ⊢
      omega

/-- The segment at a place after a compression: cut by its floor, or by one minute more. -/
theorem getElem?_compress {total : Nat} {segs : List SegIF} {slacks : List Nat} (hlen : slacks.length = segs.length) {i : Nat}
    {g c : SegIF} (hg : segs[i]? = some g)
    (hc : ((segs.zip (cuts total slacks)).map fun e => { e.1 with len := e.1.len - e.2 })[i]? = some c) :
    ∃ x : Nat, slacks[i]? = some x ∧
      c = { g with len := g.len - (total * x / slacks.sum + if oneMore total slacks x i then 1 else 0) } := by
  obtain ⟨hi, rfl⟩ := List.getElem?_eq_some_iff.mp hg
  obtain ⟨hi', rfl⟩ := List.getElem?_eq_some_iff.mp hc
  exact ⟨slacks[i], List.getElem?_eq_getElem _, by simp [getElem_cuts]⟩

/-- Settles O22: each segment is cut by the floor of its share, and the greatest remainders by one more. -/
theorem compressionCutsInProportion : Obligations.CompressionCutsInProportion := by
  intro total elig segs hmin slack sum
  obtain ⟨slacks, hs⟩ : ∃ l : List Nat, segs.map slack = l := ⟨_, rfl⟩
  have hsum : sum = slacks.sum := congrArg List.sum hs
  clear_value sum
  subst hsum
  have hlen : slacks.length = segs.length := by simp [← hs]
  have hslack : ∀ g ∈ segs, slack g ≤ g.len ∧ (elig g = true → slack g + g.seg.minimum = g.len) ∧ (elig g = false → slack g = 0) :=
    fun g hg => by
      have := hmin g hg
      simp only [slack]
      split <;> simp_all
  refine ⟨fun h => compress_of_lt hs h, fun h => ⟨_, compress_of_le hs h, by simp [length_cuts, hlen], ?_, ?_⟩⟩
  · have hle : ∀ e ∈ segs.zip (cuts total slacks), e.2 ≤ e.1.len := fun e he => by
      obtain ⟨i, hi, rfl⟩ := List.mem_iff_getElem.mp he
      simp only [List.length_zip, length_cuts, hlen, Nat.min_self] at hi
      simp only [List.getElem_zip, getElem_cuts]
      refine (cut_le_slack h _ _).trans ?_
      simp only [← hs, List.getElem_map]
      exact (hslack _ (List.getElem_mem _)).1
    have hcut := sum_len_cut (by rw [length_cuts, hlen]) hle
    rwa [sum_cuts h] at hcut
  · intro i g c hg hc
    obtain ⟨x, hx, rfl⟩ := getElem?_compress hlen hg hc
    obtain rfl : slack g = x := by simpa [← hs, hg] using hx
    obtain ⟨hle, helig, hfree⟩ := hslack g (List.mem_of_getElem? hg)
    have hcut := cut_le_slack h (slack g) i
    refine ⟨rfl, rfl, Nat.sub_le _ _, fun e => ?_, fun e => ?_, ?_⟩
    · have := helig e
      simp only
      omega
    · simp only [Nat.le_zero.mp (hcut.trans (hfree e).le), Nat.sub_zero]
    · by_cases hm : oneMore total slacks (slack g) i = true
      · refine .inr ⟨?_, ?_, ?_⟩
        · simp only [hm, if_true] at hcut ⊢
          omega
        · simp only [oneMore, Bool.and_eq_true, decide_eq_true_eq] at hm
          exact hm.1
        · intro j k e hk he hke
          obtain ⟨y, hy, rfl⟩ := getElem?_compress hlen hk he
          obtain rfl : slack k = y := by simpa [← hs, hk] using hy
          refine oneMore_greatest hm fun hmk => ?_
          have hcutk := cut_le_slack h (slack k) j
          have hlek := (hslack k (List.mem_of_getElem? hk)).1
          simp only [hmk, if_true] at hcutk hke
          omega
      · refine .inl ?_
        simp only [hm, if_false, Bool.false_eq_true] at hcut ⊢
        omega

end Sys2Proof.Machine
end

