-- ==== Sys2Proof/Proofs/PlanRequests.lean ====
section
/-! SUPPORT. The day's requests that read a plan in force or change it: DAY STATUS and PLAN QUERY (R25, R40), OPENING DELAY and EARLY
CLOSE (R36 to R38). -/

namespace Sys2Proof.Machine

/-! ## When a day's plans may change -/

theorem State.dayRuns_iff (s : State) : s.dayRuns = true ↔ s.plan.dayState = .opening ∨ s.plan.dayState = .opened := by
  simp [State.dayRuns]

/-- R37's refusals of an early close, in their order. -/
theorem State.earlyRefusal_badArg (s : State) {x : Track} {n : Nat} (h : 240 < x.early + n) :
    s.earlyRefusal x n = some .badArg := if_pos h

theorem State.earlyRefusal_state {s : State} {x : Track} {n : Nat} (h : x.early + n ≤ 240)
    (hno : ¬ ((s.plan.dayState = .opening ∨ s.plan.dayState = .opened) ∧ x.state ≠ .ended)) :
    s.earlyRefusal x n = some .state := by
  rw [← s.dayRuns_iff] at hno
  rw [State.earlyRefusal, if_neg (by omega), if_pos]
  simp only [Bool.or_eq_true, Bool.not_eq_true', beq_iff_eq]
  by_contra h
  simp only [not_or, Bool.not_eq_false] at h
  exact hno h

theorem State.earlyRefusal_none {s : State} {x : Track} {n : Nat} (h : x.early + n ≤ 240)
    (hopen : s.plan.dayState = .opening ∨ s.plan.dayState = .opened) (hx : x.state ≠ .ended) : s.earlyRefusal x n = none := by
  rw [State.earlyRefusal, if_neg (by omega), if_neg]
  simp [s.dayRuns_iff.mpr hopen, hx]

/-! ## An early close of a track -/

theorem closeEarly_planned {x : Track} {p : PlanIF} (hx : x.state = .planned) (hp : x.plan = some p) (n secs : Nat) :
    closeEarly x n secs = buildTrack (baseOf p) x.kind x.delay (x.early + n) secs := by
  simp [closeEarly, hx, rebuildTrack, hp]

theorem closeEarly_running_error {x : Track} {p : PlanIF} {n d : Nat} (hx : x.state = .running) (hp : x.plan = some p) (secs : Nat)
    (h : compress n eligibleRunning p.segs = .error d) : closeEarly x n secs = .error d := by
  simp only [closeEarly, hx, compressRunning, hp, h]

theorem closeEarly_running_ok {x : Track} {p : PlanIF} {n : Nat} {segs : List SegIF} (hx : x.state = .running)
    (hp : x.plan = some p) (secs : Nat) (h : compress n eligibleRunning p.segs = .ok segs) :
    closeEarly x n secs = .ok { x with early := x.early + n, plan := some { p with segs := segs } } := by
  simp only [closeEarly, hx, compressRunning, hp, h]

/-- A track that is built holds a plan in force, under the kind, the delay and the early close it is built with. -/
theorem buildTrack_ok {p : Plan} {kind : Option DayKind} {d e secs : Nat} {y : Track} (h : buildTrack p kind d e secs = .ok y) :
    y.kind = kind ∧ y.delay = d ∧ y.early = e ∧ ∃ segs : List SegIF, compress (d + e) eligiblePlanned (nominalPlan p).segs = .ok segs ∧
      y.plan = some { nominalPlan p with segs := markBegun secs (p.start + d) segs } := by
  dsimp only [buildTrack] at h
  split at h
  · cases h
  · rename_i segs hsegs
    cases h
    exact ⟨rfl, rfl, rfl, segs, hsegs, rfl⟩

theorem buildTrack_start {p : Plan} {kind : Option DayKind} {d e secs : Nat} {y : Track} {q : PlanIF}
    (h : buildTrack p kind d e secs = .ok y) (hq : y.plan = some q) : q.start = p.start := by
  obtain ⟨-, -, -, segs, -, hplan⟩ := buildTrack_ok h
  obtain rfl := Option.some.inj (hplan.symm.trans hq)
  rfl

/-! ## DAY STATUS and PLAN QUERY (R25, R40) -/

section
variable {s : State} {tag : Nat} {code : Code} {body : List Byte}

theorem planQuery_answers {track : Nat} {n : Option Nat} (h : s.ready)
    (e : reqPlanQuery track n (s.inHand 0x16 tag) = (s.inHand 0x16 tag, ⟨code, body⟩)) :
    Answers (.planQuery tag track n) s 0x16 tag id code body :=
  answers_of_handle h rfl rfl (by decide) (congrArg answered e) rfl

theorem reqPlanQuery_of_none {i : Fin 4} (n : Option Nat) (hp : (s.track i).plan = none) :
    reqPlanQuery i.val n s = s.refuse .notFound := by
  simp only [reqPlanQuery, fin4?_val, hp]

theorem reqPlanQuery_of_some {i : Fin 4} {p : PlanIF} (hp : (s.track i).plan = some p) :
    reqPlanQuery i.val none s = s.answer (planReply (s.track i) p) := by
  simp only [reqPlanQuery, fin4?_val, hp]

theorem reqPlanQuery_trial {i : Fin 4} {p : PlanIF} {n : Nat} {r : Reply} (hp : (s.track i).plan = some p)
    (hr : s.planTrial (s.track i) p n = r) : reqPlanQuery i.val (some n) s = (s, r) := by
  simp only [reqPlanQuery, fin4?_val, hp, hr]

theorem planTrial_refused {x : Track} {n : Nat} {c : Code} (p : PlanIF) (h : s.earlyRefusal x n = some c) :
    s.planTrial x p n = Reply.just c := by simp only [State.planTrial, h]

theorem planTrial_shortfall {x : Track} {n d : Nat} (p : PlanIF) (h : s.earlyRefusal x n = none)
    (hd : closeEarly x n s.clock.secs = .error d) : s.planTrial x p n = ⟨.shortfall, b2 d⟩ := by
  simp only [State.planTrial, h, hd]

theorem planTrial_ok {x y : Track} {n : Nat} (p : PlanIF) {q : PlanIF} (h : s.earlyRefusal x n = none)
    (hy : closeEarly x n s.clock.secs = .ok y) (hq : y.plan = some q) :
    s.planTrial x p n = Reply.ok (planReply x (p.withLengths q)) := by
  simp only [State.planTrial, h, hy, hq, Option.getD_some]

end

/-- Settles O25: both requests answer from the state as it is; a trial answers from the track that the early close would give. -/
theorem dayStatusAndPlanQuery : Obligations.DayStatusAndPlanQuery := by
  refine ⟨fun s tag h => ?_, fun s tag i p h hp => ?_, fun s tag i n h hp => ?_, fun s tag track n h ht => ?_⟩
  · exact answers_of_handle h rfl rfl (by decide) rfl rfl
  · intro x open_ report given
    refine ⟨planQuery_answers h (reqPlanQuery_of_some (s := s.inHand 0x16 tag) hp), fun n => ?_⟩
    intro c
    have trial : ∀ {code : Code} {body : List Byte}, (s.inHand 0x16 tag).planTrial x p n = ⟨code, body⟩ →
        Answers c s 0x16 tag id code body := fun hr => planQuery_answers h (reqPlanQuery_trial (s := s.inHand 0x16 tag) hp hr)
    refine ⟨fun hbig => ?_, fun hle hno => ?_, fun hle ho hx => ?_, fun hle ho hx => ?_⟩
    · exact trial (planTrial_refused p (State.earlyRefusal_badArg _ hbig))
    · exact trial (planTrial_refused p (State.earlyRefusal_state hle hno))
    · have may : (s.inHand 0x16 tag).earlyRefusal x n = none := State.earlyRefusal_none hle ho (by simp [hx])
      have tried := closeEarly_planned hx hp n s.clock.secs
      exact ⟨fun m hm => trial (planTrial_shortfall p may (tried.trans hm)),
        fun y q hy hq => trial (planTrial_ok p may (tried.trans hy) hq)⟩
    · have may : (s.inHand 0x16 tag).earlyRefusal x n = none := State.earlyRefusal_none hle ho (by simp [hx])
      exact ⟨fun m hm => trial (planTrial_shortfall p may (closeEarly_running_error hx hp _ hm)),
        fun segs hsegs => trial (planTrial_ok (q := { p with segs := segs }) p may (closeEarly_running_ok hx hp _ hsegs) rfl)⟩
  · exact planQuery_answers h (reqPlanQuery_of_none (s := s.inHand 0x16 tag) n hp)
  · exact planQuery_answers h (by simp only [reqPlanQuery, fin4?, dif_neg (Nat.not_lt.mpr ht), State.refuse, Reply.just])

/-! ## OPENING DELAY (R36) -/

section
variable {s : State} {tag : Nat} {i : Fin 4} {delay : Nat}

theorem openingDelay_answers {track : Nat} {code : Code} {body : List Byte} (h : s.ready)
    (e : reqOpeningDelay track delay (s.inHand 0x14 tag) = (s.inHand 0x14 tag, ⟨code, body⟩)) :
    Answers (.openingDelay tag track delay) s 0x14 tag id code body :=
  answers_of_handle h rfl rfl (by decide) (congrArg answered e) rfl

theorem reqOpeningDelay_badArg {track : Nat} (h : 4 ≤ track ∨ 240 < delay) : reqOpeningDelay track delay s = s.refuse .badArg := by
  unfold reqOpeningDelay
  split
  · rfl
  · rename_i t ht
    refine if_pos (h.resolve_left fun h4 => ?_)
    simp [fin4?, Nat.not_lt.mpr h4] at ht

/-- The track may be delayed: the day is OPENING or OPEN, the track PLANNED, and its new start lies after now. -/
def State.delayable (s : State) (x : Track) (delay : Nat) : Prop :=
  (s.plan.dayState = .opening ∨ s.plan.dayState = .opened) ∧ x.state = .planned ∧ s.clock.secs < (x.start + delay) * 60

theorem State.delayable_iff (s : State) (x : Track) (delay : Nat) :
    s.delayable x delay ↔ ¬ (!s.dayRuns || x.state != .planned || reached (x.start + delay) s.clock.secs) = true := by
  simp only [State.delayable, Bool.or_eq_true, Bool.not_eq_true', bne_iff_ne, reached, decide_eq_true_eq, not_or,
    Bool.not_eq_false, State.dayRuns_iff, not_not, not_le, and_assoc]

theorem reqOpeningDelay_state (hd : delay ≤ 240) (h : ¬ s.delayable (s.track i) delay) :
    reqOpeningDelay i.val delay s = s.refuse .state := by
  simp only [reqOpeningDelay, fin4?_val]
  rw [if_neg (by omega), if_pos (not_not.mp (mt (s.delayable_iff _ _).mpr h))]

theorem reqOpeningDelay_shortfall {p : PlanIF} {n : Nat} (hd : delay ≤ 240) (h : s.delayable (s.track i) delay)
    (hp : (s.track i).plan = some p)
    (e : buildTrack (baseOf p) (s.track i).kind delay (s.track i).early s.clock.secs = .error n) :
    reqOpeningDelay i.val delay s = (s, ⟨.shortfall, b2 n⟩) := by
  simp only [reqOpeningDelay, fin4?_val]
  rw [if_neg (by omega), if_neg ((s.delayable_iff _ _).mp h)]
  simp only [rebuildTrack, hp, e]

theorem reqOpeningDelay_ok {p : PlanIF} {y : Track} (hd : delay ≤ 240) (h : s.delayable (s.track i) delay)
    (hp : (s.track i).plan = some p)
    (e : buildTrack (baseOf p) (s.track i).kind delay (s.track i).early s.clock.secs = .ok y) :
    reqOpeningDelay i.val delay s = (s.republish i y, Reply.ok y.delayReply) := by
  simp only [reqOpeningDelay, fin4?_val]
  rw [if_neg (by omega), if_neg ((s.delayable_iff _ _).mp h)]
  simp only [rebuildTrack, hp, e]

end

/-! ## EARLY CLOSE (R37, R38) -/

section
variable {s : State} {tag : Nat} {i : Fin 4} {n : Nat}

theorem earlyClose_answers {track : Nat} {code : Code} {body : List Byte} (h : s.ready)
    (e : reqEarlyClose track n (s.inHand 0x15 tag) = (s.inHand 0x15 tag, ⟨code, body⟩)) :
    Answers (.earlyClose tag track n) s 0x15 tag id code body :=
  answers_of_handle h rfl rfl (by decide) (congrArg answered e) rfl

theorem reqEarlyClose_refused {c : Code} (h : s.earlyRefusal (s.track i) n = some c) : reqEarlyClose i.val n s = s.refuse c := by
  simp only [reqEarlyClose, fin4?_val, h]

theorem reqEarlyClose_shortfall {d : Nat} (h : s.earlyRefusal (s.track i) n = none)
    (e : closeEarly (s.track i) n s.clock.secs = .error d) : reqEarlyClose i.val n s = (s, ⟨.shortfall, b2 d⟩) := by
  simp only [reqEarlyClose, fin4?_val, h, e]

theorem reqEarlyClose_ok {y : Track} (h : s.earlyRefusal (s.track i) n = none)
    (e : closeEarly (s.track i) n s.clock.secs = .ok y) :
    reqEarlyClose i.val n s = (s.republish i y, Reply.ok y.earlyReply) := by
  simp only [reqEarlyClose, fin4?_val, h, e]

/-- An early close that is carried out, with the track it gives. -/
theorem earlyClose_ok {y : Track} {q : PlanIF} (h : s.ready) (may : (s.inHand 0x15 tag).earlyRefusal (s.track i) n = none)
    (e : closeEarly (s.track i) n s.clock.secs = .ok y) (hq : y.plan = some q) :
    Answers (.earlyClose tag i.val n) s 0x15 tag (fun u => ({ u with plan.tracks := u.plan.tracks.set i y }).recomputeBells i) .ok
      (bMinute (dayEndOf q y.delay) ++ b1 y.early) := by
  have reply : y.earlyReply = bMinute (dayEndOf q y.delay) ++ b1 y.early := by simp only [Track.earlyReply, hq]
  rw [← reply]
  exact answers_of_handle h rfl rfl (by decide) (congrArg answered (reqEarlyClose_ok (s := s.inHand 0x15 tag) may e)) rfl

end

/-- Settles O26: both requests go through their refusals in order, and then through the track that they build. -/
theorem delayAndEarlyClose : Obligations.DelayAndEarlyClose := by
  refine ⟨fun s tag track delay h => ⟨fun hbad => ?_, ?_⟩, fun s tag track n h ht => ?_, fun s tag i n h => ?_⟩
  · exact openingDelay_answers h (reqOpeningDelay_badArg hbad)
  · rintro i rfl hd x may
    have refused : ¬ s.delayable x delay → Refuses (.openingDelay tag i.val delay) s 0x14 tag .state := fun hno =>
      openingDelay_answers h (reqOpeningDelay_state (s := s.inHand 0x14 tag) hd hno)
    refine ⟨fun hno => refused fun ⟨ho, hx, _⟩ => hno ⟨ho, hx⟩, fun p hp => ?_⟩
    have hstart : x.start = p.start := by simp [Track.start, hp]
    refine ⟨fun hmay hlate => refused fun ⟨_, _, hs⟩ => ?_, fun ⟨ho, hx⟩ hs => ?_⟩
    · rw [hstart] at hs
      exact absurd hs (Nat.not_lt.mpr hlate)
    · have hdelayable : (s.inHand 0x14 tag).delayable x delay := ⟨ho, hx, by rw [hstart]; exact hs⟩
      refine ⟨fun n hn => openingDelay_answers h (reqOpeningDelay_shortfall (s := s.inHand 0x14 tag) hd hdelayable hp hn),
        fun y q hy hq => ?_⟩
      have taken := reqOpeningDelay_ok (s := s.inHand 0x14 tag) hd hdelayable hp hy
      have reply : y.delayReply = bMinute (p.start + delay) ++ bMinute? (sessionPoint q delay .am) := by
        simp only [Track.delayReply, hq, (buildTrack_ok hy).2.1, dayStart, buildTrack_start hy hq, baseOf]
      rw [← reply]
      exact answers_of_handle h rfl rfl (by decide) (congrArg answered taken) rfl
  · exact earlyClose_answers h (by simp only [reqEarlyClose, fin4?, dif_neg (Nat.not_lt.mpr ht), State.refuse, Reply.just])
  · intro c x open_
    refine ⟨fun hbig => ?_, fun hle hno => ?_, fun p hp => ⟨fun hle ho hx => ?_, fun hle ho hx => ?_⟩⟩
    · exact earlyClose_answers h (reqEarlyClose_refused (s := s.inHand 0x15 tag) (State.earlyRefusal_badArg _ hbig))
    · exact earlyClose_answers h (reqEarlyClose_refused (s := s.inHand 0x15 tag) (State.earlyRefusal_state hle hno))
    · have may : (s.inHand 0x15 tag).earlyRefusal x n = none := State.earlyRefusal_none hle ho (by simp [hx])
      have closed := closeEarly_planned hx hp n s.clock.secs
      refine ⟨fun m hm => earlyClose_answers h (reqEarlyClose_shortfall (s := s.inHand 0x15 tag) may (closed.trans hm)),
        fun y q hy hq => ?_⟩
      obtain ⟨-, hdelay, hearly, -⟩ := buildTrack_ok hy
      rw [← hdelay, ← hearly]
      exact earlyClose_ok h may (closed.trans hy) hq
    · have may : (s.inHand 0x15 tag).earlyRefusal x n = none := State.earlyRefusal_none hle ho (by simp [hx])
      exact ⟨fun m hm => earlyClose_answers h
          (reqEarlyClose_shortfall (s := s.inHand 0x15 tag) may (closeEarly_running_error hx hp _ hm)),
        fun segs hsegs => earlyClose_ok (q := { p with segs := segs }) h may (closeEarly_running_ok hx hp _ hsegs) rfl⟩

end Sys2Proof.Machine
end

