-- ==== Sys2Proof/Proofs/AlertWork.lean ====
section
/-! SUPPORT. What the alerts' work does (R107, R140, R143, R144): which records a serve pass, a due alert and the end of a withholding
touch, and how. -/

namespace Sys2Proof.Machine

/-! ## Records by pupil and session (R97) -/

theorem keyPupil_recKey (p : Nat) (ss : Session) : keyPupil (recKey p ss) = p := by
  cases ss <;> simp only [keyPupil, recKey, sessionCode] <;> omega

theorem keySession_recKey (p : Nat) (ss : Session) : keySession (recKey p ss) = ss := by
  cases ss
  · exact if_pos (by simp [recKey, sessionCode])
  · exact if_neg (by simp only [recKey, sessionCode]; omega)

theorem recKey_keys (k : Nat) : recKey (keyPupil k) (keySession k) = k := by
  unfold keySession
  split <;> simp only [recKey, keyPupil, sessionCode] <;> omega

theorem recKey_ne {p q : Nat} {ss st : Session} (h : (q, st) ≠ (p, ss)) : recKey q st ≠ recKey p ss := fun e =>
  h (Prod.ext (by rw [← keyPupil_recKey q st, e, keyPupil_recKey]) (by rw [← keySession_recKey q st, e, keySession_recKey]))

namespace State
variable {s t : State} {p q : Nat} {ss st : Session}

theorem record_putRec_other (s : State) (r : Rec) (h : (q, st) ≠ (p, ss)) : (s.putRec p ss r).record q st = s.record q st :=
  Tab.get_put_other _ _ (recKey_ne h)

theorem record_putRec_of_wf (h : Tab.wf clearedAt s.reg.recs = true) (r : Rec) : (s.putRec p ss r).record p ss = r :=
  Tab.get_put_same h _ _

/-- A record whose alert has been started is never the cleared one, so it is listed whatever the table holds. -/
theorem record_putRec_of_alert (s : State) {r : Rec} (h : r.alert ≠ .noAlert) : (s.putRec p ss r).record p ss = r := by
  have hne : r ≠ clearedAt (recKey p ss) := fun e => h (congrArg Rec.alert e)
  show Tab.get clearedAt (Tab.put clearedAt s.reg.recs (recKey p ss) r) (recKey p ss) = r
  rw [Tab.put, if_neg hne]
  exact Tab.get_insert_same _ _ _

theorem record_modRec_other (s : State) (f : Rec → Rec) (h : (q, st) ≠ (p, ss)) : (s.modRec p ss f).record q st = s.record q st :=
  s.record_putRec_other _ h

theorem record_modRec_of_alert (s : State) {f : Rec → Rec} (h : (f (s.record p ss)).alert ≠ .noAlert) :
    (s.modRec p ss f).record p ss = f (s.record p ss) := s.record_putRec_of_alert h

theorem record_congr (h : t.reg = s.reg) (p : Nat) (ss : Session) : t.record p ss = s.record p ss :=
  congrArg (fun x : Register => Tab.get clearedAt x.recs (recKey p ss)) h

end State

/-! ## Conditions raised (R201) -/

theorem Condition.number_inj {c d : Condition} (h : c.number = d.number) : c = d := by
  have place (c : Condition) : conditions[c.number]? = some c := by cases c <;> rfl
  exact Option.some.inj ((place c).symm.trans (h ▸ place d))

theorem HostLink.isSet_iff (l : HostLink) (c : Condition) : l.isSet c = true ↔ 0 < Tab.get (fun _ => 0) l.counts c.number :=
  decide_eq_true_iff

theorem State.raise_isSet_same (s : State) (c : Condition) : (s.raise c).link.isSet c = true := by
  have hne : min (s.link.count c + 1) 255 ≠ 0 := by omega
  rw [HostLink.isSet_iff]
  show 0 < Tab.get (fun _ => 0) (Tab.put (fun _ => 0) s.link.counts c.number (min (s.link.count c + 1) 255)) c.number
  rw [Tab.put, if_neg hne, Tab.get_insert_same]
  omega

/-- A condition once set stays set while others are raised. -/
theorem State.raise_isSet (s : State) (c : Condition) {d : Condition} (h : s.link.isSet d = true) : (s.raise c).link.isSet d = true := by
  by_cases hcd : c = d
  · exact hcd ▸ s.raise_isSet_same c
  · rw [HostLink.isSet_iff] at h ⊢
    exact h.trans_eq (Tab.get_put_other _ _ fun e => hcd (Condition.number_inj e.symm)).symm

/-! ## What serving does -/

/-- A record as serving leaves it: as it was, or with no first attempt outstanding and its alert as it was, QUEUED or UNDELIVERED. -/
def Rec.Served (r v : Rec) : Prop :=
  v = r ∨ ∃ x : AlertState, (x = r.alert ∨ x = .queued ∨ x = .undelivered) ∧ v = { r with alert := x, asked := none }

theorem Rec.Served.refl (r : Rec) : r.Served r := .inl rfl

theorem Rec.Served.trans {r v w : Rec} (h : r.Served v) (k : v.Served w) : r.Served w := by
  rcases h with rfl | ⟨x, hx, rfl⟩
  · exact k
  · rcases k with rfl | ⟨y, rfl | hy, rfl⟩
    · exact .inr ⟨x, hx, rfl⟩
    · exact .inr ⟨_, hx, rfl⟩
    · exact .inr ⟨y, .inr hy, rfl⟩

theorem Rec.Served.alert_ne {r v : Rec} (h : r.Served v) (hr : r.alert ≠ .noAlert) : v.alert ≠ .noAlert := by
  rcases h with rfl | ⟨x, rfl | rfl | rfl, rfl⟩
  · exact hr
  · exact hr
  · simp
  · simp

/-- `b` follows from `a` by pool work and what it does to the records. A record whose alert has been started stays listed whatever the
table's form; where `w` gives the canonical form, serving touches the DUE records and no other. -/
structure Serves (w : Prop) (a b : State) : Prop where
  leaves : a.poolLeaves b
  desk : b.desk = { a.desk with stats := b.desk.stats }
  raised : ∀ c : Condition, a.link.isSet c = true → b.link.isSet c = true
  listed : ∀ (p : Nat) (ss : Session), (a.record p ss).alert ≠ .noAlert → (a.record p ss).Served (b.record p ss)
  wf : w → Tab.wf clearedAt b.reg.recs = true
  others : w → ∀ (p : Nat) (ss : Session), (a.record p ss).alert ≠ .due → b.record p ss = a.record p ss

namespace Serves
variable {w : Prop} {a s t : State}

theorem refl (h : w → Tab.wf clearedAt s.reg.recs = true) : Serves w s s :=
  ⟨s.poolLeaves_refl, rfl, fun _ h => h, fun _ _ _ => .inl rfl, h, fun _ _ _ _ => rfl⟩

theorem trans (h : Serves w a s) (k : Serves w s t) : Serves w a t where
  leaves := State.poolLeaves_trans h.leaves k.leaves
  desk := by rw [k.desk, h.desk]
  raised c hc := k.raised c (h.raised c hc)
  listed p ss hn := (h.listed p ss hn).trans (k.listed p ss ((h.listed p ss hn).alert_ne hn))
  wf := k.wf
  others hw p ss hd := by
    have same := h.others hw p ss hd
    rw [k.others hw p ss (same ▸ hd), same]

/-- Work that leaves the records alone. -/
theorem of_reg (h : Serves w a s) (hl : s.poolLeaves t) (hd : t.desk = { s.desk with stats := t.desk.stats })
    (hr : ∀ c : Condition, s.link.isSet c = true → t.link.isSet c = true) (hreg : t.reg = s.reg) : Serves w a t :=
  h.trans
    { leaves := hl
      desk := hd
      raised := hr
      listed := fun p ss _ => .inl (State.record_congr hreg p ss)
      wf := fun hw => hreg ▸ h.wf hw
      others := fun _ p ss _ => State.record_congr hreg p ss }

/-- Work that touches one record, which is DUE where the table is canonical. -/
theorem of_record {p : Nat} {ss : Session} (h : Serves w a s) (hl : s.poolLeaves t)
    (hdesk : t.desk = { s.desk with stats := t.desk.stats })
    (hr : ∀ c : Condition, s.link.isSet c = true → t.link.isSet c = true)
    (hwf : Tab.wf clearedAt s.reg.recs = true → Tab.wf clearedAt t.reg.recs = true)
    (hd : w → (s.record p ss).alert = .due)
    (hrec : (s.record p ss).alert ≠ .noAlert → (s.record p ss).Served (t.record p ss))
    (hother : ∀ (q : Nat) (st : Session), (q, st) ≠ (p, ss) → t.record q st = s.record q st) : Serves w a t :=
  h.trans
    { leaves := hl
      desk := hdesk
      raised := hr
      listed := fun q st hn => by
        by_cases e : (q, st) = (p, ss)
        · cases e
          exact hrec hn
        · exact .inl (hother q st e)
      wf := fun hw => hwf (h.wf hw)
      others := fun hw q st hne => hother q st fun e => by
        cases e
        exact hne (hd hw) }

theorem raise (h : Serves w a s) (c : Condition) : Serves w a (s.raise c) :=
  h.of_reg (s.raise_leaves c) rfl (fun _ h => s.raise_isSet c h) rfl

/-! ## Storage -/

theorem allocate {c : MsgClass} {k : Nat} {st : Storage} (h : Serves w a s) (e : s.allocate c k = some (t, st)) :
    Serves w a t ∧ t.reg = s.reg := by
  have leaves := State.allocate_leaves e
  rcases s.allocate_cases c k with ⟨_, _, e'⟩ | ⟨_, _, _, _, e'⟩ | ⟨_, _, e'⟩ <;> rw [e'] at e <;> cases e
  · exact ⟨h.of_reg leaves rfl (fun _ h => h) rfl, rfl⟩
  · exact ⟨h.of_reg leaves rfl (fun d h => State.raise_isSet { s with pool := _ } .poolReserve h) rfl, rfl⟩

theorem release (h : Serves w a s) (m : Message) : Serves w a (s.release m) ∧ (s.release m).reg = s.reg := by
  have leaves := s.release_leaves m
  unfold State.release at leaves ⊢
  split at leaves <;> exact ⟨h.of_reg leaves rfl (fun _ h => h) rfl, rfl⟩

theorem storeOut {cls : MsgClass} {kind : MsgKind} {subj : Subject} {text : Text} {life : Option Nat} {st : Stored}
    (h : Serves w a s) (e : s.storeOut cls kind subj text life = some (t, st)) : Serves w a t ∧ t.reg = s.reg := by
  dsimp only [State.storeOut] at e
  split at e
  · cases e
  · rename_i s1 st' he
    obtain ⟨allocated, hreg⟩ := h.allocate he
    have added := allocated.of_reg (s1.addMessage_leaves cls kind st' text
      (.out ⟨subj, s1.recipients cls subj, ⟨0, false, 0⟩, .queued, life, false⟩)) rfl (fun _ h => h) rfl
    have counted := added.of_reg (State.countEnd_leaves _ cls EndCounts.addUndelivered) rfl (fun _ h => h) rfl
    split at e
    · split at e <;> cases e
      · obtain ⟨released, hreg'⟩ := counted.release _
        exact ⟨released, hreg'.trans hreg⟩
      · exact ⟨counted, hreg⟩
    · cases e
      exact ⟨added.of_reg (State.enqueue_leaves _ _ _) rfl (fun _ h => h) rfl, hreg⟩

theorem fillSlot (h : Serves w a s) : Serves w a s.fillSlot ∧ s.fillSlot.reg = s.reg := by
  have leaves := s.fillSlot_leaves
  unfold State.fillSlot at leaves ⊢
  split at leaves <;> exact ⟨h.of_reg leaves rfl (fun _ h => h) rfl, rfl⟩

theorem joinSlip (h : Serves w a s) (x : Slip) : Serves w a (s.joinSlip x).1 ∧ (s.joinSlip x).1.reg = s.reg := by
  dsimp only [State.joinSlip]
  split
  · refine fillSlot (h.of_reg ?_ ?_ ?_ ?_)
    · exact s.poolLeaves_refl
    · rfl
    · exact fun _ h => h
    · rfl
  · refine ⟨raise (h.of_reg ?_ ?_ ?_ ?_) _, rfl⟩
    · exact s.poolLeaves_refl
    · rfl
    · exact fun _ h => h
    · rfl

theorem countReject (h : Serves w a s) (c : MsgClass) : Serves w a (s.countReject c) ∧ (s.countReject c).reg = s.reg := by
  refine ⟨raise (h.of_reg ?_ ?_ ?_ ?_) _, rfl⟩
  · exact s.poolLeaves_refl
  · rfl
  · exact fun _ h => h
  · rfl

/-! ## A DUE alert's attempt (R140, R151) -/

theorem alertUndelivered_record (s : State) (p q : Nat) (ss st : Session) (reason : CallReason) :
    (s.alertUndelivered p ss reason).record q st = (s.modRec p ss fun r => { r with alert := .undelivered }).record q st :=
  State.record_congr ((refl (w := False) False.elim).joinSlip _).2 q st

/-- What an alert that ends UNDELIVERED does beside its own record. -/
theorem alertUndelivered_work (s : State) (p : Nat) (ss : Session) (reason : CallReason) :
    (s.alertUndelivered p ss reason).desk = { s.desk with stats := (s.alertUndelivered p ss reason).desk.stats } ∧
      (∀ c : Condition, s.link.isSet c = true → (s.alertUndelivered p ss reason).link.isSet c = true) ∧
      (Tab.wf clearedAt s.reg.recs = true → Tab.wf clearedAt (s.alertUndelivered p ss reason).reg.recs = true) := by
  have joined := (refl (w := False) (s := (s.modRec p ss fun r => { r with alert := .undelivered }).raise .alertUndelivered)
    False.elim).joinSlip (((s.modRec p ss fun r => { r with alert := .undelivered }).raise .alertUndelivered).makeSlip .call p ss
      (.call reason s.clock.secs (((s.modRec p ss fun r => { r with alert := .undelivered }).raise .alertUndelivered).contactNumbers p)))
  exact ⟨joined.1.desk, fun c h => joined.1.raised c (State.raise_isSet (s.modRec p ss _) _ h),
    fun h => (congrArg (fun x : Register => Tab.wf clearedAt x.recs) joined.2).trans (Tab.wf_put h _ _)⟩

/-- R140, R144: an allocation attempt for a DUE alert touches no other record. -/
theorem tryAlert {p : Nat} {ss : Session} {st : Stored} (h : Serves w a s) (hd : w → (s.record p ss).alert = .due)
    (e : s.tryAlert p ss = some (t, st)) :
    Serves w a t ∧ ∀ (q : Nat) (st : Session), (q, st) ≠ (p, ss) → t.record q st = s.record q st := by
  have leaves := State.tryAlert_leaves e
  dsimp only [State.tryAlert] at e
  split at e
  · cases e
  · rename_i s1 n he
    cases e
    obtain ⟨stored, hreg⟩ := storeOut (refl (w := Tab.wf clearedAt s.reg.recs = true) id) he
    have hother : ∀ (q : Nat) (st : Session), (q, st) ≠ (p, ss) → _ = s.record q st := fun q st h =>
      (s1.record_modRec_other (fun r => { r with alert := .queued, asked := none }) h).trans (State.record_congr hreg q st)
    refine ⟨h.of_record leaves stored.desk stored.raised (fun hw => Tab.wf_put (stored.wf hw) _ _) hd (fun _ => ?_) hother, hother⟩
    rw [s1.record_modRec_of_alert (by simp), State.record_congr hreg]
    exact .inr ⟨.queued, .inr (.inl rfl), rfl⟩
  · rename_i s1 he
    cases e
    obtain ⟨stored, hreg⟩ := storeOut (refl (w := Tab.wf clearedAt s.reg.recs = true) id) he
    obtain ⟨hdesk, hraised, hwf⟩ := alertUndelivered_work (s1.modRec p ss fun r => { r with asked := none }) p ss .noRecipient
    have hother : ∀ (q : Nat) (st : Session), (q, st) ≠ (p, ss) →
        ((s1.modRec p ss fun r => { r with asked := none }).alertUndelivered p ss .noRecipient).record q st = s.record q st :=
      fun q st h => by
        rw [alertUndelivered_record, State.record_modRec_other _ _ h, State.record_modRec_other _ _ h, State.record_congr hreg]
    refine ⟨h.of_record leaves (hdesk.trans ?_) (fun c h => hraised c (stored.raised c h))
      (fun hw => hwf (Tab.wf_put (stored.wf hw) _ _)) hd (fun hn => ?_) hother, hother⟩
    · rw [State.modRec_desk, stored.desk]
    · rw [← State.record_congr hreg] at hn ⊢
      have hasked := s1.record_modRec_of_alert (f := fun r => { r with asked := none }) hn
      rw [alertUndelivered_record, State.record_modRec_of_alert _ (by simp), hasked]
      exact .inr ⟨.undelivered, .inr (.inr rfl), rfl⟩

/-! ## The serve pass (R144) -/

theorem serveWaits (h : Serves w a s) (fuel : Nat) : Serves w a (serveWaits fuel s) := by
  induction fuel generalizing s with
  | zero => exact h
  | succ fuel ih =>
    unfold Machine.serveWaits
    split
    · exact h
    · split
      · exact h
      · rename_i t st he
        have stored : Serves w a t ∧ t.reg = s.reg := h.storeOut he
        refine ih (stored.1.of_reg ?_ ?_ ?_ ?_)
        · exact t.poolLeaves_refl
        · rfl
        · exact fun _ h => h
        · rfl

/-- Serving the places listed, distinct and DUE where the table is canonical. -/
theorem serveAlerts {l : List Nat} (h : Serves w a s)
    (hl : w → l.Nodup ∧ ∀ k ∈ l, (s.record (keyPupil k) (keySession k)).alert = .due) : Serves w a (serveAlerts l s) := by
  induction l generalizing s with
  | nil => exact h
  | cons k l ih =>
    unfold Machine.serveAlerts
    split
    · exact h
    · rename_i t st he
      obtain ⟨tried, hother⟩ := h.tryAlert (fun hw => (hl hw).2 k (List.mem_cons_self ..)) he
      refine ih tried fun hw => ?_
      obtain ⟨hnd, hdue⟩ := hl hw
      obtain ⟨hk, hnd⟩ := List.nodup_cons.mp hnd
      refine ⟨hnd, fun j hj => ?_⟩
      rw [hother _ _ fun e => hk ?_]
      · exact hdue j (List.mem_cons_of_mem k hj)
      · obtain ⟨hp, hs⟩ := Prod.mk.inj e
        rw [← recKey_keys k, ← hp, ← hs, recKey_keys]
        exact hj

end Serves

/-- In a canonical table the places that a filter gives are distinct, and the record of each passes. -/
theorem State.filter_recs {s : State} (h : Tab.wf clearedAt s.reg.recs = true) {p : Nat → Rec → Bool} (hp : ∀ k, p k Rec.cleared = false) :
    (Tab.filter s.reg.recs p).Nodup ∧
      ∀ k, k ∈ Tab.filter s.reg.recs p ↔ p k (s.record (keyPupil k) (keySession k)) = true := by
  refine ⟨(Tab.filter_pairwise h p).1.imp Nat.ne_of_lt, fun k => ?_⟩
  rw [State.record, recKey_keys]
  exact Tab.mem_filter_iff h (hp k)

namespace Serves
variable {w : Prop} {a s t : State}

theorem servePass (h : Serves w a s) : Serves w a s.servePass := by
  refine (h.serveAlerts fun hw => ?_).serveWaits _
  obtain ⟨hnd, hmem⟩ := State.filter_recs (h.wf hw) (p := fun _ r => r.alert == .due) fun _ => rfl
  exact ⟨hnd, fun k hk => by simpa using (hmem k).mp hk⟩

theorem afterStored (h : Serves w a s) (x : Stored) : Serves w a (s.afterStored x) := by
  cases x
  · exact h
  · exact h.servePass

end Serves

end Sys2Proof.Machine
end

