-- ==== Sys2Proof/Proofs/PlanFrame.lean ====
section
/-! SUPPORT. The blocks that read the Day Planner's plan leave it as it is (R32): every operation of the bells, the slips, the pool, the
delivery, the Register, the desk, the reports, the links and the store's pages keeps the plan. -/

namespace Sys2Proof.Machine

/-- What each step of a fold keeps, the fold keeps. -/
theorem foldl_kept {α β γ : Type} (v : α → γ) {f : α → β → α} (hf : ∀ (a : α) (b : β), v (f a b) = v a) (a : α) (l : List β) :
    v (l.foldl f a) = v a := by
  induction l generalizing a with
  | nil => rfl
  | cons b l ih => exact (ih _).trans (hf a b)

theorem State.poolLeaves_plan {s t : State} (h : s.poolLeaves t) : t.plan = s.plan := by
  obtain ⟨⟨-, -, hplan, -⟩, -⟩ := h
  exact hplan

@[simp] theorem State.raiseAll_plan (s : State) (cs : List Condition) : (s.raiseAll cs).plan = s.plan :=
  foldl_kept State.plan State.raise_plan s cs
@[simp] theorem State.refuse_plan (s : State) (c : Code) : (State.refuse s c).1.plan = s.plan := rfl
@[simp] theorem State.onZone_plan (s : State) (z : Fin 4) (f : ZoneCfg → Zone → Zone × List Condition) :
    (State.onZone s z f).plan = s.plan := by
  simp [State.onZone]
@[simp] theorem State.ringDueBells_plan (s : State) : s.ringDueBells.plan = s.plan :=
  (foldl_kept State.plan (fun t _ => foldl_kept State.plan (fun u _ => u.onZone_plan _ _) t _) _ _).trans (s.onZones_plan _)
@[simp] theorem State.replaceConflict_plan (s : State) (p : Nat) (ss : Session) (kind : ConflictKind) :
    (State.replaceConflict s p ss kind).plan = s.plan := rfl
@[simp] theorem State.recordConflict_plan (s : State) (p : Nat) (ss : Session) (kind : ConflictKind) (mark : Mark) :
    (State.recordConflict s p ss kind mark).plan = s.plan := rfl
@[simp] theorem State.overflowConflict_plan (s : State) : (State.overflowConflict s).plan = s.plan := rfl
@[simp] theorem State.handConflict_plan (s : State) (p : Nat) (ss : Session) (kind : ConflictKind) (mark : Mark) :
    (State.handConflict s p ss kind mark).plan = s.plan := by
  unfold State.handConflict
  repeat' split
  all_goals simp
@[simp] theorem State.removeConflict_plan (s : State) (c : Conflict) : (State.removeConflict s c).plan = s.plan := rfl
@[simp] theorem State.emptyConflicts_plan (s : State) : s.emptyConflicts.plan = s.plan :=
  foldl_kept State.plan State.removeConflict_plan s _
@[simp] theorem State.takeAdvance_plan (s : State) (p : Nat) (d : Date) (ss : Sessions) (report : Option Nat) :
    (State.takeAdvance s p d ss report).1.plan = s.plan := by
  unfold State.takeAdvance
  repeat' split
  all_goals simp
@[simp] theorem State.joinWait_plan (s : State) (e : WaitEntry) : (State.joinWait s e).1.plan = s.plan := by
  unfold State.joinWait
  split <;> simp
@[simp] theorem State.withdrawWaits_plan (s : State) (kind : MsgKind) (p : Nat) (ss : Session) :
    (State.withdrawWaits s kind p ss).plan = s.plan := rfl
@[simp] theorem State.fillSlot_plan (s : State) : (State.fillSlot s).plan = s.plan := by
  unfold State.fillSlot
  split <;> simp
@[simp] theorem State.joinSlip_plan (s : State) (x : Slip) : (State.joinSlip s x).1.plan = s.plan := by
  unfold State.joinSlip
  split <;> simp
@[simp] theorem State.lateSlip_plan (s : State) (p : Nat) (ss : Session) (arrival : Nat) (mark : Mark) (minutes : Nat) (expected : Bool) :
    (State.lateSlip s p ss arrival mark minutes expected).1.plan = s.plan := by
  unfold State.lateSlip
  split <;> simp
@[simp] theorem State.stallPrinter_plan (s : State) : (State.stallPrinter s).plan = s.plan := rfl
@[simp] theorem State.printerReadyReport_plan (s : State) : (State.printerReadyReport s).plan = s.plan := by
  unfold State.printerReadyReport
  repeat' split
  all_goals simp
@[simp] theorem State.paperOutReport_plan (s : State) : (State.paperOutReport s).plan = s.plan := by
  unfold State.paperOutReport
  split <;> simp
@[simp] theorem State.slipSent_plan (s : State) : (State.slipSent s).plan = s.plan := by
  unfold State.slipSent
  split <;> simp
@[simp] theorem State.stallReached_plan (s : State) : (State.stallReached s).plan = s.plan := by
  unfold State.stallReached
  split <;> simp
@[simp] theorem State.slipSecond_plan (s : State) : (State.slipSecond s).plan = s.plan := by
  dsimp only [State.slipSecond]
  repeat' split
  all_goals simp
@[simp] theorem State.addMessage_plan (s : State) (cls : MsgClass) (kind : MsgKind) (st : Storage) (text : Text) (body : MsgBody) :
    (State.addMessage s cls kind st text body).plan = s.plan := rfl
@[simp] theorem State.release_plan (s : State) (m : Message) : (State.release s m).plan = s.plan := by
  unfold State.release
  split <;> simp
@[simp] theorem State.alertUndelivered_plan (s : State) (p : Nat) (ss : Session) (reason : CallReason) :
    (s.alertUndelivered p ss reason).plan = s.plan := State.poolLeaves_plan (s.alertUndelivered_leaves p ss reason)
@[simp] theorem State.servePass_plan (s : State) : s.servePass.plan = s.plan := State.poolLeaves_plan s.servePass_leaves
@[simp] theorem State.freeMessage_plan (s : State) (m : Message) : (State.freeMessage s m).plan = s.plan := by
  simp [State.freeMessage]
@[simp] theorem State.afterStored_plan (s : State) (x : Stored) : (State.afterStored s x).plan = s.plan := by
  unfold State.afterStored
  split <;> simp
@[simp] theorem State.countReject_plan (s : State) (c : MsgClass) : (s.countReject c).plan = s.plan := rfl
@[simp] theorem State.alertBecomesDue_plan (s : State) (p : Nat) (ss : Session) : (s.alertBecomesDue p ss).plan = s.plan := by
  dsimp only [State.alertBecomesDue]
  split
  · simp
  · rename_i t st e
    rw [State.afterStored_plan, State.poolLeaves_plan (State.tryAlert_leaves e), State.modRec_plan]
@[simp] theorem State.requestMsg_plan (s : State) (kind : MsgKind) (subj : Subject) (template : Option Nat) :
    (s.requestMsg kind subj template).1.plan = s.plan := by
  dsimp only [State.requestMsg]
  split
  · rename_i t st e
    rw [State.afterStored_plan, State.poolLeaves_plan (State.storeOut_leaves e)]
  · simp
@[simp] theorem State.requestDirect_plan (s : State) (p : Nat) (ss : Session) (text : Text) :
    (s.requestDirect p ss text).1.plan = s.plan := by
  unfold State.requestDirect
  split
  · rename_i t st e
    rw [State.afterStored_plan, State.poolLeaves_plan (State.storeOut_leaves e)]
  · simp
theorem State.storeReport_plan {s t : State} {sender text : Text} {n : Nat} (e : s.storeReport sender text = some (t, n)) :
    t.plan = s.plan := by
  unfold State.storeReport at e
  split at e
  · cases e
  · rename_i u st h
    cases e
    rw [State.addMessage_plan, State.poolLeaves_plan (State.allocate_leaves h)]
@[simp] theorem State.modOut_plan (s : State) (n : Nat) (f : Outbound → Outbound) : (State.modOut s n f).plan = s.plan := rfl
@[simp] theorem State.alertMark_plan (s : State) (m : Message) (a : AlertState) : (State.alertMark s m a).plan = s.plan := by
  unfold State.alertMark
  repeat' split
  all_goals simp
@[simp] theorem State.finishMessage_plan (s : State) (m : Message) (count : EndCounts → EndCounts) :
    (State.finishMessage s m count).plan = s.plan := by
  simp [State.finishMessage]
@[simp] theorem State.withdraw_plan (s : State) (m : Message) : (State.withdraw s m).plan = s.plan := by
  simp [State.withdraw]
@[simp] theorem State.withdrawAll_plan (s : State) (ns : List Nat) : (s.withdrawAll ns).plan = s.plan := by
  refine foldl_kept State.plan (fun t n => ?_) s ns
  repeat' split
  all_goals simp
@[simp] theorem State.endDeadAlert_plan (s : State) (m : Message) (p : Nat) (ss : Session) :
    (State.endDeadAlert s m p ss).plan = s.plan := by
  simp [State.endDeadAlert]
@[simp] theorem State.endUndelivered_plan (s : State) (m : Message) : (s.endUndelivered m).plan = s.plan := by
  unfold State.endUndelivered
  rw [State.finishMessage_plan]
  repeat' split
  all_goals simp
@[simp] theorem State.failAttempt_plan (s : State) (n : Nat) (invalid : Bool) : (State.failAttempt s n invalid).plan = s.plan := by
  unfold State.failAttempt
  repeat' split
  all_goals simp
@[simp] theorem State.recallOne_plan (s : State) (b : Submission) : (State.recallOne s b).plan = s.plan := by
  dsimp only [State.recallOne]
  repeat' split
  all_goals simp
@[simp] theorem State.headOfQueue_plan (s : State) (c : MsgClass) (ns : List Nat) : (State.headOfQueue s c ns).plan = s.plan := rfl
@[simp] theorem State.recall_plan (s : State) (l : List Submission) : (s.recall l).plan = s.plan := by
  obtain ⟨ns, e⟩ := recall_eq s l
  rw [e, foldl_kept State.plan (fun t c => t.headOfQueue_plan c ns), foldl_kept State.plan State.recallOne_plan]
@[simp] theorem State.endDelivered_plan (s : State) (n : Nat) : (State.endDelivered s n).plan = s.plan := by
  unfold State.endDelivered
  split <;> simp
@[simp] theorem State.strayResult_plan (s : State) (tag : Nat) : (State.strayResult s tag).plan = s.plan := by
  unfold State.strayResult
  split <;> simp
@[simp] theorem State.takeResult_plan (s : State) (tag : Nat) (r : GwOutcome) : (State.takeResult s tag r).plan = s.plan := by
  unfold State.takeResult
  repeat' split
  all_goals simp
@[simp] theorem State.timeOut_plan (s : State) (tag : Nat) : (State.timeOut s tag).plan = s.plan := by
  unfold State.timeOut
  split <;> simp
@[simp] theorem State.retryReached_plan (s : State) (n : Nat) : (State.retryReached s n).plan = s.plan := by
  unfold State.retryReached
  repeat' split
  all_goals simp
@[simp] theorem State.lifeReached_plan (s : State) (n : Nat) : (State.lifeReached s n).plan = s.plan := by
  unfold State.lifeReached
  repeat' split
  all_goals simp
@[simp] theorem State.deliverySecond_plan (s : State) : s.deliverySecond.plan = s.plan := by
  dsimp only [State.deliverySecond]
  rw [foldl_kept State.plan State.timeOut_plan, foldl_kept State.plan State.retryReached_plan,
    foldl_kept State.plan State.lifeReached_plan]
@[simp] theorem State.expireWait_plan (s : State) (i : Nat) : (State.expireWait s i).plan = s.plan := by
  unfold State.expireWait
  split <;> simp
@[simp] theorem State.expireWaits_plan (s : State) (fuel i : Nat) : (s.expireWaits fuel i).plan = s.plan := by
  induction fuel generalizing s i with
  | zero => rfl
  | succ fuel ih =>
    unfold State.expireWaits
    split
    · rfl
    · split <;> simp [ih]
@[simp] theorem State.waitsSecond_plan (s : State) : s.waitsSecond.plan = s.plan := by simp [State.waitsSecond]
@[simp] theorem State.submit_plan (s : State) (m : Message) (o : Outbound) : (State.submit s m o).plan = s.plan := by
  simp [State.submit]
@[simp] theorem State.stopAlert_plan (s : State) (p : Nat) (ss : Session) : (State.stopAlert s p ss).1.plan = s.plan := by
  unfold State.stopAlert
  split <;> simp
@[simp] theorem State.pump_plan (s : State) (fuel : Nat) : (State.pump fuel s).plan = s.plan := by
  induction fuel generalizing s with
  | zero => rfl
  | succ fuel ih =>
    unfold State.pump
    repeat' split
    all_goals simp [ih]
@[simp] theorem State.correctAlert_plan (s : State) (p : Nat) (ss : Session) : (s.correctAlert p ss).1.plan = s.plan := by
  dsimp only [State.correctAlert]
  split <;> simp
@[simp] theorem State.patternNotice_plan (s : State) (p : Nat) (ss : Session) : (s.patternNotice p ss).plan = s.plan := by
  dsimp only [State.patternNotice]
  split <;> simp
@[simp] theorem State.applyMark_plan (s : State) (p : Nat) (ss : Session) (w : MarkWrite) :
    (State.applyMark s p ss w).1.plan = s.plan := by
  dsimp only [State.applyMark]
  repeat' split
  all_goals simp
@[simp] theorem State.heldDue_plan (s : State) (p : Nat) (ss : Session) : (State.heldDue s p ss).plan = s.plan := by
  unfold State.heldDue
  split <;> simp
@[simp] theorem State.startAlert_plan (s : State) (p : Nat) (ss : Session) (start : Nat) (closing : Bool) :
    (State.startAlert s p ss start closing).plan = s.plan := by
  dsimp only [State.startAlert]
  repeat' split
  all_goals simp
@[simp] theorem State.alertDueAt_plan (s : State) (p : Nat) (ss : Session) : (State.alertDueAt s p ss).plan = s.plan := by
  unfold State.alertDueAt
  split <;> simp
@[simp] theorem State.alertsDue_plan (s : State) : s.alertsDue.plan = s.plan :=
  foldl_kept State.plan (fun t _ => t.alertDueAt_plan _ _) s _
@[simp] theorem State.withheldDue_plan (s : State) (t : Fin 4) : (s.withheldDue t).plan = s.plan :=
  foldl_kept State.plan (fun u _ => u.alertBecomesDue_plan _ _) s _
@[simp] theorem State.setExpected_plan (s : State) (p : Nat) (ss : Session) : (State.setExpected s p ss).plan = s.plan := rfl
@[simp] theorem State.setExplained_plan (s : State) (p : Nat) (ss : Session) : (State.setExplained s p ss).plan = s.plan := rfl
@[simp] theorem State.deskArrival_plan (s : State) (p : Nat) (ss : Session) (mark : Mark) (minutes arrival : Nat) :
    (State.deskArrival s p ss mark minutes arrival).1.plan = s.plan := by
  dsimp only [State.deskArrival]
  repeat' split
  all_goals simp
@[simp] theorem State.parentAbsent_plan (s : State) (p : Nat) (ss : Session) : (State.parentAbsent s p ss).1.plan = s.plan := by
  dsimp only [State.parentAbsent]
  repeat' split
  all_goals simp
@[simp] theorem State.registerEntry_plan (s : State) (p : Nat) (ss : Session) (e : Entry) :
    (s.registerEntry p ss e).1.plan = s.plan := by
  dsimp only [State.registerEntry]
  split <;> simp
@[simp] theorem State.lateEntry_plan (s : State) (p : Nat) (ss : Session) (e : Entry) : (s.lateEntry p ss e).1.plan = s.plan := by
  dsimp only [State.lateEntry]
  split <;> simp
@[simp] theorem State.closeRecord_plan (ss : Session) (start : Nat) (closing : Bool) (s : State) (p : Nat) :
    (State.closeRecord ss start closing s p).plan = s.plan := by
  dsimp only [State.closeRecord]
  repeat' split
  all_goals simp
@[simp] theorem State.closeGroup_plan (ss : Session) (start : Nat) (closing : Bool) (x : State × Bool) (g : Nat) :
    (State.closeGroup ss start closing x g).1.plan = x.1.plan := by
  dsimp only [State.closeGroup]
  repeat' split
  · simp
  · exact foldl_kept State.plan (State.closeRecord_plan ss start closing) _ _
  · simp
  · rfl
@[simp] theorem State.closeSession_plan (s : State) (t : Fin 4) (ss : Session) (start : Nat) (closing : Bool) :
    (s.closeSession t ss start closing).plan = s.plan := by
  have groups := foldl_kept (fun x : State × Bool => x.1.plan) (State.closeGroup_plan ss start closing)
    (s.setSession t ss (some .closed), false) ((s.setSession t ss (some .closed)).groupsOf t)
  dsimp only [State.closeSession]
  split
  · rwa [State.raise_plan]
  · exact groups
@[simp] theorem State.openSessionAt_plan (s : State) (t : Fin 4) (ss : Session) : (State.openSessionAt s t ss).plan = s.plan := by
  unfold State.openSessionAt
  repeat' split
  all_goals simp
@[simp] theorem State.closeSessionAt_plan (s : State) (t : Fin 4) (ss : Session) : (State.closeSessionAt s t ss).plan = s.plan := by
  unfold State.closeSessionAt
  repeat' split
  all_goals simp
@[simp] theorem State.followSessions_plan (s : State) (t : Fin 4) : (s.followSessions t).plan = s.plan := by simp [State.followSessions]
@[simp] theorem State.clearRegister_plan (s : State) : s.clearRegister.plan = s.plan :=
  foldl_kept State.plan (fun t g => t.setGroupStatus_plan g .pm .notHeld) _ _
@[simp] theorem State.badArrival_plan (s : State) (n : Fin 6) (seq : Nat) : (State.badArrival s n seq).plan = s.plan := rfl
@[simp] theorem State.overrun_plan (s : State) (n : Fin 6) (a : Arrival) : (State.overrun s n a).plan = s.plan := rfl
@[simp] theorem State.heldDrop_plan (s : State) (n : Fin 6) (a : Arrival) : (State.heldDrop s n a).plan = s.plan := rfl
@[simp] theorem State.holdRecord_plan (s : State) (n : Fin 6) (a : Arrival) : (State.holdRecord s n a).plan = s.plan := rfl
@[simp] theorem State.goodArrival_plan (s : State) (n : Fin 6) (a : Arrival) : (State.goodArrival s n a).plan = s.plan := by
  unfold State.goodArrival
  repeat' split
  all_goals simp
@[simp] theorem State.arrivalComplete_plan (s : State) (n : Fin 6) (l : List Byte) : (State.arrivalComplete s n l).plan = s.plan := by
  unfold State.arrivalComplete
  split <;> simp
@[simp] theorem State.stationChar_plan (s : State) (n : Fin 6) (c : Byte) : (State.stationChar s n c).plan = s.plan := by
  dsimp only [State.stationChar]
  repeat' split
  all_goals simp
@[simp] theorem State.stationFraming_plan (s : State) (n : Fin 6) : (State.stationFraming s n).plan = s.plan := rfl
@[simp] theorem State.stationSecond_plan (s : State) (n : Fin 6) : (State.stationSecond s n).plan = s.plan := by
  unfold State.stationSecond
  split <;> simp
@[simp] theorem State.classifying_plan (s : State) (src : Source) (i : Item) : (State.classifying s src i).plan = s.plan := rfl
@[simp] theorem State.takeFrom_plan (s : State) (src : Source) : (State.takeFrom s src).plan = s.plan := by
  unfold State.takeFrom
  repeat' split
  all_goals simp
@[simp] theorem State.gainWork_plan (s : State) (src : Source) : (State.gainWork s src).plan = s.plan := by
  unfold State.gainWork
  repeat' split
  all_goals simp
@[simp] theorem State.searchNext_plan (s : State) : (State.searchNext s).plan = s.plan := by
  dsimp only [State.searchNext]
  repeat' split
  all_goals simp
@[simp] theorem State.lateNotice_plan (s : State) (p : Nat) (ss : Session) (expected corrected : Bool) :
    (s.lateNotice p ss expected corrected).plan = s.plan := by
  unfold State.lateNotice
  split <;> simp
@[simp] theorem State.applyArrival_plan (s : State) (p t : Nat) (ss : Session) (m : Mark) (minutes : Nat) :
    (s.applyArrival p t ss m minutes).1.plan = s.plan := by
  have arrived := s.deskArrival_plan p ss m minutes t
  unfold State.applyArrival
  split
  all_goals rename_i e; rw [e] at arrived
  · exact arrived
  · exact arrived
  · split
    · simpa using arrived
    · exact arrived
@[simp] theorem State.classify_plan (s : State) (i : Item) : (State.classify s i).1.plan = s.plan := by
  unfold State.classify
  repeat' split
  all_goals simp
@[simp] theorem State.officeAnswer_plan (s : State) (e : OfficeEntry) (v : Verdict) : (State.officeAnswer s e v).plan = s.plan := rfl
@[simp] theorem State.stationAnswer_plan (s : State) (n : Fin 6) (a : Arrival) (v : Verdict) :
    (State.stationAnswer s n a v).plan = s.plan := by
  unfold State.stationAnswer
  split <;> simp
@[simp] theorem State.giveAnswer_plan (s : State) (i : Item) (v : Verdict) : (State.giveAnswer s i v).plan = s.plan := by
  unfold State.giveAnswer
  split <;> simp
@[simp] theorem State.completeClassification_plan (s : State) : (State.completeClassification s).plan = s.plan := by
  unfold State.completeClassification
  split <;> simp
@[simp] theorem State.deskSample_plan (s : State) : (State.deskSample s).plan = s.plan := rfl
@[simp] theorem reqDeskArrival_plan (key value : Nat) (arrival : Option RawTime) (s : State) :
    (reqDeskArrival key value arrival s).1.plan = s.plan := by
  dsimp only [reqDeskArrival]
  repeat' split
  · exact State.gainWork_plan _ _
  all_goals rfl
@[simp] theorem reqSlipReprint_plan (pupil session : Nat) (s : State) : (reqSlipReprint pupil session s).1.plan = s.plan := by
  dsimp only [reqSlipReprint]
  split
  · rfl
  · split
    · split
      · rfl
      · split
        all_goals rename_i e; exact (congrArg (fun x => x.1.plan) e.symm).trans (s.joinSlip_plan _)
    · rfl
@[simp] theorem State.absentSessions_plan (s : State) (p : Nat) (l : List Session) : (s.absentSessions p l).1.plan = s.plan := by
  induction l generalizing s with
  | nil => rfl
  | cons ss l ih => exact (ih _).trans (s.parentAbsent_plan p ss)
@[simp] theorem routeToday_plan (x : State × Routed) (p : Nat) : (routeToday x p).1.plan = x.1.plan := by
  unfold routeToday
  split
  · rfl
  · exact x.1.absentSessions_plan _ _
@[simp] theorem routeAdvance_plan (d : Date) (report : Option Nat) (x : State × Routed) (p : Nat) :
    (routeAdvance d report x p).1.plan = x.1.plan := by
  simp [routeAdvance]
@[simp] theorem State.routeAbsence_plan (s : State) (n : Nat) (ps : List Nat) (d : Date) (reason : Bool) :
    (s.routeAbsence n ps d reason).1.plan = s.plan := by
  unfold State.routeAbsence
  split
  · exact foldl_kept (fun x : State × Routed => x.1.plan) routeToday_plan _ _
  · split
    · exact foldl_kept (fun x : State × Routed => x.1.plan) (routeAdvance_plan d _) _ _
    · rfl
@[simp] theorem State.takeLateness_plan (s : State) (p : Nat) (ss : Session) (ended : Bool) :
    (State.takeLateness s p ss ended).1.plan = s.plan := by
  dsimp only [State.takeLateness]
  repeat' split
  all_goals simp
@[simp] theorem routeLate_plan (x : State × Routed) (p : Nat) : (routeLate x p).1.plan = x.1.plan := by
  unfold routeLate
  split <;> simp
@[simp] theorem State.routeLateness_plan (s : State) (ps : List Nat) : (s.routeLateness ps).1.plan = s.plan := by
  unfold State.routeLateness
  split
  · exact foldl_kept (fun x : State × Routed => x.1.plan) routeLate_plan _ _
  · rfl
@[simp] theorem State.keepReport_plan (s : State) (n : Nat) (k : KeepReasons) (answers : List (Nat × List Answer)) :
    (State.keepReport s n k answers).plan = s.plan := rfl
@[simp] theorem State.settleReport_plan (s : State) (n : Nat) (k : KeepReasons) (answers : List (Nat × List Answer)) :
    (State.settleReport s n k answers).plan = s.plan := by
  unfold State.settleReport
  repeat' split
  all_goals simp
@[simp] theorem State.requestReceipt_plan (s : State) (sender : Text) (n : Nat) : (s.requestReceipt sender n).plan = s.plan := by
  unfold State.requestReceipt
  split <;> simp
@[simp] theorem State.setKind_plan (s : State) (n : Nat) (k : MsgKind) : (State.setKind s n k).plan = s.plan := rfl
@[simp] theorem State.unmatchedReport_plan (s : State) (n : Nat) (reason : Bool) : (State.unmatchedReport s n reason).plan = s.plan := by
  simp [State.unmatchedReport]
@[simp] theorem State.finishReport_plan (x : State × Routed) (n : Nat) (sender : Text) (reason : Bool) :
    (State.finishReport x n sender reason).plan = x.1.plan := by
  simp [State.finishReport]
@[simp] theorem State.parseReport_plan (s : State) (n : Nat) : (State.parseReport s n).plan = s.plan := by
  unfold State.parseReport
  repeat' split
  all_goals simp
@[simp] theorem State.parseHeld_plan (s : State) : s.parseHeld.plan = s.plan := foldl_kept State.plan State.parseReport_plan s _
@[simp] theorem State.gwBad_plan (s : State) : (State.gwBad s).plan = s.plan := rfl
@[simp] theorem State.gwInbound_plan (s : State) (sender text : Text) : (s.gwInbound sender text).plan = s.plan := by
  dsimp only [State.gwInbound]
  split
  · rfl
  · rename_i t n e
    have stored := State.storeReport_plan e
    split
    · exact stored
    · rw [State.parseReport_plan]
      exact stored
@[simp] theorem State.gwClear_plan (s : State) : (State.gwClear s).plan = s.plan := rfl
@[simp] theorem State.gwAbandon_plan (s : State) : (State.gwAbandon s).plan = s.plan := by
  unfold State.gwAbandon
  split <;> simp
@[simp] theorem State.gwGapSecond_plan (s : State) : (State.gwGapSecond s).plan = s.plan := by
  unfold State.gwGapSecond
  repeat' split
  all_goals simp
@[simp] theorem State.gwSent_plan (s : State) : (State.gwSent s).plan = s.plan := by
  unfold State.gwSent
  split <;> simp
@[simp] theorem reqMessageCancel_plan (number : Nat) (s : State) : (reqMessageCancel number s).1.plan = s.plan := by
  unfold reqMessageCancel
  repeat' split
  all_goals simp
@[simp] theorem reqInboundNext_plan (s : State) : (reqInboundNext s).1.plan = s.plan := by
  unfold reqInboundNext
  repeat' split
  all_goals simp
@[simp] theorem reqMessageSend_plan (pupil session : Nat) (what : RawSend) (s : State) :
    (reqMessageSend pupil session what s).1.plan = s.plan := by
  unfold reqMessageSend
  split
  · rfl
  · split
    · rfl
    · split
      · rfl
      · cases what <;> simp
@[simp] theorem State.takeEntry_plan (s : State) (g : Nat) (ss : Session) (late : Bool) (e : Nat × Entry) :
    (s.takeEntry g ss late e).1.plan = s.plan := by
  dsimp only [State.takeEntry]
  repeat' split
  all_goals simp
@[simp] theorem State.takeEntries_plan (s : State) (g : Nat) (ss : Session) (late : Bool) (l : List (Nat × Entry)) :
    (s.takeEntries g ss late l).1.plan = s.plan := by
  induction l generalizing s with
  | nil => rfl
  | cons e l ih => exact (ih _).trans (s.takeEntry_plan g ss late e)
@[simp] theorem State.takeRegister_plan (s : State) (g : Nat) (ss : Session) (late : Bool) (l : List (Nat × Entry)) :
    (s.takeRegister g ss late l).1.plan = s.plan := s.takeEntries_plan g ss late l
@[simp] theorem reqRegisterSubmit_plan (group session : Nat) (entries : List RawEntry) (s : State) :
    (reqRegisterSubmit group session entries s).1.plan = s.plan := by
  dsimp only [reqRegisterSubmit]
  repeat' split
  all_goals simp
@[simp] theorem State.officeMark_plan (s : State) (p : Nat) (ss : Session) (m : Mark) (minutes : Nat) (lock : Bool) (arrival : Option Nat) :
    (State.officeMark s p ss m minutes lock arrival).1.plan = s.plan := by
  dsimp only [State.officeMark]
  repeat' split
  all_goals simp
theorem State.setMark_plan {s t : State} {pupil session mark minutes lock : Nat} {arrival : Option RawTime} {ss : Session}
    {e : MarkEffect} (h : s.setMark pupil session mark minutes lock arrival = .ok (ss, t, e)) : t.plan = s.plan := by
  unfold State.setMark at h
  repeat' split at h
  any_goals cases h
  rename_i st m x k _ _ _ _
  have marked := s.officeMark_plan pupil st m minutes k x
  rwa [(Prod.mk.inj (Except.ok.inj h)).2] at marked
@[simp] theorem reqMarkSet_plan (pupil session mark minutes lock : Nat) (arrival : Option RawTime) (s : State) :
    (reqMarkSet pupil session mark minutes lock arrival s).1.plan = s.plan := by
  unfold reqMarkSet
  split
  · rfl
  · exact State.setMark_plan ‹_›
@[simp] theorem State.dismissConflict_plan (s : State) (c : Conflict) : (State.dismissConflict s c).1.plan = s.plan := rfl
@[simp] theorem State.settleConflict_plan (s : State) (c : Conflict) (mark minutes : Nat) (arrival : Option RawTime) :
    (s.settleConflict c mark minutes arrival).1.plan = s.plan := by
  unfold State.settleConflict
  split
  · rfl
  · rename_i t _ h
    exact (t.removeConflict_plan c).trans (State.setMark_plan h)
@[simp] theorem reqConflictResolve_plan (id : Nat) (what : RawResolve) (s : State) : (reqConflictResolve id what s).1.plan = s.plan := by
  unfold reqConflictResolve
  repeat' split
  all_goals simp
@[simp] theorem State.cancelAdvance_plan (s : State) (a : Advance) (named : Sessions) :
    (State.cancelAdvance s a named).1.plan = s.plan := by
  unfold State.cancelAdvance
  split <;> simp
@[simp] theorem reqAdvanceCancel_plan (date : RawDate) (pupil sessions : Nat) (s : State) :
    (reqAdvanceCancel date pupil sessions s).1.plan = s.plan := by
  unfold reqAdvanceCancel
  repeat' split
  all_goals simp
@[simp] theorem State.giveReply_plan (s : State) (r : Reply) : (State.giveReply s r).plan = s.plan := by
  unfold State.giveReply
  split <;> simp
@[simp] theorem State.framingChar_plan (s : State) : (State.framingChar s).plan = s.plan := by
  unfold State.framingChar
  split <;> simp
@[simp] theorem State.frameTimeout_plan (s : State) : (State.frameTimeout s).plan = s.plan := by
  unfold State.frameTimeout
  split <;> simp
@[simp] theorem State.linkSecond_plan (s : State) : (State.linkSecond s).plan = s.plan := by
  unfold State.linkSecond
  repeat' split
  all_goals simp
@[simp] theorem State.beginCommitWrite_plan (s : State) (slot : Nat) (ph : CommitPhase) (page : Nat) :
    (State.beginCommitWrite s slot ph page).plan = s.plan := rfl
@[simp] theorem State.comeTo_plan (slot fuel p : Nat) (s : State) : (State.comeTo slot fuel p s).plan = s.plan := by
  induction fuel generalizing s p with
  | zero => rfl
  | succ fuel ih =>
    unfold State.comeTo
    split
    · rfl
    · split
      · rfl
      · split
        · rw [ih]
        · rfl
@[simp] theorem State.commitOn_plan (s : State) (slot : Nat) : (s.commitOn slot).plan = s.plan := by
  unfold State.commitOn
  split <;> simp
@[simp] theorem State.makeBad_plan (s : State) (slot p : Nat) : (s.makeBad slot p).plan = s.plan := by
  unfold State.makeBad
  split <;> rfl
@[simp] theorem State.openEntry_plan (s : State) : (State.openEntry s).plan = s.plan := rfl
@[simp] theorem State.startCommit_plan (s : State) : (State.startCommit s).plan = s.plan := by
  unfold State.startCommit
  repeat' split
  all_goals simp
@[simp] theorem State.startSave_plan (s : State) : (State.startSave s).plan = s.plan := rfl
@[simp] theorem State.saveWrite_plan (s : State) (ph : SavePhase) (sum page : Nat) : (State.saveWrite s ph sum page).plan = s.plan := rfl
@[simp] theorem State.endSave_plan (s : State) (ok : Bool) : (State.endSave s ok).plan = s.plan := rfl
@[simp] theorem State.saveVerified_plan (s : State) (ph : SavePhase) (sum : Nat) : (State.saveVerified s ph sum).plan = s.plan := by
  unfold State.saveVerified
  repeat' split
  all_goals simp
@[simp] theorem State.beginRead_plan (s : State) (r : ReadReq) (p : PageRead) : (State.beginRead s r p).plan = s.plan := rfl
@[simp] theorem State.serveRead_plan (s : State) (r : ReadReq) : (State.serveRead s r).plan = s.plan := by
  unfold State.serveRead
  split <;> simp
@[simp] theorem State.startWaitingRead_plan (s : State) : (State.startWaitingRead s).plan = s.plan := by
  unfold State.startWaitingRead
  split <;> simp
@[simp] theorem State.wantCommit_plan (s : State) : (State.wantCommit s).plan = s.plan := by
  unfold State.wantCommit
  split <;> simp
@[simp] theorem State.eraseDone_plan (s : State) : (State.eraseDone s).plan = s.plan := by
  unfold State.eraseDone
  split <;> simp
@[simp] theorem State.fillBuffer_plan (s : State) (p : Nat) : (State.fillBuffer s p).plan = s.plan := by
  unfold State.fillBuffer
  split <;> simp
@[simp] theorem State.blankOk_plan (s : State) (p : Nat) : (State.blankOk s p).plan = s.plan := by
  unfold State.blankOk
  split <;> simp
@[simp] theorem State.programDone_plan (s : State) : (State.programDone s).plan = s.plan := by
  unfold State.programDone
  split <;> simp
@[simp] theorem reqArchiveRead_plan (tag : Nat) (date : RawDate) (index count : Nat) (s : State) :
    (reqArchiveRead tag date index count s).1.plan = s.plan := by
  dsimp only [reqArchiveRead]
  repeat' split
  all_goals simp
@[simp] theorem reqSettingsSave_plan (s : State) : (reqSettingsSave s).1.plan = s.plan := by
  unfold reqSettingsSave
  split <;> simp
@[simp] theorem State.applyAdvanceTo_plan (s : State) (a : Advance) (ss : Session) : (State.applyAdvanceTo s a ss).plan = s.plan := by
  unfold State.applyAdvanceTo
  split <;> simp
@[simp] theorem applyAdvance_plan (day : Date) (s : State) (a : Advance) : (applyAdvance day s a).plan = s.plan := by
  unfold applyAdvance
  repeat' split
  all_goals simp
@[simp] theorem State.applyAdvances_plan (s : State) (day : Date) : (s.applyAdvances day).plan = s.plan :=
  foldl_kept State.plan (applyAdvance_plan day) s _
@[simp] theorem State.clearConflicts_plan (s : State) : (State.clearConflicts s).plan = s.plan := rfl
@[simp] theorem State.notHeld_plan (ss : Session) (s : State) (g : Nat) : (State.notHeld ss s g).plan = s.plan := by
  unfold State.notHeld
  split <;> simp
@[simp] theorem State.settleSession_plan (s : State) (t : Fin 4) (ss : Session) : (s.settleSession t ss).plan = s.plan := by
  unfold State.settleSession
  split
  · simp
  · exact foldl_kept State.plan (State.notHeld_plan ss) _ _
  · rfl
@[simp] theorem State.settleSessions_plan (s : State) : s.settleSessions.plan = s.plan :=
  foldl_kept State.plan (fun t i => by simp) s _
@[simp] theorem State.settleAlerts_plan (s : State) : (State.settleAlerts s).plan = s.plan := by
  simp [State.settleAlerts]
@[simp] theorem State.passMidnight_plan (s : State) : (State.passMidnight s).plan = s.plan := by
  unfold State.passMidnight
  split <;> simp
@[simp] theorem State.countSecond_plan (s : State) : (State.countSecond s).plan = s.plan := by
  unfold State.countSecond
  split <;> simp
@[simp] theorem State.bellSecond_plan (s : State) (peak : Quad Nat) : (s.bellSecond peak).plan = s.plan :=
  foldl_kept State.plan (fun t _ => t.onZone_plan _ _) s _
@[simp] theorem State.stationsSecond_plan (s : State) : s.stationsSecond.plan = s.plan :=
  foldl_kept State.plan State.stationSecond_plan s _
@[simp] theorem State.sessionCloses_plan (s : State) (t : Fin 4) (ss : Session) : (State.sessionCloses s t ss).plan = s.plan := by
  unfold State.sessionCloses
  repeat' split
  all_goals simp
@[simp] theorem State.alertFallsDue_plan (s : State) (p : Nat) (ss : Session) : (State.alertFallsDue s p ss).plan = s.plan := by
  unfold State.alertFallsDue
  split <;> simp
@[simp] theorem reqZoneRing_plan (zone : Nat) (s : State) : (reqZoneRing zone s).1.plan = s.plan := by
  unfold reqZoneRing
  repeat' split
  all_goals simp
@[simp] theorem State.joinFrame_plan (s : State) (w : Waiting) : (State.joinFrame s w).plan = s.plan := by
  unfold State.joinFrame
  split <;> simp
@[simp] theorem State.lengthError_plan (s : State) (length : Nat) : (State.lengthError s length).plan = s.plan := by
  unfold State.lengthError
  split <;> simp
@[simp] theorem State.settle_plan (before after : State) : (before.settle after).plan = after.plan := by simp [State.settle]
theorem State.onLine_plan (s : State) (n : Fin 6) {f : State → State} (hf : (f s).plan = s.plan) : (s.onLine n f).plan = s.plan := by
  unfold State.onLine
  split
  · simpa using hf
  · rfl
@[simp] theorem State.recordAbandoned_plan (s : State) (n : Fin 6) : (State.recordAbandoned s n).plan = s.plan := by
  unfold State.recordAbandoned
  split <;> simp

end Sys2Proof.Machine
end

