-- ==== Sys2Proof/Proofs/PlanBounds.lean ====
section
/-! SUPPORT. R29's bounds: a plan in force that is built, compressed or followed keeps them, and no step takes one out of them. -/

namespace Sys2Proof.Machine

/-! ## Plans in force within their bounds -/

/-- A segment in force without its begun flag. -/
def SegIF.cut (g : SegIF) : Segment × Nat := (g.seg, g.len)

theorem map_of_cut {α : Type} (f : Segment × Nat → α) {l m : List SegIF} (h : l.map SegIF.cut = m.map SegIF.cut) :
    l.map (fun g => f (g.seg, g.len)) = m.map fun g => f (g.seg, g.len) := by
  have hf := congrArg (List.map f) h
  rw [List.map_map, List.map_map] at hf
  exact hf

/-- The bounds are about the segments and their current lengths alone. -/
theorem PlanIF.within.of_cut {p q : PlanIF} {d e : Nat} (h : p.within d e) (hq : q.segs.map SegIF.cut = p.segs.map SegIF.cut) :
    q.within d e := by
  obtain ⟨hall, hsum⟩ := h
  have hlen : q.segs.map (·.len) = p.segs.map (·.len) := map_of_cut Prod.snd hq
  have hnom : q.segs.map (·.seg.nominal) = p.segs.map (·.seg.nominal) := map_of_cut (fun x => x.1.nominal) hq
  refine ⟨fun g hg => ?_, by rw [hlen, hnom, hsum]⟩
  obtain ⟨f, hf, e⟩ := List.mem_map.mp (hq ▸ List.mem_map_of_mem (f := SegIF.cut) hg)
  obtain ⟨hseg, hlen⟩ := Prod.mk.inj e
  exact hseg ▸ hlen ▸ hall f hf

theorem markBegun_cut (secs t : Nat) (l : List SegIF) : (markBegun secs t l).map SegIF.cut = l.map SegIF.cut := by
  induction l generalizing t with
  | nil => rfl
  | cons g l ih => exact congrArg (g.cut :: ·) (ih _)

theorem beginSegment_cut (n : Nat) (l : List SegIF) : (beginSegment n l).map SegIF.cut = l.map SegIF.cut := by
  induction l generalizing n with
  | nil => cases n <;> rfl
  | cons g l ih =>
    cases n with
    | zero => rfl
    | succ n => exact congrArg (g.cut :: ·) (ih n)

/-- R34: compression keeps every length within its bounds, and takes the total out of their sum. -/
theorem compress_bounds {total : Nat} {elig : SegIF → Bool} {segs out : List SegIF} (h : compress total elig segs = .ok out)
    (hs : ∀ g ∈ segs, g.seg.minimum ≤ g.len ∧ g.len ≤ g.seg.nominal) :
    out.map (·.seg) = segs.map (·.seg) ∧ (∀ c ∈ out, c.seg.minimum ≤ c.len ∧ c.len ≤ c.seg.nominal) ∧
      (out.map (·.len)).sum + total = (segs.map (·.len)).sum := by
  obtain ⟨short, enough⟩ := compressionCutsInProportion total elig segs fun g hg _ => (hs g hg).1
  have hle : total ≤ (segs.map fun g => if elig g then g.len - g.seg.minimum else 0).sum := by
    by_contra hlt
    cases (short (Nat.lt_of_not_le hlt)).symm.trans h
  obtain ⟨out', hout, hlen, hsum, hsegs⟩ := enough hle
  cases hout.symm.trans h
  refine ⟨List.ext_getElem? fun i => ?_, fun c hc => ?_, hsum⟩
  · rw [List.getElem?_map, List.getElem?_map]
    rcases hi : segs[i]? with _ | g
    · have : out[i]? = none := by rw [List.getElem?_eq_none_iff] at hi ⊢; omega
      rw [this]
    · obtain ⟨c, hc⟩ : ∃ c, out[i]? = some c :=
        ⟨_, List.getElem?_eq_getElem (hlen ▸ (List.getElem?_eq_some_iff.mp hi).1)⟩
      rw [hc]
      exact congrArg some (hsegs i g c hi hc).1
  · obtain ⟨i, hi, rfl⟩ := List.mem_iff_getElem.mp hc
    have hi' : i < segs.length := hlen ▸ hi
    obtain ⟨hseg, -, hlow, helig, hnot, -⟩ :=
      hsegs i segs[i] out[i] (List.getElem?_eq_getElem hi') (List.getElem?_eq_getElem hi)
    obtain ⟨hmin, hnom⟩ := hs _ (List.getElem_mem hi')
    refine ⟨?_, hseg ▸ hlow.trans hnom⟩
    cases he : elig segs[i] with
    | true => exact hseg ▸ helig he
    | false => exact hseg ▸ (hnot he).symm ▸ hmin

theorem nominalPlan_bounds {p : Plan} (h : ∀ g ∈ p.segs, g.minimum ≤ g.nominal) :
    ∀ g ∈ (nominalPlan p).segs, g.seg.minimum ≤ g.len ∧ g.len ≤ g.seg.nominal := by
  intro g hg
  obtain ⟨x, hx, rfl⟩ := List.mem_map.mp hg
  exact ⟨h x hx, le_refl _⟩

/-- R29: what a built track holds. -/
theorem buildTrack_bounds {p : Plan} {kind : Option DayKind} {d e secs : Nat} {y : Track} (hp : ∀ g ∈ p.segs, g.minimum ≤ g.nominal)
    (h : buildTrack p kind d e secs = .ok y) :
    ∃ q : PlanIF, y.plan = some q ∧ q.start = p.start ∧ q.segs.map (·.seg) = p.segs ∧ q.within d e := by
  obtain ⟨-, -, -, segs, hsegs, hplan⟩ := buildTrack_ok h
  obtain ⟨hseg, hall, hsum⟩ := compress_bounds hsegs (nominalPlan_bounds hp)
  have hseg' : segs.map (·.seg) = p.segs := hseg.trans (by simp [nominalPlan, Function.comp_def])
  have within : ({ nominalPlan p with segs := segs } : PlanIF).within d e := by
    refine ⟨hall, ?_⟩
    have hnom : segs.map (·.seg.nominal) = p.segs.map (·.nominal) := by
      rw [← hseg', List.map_map]
      rfl
    have hlens : (nominalPlan p).segs.map (·.len) = p.segs.map (·.nominal) := by simp [nominalPlan]
    rw [hlens] at hsum
    show (segs.map (·.len)).sum + d + e = (segs.map (·.seg.nominal)).sum
    rw [hnom]
    omega
  refine ⟨_, hplan, rfl, ?_, PlanIF.within.of_cut within (markBegun_cut secs (p.start + d) segs)⟩
  exact (map_of_cut Prod.fst (markBegun_cut secs (p.start + d) segs)).trans hseg'

/-! ## Tracks within their bounds (R29) -/

/-- The plan in force of a track keeps R29. -/
def Track.holds (x : Track) : Prop := ∀ p : PlanIF, x.plan = some p → p.within x.delay x.early

theorem Track.holds_of_build {p : Plan} {kind : Option DayKind} {d e secs : Nat} {y : Track} (hp : ∀ g ∈ p.segs, g.minimum ≤ g.nominal)
    (h : buildTrack p kind d e secs = .ok y) : y.holds := by
  obtain ⟨-, hd, he, -⟩ := buildTrack_ok h
  obtain ⟨q, hq, -, -, within⟩ := buildTrack_bounds hp h
  intro r hr
  cases hq.symm.trans hr
  exact hd ▸ he ▸ within

namespace Track.holds
variable {x y : Track}

theorem of_plan (h : x.holds) (hp : y.plan = x.plan) (hd : y.delay = x.delay) (he : y.early = x.early) : y.holds :=
  fun p hy => hd ▸ he ▸ h p (hp ▸ hy)

theorem rebuild (h : x.holds) {d e secs : Nat} (hy : rebuildTrack x d e secs = .ok y) : y.holds := by
  unfold rebuildTrack at hy
  split at hy
  · cases hy
    exact h
  · rename_i p hp
    refine Track.holds_of_build (fun g hg => ?_) hy
    obtain ⟨f, hf, rfl⟩ := List.mem_map.mp hg
    obtain ⟨hmin, hnom⟩ := (h p hp).1 f hf
    exact hmin.trans hnom

theorem compressRunning (h : x.holds) {n : Nat} (hy : compressRunning x n = .ok y) : y.holds := by
  unfold Machine.compressRunning at hy
  split at hy
  · cases hy
    exact h
  · rename_i p hp
    obtain ⟨hall, hsum⟩ := h p hp
    split at hy
    · cases hy
    · rename_i segs hsegs
      cases hy
      intro q hq
      cases hq
      obtain ⟨hseg, hall', hsum'⟩ := compress_bounds hsegs hall
      refine ⟨hall', ?_⟩
      have hnom : segs.map (·.seg.nominal) = p.segs.map (·.seg.nominal) := by
        have hnom := congrArg (List.map Segment.nominal) hseg
        rw [List.map_map, List.map_map] at hnom
        exact hnom
      show (segs.map (·.len)).sum + x.delay + (x.early + n) = (segs.map (·.seg.nominal)).sum
      rw [hnom]
      omega

theorem closeEarly (h : x.holds) {n secs : Nat} (hy : closeEarly x n secs = .ok y) : y.holds := by
  unfold Machine.closeEarly at hy
  split at hy
  · exact h.rebuild hy
  · exact h.compressRunning hy

theorem follow (h : x.holds) (secs : Nat) (past : Bool) : (x.follow secs past).holds := by
  unfold Track.follow
  split
  · exact h
  · exact h
  · rename_i _ p hp _
    intro q hq
    cases hq
    refine PlanIF.within.of_cut (h p hp) ?_
    show List.map SegIF.cut (if past then _ else _) = _
    split
    · rw [List.map_map]
      rfl
    · exact markBegun_cut _ _ _

end Track.holds

/-- Every track keeps R29. -/
def State.tracksHold (s : State) : Prop := ∀ i : Fin 4, (s.plan.tracks.get i).holds

/-- The stored plans' minimums lie within their nominal lengths (section 2.3). -/
def Settings.plansSound (x : Settings) : Prop := ∀ e ∈ x.plans, ∀ g ∈ e.2.segs, g.minimum ≤ g.nominal

theorem Quad.get_set_same {α : Type} (q : Quad α) (i : Fin 4) (a : α) : (q.set i a).get i = a := by fin_cases i <;> rfl

theorem Quad.get_set_other {α : Type} (q : Quad α) {i j : Fin 4} (a : α) (h : j ≠ i) : (q.set i a).get j = q.get j := by
  fin_cases i <;> fin_cases j <;> simp_all [Quad.get, Quad.set]

namespace State.tracksHold
variable {s t : State}

theorem of_tracks (h : s.tracksHold) (ht : t.plan.tracks = s.plan.tracks) : t.tracksHold := fun i => ht ▸ h i

theorem of_plan (h : s.tracksHold) (ht : t.plan = s.plan) : t.tracksHold := h.of_tracks (congrArg Planner.tracks ht)

theorem setTrack (h : s.tracksHold) (i : Fin 4) {x : Track} (hx : x.holds) : (s.setTrack i x).tracksHold := by
  intro j
  show ((s.plan.tracks.set i x).get j).holds
  by_cases hj : j = i
  · rw [hj, Quad.get_set_same]
    exact hx
  · rw [Quad.get_set_other _ _ hj]
    exact h j

theorem foldl {β : Type} {f : State → β → State} (hf : ∀ (s : State) (x : β), s.tracksHold → (f s x).tracksHold) (h : s.tracksHold)
    (l : List β) : (l.foldl f s).tracksHold := by
  induction l generalizing s with
  | nil => exact h
  | cons x l ih => exact ih (hf s x h)

theorem followTrack (h : s.tracksHold) (i : Fin 4) : (s.followTrack i).tracksHold := by
  have followed := (h.setTrack i ((h i).follow s.clock.secs s.dayOver)).of_plan
    (((s.setTrack i ((s.track i).follow s.clock.secs s.dayOver))).followSessions_plan i)
  dsimp only [State.followTrack]
  split
  · exact followed.of_plan (withheldDue_plan _ i)
  · exact followed

theorem followTracks (h : s.tracksHold) : s.followTracks.tracksHold := by
  unfold State.followTracks
  split
  · exact foldl (fun _ i h => h.followTrack i) h _
  · exact h

theorem segmentBegins (h : s.tracksHold) (i : Fin 4) (n : Nat) : (s.segmentBegins i n).tracksHold := by
  dsimp only [State.segmentBegins]
  split
  · exact h
  · rename_i p hp
    split
    · refine (h.setTrack i fun q hq => ?_).of_plan ((openSessionAt_plan _ _ _).trans (openSessionAt_plan _ _ _))
      cases hq
      exact PlanIF.within.of_cut (h i p hp) (beginSegment_cut n p.segs)
    · exact h

theorem dayEnds (h : s.tracksHold) (i : Fin 4) : (s.dayEnds i).tracksHold := by
  dsimp only [State.dayEnds]
  split
  · have ended : Track.holds { s.track i with state := .ended } := (h i).of_plan rfl rfl rfl
    exact (h.setTrack i ended).of_plan (withheldDue_plan _ i)
  · exact h

theorem endTracks (h : s.tracksHold) : s.endTracks.tracksHold := by
  intro i
  have hi := h i
  fin_cases i <;> exact hi.of_plan rfl rfl rfl

end State.tracksHold

end Sys2Proof.Machine
end

