-- ==== Sys2Proof/Proofs/PlanInForce.lean ====
section
/-! SUPPORT. Every step keeps R29's bounds: the store's work and the day's own requests, the table writes, the settings load and the
resets. -/

namespace Sys2Proof.Machine

/-! ## The stored plans' own bounds (section 2.3) -/

theorem readSegment_bounds {l : List Byte} {g : Segment} (h : readSegment l = some g) : g.minimum ≤ g.nominal := by
  dsimp only [readSegment] at h
  split at h
  · split at h
    · cases h
      rename_i hb
      obtain ⟨-, -, -, hle⟩ := hb
      exact hle
    · cases h
  · cases h

theorem readSegments_bounds {n : Nat} {l : List Byte} {gs : List Segment} (h : readSegments n l = some gs) :
    ∀ g ∈ gs, g.minimum ≤ g.nominal := by
  induction n generalizing l gs with
  | zero =>
    cases h
    exact List.forall_mem_nil _
  | succ n ih =>
    unfold readSegments at h
    split at h
    · rename_i g gs' hg hgs
      cases h
      exact List.forall_mem_cons.mpr ⟨readSegment_bounds hg, ih hgs⟩
    · cases h

theorem readPlan_bounds {l : List Byte} {p : Plan} {c : Bool} (h : readPlan l = some (p, c)) : ∀ g ∈ p.segs, g.minimum ≤ g.nominal := by
  dsimp only [readPlan] at h
  split at h
  · cases h
  · rename_i segs hsegs
    split at h
    · cases h
      exact readSegments_bounds hsegs
    · cases h

theorem factoryPlan_bounds (i : Nat) : ∀ g ∈ (factoryPlan i).segs, g.minimum ≤ g.nominal := by
  show ∀ g ∈ (factoryPlan 0).segs, g.minimum ≤ g.nominal
  decide

/-- What is listed after a write is what was written or was listed before. -/
theorem Tab.mem_put {α : Type} [DecidableEq α] {dflt : Nat → α} {t : Tab α} {i : Nat} {v : α} {e : Nat × α}
    (h : e ∈ Tab.put dflt t i v) : e = (i, v) ∨ e ∈ t := by
  unfold Tab.put at h
  split at h
  · right
    induction t with
    | nil => cases h
    | cons f t ih => grind [Tab.erase]
  · induction t with
    | nil => exact .inl (List.mem_singleton.mp h)
    | cons f t ih => grind [Tab.insert]

theorem Tab.mem_ofList {α : Type} [DecidableEq α] {dflt : Nat → α} {i : Nat} {l : List α} {e : Nat × α}
    (h : e ∈ Tab.ofList dflt i l) : e.2 ∈ l := by
  induction l generalizing i with
  | nil => cases h
  | cons a l ih =>
    unfold Tab.ofList at h
    split at h
    · exact List.mem_cons_of_mem _ (ih h)
    · rcases List.mem_cons.mp h with rfl | h
      · exact List.mem_cons_self ..
      · exact List.mem_cons_of_mem _ (ih h)

theorem Tab.get_mem_or {α : Type} (dflt : Nat → α) (t : Tab α) (i : Nat) : Tab.get dflt t i = dflt i ∨ (i, Tab.get dflt t i) ∈ t := by
  induction t with
  | nil => exact .inl rfl
  | cons f t ih => grind [Tab.get]

theorem readMany_mem {α : Type} {read : List Byte → Option α} {stride n : Nat} {l : List Byte} {t : List α} {a : α}
    (h : readMany read stride n l = some t) (ha : a ∈ t) : ∃ b : List Byte, read b = some a := by
  induction n generalizing l t with
  | zero =>
    cases h
    cases ha
  | succ n ih =>
    unfold readMany at h
    split at h
    · rename_i x t' hx ht'
      cases h
      rcases List.mem_cons.mp ha with rfl | ha
      · exact ⟨_, hx⟩
      · exact ih ht' ha
    · cases h

theorem Settings.ofImage_plansSound {l : List Byte} {x : Settings} (h : Settings.ofImage l = some x) : x.plansSound := by
  dsimp only [Settings.ofImage] at h
  split at h
  · rename_i hpl _ _ _ _ _
    split at h
    · cases h
      intro e he
      obtain ⟨b, hb⟩ := readMany_mem hpl (Tab.mem_ofList he)
      unfold unclamped at hb
      split at hb
      · rename_i hread
        cases hb
        exact readPlan_bounds hread
      · cases hb
    · cases h
  · cases h

theorem Store.loadSettings_plansSound (x : Store) : (x.loadSettings.getD factorySettings).plansSound := by
  unfold Store.loadSettings
  cases hs : x.saved.bind Settings.ofImage with
  | none => exact List.forall_mem_nil _
  | some y =>
    obtain ⟨l, -, hy⟩ := Option.bind_eq_some_iff.mp hs
    exact Settings.ofImage_plansSound hy

theorem State.storedPlan_bounds {s : State} (h : s.set.plansSound) (i : Nat) : ∀ g ∈ (s.storedPlan i).segs, g.minimum ≤ g.nominal := by
  rcases Tab.get_mem_or factoryPlan s.set.plans i with e | e
  · exact (congrArg Plan.segs e) ▸ factoryPlan_bounds i
  · exact h _ e

/-! ## The tracks through the store's work (R174, R178 to R191) -/

namespace State
variable (s : State)

theorem endCommit_tracks (o : CommitOutcome) (c : Condition) : (s.endCommit o c).plan.tracks = s.plan.tracks := rfl

theorem directoryFailed_tracks (c : Commit) : (s.directoryFailed c).plan.tracks = s.plan.tracks := by
  dsimp only [State.directoryFailed]
  rw [endCommit_tracks]
  split <;> rfl

theorem commitVerified_tracks (c : Commit) : (s.commitVerified c).plan.tracks = s.plan.tracks := by
  unfold State.commitVerified
  split <;> simp [endCommit_tracks]

theorem commitFailed_tracks (c : Commit) : (s.commitFailed c).plan.tracks = s.plan.tracks := by
  unfold State.commitFailed
  split <;> simp [directoryFailed_tracks]

theorem rebuildDone_tracks (acc : Tab Tally) : (s.rebuildDone acc).plan.tracks = s.plan.tracks := by simp [State.rebuildDone]

theorem startRebuild_tracks : s.startRebuild.plan.tracks = s.plan.tracks := by
  dsimp only [State.startRebuild]
  split
  · exact s.rebuildDone_tracks []
  · rfl

theorem startPending_tracks : s.startPending.plan.tracks = s.plan.tracks := by
  unfold State.startPending
  split <;> simp [startRebuild_tracks]

theorem wantRebuild_tracks : s.wantRebuild.plan.tracks = s.plan.tracks := by
  unfold State.wantRebuild
  split
  · rfl
  · exact s.startRebuild_tracks

theorem pageFailed_tracks (p : Nat) : (s.pageFailed p).plan.tracks = s.plan.tracks := by
  dsimp only [State.pageFailed]
  split
  · rw [commitFailed_tracks]
    split <;> simp
  · simp
  · simp

theorem blankChecked_tracks (ok : Bool) : (s.blankChecked ok).plan.tracks = s.plan.tracks := by
  unfold State.blankChecked
  repeat' split
  all_goals simp [pageFailed_tracks]

theorem pageWritten_tracks (p : Nat) : (s.pageWritten p).plan.tracks = s.plan.tracks := by
  dsimp only [State.pageWritten]
  split <;> simp [commitVerified_tracks]

theorem verified_tracks (ok : Bool) : (s.verified ok).plan.tracks = s.plan.tracks := by
  unfold State.verified
  repeat' split
  all_goals simp [pageFailed_tracks, pageWritten_tracks]

theorem rebuildRead_tracks (r : PageRead) (rest : List PageRead) (acc : Tab Tally) :
    (s.rebuildRead r rest acc).plan.tracks = s.plan.tracks := by
  dsimp only [State.rebuildRead]
  split
  · exact s.rebuildDone_tracks _
  · rfl

theorem archiveRead_tracks (r : ReadReq) (p : PageRead) (rest : List PageRead) (got : List DayRecord) :
    (s.archiveRead r p rest got).plan.tracks = s.plan.tracks := by
  dsimp only [State.archiveRead]
  split
  · simp [startPending_tracks]
  · rfl

theorem readDone_tracks : s.readDone.plan.tracks = s.plan.tracks := by
  unfold State.readDone
  repeat' split
  · exact s.rebuildRead_tracks _ _ _
  · exact s.archiveRead_tracks _ _ _ _
  all_goals rfl

end State

/-! ## The school day's own work -/

namespace State.tracksHold
variable {s t : State}

theorem performClose (h : s.tracksHold) : s.performClose.tracksHold := by
  have ended : (State.endTracks { s with plan.dayState := .closing }).tracksHold :=
    endTracks (h.of_tracks (t := { s with plan.dayState := .closing }) rfl)
  refine ended.of_plan ?_
  simp only [State.performClose, wantCommit_plan, emptyConflicts_plan, onZones_plan, settleAlerts_plan, settleSessions_plan]

theorem midnightClose (h : s.tracksHold) : s.midnightClose.tracksHold := by
  unfold State.midnightClose
  split
  · split
    · exact h
    · exact h.performClose
  · exact h
  · exact h

theorem settleDeferred (h : s.tracksHold) : s.settleDeferred.tracksHold := by
  unfold State.settleDeferred
  split
  · exact performClose h
  · exact h

theorem openDay (day : Date) {tracks : Quad Track} (h : ∀ i : Fin 4, (tracks.get i).holds) : (s.openDay day tracks).tracksHold := by
  have opening : State.tracksHold { s with plan := ⟨.opening, some day, tracks, false⟩, slips.next := 1 } := h
  refine opening.of_plan ?_
  dsimp only [State.openDay, State.rebuildBells]
  simp only [onZones_plan, clearGwStats_plan, clearPoolStats_plan, clearDeskStats_plan, foldl_kept State.plan State.followSessions_plan,
    applyAdvances_plan, clearConflicts_plan, clearRegister_plan]

theorem acceptOpen (day : Date) {tracks : Quad Track} (h : ∀ i : Fin 4, (tracks.get i).holds) :
    (s.acceptOpen day tracks).tracksHold :=
  ((openDay day h).of_tracks (State.wantRebuild_tracks _)).settleDeferred

theorem openTracks {kinds : Quad DayKind} {delays : Quad Nat} {tracks : Quad Track} (h : s.set.plansSound)
    (ht : s.openTracks kinds delays = .ok tracks) (i : Fin 4) : (tracks.get i).holds := by
  have built {i : Fin 4} {y : Track} (hy : s.openTrack kinds delays i = .ok y) : y.holds :=
    Track.holds_of_build (s.storedPlan_bounds h _) hy
  unfold State.openTracks at ht
  split at ht
  any_goals cases ht
  fin_cases i <;> exact built ‹_›

theorem reqDayOpen (h : s.plansHold) (date : RawDate) (kinds : Quad Nat) (delays : Option (Quad Nat)) :
    (reqDayOpen date kinds delays s).1.tracksHold := by
  dsimp only [Machine.reqDayOpen]
  repeat' split
  case h_2 tracks ht => exact acceptOpen _ (openTracks h.1 ht)
  all_goals exact h.2

theorem reqDayClose (h : s.tracksHold) (force : Nat) : (reqDayClose force s).1.tracksHold := by
  unfold Machine.reqDayClose
  repeat' split
  · exact h
  · exact h
  · exact h
  · exact h
  · exact h.performClose

theorem republish (h : s.tracksHold) (i : Fin 4) {x : Track} (hx : x.holds) : (s.republish i x).tracksHold := h.setTrack i hx

theorem reqOpeningDelay (h : s.tracksHold) (track delay : Nat) : (reqOpeningDelay track delay s).1.tracksHold := by
  dsimp only [Machine.reqOpeningDelay]
  split
  · exact h
  · rename_i i _
    split
    · exact h
    · split
      · exact h
      · split
        · exact h
        · exact h.republish i ((h i).rebuild ‹_›)

theorem reqEarlyClose (h : s.tracksHold) (track minutes : Nat) : (reqEarlyClose track minutes s).1.tracksHold := by
  dsimp only [Machine.reqEarlyClose]
  split
  · exact h
  · rename_i i _
    split
    · exact h
    · split
      · exact h
      · exact h.republish i ((h i).closeEarly ‹_›)

theorem stepClock (h : s.tracksHold) (n : Nat) : (s.stepClock n).tracksHold := by
  dsimp only [State.stepClock]
  split
  · have skipped : State.tracksHold (State.onZones { s with clock.secs := n } fun _ => skipReached n) := h
    exact skipped.followTracks.of_plan (alertsDue_plan _)
  · exact h

theorem reqClockSet (h : s.tracksHold) (date : RawDate) (time : RawTime) : (reqClockSet date time s).1.tracksHold := by
  unfold Machine.reqClockSet
  split
  · split
    · exact h
    · split
      · exact h
      · exact h.stepClock _
  · exact h

theorem minute (h : s.tracksHold) : s.minute.tracksHold := h.followTracks.of_plan (ringDueBells_plan _)

theorem ite_op {c : Prop} [Decidable c] (h : s.tracksHold) (f : State → State) (hf : s.tracksHold → (f s).tracksHold) :
    (if c then f s else s).tracksHold := by
  split
  · exact hf h
  · exact h

theorem timesOfDay (h : s.tracksHold) (wrapped : Bool) : (s.timesOfDay wrapped).tracksHold := by
  have closed : State.tracksHold (if wrapped then s.midnightClose else s) :=
    h.ite_op State.midnightClose fun h => h.midnightClose
  exact (closed.ite_op State.minute fun h => h.minute).of_plan (alertsDue_plan _)

/-- A request other than TABLE WRITE. -/
theorem handle (h : s.plansHold) (tag : Nat) {r : Request} (hr : ∀ body : List Byte, r ≠ .tableWrite body) :
    (handle tag r s).1.tracksHold := by
  have ht : s.tracksHold := h.2
  cases r with
  | tableWrite body => exact absurd rfl (hr body)
  | dayOpen date kinds delays => exact reqDayOpen h date kinds delays
  | dayClose force => exact ht.reqDayClose force
  | openingDelay track delay => exact ht.reqOpeningDelay track delay
  | earlyClose track minutes => exact ht.reqEarlyClose track minutes
  | clockSet date time => exact ht.reqClockSet date time
  | settingsSave => exact ht.of_plan (reqSettingsSave_plan s)
  | zoneRing zone => exact ht.of_plan (reqZoneRing_plan zone s)
  | deskArrival key value arrival => exact ht.of_plan (reqDeskArrival_plan key value arrival s)
  | slipReprint pupil session => exact ht.of_plan (reqSlipReprint_plan pupil session s)
  | registerSubmit group session entries => exact ht.of_plan (reqRegisterSubmit_plan group session entries s)
  | markSet pupil session mark minutes lock arrival => exact ht.of_plan (reqMarkSet_plan pupil session mark minutes lock arrival s)
  | conflictResolve id what => exact ht.of_plan (reqConflictResolve_plan id what s)
  | advanceCancel date pupil sessions => exact ht.of_plan (reqAdvanceCancel_plan date pupil sessions s)
  | messageSend pupil session what => exact ht.of_plan (reqMessageSend_plan pupil session what s)
  | messageCancel number => exact ht.of_plan (reqMessageCancel_plan number s)
  | inboundNext => exact ht.of_plan (reqInboundNext_plan s)
  | archiveRead date index count => exact ht.of_plan (reqArchiveRead_plan tag date index count s)
  | _ =>
    -- the other requests read, or write what is not the Day Planner's
    dsimp only [Machine.handle, answered, reqHello, reqConditions, reqAttentionMask, reqReset, reqLampForce, reqTableSelect, reqTableRead,
      reqPupilFind, reqSenderFind, reqDayStatus, reqPlanQuery, reqZoneCheck, reqBellLog, reqZoneStatus, reqStationResume,
      reqStationStatus, reqDeskAnswers, reqSlipStatus, reqDeskStatistics, reqMarkQuery, reqGroupStatus, reqConflictList,
      reqAdvanceList, reqPoolStatus, reqMessageList, reqGatewayStatus, reqArchiveDirectory, reqStoreStatus]
    repeat' split
    all_goals exact ht

end State.tracksHold

/-! ## Every command -/

theorem State.lampsSecond_plan (s : State) : ({ s with lamps := s.lamps.second } : State).plan = s.plan := rfl

theorem Settings.plansSound.put {x : Settings} (h : x.plansSound) {i : Nat} {p : Plan} (hp : ∀ g ∈ p.segs, g.minimum ≤ g.nominal) :
    Settings.plansSound { x with plans := Tab.put factoryPlan x.plans i p } := by
  intro e he
  rcases Tab.mem_put he with rfl | he
  · exact hp
  · exact h e he

namespace State.plansHold
variable {s t : State}

/-- An operation that writes no stored plan and takes no track out of its bounds. -/
theorem with_tracks (h : s.plansHold) (hs : t.set.plans = s.set.plans) (ht : s.tracksHold → t.tracksHold) : t.plansHold :=
  ⟨fun e he => h.1 e (hs ▸ he), ht h.2⟩

theorem keeps (h : s.plansHold) (k : Keeps s t) (ht : s.tracksHold → t.tracksHold) : t.plansHold :=
  h.with_tracks (congrArg Settings.plans k.set) ht

theorem same (h : s.plansHold) (hs : t.set.plans = s.set.plans) (ht : t.plan.tracks = s.plan.tracks) : t.plansHold :=
  h.with_tracks hs fun h => h.of_tracks ht

/-- An operation of the blocks that only read the plans. -/
theorem kept (h : s.plansHold) (k : Keeps s t) (ht : t.plan = s.plan) : t.plansHold := h.keeps k fun h => h.of_plan ht

theorem foldl {β : Type} {f : State → β → State} (hf : ∀ (s : State) (x : β), s.plansHold → (f s x).plansHold) (h : s.plansHold)
    (l : List β) : (l.foldl f s).plansHold := by
  induction l generalizing s with
  | nil => exact h
  | cons x l ih => exact ih (hf s x h)

theorem submit (h : s.plansHold) (m : Message) (o : Outbound) : (s.submit m o).plansHold := by
  have waiting := h.kept (((Keeps.refl s).dequeue m.cls m.number).modOut m.number fun x =>
    { x with state := .sending s.sched.nextTag s.set.options.timeout }) rfl
  refine kept (s := { (s.dequeue m.cls m.number).modOut m.number _ with sched := _, gw := _ }) ?_ ((Keeps.refl _).alertMark _ _)
    (State.alertMark_plan _ _ _)
  exact waiting.same rfl rfl

theorem pump (h : s.plansHold) (fuel : Nat) : (State.pump fuel s).plansHold := by
  induction fuel generalizing s with
  | zero => exact h
  | succ fuel ih =>
    unfold State.pump
    split
    · split
      · exact h
      · split
        · exact h
        · split
          · exact ih (h.submit _ _)
          · exact h
    · exact h

theorem settle (h : s.plansHold) (before : State) : (before.settle s).plansHold := (h.pump 4).same rfl rfl

theorem run (h : t.plansHold) {u : State} (e : run s t = .next u) : u.plansHold := by
  cases e
  exact h.settle s

/-! ## The gateway's link -/

theorem gwReady (h : s.plansHold) (w : Window) : (s.gwReady w).plansHold :=
  (h.same (t := { s with gw.up := true, gw.window := some w, gw.since := 0 }) rfl rfl).kept ((Keeps.refl _).recallEach _)
    (State.recall_plan _ _)

theorem gwDown (h : s.plansHold) : s.gwDown.plansHold := by
  unfold State.gwDown
  split
  · refine kept (s := State.raise { s with gw.up := false, gw.window := none, gw.since := 60, gw.stats.downs := _ } .gatewayDown) ?_
      ((Keeps.refl _).recallEach _) (State.recall_plan _ _)
    exact h
  · exact h

theorem gwSecond (h : s.plansHold) : s.gwSecond.plansHold := by
  unfold State.gwSecond
  split
  · split
    · exact h.gwDown
    · exact h
  · exact h

theorem gwTake (h : s.plansHold) (x : Option GwIn) : (s.gwTake x).plansHold := by
  unfold State.gwTake
  split
  · exact h.gwReady _
  · exact h.kept ((Keeps.refl s).takeResult _ _) (State.takeResult_plan _ _ _)
  · exact h.kept ((Keeps.refl s).gwInbound _ _) (State.gwInbound_plan _ _ _)
  · exact h

theorem gwChar (h : s.plansHold) (c : Byte) : (s.gwChar c).plansHold := by
  dsimp only [State.gwChar]
  split
  · split <;> exact h
  · split
    · exact gwTake (s := s.gwClear) h _
    · exact h

theorem countDown (h : s.plansHold) (peak : Quad Nat) : (s.countDown peak).plansHold := by
  have lines := (Keeps.refl s).deskSample.linkSecond.stationsSecond.gwGapSecond
  have counted := ((lines.bellSecond peak).slipSecond.waitsSecond).deliverySecond
  have plan : (((s.deskSample.linkSecond.stationsSecond.gwGapSecond.bellSecond peak).slipSecond.waitsSecond).deliverySecond).plan =
      s.plan := by
    simp only [State.deliverySecond_plan, State.waitsSecond_plan, State.slipSecond_plan, State.bellSecond_plan, State.gwGapSecond_plan,
      State.stationsSecond_plan, State.linkSecond_plan, State.deskSample_plan]
  exact (h.kept counted plan).gwSecond.kept (Keeps.refl _).lampsSecond (State.lampsSecond_plan _)

theorem second (h : s.plansHold) (peak : Quad Nat) : (s.second peak).plansHold :=
  ((h.kept (Keeps.refl s).countSecond s.countSecond_plan).countDown peak).keeps ((Keeps.refl _).timesOfDay _) fun h => h.timesOfDay _

/-! ## Table writes, the settings load and resets -/

theorem takeOptions (h : s.plansHold) (o : Options) : (s.takeOptions o).plansHold := by
  have written : State.plansHold { s with set.options := o, pool.credits := s.freeCredits o.credits } := h
  dsimp only [State.takeOptions]
  split
  · exact written.kept (Keeps.refl _).servePass (State.servePass_plan _)
  · exact written

theorem storePlan (h : s.plansHold) {i : Nat} {p : Plan} {x : Option (Fin 4 × Track)} (hp : ∀ g ∈ p.segs, g.minimum ≤ g.nominal)
    (hx : ∀ (j : Fin 4) (y : Track), x = some (j, y) → y.holds) : (s.storePlan i p x).plansHold := by
  have written : State.plansHold { s with set.plans := Tab.put factoryPlan s.set.plans i p } :=
    ⟨Settings.plansSound.put h.1 hp, h.2⟩
  dsimp only [State.storePlan]
  split
  · exact written
  · rename_i j y
    exact written.with_tracks rfl fun h => h.setTrack j (hx j y rfl)

theorem writePlan (h : s.plansHold) {i : Nat} {l : List Byte} {c : Bool} (e : writePlan s i l = .ok (t, c)) : t.plansHold := by
  unfold Machine.writePlan at e
  split at e
  · rename_i hread _
    have hp := readPlan_bounds hread
    dsimp only at e
    repeat' split at e
    all_goals cases e
    · exact h.storePlan hp nofun
    · exact h.storePlan hp nofun
    · rename_i hy
      refine h.storePlan hp fun j y hj => ?_
      cases hj
      exact Track.holds_of_build hp hy
  · cases e

/-- An entry accepted by a table keeps the bounds, the stored plans' among them. -/
theorem writeEntry (h : s.plansHold) {n : TableName} {i : Nat} {l : List Byte} {c : Bool} (e : writeEntry n s i l = .ok (t, c)) :
    t.plansHold := by
  cases n with
  | plans => exact h.writePlan e
  | lamps =>
    replace e : writeLamp s i l = .ok (t, c) := e
    rcases writeLamp_cases s i l with e' | ⟨x, d, n, -, -, e'⟩ <;> rw [e'] at e <;> cases e
    exact h
  | options =>
    replace e : writeOptions s l = .ok (t, c) := e
    unfold writeOptions at e
    repeat' split at e
    all_goals cases e
    exact h.takeOptions _
  | pupils =>
    replace e : writePupil s i l = .ok (t, c) := e
    unfold writePupil at e
    dsimp only at e
    repeat' split at e
    all_goals cases e
    exact h
  | contacts =>
    replace e : writeContact s i l = .ok (t, c) := e
    unfold writeContact at e
    dsimp only at e
    repeat' split at e
    all_goals cases e
    exact h
  | groups =>
    replace e : writeGroup s i l = .ok (t, c) := e
    unfold writeGroup at e
    repeat' split at e
    all_goals cases e
    exact h
  | zones =>
    replace e : writeZone s i l = .ok (t, c) := e
    unfold writeZone at e
    repeat' split at e
    all_goals cases e
    exact h
  | stations =>
    replace e : writeStation s i l = .ok (t, c) := e
    unfold writeStation at e
    repeat' split at e
    all_goals cases e
    exact h
  | templates =>
    replace e : writeTemplate s i l = .ok (t, c) := e
    unfold writeTemplate at e
    repeat' split at e
    all_goals cases e
    exact h

theorem writeEntries (h : s.plansHold) (done : List Bool) (l : List (List Byte)) : (s.writeEntries done l).1.plansHold := by
  induction l generalizing s done with
  | nil => exact h
  | cons e l ih =>
    dsimp only [State.writeEntries]
    split
    · exact h
    · rename_i s1 c he
      have written := h.writeEntry he
      split
      · exact ih written _
      · split
        · exact written
        · exact ih (s := { s1 with link.cursor := s.link.cursor.advance 1 }) written _

theorem reqTableWrite (h : s.plansHold) (body : List Byte) : (reqTableWrite body s).1.plansHold := by
  unfold Machine.reqTableWrite
  split
  · exact h
  · dsimp only
    repeat' split
    · exact h
    · exact h
    · exact h
    · exact h.writeEntries _ _

theorem takeSettings (h : s.plansHold) {x : Settings} (hx : x.plansSound) : (s.takeSettings x).plansHold := by
  have written : State.plansHold { s with set := { x with options := s.set.options } } := ⟨hx, h.2⟩
  refine takeOptions ?_ x.options
  exact foldl (f := fun t n => t.setStation n ((t.station n).rewrite (s.set.stations.get n) (x.stations.get n))) (fun _ _ h => h) written sixes

theorem ite_raise {p : Prop} [Decidable p] (h : s.plansHold) (c : Condition) : (if p then s else s.raise c).plansHold := by
  split <;> exact h

theorem loadDone (h : s.plansHold) : s.loadDone.plansHold := by
  have read : State.plansHold { s.takeSettings (s.store.loadSettings.getD factorySettings) with
      store := (s.takeSettings (s.store.loadSettings.getD factorySettings)).store.readDirectory
      link.loaded := s.store.loadSettings.isSome
      link.loading := false } := h.takeSettings s.store.loadSettings_plansSound
  exact (read.ite_raise .clockUnset).ite_raise .settingsDefault

theorem restart (s : State) (cause : ResetCause) (fast : Bool) (clock : Clock) : (s.restart cause fast clock).plansHold := by
  refine ⟨List.forall_mem_nil _, fun i p hp => ?_⟩
  fin_cases i <;> cases hp

/-! ## Frames and requests -/

theorem handle (h : s.plansHold) (tag : Nat) (r : Request) : (handle tag r s).1.plansHold := by
  by_cases hr : ∃ body : List Byte, r = .tableWrite body
  · obtain ⟨body, rfl⟩ := hr
    exact h.reqTableWrite body
  · have hne : ∀ body : List Byte, r ≠ .tableWrite body := fun body e => hr ⟨body, e⟩
    exact h.keeps ((Keeps.refl s).handle tag hne) fun _ => State.tracksHold.handle h tag hne

theorem take (h : s.plansHold) (w : Waiting) (rest : List Waiting) : (s.take w rest).plansHold := by
  have taken := handle (s := { s with link.queue := rest, link.hand := some ⟨w.tag, Request.handKind w.req, false⟩ }) h w.tag w.req
  dsimp only [State.take]
  split
  all_goals rename_i e; rw [e] at taken
  · exact taken.kept ((Keeps.refl _).giveReply _) (State.giveReply_plan _ _)
  · exact taken

theorem takeNext (h : s.plansHold) : s.takeNext.plansHold := by
  unfold State.takeNext
  split
  · split
    · exact h
    · exact h.take _ _
  · exact h

theorem goodFrame (h : s.plansHold) (tag : Nat) (r : Request) : (s.goodFrame tag r).plansHold :=
  takeNext (kept (s := { s.frameEnds with link.good := inc32 s.link.good }) h ((Keeps.refl _).joinFrame _) (State.joinFrame_plan _ _))

theorem frameDone (h : s.plansHold) (l : List Byte) : (s.frameDone l).plansHold := by
  unfold State.frameDone
  split
  · exact h.goodFrame _ _
  · exact h

theorem lengthError (h : s.plansHold) (n : Nat) : (s.lengthError n).plansHold :=
  h.kept ((Keeps.refl s).lengthError n) (s.lengthError_plan n)

theorem hostChar (h : s.plansHold) (c : Byte) : (s.hostChar c).plansHold := by
  unfold State.hostChar
  split
  · split <;> exact h
  · dsimp only [State.frameChar]
    split
    · exact h.lengthError _
    · split
      · exact h.frameDone _
      · exact h

theorem hostFrame (h : s.plansHold) (kind tag : Nat) (body : List Byte) (check : Byte) :
    (s.hostFrame kind tag body check).plansHold := by
  unfold State.hostFrame
  split
  · exact h.lengthError _
  · exact h.frameDone _

theorem frameSent (h : s.plansHold) : s.frameSent.plansHold := by
  unfold State.frameSent
  split
  · exact h
  · split
    · exact h
    · exact takeNext (s := { s with link := { s.link.sendNext with hand := none } }) h

theorem request (h : s.plansHold) {tag : Nat} {r : Request} (e : request tag r s = .next t) : t.plansHold := (h.goodFrame tag r).run e

end State.plansHold

/-- The commands keep the bounds of the plans in force. -/
theorem exec_plansHold {i : Instr} {s t : State} (h : s.plansHold) (e : exec i s = .next t) : t.plansHold := by
  have k := Keeps.refl s
  cases i with
  | hostFrame kind tag body check => exact (h.hostFrame kind tag body check).run e
  | hostFramingCharacter => exact (h.kept k.framingChar s.framingChar_plan).run e
  | hostLengthError length => exact (h.lengthError length).run e
  | hostFrameTimeout => exact (h.kept k.frameTimeout s.frameTimeout_plan).run e
  | hostFrameSent =>
    simp only [exec, execHostFrameSent] at e
    split at e
    · cases e
      exact State.plansHold.restart s .request s.link.fastRate s.clock
    · exact h.frameSent.run e
  | hostCharacter c => exact (h.hostChar c).run e
  | powerOnReset strapHigh =>
    cases e
    exact State.plansHold.restart s _ _ _
  | pinReset strapHigh =>
    cases e
    exact State.plansHold.restart s _ _ _
  | settingsLoadDone =>
    simp only [exec, execSettingsLoadDone] at e
    split at e
    · exact h.loadDone.takeNext.run e
    · exact h.run e
  | secondEvent peak => exact (h.second peak).run e
  | minuteEvent => exact (h.keeps k.minute fun h => h.minute).run e
  | midnightEvent => exact ((h.kept k.passMidnight s.passMidnight_plan).keeps (Keeps.refl _).midnightClose fun h => h.midnightClose).run e
  | segmentBegin track segment => exact (h.keeps (k.segmentBegins track segment) fun h => h.segmentBegins track segment).run e
  | dayEnd track => exact (h.keeps (k.dayEnds track) fun h => h.dayEnds track).run e
  | sessionClose track session => exact (h.kept (k.sessionCloses track session) (s.sessionCloses_plan track session)).run e
  | alertDue pupil session => exact (h.kept (k.alertFallsDue pupil session) (s.alertFallsDue_plan pupil session)).run e
  | bellEventDue zone source => exact (h.kept (k.onZone zone _) (s.onZone_plan zone _)).run e
  | ringEnd zone => exact (h.kept (k.onZone zone _) (s.onZone_plan zone _)).run e
  | openFault zone peak ms => exact (h.kept (k.onZone zone _) (s.onZone_plan zone _)).run e
  | overload zone least ms => exact (h.kept (k.onZone zone _) (s.onZone_plan zone _)).run e
  | checkShort zone least ms => exact (h.kept (k.onZone zone _) (s.onZone_plan zone _)).run e
  | probeEnd zone peak => exact (h.kept (k.onZone zone _) (s.onZone_plan zone _)).run e
  | arrivalRecord station kind sequence code check =>
    exact (h.kept (k.onLine station fun h => h.arrivalComplete station _) (s.onLine_plan station (s.arrivalComplete_plan station _))).run e
  | stationFramingError station =>
    exact (h.kept (k.onLine station fun h => h.stationFraming station) (s.onLine_plan station (s.stationFraming_plan station))).run e
  | recordAbandoned station =>
    exact (h.kept (k.onLine station fun h => h.recordAbandoned station) (s.onLine_plan station (s.recordAbandoned_plan station))).run e
  | stationCharacter station c =>
    exact (h.kept (k.onLine station fun h => h.stationChar station c) (s.onLine_plan station (s.stationChar_plan station c))).run e
  | holdOff station => exact (h.kept (k.setStation station _) rfl).run e
  | showSent station => exact (h.kept (k.setStation station _) rfl).run e
  | classificationComplete => exact (h.kept k.completeClassification s.completeClassification_plan).run e
  | printerReady => exact (h.kept k.printerReadyReport s.printerReadyReport_plan).run e
  | paperOut => exact (h.kept k.paperOutReport s.paperOutReport_plan).run e
  | slipRecordSent => exact (h.kept k.slipSent s.slipSent_plan).run e
  | printerStall => exact (h.kept k.stallReached s.stallReached_plan).run e
  | waitEntryExpiry position => exact (h.kept (k.expireWait position) (s.expireWait_plan position)).run e
  | ready window status => exact ((h.kept k.gwClear s.gwClear_plan).gwTake _).run e
  | result tag outcome => exact ((h.kept k.gwClear s.gwClear_plan).gwTake _).run e
  | inbound sender text => exact ((h.kept k.gwClear s.gwClear_plan).gwTake _).run e
  | gatewayBadRecord => exact (h.kept k.gwClear.gwBad rfl).run e
  | gatewayRecordAbandoned => exact (h.kept k.gwAbandon s.gwAbandon_plan).run e
  | gatewayRecordSent => exact (h.kept k.gwSent s.gwSent_plan).run e
  | gatewayCharacter c => exact (h.gwChar c).run e
  | linkLoss => exact h.gwDown.run e
  | deliveryTimeout tag => exact (h.kept (k.timeOut tag) (s.timeOut_plan tag)).run e
  | retryDelay number => exact (h.kept (k.retryReached number) (s.retryReached_plan number)).run e
  | messageLifetime number => exact (h.kept (k.lifeReached number) (s.lifeReached_plan number)).run e
  | pageEraseDone => exact (h.kept k.eraseDone s.eraseDone_plan).run e
  | blankCheckDone blank =>
    exact (h.keeps (k.blankChecked blank).settleDeferred fun h => (h.of_tracks (s.blankChecked_tracks blank)).settleDeferred).run e
  | pageProgramDone => exact (h.kept k.programDone s.programDone_plan).run e
  | pageVerifyDone agrees =>
    exact (h.keeps (k.verified agrees).settleDeferred fun h => (h.of_tracks (s.verified_tracks agrees)).settleDeferred).run e
  | pageReadDone => exact (h.keeps k.readDone.settleDeferred fun h => (h.of_tracks s.readDone_tracks).settleDeferred).run e
  | lampStretch lamp => exact (h.kept (k.stretchEnds lamp) rfl).run e
  | lampFlashPhase => exact (h.kept k.flash rfl).run e
  | _ => exact h.request e

/-- Settles O23: a step is a command, whose every operation on a track keeps its bounds. -/
theorem planInForceKeepsItsBounds : Obligations.PlanInForceKeepsItsBounds := by
  refine ⟨fun s t h e => ?_, fun p kind d e secs t hp h => ?_⟩
  · unfold step at e
    split at e
    · cases e
      exact h
    · rename_i rest _
      exact exec_plansHold (s := { s with pending := rest }) h e
  · obtain ⟨hkind, hd, he, -⟩ := buildTrack_ok h
    obtain ⟨q, hq, hstart, hsegs, hall, hsum⟩ := buildTrack_bounds hp h
    have hnom : (q.segs.map (·.seg.nominal)).sum = (p.segs.map (·.nominal)).sum := by
      rw [← hsegs, List.map_map]
      rfl
    have htotal : (q.segs.map (·.len)).sum + d + e = (p.segs.map (·.nominal)).sum := hsum.trans hnom
    have hds : dayStart q d = p.start + d := congrArg (· + d) hstart
    refine ⟨q, hq, hkind, hd, he, hsegs, hall, htotal, hds, ?_⟩
    show dayStart q d + (q.segs.map (·.len)).sum + e = _
    omega

end Sys2Proof.Machine
end

