-- ==== Sys2Proof/Proofs/RecordMoves.lean ====
section
/-! SUPPORT. How the session records move at a session's close, a track's end and a due time (R106 to R108, R112): each record by its own
events, and otherwise only as serving its alert moves it. -/

namespace Sys2Proof.Machine

/-! ## Sparse tables -/

/-- In a canonical table what lies before every listed index reads as its default, and nothing is there to take out. -/
theorem Tab.erase_of_below {α : Type} [DecidableEq α] {dflt : Nat → α} {lo i : Nat} {t : Tab α} (ht : Tab.canonFrom dflt lo t = true)
    (h : i < lo) : t.erase i = t := by
  cases t with
  | nil => rfl
  | cons e t =>
    obtain ⟨j, a⟩ := e
    simp only [Tab.canonFrom, Bool.and_eq_true, decide_eq_true_eq] at ht
    obtain ⟨⟨hlo, -⟩, -⟩ := ht
    rw [Tab.erase, if_neg (by omega), if_pos (by omega)]

/-- Writing an entry that is already held changes nothing. -/
theorem Tab.put_get {α : Type} [DecidableEq α] {dflt : Nat → α} {t : Tab α} (ht : Tab.wf dflt t = true) (i : Nat) :
    Tab.put dflt t i (Tab.get dflt t i) = t := by
  unfold Tab.wf at ht
  generalize 0 = lo at ht
  induction t generalizing lo with
  | nil => simp [Tab.put, Tab.get, Tab.erase]
  | cons e t ih =>
    obtain ⟨j, a⟩ := e
    simp only [Tab.canonFrom, Bool.and_eq_true, decide_eq_true_eq] at ht
    obtain ⟨⟨-, ha⟩, ht⟩ := ht
    by_cases hij : i = j
    · subst hij
      simp [Tab.put, Tab.get, Tab.insert, ha]
    · have hget : Tab.get dflt ((j, a) :: t) i = Tab.get dflt t i := if_neg hij
      rw [hget]
      by_cases hlt : i < j
      · rw [Tab.get_below ht (by omega), Tab.put, if_pos rfl, Tab.erase, if_neg hij, if_pos hlt]
      · have hrest := ih (j + 1) ht
        unfold Tab.put at hrest ⊢
        split at hrest
        · rw [if_pos ‹_›, Tab.erase, if_neg hij, if_neg hlt, hrest]
        · rw [if_neg ‹_›, Tab.insert, if_neg hij, if_neg hlt, hrest]

theorem State.record_putRec_of_ne (s : State) {p : Nat} {ss : Session} {r : Rec} (h : r ≠ Rec.cleared) :
    (s.putRec p ss r).record p ss = r := by
  show Tab.get clearedAt (Tab.put clearedAt s.reg.recs (recKey p ss) r) (recKey p ss) = r
  rw [Tab.put, if_neg (show ¬ r = clearedAt (recKey p ss) from h)]
  exact Tab.get_insert_same _ _ _

/-! ## One record -/

/-- A record whose alert has become DUE (R107, R140). -/
def Rec.dueNow (r : Rec) (now : Stamp) : Rec := { r with alert := .due, due := none, asked := some now }

/-- A record as the events of other records leave it: a DUE alert may be served (R144). -/
def Rec.Waits (r v : Rec) : Prop := (r.alert ≠ .due → v = r) ∧ r.Served v

/-- The alert has become DUE, whatever came of it in the same event. -/
def Rec.started (r : Rec) : Prop := (r.alert = .due ∨ r.alert = .queued ∨ r.alert = .undelivered) ∧ r.due = none

theorem Rec.dueNow_started (r : Rec) (now : Stamp) : (r.dueNow now).started := ⟨.inl rfl, rfl⟩

/-- Serving touches the alert and the time of its request alone. -/
theorem Rec.Served.rest {r v : Rec} (h : r.Served v) :
    v.mark = r.mark ∧ v.minutes = r.minutes ∧ v.source = r.source ∧ v.locked = r.locked ∧ v.expected = r.expected ∧ v.due = r.due := by
  rcases h with rfl | ⟨x, -, rfl⟩ <;> exact ⟨rfl, rfl, rfl, rfl, rfl, rfl⟩

theorem Rec.Served.started {r v : Rec} (h : r.Served v) (hr : r.started) : v.started := by
  obtain ⟨ha, hd⟩ := hr
  rcases h with rfl | ⟨x, rfl | hx, rfl⟩
  · exact ⟨ha, hd⟩
  · exact ⟨ha, hd⟩
  · exact ⟨.inr hx, hd⟩

namespace Rec.Waits
variable {r v w : Rec}

theorem refl (r : Rec) : r.Waits r := ⟨fun _ => rfl, .refl r⟩

theorem trans (h : r.Waits v) (k : v.Waits w) : r.Waits w :=
  ⟨fun hr => (k.1 (h.1 hr ▸ hr)).trans (h.1 hr), h.2.trans k.2⟩

theorem eq_of (h : r.Waits v) (hr : r.alert ≠ .due) : v = r := h.1 hr

theorem rest (h : r.Waits v) :
    v.mark = r.mark ∧ v.minutes = r.minutes ∧ v.source = r.source ∧ v.locked = r.locked ∧ v.expected = r.expected ∧ v.due = r.due := h.2.rest

theorem started (h : r.Waits v) (hr : r.started) : v.started := h.2.started hr

end Rec.Waits

/-! ## Moves of the records -/

/-- Pool work apart from the records that `T` names and the tallies, which a canonical table keeps. -/
structure Moves (T : Nat → Session → Prop) (a b : State) : Prop where
  leaves : State.poolLeaves { a with reg.tallies := b.reg.tallies } b
  desk : b.desk = { a.desk with stats := b.desk.stats }
  raised : ∀ c : Condition, a.link.isSet c = true → b.link.isSet c = true
  tallies : Tab.wf zeroTally a.reg.tallies = true → b.reg.tallies = a.reg.tallies
  wf : Tab.wf clearedAt a.reg.recs = true → Tab.wf clearedAt b.reg.recs = true
  others : Tab.wf clearedAt a.reg.recs = true → ∀ (p : Nat) (ss : Session), ¬ T p ss → (a.record p ss).Waits (b.record p ss)

namespace Moves
variable {T : Nat → Session → Prop} {a s t : State} {p : Nat} {ss : Session}

theorem refl (T : Nat → Session → Prop) (s : State) : Moves T s s :=
  ⟨s.poolLeaves_refl, rfl, fun _ h => h, fun _ => rfl, id, fun _ _ _ _ => .refl _⟩

theorem trans (h : Moves T a s) (k : Moves T s t) : Moves T a t where
  leaves := by
    have first : State.poolLeaves { a with reg.tallies := t.reg.tallies } { s with reg.tallies := t.reg.tallies } := by
      obtain ⟨hh, hs, ⟨h1, h2, -⟩, hr, ho, hl, hg⟩ := h.leaves
      exact ⟨hh, hs, ⟨h1, h2, rfl⟩, hr, ho, hl, hg⟩
    exact State.poolLeaves_trans first k.leaves
  desk := by rw [k.desk, h.desk]
  raised c hc := k.raised c (h.raised c hc)
  tallies hw := (k.tallies (h.tallies hw ▸ hw)).trans (h.tallies hw)
  wf hw := k.wf (h.wf hw)
  others hw p ss hT := (h.others hw p ss hT).trans (k.others (h.wf hw) p ss hT)

theorem mono {S : Nat → Session → Prop} (h : Moves S a s) (hST : ∀ (p : Nat) (ss : Session), S p ss → T p ss) : Moves T a s :=
  { h with others := fun hw p ss hT => h.others hw p ss fun hS => hT (hST p ss hS) }

theorem set (h : Moves T s t) : t.set = s.set := by
  obtain ⟨⟨-, hset, -⟩, -⟩ := h.leaves
  exact hset

theorem clock (h : Moves T s t) : t.clock = s.clock := by
  obtain ⟨⟨hclock, -⟩, -⟩ := h.leaves
  exact hclock

theorem plan (h : Moves T s t) : t.plan = s.plan := State.poolLeaves_plan (s := { s with reg.tallies := t.reg.tallies }) h.leaves

theorem sess (h : Moves T s t) : t.reg.sess = s.reg.sess := by
  obtain ⟨-, -, ⟨hsess, -⟩, -⟩ := h.leaves
  exact hsess

theorem status (h : Moves T s t) : t.reg.status = s.reg.status := by
  obtain ⟨-, -, ⟨-, hstatus, -⟩, -⟩ := h.leaves
  exact hstatus

/-- One record written, then work that serves it. -/
theorem of_serves {r : Rec} (h : Serves (Tab.wf clearedAt s.reg.recs = true) (s.putRec p ss r) t) :
    Moves (fun q st => (q, st) = (p, ss)) s t where
  leaves := by
    obtain ⟨hh, hs, ⟨h1, h2, h3⟩, hr, ho, hl, hg⟩ := h.leaves
    exact ⟨hh, hs, ⟨h1, h2, rfl⟩, hr, ho, hl, hg⟩
  desk := h.desk
  raised := h.raised
  tallies _ := by
    obtain ⟨-, -, ⟨-, -, h3⟩, -⟩ := h.leaves
    exact h3
  wf := h.wf
  others hw q st hne := by
    rw [← s.record_putRec_other r hne]
    refine ⟨h.others hw q st, ?_⟩
    by_cases hd : ((s.putRec p ss r).record q st).alert = .due
    · exact h.listed q st (by simp [hd])
    · exact .inl (h.others hw q st hd)

theorem putRec (s : State) (p : Nat) (ss : Session) (r : Rec) : Moves (fun q st => (q, st) = (p, ss)) s (s.putRec p ss r) :=
  of_serves (.refl fun hw => Tab.wf_put hw _ _)

end Moves

/-! ## An alert that becomes DUE (R107, R140) -/

theorem State.alertBecomesDue_serves (s : State) (p : Nat) (ss : Session) {w : Prop} (h : w → Tab.wf clearedAt s.reg.recs = true) :
    Serves w (s.putRec p ss ((s.record p ss).dueNow s.clock.stamp)) (s.alertBecomesDue p ss) := by
  have written : Serves w (s.putRec p ss ((s.record p ss).dueNow s.clock.stamp)) (s.putRec p ss ((s.record p ss).dueNow s.clock.stamp)) :=
    .refl fun hw => Tab.wf_put (h hw) _ _
  have hdue : ((s.putRec p ss ((s.record p ss).dueNow s.clock.stamp)).record p ss).alert = .due := by
    rw [s.record_putRec_of_alert (by simp [Rec.dueNow])]
    rfl
  dsimp only [State.alertBecomesDue]
  split
  · exact (written.countReject .alert).1
  · rename_i t st e
    exact (written.tryAlert (fun _ => hdue) e).1.afterStored st

theorem State.alertBecomesDue_moves (s : State) (p : Nat) (ss : Session) :
    Moves (fun q st => (q, st) = (p, ss)) s (s.alertBecomesDue p ss) := .of_serves (s.alertBecomesDue_serves p ss id)

/-- The record of an alert that becomes DUE, whatever the table's form. -/
theorem State.alertBecomesDue_record (s : State) (p : Nat) (ss : Session) :
    ((s.record p ss).dueNow s.clock.stamp).Served ((s.alertBecomesDue p ss).record p ss) := by
  have hne : ((s.record p ss).dueNow s.clock.stamp).alert ≠ .noAlert := by simp [Rec.dueNow]
  have served := (s.alertBecomesDue_serves p ss (w := False) False.elim).listed p ss
  rw [s.record_putRec_of_alert hne] at served
  exact served hne

/-- A record after a HELD alert's due time (R107). -/
def Rec.fallen (r : Rec) (now : Stamp) : Rec := if r.mark = .n then r.dueNow now else { r with alert := .cancelled, due := none }

theorem State.heldDue_moves (s : State) (p : Nat) (ss : Session) : Moves (fun q st => (q, st) = (p, ss)) s (s.heldDue p ss) := by
  unfold State.heldDue
  split
  · exact s.alertBecomesDue_moves p ss
  · exact .putRec s p ss _

theorem State.heldDue_record (s : State) (p : Nat) (ss : Session) :
    ((s.record p ss).fallen s.clock.stamp).Waits ((s.heldDue p ss).record p ss) := by
  unfold State.heldDue Rec.fallen
  split
  · exact ⟨fun h => absurd rfl h, s.alertBecomesDue_record p ss⟩
  · rw [s.record_modRec_of_alert (by simp)]
    exact .refl _

/-! ## An alert's start (R106, R108) -/

/-- A record marked N as its alert starts, with its due time, at a Clock's time, and with its track ended or not. -/
def Rec.begin (r : Rec) (due : Nat) (now : Stamp) (ended : Bool) : Rec :=
  if r.alert = .noAlert ∨ r.alert = .cancelled then
    if r.expected then
      if ended then Rec.dueNow { r with alert := .withheld, due := none } now else { r with alert := .withheld, due := none }
    else if due ≤ now.secs then Rec.fallen { r with alert := .held, due := some due } now
    else { r with alert := .held, due := some due }
  else r

theorem State.startAlert_moves (s : State) (p : Nat) (ss : Session) (start : Nat) (closing : Bool) :
    Moves (fun q st => (q, st) = (p, ss)) s (s.startAlert p ss start closing) := by
  dsimp only [State.startAlert]
  split
  · split
    · split
      · exact (Moves.putRec s p ss _).trans (State.alertBecomesDue_moves _ p ss)
      · exact .putRec s p ss _
    · split
      · exact (Moves.putRec s p ss _).trans (State.heldDue_moves _ p ss)
      · exact .putRec s p ss _
  · exact .refl _ s

theorem State.startAlert_record (s : State) (p : Nat) (ss : Session) (start : Nat) :
    ((s.record p ss).begin (s.dueFrom start) s.clock.stamp ((s.track (s.trackOf p)).state == .ended)).Waits
      ((s.startAlert p ss start false).record p ss) := by
  have withheld := s.record_modRec_of_alert (p := p) (ss := ss) (f := fun x => { x with alert := .withheld, due := none }) (by simp)
  have held := s.record_modRec_of_alert (p := p) (ss := ss) (f := fun x => { x with alert := .held, due := some (s.dueFrom start) })
    (by simp)
  simp only [State.startAlert, Rec.begin, Bool.or_eq_true, decide_eq_true_iff, Bool.not_false, Bool.true_and]
  split
  · split
    · split
      · rw [← withheld]
        exact ⟨fun h => absurd rfl h, State.alertBecomesDue_record _ p ss⟩
      · rw [withheld]
        exact .refl _
    · by_cases hd : s.dueFrom start ≤ s.clock.secs
      · rw [if_pos hd, if_pos (show s.dueFrom start ≤ s.clock.stamp.secs from hd), ← held]
        exact State.heldDue_record _ p ss
      · rw [if_neg hd, if_neg (show ¬ s.dueFrom start ≤ s.clock.stamp.secs from hd), held]
        exact .refl _
  · exact .refl _

end Sys2Proof.Machine
end

