-- ==== Sys2Proof/Proofs/SessionWork.lean ====
section
/-! SUPPORT. How sessions open and close (R99, R112): the session states, the group statuses, and the records a close marks. -/

namespace Sys2Proof.Machine

/-! ## The Register's session states and group statuses -/

theorem PerSession.get_set {α : Type} (x : PerSession α) (ss st : Session) (v : α) :
    (x.set ss v).get st = if st = ss then v else x.get st := by
  cases ss <;> cases st <;> rfl

theorem Quad.get_set {α : Type} (q : Quad α) (i j : Fin 4) (a : α) : (q.set i a).get j = if j = i then a else q.get j := by
  split
  · rename_i h
    rw [h, Quad.get_set_same]
  · rw [Quad.get_set_other q a ‹_›]

namespace State
variable {s t u : State} {i j : Fin 4} {g h p : Nat} {ss st : Session}

theorem session_setSession (s : State) (i j : Fin 4) (ss st : Session) (v : Option SessState) :
    (s.setSession i ss v).session j st = if j = i ∧ st = ss then v else s.session j st := by
  show ((s.reg.sess.set i ((s.reg.sess.get i).set ss v)).get j).get st = _
  rw [Quad.get_set]
  by_cases hj : j = i
  · rw [if_pos hj, PerSession.get_set, hj]
    simp only [true_and]
    rfl
  · rw [if_neg hj, if_neg fun h => hj h.1]
    rfl

theorem session_congr (h : t.reg.sess = s.reg.sess) (i : Fin 4) (ss : Session) : t.session i ss = s.session i ss :=
  congrArg (fun x : Quad (PerSession (Option SessState)) => (x.get i).get ss) h

theorem groupStatus_congr (h : t.reg.status = s.reg.status) (g : Nat) (ss : Session) : t.groupStatus g ss = s.groupStatus g ss :=
  congrArg (fun x : Tab GroupStatus => Tab.get awaitedAt x (recKey g ss)) h

theorem groupStatus_setGroupStatus (s : State) (g h : Nat) (ss st : Session) {v : GroupStatus} (hv : v ≠ .awaited) :
    (s.setGroupStatus g ss v).groupStatus h st = if h = g ∧ st = ss then v else s.groupStatus h st := by
  show Tab.get awaitedAt (Tab.put awaitedAt s.reg.status (recKey g ss) v) (recKey h st) = _
  split
  · rename_i e
    rw [e.1, e.2, Tab.put, if_neg (show ¬ v = awaitedAt (recKey g ss) from hv), Tab.get_insert_same]
  · rename_i e
    exact Tab.get_put_other _ _ (recKey_ne fun e' => e ⟨(Prod.mk.inj e').1, (Prod.mk.inj e').2⟩)

theorem members_congr (h : t.set = s.set) (g : Nat) : t.members g = s.members g := by
  unfold State.members
  rw [h]

theorem group_congr (h : t.set = s.set) (g : Nat) : t.group g = s.group g := by
  unfold State.group
  rw [h]

theorem trackOf_congr (h : t.set = s.set) (p : Nat) : t.trackOf p = s.trackOf p := by
  unfold State.trackOf State.group State.pupil
  rw [h]

theorem mem_groupsOf (s : State) (i : Fin 4) (g : Nat) : g ∈ s.groupsOf i ↔ g < 120 ∧ (s.group g).track = i := by
  simp [State.groupsOf, Config.groups]

theorem nodup_groupsOf (s : State) (i : Fin 4) : (s.groupsOf i).Nodup := List.nodup_range.filter _

/-- A group's members are the pupils in use whose group field names it (R4). -/
theorem mem_members (hw : Tab.wf factoryPupil s.set.pupils = true) (g p : Nat) :
    p ∈ s.members g ↔ (s.pupil p).inUse = true ∧ (s.pupil p).group = g := by
  rw [State.members, Tab.mem_filter_iff hw (by simp [factoryPupil]), Bool.and_eq_true, beq_iff_eq]
  rfl

theorem nodup_members (hw : Tab.wf factoryPupil s.set.pupils = true) (g : Nat) : (s.members g).Nodup :=
  (Tab.filter_pairwise hw _).1.imp Nat.ne_of_lt

end State

/-! ## What follows the time (R31, R99) -/

/-- Moves of the records as sessions open and close and tracks follow the time. -/
def Follows (T : Nat → Session → Prop) (a b : State) : Prop :=
  Moves T { a with plan.tracks := b.plan.tracks, reg.sess := b.reg.sess, reg.status := b.reg.status } b

theorem Moves.follows {T : Nat → Session → Prop} {a b : State} (h : Moves T a b) : Follows T a b := by
  have hplan := h.plan
  have hsess := h.sess
  have hstatus := h.status
  obtain ⟨⟨⟨hclock, hset, -, hbells, hstations⟩, hs, -, hrest⟩, hdesk, hraised, htallies, hwf, hothers⟩ := h
  exact ⟨⟨⟨hclock, hset, by rw [hplan], hbells, hstations⟩, hs, ⟨rfl, rfl, rfl⟩, hrest⟩, hdesk, hraised, htallies, hwf, hothers⟩

namespace Follows
variable {T : Nat → Session → Prop} {a s t : State}

theorem refl (T : Nat → Session → Prop) (s : State) : Follows T s s := (Moves.refl T s).follows

theorem trans (h : Follows T a s) (k : Follows T s t) : Follows T a t where
  leaves := by
    obtain ⟨⟨hc, hset, hplan, hb, hst⟩, hs, -, hrest⟩ := h.leaves
    have first : State.poolLeaves
        { a with plan.tracks := t.plan.tracks, reg.sess := t.reg.sess, reg.status := t.reg.status, reg.tallies := t.reg.tallies }
        { s with plan.tracks := t.plan.tracks, reg.sess := t.reg.sess, reg.status := t.reg.status, reg.tallies := t.reg.tallies } :=
      ⟨⟨hc, hset, congrArg (fun x : Planner => { x with tracks := t.plan.tracks }) hplan, hb, hst⟩, hs, ⟨rfl, rfl, rfl⟩, hrest⟩
    exact State.poolLeaves_trans first k.leaves
  desk := by rw [k.desk, h.desk]
  raised c hc := k.raised c (h.raised c hc)
  tallies hw := (k.tallies (h.tallies hw ▸ hw)).trans (h.tallies hw)
  wf hw := k.wf (h.wf hw)
  others hw p ss hT := (h.others hw p ss hT).trans (k.others (h.wf hw) p ss hT)

theorem mono {S : Nat → Session → Prop} (h : Follows S a s) (hST : ∀ (p : Nat) (ss : Session), S p ss → T p ss) : Follows T a s :=
  Moves.mono h hST

/-- A bound on the records that move, of a canonical table. -/
theorem mono_wf {S : Nat → Session → Prop} (h : Follows S a s)
    (hST : Tab.wf clearedAt a.reg.recs = true → ∀ (p : Nat) (ss : Session), S p ss → T p ss) : Follows T a s :=
  { leaves := h.leaves, desk := h.desk, raised := h.raised, tallies := h.tallies, wf := h.wf
    others := fun hw p ss hT => h.others hw p ss fun hS => hT (hST hw p ss hS) }

theorem set (h : Follows T s t) : t.set = s.set :=
  Moves.set (s := { s with plan.tracks := t.plan.tracks, reg.sess := t.reg.sess, reg.status := t.reg.status }) h

theorem clock (h : Follows T s t) : t.clock = s.clock :=
  Moves.clock (s := { s with plan.tracks := t.plan.tracks, reg.sess := t.reg.sess, reg.status := t.reg.status }) h

/-- Steps that each follow the time, at settings that stay. -/
theorem foldl {α β : Type} {f : α → β → α} (v : α → State) {S : β → Nat → Session → Prop} {x : α}
    (hf : ∀ (z : α) (y : β), (v z).set = (v x).set → Follows (S y) (v z) (v (f z y))) (l : List β) :
    Follows (fun p ss => ∃ y ∈ l, S y p ss) (v x) (v (l.foldl f x)) := by
  induction l generalizing x with
  | nil => exact refl _ _
  | cons y l ih =>
    have first := hf x y rfl
    refine trans (first.mono fun p ss h => ⟨y, List.mem_cons_self .., h⟩)
      ((ih fun z y hz => hf z y (hz.trans first.set)).mono fun p ss h => ?_)
    obtain ⟨z, hz, h⟩ := h
    exact ⟨z, List.mem_cons_of_mem y hz, h⟩

theorem bells (h : Follows T s t) : t.bells = s.bells := by
  obtain ⟨⟨-, -, -, hbells, -⟩, -⟩ := h.leaves
  exact hbells

/-- The rest of the plan stays. -/
theorem plan (h : Follows T s t) : t.plan = { s.plan with tracks := t.plan.tracks } := Moves.plan h

theorem dayOver (h : Follows T s t) : t.dayOver = s.dayOver := by
  unfold State.dayOver
  rw [h.plan, h.clock]

theorem record (h : Follows T s t) (hw : Tab.wf clearedAt s.reg.recs = true) {p : Nat} {ss : Session} (hT : ¬ T p ss) :
    (s.record p ss).Waits (t.record p ss) := h.others hw p ss hT

/-- A change of the tracks, the session states and the group statuses. -/
theorem of_register (T : Nat → Session → Prop) (s : State) (tracks : Quad Track) (sess : Quad (PerSession (Option SessState)))
    (status : Tab GroupStatus) : Follows T s { s with plan.tracks := tracks, reg.sess := sess, reg.status := status } :=
  Moves.refl T _

theorem setSession (s : State) (i : Fin 4) (ss : Session) (v : Option SessState) : Follows T s (s.setSession i ss v) :=
  of_register T s s.plan.tracks _ s.reg.status

theorem setGroupStatus (s : State) (g : Nat) (ss : Session) (v : GroupStatus) : Follows T s (s.setGroupStatus g ss v) :=
  of_register T s s.plan.tracks s.reg.sess _

theorem setTrack (s : State) (i : Fin 4) (x : Track) : Follows T s (s.setTrack i x) := of_register T s _ s.reg.sess s.reg.status

theorem raise (s : State) (c : Condition) : Follows T s (s.raise c) := by
  refine Moves.follows ⟨?_, rfl, fun _ h => s.raise_isSet c h, fun _ => rfl, id, fun _ _ _ _ => .refl _⟩
  exact s.raise_leaves c

end Follows

/-! ## The records at a close (R112) -/

/-- A record that a session's close marks N: unlocked, and NONE or X. -/
def Rec.unmarked (r : Rec) : Prop := r.locked = false ∧ (r.mark = .nothing ∨ r.mark = .x)

/-- The record marked N by the close. -/
def Rec.markN (r : Rec) : Rec := r.write ⟨.n, 0, .close, none, none⟩

/-- A mark that is neither present nor taken from an N or a late mark changes the record alone. -/
theorem State.applyMark_absent {s : State} {p : Nat} {ss : Session} {w : MarkWrite} (hn : (s.record p ss).mark ≠ .n)
    (hl : (s.record p ss).mark.late = false) (hw : w.mark.present = false) :
    (s.applyMark p ss w).1 = (s.putRec p ss ((s.record p ss).write w)).putTally p (s.tally p) := by
  have hput : (s.putRec p ss ((s.record p ss).write w)).record p ss = (s.record p ss).write w :=
    s.record_putRec_of_ne fun e => by simpa [Rec.write, Rec.cleared] using congrArg Rec.source e
  have hlate : w.mark.late = false := by cases hm : w.mark <;> simp_all [Mark.present, Mark.late]
  have hcorrect : (s.putRec p ss ((s.record p ss).write w)).correctAlert p ss =
      (s.putRec p ss ((s.record p ss).write w), false) := by
    have hmark : ((s.record p ss).write w).mark.present = false := hw
    simp [State.correctAlert, hput, hmark]
  have htally : (s.putRec p ss ((s.record p ss).write w)).tally p = s.tally p := rfl
  simp [State.applyMark, hn, hcorrect, hl, hlate, htally, Tally.adjust]

theorem Moves.putTally (T : Nat → Session → Prop) (s : State) (p : Nat) : Moves T s (s.putTally p (s.tally p)) :=
  ⟨State.poolLeaves_refl _, rfl, fun _ h => h, fun hw => Tab.put_get hw p, id, fun _ _ _ _ => .refl _⟩

/-- R112, R106: a member record at its session's close. -/
theorem State.closeRecord_eq (s : State) (ss : Session) (start : Nat) (closing : Bool) (p : Nat) :
    ((s.record p ss).unmarked → State.closeRecord ss start closing s p =
        ((s.putRec p ss (s.record p ss).markN).putTally p (s.tally p)).startAlert p ss start closing) ∧
      (¬ (s.record p ss).unmarked → State.closeRecord ss start closing s p = s) := by
  have hcond : (!(s.record p ss).locked && (decide ((s.record p ss).mark = .nothing) || decide ((s.record p ss).mark = .x))) = true ↔
      (s.record p ss).unmarked := by simp [Rec.unmarked]
  refine ⟨fun h => ?_, fun h => if_neg (mt hcond.mp h)⟩
  obtain ⟨-, hm⟩ := id h
  have marked := s.applyMark_absent (p := p) (ss := ss) (w := ⟨.n, 0, .close, none, none⟩)
    (by rcases hm with e | e <;> simp [e]) (by rcases hm with e | e <;> simp [e, Mark.late]) rfl
  refine (if_pos (hcond.mpr h)).trans ?_
  rw [marked]
  rfl

theorem State.closeRecord_moves (s : State) (ss : Session) (start : Nat) (closing : Bool) (p : Nat) :
    Moves (fun q st => (q, st) = (p, ss)) s (State.closeRecord ss start closing s p) := by
  obtain ⟨marked, kept⟩ := s.closeRecord_eq ss start closing p
  by_cases h : (s.record p ss).unmarked
  · rw [marked h]
    exact ((Moves.putRec s p ss _).trans (Moves.putTally _ (s.putRec p ss _) p)).trans (State.startAlert_moves _ p ss start closing)
  · rw [kept h]
    exact .refl _ s

/-- The record that a close marks, once its alert has started. -/
theorem State.closeRecord_record {s : State} {ss : Session} {p : Nat} (h : (s.record p ss).unmarked) (start : Nat) :
    ((s.record p ss).markN.begin (s.dueFrom start) s.clock.stamp ((s.track (s.trackOf p)).state == .ended)).Waits
      ((State.closeRecord ss start false s p).record p ss) := by
  have hput : ((s.putRec p ss (s.record p ss).markN).putTally p (s.tally p)).record p ss = (s.record p ss).markN :=
    s.record_putRec_of_ne (r := (s.record p ss).markN) fun e => by
      simpa [Rec.markN, Rec.write, Rec.cleared] using congrArg Rec.source e
  have begun := State.startAlert_record ((s.putRec p ss (s.record p ss).markN).putTally p (s.tally p)) p ss start
  rw [hput] at begun
  rw [(s.closeRecord_eq ss start false p).1 h]
  exact begun

/-! ## A group at its session's close (R112) -/

/-- The status that a session's close leaves a group. -/
def State.closedStatus (s : State) (g : Nat) (ss : Session) : GroupStatus :=
  if s.members g = [] then .empty else if s.groupStatus g ss = .awaited then .missing else s.groupStatus g ss

/-- The group becomes MISSING. -/
def State.goesMissing (s : State) (g : Nat) (ss : Session) : Prop := s.members g ≠ [] ∧ s.groupStatus g ss = .awaited

section
variable (ss : Session) (start : Nat) (closing : Bool)

theorem closeRecords_status (s : State) (l : List Nat) : (l.foldl (State.closeRecord ss start closing) s).reg.status = s.reg.status :=
  foldl_kept (fun s => s.reg.status) (fun s p => (s.closeRecord_moves ss start closing p).status) s l

theorem closeRecords_sess (s : State) (l : List Nat) : (l.foldl (State.closeRecord ss start closing) s).reg.sess = s.reg.sess :=
  foldl_kept (fun s => s.reg.sess) (fun s p => (s.closeRecord_moves ss start closing p).sess) s l

theorem closeRecords_follows (s : State) (l : List Nat) :
    Follows (fun q st => ∃ p ∈ l, (q, st) = (p, ss)) s (l.foldl (State.closeRecord ss start closing) s) :=
  .foldl id (fun s p _ => (s.closeRecord_moves ss start closing p).follows) l

/-- A group with members that has been submitted has its records closed; the others take their status, and the records stay. -/
theorem closeGroup_cases (x : State × Bool) (g : Nat) :
    (x.1.members g ≠ [] ∧ x.1.groupStatus g ss = .submitted ∧
        State.closeGroup ss start closing x g = ((x.1.members g).foldl (State.closeRecord ss start closing) x.1, x.2)) ∨
      (x.1.members g = [] ∧ State.closeGroup ss start closing x g = (x.1.setGroupStatus g ss .empty, x.2)) ∨
      (x.1.goesMissing g ss ∧ State.closeGroup ss start closing x g = (x.1.setGroupStatus g ss .missing, true)) ∨
      (x.1.members g ≠ [] ∧ x.1.groupStatus g ss ≠ .awaited ∧ x.1.groupStatus g ss ≠ .submitted ∧
        State.closeGroup ss start closing x g = x) := by
  unfold State.closeGroup
  by_cases hm : x.1.members g = []
  · exact .inr (.inl ⟨hm, by simp [hm]⟩)
  · have hne : ¬ (x.1.members g).isEmpty = true := by simpa using hm
    simp only [if_neg hne]
    split
    · rename_i e
      exact .inl ⟨hm, e, rfl⟩
    · rename_i e
      exact .inr (.inr (.inl ⟨⟨hm, e⟩, rfl⟩))
    · rename_i hs ha
      exact .inr (.inr (.inr ⟨hm, ha, hs, rfl⟩))

theorem closeGroup_follows (x : State × Bool) (g : Nat) :
    Follows (fun q st => st = ss ∧ q ∈ x.1.members g ∧ x.1.groupStatus g ss = .submitted) x.1 (State.closeGroup ss start closing x g).1 := by
  rcases closeGroup_cases ss start closing x g with ⟨-, hs, e⟩ | ⟨-, e⟩ | ⟨-, e⟩ | ⟨-, -, -, e⟩
  · rw [e]
    refine (closeRecords_follows ss start closing x.1 _).mono fun q st => ?_
    rintro ⟨p, hp, e⟩
    cases e
    exact ⟨rfl, hp, hs⟩
  · rw [e]
    exact .setGroupStatus _ _ _ _
  · rw [e]
    exact .setGroupStatus _ _ _ _
  · rw [e]
    exact .refl _ _

theorem closeGroup_sess (x : State × Bool) (g : Nat) : (State.closeGroup ss start closing x g).1.reg.sess = x.1.reg.sess := by
  rcases closeGroup_cases ss start closing x g with ⟨-, -, e⟩ | ⟨-, e⟩ | ⟨-, e⟩ | ⟨-, -, -, e⟩ <;> rw [e]
  · exact closeRecords_sess ss start closing x.1 _
  · rfl
  · rfl

theorem closeGroup_status (x : State × Bool) (g h : Nat) (st : Session) :
    (State.closeGroup ss start closing x g).1.groupStatus h st =
      if h = g ∧ st = ss then x.1.closedStatus g ss else x.1.groupStatus h st := by
  have kept {v : GroupStatus} (hv : x.1.groupStatus g ss = v) :
      x.1.groupStatus h st = if h = g ∧ st = ss then v else x.1.groupStatus h st := by
    split
    · rename_i e
      rw [e.1, e.2, hv]
    · rfl
  rcases closeGroup_cases ss start closing x g with ⟨hm, hs, e⟩ | ⟨hm, e⟩ | ⟨⟨hm, ha⟩, e⟩ | ⟨hm, ha, hs, e⟩
  · have hc : x.1.closedStatus g ss = x.1.groupStatus g ss := by simp [State.closedStatus, hm, hs]
    rw [e, hc, State.groupStatus_congr (closeRecords_status ss start closing x.1 _)]
    exact kept rfl
  · rw [e, State.closedStatus, if_pos hm]
    exact x.1.groupStatus_setGroupStatus g h ss st (by simp)
  · rw [e, State.closedStatus, if_neg hm, if_pos ha]
    exact x.1.groupStatus_setGroupStatus g h ss st (by simp)
  · rw [e, State.closedStatus, if_neg hm, if_neg ha]
    exact kept rfl

/-- The mark that some group has become MISSING stays, and is set where one becomes so. -/
theorem closeGroup_missing (x : State × Bool) (g : Nat) :
    (x.2 = true → (State.closeGroup ss start closing x g).2 = true) ∧
      (x.1.goesMissing g ss → (State.closeGroup ss start closing x g).2 = true) := by
  rcases closeGroup_cases ss start closing x g with ⟨-, hs, e⟩ | ⟨hm, e⟩ | ⟨-, e⟩ | ⟨-, ha, -, e⟩ <;> rw [e]
  · exact ⟨id, fun h => absurd (hs.symm.trans h.2) (by simp)⟩
  · exact ⟨id, fun h => absurd hm h.1⟩
  · exact ⟨fun _ => rfl, fun _ => rfl⟩
  · exact ⟨id, fun h => absurd h.2 ha⟩

/-! ## All groups of a track -/

theorem closeGroup_set (x : State × Bool) (g : Nat) : (State.closeGroup ss start closing x g).1.set = x.1.set :=
  (closeGroup_follows ss start closing x g).set

/-- What a group's close reads is untouched by the closes of other groups. -/
theorem closeGroup_other (x : State × Bool) {g h : Nat} (hne : h ≠ g) :
    (State.closeGroup ss start closing x g).1.groupStatus h ss = x.1.groupStatus h ss ∧
      (State.closeGroup ss start closing x g).1.members h = x.1.members h := by
  refine ⟨?_, State.members_congr (closeGroup_set ss start closing x g) h⟩
  rw [closeGroup_status, if_neg fun e => hne e.1]

theorem closeGroups_status {l : List Nat} (hl : l.Nodup) (x : State × Bool) (h : Nat) (st : Session) :
    (l.foldl (State.closeGroup ss start closing) x).1.groupStatus h st =
      if h ∈ l ∧ st = ss then x.1.closedStatus h ss else x.1.groupStatus h st := by
  induction l generalizing x with
  | nil => simp
  | cons g l ih =>
    obtain ⟨hg, hl⟩ := List.nodup_cons.mp hl
    rw [List.foldl_cons, ih hl, closeGroup_status]
    by_cases hgh : h = g
    · subst hgh
      simp [hg]
    · obtain ⟨hstatus, hmembers⟩ := closeGroup_other ss start closing x hgh
      simp [hgh, State.closedStatus, hstatus, hmembers]

theorem closeGroups_missing {l : List Nat} (hl : l.Nodup) (x : State × Bool) :
    (x.2 = true → (l.foldl (State.closeGroup ss start closing) x).2 = true) ∧
      ∀ h ∈ l, x.1.goesMissing h ss → (l.foldl (State.closeGroup ss start closing) x).2 = true := by
  induction l generalizing x with
  | nil => exact ⟨id, fun h hh => absurd hh (by simp)⟩
  | cons g l ih =>
    obtain ⟨hg, hl⟩ := List.nodup_cons.mp hl
    obtain ⟨hkept, hset⟩ := closeGroup_missing ss start closing x g
    obtain ⟨ihkept, ihset⟩ := ih hl (State.closeGroup ss start closing x g)
    refine ⟨fun h => ihkept (hkept h), fun h hh hm => ?_⟩
    rcases List.mem_cons.mp hh with rfl | hh
    · exact ihkept (hset hm)
    · obtain ⟨hstatus, hmembers⟩ := closeGroup_other ss start closing x (g := g) (h := h) fun e => hg (e ▸ hh)
      exact ihset h hh ⟨hmembers ▸ hm.1, hstatus.trans hm.2⟩

end

/-! ## A session's close (R112) -/

namespace State
variable (s : State) (i : Fin 4) (ss : Session) (start : Nat) (closing : Bool)

theorem closeSession_cases :
    let r := (s.groupsOf i).foldl (State.closeGroup ss start closing) (s.setSession i ss (some .closed), false)
    s.closeSession i ss start closing = if r.2 then r.1.raise .registerMissing else r.1 := rfl

theorem closeSession_sess : (s.closeSession i ss start closing).reg.sess = (s.setSession i ss (some .closed)).reg.sess := by
  have groups := foldl_kept (fun x : State × Bool => x.1.reg.sess) (closeGroup_sess ss start closing)
    (s.setSession i ss (some .closed), false) (s.groupsOf i)
  rw [s.closeSession_cases]
  split
  · exact groups
  · exact groups

theorem closeSession_session (j : Fin 4) (st : Session) :
    (s.closeSession i ss start closing).session j st = if j = i ∧ st = ss then some .closed else s.session j st :=
  (session_congr (s.closeSession_sess i ss start closing) j st).trans (s.session_setSession i j ss st _)

theorem closeSession_status (g : Nat) (st : Session) :
    (s.closeSession i ss start closing).groupStatus g st =
      if (g < 120 ∧ (s.group g).track = i) ∧ st = ss then s.closedStatus g ss else s.groupStatus g st := by
  have groups := closeGroups_status ss start closing (s.nodup_groupsOf i) (s.setSession i ss (some .closed), false) g st
  simp only [s.mem_groupsOf] at groups
  rw [s.closeSession_cases]
  split
  · exact groups
  · exact groups

theorem closeSession_raised {g : Nat} (hg : g < 120) (ht : (s.group g).track = i) (hm : s.goesMissing g ss) :
    (s.closeSession i ss start closing).link.isSet .registerMissing = true := by
  rw [s.closeSession_cases, if_pos ((closeGroups_missing ss start closing (s.nodup_groupsOf i) _).2 g ((s.mem_groupsOf i g).mpr ⟨hg, ht⟩) hm)]
  exact raise_isSet_same _ _

end State

/-! ## The records at a session's close (R112, R106) -/

/-- A record before a close and after it, with its alert started if `mk` holds and the close marks it; before and after, its alert waits. -/
def Rec.Closes (mk : Prop) (due : Nat) (now : Stamp) (ended : Bool) (r v : Rec) : Prop :=
  ∃ x : Rec, r.Waits x ∧ (mk → x.unmarked → (x.markN.begin due now ended).Waits v) ∧ (¬ (mk ∧ x.unmarked) → x.Waits v)

theorem Rec.Waits.unmarked {r v : Rec} (h : r.Waits v) : v.unmarked ↔ r.unmarked := by
  obtain ⟨hmark, -, -, hlocked, -⟩ := h.rest
  rw [Rec.unmarked, Rec.unmarked, hmark, hlocked]

namespace Rec.Closes
variable {mk : Prop} {due : Nat} {now : Stamp} {ended : Bool} {r v w : Rec}

theorem before (h : r.Waits v) (k : v.Closes mk due now ended w) : r.Closes mk due now ended w := by
  obtain ⟨x, hx, k⟩ := k
  exact ⟨x, h.trans hx, k⟩

theorem after (h : r.Closes mk due now ended v) (k : v.Waits w) : r.Closes mk due now ended w := by
  obtain ⟨x, hx, hmk, hnot⟩ := h
  exact ⟨x, hx, fun hm hu => (hmk hm hu).trans k, fun hn => (hnot hn).trans k⟩

theorem of_waits (hn : ¬ (mk ∧ r.unmarked)) (h : r.Waits v) : r.Closes mk due now ended v :=
  ⟨r, .refl r, fun hm hu => absurd ⟨hm, hu⟩ hn, fun _ => h⟩

theorem waits (h : r.Closes mk due now ended v) (hn : ¬ (mk ∧ r.unmarked)) : r.Waits v := by
  obtain ⟨x, hx, -, hnot⟩ := h
  exact hx.trans (hnot fun ⟨hm, hu⟩ => hn ⟨hm, hx.unmarked.mp hu⟩)

theorem congr {nk : Prop} (h : r.Closes mk due now ended v) (e : mk ↔ nk) : r.Closes nk due now ended v := propext e ▸ h

end Rec.Closes

/-- A member of a list without repetition, and the others around it. -/
theorem split_of_nodup {α : Type} {y : α} {l : List α} (hl : l.Nodup) (hy : y ∈ l) :
    ∃ a b : List α, l = a ++ y :: b ∧ y ∉ a ∧ y ∉ b := by
  obtain ⟨a, b, rfl⟩ := List.append_of_mem hy
  obtain ⟨-, hb, hab⟩ := List.nodup_append.mp hl
  exact ⟨a, b, rfl, fun h => hab y h y (by simp) rfl, (List.nodup_cons.mp hb).1⟩

/-- A track or zone and the others around it, in order. -/
theorem fours_split (i : Fin 4) : ∃ a b : List (Fin 4), fours = a ++ i :: b ∧ i ∉ a ∧ i ∉ b :=
  split_of_nodup (by decide) (by revert i; decide)

section
variable (ss : Session) (start : Nat) {s : State} {p : Nat}

/-- What a close's record work reads of the rest. -/
theorem Follows.closing {T : Nat → Session → Prop} {t : State} (h : Follows T s t) (hp : t.plan = s.plan) :
    t.dueFrom start = s.dueFrom start ∧ t.clock.stamp = s.clock.stamp ∧ t.track (t.trackOf p) = s.track (s.trackOf p) := by
  refine ⟨by rw [State.dueFrom, State.dueFrom, h.set], by rw [h.clock], ?_⟩
  rw [State.trackOf_congr h.set, State.track, State.track, hp]

theorem closeRecords_record (hw : Tab.wf clearedAt s.reg.recs = true) {l : List Nat} (hl : l.Nodup) :
    (s.record p ss).Closes (p ∈ l) (s.dueFrom start) s.clock.stamp ((s.track (s.trackOf p)).state == .ended)
      ((l.foldl (State.closeRecord ss start false) s).record p ss) := by
  have rest (s : State) (hw : Tab.wf clearedAt s.reg.recs = true) {l : List Nat} (h : p ∉ l) :
      (s.record p ss).Waits ((l.foldl (State.closeRecord ss start false) s).record p ss) :=
    (closeRecords_follows ss start false s l).record hw fun ⟨q, hq, e⟩ => h ((Prod.mk.inj e).1 ▸ hq)
  by_cases hp : p ∈ l
  · obtain ⟨a, b, rfl, ha, hb⟩ := split_of_nodup hl hp
    rw [List.foldl_append, List.foldl_cons]
    have first := closeRecords_follows ss start false s a
    have hplan : (a.foldl (State.closeRecord ss start false) s).plan = s.plan :=
      foldl_kept State.plan (State.closeRecord_plan ss start false) s a
    obtain ⟨hdue, hstamp, htrack⟩ := first.closing start hplan (p := p)
    refine .before (rest s hw ha) (.after ?_ (rest _ ((State.closeRecord_moves _ ss start false p).wf (first.wf hw)) hb))
    generalize a.foldl (State.closeRecord ss start false) s = t at hdue hstamp htrack
    rw [← hdue, ← hstamp, ← htrack]
    refine ⟨_, .refl _, fun _ hu => State.closeRecord_record hu start, fun hn => ?_⟩
    rw [(t.closeRecord_eq ss start false p).2 fun hu => hn ⟨hp, hu⟩]
    exact .refl _
  · exact .of_waits (fun h => hp h.1) (rest s hw hp)

theorem closeGroup_record {x : State × Bool} (hp : Tab.wf factoryPupil x.1.set.pupils = true)
    (hw : Tab.wf clearedAt x.1.reg.recs = true) (g : Nat) :
    (x.1.record p ss).Closes (p ∈ x.1.members g ∧ x.1.groupStatus g ss = .submitted) (x.1.dueFrom start) x.1.clock.stamp
      ((x.1.track (x.1.trackOf p)).state == .ended) ((State.closeGroup ss start false x g).1.record p ss) := by
  rcases closeGroup_cases ss start false x g with ⟨-, hs, e⟩ | ⟨hm, e⟩ | ⟨hm, e⟩ | ⟨-, -, hs, e⟩
  · rw [e]
    exact (closeRecords_record ss start hw (State.nodup_members hp g)).congr (by simp [hs])
  · rw [e]
    exact .of_waits (fun h => by simp [hm] at h) (.refl _)
  · rw [e]
    exact .of_waits (fun h => by simp [hm.2] at h) (.refl _)
  · rw [e]
    exact .of_waits (fun h => hs h.1.2) (.refl _)

/-- The groups' closes move the records of their members alone. -/
theorem closeGroups_follows (closing : Bool) (x : State × Bool) (l : List Nat) :
    Follows (fun q st => ∃ g ∈ l, st = ss ∧ q ∈ x.1.members g) x.1 (l.foldl (State.closeGroup ss start closing) x).1 :=
  .foldl Prod.fst (fun z g hz => (closeGroup_follows ss start closing z g).mono fun _ _ h =>
    ⟨h.1, (State.members_congr hz g) ▸ h.2.1⟩) l

theorem closeGroups_record {x : State × Bool} (hp : Tab.wf factoryPupil x.1.set.pupils = true)
    (hw : Tab.wf clearedAt x.1.reg.recs = true) {l : List Nat} (hl : l.Nodup) :
    (x.1.record p ss).Closes
      ((x.1.pupil p).inUse = true ∧ (x.1.pupil p).group ∈ l ∧ x.1.groupStatus (x.1.pupil p).group ss = .submitted)
      (x.1.dueFrom start) x.1.clock.stamp ((x.1.track (x.1.trackOf p)).state == .ended)
      ((l.foldl (State.closeGroup ss start false) x).1.record p ss) := by
  have rest (x : State × Bool) (hp : Tab.wf factoryPupil x.1.set.pupils = true) (hw : Tab.wf clearedAt x.1.reg.recs = true)
      {l : List Nat} (h : (x.1.pupil p).group ∉ l) :
      (x.1.record p ss).Waits ((l.foldl (State.closeGroup ss start false) x).1.record p ss) := by
    refine (closeGroups_follows ss start false x l).record hw fun ⟨g, hg, _, hm⟩ => h ?_
    obtain ⟨-, rfl⟩ := (State.mem_members hp g p).mp hm
    exact hg
  by_cases hg : (x.1.pupil p).group ∈ l
  · obtain ⟨a, b, hab, ha, hb⟩ := split_of_nodup hl hg
    have hla : a.Nodup := (List.nodup_append.mp (hab ▸ hl)).1
    rw [hab, List.foldl_append, List.foldl_cons]
    have first := closeGroups_follows ss start false x a
    have hplan : (a.foldl (State.closeGroup ss start false) x).1.plan = x.1.plan :=
      foldl_kept (fun x : State × Bool => x.1.plan) (State.closeGroup_plan ss start false) x a
    have hstatus := closeGroups_status ss start false hla x (x.1.pupil p).group ss
    rw [if_neg fun h => ha h.1] at hstatus
    obtain ⟨hdue, hstamp, htrack⟩ := first.closing start hplan (p := p)
    have hset := first.set
    have hw1 := first.wf hw
    refine .before (rest x hp hw ha) ?_
    generalize a.foldl (State.closeGroup ss start false) x = y at hdue hstamp htrack hset hw1 hstatus
    have hp1 : Tab.wf factoryPupil y.1.set.pupils = true := hset ▸ hp
    have last := closeGroup_follows ss start false y (x.1.pupil p).group
    rw [← hdue, ← hstamp, ← htrack]
    refine .after ((closeGroup_record ss start hp1 hw1 (x.1.pupil p).group).congr ?_)
      (rest _ (last.set ▸ hp1) (last.wf hw1) ?_)
    · rw [State.mem_members hp1, hstatus, State.pupil, hset]
      simp [State.pupil]
    · rw [State.pupil, last.set, hset]
      exact hb
  · exact .of_waits (fun h => hg h.1.2.1) (rest x hp hw hg)

end

namespace State
variable {s : State} {p : Nat} (i : Fin 4) (ss : Session) (start : Nat)

theorem closeSession_follows (s : State) (closing : Bool) :
    Follows (fun q st => ∃ g ∈ s.groupsOf i, st = ss ∧ q ∈ s.members g) s (s.closeSession i ss start closing) := by
  have groups : Follows (fun q st => ∃ g ∈ s.groupsOf i, st = ss ∧ q ∈ s.members g) s _ :=
    (Follows.setSession s i ss (some .closed)).trans
      (closeGroups_follows ss start closing (s.setSession i ss (some .closed), false) (s.groupsOf i))
  rw [s.closeSession_cases]
  split
  · exact groups.trans (.raise _ _)
  · exact groups

theorem closeSession_record (hp : Tab.wf factoryPupil s.set.pupils = true) (hw : Tab.wf clearedAt s.reg.recs = true) :
    (s.record p ss).Closes
      ((s.pupil p).inUse = true ∧ ((s.pupil p).group < 120 ∧ s.trackOf p = i) ∧ s.groupStatus (s.pupil p).group ss = .submitted)
      (s.dueFrom start) s.clock.stamp ((s.track (s.trackOf p)).state == .ended) ((s.closeSession i ss start false).record p ss) := by
  have groups := closeGroups_record ss start (p := p) (x := (s.setSession i ss (some .closed), false)) hp hw (s.nodup_groupsOf i)
  simp only [s.mem_groupsOf] at groups
  rw [s.closeSession_cases]
  split
  · exact groups
  · exact groups

end State

end Sys2Proof.Machine
end

