-- ==== Sys2Proof/Proofs/TrackWork.lean ====
section
/-! SUPPORT. What follows the time at one track and session (R31, R99, R108), and what the other tracks and sessions leave there. -/

namespace Sys2Proof.Machine

/-! ## What the others leave -/

/-- Moves beside one session of one track: its record work, its state, its statuses and the track stay, while DUE alerts may be served. -/
structure Beside (i : Fin 4) (ss : Session) (a b : State) : Prop where
  follows : Follows (fun p st => Tab.wf factoryPupil a.set.pupils = true → ¬ (a.trackOf p = i ∧ st = ss)) a b
  track : b.track i = a.track i
  session : b.session i ss = a.session i ss
  status : ∀ g : Nat, (a.group g).track = i → b.groupStatus g ss = a.groupStatus g ss

namespace Beside
variable {i j : Fin 4} {ss st : Session} {a s t : State}

theorem refl (i : Fin 4) (ss : Session) (s : State) : Beside i ss s s := ⟨.refl _ s, rfl, rfl, fun _ _ => rfl⟩

theorem trans (h : Beside i ss a s) (k : Beside i ss s t) : Beside i ss a t where
  follows := by
    refine h.follows.trans (k.follows.mono fun p st => ?_)
    rw [h.follows.set, State.trackOf_congr h.follows.set]
    exact id
  track := k.track.trans h.track
  session := k.session.trans h.session
  status g hg := (k.status g (by rwa [State.group_congr h.follows.set])).trans (h.status g hg)

theorem record (h : Beside i ss s t) (hp : Tab.wf factoryPupil s.set.pupils = true) (hw : Tab.wf clearedAt s.reg.recs = true) {p : Nat}
    (ht : s.trackOf p = i) : (s.record p ss).Waits (t.record p ss) := h.follows.record hw fun hT => hT hp ⟨ht, rfl⟩

theorem foldl {α : Type} {f : State → α → State} {l : List α} (hf : ∀ (s : State), ∀ x ∈ l, Beside i ss s (f s x)) (s : State) :
    Beside i ss s (l.foldl f s) := by
  induction l generalizing s with
  | nil => exact refl i ss s
  | cons x l ih =>
    exact (hf s x (List.mem_cons_self ..)).trans (ih (fun s y hy => hf s y (List.mem_cons_of_mem x hy)) _)

theorem setTrack (h : j ≠ i) (s : State) (x : Track) : Beside i ss s (s.setTrack j x) :=
  ⟨.setTrack s j x, Quad.get_set_other s.plan.tracks x h.symm, rfl, fun _ _ => rfl⟩

theorem setSession (h : j ≠ i ∨ st ≠ ss) (s : State) (v : Option SessState) : Beside i ss s (s.setSession j st v) := by
  refine ⟨.setSession s j st v, rfl, ?_, fun _ _ => rfl⟩
  rw [s.session_setSession, if_neg]
  rintro ⟨rfl, rfl⟩
  simp at h

theorem openSessionAt (h : j ≠ i ∨ st ≠ ss) (s : State) : Beside i ss s (s.openSessionAt j st) := by
  unfold State.openSessionAt
  split
  · split
    · exact setSession h s _
    · exact refl i ss s
  · exact refl i ss s

theorem closeSession (h : j ≠ i ∨ st ≠ ss) (s : State) (start : Nat) (closing : Bool) : Beside i ss s (s.closeSession j st start closing) where
  follows := by
    refine (s.closeSession_follows j st start closing).mono fun p st' => ?_
    rintro ⟨g, hg, rfl, hm⟩ hp ⟨ht, rfl⟩
    obtain ⟨-, rfl⟩ := (State.mem_members hp g p).mp hm
    exact h.elim (fun hj => hj (((s.mem_groupsOf j _).mp hg).2.symm.trans ht)) fun hs => hs rfl
  track := by rw [State.track, s.closeSession_plan, State.track]
  session := by
    rw [s.closeSession_session, if_neg]
    rintro ⟨rfl, rfl⟩
    simp at h
  status g hg := by
    rw [s.closeSession_status, if_neg]
    rintro ⟨⟨-, hj⟩, rfl⟩
    exact h.elim (fun hne => hne (hj.symm.trans hg)) fun hs => hs rfl

theorem closeSessionAt (h : j ≠ i ∨ st ≠ ss) (s : State) : Beside i ss s (s.closeSessionAt j st) := by
  unfold State.closeSessionAt
  split
  · split
    · split
      · exact closeSession h s _ _
      · exact refl i ss s
    · exact refl i ss s
  · exact refl i ss s

end Beside

/-! ## WITHHELD alerts at a track's end (R108) -/

section
variable (s : State) (i : Fin 4)

/-- The records whose WITHHELD alerts a track's end makes DUE. -/
def State.endKeys : List Nat :=
  Tab.filter s.reg.recs fun k r => r.alert == .withheld && r.mark == .n && s.trackOf (keyPupil k) == i

theorem State.withheldDue_eq : s.withheldDue i = (s.endKeys i).foldl (fun u k => u.alertBecomesDue (keyPupil k) (keySession k)) s := rfl

theorem State.endKeys_mem {s : State} (hw : Tab.wf clearedAt s.reg.recs = true) (p : Nat) (ss : Session) :
    recKey p ss ∈ s.endKeys i ↔ (s.record p ss).alert = .withheld ∧ (s.record p ss).mark = .n ∧ s.trackOf p = i := by
  rw [State.endKeys, (State.filter_recs hw fun _ => rfl).2, keyPupil_recKey, keySession_recKey]
  simp [and_assoc]

theorem dueRecords_moves (s : State) (l : List Nat) :
    Moves (fun p ss => recKey p ss ∈ l) s (l.foldl (fun u k => u.alertBecomesDue (keyPupil k) (keySession k)) s) := by
  induction l generalizing s with
  | nil => exact .refl _ s
  | cons k l ih =>
    refine ((s.alertBecomesDue_moves _ _).mono fun p ss e => ?_).trans ((ih _).mono fun p ss h => List.mem_cons_of_mem k h)
    rw [(Prod.mk.inj e).1, (Prod.mk.inj e).2, recKey_keys]
    exact List.mem_cons_self ..

theorem State.withheldDue_moves : Moves (fun p ss => recKey p ss ∈ s.endKeys i) s (s.withheldDue i) := dueRecords_moves s _

/-- A record as its track's end leaves it. -/
def Rec.atEnd (r : Rec) (now : Stamp) : Rec := if r.alert = .withheld ∧ r.mark = .n then r.dueNow now else r

theorem State.withheldDue_record {s : State} (hw : Tab.wf clearedAt s.reg.recs = true) {p : Nat} (ss : Session) (ht : s.trackOf p = i) :
    ((s.record p ss).atEnd s.clock.stamp).Waits ((s.withheldDue i).record p ss) := by
  have hnd : (s.endKeys i).Nodup := (State.filter_recs hw fun _ => rfl).1
  unfold Rec.atEnd
  by_cases h : recKey p ss ∈ s.endKeys i
  · obtain ⟨ha, hm, -⟩ := (State.endKeys_mem i hw p ss).mp h
    obtain ⟨a, b, hab, hna, hnb⟩ := split_of_nodup hnd h
    rw [if_pos ⟨ha, hm⟩, State.withheldDue_eq, hab, List.foldl_append, List.foldl_cons, keyPupil_recKey, keySession_recKey]
    have first := dueRecords_moves s a
    have hr := (first.others hw p ss hna).eq_of (by simp [ha])
    rw [← hr, ← first.clock]
    exact .trans ⟨fun h => absurd rfl h, State.alertBecomesDue_record _ p ss⟩
      ((dueRecords_moves _ b).others ((State.alertBecomesDue_moves _ p ss).wf (first.wf hw)) p ss hnb)
  · rw [if_neg fun e => h ((State.endKeys_mem i hw p ss).mpr ⟨e.1, e.2, ht⟩)]
    exact (s.withheldDue_moves i).others hw p ss h

/-- The alert has been started and is not WITHHELD. -/
def Rec.released (r : Rec) : Prop := r.alert ≠ .withheld ∧ r.alert ≠ .noAlert

theorem Rec.Served.released {r v : Rec} (h : r.Served v) (hr : r.released) : v.released := by
  refine ⟨?_, h.alert_ne hr.2⟩
  rcases h with rfl | ⟨x, rfl | rfl | rfl, rfl⟩
  · exact hr.1
  · exact hr.1
  · simp
  · simp

/-- An alert that becomes DUE is released, and another record keeps an alert that has been started, and its release. -/
theorem State.alertBecomesDue_released (s : State) {p q : Nat} {ss st : Session} (h : (s.record p ss).alert ≠ .noAlert) :
    ((s.alertBecomesDue q st).record p ss).alert ≠ .noAlert ∧
      ((s.record p ss).released → ((s.alertBecomesDue q st).record p ss).released) ∧
      ((p, ss) = (q, st) → ((s.alertBecomesDue q st).record p ss).released) := by
  by_cases he : (p, ss) = (q, st)
  · cases he
    have released := (s.alertBecomesDue_record p ss).released ⟨by simp [Rec.dueNow], by simp [Rec.dueNow]⟩
    exact ⟨released.2, fun _ => released, fun _ => released⟩
  · have served := (s.alertBecomesDue_serves q st (w := False) False.elim).listed p ss
    rw [s.record_putRec_other _ he] at served
    exact ⟨(served h).alert_ne h, (served h).released, fun e => absurd e he⟩

/-- A WITHHELD alert marked N of the track's pupils is released at the track's end, whatever the table's form. -/
theorem State.withheldDue_released {s : State} {p : Nat} {ss : Session} (ha : (s.record p ss).alert = .withheld)
    (hm : (s.record p ss).mark = .n) (ht : s.trackOf p = i) : ((s.withheldDue i).record p ss).released := by
  have each (l : List Nat) (s : State) (h : (s.record p ss).alert ≠ .noAlert) (hk : recKey p ss ∈ l ∨ (s.record p ss).released) :
      ((l.foldl (fun u k => u.alertBecomesDue (keyPupil k) (keySession k)) s).record p ss).released := by
    induction l generalizing s with
    | nil => simpa using hk
    | cons k l ih =>
      obtain ⟨hne, kept, own⟩ := s.alertBecomesDue_released (q := keyPupil k) (st := keySession k) h
      refine ih _ hne (hk.elim (fun hk => (List.mem_cons.mp hk).elim (fun e => .inr (own ?_)) .inl) fun hr => .inr (kept hr))
      rw [← e, keyPupil_recKey, keySession_recKey]
  refine each _ s (by simp [ha]) (.inl (List.mem_filterMap.mpr ⟨(recKey p ss, s.record p ss), ?_, ?_⟩))
  · exact (Tab.get_mem_or clearedAt s.reg.recs (recKey p ss)).resolve_left fun e => by
      have hc : s.record p ss = Rec.cleared := e
      simp [hc, Rec.cleared] at ha
  · simp [keyPupil_recKey, ha, hm, ht]

theorem Beside.withheldDue {j : Fin 4} (h : j ≠ i) (ss : Session) : Beside i ss s (s.withheldDue j) where
  follows := by
    refine (s.withheldDue_moves j).follows.mono_wf fun hw p st hk _ e => h ?_
    exact ((State.endKeys_mem j hw p st).mp hk).2.2.symm.trans e.1
  track := by rw [State.track, s.withheldDue_plan, State.track]
  session := State.session_congr (s.withheldDue_moves j).sess i ss
  status g _ := State.groupStatus_congr (s.withheldDue_moves j).status g ss

end

/-! ## One session at the time (R99, R112) -/

/-- The close time of a track's session. -/
def State.closeTime (s : State) (i : Fin 4) (ss : Session) : Option Nat :=
  (s.track i).plan.bind fun p => sessionClose p (s.track i).delay ss

/-- The session is to close at minute `m`, which is reached. -/
def State.shuts (s : State) (i : Fin 4) (ss : Session) (m : Nat) : Prop :=
  s.closeTime i ss = some m ∧ m * 60 ≤ s.clock.secs ∧ s.session i ss ≠ none ∧ s.session i ss ≠ some .closed

/-- The session is BEFORE and its point has begun. -/
def State.opens (s : State) (i : Fin 4) (ss : Session) : Prop :=
  s.session i ss = some .before ∧ ∃ p : PlanIF, (s.track i).plan = some p ∧ pointBegun p ss = true

section
variable {s : State} (i : Fin 4) (ss : Session)

theorem State.openSessionAt_cases (s : State) :
    (s.opens i ss ∧ s.openSessionAt i ss = s.setSession i ss (some .opened)) ∨ (¬ s.opens i ss ∧ s.openSessionAt i ss = s) := by
  unfold State.openSessionAt State.opens
  split
  · rename_i p hp hs
    split
    · rename_i hb
      exact .inl ⟨⟨hs, p, hp, hb⟩, rfl⟩
    · rename_i hb
      refine .inr ⟨?_, rfl⟩
      rintro ⟨-, q, hq, h⟩
      exact hb (Option.some.inj (hp.symm.trans hq) ▸ h)
  · rename_i hno
    refine .inr ⟨?_, rfl⟩
    rintro ⟨hs, q, hq, -⟩
    exact hno q hq hs

theorem State.closeSessionAt_cases (hd : s.dayOver = false) :
    (∃ m : Nat, s.shuts i ss m ∧ s.closeSessionAt i ss = s.closeSession i ss (m * 60) false) ∨
      ((∀ m : Nat, ¬ s.shuts i ss m) ∧ s.closeSessionAt i ss = s) := by
  unfold State.closeSessionAt State.shuts State.closeTime
  split
  · rename_i p x hp hx
    split
    · rename_i m hm
      rw [hp, hx, hd]
      by_cases h : x ≠ .closed ∧ m * 60 ≤ s.clock.secs
      · exact .inl ⟨m, ⟨hm, h.2, by simp, by simpa using h.1⟩, if_pos (by simp [reached, h])⟩
      · refine .inr ⟨?_, if_neg (by simpa [reached] using h)⟩
        rintro n ⟨hn, hr, -, hc⟩
        exact h ⟨by simpa using hc, Option.some.inj (hm.symm.trans hn) ▸ hr⟩
    · rename_i hm
      refine .inr ⟨fun n hn => ?_, rfl⟩
      rw [hp] at hn
      exact Option.some_ne_none n (hn.1.symm.trans hm)
  · rename_i hno
    refine .inr ⟨fun n hn => ?_, rfl⟩
    obtain ⟨hc, -, hs, -⟩ := hn
    obtain ⟨p, hp, -⟩ := Option.bind_eq_some_iff.mp hc
    obtain ⟨x, hx⟩ := Option.ne_none_iff_exists'.mp hs
    exact hno p x hp hx

/-- A track's sessions follow the time: one of them opens and closes in turn, and the other moves beside it. -/
theorem State.followSessions_steps (s : State) :
    ∃ a b : State, Beside i ss s a ∧ Beside i ss (a.openSessionAt i ss) b ∧ Beside i ss (b.closeSessionAt i ss) (s.followSessions i) := by
  cases ss with
  | am => exact ⟨s, _, .refl .., .openSessionAt (.inr (by simp)) _, .closeSessionAt (.inr (by simp)) _⟩
  | pm => exact ⟨_, _, .openSessionAt (.inr (by simp)) _, .closeSessionAt (.inr (by simp)) _, .refl ..⟩

/-- The session, the statuses and the records of one track and session once they have followed the time; `e` says that the track has
ended. -/
structure SessionFollowed (e : Bool) (s u : State) : Prop where
  closed : ∀ m : Nat, s.shuts i ss m → u.session i ss = some .closed
  kept : (∀ m : Nat, ¬ s.shuts i ss m) →
    (s.opens i ss → u.session i ss = some .opened) ∧ (¬ s.opens i ss → u.session i ss = s.session i ss)
  statuses : ∀ (m g : Nat), s.shuts i ss m → g < 120 → (s.group g).track = i → u.groupStatus g ss = s.closedStatus g ss
  raised : ∀ (m g : Nat), s.shuts i ss m → g < 120 → (s.group g).track = i → s.goesMissing g ss → u.link.isSet .registerMissing = true
  statusKept : (∀ m : Nat, ¬ s.shuts i ss m) → ∀ g : Nat, (s.group g).track = i → u.groupStatus g ss = s.groupStatus g ss
  records : Tab.wf factoryPupil s.set.pupils = true → Tab.wf clearedAt s.reg.recs = true → ∀ p : Nat, s.trackOf p = i →
    (∀ m : Nat, s.shuts i ss m → (s.record p ss).Closes
      ((s.pupil p).inUse = true ∧ (s.pupil p).group < 120 ∧ s.groupStatus (s.pupil p).group ss = .submitted)
      (s.dueFrom (m * 60)) s.clock.stamp e (u.record p ss)) ∧
    ((∀ m : Nat, ¬ s.shuts i ss m) → (s.record p ss).Waits (u.record p ss))


/-! ## What the others leave of what a session's following reads -/

namespace Beside
variable {i ss} {a u : State}

theorem shuts (h : Beside i ss a s) (m : Nat) : s.shuts i ss m ↔ a.shuts i ss m := by
  rw [State.shuts, State.shuts, State.closeTime, State.closeTime, h.track, h.session, h.follows.clock]

theorem opens (h : Beside i ss a s) : s.opens i ss ↔ a.opens i ss := by
  rw [State.opens, State.opens, h.track, h.session]

theorem pupil (h : Beside i ss a s) (p : Nat) : s.pupil p = a.pupil p := by rw [State.pupil, State.pupil, h.follows.set]

theorem group (h : Beside i ss a s) (g : Nat) : s.group g = a.group g := State.group_congr h.follows.set g

theorem closedStatus (h : Beside i ss a s) {g : Nat} (hg : (a.group g).track = i) : s.closedStatus g ss = a.closedStatus g ss := by
  rw [State.closedStatus, State.closedStatus, h.status g hg, State.members_congr h.follows.set]

theorem goesMissing (h : Beside i ss a s) {g : Nat} (hg : (a.group g).track = i) : s.goesMissing g ss ↔ a.goesMissing g ss := by
  rw [State.goesMissing, State.goesMissing, h.status g hg, State.members_congr h.follows.set]

end Beside

namespace SessionFollowed
variable {i ss} {e : Bool} {a u : State}

theorem before (h : Beside i ss a s) (k : SessionFollowed i ss e s u) : SessionFollowed i ss e a u where
  closed m hm := k.closed m ((h.shuts m).mpr hm)
  kept hn := by
    have := k.kept fun m hm => hn m ((h.shuts m).mp hm)
    rwa [h.opens, h.session] at this
  statuses m g hm hg ht := (k.statuses m g ((h.shuts m).mpr hm) hg (by rwa [h.group])).trans (h.closedStatus ht)
  raised m g hm hg ht hmiss := k.raised m g ((h.shuts m).mpr hm) hg (by rwa [h.group]) ((h.goesMissing ht).mpr hmiss)
  statusKept hn g ht := (k.statusKept (fun m hm => hn m ((h.shuts m).mp hm)) g (by rwa [h.group])).trans (h.status g ht)
  records hp hw p ht := by
    have hr := h.record hp hw ht
    obtain ⟨closes, waits⟩ := k.records (h.follows.set.symm ▸ hp) (h.follows.wf hw) p (by rwa [State.trackOf_congr h.follows.set])
    refine ⟨fun m hm => .before hr ?_, fun hn => hr.trans (waits fun m hm => hn m ((h.shuts m).mp hm))⟩
    have := closes m ((h.shuts m).mpr hm)
    rw [State.dueFrom, h.follows.set, h.follows.clock, h.pupil] at this
    refine this.congr (and_congr_right fun _ => and_congr_right fun _ => ?_)
    rw [h.status _ ht]

theorem after (k : SessionFollowed i ss e s a) (hset : a.set = s.set)
    (hwf : Tab.wf clearedAt s.reg.recs = true → Tab.wf clearedAt a.reg.recs = true)
    (h : Beside i ss a u) : SessionFollowed i ss e s u where
  closed m hm := h.session.trans (k.closed m hm)
  kept hn := by rw [h.session]; exact k.kept hn
  statuses m g hm hg ht := (h.status g (by rwa [State.group_congr hset])).trans (k.statuses m g hm hg ht)
  raised m g hm hg ht hmiss := h.follows.raised _ (k.raised m g hm hg ht hmiss)
  statusKept hn g ht := (h.status g (by rwa [State.group_congr hset])).trans (k.statusKept hn g ht)
  records hp hw p ht := by
    obtain ⟨closes, waits⟩ := k.records hp hw p ht
    have hr := h.record (p := p) (hset ▸ hp) (hwf hw) (by rwa [State.trackOf_congr hset])
    exact ⟨fun m hm => (closes m hm).after hr, fun hn => (waits hn).trans hr⟩

/-- A session that is not to open is closed, or left. -/
theorem of_close (hd : s.dayOver = false) (ho : ¬ s.opens i ss) :
    SessionFollowed i ss ((s.track i).state == .ended) s (s.closeSessionAt i ss) := by
  rcases s.closeSessionAt_cases i ss hd with ⟨m, hm, e⟩ | ⟨hn, e⟩
  · have unique {n : Nat} (hn : s.shuts i ss n) : n = m := Option.some.inj (hn.1.symm.trans hm.1)
    rw [e]
    exact
      { closed := fun n hn => by rw [s.closeSession_session, if_pos ⟨rfl, rfl⟩]
        kept := fun hn => absurd hm (hn m)
        statuses := fun n g _ hg ht => by rw [s.closeSession_status, if_pos ⟨⟨hg, ht⟩, rfl⟩]
        raised := fun n g _ hg ht hmiss => s.closeSession_raised i ss _ _ hg ht hmiss
        statusKept := fun hn => absurd hm (hn m)
        records := fun hp hw p ht => by
          refine ⟨fun n hn => ?_, fun hn => absurd hm (hn m)⟩
          rw [unique hn]
          have closes := s.closeSession_record i ss (m * 60) hp hw (p := p)
          rw [ht] at closes
          exact closes.congr (by simp) }
  · rw [e]
    exact
      { closed := fun m hm => absurd hm (hn m)
        kept := fun _ => ⟨fun h => absurd h ho, fun _ => rfl⟩
        statuses := fun m _ hm => absurd hm (hn m)
        raised := fun m _ hm => absurd hm (hn m)
        statusKept := fun _ _ _ => rfl
        records := fun _ _ p _ => ⟨fun m hm => absurd hm (hn m), fun _ => .refl _⟩ }

/-- An opening before what follows. -/
theorem of_open (k : ∀ t : State, t = s.openSessionAt i ss → ¬ t.opens i ss → SessionFollowed i ss e t u) : SessionFollowed i ss e s u := by
  rcases s.openSessionAt_cases i ss with ⟨ho, h⟩ | ⟨ho, h⟩
  · have hs : (s.setSession i ss (some .opened)).session i ss = some .opened := by rw [s.session_setSession, if_pos ⟨rfl, rfl⟩]
    have hshuts (m : Nat) : (s.setSession i ss (some .opened)).shuts i ss m ↔ s.shuts i ss m := by
      rw [State.shuts, hs, State.shuts, ho.1]
      simp [State.closeTime, State.track, State.setSession]
    have followed := k _ h.symm (by rw [State.opens, hs]; simp)
    exact
      { closed := fun m hm => followed.closed m ((hshuts m).mpr hm)
        kept := fun hn => ⟨fun _ => ((followed.kept fun m hm => hn m ((hshuts m).mp hm)).2 (by rw [State.opens, hs]; simp)).trans hs,
          fun h => absurd ho h⟩
        statuses := fun m g hm => followed.statuses m g ((hshuts m).mpr hm)
        raised := fun m g hm => followed.raised m g ((hshuts m).mpr hm)
        statusKept := fun hn => followed.statusKept fun m hm => hn m ((hshuts m).mp hm)
        records := fun hp hw p ht => by
          obtain ⟨closes, waits⟩ := followed.records hp hw p ht
          exact ⟨fun m hm => closes m ((hshuts m).mpr hm), fun hn => waits fun m hm => hn m ((hshuts m).mp hm)⟩ }
  · exact k s h.symm ho

end SessionFollowed

theorem State.openSessionAt_follows (s : State) : Follows (fun _ _ => False) s (s.openSessionAt i ss) := by
  rcases s.openSessionAt_cases i ss with ⟨-, h⟩ | ⟨-, h⟩
  · rw [h]
    exact .setSession _ _ _ _
  · rw [h]
    exact .refl _ _

theorem State.closeSessionAt_follows (s : State) : Follows (fun _ _ => True) s (s.closeSessionAt i ss) := by
  unfold State.closeSessionAt
  split
  · split
    · split
      · exact (s.closeSession_follows i ss _ _).mono fun _ _ _ => trivial
      · exact .refl _ s
    · exact .refl _ s
  · exact .refl _ s

theorem State.followSessions_follows (s : State) : Follows (fun _ _ => True) s (s.followSessions i) := by
  have opened (s : State) (ss : Session) := (s.openSessionAt_follows i ss).mono (T := fun _ _ => True) fun _ _ _ => trivial
  exact (((opened s .am).trans (opened _ .pm)).trans (State.closeSessionAt_follows i .am _)).trans (State.closeSessionAt_follows i .pm _)

theorem State.followSessions_followed (hd : s.dayOver = false) :
    SessionFollowed i ss ((s.track i).state == .ended) s (s.followSessions i) := by
  obtain ⟨a, b, ha, hb, hc⟩ := s.followSessions_steps i ss
  refine .before ha (.of_open fun t ht ho => ?_)
  subst ht
  have opened := a.openSessionAt_follows i ss
  have hb' : b.dayOver = false := hb.follows.dayOver.trans (opened.dayOver.trans (ha.follows.dayOver.trans hd))
  have hopened : (a.openSessionAt i ss).track i = a.track i :=
    congrArg (fun x : Planner => x.tracks.get i) (a.openSessionAt_plan i ss)
  have htrack : s.track i = b.track i := by rw [hb.track, hopened, ha.track]
  have closed := b.closeSessionAt_follows i ss
  rw [htrack]
  exact .before hb ((SessionFollowed.of_close hb' fun h => ho (hb.opens.mp h)).after closed.set closed.wf hc)

end

/-! ## All tracks (R31, R108) -/

namespace Track
variable (x : Track) (secs : Nat)

theorem follow_ended (past : Bool) (h : x.state = .ended) : x.follow secs past = x := by
  unfold follow
  rw [h]

theorem follow_none (past : Bool) (h : x.plan = none) : x.follow secs past = x := by
  unfold follow
  rw [h]
  split <;> simp_all

/-- A track with a plan in force, not ended, at a time of its day. -/
theorem follow_plan {p : PlanIF} (hp : x.plan = some p) (he : x.state ≠ .ended) :
    x.follow secs false =
      { x with
        plan := some { p with segs := markBegun secs (dayStart p x.delay) p.segs }
        state :=
          if reached (dayEndOf p x.delay) secs then .ended
          else if firstBegun { p with segs := markBegun secs (dayStart p x.delay) p.segs } then .running else x.state } := by
  unfold follow
  rw [hp]
  split
  · exact absurd ‹_› he
  · simp_all
  · rename_i q _ _ hq _
    cases hq
    simp

/-- The close times stay. -/
theorem follow_closeTime (ss : Session) :
    ((x.follow secs false).plan.bind fun p => sessionClose p (x.follow secs false).delay ss) =
      x.plan.bind fun p => sessionClose p x.delay ss := by
  have points (t : Nat) (l : List SegIF) : pointIn ss t (markBegun secs t l) = pointIn ss t l := by
    induction l generalizing t with
    | nil => rfl
    | cons g l ih => simp only [markBegun, pointIn, ih]
  by_cases he : x.state = .ended
  · rw [x.follow_ended secs false he]
  · cases hp : x.plan with
    | none => rw [x.follow_none secs false hp, hp]
    | some p =>
      have hpoint : sessionPoint { p with segs := markBegun secs (dayStart p x.delay) p.segs } x.delay ss = sessionPoint p x.delay ss :=
        points _ _
      rw [x.follow_plan secs hp he]
      simp only [Option.bind_some, sessionClose, hpoint]
      rfl

end Track

namespace Beside
variable {i j : Fin 4} {ss : Session} {a s : State}

theorem setTrack_both (h : Beside i ss a s) (x : Track) : Beside i ss (a.setTrack i x) (s.setTrack i x) where
  follows := by
    obtain ⟨hl, hdesk, hraised, htallies, hwf, hothers⟩ := h.follows
    obtain ⟨⟨hclock, hset, hplan, hrest⟩, hs⟩ := hl
    refine ⟨⟨⟨hclock, hset, ?_, hrest⟩, hs⟩, hdesk, hraised, htallies, hwf, hothers⟩
    exact congrArg (fun y : Planner => { y with tracks := s.plan.tracks.set i x }) hplan
  track := (Quad.get_set_same _ i x).trans (Quad.get_set_same _ i x).symm
  session := h.session
  status := h.status

theorem followSessions (h : j ≠ i) (s : State) : Beside i ss s (s.followSessions j) :=
  (((openSessionAt (.inl h) s).trans (openSessionAt (.inl h) _)).trans (closeSessionAt (.inl h) _)).trans (closeSessionAt (.inl h) _)

theorem followTrack (h : j ≠ i) (s : State) : Beside i ss s (s.followTrack j) := by
  have sessions := (setTrack (ss := ss) h s ((s.track j).follow s.clock.secs s.dayOver)).trans (followSessions h _)
  dsimp only [State.followTrack]
  split
  · exact sessions.trans (.withheldDue _ i h ss)
  · exact sessions

end Beside

/-- The track's state once it has followed the time. -/
def State.trackNow (s : State) (i : Fin 4) : Track := (s.track i).follow s.clock.secs false

/-- The track ends. -/
def State.trackEnds (s : State) (i : Fin 4) : Bool := (s.track i).state ≠ .ended && (s.trackNow i).state = .ended

/-- One track and session once all tracks have followed the time, by way of the state `v` before the track's WITHHELD alerts fall due. -/
structure TrackFollowed (i : Fin 4) (ss : Session) (s v u : State) : Prop where
  sessions : SessionFollowed i ss ((s.trackNow i).state == .ended) (s.setTrack i (s.trackNow i)) v
  track : u.track i = s.trackNow i
  session : u.session i ss = v.session i ss
  statuses : ∀ g : Nat, (s.group g).track = i → u.groupStatus g ss = v.groupStatus g ss
  raised : ∀ c : Condition, v.link.isSet c = true → u.link.isSet c = true
  records : Tab.wf factoryPupil s.set.pupils = true → Tab.wf clearedAt s.reg.recs = true → ∀ p : Nat, s.trackOf p = i →
    (if s.trackEnds i then (v.record p ss).atEnd s.clock.stamp else v.record p ss).Waits (u.record p ss)

/-- A track follows the time: the changes, and all of them. -/
theorem State.followTrack_at {s : State} (hd : s.dayOver = false) (i : Fin 4) (ss : Session) :
    ∃ v : State, TrackFollowed i ss s v (s.followTrack i) := by
  have hset : (s.setTrack i (s.trackNow i)).track i = s.trackNow i := Quad.get_set_same _ i _
  have sessions := State.followSessions_followed i ss (s := s.setTrack i (s.trackNow i)) hd
  have follows := State.followSessions_follows i (s.setTrack i (s.trackNow i))
  have hplan : ((s.setTrack i (s.trackNow i)).followSessions i).track i = s.trackNow i := by
    rw [State.track, State.followSessions_plan, ← State.track, hset]
  rw [hset] at sessions
  have same : s.followTrack i =
      if s.trackEnds i then ((s.setTrack i (s.trackNow i)).followSessions i).withheldDue i
      else (s.setTrack i (s.trackNow i)).followSessions i := by
    dsimp only [State.followTrack, State.trackEnds, State.trackNow] at hplan ⊢
    rw [hd, hplan]
    rfl
  have hs : ((s.setTrack i (s.trackNow i)).followSessions i).set = s.set := follows.set
  have hc : ((s.setTrack i (s.trackNow i)).followSessions i).clock = s.clock := follows.clock
  have hwf : Tab.wf clearedAt s.reg.recs = true → Tab.wf clearedAt ((s.setTrack i (s.trackNow i)).followSessions i).reg.recs = true :=
    follows.wf
  refine ⟨(s.setTrack i (s.trackNow i)).followSessions i, ?_⟩
  rw [same]
  generalize (s.setTrack i (s.trackNow i)).followSessions i = v at sessions hplan hs hc hwf
  by_cases he : s.trackEnds i = true
  · rw [if_pos he]
    have ended := v.withheldDue_moves i
    exact
      { sessions := sessions
        track := (congrArg (fun x : Planner => x.tracks.get i) ended.plan).trans hplan
        session := State.session_congr ended.sess i ss
        statuses := fun g _ => State.groupStatus_congr ended.status g ss
        raised := ended.raised
        records := fun _ hw p ht => by
          rw [if_pos he, ← hc]
          exact State.withheldDue_record i (hwf hw) ss (by rwa [State.trackOf_congr hs]) }
  · rw [if_neg he]
    exact
      { sessions := sessions, track := hplan, session := rfl, statuses := fun _ _ => rfl, raised := fun _ h => h
        records := fun _ _ p _ => by
          rw [if_neg he]
          exact .refl _ }

namespace TrackFollowed
variable {i : Fin 4} {ss : Session} {a s v u w : State}

theorem before (h : Beside i ss a s) (k : TrackFollowed i ss s v u) : TrackFollowed i ss a v u := by
  have hnow : s.trackNow i = a.trackNow i := by rw [State.trackNow, State.trackNow, h.track, h.follows.clock]
  have hends : s.trackEnds i = a.trackEnds i := by rw [State.trackEnds, State.trackEnds, hnow, h.track]
  have sessions := k.sessions
  rw [hnow] at sessions
  exact
    { sessions := sessions.before (h.setTrack_both _)
      track := k.track.trans hnow
      session := k.session
      statuses := fun g hg => k.statuses g (by rwa [h.group])
      raised := k.raised
      records := fun hp hw p ht => by
        have := k.records (h.follows.set.symm ▸ hp) (h.follows.wf hw) p (by rwa [State.trackOf_congr h.follows.set])
        rwa [hends, h.follows.clock] at this }

theorem after (k : TrackFollowed i ss s v u) {T : Nat → Session → Prop} (hu : Follows T s u) (h : Beside i ss u w) :
    TrackFollowed i ss s v w where
  sessions := k.sessions
  track := h.track.trans k.track
  session := h.session.trans k.session
  statuses g hg := (h.status g (by rwa [State.group_congr hu.set])).trans (k.statuses g hg)
  raised c hc := h.follows.raised c (k.raised c hc)
  records hp hw p ht := (k.records hp hw p ht).trans
    (h.record (hu.set ▸ hp) (hu.wf hw) (by rwa [State.trackOf_congr hu.set]))

end TrackFollowed

theorem State.followTrack_follows (s : State) (i : Fin 4) : Follows (fun _ _ => True) s (s.followTrack i) := by
  have sessions := (Follows.setTrack (T := fun _ _ => True) s i ((s.track i).follow s.clock.secs s.dayOver)).trans
    (State.followSessions_follows i _)
  dsimp only [State.followTrack]
  split
  · exact sessions.trans ((State.withheldDue_moves _ i).follows.mono fun _ _ _ => trivial)
  · exact sessions

theorem State.followTracks_follows (s : State) : Follows (fun _ _ => True) s s.followTracks := by
  unfold State.followTracks
  split
  · exact (Follows.foldl id (fun s i _ => s.followTrack_follows i) fours).mono fun _ _ _ => trivial
  · exact .refl _ s

/-- In a running day at its date every track and session has followed the time. -/
theorem State.followTracks_at {s : State} (hr : s.dayRuns = true) (hd : s.dayOver = false) (i : Fin 4) (ss : Session) :
    ∃ v : State, TrackFollowed i ss s v s.followTracks := by
  obtain ⟨a, b, hab, ha, hb⟩ := fours_split i
  have rest (s : State) {l : List (Fin 4)} (hl : i ∉ l) : Beside i ss s (l.foldl State.followTrack s) :=
    .foldl (fun s j hj => .followTrack (j := j) (fun e => hl (by rwa [← e])) s) s
  have first := rest s ha
  obtain ⟨v, hv⟩ := State.followTrack_at (first.follows.dayOver.trans hd) i ss
  rw [State.followTracks, if_pos hr, hab, List.foldl_append, List.foldl_cons]
  exact ⟨v, .before first (hv.after (State.followTrack_follows _ i) (rest _ hb))⟩

end Sys2Proof.Machine
end

