-- ==== Sys2Proof/Proofs/Followed.lean ====
section
/-! SUPPORT. How the sessions, statuses and records of a running day follow the time (R31, R99, R106 to R108, R112), from what each track
and session does. -/

namespace Sys2Proof.Machine

/-! ## One record through a close, a track's end and a due time -/

/-- A record after the due times: as it waits, or fallen due (R107). -/
def Rec.FallsTo (now : Stamp) (r v : Rec) : Prop := r.Waits v ∨ (r.fallsDue now.secs = true ∧ (r.fallen now).Waits v)

/-- A record from a session's close on: through its track's end, if `ends`, and the due times. -/
def Rec.Trails (ends : Bool) (now : Stamp) (r v : Rec) : Prop :=
  ∃ x y : Rec, r.Waits x ∧ (if ends then x.atEnd now else x).Waits y ∧ y.FallsTo now v

/-- What marks a record apart from its alert. -/
def Rec.sameMark (r v : Rec) : Prop := v.mark = r.mark ∧ v.minutes = r.minutes ∧ v.source = r.source ∧ v.locked = r.locked

theorem Rec.sameMark.trans {r v w : Rec} (h : r.sameMark v) (k : v.sameMark w) : r.sameMark w := by
  obtain ⟨h1, h2, h3, h4⟩ := h
  obtain ⟨k1, k2, k3, k4⟩ := k
  exact ⟨k1.trans h1, k2.trans h2, k3.trans h3, k4.trans h4⟩

theorem Rec.Waits.sameMark {r v : Rec} (h : r.Waits v) : r.sameMark v := by
  obtain ⟨hmark, hminutes, hsource, hlocked, -⟩ := h.rest
  exact ⟨hmark, hminutes, hsource, hlocked⟩

theorem Rec.fallen_sameMark (r : Rec) (now : Stamp) : r.sameMark (r.fallen now) := by
  unfold Rec.fallen
  split <;> exact ⟨rfl, rfl, rfl, rfl⟩

theorem Rec.atEnd_sameMark (r : Rec) (now : Stamp) : r.sameMark (r.atEnd now) := by
  unfold Rec.atEnd
  split <;> exact ⟨rfl, rfl, rfl, rfl⟩

theorem Rec.atEnd_of_alert {r : Rec} (h : r.alert ≠ .withheld) (now : Stamp) : r.atEnd now = r := if_neg fun e => h e.1

theorem Rec.FallsTo.sameMark {now : Stamp} {r v : Rec} (h : r.FallsTo now v) : r.sameMark v := by
  rcases h with h | ⟨-, h⟩
  · exact h.sameMark
  · exact (r.fallen_sameMark now).trans h.sameMark

theorem Rec.fallsDue_iff (r : Rec) (secs : Nat) : r.fallsDue secs = true ↔ r.alert = .held ∧ ∃ k : Nat, r.due = some k ∧ k ≤ secs := by
  unfold Rec.fallsDue
  rw [Bool.and_eq_true, beq_iff_eq]
  refine and_congr_right fun _ => ?_
  split <;> simp_all

/-- Only a HELD alert whose due time is reached falls due. -/
theorem Rec.FallsTo.waits {now : Stamp} {r v : Rec} (h : r.FallsTo now v)
    (hn : ¬ (r.alert = .held ∧ ∃ k : Nat, r.due = some k ∧ k ≤ now.secs)) : r.Waits v :=
  h.resolve_right fun e => hn ((r.fallsDue_iff _).mp e.1)

namespace Rec.Trails
variable {ends : Bool} {now : Stamp} {r v : Rec}

theorem sameMark (h : r.Trails ends now v) : r.sameMark v := by
  obtain ⟨x, y, hx, hy, hv⟩ := h
  refine hx.sameMark.trans (.trans ?_ hv.sameMark)
  cases ends
  · exact hy.sameMark
  · exact (x.atEnd_sameMark now).trans hy.sameMark

/-- A record whose alert is not WITHHELD, or whose track does not end, goes on to the due times as it waits. -/
theorem falls (h : r.Trails ends now v) (hr : r.alert ≠ .withheld ∨ ends = false) : ∃ y : Rec, r.Waits y ∧ y.FallsTo now v := by
  obtain ⟨x, y, hx, hy, hv⟩ := h
  refine ⟨y, ?_, hv⟩
  cases ends with
  | false => exact hx.trans hy
  | true =>
    have hr : r.alert ≠ .withheld := hr.resolve_right (by simp)
    have hxa : x.alert ≠ .withheld := by
      rcases hx.2 with rfl | ⟨a, rfl | rfl | rfl, rfl⟩
      · exact hr
      · exact hr
      · simp
      · simp
    rw [if_pos rfl, x.atEnd_of_alert hxa] at hy
    exact hx.trans hy

theorem started (h : r.Trails ends now v) (hr : r.started) : v.started := by
  obtain ⟨y, hy, hv⟩ := h.falls (.inl (by rcases hr.1 with e | e | e <;> simp [e]))
  have hys := hy.started hr
  refine (hv.waits ?_).started hys
  rintro ⟨e, -⟩
  rcases hys.1 with k | k | k <;> rw [e] at k <;> cases k

theorem of_end (h : r.Trails true now v) (ha : r.alert = .withheld) (hm : r.mark = .n) : v.started := by
  obtain ⟨x, y, hx, hy, hv⟩ := h
  cases hx.eq_of (by simp [ha])
  rw [if_pos rfl, Rec.atEnd, if_pos ⟨ha, hm⟩] at hy
  have hys := hy.started (r.dueNow_started now)
  refine (hv.waits ?_).started hys
  rintro ⟨e, -⟩
  rcases hys.1 with k | k | k <;> rw [e] at k <;> cases k

theorem eq_of (h : r.Trails ends now v) (hw : r.alert ≠ .withheld ∨ ends = false) (hd : r.alert ≠ .due)
    (hh : ¬ (r.alert = .held ∧ ∃ k : Nat, r.due = some k ∧ k ≤ now.secs)) : v = r := by
  obtain ⟨y, hy, hv⟩ := h.falls hw
  cases hy.eq_of hd
  exact (hv.waits hh).eq_of hd

end Rec.Trails

section
variable {r : Rec} {due : Nat} {now : Stamp} {e : Bool}

theorem Rec.begin_sameMark (r : Rec) (due : Nat) (now : Stamp) (e : Bool) : r.sameMark (r.begin due now e) := by
  unfold Rec.begin
  split
  · split
    · split <;> exact ⟨rfl, rfl, rfl, rfl⟩
    · split
      · exact Rec.fallen_sameMark { r with alert := .held, due := some due } now
      · exact ⟨rfl, rfl, rfl, rfl⟩
  · exact ⟨rfl, rfl, rfl, rfl⟩

theorem Rec.begin_held (ha : r.alert = .noAlert) (he : r.expected = false) (hd : now.secs < due) :
    r.begin due now e = { r with alert := .held, due := some due } := by
  simp [Rec.begin, ha, he, hd]

theorem Rec.begin_due (ha : r.alert = .noAlert) (he : r.expected = false) (hm : r.mark = .n) (hd : due ≤ now.secs) :
    (r.begin due now e).started := by
  have hb : r.begin due now e = Rec.dueNow { r with alert := .held, due := some due } now := by
    simp [Rec.begin, ha, he, hd, Rec.fallen, hm]
  rw [hb]
  exact Rec.dueNow_started _ now

theorem Rec.begin_withheld (ha : r.alert = .noAlert) (he : r.expected = true) :
    r.begin due now false = { r with alert := .withheld, due := none } := by
  simp [Rec.begin, ha, he]

theorem Rec.begin_ended (ha : r.alert = .noAlert) (he : r.expected = true) : (r.begin due now true).started := by
  have hb : r.begin due now true = Rec.dueNow { r with alert := .withheld, due := none } now := by simp [Rec.begin, ha, he]
  rw [hb]
  exact Rec.dueNow_started _ now

theorem Rec.begin_kept (ha : r.alert ≠ .noAlert) (hc : r.alert ≠ .cancelled) : r.begin due now e = r := by
  simp [Rec.begin, ha, hc]

end

/-! ## A state that has followed the time -/

/-- From `a` to `b` only alerts fall due. -/
structure Falls (a b : State) : Prop where
  plan : b.plan = a.plan
  sess : b.reg.sess = a.reg.sess
  status : b.reg.status = a.reg.status
  raised : ∀ c : Condition, a.link.isSet c = true → b.link.isSet c = true
  records : Tab.wf clearedAt a.reg.recs = true → ∀ (p : Nat) (ss : Session), (a.record p ss).FallsTo a.clock.stamp (b.record p ss)

/-- A session to close at `m`, in the words of `State.followed`. -/
theorem State.shuts_iff (s : State) (i : Fin 4) (ss : Session) (m : Nat) :
    (s.setTrack i (s.trackNow i)).shuts i ss m ↔
      ((∃ p : PlanIF, (s.plan.tracks.get i).plan = some p ∧ sessionClose p (s.plan.tracks.get i).delay ss = some m ∧
        m * 60 ≤ s.clock.secs) ∧ s.session i ss ≠ none ∧ s.session i ss ≠ some .closed) := by
  have htrack : (s.setTrack i (s.trackNow i)).track i = s.trackNow i := Quad.get_set_same _ i _
  have hclose : (s.setTrack i (s.trackNow i)).closeTime i ss = s.closeTime i ss := by
    rw [State.closeTime, htrack]
    exact (s.track i).follow_closeTime s.clock.secs ss
  rw [State.shuts, hclose, State.closeTime, Option.bind_eq_some_iff]
  constructor
  · rintro ⟨⟨p, hp, hm⟩, hr, hs⟩
    exact ⟨⟨p, hp, hm, hr⟩, hs⟩
  · rintro ⟨⟨p, hp, hm, hr⟩, hs⟩
    exact ⟨⟨p, hp, hm⟩, hr, hs⟩

theorem pointBegun_iff (p : PlanIF) (ss : Session) :
    pointBegun p ss = true ↔ ∃ g : SegIF, g ∈ p.segs ∧ g.seg.point = some ss ∧ g.begun = true := by
  simp [pointBegun]

theorem State.opens_iff (s : State) (i : Fin 4) (ss : Session) :
    (s.setTrack i (s.trackNow i)).opens i ss ↔
      (s.session i ss = some .before ∧ ∃ (v : PlanIF) (g : SegIF), (s.trackNow i).plan = some v ∧ g ∈ v.segs ∧ g.seg.point = some ss ∧
        g.begun = true) := by
  have htrack : (s.setTrack i (s.trackNow i)).track i = s.trackNow i := Quad.get_set_same _ i _
  rw [State.opens, htrack]
  refine and_congr_right fun _ => ?_
  simp only [pointBegun_iff, exists_and_left]

section
variable {s v u : State} {i : Fin 4} {ss : Session} (h : TrackFollowed i ss s v s.followTracks) (k : Falls s.followTracks u)
include h

theorem TrackFollowed.session_cases :
    (∃ m : Nat, (s.setTrack i (s.trackNow i)).shuts i ss m ∧ s.followTracks.session i ss = some .closed) ∨
      ((∀ m : Nat, ¬ (s.setTrack i (s.trackNow i)).shuts i ss m) ∧
        ((s.setTrack i (s.trackNow i)).opens i ss → s.followTracks.session i ss = some .opened) ∧
        (¬ (s.setTrack i (s.trackNow i)).opens i ss → s.followTracks.session i ss = s.session i ss)) := by
  rw [h.session]
  by_cases hm : ∃ m : Nat, (s.setTrack i (s.trackNow i)).shuts i ss m
  · obtain ⟨m, hm⟩ := hm
    exact .inl ⟨m, hm, h.sessions.closed m hm⟩
  · have hn := not_exists.mp hm
    exact .inr ⟨hn, h.sessions.kept hn⟩

theorem TrackFollowed.status_cases {g : Nat} (hg : g < 120) (ht : (s.group g).track = i) :
    (∀ m : Nat, (s.setTrack i (s.trackNow i)).shuts i ss m →
        s.followTracks.groupStatus g ss = s.closedStatus g ss ∧
          (s.goesMissing g ss → s.followTracks.link.isSet .registerMissing = true)) ∧
      ((∀ m : Nat, ¬ (s.setTrack i (s.trackNow i)).shuts i ss m) → s.followTracks.groupStatus g ss = s.groupStatus g ss) := by
  rw [h.statuses g ht]
  exact ⟨fun m hm => ⟨h.sessions.statuses m g hm hg ht, fun hmiss => h.raised _ (h.sessions.raised m g hm hg ht hmiss)⟩,
    fun hn => h.sessions.statusKept hn g ht⟩

include k

/-- A record, from its session's close on. -/
theorem TrackFollowed.record_trails (hp : Tab.wf factoryPupil s.set.pupils = true) (hw : Tab.wf clearedAt s.reg.recs = true) {p : Nat}
    (ht : s.trackOf p = i) :
    let mk := (s.pupil p).inUse = true ∧ (s.pupil p).group < 120 ∧ s.groupStatus (s.pupil p).group ss = .submitted
    let trails := Rec.Trails (s.trackEnds i) s.clock.stamp
    (∀ m : Nat, (s.setTrack i (s.trackNow i)).shuts i ss m → mk → (s.record p ss).unmarked →
        ∃ x : Rec, (s.record p ss).Waits x ∧
          trails (x.markN.begin (s.dueFrom (m * 60)) s.clock.stamp ((s.trackNow i).state == .ended)) (u.record p ss)) ∧
      ((∀ m : Nat, ¬ (s.setTrack i (s.trackNow i)).shuts i ss m) ∨ ¬ (mk ∧ (s.record p ss).unmarked) →
        trails (s.record p ss) (u.record p ss)) := by
  intro mk trails
  have ends := h.records hp hw p ht
  have falls := k.records (s.followTracks_follows.wf hw) p ss
  rw [s.followTracks_follows.clock] at falls
  obtain ⟨closes, waits⟩ := h.sessions.records hp hw p ht
  refine ⟨fun m hm hmk hu => ?_, fun hn => ?_⟩
  · obtain ⟨x, hx, marked, -⟩ := closes m hm
    exact ⟨x, hx, _, _, marked hmk (hx.unmarked.mpr hu), ends, falls⟩
  · refine ⟨_, _, ?_, ends, falls⟩
    by_cases hm : ∃ m : Nat, (s.setTrack i (s.trackNow i)).shuts i ss m
    · obtain ⟨m, hm⟩ := hm
      exact (closes m hm).waits (hn.resolve_left fun hn => hn m hm)
    · exact waits (not_exists.mp hm)

end

/-- What a close leaves of a record that it marks. -/
theorem Rec.Trails.of_close {ends e : Bool} {due : Nat} {now : Stamp} {r x v : Rec} (hx : r.Waits x) (hu : r.unmarked)
    (h : (x.markN.begin due now e).Trails ends now v) :
    v.mark = .n ∧ v.minutes = 0 ∧ v.source = some .close ∧ v.locked = false ∧
      (r.alert = .noAlert → r.expected = false → now.secs < due → v.alert = .held ∧ v.due = some due) ∧
      (r.alert = .noAlert → r.expected = false → due ≤ now.secs → v.started) ∧
      (r.alert = .noAlert → r.expected = true → e = false → ends = false → v.alert = .withheld) ∧
      (r.alert = .noAlert → r.expected = true → e = true → v.started) ∧
      (r.alert = .withheld → ends = true → v.started) := by
  obtain ⟨hmark, hminutes, hsource, hlocked⟩ := (x.markN.begin_sameMark due now e).trans h.sameMark
  have same (ha : r.alert ≠ .due) : x = r := hx.eq_of ha
  refine ⟨hmark, hminutes, hsource, hlocked.trans (hx.unmarked.mpr hu).1, fun ha he hd => ?_, fun ha he hd => ?_, fun ha he hf hn => ?_,
    fun ha he hf => ?_, fun ha hn => ?_⟩
  · cases same (by simp [ha])
    rw [Rec.begin_held (r := r.markN) ha he hd] at h
    cases h.eq_of (by simp) (by simp) (by simpa using hd)
    exact ⟨rfl, rfl⟩
  · cases same (by simp [ha])
    exact h.started (Rec.begin_due (r := r.markN) ha he rfl hd)
  · cases same (by simp [ha])
    subst hf
    rw [Rec.begin_withheld (r := r.markN) ha he] at h
    cases h.eq_of (.inr hn) (by simp) (by simp)
    rfl
  · cases same (by simp [ha])
    subst hf
    exact h.started (Rec.begin_ended (r := r.markN) ha he)
  · cases same (by simp [ha])
    rw [Rec.begin_kept (r := r.markN) (by simp [Rec.markN, Rec.write, ha]) (by simp [Rec.markN, Rec.write, ha])] at h
    subst hn
    exact h.of_end ha rfl

theorem State.followTracks_followed {s u : State} (hr : s.dayRuns = true) (hd : s.dayOver = false) (k : Falls s.followTracks u) :
    s.followed u := by
  have htrack (i : Fin 4) : u.plan.tracks.get i = s.trackNow i := by
    obtain ⟨v, h⟩ := State.followTracks_at hr hd i .am
    rw [k.plan]
    exact h.track
  refine ⟨fun i ss => ?_, fun hp hw => ⟨fun g ss hg => ?_, fun p ss => ?_⟩⟩
  · obtain ⟨v, h⟩ := State.followTracks_at hr hd i ss
    have hs : u.session i ss = s.followTracks.session i ss := State.session_congr k.sess i ss
    rw [htrack, hs]
    intro begun
    rcases h.session_cases with ⟨m, hm, e⟩ | ⟨hn, ho, hk⟩
    · obtain ⟨hc, hsome, -⟩ := (s.shuts_iff i ss m).mp hm
      exact ⟨fun _ _ => e, fun hno => absurd hc (hno m), fun hnone => absurd hnone hsome⟩
    · rw [s.opens_iff i ss] at ho hk
      simp only [s.shuts_iff i ss] at hn
      refine ⟨fun ⟨m, hc⟩ hsome => ?_, fun _ => ⟨fun hb hbegun => ho ⟨hb, hbegun⟩, fun hb => ?_⟩, fun hnone => ?_⟩
      · have hclosed : s.session i ss = some .closed := by
          by_contra hne
          exact hn m ⟨hc, hsome, hne⟩
        exact (hk fun h => by simp [hclosed] at h).trans hclosed
      · exact hk fun h => hb.elim (fun hb => hb h.1) fun hb => hb h.2
      · exact (hk fun h => by simp [hnone] at h).trans hnone
  · obtain ⟨v, h⟩ := State.followTracks_at hr hd (s.group g).track ss
    obtain ⟨closed, kept⟩ := h.status_cases hg rfl
    have hs : u.groupStatus g ss = s.followTracks.groupStatus g ss := State.groupStatus_congr k.status g ss
    simp only [s.shuts_iff] at closed kept
    intro i was
    rw [hs]
    refine ⟨fun m hm he => ?_, fun m hm hne ha => ?_, fun m hm hne ha => ?_, kept⟩
    · rw [(closed m hm).1, State.closedStatus, if_pos he]
    · obtain ⟨hstatus, hraised⟩ := closed m hm
      refine ⟨?_, k.raised _ (hraised ⟨hne, ha⟩)⟩
      rw [hstatus, State.closedStatus, if_neg hne, if_pos ha]
    · rw [(closed m hm).1, State.closedStatus, if_neg hne, if_neg ha]
  · obtain ⟨v, h⟩ := State.followTracks_at hr hd (s.trackOf p) ss
    obtain ⟨closes, waits⟩ := h.record_trails k hp hw rfl
    intro i r v marked
    simp only [← s.shuts_iff i ss]
    have hends : (s.plan.tracks.get i).state ≠ .ended → (u.plan.tracks.get i).state = .ended → s.trackEnds i = true := by
      rw [htrack]
      intro hs hu
      exact Bool.and_eq_true_iff.mpr ⟨decide_eq_true hs, decide_eq_true hu⟩
    have hmk : marked ↔ ((s.pupil p).inUse = true ∧ (s.pupil p).group < 120 ∧
        s.groupStatus (s.pupil p).group ss = .submitted) ∧ r.unmarked := by simp only [marked, Rec.unmarked, and_assoc, r]
    refine ⟨fun m hm hmarked => ?_, fun hn => ?_, fun hs hu ha hv => ?_⟩
    · obtain ⟨hin, hunmarked⟩ := hmk.mp hmarked
      obtain ⟨x, hx, trails⟩ := closes m hm hin hunmarked
      obtain ⟨hmark, hminutes, hsource, hlocked, hheld, hdue, hwithheld, hended, -⟩ := trails.of_close hx hunmarked
      refine ⟨hmark, hminutes, hsource, hlocked, hheld, hdue, fun ha he hu => ?_, fun ha he hu => hended ha he ?_⟩
      · rw [htrack] at hu
        have hne : ((s.trackNow i).state == .ended) = false := by simpa using hu
        exact hwithheld ha he hne (Bool.and_eq_false_imp.mpr fun _ => hne)
      · rw [htrack] at hu
        simpa using hu
    · have trails := waits (hn.imp_right fun h e => h (hmk.mpr e))
      obtain ⟨hmark, hminutes, hsource, hlocked⟩ := trails.sameMark
      exact ⟨hmark, hminutes, hsource, hlocked, fun hh hw hd => trails.eq_of (.inl hw) hd fun e => hh e.1⟩
    · have ends := hends hs hu
      by_cases hn : (∀ m : Nat, ¬ (s.setTrack i (s.trackNow i)).shuts i ss m) ∨ ¬ marked
      · have trails := waits (hn.imp_right fun h e => h (hmk.mpr e))
        rw [ends] at trails
        exact trails.of_end ha (trails.sameMark.1.symm.trans hv)
      · simp only [not_or, not_forall, not_not] at hn
        obtain ⟨⟨m, hm⟩, hmarked⟩ := hn
        obtain ⟨hin, hunmarked⟩ := hmk.mp hmarked
        obtain ⟨x, hx, trails⟩ := closes m hm hin hunmarked
        obtain ⟨-, -, -, -, -, -, -, -, hstarted⟩ := trails.of_close hx hunmarked
        exact hstarted ha ends

end Sys2Proof.Machine
end

