-- ==== Sys2Proof/Proofs/MinuteBells.lean ====
section
/-! SUPPORT. The bells at a minute event (R47): in each zone the events whose time is reached come due in list order. -/

namespace Sys2Proof.Machine

/-! ## One zone -/

/-- The event is PENDING and its time is reached. -/
def BellEvent.dueAt (secs : Nat) (f : BellEvent) : Bool := f.outcome == .pending && reached f.time secs

/-- The event, WAITING if it is due. -/
def BellEvent.waits (secs : Nat) (f : BellEvent) : BellEvent := if f.dueAt secs then { f with outcome := .waiting } else f

/-- The due events of a zone taken in turn. -/
def Zone.sounds (c : ZoneCfg) (secs : Nat) (z : Zone) (l : List BellSource) : Zone := l.foldl (fun z src => (bellDue c secs src z).1) z

theorem dueSources_eq (secs : Nat) (l : List BellEvent) :
    (l.filterMap fun e => if e.outcome == .pending && reached e.time secs then some e.source else none) =
      (l.filter (·.dueAt secs)).map (·.source) := by
  induction l with
  | nil => rfl
  | cons e l ih => cases h : e.dueAt secs <;> simp_all [BellEvent.dueAt]

section
variable {c : ZoneCfg} {secs : Nat} {z : Zone} {a b : List BellEvent} {e : BellEvent}

/-- The first event of a source is found past the events of other sources. -/
theorem find_source (ha : ∀ f ∈ a, f.source ≠ e.source) (he : e.dueAt secs = true) :
    (a ++ e :: b).find? (fun f => f.source == e.source && f.outcome == .pending) = some e := by
  have hp : e.outcome = .pending := by simpa using (Bool.and_eq_true_iff.mp he).1
  rw [List.find?_append, List.find?_eq_none.mpr fun f hf => by simp [ha f hf]]
  simp [hp]

theorem changeFirst_source (g : BellEvent → BellEvent) (ha : ∀ f ∈ a, f.source ≠ e.source) :
    changeFirst (fun f => f.source == e.source) g (a ++ e :: b) = a ++ g e :: b := by
  induction a with
  | nil => simp [changeFirst]
  | cons f a ih =>
    have hf : (f.source == e.source) = false := by simpa using ha f (List.mem_cons_self ..)
    simp only [List.cons_append, changeFirst, hf]
    rw [ih fun f hf => ha f (List.mem_cons_of_mem _ hf)]
    rfl

/-- A due event that is found: what its zone does by its activity. -/
theorem bellDue_cases (hl : z.list = a ++ e :: b) (ha : ∀ f ∈ a, f.source ≠ e.source) (he : e.dueAt secs = true) :
    (z.act = .idle → bellDue c secs e.source z = (ringEvent c secs e z, [])) ∧
      (z.act = .checking → bellDue c secs e.source z = (ringEvent c secs e { z with lastCheck := some .aborted }, [.checkDone])) ∧
      ∀ what : RingWhat, z.act = .ringing what → bellDue c secs e.source z =
        ({ z with list := changeFirst (fun f => f.source == e.source) (fun f => { f with outcome := .waiting }) z.list }, []) := by
  have found : z.list.find? (fun f => f.source == e.source && f.outcome == .pending) = some e := by
    rw [hl]
    exact find_source ha he
  unfold bellDue
  split
  · rename_i h
    exact absurd (found.symm.trans h) (by simp)
  · rename_i g h
    cases found.symm.trans h
    split <;> simp_all

/-- In a sounding zone a due event becomes WAITING. -/
theorem bellDue_ringing {what : RingWhat} (hact : z.act = .ringing what) (hl : z.list = a ++ e :: b) (ha : ∀ f ∈ a, f.source ≠ e.source)
    (he : e.dueAt secs = true) : bellDue c secs e.source z = ({ z with list := a ++ { e with outcome := .waiting } :: b }, []) := by
  rw [(bellDue_cases hl ha he).2.2 what hact, hl, changeFirst_source _ ha]

theorem nodup_sources (h : ((a ++ e :: b).map (·.source)).Nodup) : ∀ f ∈ a, f.source ≠ e.source := by
  rw [List.map_append, List.map_cons, List.nodup_append] at h
  exact fun f hf => h.2.2 _ (List.mem_map_of_mem hf) _ (by simp)

/-- In a sounding zone every due event becomes WAITING. -/
theorem sounds_ringing {what : RingWhat} (hact : z.act = .ringing what) (hl : z.list = a ++ b) (hn : ((a ++ b).map (·.source)).Nodup) :
    z.sounds c secs ((b.filter (·.dueAt secs)).map (·.source)) = { z with list := a ++ b.map (·.waits secs) } := by
  induction b generalizing a z with
  | nil => simp [Zone.sounds, ← hl]
  | cons e b ih =>
    cases he : e.dueAt secs with
    | false =>
      have hw : e.waits secs = e := by simp [BellEvent.waits, he]
      rw [List.filter_cons_of_neg (by simp [he]), List.map_cons, hw]
      have := ih (a := a ++ [e]) hact (by simp [hl]) (by simpa using hn)
      simpa using this
    | true =>
      have hw : e.waits secs = { e with outcome := .waiting } := by simp [BellEvent.waits, he]
      have step := bellDue_ringing (c := c) hact hl (nodup_sources hn) he
      have := ih (z := { z with list := a ++ { e with outcome := .waiting } :: b }) (a := a ++ [{ e with outcome := .waiting }]) hact
        (by simp) (by simpa using hn)
      rw [List.filter_cons_of_pos (by simp [he]), List.map_cons, List.map_cons, hw, Zone.sounds, List.foldl_cons, step]
      simpa [Zone.sounds] using this

/-- A silent zone sounds the first due event, ending a check, and the others wait. -/
theorem sounds_silent (hn : ((a ++ e :: b).map (·.source)).Nodup) (he : e.dueAt secs = true)
    (ha : ∀ f ∈ a, f.dueAt secs = false) {y : Zone} {cs : List Condition}
    (hy : bellDue c secs e.source z = (y, cs)) {what : RingWhat} (hact : y.act = .ringing what)
    (hyl : y.list = a ++ { e with outcome := .ringing, ringStart := some secs } :: b) :
    z.sounds c secs (((a ++ e :: b).filter (·.dueAt secs)).map (·.source)) =
      { y with list := a ++ { e with outcome := .ringing, ringStart := some secs } :: b.map (·.waits secs) } := by
  have hnone : a.filter (·.dueAt secs) = [] := List.filter_eq_nil_iff.mpr fun f hf => by simp [ha f hf]
  rw [List.filter_append, hnone, List.nil_append, List.filter_cons_of_pos (by simp [he]), List.map_cons, Zone.sounds, List.foldl_cons, hy]
  have := sounds_ringing (c := c) (secs := secs) (a := a ++ [{ e with outcome := .ringing, ringStart := some secs }]) hact (by simpa using hyl)
    (by simpa using hn)
  simpa [Zone.sounds] using this

theorem ringEvent_list (hl : z.list = a ++ e :: b) (ha : ∀ f ∈ a, f.source ≠ e.source) :
    ringEvent c secs e z =
      startRing c (.event e.source e.kind)
        { z with list := a ++ { e with outcome := .ringing, ringStart := some secs } :: b } := by
  unfold ringEvent
  rw [hl, changeFirst_source _ ha]

theorem bellDue_idle (hact : z.act = .idle) (hl : z.list = a ++ e :: b) (ha : ∀ f ∈ a, f.source ≠ e.source) (he : e.dueAt secs = true) :
    bellDue c secs e.source z = (startRing c (.event e.source e.kind)
        { z with list := a ++ { e with outcome := .ringing, ringStart := some secs } :: b }, []) := by
  rw [(bellDue_cases hl ha he).1 hact]
  exact congrArg (·, []) (ringEvent_list hl ha)

theorem bellDue_checking (hact : z.act = .checking) (hl : z.list = a ++ e :: b) (ha : ∀ f ∈ a, f.source ≠ e.source)
    (he : e.dueAt secs = true) :
    bellDue c secs e.source z = (startRing c (.event e.source e.kind)
        { z with
          lastCheck := some .aborted
          list := a ++ { e with outcome := .ringing, ringStart := some secs } :: b }, [.checkDone]) := by
  rw [(bellDue_cases hl ha he).2.1 hact]
  exact congrArg (·, [Condition.checkDone]) (ringEvent_list (z := { z with lastCheck := some .aborted }) hl ha)

end

/-! ## The zones of the part -/

theorem Quad.get_mapIdx {α β : Type} (f : Fin 4 → α → β) (q : Quad α) (i : Fin 4) : (q.mapIdx f).get i = f i (q.get i) := by
  match i with
  | 0 => rfl
  | 1 => rfl
  | 2 => rfl
  | 3 => rfl

/-- Work at zones other than `z`: the conditions raised stay. -/
structure BellsBeside (z : Fin 4) (a b : State) : Prop where
  rest : b = { a with bells := b.bells, link := b.link }
  zone : b.bells.get z = a.bells.get z
  raised : ∀ c : Condition, a.link.isSet c = true → b.link.isSet c = true

namespace BellsBeside
variable {z y : Fin 4} {a s t : State}

theorem refl (z : Fin 4) (s : State) : BellsBeside z s s := ⟨rfl, rfl, fun _ h => h⟩

theorem trans (h : BellsBeside z a s) (k : BellsBeside z s t) : BellsBeside z a t :=
  ⟨by rw [k.rest, h.rest], k.zone.trans h.zone, fun c hc => k.raised c (h.raised c hc)⟩

theorem foldl {α : Type} {f : State → α → State} {l : List α} (hf : ∀ (s : State), ∀ x ∈ l, BellsBeside z s (f s x)) (s : State) :
    BellsBeside z s (l.foldl f s) := by
  induction l generalizing s with
  | nil => exact refl z s
  | cons x l ih => exact (hf s x (List.mem_cons_self ..)).trans (ih (fun s y hy => hf s y (List.mem_cons_of_mem x hy)) _)

end BellsBeside

theorem State.raiseAll_link (s : State) (cs : List Condition) :
    s.raiseAll cs = { s with link := (s.raiseAll cs).link } ∧
      (∀ c : Condition, s.link.isSet c = true → (s.raiseAll cs).link.isSet c = true) ∧ ∀ c ∈ cs, (s.raiseAll cs).link.isSet c = true := by
  induction cs generalizing s with
  | nil => exact ⟨rfl, fun _ h => h, fun _ h => absurd h (by simp)⟩
  | cons d cs ih =>
    obtain ⟨rest, raised, own⟩ := ih (s.raise d)
    have step : s.raiseAll (d :: cs) = (s.raise d).raiseAll cs := rfl
    rw [step]
    refine ⟨rest.trans rfl, fun c h => raised c (s.raise_isSet d h), fun c hc => ?_⟩
    rcases List.mem_cons.mp hc with rfl | hc
    · exact raised _ (s.raise_isSet_same _)
    · exact own c hc

theorem State.onZone_rest (s : State) (z : Fin 4) (f : ZoneCfg → Zone → Zone × List Condition) :
    s.onZone z f = { s with bells := s.bells.set z (f (s.set.zones.get z) (s.bells.get z)).1, link := (s.onZone z f).link } :=
  (State.raiseAll_link _ _).1

theorem State.onZone_zone (s : State) (z : Fin 4) (f : ZoneCfg → Zone → Zone × List Condition) :
    (s.onZone z f).bells.get z = (f (s.set.zones.get z) (s.bells.get z)).1 ∧ (s.onZone z f).set = s.set ∧
      (s.onZone z f).clock = s.clock := by
  rw [s.onZone_rest z f]
  exact ⟨Quad.get_set_same _ _ _, rfl, rfl⟩

theorem State.onZone_raised (s : State) (z : Fin 4) (f : ZoneCfg → Zone → Zone × List Condition) :
    (∀ c : Condition, s.link.isSet c = true → (s.onZone z f).link.isSet c = true) ∧
      ∀ c ∈ (f (s.set.zones.get z) (s.bells.get z)).2, (s.onZone z f).link.isSet c = true :=
  (State.raiseAll_link { s with bells := s.bells.set z (f (s.set.zones.get z) (s.bells.get z)).1 } _).2

theorem BellsBeside.onZone {z y : Fin 4} (h : y ≠ z) (s : State) (f : ZoneCfg → Zone → Zone × List Condition) :
    BellsBeside z s (s.onZone y f) where
  rest := by rw [s.onZone_rest y f]
  zone := by
    rw [s.onZone_rest y f]
    exact Quad.get_set_other s.bells _ h.symm
  raised := (s.onZone_raised y f).1

/-- The due bells of one zone, in list order. -/
def State.ringZone (s : State) (z : Fin 4) : State :=
  (dueSources s.clock.secs (s.bells.get z)).foldl (fun s src => s.onZone z fun c x => bellDue c s.clock.secs src x) s

theorem State.ringDueBells_eq (s : State) : s.ringDueBells = fours.foldl State.ringZone (s.onZones fun _ => passQuietAll s.clock.secs) := rfl

theorem BellsBeside.ringZone {z y : Fin 4} (h : y ≠ z) (s : State) : BellsBeside z s (s.ringZone y) :=
  .foldl (fun s _ _ => .onZone h s _) s

section
variable (c : ZoneCfg) (z : Fin 4)

/-- A zone's due bells, with the conditions that the first raises. -/
theorem State.ringSources_zone (s : State) (l : List BellSource) :
    let t := l.foldl (fun s src => s.onZone z fun c x => bellDue c s.clock.secs src x) s
    t = { s with bells := t.bells, link := t.link } ∧
      t.bells.get z = (s.bells.get z).sounds (s.set.zones.get z) s.clock.secs l ∧
      (∀ d : Condition, s.link.isSet d = true → t.link.isSet d = true) ∧
      ∀ src ∈ l.head?, ∀ d ∈ (bellDue (s.set.zones.get z) s.clock.secs src (s.bells.get z)).2, t.link.isSet d = true := by
  induction l generalizing s with
  | nil => exact ⟨rfl, rfl, fun _ h => h, by simp⟩
  | cons src l ih =>
    intro t
    obtain ⟨rest, zone, raised, -⟩ := ih (s.onZone z fun c x => bellDue c s.clock.secs src x)
    obtain ⟨kept, own⟩ := s.onZone_raised z fun c x => bellDue c s.clock.secs src x
    obtain ⟨hzone, hset, hclock⟩ := s.onZone_zone z fun c x => bellDue c s.clock.secs src x
    rw [hzone, hset, hclock] at zone
    refine ⟨rest.trans (congrArg (fun y : State => { y with bells := t.bells, link := t.link }) (s.onZone_rest z _)), zone,
      fun d hd => raised d (kept d hd), fun src' h d hd => ?_⟩
    cases h
    exact raised d (own d hd)

end

theorem State.ringDueBells_zone (s : State) (z : Fin 4) :
    let x := passQuietAll s.clock.secs (s.bells.get z)
    let l := (x.list.filter (·.dueAt s.clock.secs)).map (·.source)
    s.ringDueBells = { s with bells := s.ringDueBells.bells, link := s.ringDueBells.link } ∧
      s.ringDueBells.bells.get z = x.sounds (s.set.zones.get z) s.clock.secs l ∧
      (∀ d : Condition, s.link.isSet d = true → s.ringDueBells.link.isSet d = true) ∧
      ∀ src ∈ l.head?, ∀ d ∈ (bellDue (s.set.zones.get z) s.clock.secs src x).2, s.ringDueBells.link.isSet d = true := by
  intro x l
  have hx : (s.onZones fun _ => passQuietAll s.clock.secs).bells.get z = x := by
    exact Quad.get_mapIdx _ s.bells z
  obtain ⟨a, b, hab, ha, hb⟩ := fours_split z
  have beside (s : State) {l : List (Fin 4)} (hl : z ∉ l) : BellsBeside z s (l.foldl State.ringZone s) :=
    .foldl (fun s y hy => .ringZone (y := y) (fun e => hl (by rwa [← e])) s) s
  have first := beside (s.onZones fun _ => passQuietAll s.clock.secs) ha
  have hzone := first.zone.trans hx
  have hrest := first.rest
  rw [s.ringDueBells_eq, hab, List.foldl_append, List.foldl_cons]
  generalize a.foldl State.ringZone (s.onZones fun _ => passQuietAll s.clock.secs) = t at first hzone hrest
  have hsources : dueSources t.clock.secs (t.bells.get z) = l := by
    rw [hzone, hrest]
    exact dueSources_eq s.clock.secs x.list
  obtain ⟨rest, zone, raised, own⟩ := t.ringSources_zone z l
  have last := beside (t.ringZone z) hb
  have hring : t.ringZone z = l.foldl (fun s src => s.onZone z fun c x => bellDue c s.clock.secs src x) t := by
    rw [← hsources]
    rfl
  rw [← hring] at rest zone raised own
  have hset : t.set = s.set := by rw [hrest]; rfl
  have hclock : t.clock = s.clock := by rw [hrest]; rfl
  rw [hzone, hset, hclock] at zone own
  have hall : ∀ u : State, BellsBeside z (t.ringZone z) u → u = { s with bells := u.bells, link := u.link } := fun u h => by
    rw [h.rest, rest, hrest]
    rfl
  refine ⟨hall _ last, last.zone.trans zone, fun d hd => last.raised d (raised d (first.raised d hd)), fun src hsrc d hd =>
    last.raised d (own src hsrc d hd)⟩

end Sys2Proof.Machine
end

