-- ==== Sys2Proof/Proofs/TracksFollow.lean ====
section
/-! CLAIM. The minute event, at which tracks, sessions and bells follow the time, and SEGMENT BEGIN and DAY END (R31, R47, R99, R106, R108,
R112). -/

namespace Sys2Proof.Machine

/-! ## The bells of a minute event (R47) -/

section
variable (secs : Nat) (f : BellEvent)

theorem passQuiet_eq : passQuiet secs f = if f.outcome = .suppressed ∧ f.time * 60 ≤ secs then { f with passed := true } else f := by
  simp [passQuiet, reached]

theorem BellEvent.dueAt_iff : f.dueAt secs = true ↔ f.outcome = .pending ∧ f.time * 60 ≤ secs := by simp [BellEvent.dueAt, reached]

theorem dueAt_passQuiet : (passQuiet secs f).dueAt secs = f.dueAt secs := by
  unfold passQuiet
  split <;> rfl

theorem passQuiet_of_due (h : f.dueAt secs = true) : passQuiet secs f = f := by
  have hp := ((f.dueAt_iff secs).mp h).1
  simp [passQuiet, hp]

theorem waits_passQuiet : (passQuiet secs f).waits secs = if f.dueAt secs then { f with outcome := .waiting } else passQuiet secs f := by
  rw [BellEvent.waits, dueAt_passQuiet]
  split
  · rw [passQuiet_of_due secs f ‹_›]
  · rfl

theorem passQuiet_sources (l : List BellEvent) : (l.map (passQuiet secs)).map (·.source) = l.map (·.source) := by
  rw [List.map_map]
  refine List.map_congr_left fun e _ => ?_
  simp only [Function.comp_apply, passQuiet]
  split <;> rfl

end

/-- The sources of a zone's due events, in list order. -/
def Zone.dueList (secs : Nat) (x : Zone) : List BellSource := ((x.list.map (passQuiet secs)).filter (·.dueAt secs)).map (·.source)

/-- A zone at a minute event. -/
def Zone.minute (c : ZoneCfg) (secs : Nat) (x : Zone) : Zone := (passQuietAll secs x).sounds c secs (x.dueList secs)

section
variable {c : ZoneCfg} {secs : Nat} {x : Zone} {a b : List BellEvent} {e : BellEvent}

theorem Zone.minute_quiet (h : ∀ f ∈ x.list, f.dueAt secs = false) : x.minute c secs = { x with list := x.list.map (passQuiet secs) } := by
  have hnone : (x.list.map (passQuiet secs)).filter (·.dueAt secs) = [] := by
    refine List.filter_eq_nil_iff.mpr fun f hf => ?_
    obtain ⟨g, hg, rfl⟩ := List.mem_map.mp hf
    rw [dueAt_passQuiet, h g hg]
    simp
  rw [Zone.minute, Zone.dueList, hnone]
  rfl

theorem Zone.minute_ringing (hn : (x.list.map (·.source)).Nodup) {what : RingWhat} (hact : x.act = .ringing what) :
    x.minute c secs = { x with list := x.list.map fun f => (passQuiet secs f).waits secs } := by
  rw [← passQuiet_sources secs] at hn
  refine (sounds_ringing (z := passQuietAll secs x) (a := []) hact rfl hn).trans ?_
  simp [passQuietAll]

/-- The sources, distinct, and the first due event among them. -/
theorem Zone.dueList_first (hl : x.list = a ++ e :: b) (he : e.dueAt secs = true) (ha : ∀ f ∈ a, f.dueAt secs = false) :
    (x.dueList secs).head? = some e.source ∧ (passQuietAll secs x).list = a.map (passQuiet secs) ++ e :: b.map (passQuiet secs) ∧
      ∀ f ∈ a.map (passQuiet secs), f.dueAt secs = false := by
  have hfirst : ∀ f ∈ a.map (passQuiet secs), f.dueAt secs = false := by
    intro f hf
    obtain ⟨g, hg, rfl⟩ := List.mem_map.mp hf
    rw [dueAt_passQuiet, ha g hg]
  have hlist : x.list.map (passQuiet secs) = a.map (passQuiet secs) ++ e :: b.map (passQuiet secs) := by
    rw [hl, List.map_append, List.map_cons, passQuiet_of_due secs e he]
  refine ⟨?_, hlist, hfirst⟩
  rw [Zone.dueList, hlist, List.filter_append, List.filter_eq_nil_iff.mpr fun f hf => by simp [hfirst f hf], List.nil_append,
    List.filter_cons_of_pos (by simpa using he)]
  rfl

/-- The zone once the first due event sounds. -/
def Zone.rung (c : ZoneCfg) (secs : Nat) (x : Zone) (a b : List BellEvent) (e : BellEvent) : Zone :=
  { startRing c (.event e.source e.kind) x with
    list := a.map (passQuiet secs) ++
      { e with outcome := .ringing, ringStart := some secs } :: b.map fun f => (passQuiet secs f).waits secs }

theorem Zone.minute_silent (hn : (x.list.map (·.source)).Nodup) (hl : x.list = a ++ e :: b) (he : e.dueAt secs = true)
    (ha : ∀ f ∈ a, f.dueAt secs = false) :
    (x.act = .idle → x.minute c secs = x.rung c secs a b e) ∧
      (x.act = .checking → x.minute c secs = { x.rung c secs a b e with lastCheck := some .aborted } ∧
        .checkDone ∈ (bellDue c secs e.source (passQuietAll secs x)).2) := by
  obtain ⟨-, hlist, hfirst⟩ := Zone.dueList_first hl he ha
  have hsources : ((a.map (passQuiet secs) ++ e :: b.map (passQuiet secs)).map (·.source)).Nodup := by
    rw [← hlist]
    exact (passQuiet_sources secs x.list).symm ▸ hn
  have hdue : x.dueList secs = ((a.map (passQuiet secs) ++ e :: b.map (passQuiet secs)).filter (·.dueAt secs)).map (·.source) := by
    rw [← hlist]
    rfl
  have hother := nodup_sources hsources
  rw [Zone.minute, hdue]
  refine ⟨fun hact => ?_, fun hact => ?_⟩
  · have silent := sounds_silent hsources he hfirst (bellDue_idle (c := c) (z := passQuietAll secs x) hact hlist hother he) rfl rfl
    refine silent.trans ?_
    simp [Zone.rung, startRing, passQuietAll]
  · have due := bellDue_checking (c := c) (z := passQuietAll secs x) hact hlist hother he
    refine ⟨(sounds_silent hsources he hfirst due rfl rfl).trans ?_, by simp [due]⟩
    simp [Zone.rung, startRing, passQuietAll]

end

/-- The bells of a zone at a minute event, and the conditions they raise. -/
theorem State.minute_zone (s : State) (z : Fin 4) :
    s.minute.bells.get z = (s.bells.get z).minute (s.set.zones.get z) s.clock.secs ∧
      ∀ src ∈ ((s.bells.get z).dueList s.clock.secs).head?,
        ∀ d ∈ (bellDue (s.set.zones.get z) s.clock.secs src (passQuietAll s.clock.secs (s.bells.get z))).2,
          s.minute.link.isSet d = true := by
  have follows := s.followTracks_follows
  obtain ⟨-, zone, -, own⟩ := s.followTracks.ringDueBells_zone z
  rw [follows.bells, follows.clock, follows.set] at zone own
  exact ⟨zone, own⟩

/-! ## The minute event at tracks and sessions (R31, R99) -/

/-- The bells alone change after the tracks have followed the time. -/
theorem State.minute_falls (s : State) : Falls s.followTracks s.minute := by
  unfold State.minute
  generalize s.followTracks = t
  obtain ⟨hrest, -, hraised, -⟩ := t.ringDueBells_zone 0
  have hreg : t.ringDueBells.reg = t.reg := by rw [hrest]
  exact
    { plan := t.ringDueBells_plan
      sess := congrArg Register.sess hreg
      status := congrArg Register.status hreg
      raised := hraised
      records := fun _ p ss => .inl (by rw [State.record_congr hreg]; exact .refl _) }

theorem State.dayOver_of_date {s : State} (h : s.plan.dayDate = some s.clock.date) : s.dayOver = false := by
  simp [State.dayOver, h]

theorem markBegun_eq (secs t : Nat) (l : List SegIF) :
    markBegun secs t l = (l.zip (segStarts t l)).map fun e => { e.1 with begun := e.1.begun || decide (e.2 * 60 ≤ secs) } := by
  induction l generalizing t with
  | nil => rfl
  | cons g l ih => exact congrArg (_ :: ·) (ih _)

/-- A track with a plan in force, not ended, once it has followed the time of its day. -/
theorem State.trackNow_eq {s : State} {i : Fin 4} {p : PlanIF} (hp : (s.plan.tracks.get i).plan = some p)
    (he : (s.plan.tracks.get i).state ≠ .ended) :
    let x := s.plan.tracks.get i
    let q : PlanIF :=
      { p with segs := (p.segs.zip (segStarts (p.start + x.delay) p.segs)).map fun e =>
          { e.1 with begun := e.1.begun || decide (e.2 * 60 ≤ s.clock.secs) } }
    s.trackNow i =
      { x with
        plan := some q
        state :=
          if (p.start + x.delay + (p.segs.map (·.len)).sum) * 60 ≤ s.clock.secs then .ended
          else if q.segs.head?.any (·.begun) then .running else x.state } := by
  intro x q
  have hq : q = { p with segs := markBegun s.clock.secs (dayStart p x.delay) p.segs } := by
    rw [markBegun_eq]
    rfl
  have hend : (reached (dayEndOf p x.delay) s.clock.secs = true) = ((p.start + x.delay + (p.segs.map (·.len)).sum) * 60 ≤ s.clock.secs) :=
    decide_eq_true_eq
  refine (x.follow_plan s.clock.secs hp he).trans ?_
  rw [hq]
  simp only [hend, firstBegun]
  rfl

/-! ## What follows a command -/

/-- The scheduler's submissions: an alert submitted becomes SENDING (R160). -/
structure Submits (a b : State) : Prop where
  clock : b.clock = a.clock
  sess : b.reg.sess = a.reg.sess
  record : ∀ (p : Nat) (ss : Session), b.record p ss = a.record p ss ∨ b.record p ss = { a.record p ss with alert := .sending }

theorem Submits.refl (s : State) : Submits s s := ⟨rfl, rfl, fun _ _ => .inl rfl⟩

theorem Submits.trans {a s t : State} (h : Submits a s) (k : Submits s t) : Submits a t := by
  refine ⟨k.clock.trans h.clock, k.sess.trans h.sess, fun p ss => ?_⟩
  rcases h.record p ss with e | e <;> rcases k.record p ss with f | f <;> rw [f, e]
  · exact .inl rfl
  · exact .inr rfl
  · exact .inr rfl
  · exact .inr rfl

theorem State.alertMark_submits (s : State) (m : Message) : Submits s (s.alertMark m .sending) := by
  unfold State.alertMark
  split
  · split
    · split
      · exact .refl s
      · rename_i p ss _ _
        refine ⟨rfl, rfl, fun q st => ?_⟩
        by_cases h : (q, st) = (p, ss)
        · cases h
          exact .inr (s.record_modRec_of_alert (by simp))
        · exact .inl (s.record_modRec_other _ h)
    · exact .refl s
  · exact .refl s

theorem State.submit_submits (s : State) (m : Message) (o : Outbound) : Submits s (s.submit m o) := by
  have sent := State.alertMark_submits { (s.dequeue m.cls m.number).modOut m.number fun x =>
      { x with state := .sending s.sched.nextTag s.set.options.timeout } with
    sched.out := (s.dequeue m.cls m.number).sched.out ++ [⟨s.sched.nextTag, m.number⟩]
    sched.nextTag := nextFree 255 (s.sched.nextTag :: s.sched.out.map (·.tag)) 5 s.sched.nextTag
    gw := { s.gw.send (.submit s.sched.nextTag o.target.1 o.target.2 m.text) with
      stats := { s.gw.stats with submissions := inc32 s.gw.stats.submissions } } } m
  exact ⟨sent.clock, sent.sess, sent.record⟩

theorem State.pump_submits (fuel : Nat) (s : State) : Submits s (s.pump fuel) := by
  induction fuel generalizing s with
  | zero => exact .refl s
  | succ fuel ih =>
    unfold State.pump
    split
    · split
      · exact .refl s
      · split
        · exact .refl s
        · split
          · exact (s.submit_submits _ _).trans (ih _)
          · exact .refl s
    · exact .refl s

theorem State.settle_submits (s t : State) : Submits t (s.settle t) :=
  ⟨(State.pump_submits 4 t).clock, (State.pump_submits 4 t).sess, (State.pump_submits 4 t).record⟩

/-! ## SEGMENT BEGIN and DAY END (R31, R99, R108) -/

theorem beginSegment_eq (n : Nat) (l : List SegIF) : beginSegment n l = l.modify n fun g => { g with begun := true } := by
  induction l generalizing n with
  | nil => cases n <;> rfl
  | cons g l ih =>
    cases n with
    | zero => rfl
    | succ n => exact congrArg (g :: ·) (ih n)

theorem startedBy_eq (n : Nat) (st : TrackState) : startedBy n st = if n = 0 ∧ st = .planned then .running else st := by
  cases n <;> cases st <;> rfl

section
variable {s : State} {i : Fin 4} {n : Nat} {p : PlanIF}

/-- The track whose segment has begun. -/
def Track.begins (x : Track) (n : Nat) (p : PlanIF) : Track :=
  { x with state := startedBy n x.state, plan := some { p with segs := beginSegment n p.segs } }

theorem State.segmentBegins_eq (hr : s.dayRuns = true) (hp : (s.track i).plan = some p) (he : (s.track i).state ≠ .ended)
    (hn : n < p.segs.length) :
    s.segmentBegins i n = ((s.setTrack i ((s.track i).begins n p)).openSessionAt i .am).openSessionAt i .pm := by
  unfold State.segmentBegins
  simp only [hp, hr, Bool.true_and]
  rw [if_pos (by simp [he, hn])]
  rfl

theorem State.openBoth_opened {t : State} {ss : Session} (h : t.opens i ss) :
    ((t.openSessionAt i .am).openSessionAt i .pm).session i ss = some .opened := by
  have own (u : State) (h : u.opens i ss) : (u.openSessionAt i ss).session i ss = some .opened := by
    rcases u.openSessionAt_cases i ss with ⟨-, e⟩ | ⟨hn, -⟩
    · rw [e, u.session_setSession, if_pos ⟨rfl, rfl⟩]
    · exact absurd h hn
  cases ss with
  | am =>
    have later : Beside i .am (t.openSessionAt i .am) _ := .openSessionAt (j := i) (st := .pm) (.inr (by simp)) _
    exact later.session.trans (own t h)
  | pm =>
    have earlier : Beside i .pm t _ := .openSessionAt (j := i) (st := .am) (.inr (by simp)) t
    exact own _ (earlier.opens.mpr h)

theorem State.segmentBegins_tracks (hr : s.dayRuns = true) (hp : (s.track i).plan = some p) (he : (s.track i).state ≠ .ended)
    (hn : n < p.segs.length) : (s.segmentBegins i n).plan = (s.setTrack i ((s.track i).begins n p)).plan := by
  rw [segmentBegins_eq hr hp he hn, State.openSessionAt_plan, State.openSessionAt_plan]

theorem State.segmentBegins_opened (hr : s.dayRuns = true) (hp : (s.track i).plan = some p) (he : (s.track i).state ≠ .ended)
    {g : SegIF} (hg : p.segs[n]? = some g) {ss : Session} (hpoint : g.seg.point = some ss) (hs : s.session i ss = some .before) :
    (s.segmentBegins i n).session i ss = some .opened := by
  obtain ⟨hn, hget⟩ := List.getElem?_eq_some_iff.mp hg
  rw [segmentBegins_eq hr hp he hn]
  refine openBoth_opened ⟨hs, { p with segs := beginSegment n p.segs }, ?_, ?_⟩
  · exact congrArg Track.plan (Quad.get_set_same s.plan.tracks i _)
  · refine (pointBegun_iff _ ss).mpr ⟨{ g with begun := true }, ?_, hpoint, rfl⟩
    rw [beginSegment_eq]
    refine List.mem_of_getElem? (i := n) ?_
    simp [hg]

theorem State.dayEnds_eq (hr : s.dayRuns = true) (he : (s.track i).state ≠ .ended) :
    s.dayEnds i = (s.setTrack i { s.track i with state := .ended }).withheldDue i := by
  have hcond : (s.dayRuns && (s.track i).state != .ended) = true := by simp [hr, he]
  exact if_pos hcond

end

/-! ## The claim -/

theorem State.minute_clock (s : State) : s.minute.clock = s.clock := by
  obtain ⟨hrest, -⟩ := s.followTracks.ringDueBells_zone 0
  have hclock : s.followTracks.ringDueBells.clock = s.followTracks.clock := by rw [hrest]
  exact hclock.trans s.followTracks_follows.clock

theorem State.minute_plan (s : State) : s.minute.plan = s.followTracks.plan := s.followTracks.ringDueBells_plan

theorem Submits.released {s t : State} (h : Submits s t) {p : Nat} {ss : Session} (hr : (s.record p ss).released) :
    (t.record p ss).released := by
  rcases h.record p ss with e | e <;> rw [e]
  · exact hr
  · exact ⟨by simp, by simp⟩

theorem minuteEvent_does (s : State) : Does .minuteEvent s s.minute := rfl

theorem segmentBegin_does (s : State) (i : Fin 4) (n : Nat) : Does (.segmentBegin i n) s (s.segmentBegins i n) := rfl

theorem dayEnd_does (s : State) (i : Fin 4) : Does (.dayEnd i) s (s.dayEnds i) := rfl

/-- Settles O21: what each track and session does at the time, the other tracks and sessions moving beside it. -/
theorem tracksFollowTheTime : Obligations.TracksFollowTheTime := by
  unfold Obligations.TracksFollowTheTime
  refine ⟨minuteEvent_does, fun s z => ?_, fun s hopen hdate => ?_, fun s => ?_, fun s i n p hopen hp he hn => ?_,
    fun s i hopen he => ?_⟩
  · intro x y c due other waits hn
    have hdue (f : BellEvent) : ¬ due f ↔ f.dueAt s.clock.secs = false := by
      rw [← Bool.not_eq_true, BellEvent.dueAt_iff]
    have hother : passQuiet s.clock.secs = other := funext fun f => passQuiet_eq s.clock.secs f
    have hwaits : (fun f => (passQuiet s.clock.secs f).waits s.clock.secs) = waits := by
      funext f
      rw [waits_passQuiet, hother]
      simp only [waits, due, BellEvent.dueAt_iff]
    obtain ⟨hy, raised⟩ := s.minute_zone z
    refine ⟨fun hno => ?_, fun what hact => ?_, fun a b e hl he ha => ?_⟩
    · rw [← hother]
      exact hy.trans (Zone.minute_quiet fun f hf => (hdue f).mp (hno f hf))
    · rw [← hwaits]
      exact hy.trans (Zone.minute_ringing hn hact)
    · have he' : e.dueAt s.clock.secs = true := (e.dueAt_iff _).mpr he
      have ha' : ∀ f ∈ a, f.dueAt s.clock.secs = false := fun f hf => (hdue f).mp (ha f hf)
      obtain ⟨idle, checking⟩ := Zone.minute_silent (c := c) hn hl he' ha'
      have hfirst := (Zone.dueList_first hl he' ha').1
      intro time rung
      have hrung : x.rung c s.clock.secs a b e = rung := by
        rw [Zone.rung, hwaits, hother, startRing, durationOf]
        cases hk : e.kind <;> simp only [rung, time, hk, ringDuration]
      refine ⟨fun hact => hy.trans ((idle hact).trans hrung), fun hact => ?_⟩
      obtain ⟨hlast, hdone⟩ := checking hact
      rw [hrung] at hlast
      exact ⟨hy.trans hlast, raised e.source hfirst .checkDone hdone⟩
  · exact State.followTracks_followed (s.dayRuns_iff.mpr hopen) (State.dayOver_of_date hdate) s.minute_falls
  · refine ⟨_, minuteEvent_does s, (State.settle_submits s _).clock.trans s.minute_clock, ?_, fun hno => ?_, fun i p hp hopen hdate he => ?_⟩
    · rw [State.settle_plan, s.minute_plan, s.followTracks_follows.plan]
    · have hruns : ¬ s.dayRuns = true := fun h => by
        rcases s.dayRuns_iff.mp h with e | e <;> simp [e] at hno
      rw [State.settle_plan, s.minute_plan, State.followTracks, if_neg hruns]
    · obtain ⟨v, h⟩ := State.followTracks_at (s.dayRuns_iff.mpr hopen) (State.dayOver_of_date hdate) i .am
      intro x q
      rw [State.settle_plan, s.minute_plan]
      exact h.track.trans (State.trackNow_eq hp he)
  · have hr := s.dayRuns_iff.mpr hopen
    refine ⟨_, segmentBegin_does s i n, ?_, fun j hj => ?_, fun g ss hg hpoint hs => ?_⟩
    · rw [State.settle_plan, State.segmentBegins_tracks hr hp he hn, ← startedBy_eq, ← beginSegment_eq]
      exact Quad.get_set_same _ i _
    · rw [State.settle_plan, State.segmentBegins_tracks hr hp he hn]
      exact Quad.get_set_other _ _ hj
    · exact (State.session_congr (State.settle_submits s _).sess i ss).trans (State.segmentBegins_opened hr hp he hg hpoint hs)
  · have hends := State.dayEnds_eq (s.dayRuns_iff.mpr hopen) he
    refine ⟨_, dayEnd_does s i, ?_, fun p ss ha hm ht => ?_⟩
    · rw [State.settle_plan, hends, State.withheldDue_plan]
      rfl
    · refine ((State.settle_submits s _).released ?_).1
      rw [hends]
      exact State.withheldDue_released (s := s.setTrack i { s.track i with state := .ended }) i ha hm ht

end Sys2Proof.Machine
end

