-- ==== Sys2Proof/Proofs/DueTimes.lean ====
section
/-! SUPPORT. The alerts whose due times are reached (R107), what the tracks leave of the HELD ones, and the times at which no session closes. -/

namespace Sys2Proof.Machine

/-! ## Due times (R107) -/

theorem State.alertDueAt_moves (s : State) (p : Nat) (ss : Session) : Moves (fun q st => (q, st) = (p, ss)) s (s.alertDueAt p ss) := by
  unfold State.alertDueAt
  split
  · exact s.heldDue_moves p ss
  · exact .refl _ s

theorem State.alertDueAt_record (s : State) (p : Nat) (ss : Session) (h : (s.record p ss).fallsDue s.clock.secs = true) :
    ((s.record p ss).fallen s.clock.stamp).Waits ((s.alertDueAt p ss).record p ss) := by
  rw [State.alertDueAt, if_pos h]
  exact s.heldDue_record p ss

/-- The records whose due times are reached. -/
def State.fallKeys (s : State) : List Nat := Tab.filter s.reg.recs fun _ r => r.fallsDue s.clock.secs

theorem State.alertsDue_eq (s : State) : s.alertsDue = s.fallKeys.foldl (fun t k => t.alertDueAt (keyPupil k) (keySession k)) s := rfl

theorem State.fallKeys_mem {s : State} (hw : Tab.wf clearedAt s.reg.recs = true) (p : Nat) (ss : Session) :
    recKey p ss ∈ s.fallKeys ↔ (s.record p ss).fallsDue s.clock.secs = true := by
  rw [State.fallKeys, (State.filter_recs hw fun _ => rfl).2, keyPupil_recKey, keySession_recKey]

theorem fallenRecords_moves (s : State) (l : List Nat) :
    Moves (fun p ss => recKey p ss ∈ l) s (l.foldl (fun t k => t.alertDueAt (keyPupil k) (keySession k)) s) := by
  induction l generalizing s with
  | nil => exact .refl _ s
  | cons k l ih =>
    refine ((s.alertDueAt_moves _ _).mono fun p ss e => ?_).trans ((ih _).mono fun p ss h => List.mem_cons_of_mem k h)
    rw [(Prod.mk.inj e).1, (Prod.mk.inj e).2, recKey_keys]
    exact List.mem_cons_self ..

theorem State.alertsDue_moves (s : State) : Moves (fun p ss => recKey p ss ∈ s.fallKeys) s s.alertsDue := fallenRecords_moves s _

/-- Each record whose due time is reached falls due, once. -/
theorem State.alertsDue_record {s : State} (hw : Tab.wf clearedAt s.reg.recs = true) (p : Nat) (ss : Session) :
    ((s.record p ss).fallsDue s.clock.secs = true → ((s.record p ss).fallen s.clock.stamp).Waits (s.alertsDue.record p ss)) ∧
      ((s.record p ss).fallsDue s.clock.secs ≠ true → (s.record p ss).Waits (s.alertsDue.record p ss)) := by
  have hnd : s.fallKeys.Nodup := (State.filter_recs hw fun _ => rfl).1
  refine ⟨fun h => ?_, fun h => s.alertsDue_moves.others hw p ss fun hk => h ((State.fallKeys_mem hw p ss).mp hk)⟩
  obtain ⟨a, b, hab, hna, hnb⟩ := split_of_nodup hnd ((State.fallKeys_mem hw p ss).mpr h)
  rw [State.alertsDue_eq, hab, List.foldl_append, List.foldl_cons, keyPupil_recKey, keySession_recKey]
  have first := fallenRecords_moves s a
  have hr := (first.others hw p ss hna).eq_of (by simp [((Rec.fallsDue_iff _ _).mp h).1])
  rw [← hr, ← first.clock] at h ⊢
  exact .trans (State.alertDueAt_record _ p ss h)
    ((fallenRecords_moves _ b).others ((State.alertDueAt_moves _ p ss).wf (first.wf hw)) p ss hnb)

theorem State.alertsDue_falls (s : State) : Falls s s.alertsDue where
  plan := s.alertsDue_moves.plan
  sess := s.alertsDue_moves.sess
  status := s.alertsDue_moves.status
  raised := s.alertsDue_moves.raised
  records hw p ss := by
    obtain ⟨falls, waits⟩ := State.alertsDue_record hw p ss
    by_cases h : (s.record p ss).fallsDue s.clock.secs = true
    · exact .inr ⟨h, falls h⟩
    · exact .inl (waits h)

theorem State.fallKeys_nil {s : State} (h : ∀ e ∈ s.reg.recs, e.2.fallsDue s.clock.secs = false) : s.fallKeys = [] :=
  List.filterMap_eq_nil_iff.mpr fun e he => by simp [h e he]

/-- Where one record alone has its due time reached, it alone falls due. -/
theorem State.alertsDue_single {s : State} (hw : Tab.wf clearedAt s.reg.recs = true) {p : Nat} {ss : Session}
    (h : (s.record p ss).fallsDue s.clock.secs = true) (hno : ∀ e ∈ s.reg.recs, e.1 ≠ recKey p ss → e.2.fallsDue s.clock.secs = false) :
    s.alertsDue = s.alertFallsDue p ss := by
  have hmem := (State.fallKeys_mem hw p ss).mpr h
  have hnd : s.fallKeys.Nodup := (State.filter_recs hw fun _ => rfl).1
  have hone : s.fallKeys = [recKey p ss] := by
    obtain ⟨a, b, hab, hna, hnb⟩ := split_of_nodup hnd hmem
    have honly : ∀ k ∈ s.fallKeys, k = recKey p ss := by
      intro k hk
      obtain ⟨e, he, hek⟩ := List.mem_filterMap.mp hk
      by_contra hne
      split at hek
      · rename_i hf
        cases hek
        exact absurd ((hno e he hne).symm.trans hf) (by simp)
      · cases hek
    have ha : a = [] := List.eq_nil_iff_forall_not_mem.mpr fun k hk =>
      hna (honly k (hab ▸ List.mem_append_left _ hk) ▸ hk)
    have hb : b = [] := List.eq_nil_iff_forall_not_mem.mpr fun k hk =>
      hnb (honly k (hab ▸ List.mem_append_right _ (List.mem_cons_of_mem _ hk)) ▸ hk)
    rw [hab, ha, hb]
    rfl
  rw [State.alertsDue_eq, hone, List.foldl_cons, List.foldl_nil, keyPupil_recKey, keySession_recKey, State.alertDueAt, if_pos h,
    State.alertFallsDue, if_pos ((Rec.fallsDue_iff _ _).mp h).1]

/-! ## HELD alerts while the tracks follow the time -/

/-- A HELD alert stays HELD with its due time. -/
structure KeepsHeld (a b : State) : Prop where
  wf : Tab.wf clearedAt a.reg.recs = true → Tab.wf clearedAt b.reg.recs = true
  held : Tab.wf clearedAt a.reg.recs = true → ∀ (p : Nat) (ss : Session), (a.record p ss).alert = .held →
    (b.record p ss).alert = .held ∧ (b.record p ss).due = (a.record p ss).due

namespace KeepsHeld
variable {a s t : State}

theorem refl (s : State) : KeepsHeld s s := ⟨id, fun _ _ _ h => ⟨h, rfl⟩⟩

theorem trans (h : KeepsHeld a s) (k : KeepsHeld s t) : KeepsHeld a t := by
  refine ⟨fun hw => k.wf (h.wf hw), fun hw p ss hheld => ?_⟩
  obtain ⟨halert, hdue⟩ := h.held hw p ss hheld
  obtain ⟨halert', hdue'⟩ := k.held (h.wf hw) p ss halert
  exact ⟨halert', hdue'.trans hdue⟩

theorem foldl {α β : Type} {f : α → β → α} (v : α → State)
    (hf : ∀ (x : α) (y : β), KeepsHeld (v x) (v (f x y))) (x : α) (l : List β) :
    KeepsHeld (v x) (v (l.foldl f x)) := by
  induction l generalizing x with
  | nil => exact refl _
  | cons y l ih => exact (hf x y).trans (ih _)

/-- Nothing of the records changes. -/
theorem of_recs (h : t.reg.recs = s.reg.recs) : KeepsHeld s t := by
  have same (p : Nat) (ss : Session) : t.record p ss = s.record p ss := by rw [State.record, State.record, h]
  exact ⟨fun hw => h ▸ hw, fun _ p ss hh => by rw [same]; exact ⟨hh, rfl⟩⟩

/-- Records move that are not HELD. -/
theorem of_moves {T : Nat → Session → Prop} (h : Moves T s t)
    (hT : Tab.wf clearedAt s.reg.recs = true → ∀ (p : Nat) (ss : Session), T p ss → (s.record p ss).alert ≠ .held) : KeepsHeld s t := by
  refine ⟨h.wf, fun hw p ss hh => ?_⟩
  rw [(h.others hw p ss fun ht => hT hw p ss ht hh).eq_of (by simp [hh])]
  exact ⟨hh, rfl⟩

theorem closeRecord (s : State) (ss : Session) (start : Nat) (closing : Bool) (p : Nat) :
    KeepsHeld s (State.closeRecord ss start closing s p) := by
  by_cases hheld : (s.record p ss).alert = .held
  · obtain ⟨marked, kept⟩ := s.closeRecord_eq ss start closing p
    by_cases hu : (s.record p ss).unmarked
    · have hput : ((s.putRec p ss (s.record p ss).markN).putTally p (s.tally p)).record p ss = (s.record p ss).markN :=
        s.record_putRec_of_alert (r := (s.record p ss).markN) (by simp [Rec.markN, Rec.write, hheld])
      have hstart : ((s.putRec p ss (s.record p ss).markN).putTally p (s.tally p)).startAlert p ss start closing =
          (s.putRec p ss (s.record p ss).markN).putTally p (s.tally p) := by
        refine if_neg ?_
        rw [hput]
        simp [Rec.markN, Rec.write, hheld]
      rw [marked hu, hstart]
      refine ⟨fun hw => Tab.wf_put hw (recKey p ss) (s.record p ss).markN, fun hw q st hq => ?_⟩
      by_cases he : (q, st) = (p, ss)
      · cases he
        rw [hput]
        exact ⟨hheld, rfl⟩
      · have hother : ((s.putRec p ss (s.record p ss).markN).putTally p (s.tally p)).record q st = s.record q st :=
          s.record_putRec_other (s.record p ss).markN he
        rw [hother]
        exact ⟨hq, rfl⟩
    · rw [kept hu]
      exact refl s
  · refine of_moves (s.closeRecord_moves ss start closing p) fun _ q st e => ?_
    cases e
    exact hheld

theorem closeGroup (ss : Session) (start : Nat) (closing : Bool) (x : State × Bool) (g : Nat) :
    KeepsHeld x.1 (State.closeGroup ss start closing x g).1 := by
  rcases closeGroup_cases ss start closing x g with ⟨-, -, e⟩ | ⟨-, e⟩ | ⟨-, e⟩ | ⟨-, -, -, e⟩ <;> rw [e]
  · exact foldl id (fun s p => closeRecord s ss start closing p) x.1 _
  · exact of_recs rfl
  · exact of_recs rfl
  · exact refl _

theorem closeSession (s : State) (i : Fin 4) (ss : Session) (start : Nat) (closing : Bool) :
    KeepsHeld s (s.closeSession i ss start closing) := by
  have groups := (of_recs (s := s) (t := s.setSession i ss (some .closed)) rfl).trans
    (foldl Prod.fst (closeGroup ss start closing) (s.setSession i ss (some .closed), false) (s.groupsOf i))
  rw [s.closeSession_cases]
  split
  · exact groups.trans (of_recs rfl)
  · exact groups

theorem openSessionAt (s : State) (i : Fin 4) (ss : Session) : KeepsHeld s (s.openSessionAt i ss) := by
  rcases s.openSessionAt_cases i ss with ⟨-, e⟩ | ⟨-, e⟩ <;> rw [e]
  · exact of_recs rfl
  · exact refl s

theorem closeSessionAt (s : State) (i : Fin 4) (ss : Session) : KeepsHeld s (s.closeSessionAt i ss) := by
  unfold State.closeSessionAt
  split
  · split
    · split
      · exact closeSession s i ss _ _
      · exact refl s
    · exact refl s
  · exact refl s

theorem followTrack (s : State) (i : Fin 4) : KeepsHeld s (s.followTrack i) := by
  have sessions (t : State) : KeepsHeld t (t.followSessions i) :=
    (((openSessionAt t i .am).trans (openSessionAt _ i .pm)).trans (closeSessionAt _ i .am)).trans (closeSessionAt _ i .pm)
  have first := (of_recs (s := s) (t := s.setTrack i ((s.track i).follow s.clock.secs s.dayOver)) rfl).trans (sessions _)
  dsimp only [State.followTrack]
  split
  · refine first.trans (of_moves (State.withheldDue_moves _ i) fun hw p ss hk => ?_)
    simp [((State.endKeys_mem i hw p ss).mp hk).1]
  · exact first

theorem followTracks (s : State) : KeepsHeld s s.followTracks := by
  unfold State.followTracks
  split
  · exact foldl id (fun s i => followTrack s i) s fours
  · exact refl s

end KeepsHeld

/-! ## Times at which no session closes -/

/-- No alert is WITHHELD. -/
def State.noneWithheld (s : State) : Prop := ∀ e ∈ s.reg.recs, e.2.alert ≠ .withheld

/-- The tracks and the session states alone change, unless a session closes or an alert is WITHHELD. -/
structure Quiet (a b : State) : Prop where
  closed : ∀ (i : Fin 4) (ss : Session), a.session i ss = some .closed → b.session i ss = some .closed
  only : a.noneWithheld → (∀ (i : Fin 4) (ss : Session), b.session i ss = some .closed → a.session i ss = some .closed) →
    b = { a with plan.tracks := b.plan.tracks, reg.sess := b.reg.sess }

namespace Quiet
variable {a s t : State}

theorem refl (s : State) : Quiet s s := ⟨fun _ _ h => h, fun _ _ => rfl⟩

theorem trans (h : Quiet a s) (k : Quiet s t) : Quiet a t := by
  refine ⟨fun i ss hc => k.closed i ss (h.closed i ss hc), fun hn hno => ?_⟩
  have first := h.only hn fun i ss hc => hno i ss (k.closed i ss hc)
  have hrecs : s.reg.recs = a.reg.recs := by rw [first]
  have second := k.only (fun e he => hn e (hrecs ▸ he)) fun i ss hc => h.closed i ss (hno i ss hc)
  exact second.trans (congrArg (fun x : State => { x with plan.tracks := t.plan.tracks, reg.sess := t.reg.sess }) first)

theorem setTrack (s : State) (i : Fin 4) (x : Track) : Quiet s (s.setTrack i x) := ⟨fun _ _ h => h, fun _ _ => rfl⟩

theorem openSessionAt (s : State) (i : Fin 4) (ss : Session) : Quiet s (s.openSessionAt i ss) := by
  rcases s.openSessionAt_cases i ss with ⟨ho, e⟩ | ⟨-, e⟩ <;> rw [e]
  · refine ⟨fun j st hc => ?_, fun _ _ => rfl⟩
    rw [s.session_setSession]
    split
    · rename_i h
      rw [h.1, h.2, ho.1] at hc
      cases hc
    · exact hc
  · exact refl s

theorem closeSessionAt (s : State) (i : Fin 4) (ss : Session) : Quiet s (s.closeSessionAt i ss) := by
  unfold State.closeSessionAt
  split
  · rename_i p x _ hx
    split
    · split
      · rename_i m _ hc
        refine ⟨fun j st hst => ?_, fun _ hno => ?_⟩
        · rw [s.closeSession_session]
          split
          · rfl
          · exact hst
        · have hclosed := hno i ss (by rw [s.closeSession_session, if_pos ⟨rfl, rfl⟩])
          rw [hx] at hclosed
          simp [Option.some.inj hclosed] at hc
      · exact refl s
    · exact refl s
  · exact refl s

theorem withheldDue (s : State) (i : Fin 4) : Quiet s (s.withheldDue i) := by
  refine ⟨fun j ss hc => (State.session_congr (s.withheldDue_moves i).sess j ss).trans hc, fun hn _ => ?_⟩
  have hnil : s.endKeys i = [] := List.filterMap_eq_nil_iff.mpr fun e he => by simp [hn e he]
  rw [State.withheldDue_eq, hnil]
  rfl

theorem followTrack (s : State) (i : Fin 4) : Quiet s (s.followTrack i) := by
  have sessions (t : State) : Quiet t (t.followSessions i) :=
    (((openSessionAt t i .am).trans (openSessionAt _ i .pm)).trans (closeSessionAt _ i .am)).trans (closeSessionAt _ i .pm)
  have first := (setTrack s i ((s.track i).follow s.clock.secs s.dayOver)).trans (sessions _)
  dsimp only [State.followTrack]
  split
  · exact first.trans (withheldDue _ i)
  · exact first

theorem followTracks (s : State) : Quiet s s.followTracks := by
  have each (l : List (Fin 4)) (s : State) : Quiet s (l.foldl State.followTrack s) := by
    induction l generalizing s with
    | nil => exact refl s
    | cons i l ih => exact (followTrack s i).trans (ih _)
  unfold State.followTracks
  split
  · exact each fours s
  · exact refl s

end Quiet

end Sys2Proof.Machine
end

