-- ==== Sys2Proof/Proofs/ClockSteps.lean ====
section
/-! CLAIM. CLOCK SET and its steps during a day (R18, R19). -/

namespace Sys2Proof.Machine

/-! ## The request's refusals and steps -/

section
variable {s : State} {d : RawDate} {t : RawTime}

/-- The date and the time that CLOCK SET carries are valid. -/
def validSet (d : RawDate) (t : RawTime) : Prop :=
  d.year ≤ 99 ∧ (⟨d.day, d.month, d.year + 2000⟩ : Date).valid = true ∧ t.hour ≤ 23 ∧ t.minute ≤ 59 ∧ t.second ≤ 59

theorem rawDate?_eq (d : RawDate) :
    rawDate? d = if d.year ≤ 99 ∧ (⟨d.day, d.month, d.year + 2000⟩ : Date).valid = true then
      some ⟨d.day, d.month, d.year + 2000⟩ else none := by
  simp [rawDate?]

theorem rawTime?_eq (t : RawTime) :
    rawTime? t = if t.hour ≤ 23 ∧ t.minute ≤ 59 ∧ t.second ≤ 59 then some (t.hour * 3600 + t.minute * 60 + t.second) else none := by
  simp [rawTime?, and_assoc]

theorem reqClockSet_badArg (h : ¬ validSet d t) : reqClockSet d t s = s.refuse .badArg := by
  unfold reqClockSet
  rw [rawDate?_eq, rawTime?_eq]
  split
  · rename_i hd ht
    split at hd
    · split at ht
      · rename_i hd' ht'
        exact absurd ⟨hd'.1, hd'.2, ht'⟩ h
      · cases ht
    · cases hd
  · rfl

theorem reqClockSet_valid (h : validSet d t) :
    reqClockSet d t s =
      if s.clock.isSet = false ∨ s.plan.dayState = .closed then
        ({ s with clock := Clock.put ⟨d.day, d.month, d.year + 2000⟩ (t.hour * 3600 + t.minute * 60 + t.second) }, Reply.ok [])
      else if (⟨d.day, d.month, d.year + 2000⟩ : Date) ≠ s.clock.date ∨
          stepLimit < apart (t.hour * 3600 + t.minute * 60 + t.second) s.clock.secs then s.refuse .state
      else (s.stepClock (t.hour * 3600 + t.minute * 60 + t.second), Reply.ok []) := by
  obtain ⟨hy, hv, ht⟩ := h
  unfold reqClockSet
  rw [rawDate?_eq, rawTime?_eq, if_pos ⟨hy, hv⟩, if_pos ht]
  simp

end

/-! ## A forward step (R19) -/

theorem skipPast_eq (secs : Nat) (e : BellEvent) :
    skipPast secs e =
      if e.outcome = .pending ∧ e.time * 60 ≤ secs then { e with outcome := .skipped }
      else if e.outcome = .suppressed ∧ e.time * 60 ≤ secs then { e with passed := true }
      else e := by
  simp [skipPast, passQuiet, reached]

/-- The state once the Clock has stepped and the bells have been passed. -/
def State.steppedTo (s : State) (secs : Nat) : State :=
  { s with
    clock.secs := secs
    bells := s.bells.map (skipReached secs) }

theorem State.stepClock_forward {s : State} {secs : Nat} (h : s.clock.secs < secs) :
    s.stepClock secs = (s.steppedTo secs).followTracks.alertsDue := by
  unfold State.stepClock
  exact if_pos h

theorem State.stepClock_back {s : State} {secs : Nat} (h : secs ≤ s.clock.secs) : s.stepClock secs = { s with clock.secs := secs } := by
  unfold State.stepClock
  exact if_neg (Nat.not_lt.mpr h)

theorem State.followTracks_alertsDue_follows (s : State) : Follows (fun _ _ => True) s s.followTracks.alertsDue :=
  s.followTracks_follows.trans (s.followTracks.alertsDue_moves.follows.mono fun _ _ _ => trivial)

theorem Follows.hand {T : Nat → Session → Prop} {s t : State} (h : Follows T s t) : t.link.hand = s.link.hand := by
  obtain ⟨-, -, -, -, -, hlink, -⟩ := h.leaves
  have hhand : ({ t.link with counts := s.link.counts } : HostLink).hand = s.link.hand := congrArg HostLink.hand hlink
  exact hhand

/-- A HELD alert at the end of a step: HELD on, CANCELLED, or started. -/
theorem State.followTracks_alertsDue_held {s : State} (hw : Tab.wf clearedAt s.reg.recs = true) {p : Nat} {ss : Session} {k : Nat}
    (ha : (s.record p ss).alert = .held) (hd : (s.record p ss).due = some k) :
    let v := s.followTracks.alertsDue.record p ss
    (s.clock.secs < k → v.alert = .held ∧ v.due = some k) ∧ (k ≤ s.clock.secs → v.mark ≠ .n → v.alert = .cancelled ∧ v.due = none) ∧
      (k ≤ s.clock.secs → v.mark = .n → v.started) := by
  obtain ⟨hheld, hdue⟩ := (KeepsHeld.followTracks s).held hw p ss ha
  obtain ⟨falls, waits⟩ := State.alertsDue_record ((KeepsHeld.followTracks s).wf hw) p ss
  rw [s.followTracks_follows.clock] at falls waits
  generalize s.followTracks.record p ss = r at hheld hdue falls waits
  rw [hd] at hdue
  have hiff : r.fallsDue s.clock.secs = true ↔ k ≤ s.clock.secs := by
    rw [Rec.fallsDue_iff, hdue]
    simp [hheld]
  intro v
  refine ⟨fun hk => ?_, fun hk hm => ?_, fun hk hm => ?_⟩
  · have hv : v = r := (waits fun h => absurd (hiff.mp h) (Nat.not_le.mpr hk)).eq_of (by simp [hheld])
    rw [hv]
    exact ⟨hheld, hdue⟩
  · have fallen := falls (hiff.mpr hk)
    have hmark : v.mark = r.mark := ((r.fallen_sameMark _).trans fallen.sameMark).1
    rw [Rec.fallen, if_neg fun e => hm (hmark.trans e)] at fallen
    have hv : v = _ := fallen.eq_of (by simp)
    rw [hv]
    exact ⟨rfl, rfl⟩
  · have fallen := falls (hiff.mpr hk)
    have hmark : v.mark = r.mark := ((r.fallen_sameMark _).trans fallen.sameMark).1
    rw [Rec.fallen, if_pos (hmark.symm.trans hm)] at fallen
    exact fallen.started (r.dueNow_started _)

/-- A step at which no session closes and no alert is WITHHELD: the tracks and the session states alone change, and then the alerts fall
due. -/
theorem State.quiet_step {s : State} (hw : s.noneWithheld)
    (hn : ∀ (i : Fin 4) (ss : Session), s.followTracks.alertsDue.session i ss = some .closed → s.session i ss = some .closed) :
    s.followTracks = { s with
      plan.tracks := s.followTracks.alertsDue.plan.tracks
      reg.sess := s.followTracks.alertsDue.reg.sess } := by
  have falls := s.followTracks.alertsDue_falls
  rw [falls.plan, falls.sess]
  exact (Quiet.followTracks s).only hw fun i ss hc => hn i ss ((State.session_congr falls.sess i ss).trans hc)

theorem State.alertsDue_none {s : State} (h : ∀ e ∈ s.reg.recs, e.2.fallsDue s.clock.secs = false) : s.alertsDue = s := by
  rw [State.alertsDue_eq, State.fallKeys_nil h]
  rfl

/-! ## The claim -/

/-- Settles O19: a step follows the tracks, each moving beside the others, and then the due times. -/
theorem clockSetSteps : Obligations.ClockSetSteps := by
  unfold Obligations.ClockSetSteps
  intro s tag d t h day secs valid
  have answers {f : State → State} {code : Code} (e : reqClockSet d t (s.inHand 0x10 tag) = (f (s.inHand 0x10 tag), ⟨code, []⟩))
      (hf : (f (s.inHand 0x10 tag)).link.hand = some ⟨tag, 0x10, false⟩) : Answers (.clockSet tag d t) s 0x10 tag f code [] :=
    answers_of_handle h rfl rfl (by decide) (congrArg answered e) hf
  refine ⟨fun hv => answers (reqClockSet_badArg hv) rfl, fun hv hfree => ?_, fun hv hset hopen => ?_⟩
  · exact answers (f := fun x => { x with clock := ⟨day, day.weekday, secs, true⟩ }) ((reqClockSet_valid hv).trans (if_pos hfree)) rfl
  · have during : ¬ (s.clock.isSet = false ∨ s.plan.dayState = .closed) := by simp [hset, hopen]
    have request := (reqClockSet_valid (s := s.inHand 0x10 tag) hv).trans (if_neg during)
    have within (hday : day = s.clock.date) (hback : s.clock.secs ≤ secs + 120) (hforth : secs ≤ s.clock.secs + 120) :
        ¬ (day ≠ s.clock.date ∨ stepLimit < apart secs s.clock.secs) := by
      rintro (hne | hfar)
      · exact hne hday
      · have : 120 < (secs - s.clock.secs) + (s.clock.secs - secs) := hfar
        omega
    have runs (hclosing : s.plan.dayState ≠ .closing) : s.dayRuns = true := by
      rw [State.dayRuns]
      cases hs : s.plan.dayState <;> simp_all
    refine ⟨fun hfar => ?_, fun hday hle hnear => ?_, fun hday hlt hnear => ?_⟩
    · refine answers (f := id) (request.trans (if_pos (hfar.imp_right fun hfar => ?_))) rfl
      show 120 < (secs - s.clock.secs) + (s.clock.secs - secs)
      omega
    · have keeps := within hday hnear (by omega)
      refine answers (f := fun x => { x with clock.secs := secs }) (request.trans ((if_neg keeps).trans ?_)) rfl
      exact congrArg (·, Reply.ok []) (State.stepClock_back (s := s.inHand 0x10 tag) hle)
    · have keeps := within hday (by omega) hnear
      intro skipped at_ u only noClose falls
      have hat : (s.inHand 0x10 tag).steppedTo secs = at_ := by
        have hskip : skipReached secs = fun z => { z with list := z.list.map skipped } := by
          funext z
          rw [skipReached, show skipPast secs = skipped from funext fun e => skipPast_eq secs e]
        rw [State.steppedTo, hskip]
        rfl
      have follows : Follows _ at_ u := at_.followTracks_alertsDue_follows
      have hfalls : Falls at_.followTracks u := at_.followTracks.alertsDue_falls
      have hsecs : at_.followTracks.clock.secs = secs := congrArg Clock.secs at_.followTracks_follows.clock
      have due (r : Rec) : r.fallsDue at_.followTracks.clock.secs = true ↔ falls r := by
        rw [hsecs]
        exact r.fallsDue_iff secs
      refine ⟨?_, follows.leaves, follows.desk, follows.tallies, fun hn hno => ?_, fun p ss hw hn hno hr => ?_, fun p ss k hw ha hd => ?_,
        fun hclosing => ?_, fun hclosing hdate => ⟨?_, fun i p hp => ?_⟩⟩
      · refine answers (f := fun _ => u) (request.trans ((if_neg keeps).trans ?_)) (follows.hand.trans rfl)
        exact congrArg (·, Reply.ok [])
          ((State.stepClock_forward (s := s.inHand 0x10 tag) hlt).trans (congrArg (fun x : State => x.followTracks.alertsDue) hat))
      · have hX : at_.followTracks = only := State.quiet_step (fun e he => (hno e he).1) hn
        have hrecs : at_.followTracks.reg.recs = s.reg.recs := hX ▸ rfl
        refine (State.alertsDue_none fun e he => ?_).trans hX
        rw [← Bool.not_eq_true, due]
        exact (hno e (hrecs ▸ he)).2
      · have hX : at_.followTracks = only := State.quiet_step (fun e he => (hno e he).1) hn
        have hrecs : at_.followTracks.reg.recs = s.reg.recs := hX ▸ rfl
        have hrec : at_.followTracks.record p ss = s.record p ss := by rw [State.record, State.record, hrecs]
        refine (State.alertsDue_single (hrecs ▸ hw) ?_ fun e he hne => ?_).trans (congrArg (fun x : State => x.alertFallsDue p ss) hX)
        · rw [due, hrec]
          exact hr
        · rw [← Bool.not_eq_true, due]
          exact (hno e (hrecs ▸ he)).2 hne
      · exact State.followTracks_alertsDue_held (s := at_) hw ha hd
      · have hstay : at_.followTracks = at_ := if_neg (by simp [State.dayRuns, at_, State.inHand, hclosing])
        have hu : u = at_.alertsDue := congrArg State.alertsDue hstay
        have moves := at_.alertsDue_moves
        rw [hu]
        exact ⟨rfl, moves.plan, moves.sess, moves.status⟩
      · exact State.followTracks_followed (runs hclosing) (State.dayOver_of_date (s := at_) hdate) hfalls
      · obtain ⟨v, hv⟩ := State.followTracks_at (s := at_) (runs hclosing) (State.dayOver_of_date hdate) i .am
        have htrack : u.plan.tracks.get i = at_.trackNow i := by
          rw [hfalls.plan]
          exact hv.track
        intro x q
        rw [htrack]
        exact ⟨fun he => Track.follow_ended _ _ _ he, fun he => State.trackNow_eq hp he⟩

end Sys2Proof.Machine
end

