-- ==== Sys2Proof/Proofs/SecondEvent.lean ====
section
/-! CLAIM. The calendar and the second event (R16, R17): the statement fails for a register whose record table is not canonical, which holds a
second entry behind a cleared one. Serving the alert of the second writes the cleared record, which takes the first out, and the mark of the
second shows. -/

namespace Sys2Proof.Machine

theorem secondEvent_does (s : State) (peak : Quad Nat) : Does (.secondEvent peak) s (s.second peak) := rfl

/-! ## Marks that no due time touches -/

/-- No record is marked. -/
def State.unmarked (s : State) : Prop := ∀ (p : Nat) (ss : Session), (s.record p ss).mark = .nothing

theorem State.unmarked.alertDueAt {s : State} (h : s.unmarked) (p : Nat) (ss : Session) : (s.alertDueAt p ss).unmarked := by
  unfold State.alertDueAt
  split
  · intro q st
    rw [State.heldDue, if_neg (by simp [h p ss])]
    by_cases he : (q, st) = (p, ss)
    · cases he
      rw [s.record_modRec_of_alert (by simp)]
      exact h p ss
    · rw [s.record_modRec_other _ he]
      exact h q st
  · exact h

/-- An alert that falls due leaves every mark, and none is N here. -/
theorem State.unmarked.alertsDue {s : State} (h : s.unmarked) : s.alertsDue.unmarked := by
  rw [State.alertsDue_eq]
  generalize s.fallKeys = l
  induction l generalizing s with
  | nil => exact h
  | cons k l ih => exact ih (h.alertDueAt (keyPupil k) (keySession k))

/-- With no day running a minute event leaves the records. -/
theorem State.minute_record {s : State} (h : s.dayRuns = false) (p : Nat) (ss : Session) : s.minute.record p ss = s.record p ss := by
  have hstay : s.followTracks = s := if_neg (by simp [h])
  obtain ⟨hrest, -⟩ := s.ringDueBells_zone 0
  have hreg : s.ringDueBells.reg = s.reg := by rw [hrest]
  rw [State.minute, hstay]
  exact State.record_congr hreg p ss

/-- What follows a command leaves every mark. -/
theorem State.settle_mark (s t : State) (p : Nat) (ss : Session) : ((s.settle t).record p ss).mark = (t.record p ss).mark := by
  rcases (s.settle_submits t).record p ss with e | e <;> rw [e]

/-! ## The counterexample -/

/-- A NOTICE in the last second of its lifetime. -/
def expiringNotice : Message where
  number := 1
  cls := .notice
  kind := .officeNotice
  storage := .shared 1
  made := Clock.initial.stamp
  text := []
  body := .out ⟨.pupil 0 .am, [], ⟨0, false, 0⟩, .queued, some 1, false⟩

/-- A second before a minute: behind the cleared record of pupil 2's AM session stands one marked A with a DUE alert, and a message expires. -/
def shadowedRecord : State :=
  { State.reset with
    clock.secs := 59
    reg.recs := [(4, Rec.cleared), (4, { Rec.cleared with mark := .a, alert := .due })]
    pool.msgs := [expiringNotice] }

theorem shadowedRecord_unmarked : shadowedRecord.unmarked := by
  intro p ss
  show (Tab.get clearedAt shadowedRecord.reg.recs (recKey p ss)).mark = .nothing
  generalize recKey p ss = k
  by_cases h : k = 4
  · rw [h]
    rfl
  · simp [shadowedRecord, Tab.get, h, clearedAt, Rec.cleared]

set_option maxRecDepth 20000 in
/-- The expiry frees storage, the serve pass takes the alert, and the mark A shows. -/
theorem shadowedRecord_second : ((shadowedRecord.second ⟨0, 0, 0, 0⟩).record 2 .am).mark = .a := by rfl

/-- Refutes O20: in the second event of `shadowedRecord` the marks do not stay up to the minute. -/
theorem not_clockCountsTheCalendar : ¬ Obligations.ClockCountsTheCalendar := by
  unfold Obligations.ClockCountsTheCalendar
  rintro ⟨-, -, seconds, -⟩
  obtain ⟨-, minutes, -⟩ := seconds shadowedRecord ⟨0, 0, 0, 0⟩
  obtain ⟨v, hdoes, -, hplan, -, -, -, hmarks⟩ := minutes (by decide) (by decide)
  have hclosed : v.dayRuns = false := by
    rw [State.dayRuns, hplan]
    rfl
  have hv : v.unmarked := fun p ss => (hmarks p ss).1.trans (shadowedRecord_unmarked p ss)
  have hminute : v.minute.unmarked := fun p ss => by
    rw [State.minute_record hclosed]
    exact hv p ss
  have hsettled := (secondEvent_does shadowedRecord ⟨0, 0, 0, 0⟩).symm.trans hdoes
  have hsame : shadowedRecord.settle (shadowedRecord.second ⟨0, 0, 0, 0⟩) = shadowedRecord.settle v.minute.alertsDue := by
    injection hsettled
  have hmark : (v.minute.alertsDue.record 2 .am).mark = .a := by
    rw [← State.settle_mark shadowedRecord, ← hsame, State.settle_mark]
    exact shadowedRecord_second
  rw [hminute.alertsDue 2 .am] at hmark
  cases hmark

end Sys2Proof.Machine
end

