-- ==== Sys2Proof/Proofs/RebuildPages.lean ====
section
/-! SUPPORT. The pages that a rebuild reads (R118, R189): which entries, and which pages of each. -/

namespace Sys2Proof.Machine

/-! ## The entries of the directory -/

theorem mem_entries (x : Store) (k : Nat) (e : DayEntry) : (k, e) ∈ x.entries ↔ x.dir[k]? = some (some e) := by
  rw [Store.entries, List.mem_filterMap]
  constructor
  · rintro ⟨⟨o, j⟩, hm, ho⟩
    obtain ⟨d, rfl, he⟩ := Option.map_eq_some_iff.mp ho
    cases he
    exact List.mem_zipIdx_iff_getElem?.mp hm
  · exact fun h => ⟨(some e, k), List.mem_zipIdx_iff_getElem?.mpr h, rfl⟩

theorem mem_dir_iff (x : Store) (e : DayEntry) : some e ∈ x.dir ↔ ∃ k : Nat, (k, e) ∈ x.entries := by
  rw [List.mem_iff_getElem?]
  exact exists_congr fun k => (mem_entries x k e).symm

theorem greatestBy_spec {α : Type} (f : α → Nat) (l : List α) :
    (∀ a : α, greatestBy f l = some a → a ∈ l ∧ ∀ b ∈ l, f b ≤ f a) ∧ (greatestBy f l = none → l = []) := by
  induction l with
  | nil => exact ⟨fun a h => absurd h (by simp [greatestBy]), fun _ => rfl⟩
  | cons x l ih =>
    rw [greatestBy]
    cases hg : greatestBy f l with
    | none =>
      have hl := ih.2 hg
      subst hl
      exact ⟨fun a h => by cases h; simp, fun h => by cases h⟩
    | some b =>
      obtain ⟨hb, hmax⟩ := ih.1 b hg
      refine ⟨fun a h => ?_, fun h => ?_⟩
      · dsimp only at h
        split at h
        · rename_i hle
          cases h
          exact ⟨List.mem_cons_self .., fun c hc => (List.mem_cons.mp hc).elim (fun e => e ▸ Nat.le_refl _) fun hc =>
            Nat.le_trans (hmax c hc) hle⟩
        · rename_i hle
          cases h
          exact ⟨List.mem_cons_of_mem _ hb, fun c hc => (List.mem_cons.mp hc).elim (fun e => e ▸ by omega) (hmax c)⟩
      · dsimp only at h
        split at h <;> cases h

/-- No two entries have one commit number. -/
def Store.commitsDiffer (x : Store) : Prop :=
  ∀ (k j : Nat) (e f : DayEntry), x.dir[k]? = some (some e) → x.dir[j]? = some (some f) → e.commit = f.commit → k = j

section
variable {x : Store} (hx : x.commitsDiffer)
include hx

theorem newestOf_iff {e : DayEntry} (he : some e ∈ x.dir) :
    x.newestOf e.date = some e ↔ ∀ f : DayEntry, some f ∈ x.dir → f.date = e.date → f = e ∨ f.commit < e.commit := by
  obtain ⟨k, hk⟩ := (mem_dir_iff x e).mp he
  have mem (j : Nat) (f : DayEntry) : (j, f) ∈ x.entries.filter (fun a => a.2.date == e.date) ↔ (j, f) ∈ x.entries ∧ f.date = e.date := by
    simp [List.mem_filter]
  have same {j : Nat} {f : DayEntry} (hf : (j, f) ∈ x.entries) (hc : f.commit = e.commit) : f = e := by
    have hd := (mem_entries x j f).mp hf
    have hd' := (mem_entries x k e).mp hk
    cases hx j k f e hd hd' hc
    exact Option.some.inj (Option.some.inj (hd.symm.trans hd'))
  obtain ⟨greatest, none⟩ := greatestBy_spec (fun a : Nat × DayEntry => a.2.commit) (x.entries.filter fun a => a.2.date == e.date)
  rw [Store.newestOf, Option.map_eq_some_iff]
  constructor
  · rintro ⟨⟨j, g⟩, hg, rfl⟩ f hf hdate
    obtain ⟨i, hi⟩ := (mem_dir_iff x f).mp hf
    have hle := (greatest _ hg).2 (i, f) ((mem i f).mpr ⟨hi, hdate⟩)
    exact (Nat.lt_or_eq_of_le hle).elim .inr fun hc => .inl (same hi hc)
  · intro hmax
    cases hg : greatestBy (fun a : Nat × DayEntry => a.2.commit) (x.entries.filter fun a => a.2.date == e.date) with
    | none =>
      have hmem := (mem k e).mpr ⟨hk, rfl⟩
      rw [none hg] at hmem
      cases hmem
    | some g =>
      obtain ⟨hgm, hgmax⟩ := greatest g hg
      obtain ⟨hgm, hgd⟩ := (mem g.1 g.2).mp hgm
      refine ⟨g, rfl, (hmax g.2 ((mem_dir_iff x g.2).mpr ⟨g.1, hgm⟩) hgd).resolve_right ?_⟩
      exact Nat.not_lt.mpr (hgmax (k, e) ((mem k e).mpr ⟨hk, rfl⟩))

theorem mem_weekEntries (day : Date) (e : DayEntry) :
    e ∈ x.weekEntries day ↔ some e ∈ x.dir ∧ e.date.number < day.number ∧ day.number ≤ e.date.number + day.weekday ∧
      ∀ f : DayEntry, some f ∈ x.dir → f.date = e.date → f = e ∨ f.commit < e.commit := by
  have week : (e.date.sameWeek day = true ∧ e.date.number < day.number) ↔
      (e.date.number < day.number ∧ day.number ≤ e.date.number + day.weekday) := by
    simp only [Date.sameWeek, Date.weekday, beq_iff_eq]
    omega
  have chosen : e ∈ x.weekEntries day ↔ some e ∈ x.dir ∧ (e.date.sameWeek day = true ∧ e.date.number < day.number) ∧
      x.newestOf e.date = some e := by
    rw [Store.weekEntries, List.mem_filterMap, mem_dir_iff]
    constructor
    · rintro ⟨⟨k, f⟩, hf, h⟩
      split at h
      · rename_i hc
        cases h
        simp only [Bool.and_eq_true, decide_eq_true_iff, beq_iff_eq] at hc
        exact ⟨⟨k, hf⟩, hc⟩
      · cases h
    · rintro ⟨⟨k, hk⟩, hc⟩
      exact ⟨(k, e), hk, if_pos (by simpa using hc)⟩
  rw [chosen, week, and_assoc]
  refine and_congr_right fun he => ?_
  rw [newestOf_iff hx he]

end

/-! ## The pages of an entry -/

theorem mem_wholeReads (l : List Nat) (n : Nat) (r : PageRead) :
    r ∈ wholeReads l n ↔ ∃ i p : Nat, l[i]? = some p ∧ 64 * i < n ∧ r = ⟨260 + p, 0, min 64 (n - 64 * i)⟩ := by
  induction l generalizing n with
  | nil => simp [wholeReads]
  | cons q l ih =>
    have hcount : min n Config.recordsPerPage = min 64 n := Nat.min_comm _ _
    rw [wholeReads]
    by_cases hn : n = 0
    · simp [hn]
    · rw [if_neg hn, List.mem_cons, ih, hcount]
      constructor
      · rintro (rfl | ⟨i, p, hp, hi, rfl⟩)
        · exact ⟨0, q, rfl, by omega, rfl⟩
        · have hi' : 64 * i < n - 64 := hi
          have hleft : n - 64 - 64 * i = n - 64 * (i + 1) := by omega
          exact ⟨i + 1, p, hp, by omega, hleft ▸ rfl⟩
      · rintro ⟨i, p, hp, hi, rfl⟩
        cases i with
        | zero =>
          cases hp
          exact .inl rfl
        | succ i =>
          have hleft : n - 64 * (i + 1) = n - 64 - 64 * i := by omega
          have hi' : 64 * i < n - 64 := by omega
          exact .inr ⟨i, p, hp, hi', hleft ▸ rfl⟩

theorem goodPages_eq (x : Store) (e : DayEntry) :
    x.goodPages e = ((List.range e.pages).map fun k => (e.first + k) % 1280).filter fun q => decide (q ∉ x.bad) := by
  refine List.filter_congr fun q _ => ?_
  simp

theorem mem_rebuildReads {x : Store} (hx : x.commitsDiffer) (day : Date) (r : PageRead) :
    r ∈ x.rebuildReads day ↔ ∃ (e : DayEntry) (i p : Nat), some e ∈ x.dir ∧
      e.date.number < day.number ∧ day.number ≤ e.date.number + day.weekday ∧
      (∀ f : DayEntry, some f ∈ x.dir → f.date = e.date → f = e ∨ f.commit < e.commit) ∧
      (((List.range e.pages).map fun k => (e.first + k) % 1280).filter fun q => decide (q ∉ x.bad))[i]? = some p ∧
      64 * i < e.records ∧ r = ⟨260 + p, 0, min 64 (e.records - 64 * i)⟩ := by
  simp only [Store.rebuildReads, List.mem_flatMap, mem_weekEntries hx, mem_wholeReads, goodPages_eq]
  constructor
  · rintro ⟨e, ⟨he, hlt, hweek, hnew⟩, i, p, hp, hi, hr⟩
    exact ⟨e, i, p, he, hlt, hweek, hnew, hp, hi, hr⟩
  · rintro ⟨e, i, p, he, hlt, hweek, hnew, hp, hi, hr⟩
    exact ⟨e, ⟨he, hlt, hweek, hnew⟩, i, p, hp, hi, hr⟩

end Sys2Proof.Machine
end

