-- ==== Sys2Proof/Proofs/DayRefusals.lean ====
section
/-! SUPPORT. DAY OPEN's operands and its refusals in order (R21). -/

namespace Sys2Proof.Machine

/-! ## The day kinds -/

theorem DayKind.ofCode_of_le {n : Nat} (h : n ≤ 3) : ∃ k : DayKind, DayKind.ofCode n = some k ∧ k.code = n := by
  match n, h with
  | 0, _ => exact ⟨.normal, rfl, rfl⟩
  | 1, _ => exact ⟨.short, rfl, rfl⟩
  | 2, _ => exact ⟨.exam, rfl, rfl⟩
  | 3, _ => exact ⟨.event, rfl, rfl⟩

theorem DayKind.le_of_ofCode {n : Nat} {k : DayKind} (h : DayKind.ofCode n = some k) : n ≤ 3 := by
  match n, h with
  | 0, _ => omega
  | 1, _ => omega
  | 2, _ => omega
  | 3, _ => omega

/-- Four kinds as their codes give them. -/
def kindsMatch (kinds : Quad Nat) (k : Quad DayKind) : Prop :=
  ∀ i : Fin 4, DayKind.ofCode (kinds.get i) = some (k.get i) ∧ (k.get i).code = kinds.get i

theorem dayKinds?_of_le {kinds : Quad Nat} (h : ∀ i : Fin 4, kinds.get i ≤ 3) :
    ∃ k : Quad DayKind, dayKinds? kinds = some k ∧ kindsMatch kinds k := by
  obtain ⟨a, ha, hac⟩ := DayKind.ofCode_of_le (h 0)
  obtain ⟨b, hb, hbc⟩ := DayKind.ofCode_of_le (h 1)
  obtain ⟨c, hc, hcc⟩ := DayKind.ofCode_of_le (h 2)
  obtain ⟨d, hd, hdc⟩ := DayKind.ofCode_of_le (h 3)
  refine ⟨⟨a, b, c, d⟩, ?_, fun i => ?_⟩
  · unfold dayKinds?
    simp only [Quad.get] at ha hb hc hd
    rw [ha, hb, hc, hd]
  · match i with
    | 0 => exact ⟨ha, hac⟩
    | 1 => exact ⟨hb, hbc⟩
    | 2 => exact ⟨hc, hcc⟩
    | 3 => exact ⟨hd, hdc⟩

theorem le_of_dayKinds? {kinds : Quad Nat} {k : Quad DayKind} (h : dayKinds? kinds = some k) (i : Fin 4) : kinds.get i ≤ 3 := by
  unfold dayKinds? at h
  split at h
  · rename_i ha hb hc hd
    match i with
    | 0 => exact DayKind.le_of_ofCode ha
    | 1 => exact DayKind.le_of_ofCode hb
    | 2 => exact DayKind.le_of_ofCode hc
    | 3 => exact DayKind.le_of_ofCode hd
  · cases h

/-! ## The four tracks -/

section
variable {s : State} {kinds : Quad Nat} {k : Quad DayKind} {d : Quad Nat}

theorem openTrack_eq (hk : kindsMatch kinds k) (i : Fin 4) :
    s.openTrack k d i = buildTrack (s.storedPlan (i.val * 4 + kinds.get i)) (DayKind.ofCode (kinds.get i)) (d.get i) 0 s.clock.secs := by
  obtain ⟨ho, hc⟩ := hk i
  rw [State.openTrack, State.storedFor, planIndex, hc, ho]

theorem openTracks_error (i : Fin 4) {x : Nat} (hbefore : ∀ j : Fin 4, j.val < i.val → ∃ y : Track, s.openTrack k d j = .ok y)
    (h : s.openTrack k d i = .error x) : s.openTracks k d = .error (i.val, x) := by
  unfold State.openTracks
  match i with
  | 0 => rw [h]; rfl
  | 1 =>
    obtain ⟨a, ha⟩ := hbefore 0 (by decide)
    rw [ha, h]
    rfl
  | 2 =>
    obtain ⟨a, ha⟩ := hbefore 0 (by decide)
    obtain ⟨b, hb⟩ := hbefore 1 (by decide)
    rw [ha, hb, h]
    rfl
  | 3 =>
    obtain ⟨a, ha⟩ := hbefore 0 (by decide)
    obtain ⟨b, hb⟩ := hbefore 1 (by decide)
    obtain ⟨c, hc⟩ := hbefore 2 (by decide)
    rw [ha, hb, hc, h]
    rfl

theorem openTracks_ok {tr : Quad Track} (h : ∀ i : Fin 4, s.openTrack k d i = .ok (tr.get i)) : s.openTracks k d = .ok tr := by
  unfold State.openTracks
  rw [h 0, h 1, h 2, h 3]
  rfl

theorem delayTooLate_iff (hk : kindsMatch kinds k) :
    s.delayTooLate k d = true ↔ ∃ i : Fin 4, 0 < d.get i ∧ ((s.storedPlan (i.val * 4 + kinds.get i)).start + d.get i) * 60 ≤ s.clock.secs := by
  have each (i : Fin 4) : s.storedFor i (k.get i) = s.storedPlan (i.val * 4 + kinds.get i) := by
    rw [State.storedFor, planIndex, (hk i).2]
  have hall (i : Fin 4) : i ∈ fours := by
    obtain ⟨a, b, hab, -⟩ := fours_split i
    rw [hab]
    simp
  simp only [State.delayTooLate, List.any_eq_true, Bool.and_eq_true, decide_eq_true_iff, reached, each]
  exact ⟨fun ⟨i, _, h⟩ => ⟨i, h⟩, fun ⟨i, h⟩ => ⟨i, hall i, h⟩⟩

end

/-! ## The request -/

/-- The operands of DAY OPEN: the kinds, the delays, and the date of the Clock (R21). -/
def openArgs (s : State) (date : RawDate) (kinds d : Quad Nat) : Prop :=
  (∀ i : Fin 4, kinds.get i ≤ 3 ∧ d.get i ≤ 240) ∧ (⟨date.day, date.month, date.year + 2000⟩ : Date) = s.clock.date ∧
    s.clock.date.valid = true

/-- What DAY OPEN does with the tracks built, or with the first deficit. -/
def State.openWith (s : State) (day : Date) : Except (Nat × Nat) (Quad Track) → Answered
  | .error x => (s, ⟨.shortfall, b1 x.1 ++ b2 x.2⟩)
  | .ok tracks => (s.acceptOpen day tracks, Reply.just .accepted)

theorem Quad.any_toList {d : Quad Nat} : d.toList.any (fun x => decide (240 < x)) = true ↔ ∃ i : Fin 4, 240 < d.get i := by
  simp only [Quad.toList, List.any_cons, List.any_nil, Bool.or_eq_true, decide_eq_true_iff]
  constructor
  · rintro (h | h | h | h | h)
    · exact ⟨0, h⟩
    · exact ⟨1, h⟩
    · exact ⟨2, h⟩
    · exact ⟨3, h⟩
    · cases h
  · rintro ⟨i, h⟩
    match i with
    | 0 => exact .inl h
    | 1 => exact .inr (.inl h)
    | 2 => exact .inr (.inr (.inl h))
    | 3 => exact .inr (.inr (.inr (.inl h)))

section
variable {s : State} {date : RawDate} {kinds : Quad Nat} {delays : Option (Quad Nat)}

theorem reqDayOpen_noclock (h : s.clock.isSet = false) : reqDayOpen date kinds delays s = s.refuse .noclock := by
  unfold reqDayOpen
  simp [h]

/-- A date of the Clock's that is valid lies within its three bytes. -/
theorem rawDate?_of_clock (hd : (⟨date.day, date.month, date.year + 2000⟩ : Date) = s.clock.date) (hv : s.clock.date.valid = true) :
    rawDate? date = some s.clock.date := by
  have hyear : date.year ≤ 99 := by
    have hy : s.clock.date.year ≤ 2099 := by
      simp only [Date.valid, Bool.and_eq_true, decide_eq_true_iff] at hv
      omega
    have : date.year + 2000 = s.clock.date.year := congrArg Date.year hd
    omega
  rw [rawDate?_eq, if_pos ⟨hyear, hd ▸ hv⟩, hd]

theorem reqDayOpen_badArg (h : s.clock.isSet = true) (ha : ¬ openArgs s date kinds (delaysOf delays)) :
    reqDayOpen date kinds delays s = s.refuse .badArg := by
  unfold reqDayOpen
  rw [if_neg (by simp [h])]
  split
  · rename_i k day hk hday
    refine if_pos ?_
    rw [Bool.or_eq_true, Quad.any_toList]
    by_contra hno
    simp only [not_or, not_exists, Nat.not_lt, bne_iff_ne, ne_eq, not_not] at hno
    obtain ⟨hd, rfl⟩ := hno
    rw [rawDate?_eq] at hday
    split at hday
    · rename_i hv
      have hdate := Option.some.inj hday
      exact ha ⟨fun i => ⟨le_of_dayKinds? hk i, hd i⟩, hdate, hdate ▸ hv.2⟩
    · cases hday
  · rfl

/-- With its operands in order, DAY OPEN is refused by the day state, a settings save, and a delay that is too late, in turn. -/
theorem reqDayOpen_args (h : s.clock.isSet = true) (ha : openArgs s date kinds (delaysOf delays)) :
    ∃ k : Quad DayKind, kindsMatch kinds k ∧ reqDayOpen date kinds delays s =
      if s.plan.dayState ≠ .closed then s.refuse .state
      else if s.saving = true then s.refuse .busy
      else if s.delayTooLate k (delaysOf delays) = true then s.refuse .state
      else s.openWith s.clock.date (s.openTracks k (delaysOf delays)) := by
  obtain ⟨hargs, hd, hv⟩ := ha
  obtain ⟨k, hk, hmatch⟩ := dayKinds?_of_le fun i => (hargs i).1
  have hno : ¬ ((delaysOf delays).toList.any (fun x => decide (240 < x)) || s.clock.date != s.clock.date) = true := by
    rw [Bool.or_eq_true, Quad.any_toList]
    rintro (⟨i, hi⟩ | hne)
    · exact absurd (hargs i).2 (Nat.not_le.mpr hi)
    · simp at hne
  refine ⟨k, hmatch, ?_⟩
  unfold reqDayOpen
  rw [if_neg (by simp [h]), hk, rawDate?_of_clock hd hv]
  dsimp only
  rw [if_neg hno]
  cases s.openTracks k (delaysOf delays) <;> rfl

theorem saving_iff (s : State) : s.saving = true ↔ ∃ (ph : SavePhase) (n : Nat), s.store.job = .save ph n := by
  unfold State.saving
  split
  · rename_i ph n hj
    exact ⟨fun _ => ⟨ph, n, hj⟩, fun _ => rfl⟩
  · rename_i hno
    exact ⟨fun h => absurd h (by simp), fun ⟨ph, n, hj⟩ => absurd hj (hno ph n)⟩

/-- A delay of DAY OPEN brings a track's start to now or before. -/
def openLate (s : State) (kinds d : Quad Nat) : Prop :=
  ∃ i : Fin 4, 0 < d.get i ∧ ((s.storedPlan (i.val * 4 + kinds.get i)).start + d.get i) * 60 ≤ s.clock.secs

variable (h : s.clock.isSet = true) (ha : openArgs s date kinds (delaysOf delays))
include h ha

theorem reqDayOpen_state (ho : s.plan.dayState ≠ .closed) : reqDayOpen date kinds delays s = s.refuse .state := by
  obtain ⟨k, -, e⟩ := reqDayOpen_args h ha
  rw [e, if_pos ho]

variable (hc : s.plan.dayState = .closed)
include hc

theorem reqDayOpen_busy (hs : s.saving = true) : reqDayOpen date kinds delays s = s.refuse .busy := by
  obtain ⟨k, -, e⟩ := reqDayOpen_args h ha
  rw [e, if_neg (not_not.mpr hc), if_pos hs]

theorem reqDayOpen_late (hs : ¬ s.saving = true) (hl : openLate s kinds (delaysOf delays)) :
    reqDayOpen date kinds delays s = s.refuse .state := by
  obtain ⟨k, hk, e⟩ := reqDayOpen_args h ha
  rw [e, if_neg (not_not.mpr hc), if_neg hs, if_pos ((delayTooLate_iff hk).mpr hl)]

theorem reqDayOpen_tracks (hs : ¬ s.saving = true) (hl : ¬ openLate s kinds (delaysOf delays)) :
    ∃ k : Quad DayKind, kindsMatch kinds k ∧
      reqDayOpen date kinds delays s = s.openWith s.clock.date (s.openTracks k (delaysOf delays)) := by
  obtain ⟨k, hk, e⟩ := reqDayOpen_args h ha
  exact ⟨k, hk, by rw [e, if_neg (not_not.mpr hc), if_neg hs, if_neg fun hlate => hl ((delayTooLate_iff hk).mp hlate)]⟩

end

/-- The refusals of DAY OPEN (R21). -/
theorem dayOpen_refused (s : State) (tag : Nat) (date : RawDate) (kinds : Quad Nat) (delays : Option (Quad Nat)) (h : s.ready) :
    let c : Instr := .dayOpen tag date kinds delays
    let d : Quad Nat := delays.getD ⟨0, 0, 0, 0⟩
    let argsOk := openArgs s date kinds d
    let saving := ∃ (ph : SavePhase) (n : Nat), s.store.job = .save ph n
    let late := openLate s kinds d
    (s.clock.isSet = false → Refuses c s 0x11 tag .noclock) ∧
      (s.clock.isSet = true → ¬ argsOk → Refuses c s 0x11 tag .badArg) ∧
      (s.clock.isSet = true → argsOk → s.plan.dayState ≠ .closed → Refuses c s 0x11 tag .state) ∧
      (s.clock.isSet = true → argsOk → s.plan.dayState = .closed → saving → Refuses c s 0x11 tag .busy) ∧
      (s.clock.isSet = true → argsOk → s.plan.dayState = .closed → ¬ saving → late → Refuses c s 0x11 tag .state) ∧
      (∀ (i : Fin 4) (x : Nat), s.clock.isSet = true → argsOk → s.plan.dayState = .closed → ¬ saving → ¬ late →
        (∀ j : Fin 4, j.val < i.val → ∃ y : Track,
          buildTrack (s.storedPlan (j.val * 4 + kinds.get j)) (DayKind.ofCode (kinds.get j)) (d.get j) 0 s.clock.secs = .ok y) →
        buildTrack (s.storedPlan (i.val * 4 + kinds.get i)) (DayKind.ofCode (kinds.get i)) (d.get i) 0 s.clock.secs = .error x →
        Answers c s 0x11 tag id .shortfall (b1 i.val ++ b2 x)) := by
  intro c d argsOk saving late
  have answers {code : Code} {body : List Byte} (e : reqDayOpen date kinds delays (s.inHand 0x11 tag) = (s.inHand 0x11 tag, ⟨code, body⟩)) :
      Answers c s 0x11 tag id code body := answers_of_handle h rfl rfl (by decide) (congrArg answered e) rfl
  have notSaving (hs : ¬ saving) : ¬ (s.inHand 0x11 tag).saving = true := fun e => hs ((saving_iff _).mp e)
  refine ⟨fun hset => answers (reqDayOpen_noclock hset), fun hset ha => answers (reqDayOpen_badArg hset ha),
    fun hset ha hopen => answers (reqDayOpen_state hset ha hopen),
    fun hset ha hclosed hs => answers (reqDayOpen_busy hset ha hclosed ((saving_iff _).mpr hs)),
    fun hset ha hclosed hs hl => answers (reqDayOpen_late hset ha hclosed (notSaving hs) hl),
    fun i x hset ha hclosed hs hl hbefore hx => ?_⟩
  obtain ⟨k, hk, e⟩ := reqDayOpen_tracks (s := s.inHand 0x11 tag) hset ha hclosed (notSaving hs) hl
  have error := openTracks_error (s := s.inHand 0x11 tag) (k := k) (d := delaysOf delays) i
    (fun j hj => (hbefore j hj).imp fun y hy => (openTrack_eq hk j).trans hy) ((openTrack_eq hk i).trans hx)
  rw [error] at e
  exact answers e

end Sys2Proof.Machine
end

