-- ==== Sys2Proof/Proofs/DayAdvances.lean ====
section
/-! SUPPORT. The advance list at the opening of a day (R127), over a register just cleared. -/

namespace Sys2Proof.Machine

/-! ## Records at the opening of a day -/

/-- The record that a parent's report leaves at the opening of a day. -/
def Rec.byParent : Rec := { Rec.cleared with mark := .r, source := some .parent }

/-- The register of a day that opens: a canonical table of cleared records and of records marked R by PARENT, and no tally. -/
structure FreshRecords (s : State) : Prop where
  wf : Tab.wf clearedAt s.reg.recs = true
  tallies : s.reg.tallies = []
  each : ∀ (p : Nat) (ss : Session), s.record p ss = Rec.cleared ∨ s.record p ss = Rec.byParent

theorem parentAbsent_fresh {s : State} (h : FreshRecords s) (p : Nat) (ss : Session) :
    (s.parentAbsent p ss).1 = s.putRec p ss Rec.byParent := by
  rcases h.each p ss with e | e
  · have absent := s.applyMark_absent (p := p) (ss := ss) (w := ⟨.r, 0, .parent, none, none⟩) (by simp [e, Rec.cleared])
      (by simp [e, Rec.cleared, Mark.late]) rfl
    have hw : (s.record p ss).write ⟨.r, 0, .parent, none, none⟩ = Rec.byParent := by
      rw [e]
      rfl
    have htally : ∀ t : State, t.reg.tallies = [] → t.putTally p (s.tally p) = t := by
      intro t ht
      have hzero : s.tally p = Tally.zero := by
        rw [State.tally, h.tallies]
        rfl
      rw [hzero]
      have hput : Tab.put zeroTally t.reg.tallies p Tally.zero = t.reg.tallies := by
        rw [ht]
        rfl
      show { t with reg.tallies := Tab.put zeroTally t.reg.tallies p Tally.zero } = t
      rw [hput]
    unfold State.parentAbsent
    rw [e]
    refine (congrArg Prod.fst (if_neg (by simp [Rec.cleared]))).trans ?_
    refine Eq.trans absent ?_
    rw [hw]
    exact htally _ h.tallies
  · have hsame : s.putRec p ss Rec.byParent = s := by
      rw [← e]
      show { s with reg.recs := Tab.put clearedAt s.reg.recs (recKey p ss) (Tab.get clearedAt s.reg.recs (recKey p ss)) } = s
      rw [Tab.put_get h.wf]
    rw [hsame]
    unfold State.parentAbsent
    rw [e]
    rfl

theorem FreshRecords.put {s : State} (h : FreshRecords s) (p : Nat) (ss : Session) :
    FreshRecords (s.putRec p ss Rec.byParent) ∧
      ∀ (q : Nat) (st : Session), (s.putRec p ss Rec.byParent).record q st = if (q, st) = (p, ss) then Rec.byParent else s.record q st := by
  have record (q : Nat) (st : Session) : (s.putRec p ss Rec.byParent).record q st =
      if (q, st) = (p, ss) then Rec.byParent else s.record q st := by
    split
    · rename_i e
      cases e
      exact State.record_putRec_of_wf h.wf _
    · exact s.record_putRec_other _ ‹_›
  refine ⟨⟨Tab.wf_put h.wf (recKey p ss) Rec.byParent, h.tallies, fun q st => ?_⟩, record⟩
  rw [record]
  split
  · exact .inr rfl
  · exact h.each q st

/-! ## The list (R127) -/

/-- A counter after `k` more, held at its greatest value. -/
def bump (n k : Nat) : Nat := if k = 0 then n else min (n + k) 4294967295

theorem bump_bump (n j k : Nat) : bump (bump n j) k = bump n (j + k) := by
  unfold bump
  split <;> split <;> split <;> omega

/-- The report names the pupil's session of the day, and the Register takes it. -/
def State.reports (s : State) (day : Date) (a : Advance) (p : Nat) (ss : Session) : Prop :=
  a.date = day ∧ a.pupil = p ∧ (s.pupil p).inUse = true ∧ a.sessions.names ss = true ∧ (ss = .am ∨ s.trackHasPm (s.trackOf p) = true)

/-- The reports of a list have been dealt with. -/
structure Advanced (day : Date) (l : List Advance) (s t : State) : Prop where
  rest : t = { s with reg.recs := t.reg.recs, recon.advCnt := t.recon.advCnt }
  fresh : FreshRecords t
  record : ∀ (p : Nat) (ss : Session), t.record p ss = Rec.byParent ↔ (s.record p ss = Rec.byParent ∨ ∃ a ∈ l, s.reports day a p ss)
  counts : t.recon.advCnt = { s.recon.advCnt with
    expired := bump s.recon.advCnt.expired (l.filter fun a => decide (a.date.number < day.number)).length
    applied := bump s.recon.advCnt.applied (l.filter fun a => decide (a.date = day) && (s.pupil a.pupil).inUse).length
    unmatched := bump s.recon.advCnt.unmatched (l.filter fun a => decide (a.date = day) && !(s.pupil a.pupil).inUse).length }

section
variable {day : Date} {s t u : State} {a : Advance} {l m : List Advance}

theorem Advanced.nil (h : FreshRecords s) : Advanced day [] s s := ⟨rfl, h, fun _ _ => by simp, rfl⟩

theorem Advanced.pupil (h : Advanced day l s t) (p : Nat) : t.pupil p = s.pupil p := by rw [h.rest]; rfl

theorem Advanced.reports (h : Advanced day l s t) (a : Advance) (p : Nat) (ss : Session) : t.reports day a p ss ↔ s.reports day a p ss := by
  rw [h.rest]
  rfl

theorem Advanced.append (h : Advanced day l s t) (k : Advanced day m t u) : Advanced day (l ++ m) s u where
  rest := k.rest.trans (congrArg (fun x : State => { x with reg.recs := u.reg.recs, recon.advCnt := u.recon.advCnt }) h.rest)
  fresh := k.fresh
  record p ss := by
    rw [k.record, h.record]
    simp only [h.reports, List.mem_append, or_and_right, exists_or, or_assoc]
  counts := by
    rw [k.counts, h.counts]
    simp only [h.pupil, List.filter_append, List.length_append, bump_bump]

/-- A session that the report names, or not, is handed to the Register. -/
theorem applyAdvanceTo_fresh (h : FreshRecords s) (hd : a.date = day) (hu : (s.pupil a.pupil).inUse = true) (ss : Session) :
    s.applyAdvanceTo a ss = { s with reg.recs := (s.applyAdvanceTo a ss).reg.recs } ∧ FreshRecords (s.applyAdvanceTo a ss) ∧
      ∀ (p : Nat) (st : Session), (s.applyAdvanceTo a ss).record p st = Rec.byParent ↔
        (s.record p st = Rec.byParent ∨ (st = ss ∧ s.reports day a p st)) := by
  have hcond : (a.sessions.names ss && (ss == .am || s.trackHasPm (s.trackOf a.pupil))) = true ↔ s.reports day a a.pupil ss := by
    simp [State.reports, hd, hu]
  unfold State.applyAdvanceTo
  split
  · rename_i hc
    obtain ⟨fresh, record⟩ := h.put a.pupil ss
    rw [parentAbsent_fresh h]
    refine ⟨rfl, fresh, fun p st => ?_⟩
    rw [record]
    split
    · rename_i e
      cases e
      simp [hcond.mp hc]
    · rename_i e
      refine ⟨.inl, fun hr => hr.resolve_right fun hr => e ?_⟩
      rw [hr.1, ← hr.2.2.1]
  · rename_i hc
    refine ⟨rfl, h, fun p st => ⟨.inl, fun hr => hr.resolve_right fun hr => hc ?_⟩⟩
    obtain ⟨rfl, hrep⟩ := hr
    have hp := hrep.2.1
    exact hcond.mpr (hp ▸ hrep)

/-- A report that no session takes. -/
theorem Advanced.of_none (h : FreshRecords s) (hno : a.date = day → (s.pupil a.pupil).inUse = false) (ht : t = { s with
      recon.advCnt := { s.recon.advCnt with
        expired := bump s.recon.advCnt.expired ([a].filter fun a => decide (a.date.number < day.number)).length
        unmatched := bump s.recon.advCnt.unmatched
          ([a].filter fun a => decide (a.date = day) && !(s.pupil a.pupil).inUse).length } }) : Advanced day [a] s t := by
  subst ht
  refine ⟨rfl, ⟨h.wf, h.tallies, h.each⟩, fun p ss => ⟨.inl, fun hr => hr.resolve_right ?_⟩, ?_⟩
  · rintro ⟨b, hb, hd, hp, hu, -⟩
    cases List.mem_singleton.mp hb
    rw [← hp, hno hd] at hu
    cases hu
  · have hnone : [a].filter (fun a => decide (a.date = day) && (s.pupil a.pupil).inUse) = [] := by
      by_cases hd : a.date = day
      · simp [hno hd]
      · simp [hd]
    rw [hnone]
    rfl

theorem applyAdvance_advanced (h : FreshRecords s) (a : Advance) : Advanced day [a] s (applyAdvance day s a) := by
  unfold applyAdvance
  split
  · rename_i hlt
    have hne : a.date ≠ day := fun e => by rw [e] at hlt; omega
    refine .of_none h (fun e => absurd e hne) ?_
    simp [hlt, hne, bump, inc32, add32, Config.counterMax]
  · rename_i hlt
    split
    · rename_i hne
      refine .of_none h (fun e => absurd e hne) ?_
      simp [hlt, hne, bump]
    · rename_i hd
      have hd : a.date = day := not_not.mp hd
      split
      · rename_i hu
        obtain ⟨rest, fresh, record⟩ := applyAdvanceTo_fresh h hd hu .am
        have hu' : ((s.applyAdvanceTo a .am).pupil a.pupil).inUse = true := by
          rw [rest]
          exact hu
        obtain ⟨rest', fresh', record'⟩ := applyAdvanceTo_fresh fresh hd hu' .pm
        have reports (p : Nat) : (s.applyAdvanceTo a .am).reports day a p .pm ↔ s.reports day a p .pm := by
          rw [rest]
          rfl
        generalize s.applyAdvanceTo a .am = x at rest record rest' record' reports fresh'
        have hall := rest'.trans (congrArg (fun y : State => { y with reg.recs := (x.applyAdvanceTo a .pm).reg.recs }) rest)
        generalize x.applyAdvanceTo a .pm = y at record' hall fresh'
        have hcnt : y.recon.advCnt = s.recon.advCnt := by rw [hall]
        refine ⟨?_, ⟨fresh'.wf, fresh'.tallies, fresh'.each⟩, fun p st => ?_, ?_⟩
        · exact congrArg (fun z : State => { z with
            recon.advCnt := { y.recon.advCnt with applied := inc32 y.recon.advCnt.applied } }) hall
        · refine (record' p st).trans ?_
          rw [record]
          simp only [List.mem_singleton, exists_eq_left]
          cases st with
          | am => simp
          | pm => simp [reports]
        · simp [hcnt, hd, hu, bump, inc32, add32, Config.counterMax]
      · rename_i hu
        refine .of_none h (fun _ => by simpa using hu) ?_
        simp [hd, hu, bump, inc32, add32, Config.counterMax]

theorem applyAdvances_foldl (h : FreshRecords s) (l : List Advance) : Advanced day l s (l.foldl (applyAdvance day) s) := by
  induction l generalizing s with
  | nil => exact .nil h
  | cons a l ih =>
    have first := applyAdvance_advanced (day := day) h a
    exact first.append (ih first.fresh)

end

end Sys2Proof.Machine
end

