-- ==== Sys2Proof/Proofs/DayOpening.lean ====
section
/-! SUPPORT. The opening work of a day (R22, R97, R99, R112, R114): the cleared register, and the sessions that open and close with it. -/

namespace Sys2Proof.Machine

/-! ## The cleared register (R97, R99, R114) -/

theorem setGroupStatuses {ss : Session} {v : GroupStatus} (hv : v ≠ .awaited) (l : List Nat) (s : State) :
    l.foldl (fun t g => t.setGroupStatus g ss v) s =
        { s with reg.status := (l.foldl (fun t g => t.setGroupStatus g ss v) s).reg.status } ∧
      ∀ (g : Nat) (st : Session), (l.foldl (fun t g => t.setGroupStatus g ss v) s).groupStatus g st =
        if g ∈ l ∧ st = ss then v else s.groupStatus g st := by
  induction l generalizing s with
  | nil => exact ⟨rfl, fun g st => by simp⟩
  | cons h l ih =>
    obtain ⟨rest, status⟩ := ih (s.setGroupStatus h ss v)
    refine ⟨rest, fun g st => ?_⟩
    rw [List.foldl_cons, status, s.groupStatus_setGroupStatus h g ss st hv]
    by_cases hgh : g = h
    · by_cases hst : st = ss <;> simp [hgh, hst]
    · simp [hgh]

/-- A register just cleared, every session BEFORE. -/
structure Cleared (s t : State) : Prop where
  rest : t = { s with reg := t.reg }
  recs : t.reg.recs = []
  sess : t.reg.sess = Quad.all ⟨some .before, some .before⟩
  tallies : t.reg.tallies = []
  status : ∀ g : Nat, g < 120 → t.groupStatus g .am = .awaited ∧
    t.groupStatus g .pm = if s.trackHasPm (s.group g).track = true then .awaited else .notHeld
  notSubmitted : ∀ (g : Nat) (ss : Session), t.groupStatus g ss ≠ .submitted

theorem State.clearRegister_cleared (s : State) : Cleared s s.clearRegister := by
  obtain ⟨rest, status⟩ := setGroupStatuses (ss := .pm) (v := .notHeld) (by simp)
    ((List.range Config.groups).filter fun g => !s.trackHasPm (s.group g).track)
    { s with reg := ⟨[], Quad.all ⟨some .before, some .before⟩, [], []⟩ }
  have awaited (g : Nat) (ss : Session) :
      State.groupStatus { s with reg := ⟨[], Quad.all ⟨some .before, some .before⟩, [], []⟩ } g ss = .awaited := rfl
  simp only [awaited] at status
  have hclear : s.clearRegister = ((List.range Config.groups).filter fun g => !s.trackHasPm (s.group g).track).foldl
      (fun t g => t.setGroupStatus g .pm .notHeld) { s with reg := ⟨[], Quad.all ⟨some .before, some .before⟩, [], []⟩ } := rfl
  rw [hclear]
  generalize List.foldl _ _ _ = t at rest status
  refine ⟨rest.trans ?_, by rw [rest], by rw [rest], by rw [rest], fun g hg => ⟨?_, ?_⟩, fun g ss => ?_⟩
  · rw [rest]
  · rw [status]
    simp
  · rw [status]
    by_cases hpm : s.trackHasPm (s.group g).track = true
    · simp [hpm]
    · simp [hpm, hg, Config.groups]
  · rw [status]
    split <;> simp

/-! ## The sessions of a day that opens (R99, R112) -/

/-- No register has been submitted. -/
def State.noneSubmitted (s : State) : Prop := ∀ (g : Nat) (ss : Session), s.groupStatus g ss ≠ .submitted

/-- The sessions, the statuses and the conditions alone change, as long as no register has been submitted. -/
structure Plain (a b : State) : Prop where
  rest : a.noneSubmitted → b = { a with reg.sess := b.reg.sess, reg.status := b.reg.status, link := b.link }
  none : a.noneSubmitted → b.noneSubmitted

namespace Plain
variable {a s t : State}

theorem refl (s : State) : Plain s s := ⟨fun _ => rfl, id⟩

theorem trans (h : Plain a s) (k : Plain s t) : Plain a t :=
  ⟨fun hn => (k.rest (h.none hn)).trans
      (congrArg (fun x : State => { x with reg.sess := t.reg.sess, reg.status := t.reg.status, link := t.link }) (h.rest hn)),
    fun hn => k.none (h.none hn)⟩

theorem foldl {α β : Type} {f : α → β → α} (v : α → State) (hf : ∀ (x : α) (y : β), Plain (v x) (v (f x y))) (x : α) (l : List β) :
    Plain (v x) (v (l.foldl f x)) := by
  induction l generalizing x with
  | nil => exact refl _
  | cons y l ih => exact (hf x y).trans (ih _)

theorem setSession (s : State) (i : Fin 4) (ss : Session) (v : Option SessState) : Plain s (s.setSession i ss v) := ⟨fun _ => rfl, id⟩

theorem setGroupStatus (s : State) (g : Nat) (ss : Session) {v : GroupStatus} (hv : v ≠ .awaited) (hn : v ≠ .submitted) :
    Plain s (s.setGroupStatus g ss v) := by
  refine ⟨fun _ => rfl, fun h g' st => ?_⟩
  rw [s.groupStatus_setGroupStatus g g' ss st hv]
  split
  · exact hn
  · exact h g' st

theorem raise (s : State) (c : Condition) : Plain s (s.raise c) := ⟨fun _ => rfl, id⟩

theorem closeGroup (ss : Session) (start : Nat) (closing : Bool) (x : State × Bool) (g : Nat) :
    Plain x.1 (State.closeGroup ss start closing x g).1 := by
  rcases closeGroup_cases ss start closing x g with ⟨-, hs, -⟩ | ⟨-, e⟩ | ⟨-, e⟩ | ⟨-, -, -, e⟩
  · exact ⟨fun h => absurd hs (h g ss), fun h => absurd hs (h g ss)⟩
  · rw [e]
    exact setGroupStatus _ _ _ (by simp) (by simp)
  · rw [e]
    exact setGroupStatus _ _ _ (by simp) (by simp)
  · rw [e]
    exact refl _

theorem closeSession (s : State) (i : Fin 4) (ss : Session) (start : Nat) (closing : Bool) : Plain s (s.closeSession i ss start closing) := by
  have groups := (setSession s i ss (some .closed)).trans
    (foldl Prod.fst (closeGroup ss start closing) (s.setSession i ss (some .closed), false) (s.groupsOf i))
  rw [s.closeSession_cases]
  split
  · exact groups.trans (raise _ _)
  · exact groups

theorem openSessionAt (s : State) (i : Fin 4) (ss : Session) : Plain s (s.openSessionAt i ss) := by
  rcases s.openSessionAt_cases i ss with ⟨-, e⟩ | ⟨-, e⟩ <;> rw [e]
  · exact setSession s i ss _
  · exact refl s

theorem closeSessionAt (s : State) (i : Fin 4) (ss : Session) : Plain s (s.closeSessionAt i ss) := by
  unfold State.closeSessionAt
  split
  · split
    · split
      · exact closeSession s i ss _ _
      · exact refl s
    · exact refl s
  · exact refl s

theorem followSessions (s : State) (i : Fin 4) : Plain s (s.followSessions i) :=
  (((openSessionAt s i .am).trans (openSessionAt _ i .pm)).trans (closeSessionAt _ i .am)).trans (closeSessionAt _ i .pm)

end Plain

/-- The sessions of every track follow the time. -/
def State.followAllSessions (s : State) : State := fours.foldl State.followSessions s

theorem State.followAllSessions_plain (s : State) : Plain s s.followAllSessions := .foldl id (fun s i => .followSessions s i) s fours

theorem State.followAllSessions_follows (s : State) : Follows (fun _ _ => True) s s.followAllSessions :=
  (Follows.foldl id (fun s i _ => s.followSessions_follows i) fours).mono fun _ _ _ => trivial

theorem State.followAllSessions_at {s : State} (hd : s.dayOver = false) (i : Fin 4) (ss : Session) :
    SessionFollowed i ss ((s.track i).state == .ended) s s.followAllSessions := by
  obtain ⟨a, b, hab, ha, hb⟩ := fours_split i
  have rest (s : State) {l : List (Fin 4)} (hl : i ∉ l) : Beside i ss s (l.foldl State.followSessions s) :=
    .foldl (fun s j hj => .followSessions (j := j) (fun e => hl (by rwa [← e])) s) s
  have first := rest s ha
  have own := State.followSessions_followed i ss (first.follows.dayOver.trans hd)
  rw [first.track] at own
  have follows := State.followSessions_follows i (a.foldl State.followSessions s)
  rw [State.followAllSessions, hab, List.foldl_append, List.foldl_cons]
  exact .before first (own.after follows.set follows.wf (rest _ hb))

end Sys2Proof.Machine
end

