-- ==== Sys2Proof/Proofs/DayOpen.lean ====
section
/-! CLAIM. DAY OPEN is refused in order, or builds the day, its register and its lists, and the pages its rebuild reads (R21, R22, R118, R127,
R180, R189). -/

namespace Sys2Proof.Machine

/-! ## The day opened (R22) -/

section
variable (secs : Nat) (tr : Quad Track)

/-- The session's close time is reached. -/
def openCloses (i : Fin 4) (ss : Session) : Prop :=
  ∃ (q : PlanIF) (m : Nat), (tr.get i).plan = some q ∧ sessionClose q (tr.get i).delay ss = some m ∧ m * 60 ≤ secs

/-- The session's point has begun. -/
def openBegun (i : Fin 4) (ss : Session) : Prop :=
  ∃ (q : PlanIF) (g : SegIF), (tr.get i).plan = some q ∧ g ∈ q.segs ∧ g.seg.point = some ss ∧ g.begun = true

/-- The track has a PM point. -/
def openPm (i : Fin 4) : Prop := ∃ q : PlanIF, (tr.get i).plan = some q ∧ hasPm q = true

end

/-- The state with the day's plan, before its register is cleared. -/
def State.planned (s : State) (day : Date) (tr : Quad Track) : State :=
  { s with
    plan := ⟨.opening, some day, tr, false⟩
    slips.next := 1 }

/-- The state with the register cleared and the reports of the day applied. -/
def State.registered (s : State) (day : Date) (tr : Quad Track) : State :=
  (((s.planned day tr).clearRegister).clearConflicts).applyAdvances day

section
variable (s : State) (day : Date) (tr : Quad Track)

theorem openDay_eq : s.openDay day tr =
    ((s.registered day tr).followAllSessions.clearDeskStats.clearPoolStats.clearGwStats).rebuildBells := rfl

theorem hasPm_of_close {q : PlanIF} {d m : Nat} (h : sessionClose q d .pm = some m) : hasPm q = true := by
  have found (t : Nat) (l : List SegIF) {k : Nat} (hk : pointIn .pm t l = some k) : l.any (fun g => g.seg.point == some .pm) = true := by
    induction l generalizing t with
    | nil => simp [pointIn] at hk
    | cons g l ih =>
      rw [pointIn] at hk
      split at hk
      · simp [*]
      · simp [ih _ hk]
  obtain ⟨k, hk, -⟩ := Option.map_eq_some_iff.mp h
  exact found _ _ hk

theorem trackHasPm_planned (i : Fin 4) : (s.planned day tr).trackHasPm i = true ↔ openPm tr i := by
  unfold State.trackHasPm openPm
  show (match (tr.get i).plan with | some p => hasPm p | none => false) = true ↔ _
  cases (tr.get i).plan <;> simp

end

/-- The register and the reconciliation lists of a day that opens, before its sessions follow the time. -/
structure Registered (s : State) (day : Date) (tr : Quad Track) (r : State) : Prop where
  rest : r = { s.planned day tr with reg := r.reg, recon := r.recon }
  recon : r.recon = { s.recon with
    conflicts := []
    nextId := 1
    conflictCnt := ⟨0, 0, 0, 0, 0⟩
    advance := s.recon.advance.filter fun a => decide (day.number < a.date.number)
    advCnt := { s.recon.advCnt with
      expired := bump s.recon.advCnt.expired (s.recon.advance.filter fun a => decide (a.date.number < day.number)).length
      applied := bump s.recon.advCnt.applied (s.recon.advance.filter fun a => decide (a.date = day) && (s.pupil a.pupil).inUse).length
      unmatched := bump s.recon.advCnt.unmatched
        (s.recon.advance.filter fun a => decide (a.date = day) && !(s.pupil a.pupil).inUse).length } }
  fresh : FreshRecords r
  record : ∀ (p : Nat) (ss : Session), r.record p ss = Rec.byParent ↔ ∃ a ∈ s.recon.advance, (s.planned day tr).reports day a p ss
  sess : r.reg.sess = Quad.all ⟨some .before, some .before⟩
  status : ∀ g : Nat, g < 120 → r.groupStatus g .am = .awaited ∧ (openPm tr (s.group g).track → r.groupStatus g .pm = .awaited) ∧
    (¬ openPm tr (s.group g).track → r.groupStatus g .pm = .notHeld)
  notSubmitted : r.noneSubmitted

theorem State.eq_of_reg_recon {a b : State} {r : Register} {c : Recon} (h : a = { b with reg := r, recon := c }) :
    a = { b with reg := a.reg, recon := a.recon } := by
  subst h
  rfl

theorem State.registered_spec (s : State) (day : Date) (tr : Quad Track) : Registered s day tr (s.registered day tr) := by
  have cleared := (s.planned day tr).clearRegister_cleared
  unfold State.registered
  generalize (s.planned day tr).clearRegister = c at cleared
  have hrecord (p : Nat) (ss : Session) : c.clearConflicts.record p ss = Rec.cleared := by
    show Tab.get clearedAt c.reg.recs (recKey p ss) = Rec.cleared
    rw [cleared.recs]
    rfl
  have fresh : FreshRecords c.clearConflicts := by
    refine ⟨?_, cleared.tallies, fun p ss => .inl (hrecord p ss)⟩
    show Tab.wf clearedAt c.reg.recs = true
    rw [cleared.recs]
    rfl
  have hadv : c.clearConflicts.recon.advance = s.recon.advance := by
    show c.recon.advance = _
    rw [cleared.rest]
    rfl
  have advanced := applyAdvances_foldl (day := day) fresh c.clearConflicts.recon.advance
  unfold State.applyAdvances
  rw [hadv] at advanced ⊢
  generalize s.recon.advance.foldl (applyAdvance day) c.clearConflicts = y at advanced
  have hc : c.clearConflicts = { s.planned day tr with
      reg := c.reg
      recon := { s.recon with conflicts := [], nextId := 1, conflictCnt := ⟨0, 0, 0, 0, 0⟩ } } :=
    (congrArg State.clearConflicts cleared.rest).trans rfl
  have hy := advanced.rest.trans
    (congrArg (fun x : State => { x with reg.recs := y.reg.recs, recon.advCnt := y.recon.advCnt }) hc)
  have hreg : y.reg = { c.reg with recs := y.reg.recs } := congrArg State.reg hy
  have hrecon : y.recon = { s.recon with
      conflicts := [], nextId := 1, conflictCnt := ⟨0, 0, 0, 0, 0⟩, advCnt := y.recon.advCnt } := congrArg State.recon hy
  have hcounts := advanced.counts
  rw [hc] at hcounts
  have status (g : Nat) (ss : Session) : y.groupStatus g ss = c.groupStatus g ss :=
    State.groupStatus_congr (by rw [hreg]) g ss
  refine ⟨State.eq_of_reg_recon (congrArg
      (fun x : State => { x with recon.advance := s.recon.advance.filter fun a => decide (day.number < a.date.number) }) hy), ?_,
    ⟨advanced.fresh.wf, advanced.fresh.tallies, advanced.fresh.each⟩, fun p ss => ?_, ?_, fun g hg => ?_, fun g ss => ?_⟩
  · refine (congrArg (fun x : Recon => { x with advance := s.recon.advance.filter fun a => decide (day.number < a.date.number) })
      hrecon).trans ?_
    rw [hcounts]
    rfl
  · refine (advanced.record p ss).trans ?_
    rw [hrecord, hc]
    exact or_iff_right (by decide)
  · exact (congrArg Register.sess hreg).trans cleared.sess
  · obtain ⟨ham, hpm⟩ := cleared.status g hg
    refine ⟨(status g .am).trans ham, fun h => ?_, fun h => ?_⟩
    · exact (status g .pm).trans (hpm.trans (if_pos ((trackHasPm_planned s day tr _).mpr h)))
    · exact (status g .pm).trans (hpm.trans (if_neg fun e => h ((trackHasPm_planned s day tr _).mp e)))
  · exact fun e => cleared.notSubmitted g ss ((status g ss).symm.trans e)

theorem bells_of_plan {s t : State} (hc : t.clock = s.clock) (hs : t.set = s.set) (ht : t.plan.tracks = s.plan.tracks)
    (hb : t.bells = s.bells) : t.rebuildBells.bells = s.rebuildBells.bells := by
  have publication (z : Fin 4) : t.zonePublication z = s.zonePublication z := by
    unfold State.zonePublication State.published State.track
    rw [hs, ht]
  show t.bells.mapIdx (fun z => rebuildList t.clock.secs (t.zonePublication z)) =
    s.bells.mapIdx fun z => rebuildList s.clock.secs (s.zonePublication z)
  simp only [publication, hc, hb]

/-- The state of a day that opens, before its rebuild. -/
def State.dayOpened (s : State) (day : Date) (tr : Quad Track) : State :=
  { s.planned day tr with
    reg := { (s.registered day tr).reg with
      sess := (s.registered day tr).followAllSessions.reg.sess
      status := (s.registered day tr).followAllSessions.reg.status }
    recon := (s.registered day tr).recon
    link := (s.registered day tr).followAllSessions.link
    bells := (s.planned day tr).rebuildBells.bells
    desk.stats := DeskStats.cleared s.clock.stamp
    pool.stats := ⟨0, ⟨0, 0, 0, 0⟩, ⟨0, 0, 0, 0⟩, s.pool.segsInUse, s.clock.stamp⟩
    gw.stats := GwStats.zero }

/-- The statistics cleared and the bells rebuilt. -/
def State.freshCounts (s : State) : State := (s.clearDeskStats.clearPoolStats.clearGwStats).rebuildBells

theorem freshCounts_eq (p : State) (reg : Register) (recon : Recon) (link : HostLink) :
    State.freshCounts { p with reg := reg, recon := recon, link := link } =
      { p with
        reg := reg
        recon := recon
        link := link
        bells := p.rebuildBells.bells
        desk.stats := DeskStats.cleared p.clock.stamp
        pool.stats := ⟨0, ⟨0, 0, 0, 0⟩, ⟨0, 0, 0, 0⟩, p.pool.segsInUse, p.clock.stamp⟩
        gw.stats := GwStats.zero } := rfl

theorem State.openDay_dayOpened (s : State) (day : Date) (tr : Quad Track) : s.openDay day tr = s.dayOpened day tr := by
  have registered := s.registered_spec day tr
  have plain := (s.registered day tr).followAllSessions_plain.rest registered.notSubmitted
  have hf := plain.trans (congrArg (fun x : State => { x with
    reg.sess := (s.registered day tr).followAllSessions.reg.sess
    reg.status := (s.registered day tr).followAllSessions.reg.status
    link := (s.registered day tr).followAllSessions.link }) registered.rest)
  rw [openDay_eq]
  exact (congrArg State.freshCounts hf).trans (freshCounts_eq (s.planned day tr) _ _ _)

theorem Registered.dayOver {s r : State} {day : Date} {tr : Quad Track} (h : Registered s day tr r) (hd : day = s.clock.date) :
    r.dayOver = false := by
  rw [h.rest]
  exact State.dayOver_of_date (by rw [hd]; rfl)

theorem Quad.get_all {α : Type} (a : α) (i : Fin 4) : (Quad.all a).get i = a := by
  match i with
  | 0 => rfl
  | 1 => rfl
  | 2 => rfl
  | 3 => rfl

section
variable {s r : State} {day : Date} {tr : Quad Track} (h : Registered s day tr r)
include h

theorem Registered.track (i : Fin 4) : r.track i = tr.get i := by
  rw [h.rest]
  rfl

theorem Registered.set : r.set = s.set := by
  rw [h.rest]
  rfl

theorem Registered.session (i : Fin 4) (ss : Session) : r.session i ss = some .before := by
  rw [State.session, h.sess, Quad.get_all]
  cases ss <;> rfl

theorem Registered.shuts_iff (i : Fin 4) (ss : Session) : (∃ m : Nat, r.shuts i ss m) ↔ openCloses s.clock.secs tr i ss := by
  have hsecs : r.clock.secs = s.clock.secs := by
    rw [h.rest]
    rfl
  simp only [State.shuts, State.closeTime, h.track, h.session, hsecs, Option.bind_eq_some_iff, openCloses]
  constructor
  · rintro ⟨m, ⟨q, hq, hm⟩, hr, -⟩
    exact ⟨q, m, hq, hm, hr⟩
  · rintro ⟨q, m, hq, hm, hr⟩
    exact ⟨m, ⟨q, hq, hm⟩, hr, by simp, by simp⟩

theorem Registered.opens_iff (i : Fin 4) (ss : Session) : r.opens i ss ↔ openBegun tr i ss := by
  simp only [State.opens, h.track, h.session, true_and, pointBegun_iff, openBegun, exists_and_left]

variable (hd : day = s.clock.date)
include hd

theorem Registered.followed (i : Fin 4) (ss : Session) : SessionFollowed i ss ((r.track i).state == .ended) r r.followAllSessions :=
  State.followAllSessions_at (h.dayOver hd) i ss

/-- Each session is BEFORE, OPEN or CLOSED by its times (R99). -/
theorem Registered.session_followed (i : Fin 4) (ss : Session) :
    (openCloses s.clock.secs tr i ss → r.followAllSessions.session i ss = some .closed) ∧
      (¬ openCloses s.clock.secs tr i ss → openBegun tr i ss → r.followAllSessions.session i ss = some .opened) ∧
      (¬ openCloses s.clock.secs tr i ss → ¬ openBegun tr i ss → r.followAllSessions.session i ss = some .before) := by
  have followed := h.followed hd i ss
  rw [← h.shuts_iff, ← h.opens_iff]
  refine ⟨fun ⟨m, hm⟩ => followed.closed m hm, fun hn ho => (followed.kept (not_exists.mp hn)).1 ho, fun hn ho => ?_⟩
  exact ((followed.kept (not_exists.mp hn)).2 ho).trans (h.session i ss)

/-- Each group's status (R97, R112, R114). -/
theorem Registered.status_followed (g : Nat) (ss : Session) (hg : g < 120) :
    let i := (s.group g).track
    let f := r.followAllSessions
    (openCloses s.clock.secs tr i ss → s.members g = [] → f.groupStatus g ss = .empty) ∧
      (openCloses s.clock.secs tr i ss → s.members g ≠ [] →
        f.groupStatus g ss = .missing ∧ f.link.isSet .registerMissing = true) ∧
      (¬ openCloses s.clock.secs tr i ss → ss = .am ∨ openPm tr i → f.groupStatus g ss = .awaited) ∧
      (ss = .pm → ¬ openPm tr i → f.groupStatus g ss = .notHeld) := by
  intro i f
  have followed := h.followed hd i ss
  have ht : (r.group g).track = i := congrArg Group.track (State.group_congr h.set g)
  have hmembers : r.members g = s.members g := State.members_congr h.set g
  obtain ⟨ham, hpm, hno⟩ := h.status g hg
  have awaited (hp : ss = .am ∨ openPm tr i) : r.groupStatus g ss = .awaited := by
    cases ss with
    | am => exact ham
    | pm => exact hpm (hp.resolve_left (by simp))
  have point (hc : openCloses s.clock.secs tr i ss) : ss = .am ∨ openPm tr i := by
    obtain ⟨q, m, hq, hm, -⟩ := hc
    cases ss with
    | am => exact .inl rfl
    | pm => exact .inr ⟨q, hq, hasPm_of_close hm⟩
  have kept (hn : ¬ openCloses s.clock.secs tr i ss) : f.groupStatus g ss = r.groupStatus g ss := by
    rw [← h.shuts_iff] at hn
    exact followed.statusKept (not_exists.mp hn) g ht
  refine ⟨fun hc hm => ?_, fun hc hm => ?_, fun hc hp => (kept hc).trans (awaited hp), fun hss hp => ?_⟩
  · obtain ⟨m, hs⟩ := (h.shuts_iff i ss).mpr hc
    rw [followed.statuses m g hs hg ht, State.closedStatus, hmembers, if_pos hm]
  · obtain ⟨m, hs⟩ := (h.shuts_iff i ss).mpr hc
    have haw := awaited (point hc)
    refine ⟨?_, followed.raised m g hs hg ht ⟨hmembers ▸ hm, haw⟩⟩
    rw [followed.statuses m g hs hg ht, State.closedStatus, hmembers, if_neg hm, if_pos haw]
  · subst hss
    have hnc : ¬ openCloses s.clock.secs tr i .pm := fun hc => hp ((point hc).resolve_left (by simp))
    exact (kept hnc).trans (hno hp)

end

/-! ## The rebuild that follows (R23, R180, R189) -/

/-- The day as its rebuild begins, waits or ends. -/
structure Accepted (o u : State) : Prop where
  rest : u = { o with plan.dayState := u.plan.dayState, store := u.store, link := u.link }
  hand : u.link.hand = o.link.hand
  raised : ∀ c : Condition, o.link.isSet c = true → u.link.isSet c = true

theorem State.parseHeld_none {s : State} (h : ∀ m ∈ s.pool.msgs, m.kind ≠ .inbound) : s.parseHeld = s := by
  have hnil : s.pool.msgs.filter (fun m => m.kind == .inbound) = [] := List.filter_eq_nil_iff.mpr fun m hm => by simp [h m hm]
  rw [State.parseHeld, hnil]
  rfl

theorem State.startWaitingRead_none {s : State} (h : s.store.waitingRead = none) : s.startWaitingRead = s := by
  unfold State.startWaitingRead
  rw [h]

/-- The day OPEN, its rebuild ended. -/
def State.openNow (o : State) : State := ({ o with plan.dayState := .opened, store.op := .idle } : State).raise .dayReady

theorem State.settleDeferred_none {s : State} (h : s.plan.deferredClose = false) : s.settleDeferred = s := if_neg (by simp [h])

section
variable {o : State} {day : Date} (hdate : o.plan.dayDate = some day)
  (hdefer : o.plan.deferredClose = false) (htallies : o.reg.tallies = []) (hmsgs : ∀ m ∈ o.pool.msgs, m.kind ≠ .inbound)
  (hwait : o.store.waitingRead = none)
include hdefer

theorem wantRebuild_waits {q : ReadReq} {l : List DayRecord} (hjob : o.store.job = .read q l) :
    (o.wantRebuild).settleDeferred = { o with store.pendingJob := some .rebuild } := by
  have hwant : o.wantRebuild = { o with store.pendingJob := some .rebuild } := by
    unfold State.wantRebuild
    rw [hjob]
  rw [hwant]
  exact State.settleDeferred_none hdefer

include hdate

theorem wantRebuild_starts (hjob : o.store.job = .idle) {r : PageRead} {l : List PageRead} (hreads : o.store.rebuildReads day = r :: l) :
    (o.wantRebuild).settleDeferred = { o with store.job := .rebuild (r :: l) [], store.op := .reading r.page } := by
  have hwant : o.wantRebuild = { o with store.job := .rebuild (r :: l) [], store.op := .reading r.page } := by
    unfold State.wantRebuild State.startRebuild
    rw [hjob, hdate]
    simp only [Option.getD_some, hreads]
  rw [hwant]
  exact State.settleDeferred_none hdefer

include htallies hmsgs hwait

theorem wantRebuild_ends (hjob : o.store.job = .idle) (hreads : o.store.rebuildReads day = []) :
    (o.wantRebuild).settleDeferred = o.openNow := by
  have hstore : { o.store with job := .idle, op := .idle } = { o.store with op := .idle } := by rw [← hjob]
  have hreg : { o.reg with tallies := [] } = o.reg := by rw [← htallies]
  have hwant : o.wantRebuild = o.rebuildDone [] := by
    unfold State.wantRebuild State.startRebuild
    rw [hjob, hdate]
    simp only [Option.getD_some, hreads]
  have hdone : o.rebuildDone [] = (o.openNow.startWaitingRead).parseHeld := by
    unfold State.rebuildDone
    rw [hstore, hreg]
    rfl
  rw [hwant, hdone, State.startWaitingRead_none (s := o.openNow) hwait, State.parseHeld_none (s := o.openNow) hmsgs]
  exact State.settleDeferred_none (s := o.openNow) hdefer

end

/-- The rebuild of a day that opens: at its end, at its first page, or waiting for a READ. -/
structure Rebuilds (day : Date) (o u : State) : Prop where
  accepted : Accepted o u
  ends : o.store.job = .idle → o.store.rebuildReads day = [] →
    u.plan.dayState = .opened ∧ u.link.isSet .dayReady = true ∧ u.store = { o.store with op := .idle }
  starts : ∀ (r : PageRead) (l : List PageRead), o.store.job = .idle → o.store.rebuildReads day = r :: l →
    u.plan.dayState = .opening ∧ u.store = { o.store with job := .rebuild (o.store.rebuildReads day) [], op := .reading r.page }
  waits : o.store.job ≠ .idle → u.plan.dayState = .opening ∧ u.store = { o.store with pendingJob := some .rebuild }

theorem State.rebuilds {o : State} {day : Date} (hdate : o.plan.dayDate = some day) (hstate : o.plan.dayState = .opening)
    (hdefer : o.plan.deferredClose = false) (htallies : o.reg.tallies = []) (hmsgs : ∀ m ∈ o.pool.msgs, m.kind ≠ .inbound)
    (hwait : o.store.waitingRead = none) (hjob : o.store.job = .idle ∨ ∃ (q : ReadReq) (l : List DayRecord), o.store.job = .read q l) :
    Rebuilds day o (o.wantRebuild).settleDeferred := by
  rcases hjob with hjob | ⟨q, l, hjob⟩
  · cases hreads : o.store.rebuildReads day with
    | nil =>
      rw [wantRebuild_ends hdate hdefer htallies hmsgs hwait hjob hreads]
      exact ⟨⟨rfl, rfl, fun c hc => State.raise_isSet _ _ hc⟩, fun _ _ => ⟨rfl, State.raise_isSet_same _ _, rfl⟩,
        fun r l _ h => absurd (hreads.symm.trans h) (by simp), fun h => absurd hjob h⟩
    | cons r l =>
      rw [wantRebuild_starts hdate hdefer hjob hreads]
      refine ⟨⟨rfl, rfl, fun _ h => h⟩, fun _ h => ?_, fun r' l' _ h => ?_, fun h => absurd hjob h⟩
      · rw [hreads] at h
        cases h
      · cases hreads.symm.trans h
        rw [hreads]
        exact ⟨hstate, rfl⟩
  · rw [wantRebuild_waits hdefer hjob]
    refine ⟨⟨rfl, rfl, fun _ h => h⟩, fun h => ?_, fun r l h => ?_, fun _ => ⟨hstate, rfl⟩⟩
    · rw [hjob] at h
      cases h
    · rw [hjob] at h
      cases h

/-! ## The claim -/

theorem names_iff (x : Sessions) (ss : Session) :
    x.names ss = true ↔ (x = .both ∨ (x = .am ∧ ss = .am) ∨ (x = .pm ∧ ss = .pm)) := by
  cases x <;> cases ss <;> simp [Sessions.names]

/-- The records of a day that opens (R127). -/
theorem Registered.record_cases {s r : State} {day : Date} {tr : Quad Track} (h : Registered s day tr r) (p : Nat) (ss : Session) :
    let reported := (s.pupil p).inUse = true ∧ (ss = .pm → openPm tr (s.trackOf p)) ∧
      ∃ a ∈ s.recon.advance, a.date = day ∧ a.pupil = p ∧
        (a.sessions = .both ∨ (a.sessions = .am ∧ ss = .am) ∨ (a.sessions = .pm ∧ ss = .pm))
    (reported → r.record p ss = { Rec.cleared with mark := .r, source := some .parent }) ∧ (¬ reported → r.record p ss = Rec.cleared) := by
  intro reported
  have hpm : (ss = .am ∨ (s.planned day tr).trackHasPm (s.trackOf p) = true) ↔ (ss = .pm → openPm tr (s.trackOf p)) := by
    rw [trackHasPm_planned]
    cases ss <;> simp
  have hiff : r.record p ss = Rec.byParent ↔ reported := by
    rw [h.record]
    constructor
    · rintro ⟨a, ha, hd, rfl, hu, hn, hp⟩
      exact ⟨hu, hpm.mp hp, a, ha, hd, rfl, (names_iff _ _).mp hn⟩
    · rintro ⟨hu, hp, a, ha, hd, rfl, hn⟩
      exact ⟨a, ha, hd, rfl, hu, (names_iff _ _).mpr hn, hpm.mpr hp⟩
  exact ⟨hiff.mpr, fun hno => (h.fresh.each p ss).resolve_right (mt hiff.mp hno)⟩

/-- Settles O24: the day's register is cleared and takes the reports of the day, each session moves beside the others, and the rebuild reads
the good pages of the newest entries. -/
theorem dayOpenIsCheckedAndTaken : Obligations.DayOpenIsCheckedAndTaken := by
  unfold Obligations.DayOpenIsCheckedAndTaken
  refine ⟨fun s tag date kinds delays h => dayOpen_refused s tag date kinds delays h, ?_,
    fun x day r hx => mem_rebuildReads hx day r⟩
  intro s tag date kinds delays tr h hset hclosed hjob hwait hmsgs d htracks _ hdate hvalid day now add count pm closes begun reported reads
  have args : openArgs s date kinds d := ⟨fun i => ⟨(htracks i).1, (htracks i).2.1⟩, hdate, hvalid⟩
  have free : ¬ (s.inHand 0x11 tag).saving = true := fun e => by
    obtain ⟨ph, n, hs⟩ := (saving_iff _).mp e
    have hs : s.store.job = .save ph n := hs
    rcases hjob with hj | ⟨q, l, hj⟩ <;> rw [hs] at hj <;> cases hj
  have early : ¬ openLate (s.inHand 0x11 tag) kinds d := fun ⟨i, hpos, hle⟩ => by
    have hle : ((s.storedPlan (i.val * 4 + kinds.get i)).start + d.get i) * 60 ≤ s.clock.secs := hle
    obtain ⟨-, -, hlate, -⟩ := htracks i
    omega
  obtain ⟨k, hk, e⟩ := reqDayOpen_tracks (s := s.inHand 0x11 tag) (delays := delays) hset args hclosed free early
  have built := openTracks_ok (s := s.inHand 0x11 tag) (k := k) (d := delaysOf delays) fun i =>
    (openTrack_eq hk i).trans (htracks i).2.2.2
  rw [built] at e
  have registered := (s.inHand 0x11 tag).registered_spec day tr
  have rebuilds := State.rebuilds (o := (s.inHand 0x11 tag).dayOpened day tr) (day := day) rfl rfl rfl registered.fresh.tallies hmsgs hwait hjob
  have request : reqDayOpen date kinds delays (s.inHand 0x11 tag) =
      (((s.inHand 0x11 tag).dayOpened day tr).wantRebuild.settleDeferred, Reply.just .accepted) := by
    rw [e, ← State.openDay_dayOpened]
    rfl
  generalize ((s.inHand 0x11 tag).dayOpened day tr).wantRebuild.settleDeferred = u at request rebuilds
  obtain ⟨⟨rest, hand, raised⟩, ends, starts, waits⟩ := rebuilds
  have follows := ((s.inHand 0x11 tag).registered day tr).followAllSessions_follows
  have hlink : u.link.hand = some ⟨tag, 0x11, false⟩ := by
    refine hand.trans (follows.hand.trans ?_)
    rw [registered.rest]
    rfl
  have hplan : u.plan = { ((s.inHand 0x11 tag).dayOpened day tr).plan with dayState := u.plan.dayState } := congrArg State.plan rest
  have hreg : u.reg = ((s.inHand 0x11 tag).dayOpened day tr).reg := (congrArg State.reg rest).trans rfl
  refine ⟨u, answers_of_handle h rfl rfl (by decide) (congrArg answered request) hlink, congrArg Planner.dayDate hplan,
    congrArg Planner.tracks hplan, congrArg Planner.deferredClose hplan, (congrArg State.clock rest).trans rfl, (congrArg State.set rest).trans rfl, ?_,
    (congrArg State.stations rest).trans rfl, (congrArg State.slips rest).trans rfl, (congrArg State.desk rest).trans rfl, (congrArg State.pool rest).trans rfl,
    (congrArg State.sched rest).trans rfl, (congrArg State.gw rest).trans rfl, (congrArg State.recon rest).trans registered.recon, fun p ss => ?_, fun p => ?_,
    fun i ss => ?_, fun g ss hg => ?_, ends, starts, waits⟩
  · have hbells := bells_of_plan (s := { s with plan := u.plan }) (t := (s.inHand 0x11 tag).planned day tr) rfl rfl
      (congrArg Planner.tracks hplan).symm rfl
    exact (congrArg State.bells rest).trans hbells
  · have hrecord : u.record p ss = ((s.inHand 0x11 tag).registered day tr).record p ss := by
      rw [State.record, hreg]
      rfl
    rw [hrecord]
    exact registered.record_cases p ss
  · rw [State.tally, hreg]
    show Tab.get zeroTally ((s.inHand 0x11 tag).registered day tr).reg.tallies p = _
    rw [registered.fresh.tallies]
    rfl
  · have hsession : u.session i ss = ((s.inHand 0x11 tag).registered day tr).followAllSessions.session i ss := by
      rw [State.session, hreg]
      rfl
    rw [hsession]
    exact registered.session_followed rfl i ss
  · have hstatus : u.groupStatus g ss = ((s.inHand 0x11 tag).registered day tr).followAllSessions.groupStatus g ss := by
      rw [State.groupStatus, hreg]
      rfl
    rw [hstatus]
    obtain ⟨empty, missing, awaited, notHeld⟩ := registered.status_followed rfl g ss hg
    exact ⟨empty, fun hc hm => ⟨(missing hc hm).1, raised _ (missing hc hm).2⟩, awaited, notHeld⟩

end Sys2Proof.Machine
end

