-- ==== Sys2Proof/Proofs/ZoneRequests.lean ====
section
/-! CLAIM. The requests on bell zones and stations: ZONE RING (R49), BELL LOG and ZONE STATUS (R56, R57), and STATION STATUS (R74). -/

namespace Sys2Proof.Machine

/-! ## The numbers of zones and stations -/

theorem fin4?_none {n : Nat} (h : 4 ≤ n) : fin4? n = none := dif_neg (by omega)

theorem station?_none {n : Nat} (h : n = 0 ∨ 6 < n) : station? n = none := dif_neg (by omega)

theorem State.raiseAll_hand (s : State) (cs : List Condition) : (s.raiseAll cs).link.hand = s.link.hand :=
  foldl_kept (f := State.raise) (fun u => u.link.hand) (fun _ _ => rfl) s cs

section
variable {s : State} {tag : Nat}

/-! ## ZONE RING (R49) -/

/-- A ring that the zone takes is begun or held, and answered OK. -/
theorem zoneRing_taken (h : s.ready) {z : Fin 4} {y : Zone} {cs : List Condition}
    (hr : manualRing (s.set.zones.get z) (s.bells.get z) = some (y, cs)) :
    Answers (.zoneRing tag z.val) s 0x18 tag (fun u => ({ u with bells := u.bells.set z y }).raiseAll cs) .ok [] := by
  refine answers_of_handle h rfl rfl (by decide) ?_ ?_
  · have hr' : manualRing ((s.inHand 0x18 tag).set.zones.get z) ((s.inHand 0x18 tag).bells.get z) = some (y, cs) := hr
    simp only [handle, reqZoneRing, fin4?_val, hr']
    rfl
  · exact State.raiseAll_hand _ cs

theorem zoneRing_busy (h : s.ready) {z : Fin 4} (hr : manualRing (s.set.zones.get z) (s.bells.get z) = none) :
    Refuses (.zoneRing tag z.val) s 0x18 tag .busy := by
  refine answers_of_handle h rfl rfl (by decide) ?_ rfl
  have hr' : manualRing ((s.inHand 0x18 tag).set.zones.get z) ((s.inHand 0x18 tag).bells.get z) = none := hr
  simp only [handle, reqZoneRing, fin4?_val, hr']
  rfl

theorem zoneRing_badArg (h : s.ready) {zone : Nat} (hz : 4 ≤ zone) : Refuses (.zoneRing tag zone) s 0x18 tag .badArg := by
  refine answers_of_handle h rfl rfl (by decide) ?_ rfl
  simp only [handle, reqZoneRing, fin4?_none hz]
  rfl

/-! ## The reports (R56, R57, R74) -/

theorem bellLog_answers (h : s.ready) {zone : Nat} {code : Code} {body : List Byte}
    (e : reqBellLog zone (s.inHand 0x1A tag) = (s.inHand 0x1A tag, ⟨code, body⟩)) :
    Answers (.bellLog tag zone) s 0x1A tag id code body :=
  answers_of_handle h rfl rfl (by decide) (congrArg answered e) rfl

theorem zoneStatus_answers (h : s.ready) {zone : Nat} {code : Code} {body : List Byte}
    (e : reqZoneStatus zone (s.inHand 0x1B tag) = (s.inHand 0x1B tag, ⟨code, body⟩)) :
    Answers (.zoneStatus tag zone) s 0x1B tag id code body :=
  answers_of_handle h rfl rfl (by decide) (congrArg answered e) rfl

theorem stationStatus_answers (h : s.ready) {station : Nat} {code : Code} {body : List Byte}
    (e : reqStationStatus station (s.inHand 0x21 tag) = (s.inHand 0x21 tag, ⟨code, body⟩)) :
    Answers (.stationStatus tag station) s 0x21 tag id code body :=
  answers_of_handle h rfl rfl (by decide) (congrArg answered e) rfl

theorem reqBellLog_zone (s : State) (z : Fin 4) :
    reqBellLog z.val s = s.answer (b1 (trackCode? (s.set.zones.get z).track) ++ bOpt 3 bDate s.plan.dayDate ++
      bList BellEvent.bytes (s.bells.get z).list) := by
  simp only [reqBellLog, fin4?_val]

theorem reqZoneStatus_zone (s : State) (z : Fin 4) : reqZoneStatus z.val s = s.answer (s.bells.get z).bytes := by
  simp only [reqZoneStatus, fin4?_val]

theorem reqStationStatus_station (s : State) (n : Fin 6) :
    reqStationStatus (n.val + 1) s = s.answer (stationBody (s.set.stations.get n) (s.station n)) := by
  simp only [reqStationStatus, station?_val]

theorem reqBellLog_badArg (s : State) {zone : Nat} (hz : 4 ≤ zone) : reqBellLog zone s = s.refuse .badArg := by
  simp only [reqBellLog, fin4?_none hz]

theorem reqZoneStatus_badArg (s : State) {zone : Nat} (hz : 4 ≤ zone) : reqZoneStatus zone s = s.refuse .badArg := by
  simp only [reqZoneStatus, fin4?_none hz]

theorem reqStationStatus_badArg (s : State) {station : Nat} (hn : station = 0 ∨ 6 < station) :
    reqStationStatus station s = s.refuse .badArg := by
  simp only [reqStationStatus, station?_none hn]

end

theorem actualRate_whole {n : Nat} (h : 115200 % (n + 1) = 0) : actualRate n = 115200 / (n + 1) := by
  rw [actualRate, if_pos h, Nat.add_zero]

/-- Settles O30, by the zone's activity. -/
theorem zoneRingIsTaken : Obligations.ZoneRingIsTaken := by
  intro s tag z h x c rung
  refine ⟨fun hact => ?_, fun hact => ?_, fun what hact hp => ?_, fun what hact hp => ?_, fun zone hz => zoneRing_badArg h hz⟩
  · exact zoneRing_taken h (y := rung) (cs := []) (by rw [manualRing, hact]; rfl)
  · exact zoneRing_taken h (y := { rung with lastCheck := some .aborted }) (cs := [.checkDone]) (by rw [manualRing, hact]; rfl)
  · exact zoneRing_taken h (y := { x with manualPending := true }) (cs := []) (by simp only [manualRing, hact, hp, x]; rfl)
  · exact zoneRing_busy h (by simp only [manualRing, hact, hp, x, if_true])

/-- Settles O35: each report is read off the state as it is. -/
theorem zoneAndStationReports : Obligations.ZoneAndStationReports := by
  refine ⟨⟨fun s tag z h => ⟨?_, ?_⟩, fun s tag zone h hz => ⟨?_, ?_⟩⟩, fun s tag n h => ?_, fun s tag station h hn => ?_,
    fun _ => actualRate_whole⟩
  · exact bellLog_answers h (reqBellLog_zone (s.inHand 0x1A tag) z)
  · intro x
    refine zoneStatus_answers h ((reqZoneStatus_zone (s.inHand 0x1B tag) z).trans ?_)
    rfl
  · exact bellLog_answers h (reqBellLog_badArg _ hz)
  · exact zoneStatus_answers h (reqZoneStatus_badArg _ hz)
  · intro c x
    refine stationStatus_answers h ((reqStationStatus_station (s.inHand 0x21 tag) n).trans ?_)
    simp only [stationBody, StationCounters.bytes, State.answer, Reply.ok, List.append_assoc]
    rfl
  · exact stationStatus_answers h (reqStationStatus_badArg _ hn)

end Sys2Proof.Machine
end

