-- ==== Sys2Proof/Proofs/ZoneEvents.lean ====
section
/-! SUPPORT. What an event on one bell zone does to the part, and what the circuit's hand-on does to a zone in each case (R48, R52). -/

namespace Sys2Proof.Machine

theorem Quad.set_get {α : Type} (q : Quad α) (i : Fin 4) : q.set i (q.get i) = q := by
  match i with
  | 0 => rfl
  | 1 => rfl
  | 2 => rfl
  | 3 => rfl

/-! ## A command that works on one zone -/

section
variable {i : Instr} {s : State} {z : Fin 4} {f : ZoneCfg → Zone → Zone × List Condition}

theorem onZone_does (hi : exec i s = run s (s.onZone z f)) {y : Zone} {cs : List Condition}
    (hf : f (s.set.zones.get z) (s.bells.get z) = (y, cs)) : Does i s (({ s with bells := s.bells.set z y }).raiseAll cs) := by
  rw [Does, hi, State.onZone, hf]
  rfl

/-- The command leaves the part as it is when its zone stays and nothing is raised. -/
theorem onZone_idles (hi : exec i s = run s (s.onZone z f)) (hf : f (s.set.zones.get z) (s.bells.get z) = (s.bells.get z, [])) :
    Does i s s := by
  have done := onZone_does hi hf
  rwa [Quad.set_get] at done

end

/-! ## The circuit is handed on (R48) -/

section
variable {c : ZoneCfg} {secs : Nat} {y : Zone}

theorem handOn_kept {w : BellEvent} {rest : List BellEvent} (hk : y.kept = w :: rest) :
    handOn c secs y = startRing c (.kept w.kind) { y with kept := rest } := by simp only [handOn, hk]

/-- With none kept apart, the first WAITING event of the list rings. -/
theorem handOn_waiting {p q : List BellEvent} {w : BellEvent} (hk : y.kept = []) (hl : y.list = p ++ w :: q)
    (hw : w.outcome = .waiting) (hp : ∀ f ∈ p, f.outcome ≠ .waiting ∧ f.source ≠ w.source) :
    handOn c secs y = startRing c (.event w.source w.kind)
      { y with list := p ++ { w with outcome := .ringing, ringStart := some secs } :: q } := by
  have found : y.list.find? (·.outcome == .waiting) = some w := by
    rw [hl, List.find?_append, List.find?_eq_none.mpr fun f hf => by simp [(hp f hf).1]]
    simp [hw]
  have rings : handOn c secs y = ringEvent c secs w y := by simp only [handOn, hk, found]
  exact rings.trans (ringEvent_list hl fun f hf => (hp f hf).2)

/-- With no WAITING event, the circuit goes to what was asked for by hand. -/
theorem handOn_noBell (hk : y.kept = []) (hl : ∀ f ∈ y.list, f.outcome ≠ .waiting) :
    handOn c secs y =
      if y.manualPending then startRing c .manual { y with manualPending := false }
      else if y.autoRequest then startCheck y
      else { y with act := .idle, left := 0 } := by
  have noneWaits : y.list.find? (·.outcome == .waiting) = none := List.find?_eq_none.mpr fun f hf => by simp [hl f hf]
  simp only [handOn, hk, noneWaits]

theorem handOn_idle (hk : y.kept = []) (hl : ∀ f ∈ y.list, f.outcome ≠ .waiting) (hm : y.manualPending = false)
    (ha : y.autoRequest = false) : handOn c secs y = { y with act := .idle, left := 0 } := by
  rw [handOn_noBell hk hl, hm, ha]
  rfl

end

/-! ## The end of a ring (R52) -/

/-- A ring is counted: its fault becomes the zone's, and a failed ring under auto-check asks for a check. -/
def Zone.counted (c : ZoneCfg) (z : Zone) : Zone :=
  { z with
    rings := inc32 z.rings
    failed := if ringFailed z then inc32 z.failed else z.failed
    active := activeOf (ringFault z)
    autoRequest := z.autoRequest || (ringFailed z && c.auto) }

theorem activeOf_ringFault (z : Zone) :
    activeOf (ringFault z) = if z.overSeen then .overload else if z.openSeen then .openFault else .clear := by
  unfold ringFault
  split
  · rfl
  · split <;> rfl

section
variable {c : ZoneCfg} {z : Zone}

theorem fixRing_event {src : BellSource} {k : BellKind} {a b : List BellEvent} {e : BellEvent} (hl : z.list = a ++ e :: b)
    (he : e.source = src) (ha : ∀ f ∈ a, f.source ≠ src) :
    fixRing c (.event src k) z = { z.counted c with
      list := a ++ { e with outcome := if ringFailed z then .failed else .rung, fault := some (ringFault z) } :: b } := by
  subst he
  simp only [fixRing, hl, changeFirst_source _ ha]
  rfl

theorem fixRing_manual : fixRing c .manual z = { z.counted c with lastManual := some (!ringFailed z) } := rfl

theorem fixRing_kept (k : BellKind) : fixRing c (.kept k) z = z.counted c := rfl

theorem endRing_ringing {what : RingWhat} (hact : z.act = .ringing what) (secs : Nat) :
    endRing c secs z = handOn c secs (fixRing c what z) := by simp only [endRing, hact]

end

end Sys2Proof.Machine
end

