-- ==== Sys2Proof/Proofs/Rings.lean ====
section
/-! CLAIM. How rings end and hand the circuit on (R48, R52), the faults of a ring (R50, R51), and circuit checks (R54, R55). -/

namespace Sys2Proof.Machine

/-! ## The end of a ring -/

/-- R52: what the end of a ring leaves, before the circuit is handed on. -/
def Zone.fixed (c : ZoneCfg) (what : RingWhat) (z done : Zone) : Prop :=
  (∃ (src : BellSource) (k : BellKind) (a b : List BellEvent) (e : BellEvent), what = .event src k ∧
      z.list = a ++ e :: b ∧ e.source = src ∧ (∀ f ∈ a, f.source ≠ src) ∧
      done = { z.counted c with
        list := a ++ { e with outcome := if ringFailed z then .failed else .rung, fault := some (ringFault z) } :: b }) ∨
    (what = .manual ∧ done = { z.counted c with lastManual := some (!ringFailed z) }) ∨
    ∃ k : BellKind, what = .kept k ∧ done = z.counted c

theorem fixRing_of_fixed {c : ZoneCfg} {what : RingWhat} {z done : Zone} (h : z.fixed c what done) : fixRing c what z = done := by
  rcases h with ⟨src, k, a, b, e, rfl, hl, he, ha, rfl⟩ | ⟨rfl, rfl⟩ | ⟨k, rfl, rfl⟩
  · exact fixRing_event hl he ha
  · exact fixRing_manual
  · exact fixRing_kept k

/-- Fixing a ring's outcome starts no check. -/
theorem Zone.fixed.checks {c : ZoneCfg} {what : RingWhat} {z done : Zone} (h : z.fixed c what done) : done.checks = z.checks := by
  rcases h with ⟨src, k, a, b, e, -, -, -, -, rfl⟩ | ⟨-, rfl⟩ | ⟨k, -, rfl⟩ <;> rfl

/-- RING END of a sounding zone hands the circuit of the ring's outcome on. -/
theorem ringEnd_does {s : State} {z : Fin 4} {what : RingWhat} {done y : Zone} (hact : (s.bells.get z).act = .ringing what)
    (hd : (s.bells.get z).fixed (s.set.zones.get z) what done) (hy : handOn (s.set.zones.get z) s.clock.secs done = y) :
    Does (.ringEnd z) s { s with bells := s.bells.set z y } :=
  onZone_does (cs := []) (f := fun c x => (endRing c s.clock.secs x, [])) rfl
    (by rw [endRing_ringing hact, fixRing_of_fixed hd, hy])

/-- Settles O28: the outcome of the ring is fixed, and the circuit handed on in the order of R48. -/
theorem ringsEndAndHandOn : Obligations.RingsEndAndHandOn := by
  intro s z what x c hact bad seen counted done hdone becomes rings duration noBell
  have hcounted : counted = x.counted c := by
    simp only [counted, Zone.counted, activeOf_ringFault]
    rfl
  have hd : x.fixed c what done := by
    rw [hcounted] at hdone
    exact hdone
  have ends {y : Zone} (hy : handOn c s.clock.secs done = y) : becomes y := ringEnd_does hact hd hy
  refine ⟨fun w rest hk => ends ?_, fun p q w hk hl hw hp => ends ?_, fun hno hm => ends ?_, fun hno hm ha => ends ?_,
    fun hno hm ha => ends (handOn_idle hno.1 hno.2 hm ha)⟩
  · rw [handOn_kept hk]
    rfl
  · rw [handOn_waiting hk hl hw hp]
    rfl
  · rw [handOn_noBell hno.1 hno.2, if_pos hm]
    rfl
  · rw [handOn_noBell hno.1 hno.2, if_neg (by simp [hm]), if_pos ha, startCheck, hd.checks]
    rfl

/-! ## The faults of a ring (R50, R51) -/

theorem levelMa_eq (n : Nat) : levelMa n = [25, 50, 75, 100, 150, 200, 300, 400].getD n 400 := by
  match n with
  | 0 => rfl
  | 1 => rfl
  | 2 => rfl
  | 3 => rfl
  | 4 => rfl
  | 5 => rfl
  | 6 => rfl
  | 7 => rfl
  | n + 8 => rfl

section
variable {z : Zone} {ma ms : Nat}

theorem openFault_arises {what : RingWhat} (hact : z.act = .ringing what) (hs : z.openSeen = false) (hl : ma < levelMa z.level)
    (ht : z.filter * 100 ≤ ms) : openFault ma ms z = ({ z with openSeen := true, opens := inc32 z.opens }, [.zoneFault]) := by
  simp only [openFault, hact, hs, hl, ht, decide_true, Bool.not_false, Bool.and_true, if_true]

theorem openFault_none (h : z.act = .idle ∨ z.act = .checking ∨ z.openSeen = true ∨ levelMa z.level ≤ ma ∨ ms < z.filter * 100) :
    openFault ma ms z = (z, []) := by
  unfold openFault
  split
  · rename_i hact
    have short : ¬ (z.openSeen = false ∧ ma < levelMa z.level ∧ z.filter * 100 ≤ ms) := by
      rintro ⟨hs, hl, ht⟩
      simp only [hact, hs, reduceCtorEq, false_or] at h
      omega
    refine if_neg fun hb => short ?_
    simpa [and_assoc] using hb
  · rfl

theorem overload_arises {what : RingWhat} (hact : z.act = .ringing what) (c : ZoneCfg) (secs : Nat) (hl : 2000 < ma) (ht : 50 ≤ ms) :
    overload c secs ma ms z = (endRing c secs { z with overSeen := true, overloads := inc32 z.overloads }, [.zoneFault]) := by
  simp only [overload, hact, hl, ht, decide_true, Bool.and_true, if_true]

theorem overload_none (c : ZoneCfg) (secs : Nat) (h : z.act = .idle ∨ z.act = .checking ∨ ma ≤ 2000 ∨ ms < 50) :
    overload c secs ma ms z = (z, []) := by
  unfold overload
  split
  · rename_i hact
    simp only [hact, reduceCtorEq, false_or] at h
    refine if_neg ?_
    simp only [Bool.and_eq_true, decide_eq_true_eq]
    omega
  · rfl

end

/-! ## Circuit checks (R54, R55) -/

section
variable {s : State} {tag : Nat}

theorem zoneCheck_accepted (h : s.ready) {z : Fin 4} (hact : (s.bells.get z).act = .idle) :
    Answers (.zoneCheck tag z.val) s 0x19 tag (fun u => { u with bells := u.bells.set z (startCheck (s.bells.get z)) }) .accepted [] := by
  refine answers_of_handle h rfl rfl (by decide) ?_ rfl
  have hact' : ((s.inHand 0x19 tag).bells.get z).act = .idle := hact
  simp only [handle, reqZoneCheck, fin4?_val, hact']
  rfl

theorem zoneCheck_busy (h : s.ready) {z : Fin 4} (hact : (s.bells.get z).act ≠ .idle) :
    Refuses (.zoneCheck tag z.val) s 0x19 tag .busy := by
  refine answers_of_handle h rfl rfl (by decide) ?_ rfl
  simp only [handle, reqZoneCheck, fin4?_val]
  split
  · exact absurd ‹_› hact
  · rfl

theorem zoneCheck_badArg (h : s.ready) {zone : Nat} (hz : 4 ≤ zone) : Refuses (.zoneCheck tag zone) s 0x19 tag .badArg := by
  refine answers_of_handle h rfl rfl (by decide) ?_ rfl
  simp only [handle, reqZoneCheck, fin4?_none hz]
  rfl

end

section
variable {z : Zone} {ma ms : Nat} (c : ZoneCfg) (secs : Nat)

theorem checkShort_arises (hact : z.act = .checking) (hl : 250 < ma) (ht : 50 ≤ ms) :
    checkShort c secs ma ms z = endCheck c secs .short z := by
  simp only [checkShort, hact, hl, ht, decide_true, Bool.and_true, if_true]

theorem checkShort_none (h : ma ≤ 250 ∨ ms < 50 ∨ z.act ≠ .checking) : checkShort c secs ma ms z = (z, []) := by
  unfold checkShort
  split
  · rename_i hact
    refine if_neg ?_
    simp only [hact, ne_eq, not_true_eq_false, or_false] at h
    simp only [Bool.and_eq_true, decide_eq_true_eq]
    omega
  · rfl

theorem probeEnd_low (hact : z.act = .checking) (hl : ma < 10) : probeEnd c secs ma z = endCheck c secs .openCircuit z := by
  simp only [probeEnd, hact, if_pos hl]

theorem probeEnd_enough (hact : z.act = .checking) (hl : 10 ≤ ma) : probeEnd c secs ma z = endCheck c secs .ok z := by
  simp only [probeEnd, hact, if_neg (Nat.not_lt.mpr hl)]

/-- The zone as a check leaves it when the circuit is handed to nothing. -/
def Zone.checked (z : Zone) (r : CheckResult) (f : ActiveFault) : Zone :=
  { z with act := .idle, left := 0, lastCheck := some r, active := f }

/-- Nothing waits for the circuit. -/
structure Zone.Unasked (z : Zone) : Prop where
  kept : z.kept = []
  list : ∀ e ∈ z.list, e.outcome ≠ .waiting
  manual : z.manualPending = false
  auto : z.autoRequest = false

theorem checkShort_does {s : State} {i : Fin 4} {y : Zone} {cs : List Condition}
    (h : checkShort (s.set.zones.get i) s.clock.secs ma ms (s.bells.get i) = (y, cs)) :
    Does (.checkShort i ma ms) s (({ s with bells := s.bells.set i y }).raiseAll cs) :=
  onZone_does (f := fun c x => checkShort c s.clock.secs ma ms x) rfl h

theorem probeEnd_does {s : State} {i : Fin 4} {y : Zone} {cs : List Condition}
    (h : probeEnd (s.set.zones.get i) s.clock.secs ma (s.bells.get i) = (y, cs)) :
    Does (.probeEnd i ma) s (({ s with bells := s.bells.set i y }).raiseAll cs) :=
  onZone_does (f := fun c x => probeEnd c s.clock.secs ma x) rfl h

variable {c secs}

theorem endCheck_short (h : z.Unasked) : endCheck c secs .short z = (z.checked .short .short, [.zoneFault, .checkDone]) :=
  congrArg (·, _) (handOn_idle (y := { z with lastCheck := some .short, active := .short }) h.kept h.list h.manual h.auto)

theorem endCheck_open (h : z.Unasked) :
    endCheck c secs .openCircuit z = (z.checked .openCircuit .openFault, [.zoneFault, .checkDone]) :=
  congrArg (·, _) (handOn_idle (y := { z with lastCheck := some .openCircuit, active := .openFault }) h.kept h.list h.manual h.auto)

theorem endCheck_ok (h : z.Unasked) : endCheck c secs .ok z = (z.checked .ok .clear, [.checkDone]) :=
  congrArg (·, _) (handOn_idle (y := { z with lastCheck := some .ok, active := .clear }) h.kept h.list h.manual h.auto)

end

/-- Settles O29: each current either reaches what the monitor or the probe asks of it, or leaves the zone. -/
theorem ringFaultsAndChecks : Obligations.RingFaultsAndChecks := by
  refine ⟨fun s z ma ms => ?_, fun s tag z h => ⟨zoneCheck_accepted h, zoneCheck_busy h⟩, fun _ _ _ h hz => zoneCheck_badArg h hz,
    fun s z ma ms => ?_⟩
  · intro x c level
    have hlevel : level = levelMa x.level := (levelMa_eq x.level).symm
    rw [hlevel]
    refine ⟨fun what hact hs hl ht => ?_, fun hno => ?_, fun what hact hl ht => ?_, fun hno => ?_⟩
    · exact onZone_does (f := fun _ x => openFault ma ms x) rfl (openFault_arises hact hs hl ht)
    · exact onZone_idles (f := fun _ x => openFault ma ms x) rfl (openFault_none hno)
    · exact onZone_does (f := fun c x => overload c s.clock.secs ma ms x) rfl (overload_arises hact c s.clock.secs hl ht)
    · exact onZone_idles (f := fun c x => overload c s.clock.secs ma ms x) rfl (overload_none c s.clock.secs hno)
  · intro x idle
    refine ⟨fun hact hk hw hm ha => ?_, fun hno => ?_⟩
    · have free : x.Unasked := ⟨hk, hw, hm, ha⟩
      refine ⟨fun hl ht => ?_, fun hl => ?_, fun hl => ?_⟩
      · exact checkShort_does ((checkShort_arises _ _ hact hl ht).trans (endCheck_short free))
      · exact probeEnd_does ((probeEnd_low _ _ hact hl).trans (endCheck_open free))
      · exact probeEnd_does ((probeEnd_enough _ _ hact hl).trans (endCheck_ok free))
    · exact onZone_idles (f := fun c x => checkShort c s.clock.secs ma ms x) rfl (checkShort_none _ _ hno)

end Sys2Proof.Machine
end

