-- ==== Sys2Proof/Proofs/BellOrder.lean ====
section
/-! SUPPORT. The order of a bell list and the events of a publication (R43). -/

namespace Sys2Proof.Machine

/-! ## The order of a bell list -/

/-- An event may stand before another: by time, and at equal times segment, WARNING, END. -/
def bellLe (a b : BellEvent) : Prop := a.time < b.time ∨ (a.time = b.time ∧ sourceRank a.source ≤ sourceRank b.source)

theorem bellBefore_iff (a b : BellEvent) :
    bellBefore a b = true ↔ a.time < b.time ∨ (a.time = b.time ∧ sourceRank a.source < sourceRank b.source) := by
  simp [bellBefore]

theorem bellLe_of_before {a b : BellEvent} (h : bellBefore a b = true) : bellLe a b := by
  rw [bellBefore_iff] at h
  exact h.imp_right fun h => ⟨h.1, h.2.le⟩

theorem bellLe_of_not_before {a b : BellEvent} (h : bellBefore a b ≠ true) : bellLe b a := by
  rw [Ne, bellBefore_iff] at h
  unfold bellLe
  omega

theorem bellLe_trans {a b c : BellEvent} (h : bellLe a b) (k : bellLe b c) : bellLe a c := by
  unfold bellLe at *
  omega

theorem insertBell_perm (e : BellEvent) (l : List BellEvent) : (insertBell e l).Perm (e :: l) := by
  induction l with
  | nil => exact .refl _
  | cons f l ih =>
    unfold insertBell
    split
    · exact .refl _
    · exact (ih.cons f).trans (.swap e f l)

theorem sortBells_perm (l : List BellEvent) : (sortBells l).Perm l := by
  induction l with
  | nil => exact .refl _
  | cons e l ih => exact (insertBell_perm e _).trans (ih.cons e)

theorem mem_sortBells (e : BellEvent) (l : List BellEvent) : e ∈ sortBells l ↔ e ∈ l := (sortBells_perm l).mem_iff

theorem insertBell_ordered (e : BellEvent) {l : List BellEvent} (h : l.Pairwise bellLe) : (insertBell e l).Pairwise bellLe := by
  induction l with
  | nil => exact List.pairwise_singleton _ _
  | cons f l ih =>
    obtain ⟨hf, hl⟩ := List.pairwise_cons.mp h
    unfold insertBell
    split
    · have hef : bellLe e f := bellLe_of_before ‹_›
      refine List.pairwise_cons.mpr ⟨fun g hg => ?_, h⟩
      rcases List.mem_cons.mp hg with rfl | hg
      · exact hef
      · exact bellLe_trans hef (hf g hg)
    · have hfe : bellLe f e := bellLe_of_not_before ‹_›
      refine List.pairwise_cons.mpr ⟨fun g hg => ?_, ih hl⟩
      rcases List.mem_cons.mp ((insertBell_perm e l).mem_iff.mp hg) with rfl | hg
      · exact hfe
      · exact hf g hg

theorem sortBells_ordered (l : List BellEvent) : (sortBells l).Pairwise bellLe := by
  induction l with
  | nil => exact .nil
  | cons e l ih => exact insertBell_ordered e ih

/-! ## The events of a publication -/

/-- The start of the segment of number `n`, from the start of the first. -/
def startAt (t : Nat) (l : List SegIF) (n : Nat) : Nat := t + ((l.take n).map (·.len)).sum

theorem startAt_zero (t : Nat) (l : List SegIF) : startAt t l 0 = t := rfl

theorem startAt_succ (t : Nat) (g : SegIF) (l : List SegIF) (n : Nat) : startAt t (g :: l) (n + 1) = startAt (t + g.len) l n := by
  simp [startAt, Nat.add_assoc]

theorem le_startAt (t : Nat) (l : List SegIF) (n : Nat) : t ≤ startAt t l n := Nat.le_add_right ..

/-- An event as it is made, under the condition on which it is SUPPRESSED. -/
def BellEvent.made (e : BellEvent) (src : BellSource) (k : BellKind) (time : Nat) (q : Prop) : Prop :=
  e.source = src ∧ e.kind = k ∧ e.time = time ∧ e.ringStart = none ∧ e.fault = none ∧ e.passed = false ∧
    (q → e.outcome = .suppressed) ∧ (¬ q → e.outcome = .pending)

theorem eq_newBell_iff (e : BellEvent) (src : BellSource) (k : BellKind) (time : Nat) {quiet : Bool} {q : Prop}
    (hq : quiet = true ↔ q) : e = newBell src k time quiet ↔ e.made src k time q := by
  obtain ⟨source, kind, t, outcome, ringStart, fault, passed⟩ := e
  cases quiet <;> simp [newBell, BellEvent.made, ← hq] <;> tauto

/-- The segments of a list and where they start: the first, or one of the rest. -/
theorem exists_segment_cons (t : Nat) (g : SegIF) (l : List SegIF) (P : Nat → SegIF → Nat → Prop) :
    (∃ (n : Nat) (f : SegIF), (g :: l)[n]? = some f ∧ P n f (startAt t (g :: l) n)) ↔
      P 0 g t ∨ ∃ (n : Nat) (f : SegIF), l[n]? = some f ∧ P (n + 1) f (startAt (t + g.len) l n) := by
  rw [← Nat.or_exists_add_one]
  simp [startAt_zero, startAt_succ]

/-- A time lies within a quiet segment: no two segments share a minute. -/
theorem quietAt_iff (m t : Nat) (l : List SegIF) :
    quietAt m t l = true ↔ ∃ (n : Nat) (g : SegIF), l[n]? = some g ∧ startAt t l n ≤ m ∧ m < startAt t l n + g.len ∧
      g.seg.quiet = true := by
  induction l generalizing t with
  | nil => simp [quietAt]
  | cons g l ih =>
    rw [exists_segment_cons t g l fun _ f start => start ≤ m ∧ m < start + f.len ∧ f.seg.quiet = true, ← ih, quietAt]
    by_cases hg : t ≤ m ∧ m < t + g.len
    · have later : quietAt m (t + g.len) l ≠ true := fun h => by
        obtain ⟨n, f, -, hn, -⟩ := (ih _).mp h
        have := le_startAt (t + g.len) l n
        omega
      simp [hg, later]
    · rw [if_neg (by simpa using hg)]
      tauto

/-- The segment-start events: one for each segment that starts with a bell. -/
theorem mem_segmentBells (e : BellEvent) (n t : Nat) (l : List SegIF) :
    e ∈ segmentBells n t l ↔ ∃ (i : Nat) (g : SegIF), l[i]? = some g ∧ ∃ k : BellKind, startKind g.seg.bell = some k ∧
      e = newBell (.segment (n + i)) k (startAt t l i) g.seg.quiet := by
  induction l generalizing n t with
  | nil => simp [segmentBells]
  | cons g l ih =>
    have rest := ih (n + 1) (t + g.len)
    simp only [Nat.add_assoc n 1, Nat.add_comm 1] at rest
    rw [exists_segment_cons t g l fun i f start => ∃ k : BellKind, startKind f.seg.bell = some k ∧
      e = newBell (.segment (n + i)) k start f.seg.quiet, segmentBells]
    simp only [Nat.add_zero, ← rest]
    cases hk : startKind g.seg.bell <;> simp

theorem segmentBells_sources (n t : Nat) (l : List SegIF) :
    ((segmentBells n t l).map (·.source)).Sublist ((List.range' n l.length).map .segment) := by
  induction l generalizing n t with
  | nil => exact .refl _
  | cons g l ih =>
    rw [List.length_cons, List.range'_succ, List.map_cons, segmentBells]
    split
    · exact (ih _ _).cons_cons _
    · exact (ih _ _).cons _

theorem mem_warningBell (e : BellEvent) (p : PlanIF) (d : Nat) :
    e ∈ warningBell p d ↔ ∃ m : Nat, sessionPoint p d .am = some m ∧ 1 ≤ p.warning ∧ p.warning ≤ m ∧
      e = newBell .warning .warning (m - p.warning) (quietAt (m - p.warning) (dayStart p d) p.segs) := by
  unfold warningBell
  split
  · rename_i t ht
    simp only [ht, Option.some.injEq, exists_eq_left']
    split
    · rename_i hw
      simp_all
    · rename_i hw
      simp only [Bool.and_eq_true, decide_eq_true_eq, not_and] at hw
      simp only [List.not_mem_nil, false_iff]
      exact fun h => hw h.1 h.2.1
  · simp_all

theorem warningBell_sources (p : PlanIF) (d : Nat) : ((warningBell p d).map (·.source)).Sublist [.warning] := by
  unfold warningBell
  split
  · split
    · exact .refl _
    · exact List.nil_sublist _
  · exact List.nil_sublist _

theorem mem_bellsOf (e : BellEvent) (p : PlanIF) (d : Nat) :
    e ∈ bellsOf p d ↔ e ∈ segmentBells 0 (dayStart p d) p.segs ∨ e ∈ warningBell p d ∨ e = endBell p d := by
  simp [bellsOf, mem_sortBells]

theorem bellsOf_sources_nodup (p : PlanIF) (d : Nat) : ((bellsOf p d).map (·.source)).Nodup := by
  rw [bellsOf, ((sortBells_perm _).map _).nodup_iff, List.map_append, List.map_append]
  have all : ((List.range' 0 p.segs.length).map BellSource.segment ++ [BellSource.warning] ++ [BellSource.dayEnd]).Nodup := by
    have segments : ((List.range' 0 p.segs.length).map BellSource.segment).Nodup :=
      List.Nodup.map (fun _ _ h => BellSource.segment.inj h) List.nodup_range'
    simp [List.nodup_append, segments]
  exact all.sublist (((segmentBells_sources ..).append (warningBell_sources p d)).append (.refl _))

end Sys2Proof.Machine
end

