-- ==== Sys2Proof/Proofs/BellLists.lean ====
section
/-! CLAIM. What a zone's bell list holds (R43 to R45), and how its events come due (R47). -/

namespace Sys2Proof.Machine

/-! ## A publication (R43) -/

section
variable (p : PlanIF) (d : Nat)

theorem segmentBell_iff (e : BellEvent) (n time : Nat) (g : SegIF) :
    (∃ k : BellKind, startKind g.seg.bell = some k ∧ e = newBell (.segment n) k time g.seg.quiet) ↔
      (g.seg.bell = .start ∧ e.made (.segment n) .start time (g.seg.quiet = true)) ∨
        (g.seg.bell = .change ∧ e.made (.segment n) .change time (g.seg.quiet = true)) := by
  simp only [← eq_newBell_iff e _ _ _ Iff.rfl]
  cases g.seg.bell <;> simp [startKind]

theorem eq_endBell_iff (e : BellEvent) : e = endBell p d ↔
    e.made .dayEnd .dayEnd (startAt (dayStart p d) p.segs p.segs.length)
      (∃ g : SegIF, p.segs.getLast? = some g ∧ g.seg.quiet = true) := by
  have quiet : p.segs.getLast?.any (·.seg.quiet) = true ↔ ∃ g : SegIF, p.segs.getLast? = some g ∧ g.seg.quiet = true := by
    cases p.segs.getLast? <;> simp
  have ends : startAt (dayStart p d) p.segs p.segs.length = dayEndOf p d := by simp [startAt, dayEndOf, planLength]
  rw [← eq_newBell_iff e _ _ _ quiet, ends, endBell]

theorem mem_bellsOf_iff (e : BellEvent) : e ∈ bellsOf p d ↔
    (∃ (n : Nat) (g : SegIF), p.segs[n]? = some g ∧
      ((g.seg.bell = .start ∧ e.made (.segment n) .start (startAt (dayStart p d) p.segs n) (g.seg.quiet = true)) ∨
        (g.seg.bell = .change ∧ e.made (.segment n) .change (startAt (dayStart p d) p.segs n) (g.seg.quiet = true)))) ∨
    (∃ m : Nat, sessionPoint p d .am = some m ∧ 1 ≤ p.warning ∧ p.warning ≤ m ∧
      e.made .warning .warning (m - p.warning) (∃ (n : Nat) (g : SegIF), p.segs[n]? = some g ∧
        startAt (dayStart p d) p.segs n ≤ m - p.warning ∧ m - p.warning < startAt (dayStart p d) p.segs n + g.len ∧
        g.seg.quiet = true)) ∨
    e.made .dayEnd .dayEnd (startAt (dayStart p d) p.segs p.segs.length)
      (∃ g : SegIF, p.segs.getLast? = some g ∧ g.seg.quiet = true) := by
  simp only [mem_bellsOf, mem_segmentBells, mem_warningBell, Nat.zero_add, segmentBell_iff, eq_newBell_iff e _ _ _ (quietAt_iff ..),
    eq_endBell_iff]

end

/-! ## The lists of DAY OPEN and of a republication (R44, R45) -/

section
variable {s : State} {z i : Fin 4} {p : PlanIF}

theorem zonePublication_of_plan (ht : (s.set.zones.get z).track = some i) (hp : (s.plan.tracks.get i).plan = some p) :
    s.zonePublication z = bellsOf p (s.plan.tracks.get i).delay := by
  simp only [State.zonePublication, ht, State.published, State.track, hp, Option.map_some]

theorem zonePublication_none (h : (s.set.zones.get z).track = none ∨
    ∃ i : Fin 4, (s.set.zones.get z).track = some i ∧ (s.plan.tracks.get i).plan = none) : s.zonePublication z = [] := by
  rcases h with ht | ⟨i, ht, hp⟩
  · simp only [State.zonePublication, ht]
  · simp only [State.zonePublication, ht, State.published, State.track, hp, Option.map_none]

theorem rebuildBells_zone (s : State) (z : Fin 4) :
    s.rebuildBells.bells.get z = rebuildList s.clock.secs (s.zonePublication z) (s.bells.get z) := Quad.get_mapIdx _ _ z

theorem recomputeBells_other (h : (s.set.zones.get z).track ≠ some i) : (s.recomputeBells i).bells.get z = s.bells.get z :=
  (Quad.get_mapIdx _ _ z).trans (if_neg h)

theorem recomputeBells_zone (h : (s.set.zones.get z).track = some i) :
    (s.recomputeBells i).bells.get z = recomputeList s.clock.secs (s.zonePublication z) (s.bells.get z) :=
  (Quad.get_mapIdx _ _ z).trans (if_pos h)

end

theorem keepRing_of_not_event {a : ZoneAct} (h : ∀ (src : BellSource) (k : BellKind), a ≠ .ringing (.event src k)) : keepRing a = a := by
  unfold keepRing
  split
  · exact absurd rfl (h _ _)
  · rfl

/-- The event counts as reached: a republication keeps it. -/
theorem bellReached_iff (e : BellEvent) :
    bellReached e = true ↔ e.outcome ≠ .pending ∧ (e.outcome = .suppressed → e.passed = true) := by
  unfold bellReached
  split <;> simp_all

@[simp] theorem skipPast_source (secs : Nat) (e : BellEvent) : (skipPast secs e).source = e.source := by
  rw [skipPast_eq]
  split
  · rfl
  · split <;> rfl

section
variable (secs : Nat) (fresh : List BellEvent) (x : Zone)

theorem mem_recomputeList (e : BellEvent) : e ∈ (recomputeList secs fresh x).list ↔ (e ∈ x.list ∧ bellReached e = true) ∨
    ∃ f ∈ fresh, (∀ g ∈ x.list, bellReached g = true → g.source ≠ f.source) ∧ e = skipPast secs f := by
  simp [recomputeList, mem_sortBells, and_assoc, @eq_comm _ e]

theorem recomputeList_times : (recomputeList secs fresh x).list.Pairwise (fun a b => a.time ≤ b.time) :=
  (sortBells_ordered _).imp fun h => by
    unfold bellLe at h
    omega

variable {fresh x}

/-- No source stands twice: the fresh events take only the sources that no reached event has. -/
theorem recomputeList_sources_nodup (hf : (fresh.map (·.source)).Nodup) (hx : (x.list.map (·.source)).Nodup) :
    ((recomputeList secs fresh x).list.map (·.source)).Nodup := by
  rw [recomputeList, ((sortBells_perm _).map _).nodup_iff, List.map_append, List.map_map, List.nodup_append]
  refine ⟨hx.sublist (List.filter_sublist.map _), ?_, ?_⟩
  · have sources : (BellEvent.source ∘ skipPast secs) = BellEvent.source := funext (skipPast_source secs)
    rw [sources]
    exact hf.sublist (List.filter_sublist.map _)
  · rintro src hk _ hn rfl
    obtain ⟨g, hg, rfl⟩ := List.mem_map.mp hk
    obtain ⟨f, hf, hfg⟩ := List.mem_map.mp hn
    have free : ∀ g ∈ x.list.filter bellReached, g.source ≠ f.source := by simpa using (List.mem_filter.mp hf).2
    exact free g hg ((skipPast_source secs f).symm.trans hfg).symm

end

/-! ## An event comes due (R47) -/

section
variable {c : ZoneCfg} {secs : Nat} {x : Zone} {a b : List BellEvent} {e : BellEvent}

/-- The first event of its source, PENDING, is the one that comes due. -/
theorem find_pending (hl : x.list = a ++ e :: b) (ha : ∀ f ∈ a, f.source ≠ e.source) (he : e.outcome = .pending) :
    x.list.find? (fun f => f.source == e.source && f.outcome == .pending) = some e := by
  rw [hl]
  exact find_source (secs := e.time * 60) ha ((BellEvent.dueAt_iff ..).mpr ⟨he, Nat.le_refl _⟩)

theorem bellDue_pending_idle (hl : x.list = a ++ e :: b) (ha : ∀ f ∈ a, f.source ≠ e.source) (he : e.outcome = .pending)
    (hact : x.act = .idle) :
    bellDue c secs e.source x = (startRing c (.event e.source e.kind)
      { x with list := a ++ { e with outcome := .ringing, ringStart := some secs } :: b }, []) := by
  simp only [bellDue, find_pending hl ha he, hact, ringEvent_list hl ha]

theorem bellDue_pending_checking (hl : x.list = a ++ e :: b) (ha : ∀ f ∈ a, f.source ≠ e.source) (he : e.outcome = .pending)
    (hact : x.act = .checking) :
    bellDue c secs e.source x = (startRing c (.event e.source e.kind)
      { x with
        lastCheck := some .aborted
        list := a ++ { e with outcome := .ringing, ringStart := some secs } :: b }, [.checkDone]) := by
  have rings := ringEvent_list (c := c) (secs := secs) (z := { x with lastCheck := some .aborted }) hl ha
  simp only [bellDue, find_pending hl ha he, hact]
  exact congrArg (·, [Condition.checkDone]) rings

theorem bellDue_pending_ringing {what : RingWhat} (hl : x.list = a ++ e :: b) (ha : ∀ f ∈ a, f.source ≠ e.source)
    (he : e.outcome = .pending) (hact : x.act = .ringing what) :
    bellDue c secs e.source x = ({ x with list := a ++ { e with outcome := .waiting } :: b }, []) := by
  simp only [bellDue, find_pending hl ha he, hact]
  rw [hl, changeFirst_source _ ha]

theorem bellDue_none {src : BellSource} (h : ∀ e ∈ x.list, e.source = src → e.outcome ≠ .pending) : bellDue c secs src x = (x, []) := by
  have noneDue : x.list.find? (fun e => e.source == src && e.outcome == .pending) = none :=
    List.find?_eq_none.mpr fun e he => by simpa using h e he
  simp only [bellDue, noneDue]

end

/-- BELL EVENT DUE that brings its zone to `y`. -/
theorem bellEventDue_does {s : State} {z : Fin 4} {src : BellSource} {y : Zone} {cs : List Condition}
    (h : bellDue (s.set.zones.get z) s.clock.secs src (s.bells.get z) = (y, cs)) :
    Does (.bellEventDue z src) s (({ s with bells := s.bells.set z y }).raiseAll cs) :=
  onZone_does (f := fun c x => bellDue c s.clock.secs src x) rfl h

/-- Settles O27: the publication's events and their order, the lists that the publications make of it, and the first event of a source
coming due by the zone's activity. -/
theorem bellEventsComeDue : Obligations.BellEventsComeDue := by
  refine ⟨fun p d => ⟨mem_bellsOf_iff p d, sortBells_ordered _, bellsOf_sources_nodup p d⟩, fun s z => ?_, fun s z src => ?_⟩
  · intro x past track plan
    have hpast : skipPast s.clock.secs = past := funext (skipPast_eq s.clock.secs)
    refine ⟨?_, fun i => ?_⟩
    · intro y
      have hy : y = rebuildList s.clock.secs (s.zonePublication z) x := rebuildBells_zone s z
      rw [hy]
      refine ⟨rfl, fun src k hact => ?_, fun hact => keepRing_of_not_event hact, fun hno => ?_, fun i p ht hp => ?_⟩
      · simp only [rebuildList, hact, keepRing]
      · simp only [rebuildList, zonePublication_none hno, List.map_nil]
      · simp only [rebuildList, zonePublication_of_plan ht hp, hpast]
    · intro y done
      refine ⟨recomputeBells_other, fun p ht hp => ?_⟩
      have hy : y = recomputeList s.clock.secs (bellsOf p (s.plan.tracks.get i).delay) x := by
        rw [← zonePublication_of_plan ht hp]
        exact recomputeBells_zone ht
      rw [hy]
      refine ⟨rfl, fun e => ?_, recomputeList_times .., recomputeList_sources_nodup _ (bellsOf_sources_nodup ..)⟩
      simp only [mem_recomputeList, bellReached_iff, hpast, done]
  · intro x c
    refine ⟨fun a b e hl hsrc he ha => ?_, fun hno => onZone_idles (f := fun c x => bellDue c s.clock.secs src x) rfl (bellDue_none hno)⟩
    subst hsrc
    intro time rung
    refine ⟨fun hact => ?_, fun hact => ?_, fun what hact => bellEventDue_does (bellDue_pending_ringing hl ha he hact)⟩
    · exact bellEventDue_does (bellDue_pending_idle hl ha he hact)
    · exact bellEventDue_does (bellDue_pending_checking hl ha he hact)

end Sys2Proof.Machine
end

