-- ==== Sys2Proof/Proofs/StationLines.lean ====
section
/-! SUPPORT. A station among the six, its SHOW records (R72), what an enabled and a disabled line do with what they receive
(R60, R76), and the four bytes of an ARRIVAL record's code (section 12.3). -/

namespace Sys2Proof.Machine

/-! ## One station among the six -/

@[simp] theorem Hex.get_set_self {α : Type} (q : Hex α) (i : Fin 6) (a : α) : (q.set i a).get i = a := by
  match i with
  | 0 => rfl
  | 1 => rfl
  | 2 => rfl
  | 3 => rfl
  | 4 => rfl
  | 5 => rfl

@[simp] theorem Hex.set_set {α : Type} (q : Hex α) (i : Fin 6) (a b : α) : (q.set i a).set i b = q.set i b := by
  match i with
  | 0 => rfl
  | 1 => rfl
  | 2 => rfl
  | 3 => rfl
  | 4 => rfl
  | 5 => rfl

@[simp] theorem State.station_setStation_self (s : State) (n : Fin 6) (x : Station) : (s.setStation n x).station n = x :=
  Hex.get_set_self s.stations n x

@[simp] theorem State.setStation_setStation (s : State) (n : Fin 6) (x y : Station) :
    (s.setStation n x).setStation n y = s.setStation n y := by
  rw [State.setStation, State.setStation, State.setStation, Hex.set_set]

/-! ## SHOW records (R72) -/

section
variable {x : Station} {r : Show}

theorem Station.show_free (h : x.sending = none) : x.show r = { x with sending := some r } := by
  rw [Station.show, h]

theorem Station.show_waits (h : x.sending ≠ none) (hl : x.out.length < 4) : x.show r = { x with out := x.out ++ [r] } := by
  unfold Station.show
  split
  · exact absurd ‹_› h
  · exact if_pos hl

theorem Station.show_dropped (h : x.sending ≠ none) (hl : 4 ≤ x.out.length) :
    x.show r = { x with cnt.showDropped := min (x.cnt.showDropped + 1) 4294967295 } := by
  unfold Station.show
  split
  · exact absurd ‹_› h
  · exact if_neg (Nat.not_lt.mpr hl)

end

/-- A SHOW record leaves the holding queue. -/
@[simp] theorem Station.show_queue (x : Station) (r : Show) : (x.show r).queue = x.queue := by
  unfold Station.show
  split
  · rfl
  · split <;> rfl

/-! ## What a line does with what it receives (R60, R76) -/

section
variable {s t : State} {n : Fin 6} {i : Instr} {f : State → State}

/-- The classifier takes nothing from a station: it is busy, or the holding queue is empty. -/
def State.takesNone (s : State) (n : Fin 6) : Prop := s.desk.cur.isSome = true ∨ (s.station n).queue = []

theorem gainWork_takesNone (h : s.takesNone n) : s.gainWork (.station n) = s := by
  unfold State.gainWork
  split
  · rename_i hidle
    have hempty : (s.station n).queue = [] := h.resolve_left (by simp [hidle])
    simp [State.hasWork, hempty]
  · rfl

/-- A disabled line ignores what it receives (R60). -/
theorem onLine_disabled (hi : exec i s = run s (s.onLine n f)) (h : (s.set.stations.get n).enabled = false) : Does i s s := by
  rw [Does, hi, State.onLine, State.stationOn, h]
  rfl

/-- What an enabled line does, and the classifier takes nothing after. -/
theorem onLine_does (hi : exec i s = run s (s.onLine n f)) (h : (s.set.stations.get n).enabled = true) (hf : f s = t)
    (ht : t.takesNone n) : Does i s t := by
  rw [Does, hi, State.onLine, State.stationOn, if_pos h, hf, gainWork_takesNone ht]
  rfl

/-- A change of the station that keeps its holding queue gives the classifier no work. -/
theorem takesNone_setStation {y : Station} (h : s.takesNone n) (hy : y.queue = (s.station n).queue) :
    (s.setStation n y).takesNone n := by
  refine h.imp id fun hempty => ?_
  rw [State.station_setStation_self, hy, hempty]

end

/-! ## The fields of an ARRIVAL record (R64, section 12.3) -/

theorem num_b4 {n : Nat} (h : n < 4294967296) : num (b4 n) = n := by
  simp only [num, b4, List.foldl_cons, List.foldl_nil, BitVec.toNat_ofNat]
  omega

theorem ofNat_byte_of_mod {n : Nat} {c : Byte} (h : n % 256 = c.toNat) : BitVec.ofNat 8 n = c :=
  BitVec.eq_of_toNat_eq ((BitVec.toNat_ofNat n 8).trans h)

theorem b4_num (c0 c1 c2 c3 : Byte) :
    b4 (c0.toNat * 16777216 + c1.toNat * 65536 + c2.toNat * 256 + c3.toNat) = [c0, c1, c2, c3] := by
  have h0 := c0.isLt
  have h1 := c1.isLt
  have h2 := c2.isLt
  have h3 := c3.isLt
  rw [b4, ofNat_byte_of_mod (c := c0) (by omega), ofNat_byte_of_mod (c := c1) (by omega), ofNat_byte_of_mod (c := c2) (by omega),
    ofNat_byte_of_mod (c := c3) (by omega)]

theorem highBytes_zero_iff {code : Nat} (h : code < 4294967296) :
    (BitVec.ofNat 8 (code / 16777216) = 0 ∧ BitVec.ofNat 8 (code / 65536) = 0) ↔ code < 65536 := by
  have hzero : (0 : Byte).toNat = 0 := rfl
  simp only [← BitVec.toNat_inj, BitVec.toNat_ofNat, hzero]
  omega

end Sys2Proof.Machine
end

