-- ==== Sys2Proof/Proofs/StationRequests.lean ====
section
/-! CLAIM. The divisor of a target rate (R59) and STATION RESUME (R71). -/

namespace Sys2Proof.Machine

/-! ## The divisor of a target rate (R59) -/

/-- The whole number nearest to 115,200 / target, a half taken upward. -/
theorem nearest_eq_iff {target m : Nat} (ht : 0 < target) :
    (2 * 115200 + target) / (2 * target) = m ↔
      (2 * m) * target ≤ 2 * 115200 + target ∧ 2 * 115200 + target < (2 * m + 2) * target := by
  have hlow : m * (2 * target) = 2 * m * target := by ring
  have hhigh : (2 * m + 2) * target = 2 * m * target + 2 * target := by ring
  rw [Nat.div_eq_iff (by omega), hlow, hhigh]
  omega

/-- R59: a divisor is one less than the nearest whole number, and is given where its rate errs by 2.0 % at most. -/
theorem divisorFor_eq_some_iff {target n : Nat} :
    divisorFor target = some n ↔
      0 < target ∧ target ≤ 230400 ∧ n ≤ 255 ∧ (2 * 115200 + target) / (2 * target) = n + 1 ∧
        50 * ((115200 - target * (n + 1)) + (target * (n + 1) - 115200)) ≤ target * (n + 1) := by
  unfold divisorFor
  generalize (2 * 115200 + target) / (2 * target) = nearest
  dsimp only
  split_ifs with hrange hdivisor herror
  · simp only [false_iff]
    omega
  · simp only [false_iff]
    omega
  · simp only [false_iff]
    rintro ⟨-, -, -, rfl, hfits⟩
    omega
  · simp only [Option.some.injEq]
    constructor
    · rintro rfl
      rw [Nat.sub_add_cancel (by omega)]
      omega
    · omega

/-! ## STATION RESUME (R71) -/

section
variable {s : State} {tag : Nat}

theorem stationResume_answers (h : s.ready) {station : Nat} {f : State → State} {code : Code} {body : List Byte}
    (e : reqStationResume station (s.inHand 0x20 tag) = (f (s.inHand 0x20 tag), ⟨code, body⟩))
    (hf : (f (s.inHand 0x20 tag)).link.hand = some ⟨tag, 0x20, false⟩) :
    Answers (.stationResume tag station) s 0x20 tag f code body :=
  answers_of_handle h rfl rfl (by decide) (congrArg answered e) hf

theorem reqStationResume_badArg (s : State) {station : Nat} (hn : station = 0 ∨ 6 < station) :
    reqStationResume station s = s.refuse .badArg := by
  simp only [reqStationResume, station?_none hn]

theorem reqStationResume_disabled {n : Fin 6} (he : (s.set.stations.get n).enabled = false) :
    reqStationResume (n.val + 1) s = s.refuse .state := by
  simp only [reqStationResume, station?_val, State.stationOn, he, Bool.false_eq_true, if_false]

theorem reqStationResume_enabled {n : Fin 6} (he : (s.set.stations.get n).enabled = true) :
    reqStationResume (n.val + 1) s = (s.setStation n (s.station n).resume, Reply.ok (b1 (s.station n).queue.length)) := by
  simp only [reqStationResume, station?_val, State.stationOn, he, if_true]

end

/-- Settles O31: the nearest whole number is a quotient by twice the target, and an entry without a divisor is refused. -/
theorem divisorOfATargetRate : Obligations.DivisorOfATargetRate := by
  refine ⟨fun target n => ?_, fun s k l h => (writeStation_spec s k l).1 (.inr h)⟩
  rw [divisorFor_eq_some_iff]
  constructor
  · rintro ⟨hpos, htop, hn, hnearest, herror⟩
    obtain ⟨hlow, hhigh⟩ := (nearest_eq_iff hpos).mp hnearest
    exact ⟨hpos, htop, hn, hlow, hhigh, herror⟩
  · rintro ⟨hpos, htop, hn, hlow, hhigh, herror⟩
    exact ⟨hpos, htop, hn, (nearest_eq_iff hpos).mpr ⟨hlow, hhigh⟩, herror⟩

/-- Settles O34: a station outside 1 to 6, a disabled and an enabled one. -/
theorem stationResumeClearsTheQueue : Obligations.StationResumeClearsTheQueue := by
  intro s tag station h
  refine ⟨fun hn => stationResume_answers h (reqStationResume_badArg _ hn) rfl, fun n hn => ?_⟩
  subst hn
  intro x discard y z
  refine ⟨fun he => ?_, fun he => ?_⟩
  · exact stationResume_answers h (reqStationResume_disabled (s := s.inHand 0x20 tag) he) rfl
  · have hresumed : reqStationResume (n.val + 1) (s.inHand 0x20 tag) =
        ((s.inHand 0x20 tag).setStation n z, ⟨.ok, b1 x.queue.length⟩) :=
      reqStationResume_enabled (s := s.inHand 0x20 tag) he
    exact stationResume_answers (f := fun u => u.setStation n z) h hresumed rfl

end Sys2Proof.Machine
end

