-- ==== Sys2Proof/Proofs/StationArrivals.lean ====
section
/-! CLAIM. A complete ARRIVAL record: checked, held, an overrun, dropped, or taken in the same event (R64 to R67, R70, R76). -/

namespace Sys2Proof.Machine

/-! ## A record is checked (R64) -/

/-- A record is well-formed: its characters sum to 0, and it carries a badge code or a short code of two bytes (R64). -/
def wellFormedArrival (kind seq : Byte) (code : Nat) (check : Byte) : Prop :=
  sum256 (kind :: seq :: b4 code ++ [check]) = 0 ∧ (kind = 0x01#8 ∨ (kind = 0x02#8 ∧ code < 65536))

section
variable {now : Stamp} {kind seq check : Byte} {code : Nat} (hc : code < 4294967296)
include hc

theorem parseArrival_wellFormed (h : wellFormedArrival kind seq code check) :
    parseArrival now (arrivalBytes kind seq code check) = some ⟨seq.toNat, kind == 0x02#8, code, now.secs, now.date⟩ := by
  obtain ⟨hsum, hkind⟩ := h
  refine (if_neg (not_not.mpr hsum)).trans ?_
  rcases hkind with rfl | ⟨rfl, hlow⟩
  · refine (if_pos rfl).trans ?_
    rw [show num [_, _, _, _] = code from num_b4 hc]
    rfl
  · refine (if_neg (by decide)).trans ((if_pos ⟨rfl, (highBytes_zero_iff hc).mpr hlow⟩).trans ?_)
    rw [show num [_, _] = code from num_b2 hlow]
    rfl

theorem parseArrival_bad (h : ¬ wellFormedArrival kind seq code check) :
    parseArrival now (arrivalBytes kind seq code check) = none := by
  by_cases hsum : sum256 (kind :: seq :: b4 code ++ [check]) = 0
  · have hbadge : kind ≠ 0x01#8 := fun hk => h ⟨hsum, .inl hk⟩
    have hshort : ¬ (kind = 0x02#8 ∧ BitVec.ofNat 8 (code / 16777216) = 0 ∧ BitVec.ofNat 8 (code / 65536) = 0) :=
      fun hk => h ⟨hsum, .inr ⟨hk.1, (highBytes_zero_iff hc).mp hk.2⟩⟩
    exact (if_neg (not_not.mpr hsum)).trans ((if_neg hbadge).trans (if_neg hshort))
  · exact if_pos hsum

end

/-! ## A record is complete (R64 to R67) -/

section
variable {s : State} {n : Fin 6} {x : Station} {a : Arrival}

/-- R67: in HELD the record is dropped. -/
theorem goodArrival_held (h : x.held = true) :
    (s.setStation n x).goodArrival n a =
      (s.setStation n (Station.show
        { x with
          cnt.received := min (x.cnt.received + 1) 4294967295
          cnt.heldDrops := min (x.cnt.heldDrops + 1) 4294967295 } ⟨.wait, some a.sequence, false, [], 0⟩)).deskHeldDrop n := by
  have hheld : ((s.setStation n x).station n).held = true := by rwa [State.station_setStation_self]
  refine (if_pos hheld).trans ?_
  simp only [State.heldDrop, State.station_setStation_self, State.setStation_setStation]
  rfl

/-- R65: in READY the record joins a queue with room. -/
theorem goodArrival_joins (h : x.held = false) (hq : x.queue.length < 2) :
    (s.setStation n x).goodArrival n a =
      s.setStation n { x with queue := x.queue ++ [a], cnt.received := min (x.cnt.received + 1) 4294967295 } := by
  have hready : ¬ ((s.setStation n x).station n).held = true := by simp [h]
  have hroom : ((s.setStation n x).station n).queue.length < Config.holdingMax := by rwa [State.station_setStation_self]
  refine (if_neg hready).trans ((if_pos hroom).trans ?_)
  simp only [State.holdRecord, State.station_setStation_self, State.setStation_setStation]
  rfl

/-- R66: in READY with a full queue the record is an overrun. -/
theorem goodArrival_overrun (h : x.held = false) (hq : 2 ≤ x.queue.length) :
    (s.setStation n x).goodArrival n a =
      ((s.setStation n (Station.show
        { x with
          held := true
          holdOff := (s.set.stations.get n).holdOff
          cnt.received := min (x.cnt.received + 1) 4294967295
          cnt.overruns := min (x.cnt.overruns + 1) 4294967295 } ⟨.wait, some a.sequence, false, [], 0⟩)).deskOverrun n).raise
        .stationHeld := by
  have hready : ¬ ((s.setStation n x).station n).held = true := by simp [h]
  have hfull : ¬ ((s.setStation n x).station n).queue.length < Config.holdingMax := by
    rw [State.station_setStation_self]
    exact Nat.not_lt.mpr hq
  refine (if_neg hready).trans ((if_neg hfull).trans ?_)
  simp only [State.overrun, State.station_setStation_self, State.setStation_setStation]
  rfl

variable {kind seq check : Byte} {code : Nat} (hc : code < 4294967296)
include hc

theorem arrivalComplete_wellFormed (h : wellFormedArrival kind seq code check) :
    s.arrivalComplete n (arrivalBytes kind seq code check) =
      (s.setStation n (s.station n).clearAsm).goodArrival n ⟨seq.toNat, kind == 0x02#8, code, s.clock.secs, s.clock.date⟩ := by
  simp only [State.arrivalComplete, parseArrival_wellFormed hc h]
  rfl

/-- R64: a bad record is counted and answered. -/
theorem arrivalComplete_bad (h : ¬ wellFormedArrival kind seq code check) :
    s.arrivalComplete n (arrivalBytes kind seq code check) =
      s.setStation n (Station.retry
        { (s.station n).clearAsm with cnt.bad := min ((s.station n).cnt.bad + 1) 4294967295 } (some seq.toNat)) := by
  simp only [State.arrivalComplete, parseArrival_bad hc h, State.badArrival, State.station_setStation_self,
    State.setStation_setStation]
  rfl

end

/-- R70: a READY line gives up its head record to the classifier. -/
theorem takeFrom_ready {s : State} {n : Fin 6} {x : Station} {a : Arrival} {rest : List Arrival} (hq : x.queue = a :: rest)
    (hh : x.held = false) :
    (s.setStation n x).takeFrom (.station n) =
      { s with
        stations := s.stations.set n { x with queue := rest, cnt.taken := min (x.cnt.taken + 1) 4294967295 }
        desk.cur := some (.station n a)
        desk.pointer := n.val + 1
        desk.stats.stations := s.desk.stats.stations.set n
          { s.desk.stats.stations.get n with taken := min ((s.desk.stats.stations.get n).taken + 1) 4294967295 } } := by
  have hready : Station.settle { x.count fun c => { c with taken := inc32 c.taken } with queue := rest } =
      { x.count fun c => { c with taken := inc32 c.taken } with queue := rest } := by
    simp [Station.settle, Station.count, hh]
  simp only [State.takeFrom, State.station_setStation_self, State.setStation_setStation, hq, hready]
  rfl

/-- What leaves an enabled line READY with work, while the classifier is IDLE, has its head record taken in the same event. -/
theorem onLine_takes {i : Instr} {s : State} {n : Fin 6} {f : State → State} {x : Station} {a : Arrival} {rest : List Arrival}
    (hi : exec i s = run s (s.onLine n f)) (h : (s.set.stations.get n).enabled = true) (hf : f s = s.setStation n x)
    (hidle : s.desk.cur = none) (hq : x.queue = a :: rest) (hh : x.held = false) :
    Does i s
      { s with
        stations := s.stations.set n { x with queue := rest, cnt.taken := min (x.cnt.taken + 1) 4294967295 }
        desk.cur := some (.station n a)
        desk.pointer := n.val + 1
        desk.stats.stations := s.desk.stats.stations.set n
          { s.desk.stats.stations.get n with taken := min ((s.desk.stats.stations.get n).taken + 1) 4294967295 } } := by
  have hwork : (s.setStation n x).hasWork (.station n) = true := by simp [State.hasWork, hq]
  rw [← takeFrom_ready hq hh, Does, hi, State.onLine, State.stationOn, if_pos h, hf, State.gainWork, State.setStation_desk, hidle]
  exact congrArg (run s) (if_pos hwork)

/-- Settles O32, by whether the record is well-formed, and whether the line is READY with room, READY and full, or HELD. -/
theorem arrivalRecordsAreTaken : Obligations.ArrivalRecordsAreTaken := by
  refine ⟨fun s n kind seq check code hc => ?_, fun s n kind seq check code hc he hidle hq hh hsum hkind => ?_⟩
  · intro c x good a busy cfg answer
    refine ⟨fun he => ?_, fun he hbad hno => ?_, fun he hgood hh hq hb => ?_, fun he hgood hh hq hb => ?_,
      fun he hgood hh hno => ?_⟩
    · exact onLine_disabled rfl he
    · refine onLine_does rfl he (arrivalComplete_bad hc hbad) (takesNone_setStation hno ?_)
      exact Station.show_queue _ _
    · exact onLine_does rfl he ((arrivalComplete_wellFormed hc hgood).trans (goodArrival_joins hh hq)) (.inl hb)
    · exact onLine_does rfl he ((arrivalComplete_wellFormed hc hgood).trans (goodArrival_overrun hh hq)) (.inl hb)
    · refine onLine_does rfl he ((arrivalComplete_wellFormed hc hgood).trans (goodArrival_held hh))
        (takesNone_setStation (s := s) hno ?_)
      exact Station.show_queue _ _
  · intro x y q
    have hroom : x.queue.length < 2 := by simp [x, hq]
    have hhead (a : Arrival) : x.queue ++ [a] = a :: x.queue := by simp [x, hq]
    have hjoin := (arrivalComplete_wellFormed hc ⟨hsum, hkind⟩).trans (goodArrival_joins (s := s) (n := n) hh hroom)
    have htake := onLine_takes (i := .arrivalRecord n kind seq code check) rfl he hjoin hidle (hhead _) hh
    exact htake

end Sys2Proof.Machine
end

