-- ==== Sys2Proof/Proofs/StationCharacters.lean ====
section
/-! CLAIM. The characters of a station line, its hold-off and its SHOW records (R62 to R64, R68, R69, R72). -/

namespace Sys2Proof.Machine

/-! ## Characters (R62 to R64) -/

section
variable {s : State} {n : Fin 6} {c : Byte}

theorem stationChar_begins (h : (s.station n).asm = none) (hc : c = 0xE1#8) :
    s.stationChar n c = s.setStation n { s.station n with asm := some [c], gap := 0 } := by
  simp only [State.stationChar, h]
  exact if_pos hc

theorem stationChar_stray (h : (s.station n).asm = none) (hc : c ≠ 0xE1#8) :
    s.stationChar n c =
      s.setStation n { s.station n with cnt.strays := min ((s.station n).cnt.strays + 1) 4294967295 } := by
  unfold State.stationChar
  dsimp only
  split
  · exact if_neg hc
  · cases h.symm.trans ‹_›

theorem stationChar_kept {l : List Byte} (h : (s.station n).asm = some l) (hl : l.length < 7) :
    s.stationChar n c = s.setStation n { s.station n with asm := some (l ++ [c]), gap := 0 } := by
  have hshort : (l ++ [c]).length < 8 := by
    rw [List.length_append]
    exact Nat.succ_lt_succ hl
  simp only [State.stationChar, h, if_pos hshort]

/-- R64: the seventh character after the start marker completes the record. -/
theorem stationChar_completes {m : Byte} {l : List Byte} (h : (s.station n).asm = some (m :: l)) (hl : l.length = 6) :
    s.stationChar n c = s.arrivalComplete n (l ++ [c]) := by
  have hwhole : ¬ (m :: l ++ [c]).length < 8 := by simp [hl]
  simp only [State.stationChar, h, if_neg hwhole]
  rfl

/-- R62, R64: the characters of a whole record are those of its kind, sequence, code and check. -/
theorem stationChar_record {m kind seq c0 c1 c2 c3 : Byte} (h : (s.station n).asm = some [m, kind, seq, c0, c1, c2, c3]) :
    s.stationChar n c = s.arrivalComplete n (arrivalBytes kind seq
      (c0.toNat * 16777216 + c1.toNat * 65536 + c2.toNat * 256 + c3.toNat) c) := by
  rw [arrivalBytes, b4_num]
  exact stationChar_completes h rfl

theorem recordAbandoned_underAssembly {l : List Byte} (h : (s.station n).asm = some l) :
    s.recordAbandoned n = s.setStation n (s.station n).abandon := by
  simp only [State.recordAbandoned, h]

/-- A command that works on one station alone. -/
theorem setStation_does {i : Instr} {x y : Station} (hi : exec i s = run s (s.setStation n x)) (hy : x = y) :
    Does i s (s.setStation n y) := by
  rw [Does, hi, hy]
  rfl

end

/-! ## Hold-offs and SHOW records (R68, R69, R72) -/

section
variable {x : Station}

theorem Station.holdReached_frees (h : 0 < x.holdOff) (hh : x.held = true) (hq : x.queue = []) :
    x.holdReached = Station.show { x with holdOff := 0, held := false } ⟨.ready, none, false, [], 0⟩ := by
  rw [Station.holdReached, if_pos h]
  exact if_pos (by simp [hh, hq])

theorem Station.holdReached_stays (h : 0 < x.holdOff) (hq : x.queue ≠ []) : x.holdReached = { x with holdOff := 0 } := by
  rw [Station.holdReached, if_pos h]
  exact if_neg (by simp [hq])

/-- R72: the record being sent is counted, and the next begins. -/
theorem Station.showSent_sending {r : Show} (h : x.sending = some r) :
    x.showSent = { x with
      sending := x.out.head?
      out := x.out.tail
      cnt.showSent := min (x.cnt.showSent + 1) 4294967295 } := by
  simp only [Station.showSent, h]
  rfl

end

/-- Settles O33: each character, hold-off and SHOW record by what it finds on the line. -/
theorem stationCharactersAndShows : Obligations.StationCharactersAndShows := by
  refine ⟨fun s n c => ?_, fun s n => ?_, fun x r => ⟨Station.show_free, Station.show_waits, Station.show_dropped⟩⟩
  · intro x on put answer
    refine ⟨fun he => ⟨onLine_disabled rfl he, onLine_disabled rfl he, onLine_disabled rfl he⟩, fun ⟨he, hno⟩ ha hc => ?_,
      fun ⟨he, hno⟩ ha hc => ?_, fun l ⟨he, hno⟩ ha hl => ?_, fun m kind seq c0 c1 c2 c3 ha => ?_, fun ⟨he, hno⟩ => ?_,
      fun l ⟨he, hno⟩ ha => ?_⟩
    · exact onLine_does rfl he (stationChar_begins ha hc) (takesNone_setStation hno rfl)
    · exact onLine_does rfl he (stationChar_stray ha hc) (takesNone_setStation hno rfl)
    · exact onLine_does rfl he (stationChar_kept ha hl) (takesNone_setStation hno rfl)
    · intro code
      have hline : (s.onLine n fun t => t.stationChar n c) =
          s.onLine n fun t => t.arrivalComplete n (arrivalBytes kind seq code c) := by
        rw [State.onLine, State.onLine, stationChar_record ha]
      exact congrArg (run s) hline
    · refine onLine_does rfl he rfl (takesNone_setStation (s := s) hno ?_)
      exact Station.show_queue _ _
    · refine onLine_does rfl he (recordAbandoned_underAssembly ha) (takesNone_setStation hno ?_)
      exact Station.show_queue _ _
  · intro x put
    refine ⟨fun h hh hq => ?_, fun h hq => ?_, fun r hr => ?_⟩
    · exact setStation_does rfl (Station.holdReached_frees h hh hq)
    · exact setStation_does rfl (Station.holdReached_stays h hq)
    · exact setStation_does rfl (Station.showSent_sending hr)

end Sys2Proof.Machine
end

