-- ==== Sys2Proof/Proofs/Printer.lean ====
section
/-! CLAIM. The printer's states, its stall, and the slip that moves to the slot (R92, R93). -/

namespace Sys2Proof.Machine

/-- A command whose own effect is one operation on the state. -/
theorem does_of_run {i : Instr} {s t u : State} (hi : exec i s = run s t) (ht : t = u) : Does i s u := by
  rw [Does, hi, ht]
  rfl

/-! ## The slip that moves to the slot (R92) -/

section
variable {l : SlipLine} {x : Slip} {rest : List Slip}

theorem SlipLine.fill_stalled (h : l.state = .stalled) :
    l.fill x rest = { l with queue := rest, slot := some x, sentBefore := false } := by
  simp only [SlipLine.fill, h]

theorem SlipLine.fill_ready (h : l.state = .empty) (hr : l.ready = true) :
    l.fill x rest = { l with queue := rest, slot := some x, sentBefore := true, state := .sending, ready := false } := by
  simp only [SlipLine.fill, h, hr, if_true, SlipLine.send]

theorem SlipLine.fill_waits (h : l.state = .empty) (hr : l.ready = false) :
    l.fill x rest = { l with queue := rest, slot := some x, sentBefore := false, state := .waiting, stall := 0 } := by
  simp only [SlipLine.fill, h, hr, Bool.false_eq_true, if_false]

end

section
variable {s : State} {x : Slip} {rest : List Slip}

theorem fillSlot_stays (h : s.slips.slot ≠ none ∨ s.slips.queue = []) : s.fillSlot = s := by
  unfold State.fillSlot
  split
  · rename_i hslot hqueue
    simp [hslot, hqueue] at h
  · rfl

theorem fillSlot_moves (hs : s.slips.slot = none) (hq : s.slips.queue = x :: rest) :
    s.fillSlot = { s with
      slips := s.slips.fill x rest
      desk.stats.slip.taken := min (s.desk.stats.slip.taken + 1) 4294967295 } := by
  simp only [State.fillSlot, hs, hq]
  rfl

/-! ## Reports of the printer (R92, R93) -/

theorem printerReady_empty (h : s.slips.state = .empty) : s.printerReadyReport = { s with slips.ready := true } := by
  simp only [State.printerReadyReport, h]

theorem printerReady_waiting (h : s.slips.state = .waiting) : s.printerReadyReport = { s with slips := s.slips.send } := by
  simp only [State.printerReadyReport, h]

theorem printerReady_sending (h : s.slips.state = .sending) : s.printerReadyReport = s := by
  simp only [State.printerReadyReport, h]

/-- R92: the slip has been printed, and the next is sent at once. -/
theorem printerReady_printing (h : s.slips.state = .printing) :
    s.printerReadyReport = State.fillSlot { s with
      slips.state := .empty
      slips.slot := none
      slips.sentBefore := false
      slips.ready := true
      slips.printed := min (s.slips.printed + 1) 4294967295 } := by
  simp only [State.printerReadyReport, h]
  rfl

theorem printerReady_stalled_slip (h : s.slips.state = .stalled) (hs : s.slips.slot = some x) :
    s.printerReadyReport = { s with
      slips.state := .sending
      slips.ready := true
      slips.sentBefore := true
      slips.resends := if s.slips.sentBefore then min (s.slips.resends + 1) 4294967295 else s.slips.resends } := by
  simp only [State.printerReadyReport, h, hs, SlipLine.send]
  rfl

theorem printerReady_stalled_free (h : s.slips.state = .stalled) (hs : s.slips.slot = none) :
    s.printerReadyReport = State.fillSlot { s with slips.state := .empty, slips.ready := true } := by
  simp only [State.printerReadyReport, h, hs]

theorem slipSent_sending (h : s.slips.state = .sending) : s.slipSent = { s with slips.state := .printing, slips.stall := 0 } := by
  simp only [State.slipSent, h]

theorem paperOut_stalled (h : s.slips.state = .stalled) : s.paperOutReport = { s with slips.ready := false } := by
  simp only [State.paperOutReport, h]

/-- R93: paper out stalls a printer that is not STALLED. -/
theorem paperOut_stalls (h : s.slips.state ≠ .stalled) :
    s.paperOutReport = State.stallPrinter { s with slips.ready := false } := by
  unfold State.paperOutReport
  dsimp only
  split
  · exact absurd ‹_› h
  · rfl

theorem stallCounts_iff (l : SlipLine) :
    stallCounts l = true ↔ (l.state = .waiting ∧ l.ready = false) ∨ l.state = .printing := by
  simp [stallCounts]

end

/-- Settles O40: each report by the printer's state, and the slip that moves to the slot by the slot and the queue. -/
theorem printerStates : Obligations.PrinterStates := by
  intro s l put moved ended
  refine ⟨fun h => does_of_run rfl (printerReady_empty h), fun h => does_of_run rfl (printerReady_waiting h),
    fun h => does_of_run rfl (printerReady_sending h), fun h hq => does_of_run rfl ?_, fun x rest h hq => does_of_run rfl ?_,
    fun x h hs => does_of_run rfl (printerReady_stalled_slip h hs), fun h hs hq => does_of_run rfl ?_,
    fun h => does_of_run rfl (slipSent_sending h), fun h => does_of_run rfl (paperOut_stalls h),
    fun h => does_of_run rfl (paperOut_stalled h), fun h => does_of_run rfl (if_pos ((stallCounts_iff _).mpr h)),
    fillSlot_stays, fun x rest hs hq => ?_⟩
  · exact (printerReady_printing h).trans (fillSlot_stays (.inr hq))
  · refine (printerReady_printing h).trans ((fillSlot_moves (s := put ended) rfl hq).trans ?_)
    rw [SlipLine.fill_ready rfl rfl]
  · exact (printerReady_stalled_free h hs).trans (fillSlot_stays (.inr hq))
  · have moves := fillSlot_moves hs hq
    refine ⟨fun h => ?_, fun h hr => ?_, fun h hr => ?_⟩
    · rw [moves, SlipLine.fill_stalled h]
    · rw [moves, SlipLine.fill_ready h hr]
    · rw [moves, SlipLine.fill_waits h hr]

end Sys2Proof.Machine
end

