-- ==== Sys2Proof/Proofs/DeskReports.lean ====
section
/-! CLAIM. The desk's reports (R79, R94, R96), SLIP REPRINT (R90) and the CALL slip (R91). -/

namespace Sys2Proof.Machine

/-! ## A slip that is made and joins (R88, section 5.5) -/

@[simp] theorem State.fillSlot_link (s : State) : s.fillSlot.link = s.link := by
  unfold State.fillSlot
  split <;> rfl

section
variable {s : State}

/-- R88: a slip takes the next number and joins a queue with room. -/
theorem joinSlip_room (x : Slip) (h : s.slips.queue.length < 64) :
    s.joinSlip x = (State.fillSlot { s with
      slips.queue := s.slips.queue ++ [{ x with number := s.slips.next }]
      slips.next := if 9999 ≤ s.slips.next then 1 else s.slips.next + 1
      slips.queued := min (s.slips.queued + 1) 4294967295
      desk.stats.slipsQueued := min (s.desk.stats.slipsQueued + 1) 4294967295 }, some s.slips.next) :=
  if_pos h

/-- R88: a slip is dropped at 64. -/
theorem joinSlip_full (x : Slip) (h : 64 ≤ s.slips.queue.length) :
    s.joinSlip x = (State.raise { s with
      slips.dropped := min (s.slips.dropped + 1) 4294967295
      desk.stats.slipsDropped := min (s.desk.stats.slipsDropped + 1) 4294967295 } .slipDrop, none) :=
  if_neg (Nat.not_lt.mpr h)

/-- The number that a contact slot gives to a CALL slip: none unless the slot is in use (section 5.5). -/
def State.slotNumber (s : State) (c : Nat) : List Text := if (s.contact c).inUse then [(s.contact c).number] else []

theorem contactNumbers_eq (s : State) (p : Nat) :
    s.contactNumbers p = s.slotNumber (3 * p) ++ s.slotNumber (3 * p + 1) ++ s.slotNumber (3 * p + 2) := by
  have one (i : Nat) (l : List Nat) :
      (i :: l).filterMap (fun i => if (s.contact i).inUse then some (s.contact i).number else none) =
        s.slotNumber i ++ l.filterMap (fun i => if (s.contact i).inUse then some (s.contact i).number else none) := by
    rw [List.filterMap_cons, State.slotNumber]
    cases (s.contact i).inUse <;> rfl
  rw [State.contactNumbers, one, one, one, List.filterMap_nil, List.append_nil, List.append_assoc]

end

/-! ## The requests -/

theorem sessionOf_sessionCode (ss : Session) : sessionOf (sessionCode ss) = some ss := by cases ss <;> rfl

theorem sessionOf_none {n : Nat} (h : 2 ≤ n) : sessionOf n = none := by
  match n, h with
  | n + 2, _ => rfl

theorem pupilOk_iff (p : Nat) : pupilOk p = true ↔ p < 2400 := decide_eq_true_iff

theorem flagOf_none {n : Nat} (h : 2 ≤ n) : flagOf n = none := by
  match n, h with
  | n + 2, _ => rfl

section
variable {s : State} {tag : Nat}

/-- DESK STATISTICS by its flag (R96). -/
theorem deskStatistics_answers (h : s.ready) {clear : Nat} {c : Bool} (hc : flagOf clear = some c) :
    Answers (.deskStatistics tag clear) s 0x26 tag (fun u => if c then u.clearDeskStats else u) .ok
      (bStamp s.desk.stats.since ++ bStamp s.clock.stamp ++ s.desk.stats.bytes) := by
  refine answers_of_handle h rfl rfl (by decide) ?_ ?_
  · simp only [handle, reqDeskStatistics, hc]
    rfl
  · cases c <;> rfl

theorem deskStatistics_badArg (h : s.ready) {clear : Nat} (hc : 2 ≤ clear) :
    Refuses (.deskStatistics tag clear) s 0x26 tag .badArg := by
  refine answers_of_handle h rfl rfl (by decide) ?_ rfl
  simp only [handle, reqDeskStatistics, flagOf_none hc]
  rfl

variable {p : Nat} {ss : Session}

/-- The COPY slip of a record (R90), before it takes its number. -/
def State.copySlip (s : State) (p : Nat) (ss : Session) (t : Nat) : Slip :=
  s.makeSlip .copy p ss (.lateness t (s.record p ss).mark (s.record p ss).minutes (s.record p ss).expected)

theorem reqSlipReprint_notFound (hp : p < 2400) (hr : (s.record p ss).arrival = none) :
    reqSlipReprint p (sessionCode ss) s = s.refuse .notFound := by
  simp only [reqSlipReprint, sessionOf_sessionCode, (pupilOk_iff p).mpr hp, if_true, hr]

theorem reqSlipReprint_queued (hp : p < 2400) {t n : Nat} {u : State} (hr : (s.record p ss).arrival = some t)
    (hj : s.joinSlip (s.copySlip p ss t) = (u, some n)) : reqSlipReprint p (sessionCode ss) s = (u, Reply.ok (b2 n)) := by
  rw [State.copySlip] at hj
  simp only [reqSlipReprint, sessionOf_sessionCode, (pupilOk_iff p).mpr hp, if_true, hr, hj]

theorem reqSlipReprint_dropped (hp : p < 2400) {t : Nat} {u : State} (hr : (s.record p ss).arrival = some t)
    (hj : s.joinSlip (s.copySlip p ss t) = (u, none)) : reqSlipReprint p (sessionCode ss) s = (u, Reply.just .full) := by
  rw [State.copySlip] at hj
  simp only [reqSlipReprint, sessionOf_sessionCode, (pupilOk_iff p).mpr hp, if_true, hr, hj]

theorem reqSlipReprint_badArg {pupil session : Nat} (h : 2400 ≤ pupil ∨ 2 ≤ session) :
    reqSlipReprint pupil session s = s.refuse .badArg := by
  unfold reqSlipReprint
  split
  · rfl
  · rename_i st hst
    have hpupil : ¬ pupil < 2400 := by
      rcases h with h | h
      · omega
      · cases (sessionOf_none h).symm.trans hst
    exact if_neg (mt (pupilOk_iff pupil).mp hpupil)

theorem slipReprint_answers (h : s.ready) {pupil session : Nat} {f : State → State} {code : Code} {body : List Byte}
    (e : reqSlipReprint pupil session (s.inHand 0x24 tag) = (f (s.inHand 0x24 tag), ⟨code, body⟩))
    (hf : (f (s.inHand 0x24 tag)).link.hand = some ⟨tag, 0x24, false⟩) :
    Answers (.slipReprint tag pupil session) s 0x24 tag f code body :=
  answers_of_handle h rfl rfl (by decide) (congrArg answered e) hf

end

/-- Settles O39: the reports are read off the state as it is; a slip joins or is dropped by the length of the queue. -/
theorem deskAndSlipReports : Obligations.DeskAndSlipReports := by
  refine ⟨⟨fun s tag h => answers_of_handle h rfl rfl (by decide) rfl rfl,
    fun s tag h => answers_of_handle h rfl rfl (by decide) rfl rfl, fun s tag h => ?_⟩, fun s p ss reason => ?_,
    fun s tag p ss h hp => ?_⟩
  · intro now body
    exact ⟨deskStatistics_answers h (c := false) rfl, deskStatistics_answers h (c := true) rfl,
      fun _ hc => deskStatistics_badArg h hc, rfl⟩
  · intro number x
    refine ⟨fun hroom => ?_, fun hfull => ?_⟩
    · rw [State.callSlip, joinSlip_room _ hroom, contactNumbers_eq]
      rfl
    · rw [State.callSlip, joinSlip_full _ hfull]
  · intro c r
    refine ⟨fun hr => slipReprint_answers h (reqSlipReprint_notFound (s := s.inHand 0x24 tag) hp hr) rfl, fun t hr hfull => ?_,
      fun t hr hroom => ?_, fun _ _ hbad => slipReprint_answers h (reqSlipReprint_badArg hbad) rfl⟩
    · exact slipReprint_answers h (reqSlipReprint_dropped (s := s.inHand 0x24 tag) hp hr (joinSlip_full _ hfull)) rfl
    · intro x
      refine slipReprint_answers h (reqSlipReprint_queued (s := s.inHand 0x24 tag) hp hr (joinSlip_room _ hroom)) ?_
      rw [State.fillSlot_link]
      rfl

end Sys2Proof.Machine
end

