-- ==== Sys2Proof/Proofs/DeskArrivals.lean ====
section
/-! CLAIM. The next number of a ring (R78, R120, R136, R160), and DESK ARRIVAL (R76, R78). -/

namespace Sys2Proof.Machine

/-! ## The next number of a ring -/

section
variable {top fuel n : Nat} {held : List Nat}

/-- The number after `n` on the ring 1 to `top`; what lies past the top counts as the top. -/
theorem ringNext_eq (top n : Nat) : (if n ≥ top then 1 else n + 1) = min n top % top + 1 := by
  split
  · rw [Nat.min_eq_right ‹_›, Nat.mod_self]
  · rw [Nat.min_eq_left (by omega), Nat.mod_eq_of_lt (by omega)]

theorem nextFree_succ (top : Nat) (held : List Nat) (fuel n : Nat) :
    nextFree top held (fuel + 1) n =
      if min n top % top + 1 ∈ held then nextFree top held fuel (min n top % top + 1) else min n top % top + 1 := by
  simp only [nextFree, ringNext_eq, List.contains_iff_mem]

theorem nextFree_inRing (htop : 1 ≤ top) (held : List Nat) (hn : (1 ≤ n ∧ n ≤ top) ∨ 0 < fuel) :
    1 ≤ nextFree top held fuel n ∧ nextFree top held fuel n ≤ top := by
  induction fuel generalizing n with
  | zero => exact hn.resolve_right (Nat.lt_irrefl 0)
  | succ fuel ih =>
    have hnext : 1 ≤ min n top % top + 1 ∧ min n top % top + 1 ≤ top := ⟨Nat.le_add_left 1 _, Nat.mod_lt _ htop⟩
    rw [nextFree_succ]
    split
    · exact ih (.inl hnext)
    · exact hnext

/-- When the search ends at a number that is held, every number it looked at is held. -/
theorem held_of_nextFree_mem (htop : 1 ≤ top) (h : nextFree top held fuel n ∈ held) :
    ∀ i < fuel, (min n top + i) % top + 1 ∈ held := by
  induction fuel generalizing n with
  | zero => exact fun i hi => absurd hi (Nat.not_lt_zero i)
  | succ fuel ih =>
    rw [nextFree_succ] at h
    split at h
    · rename_i hm
      intro i hi
      match i with
      | 0 => exact hm
      | i + 1 =>
        have hlow : min (min n top % top + 1) top = min n top % top + 1 := Nat.min_eq_left (Nat.mod_lt _ htop)
        have rest := ih h i (by omega)
        rwa [hlow, Nat.add_assoc, Nat.mod_add_mod, Nat.add_comm 1 i] at rest
    · exact absurd h ‹_›

/-- The search finds a free number when fewer are held than it looks at, none twice. -/
theorem nextFree_not_mem (hfuel : fuel ≤ top) (hlen : held.length < fuel) : nextFree top held fuel n ∉ held := by
  intro h
  have hall := held_of_nextFree_mem (by omega) h
  have hnodup : ((List.range fuel).map fun i => (min n top + i) % top + 1).Nodup := by
    refine List.nodup_range.map_on fun i hi j hj e => ?_
    have hmod : i ≡ j [MOD top] := Nat.ModEq.add_left_cancel' _ (Nat.succ.inj e)
    exact hmod.eq_of_lt_of_lt ((List.mem_range.mp hi).trans_le hfuel) ((List.mem_range.mp hj).trans_le hfuel)
  have hsub : (List.range fuel).map (fun i => (min n top + i) % top + 1) ⊆ held := by
    intro m hm
    obtain ⟨i, hi, rfl⟩ := List.mem_map.mp hm
    exact hall i (List.mem_range.mp hi)
  have hle := (hnodup.subperm hsub).length_le
  rw [List.length_map, List.length_range] at hle
  omega

end

/-! ## The operands of DESK ARRIVAL (R78) -/

/-- What suits a key kind. -/
def KeyKind.takes (k : KeyKind) (v : Nat) : Prop :=
  match k with
  | .badge => v ≠ 0
  | .short => 1 ≤ v ∧ v ≤ 9999
  | .roster => v < 2400

theorem keyOk_iff (k : KeyKind) (v : Nat) : keyOk k v = true ↔ k.takes v := by
  cases k
  · simp [keyOk, KeyKind.takes]
  · simp [keyOk, KeyKind.takes]
  · exact pupilOk_iff v

theorem KeyKind.ofCode_none {n : Nat} (h : 3 ≤ n) : KeyKind.ofCode n = none := by
  match n, h with
  | n + 3, _ => rfl

/-- The second of day of an arrival: the one given, or now. -/
def State.arrivalSecs (s : State) : Option RawTime → Nat
  | some t => t.hour * 3600 + t.minute * 60 + t.second
  | none => s.clock.secs

/-- An arrival time that is given is a time, and not later than now. -/
def State.arrivalFits (s : State) (t : Option RawTime) : Prop :=
  ∀ x : RawTime, t = some x → x.hour ≤ 23 ∧ x.minute ≤ 59 ∧ x.second ≤ 59 ∧ s.arrivalSecs t ≤ s.clock.secs

section
variable {s : State} {tag key value : Nat} {k : KeyKind} {t : Option RawTime}

theorem arrival?_of_fits (h : s.arrivalFits t) :
    ∃ time : Option Nat, arrival? t = some time ∧ time.getD 0 ≤ s.clock.secs ∧ time.getD s.clock.secs = s.arrivalSecs t := by
  cases t with
  | none => exact ⟨none, rfl, Nat.zero_le _, rfl⟩
  | some x =>
    obtain ⟨hh, hm, hs, hle⟩ := h x rfl
    exact ⟨some (s.arrivalSecs (some x)), by rw [arrival?, rawTime?_eq, if_pos ⟨hh, hm, hs⟩]; rfl, hle, rfl⟩

theorem fits_of_arrival? {time : Option Nat} (ht : arrival? t = some time) (hle : time.getD 0 ≤ s.clock.secs) : s.arrivalFits t := by
  rintro x rfl
  rw [arrival?, rawTime?_eq] at ht
  split at ht
  · rename_i hx
    obtain ⟨hh, hm, hs⟩ := hx
    obtain rfl := Option.some.inj ht
    exact ⟨hh, hm, hs, hle⟩
  · cases ht

theorem reqDeskArrival_badKey (h : KeyKind.ofCode key = none) : reqDeskArrival key value t s = s.refuse .badArg := by
  simp only [reqDeskArrival, h]

theorem reqDeskArrival_badTime (h : ¬ s.arrivalFits t) : reqDeskArrival key value t s = s.refuse .badArg := by
  unfold reqDeskArrival
  split
  · rename_i k time _ ht
    have hlate : ¬ time.getD 0 ≤ s.clock.secs := fun hle => h (fits_of_arrival? ht hle)
    exact if_neg (by simp [hlate])
  · rfl

theorem reqDeskArrival_badValue (hk : KeyKind.ofCode key = some k) (h : ¬ k.takes value) :
    reqDeskArrival key value t s = s.refuse .badArg := by
  have hbad : keyOk k value = false := Bool.eq_false_iff.mpr (mt (keyOk_iff k value).mp h)
  unfold reqDeskArrival
  split
  · rename_i hk' _
    cases hk.symm.trans hk'
    exact if_neg (by simp [hbad])
  · rfl

/-- R78: what becomes of an arrival whose operands are in range turns on the office queue alone. -/
theorem reqDeskArrival_inRange (hk : KeyKind.ofCode key = some k) (hv : k.takes value) (ht : s.arrivalFits t) :
    reqDeskArrival key value t s =
      if s.desk.office.length < 2 then
        ((s.joinOffice k value (s.arrivalSecs t)).gainWork .office,
          Reply.ok (b1 s.desk.nextTicket ++ b1 (s.desk.office.length + 1)))
      else
        ({ s with desk.stats.officeRefused := min (s.desk.stats.officeRefused + 1) 4294967295 }, Reply.just .full) := by
  obtain ⟨time, htime, hle, hsecs⟩ := arrival?_of_fits ht
  have hlength : (s.joinOffice k value (s.arrivalSecs t)).desk.office.length = s.desk.office.length + 1 :=
    List.length_append
  simp only [reqDeskArrival, hk, htime, (keyOk_iff k value).mpr hv, hle, hsecs, hlength, decide_true, Bool.and_self, if_true]
  rfl

end

/-! ## The classifier and the office queue (R76) -/

section
variable {s : State}

theorem gainWork_busy (h : s.desk.cur.isSome = true) (src : Source) : s.gainWork src = s := by
  obtain ⟨i, hi⟩ := Option.isSome_iff_exists.mp h
  simp only [State.gainWork, hi]

theorem takeFrom_office {e : OfficeEntry} {rest : List OfficeEntry} (hq : s.desk.office = e :: rest) :
    s.takeFrom .office = { s with
      desk.office := rest
      desk.cur := some (.office e)
      desk.pointer := 7
      desk.stats.office.taken := min (s.desk.stats.office.taken + 1) 4294967295 } := by
  simp only [State.takeFrom, hq]
  rfl

/-- An IDLE classifier takes the head of the office queue. -/
theorem gainWork_office {e : OfficeEntry} {rest : List OfficeEntry} (hidle : s.desk.cur = none) (hq : s.desk.office = e :: rest) :
    s.gainWork .office = s.takeFrom .office := by
  simp only [State.gainWork, hidle, State.hasWork, hq, List.isEmpty_cons, Bool.not_false, if_true]

variable {k : KeyKind} {value time : Nat}

/-- R76: an entry that joins an empty office queue is taken at once by an IDLE classifier. -/
theorem joinOffice_taken (hempty : s.desk.office = []) (hidle : s.desk.cur = none) :
    (s.joinOffice k value time).gainWork .office = { s with
      desk.cur := some (.office ⟨s.desk.nextTicket, k, value, time, s.clock.date⟩)
      desk.pointer := 7
      desk.nextTicket := (s.joinOffice k value time).desk.nextTicket
      desk.stats.office.taken := min (s.desk.stats.office.taken + 1) 4294967295 } := by
  have hjoined : (s.joinOffice k value time).desk.office = [⟨s.desk.nextTicket, k, value, time, s.clock.date⟩] :=
    congrArg (· ++ [_]) hempty
  rw [gainWork_office (s := s.joinOffice k value time) hidle hjoined, takeFrom_office hjoined]
  simp only [State.joinOffice, hempty]

end

section
variable {s : State} {tag key value : Nat} {t : Option RawTime}

theorem deskArrival_answers (h : s.ready) {f : State → State} {code : Code} {body : List Byte}
    (e : reqDeskArrival key value t (s.inHand 0x22 tag) = (f (s.inHand 0x22 tag), ⟨code, body⟩))
    (hf : (f (s.inHand 0x22 tag)).link.hand = some ⟨tag, 0x22, false⟩) :
    Answers (.deskArrival tag key value t) s 0x22 tag f code body :=
  answers_of_handle h rfl rfl (by decide) (congrArg answered e) hf

end

/-- Settles O36: the operands are judged, and then the office queue and the classifier. -/
theorem deskArrivalJoins : Obligations.DeskArrivalJoins := by
  intro s tag key value k t h c secs timeOk keyOk e next
  have inRange (hk : keyOk) (ht : timeOk) := reqDeskArrival_inRange (s := s.inHand 0x22 tag) (t := t) hk.1 hk.2 ht
  refine ⟨fun hbad => ?_, fun hk hbad => ?_, fun hk ht hfull => ?_, fun hk ht hroom hbusy => ?_, fun hk ht hempty hidle => ?_,
    fun held m hlen => ⟨nextFree_not_mem (by decide) (by omega), ?_⟩⟩
  · rcases hbad with hkey | htime
    · exact deskArrival_answers h (reqDeskArrival_badKey (KeyKind.ofCode_none hkey)) rfl
    · exact deskArrival_answers h (reqDeskArrival_badTime (s := s.inHand 0x22 tag) htime) rfl
  · exact deskArrival_answers h (reqDeskArrival_badValue hk fun hv => hbad ⟨hk, hv⟩) rfl
  · exact deskArrival_answers h ((inRange hk ht).trans (if_neg (Nat.not_lt.mpr hfull))) rfl
  · have waits := gainWork_busy (s := (s.inHand 0x22 tag).joinOffice k value secs) hbusy .office
    exact deskArrival_answers h ((inRange hk ht).trans ((if_pos hroom).trans (congrArg (·, _) waits))) rfl
  · have hroom : s.desk.office.length < 2 := by simp [hempty]
    have hbody : b1 (s.desk.office.length + 1) = b1 1 := by rw [hempty]; rfl
    refine deskArrival_answers h ((inRange hk ht).trans ((if_pos hroom).trans ?_)) rfl
    rw [joinOffice_taken (s := s.inHand 0x22 tag) hempty hidle]
    exact congrArg (fun body => (_, Reply.ok (b1 s.desk.nextTicket ++ body))) hbody
  · obtain ⟨hlow, htop⟩ := nextFree_inRing (top := 255) (n := m) (fuel := 8) (by decide) held (.inr (by decide))
    exact ⟨hlow, fun _ => htop⟩

end Sys2Proof.Machine
end

