-- ==== Sys2Proof/Proofs/Lateness.lean ====
section
/-! CLAIM. How an arrival is placed in its track's day and judged there (R82 to R84). -/

namespace Sys2Proof.Machine

/-! ## Placement (R82) -/

section
variable {pl : PlanIF} {d t am pm : Nat}

theorem placeArrival_early (h : t < dayStart pl d * 60) : placeArrival pl d t = .early := if_pos h

theorem placeArrival_afterHours (hs : dayStart pl d * 60 ≤ t) (he : dayEndOf pl d * 60 ≤ t) : placeArrival pl d t = .afterHours :=
  (if_neg (Nat.not_lt.mpr hs)).trans (if_pos he)

/-- From the PM point on an arrival falls in PM. -/
theorem placeArrival_pm (hs : dayStart pl d * 60 ≤ t) (he : t < dayEndOf pl d * 60) (hpm : sessionPoint pl d .pm = some pm)
    (h : pm * 60 ≤ t) : placeArrival pl d t = .span .pm pm (closeFrom pm pl.kPm) := by
  simp only [placeArrival, if_neg (Nat.not_lt.mpr hs), if_neg (Nat.not_le.mpr he), hpm, if_pos h]

/-- Before the PM point, or with none, an arrival falls in AM. -/
theorem placeArrival_am (hs : dayStart pl d * 60 ≤ t) (he : t < dayEndOf pl d * 60) (ham : sessionPoint pl d .am = some am)
    (h : ∀ pm : Nat, sessionPoint pl d .pm = some pm → t < pm * 60) :
    placeArrival pl d t = .span .am am (closeFrom am pl.kAm) := by
  have hclose : sessionClose pl d .am = some (closeFrom am pl.kAm) := by
    rw [sessionClose, ham]
    rfl
  simp only [placeArrival, if_neg (Nat.not_lt.mpr hs), if_neg (Nat.not_le.mpr he), ham, hclose, Option.getD_some]
  split
  · exact if_neg (Nat.not_le.mpr (h _ ‹_›))
  · rfl

end

/-! ## The judgement (R83, R84) -/

section
variable {t point close grace : Nat}

theorem judge_u (h : close * 60 ≤ t) : judge t point close grace = (.u, lateMinutes t point) := if_pos h

theorem judge_p (hc : t < close * 60) (h : t < (point + grace) * 60) : judge t point close grace = (.p, 0) :=
  (if_neg (Nat.not_le.mpr hc)).trans (if_pos h)

theorem judge_l (hc : t < close * 60) (h : (point + grace) * 60 ≤ t) : judge t point close grace = (.l, lateMinutes t point) :=
  (if_neg (Nat.not_le.mpr hc)).trans (if_neg (Nat.not_lt.mpr h))

/-- An arrival is judged P, L or U. -/
theorem judge_present (t point close grace : Nat) : (judge t point close grace).1.present = true := by
  unfold judge
  split
  · rfl
  · split <;> rfl

end

/-- The site zone's segment-start bell at a pupil's session point failed (R84). -/
def State.pointFailed (s : State) (p point : Nat) : Prop :=
  ∃ e ∈ (s.bells.get (s.group (s.pupil p).group).zone).list,
    (∃ n : Nat, e.source = .segment n) ∧ e.time = point ∧ e.outcome = .failed

theorem bellFailed_iff (s : State) (p point : Nat) :
    bellFailed (s.bells.get (s.group (s.pupil p).group).zone) point = true ↔ s.pointFailed p point := by
  rw [bellFailed, List.any_eq_true]
  refine exists_congr fun e => and_congr_right fun _ => ?_
  split
  · rename_i n hn
    simp [hn]
  · rename_i hn
    exact iff_of_false Bool.false_ne_true fun ⟨⟨n, hsource⟩, _⟩ => hn n hsource

section
variable {s : State} {pl : PlanIF} {p point : Nat}

theorem graceFor_failed (h : s.pointFailed p point) : s.graceFor pl p point = pl.grace + pl.allowance :=
  if_pos ((bellFailed_iff s p point).mpr h)

theorem graceFor_rung (h : ¬ s.pointFailed p point) : s.graceFor pl p point = pl.grace :=
  if_neg (mt (bellFailed_iff s p point).mp h)

/-! ## The day's date (R24) -/

/-- In a day that has gone past its date, an arrival of another date was stamped since its midnight. -/
theorem sinceMidnight_past {date day : Date} (hd : s.plan.dayDate = some day) (hc : day ≠ s.clock.date) (hne : date ≠ day) :
    s.sinceMidnight date = true := by
  simp [State.sinceMidnight, State.dayOver, hd, hc, hne.symm]

theorem sinceMidnight_dated {date : Date} (h : s.plan.dayDate = some s.clock.date ∨ s.plan.dayDate = some date) :
    s.sinceMidnight date = false := by
  rcases h with h | h <;> simp [State.sinceMidnight, State.dayOver, h]

/-! ## An arrival judged -/

variable {date : Date} {t : Nat}

theorem judgeArrival_sinceMidnight (h : s.sinceMidnight date = true) : s.judgeArrival p date t = none := by
  unfold State.judgeArrival
  split
  · rfl
  · exact if_pos h

variable (hp : (s.track (s.trackOf p)).plan = some pl) (hs : s.sinceMidnight date = false)
include hp hs

theorem judgeArrival_early (h : placeArrival pl (s.track (s.trackOf p)).delay t = .early) :
    s.judgeArrival p date t = some (.am, .p, 0) := by
  simp only [State.judgeArrival, hp, hs, h, Bool.false_eq_true, if_false]

theorem judgeArrival_afterHours (h : placeArrival pl (s.track (s.trackOf p)).delay t = .afterHours) :
    s.judgeArrival p date t = none := by
  simp only [State.judgeArrival, hp, hs, h, Bool.false_eq_true, if_false]

theorem judgeArrival_span {ss : Session} {close : Nat}
    (h : placeArrival pl (s.track (s.trackOf p)).delay t = .span ss point close) :
    s.judgeArrival p date t = some (ss, judge t point close (s.graceFor pl p point)) := by
  simp only [State.judgeArrival, hp, hs, h, Bool.false_eq_true, if_false]

/-- R83, R84: an arrival within a span, against its close time and its point plus the grace. -/
theorem judgeArrival_inSpan {ss : Session} {close : Nat}
    (h : placeArrival pl (s.track (s.trackOf p)).delay t = .span ss point close) :
    (close * 60 ≤ t → s.judgeArrival p date t = some (ss, .u, lateMinutes t point)) ∧
      (t < close * 60 → s.pointFailed p point →
        (t < (point + (pl.grace + pl.allowance)) * 60 → s.judgeArrival p date t = some (ss, .p, 0)) ∧
          ((point + (pl.grace + pl.allowance)) * 60 ≤ t → s.judgeArrival p date t = some (ss, .l, lateMinutes t point))) ∧
      (t < close * 60 → ¬ s.pointFailed p point →
        (t < (point + pl.grace) * 60 → s.judgeArrival p date t = some (ss, .p, 0)) ∧
          ((point + pl.grace) * 60 ≤ t → s.judgeArrival p date t = some (ss, .l, lateMinutes t point))) := by
  rw [judgeArrival_span hp hs h]
  refine ⟨fun hc => ?_, fun hc hf => ?_, fun hc hf => ?_⟩
  · rw [judge_u hc]
  · rw [graceFor_failed hf]
    exact ⟨fun ht => by rw [judge_p hc ht], fun ht => by rw [judge_l hc ht]⟩
  · rw [graceFor_rung hf]
    exact ⟨fun ht => by rw [judge_p hc ht], fun ht => by rw [judge_l hc ht]⟩

end

/-- What an arrival is judged, it is judged P, L or U. -/
theorem judgeArrival_present {s : State} {p t minutes : Nat} {date : Date} {ss : Session} {m : Mark}
    (h : s.judgeArrival p date t = some (ss, m, minutes)) : m.present = true := by
  unfold State.judgeArrival at h
  split at h
  · cases h
  · split at h
    · cases h
    · split at h
      · cases h
        rfl
      · cases h
      · cases h
        exact judge_present _ _ _ _

/-- Settles O37: the arrival is placed by its time alone, and judged within its span. -/
theorem latenessIsJudged : Obligations.LatenessIsJudged := by
  intro s p date t am pl hp judge
  refine ⟨fun day hd hc hne => judgeArrival_sinceMidnight (sinceMidnight_past hd hc hne), fun hdated => ?_⟩
  intro d start dayEnd ham closeAt failed judged
  have hs := sinceMidnight_dated hdated
  refine ⟨fun h => judgeArrival_early hp hs (placeArrival_early h),
    fun h he => judgeArrival_afterHours hp hs (placeArrival_afterHours h he), fun h he => ⟨fun pm hpm ht => ?_, fun pm hpm ht => ?_,
      fun hpm => ?_⟩⟩
  · exact judgeArrival_inSpan hp hs (placeArrival_pm h he hpm ht)
  · exact judgeArrival_inSpan hp hs (placeArrival_am h he ham fun pm' hpm' => by cases hpm.symm.trans hpm'; exact ht)
  · exact judgeArrival_inSpan hp hs (placeArrival_am h he ham fun pm' hpm' => by cases hpm.symm.trans hpm')

end Sys2Proof.Machine
end

