-- ==== Sys2Proof/Proofs/MarksKept.lean ====
section
/-! SUPPORT. What follows a mark leaves the marks (R98, R109, R117, R119, R121): the alerts, the pool, the tally, the notices and the
conflicts touch of a marked record its alert, its correction flag and its conflict alone. -/

namespace Sys2Proof.Machine

/-- A record apart from its alert, its correction flag and its conflict (R97). -/
def Rec.marking (r : Rec) : Rec := { r with alert := .noAlert, due := none, asked := none, corrected := false, conflict := none }

theorem Rec.source_of_marking {r v : Rec} (h : r.marking = v.marking) : r.source = v.source := by
  have source := congrArg Rec.source h
  exact source

/-- Every record that a source has marked keeps its marking. -/
def MarksKept (a b : State) : Prop :=
  ∀ (p : Nat) (ss : Session), (a.record p ss).source ≠ none → (b.record p ss).marking = (a.record p ss).marking

@[simp] theorem State.joinWait_reg (s : State) (e : WaitEntry) : (s.joinWait e).1.reg = s.reg := by
  unfold State.joinWait
  split <;> rfl

namespace MarksKept
variable {a s t : State}

theorem refl (s : State) : MarksKept s s := fun _ _ _ => rfl

theorem trans (h : MarksKept a s) (k : MarksKept s t) : MarksKept a t := fun p ss hn => by
  have first := h p ss hn
  exact (k p ss (Rec.source_of_marking first ▸ hn)).trans first

/-- Work that leaves the Register alone. -/
theorem of_reg (h : MarksKept a s) (hreg : t.reg = s.reg) : MarksKept a t :=
  h.trans fun p ss _ => congrArg Rec.marking (State.record_congr hreg p ss)

/-- A change of one record that keeps its marking. -/
theorem modRec (h : MarksKept a s) {p : Nat} {ss : Session} {f : Rec → Rec} (hf : ∀ r : Rec, (f r).marking = r.marking) :
    MarksKept a (s.modRec p ss f) := h.trans fun q st hn => by
  by_cases e : (q, st) = (p, ss)
  · cases e
    have marked : f (s.record p ss) ≠ Rec.cleared := fun e =>
      hn ((Rec.source_of_marking (hf _)).symm.trans (congrArg Rec.source e))
    exact (congrArg Rec.marking (s.record_putRec_of_ne marked)).trans (hf _)
  · exact congrArg Rec.marking (s.record_modRec_other f e)

theorem putTally (h : MarksKept a s) (p : Nat) (w : Tally) : MarksKept a (s.putTally p w) := h.trans fun _ _ _ => rfl

theorem of_ite {c : Prop} [Decidable c] (hs : MarksKept a s) (ht : MarksKept a t) : MarksKept a (if c then s else t) := by
  split
  · exact hs
  · exact ht

theorem of_ite_fst {β : Type} {c : Prop} [Decidable c] {x y : State × β} (hx : MarksKept a x.1) (hy : MarksKept a y.1) :
    MarksKept a (if c then x else y).1 := by
  split
  · exact hx
  · exact hy

/-! ## The pool (R139 to R144) -/

theorem storeOut {cls : MsgClass} {kind : MsgKind} {subj : Subject} {text : Text} {life : Option Nat} {st : Stored}
    (h : MarksKept a s) (e : s.storeOut cls kind subj text life = some (t, st)) : MarksKept a t :=
  h.of_reg ((Serves.refl (w := False) False.elim).storeOut e).2

theorem joinSlip (h : MarksKept a s) (x : Slip) : MarksKept a (s.joinSlip x).1 :=
  h.of_reg ((Serves.refl (w := False) False.elim).joinSlip x).2

theorem alertUndelivered (h : MarksKept a s) (p : Nat) (ss : Session) (reason : CallReason) :
    MarksKept a (s.alertUndelivered p ss reason) := by
  have marked : MarksKept a (s.modRec p ss fun r => { r with alert := .undelivered }) := h.modRec fun _ => rfl
  exact joinSlip (marked.of_reg (t := (s.modRec p ss _).raise .alertUndelivered) rfl) _

theorem tryAlert (h : MarksKept a s) {p : Nat} {ss : Session} {st : Stored} (e : s.tryAlert p ss = some (t, st)) :
    MarksKept a t := by
  dsimp only [State.tryAlert] at e
  split at e
  · cases e
  · rename_i he
    cases e
    exact (h.storeOut he).modRec (f := fun r => { r with alert := .queued, asked := none }) fun _ => rfl
  · rename_i he
    cases e
    exact ((h.storeOut he).modRec (f := fun r => { r with asked := none }) fun _ => rfl).alertUndelivered _ _ _

theorem serveAlerts (h : MarksKept a s) (l : List Nat) : MarksKept a (serveAlerts l s) := by
  induction l generalizing s with
  | nil => exact h
  | cons k l ih =>
    unfold Machine.serveAlerts
    split
    · exact h
    · rename_i he
      exact ih (h.tryAlert he)

theorem serveWaits (h : MarksKept a s) (fuel : Nat) : MarksKept a (serveWaits fuel s) := by
  induction fuel generalizing s with
  | zero => exact h
  | succ fuel ih =>
    unfold Machine.serveWaits
    split
    · exact h
    · split
      · exact h
      · rename_i t st he
        have stored : MarksKept a t := h.storeOut he
        refine ih (stored.of_reg ?_)
        rfl

theorem servePass (h : MarksKept a s) : MarksKept a s.servePass := (h.serveAlerts _).serveWaits _

theorem afterStored (h : MarksKept a s) (x : Stored) : MarksKept a (s.afterStored x) := by
  cases x
  · exact h
  · exact h.servePass

theorem requestMsg (h : MarksKept a s) (kind : MsgKind) (subj : Subject) (template : Option Nat) :
    MarksKept a (s.requestMsg kind subj template).1 := by
  dsimp only [State.requestMsg]
  split
  · rename_i t st he
    have stored : MarksKept a t := h.storeOut he
    exact stored.afterStored _
  · exact h.of_reg (State.joinWait_reg _ _)

/-! ## Messages withdrawn (R143, R156) -/

theorem alertMark (h : MarksKept a s) (m : Message) (x : AlertState) : MarksKept a (s.alertMark m x) := by
  unfold State.alertMark
  split
  · split
    · split
      · exact h
      · exact h.modRec (f := fun r => { r with alert := x }) fun _ => rfl
    · exact h
  · exact h

theorem withdraw (h : MarksKept a s) (m : Message) : MarksKept a (s.withdraw m) := by
  refine servePass (of_reg (h.alertMark m .cancelled) ?_)
  exact ((Serves.refl (w := False) False.elim).release m).2

theorem withdrawAll (h : MarksKept a s) (ns : List Nat) : MarksKept a (s.withdrawAll ns) := by
  unfold State.withdrawAll
  induction ns generalizing s with
  | nil => exact h
  | cons n ns ih =>
    refine ih ?_
    dsimp only
    split
    · split
      · exact h.withdraw _
      · exact h
    · exact h

/-! ## The Register and the conflicts -/

theorem stopAlert (h : MarksKept a s) (p : Nat) (ss : Session) : MarksKept a (s.stopAlert p ss).1 := by
  have cancelled : MarksKept a (s.modRec p ss fun r => { r with alert := .cancelled, due := none, asked := none }) :=
    h.modRec fun _ => rfl
  dsimp only [State.stopAlert]
  split
  · exact cancelled
  · exact cancelled
  · exact cancelled
  · exact cancelled.withdrawAll _
  · exact h

theorem correctAlert (h : MarksKept a s) (p : Nat) (ss : Session) : MarksKept a (s.correctAlert p ss).1 := by
  dsimp only [State.correctAlert]
  split
  · exact (h.modRec (f := fun r => { r with corrected := true }) fun _ => rfl).requestMsg _ _ _
  · exact h

theorem patternNotice (h : MarksKept a s) (p : Nat) (ss : Session) : MarksKept a (s.patternNotice p ss) := by
  dsimp only [State.patternNotice]
  split
  · exact (h.putTally p _).requestMsg _ _ _
  · exact h

theorem handConflict (h : MarksKept a s) (p : Nat) (ss : Session) (kind : ConflictKind) (mark : Mark) :
    MarksKept a (s.handConflict p ss kind mark) := by
  unfold State.handConflict
  split
  · exact h
  · split
    · have listed := h.of_reg (t := { s with recon := _ }) rfl
      exact (listed.modRec (f := fun r => { r with conflict := some s.recon.nextId }) fun _ => rfl).of_reg rfl
    · exact h

/-- What follows a mark that a source writes keeps the markings (R109, R117, R119). -/
theorem applyMark (s : State) (p : Nat) (ss : Session) (w : MarkWrite) :
    MarksKept (s.putRec p ss ((s.record p ss).write w)) (s.applyMark p ss w).1 := by
  have written := refl (s.putRec p ss ((s.record p ss).write w))
  have stopped := of_ite_fst (c := ((s.record p ss).mark = .n && w.mark ≠ .n) = true) (y := (_, .untouched))
    (written.stopAlert p ss) written
  have corrected := of_ite_fst (c := (s.record p ss).mark ≠ w.mark) (y := (_, false)) (stopped.correctAlert p ss) stopped
  exact of_ite ((corrected.putTally p _).patternNotice p ss) (corrected.putTally p _)

end MarksKept

end Sys2Proof.Machine
end

