-- ==== Sys2Proof/Proofs/Classifications.lean ====
section
/-! SUPPORT. How a record is classified (R80 to R87): the pupil that is found, the mark that is applied, its LATE slip and its notice. -/

namespace Sys2Proof.Machine

/-! ## A desk arrival at the Register (R100, R101) -/

section
variable {s : State} {p : Nat} {ss : Session} {m : Mark} {minutes t : Nat}

theorem deskArrival_locked (h : (s.record p ss).locked = true) : s.deskArrival p ss m minutes t = (s, .locked) := if_pos h

theorem deskArrival_alreadyIn (hl : (s.record p ss).locked = false) (h : (s.record p ss).mark.present = true) :
    s.deskArrival p ss m minutes t = (s, .alreadyIn) := (if_neg (by simp [hl])).trans (if_pos h)

/-- An unlocked record of another mark takes the desk's; what follows the mark keeps it. -/
theorem deskArrival_applied (hl : (s.record p ss).locked = false) (h : (s.record p ss).mark.present = false) :
    ∃ (u : State) (corrected : Bool), s.deskArrival p ss m minutes t = (u, .applied (s.record p ss).expected corrected) ∧
      MarksKept (s.putRec p ss ((s.record p ss).write ⟨m, minutes, .desk, some t, none⟩)) u := by
  have marked := MarksKept.applyMark s p ss ⟨m, minutes, .desk, some t, none⟩
  exact ⟨_, _, (if_neg (by simp [hl])).trans (if_neg (by simp [h])), .of_ite (marked.handConflict p ss .arrivedAfterReport m) marked⟩

/-- A record that the desk has marked P, L or U holds the mark, its minutes and the arrival time (R98, R101). -/
theorem record_of_deskWrite {u : State} (hm : m.present = true) (hl : (s.record p ss).locked = false)
    (h : MarksKept (s.putRec p ss ((s.record p ss).write ⟨m, minutes, .desk, some t, none⟩)) u) :
    (u.record p ss).mark = m ∧ (u.record p ss).minutes = minutes ∧ (u.record p ss).source = some .desk ∧
      (u.record p ss).arrival = some t ∧ (u.record p ss).locked = false := by
  have hput := s.record_putRec_of_ne (p := p) (ss := ss) (r := (s.record p ss).write ⟨m, minutes, .desk, some t, none⟩)
    fun e => by simpa [Rec.write, Rec.cleared] using congrArg Rec.source e
  have hkept := h p ss (by rw [hput]; simp [Rec.write])
  rw [hput] at hkept
  simp only [Rec.marking, Rec.write, hm, hl, Rec.mk.injEq] at hkept
  obtain ⟨hmark, hminutes, hsource, hlocked, -, -, -, harrival, -⟩ := hkept
  exact ⟨hmark, hminutes, hsource, harrival, hlocked⟩

theorem Mark.present_iff (m : Mark) : m.present = true ↔ m = .p ∨ m = .l ∨ m = .u := by cases m <;> simp [Mark.present]

theorem Mark.late_of_present (h : m.present = true) (hp : m ≠ .p) : m.late = true := by
  rcases (Mark.present_iff m).mp h with rfl | rfl | rfl
  · exact absurd rfl hp
  · rfl
  · rfl

end

/-! ## The LATE slip (R88, R89) -/

section
variable {s : State} {p : Nat} {ss : Session} {m : Mark} {minutes t : Nat} {expected : Bool}

theorem sameLate_iff (p : Nat) (ss : Session) (d : Option Date) (x : Slip) :
    sameLate p ss d x = true ↔ x.kind = .late ∧ x.pupil = p ∧ x.session = ss ∧ x.date = d := by
  simp [sameLate, and_assoc]

/-- R89: the queued LATE slip is brought up to date. -/
theorem lateSlip_updates {a b : List Slip} {y : Slip} (hq : s.slips.queue = a ++ y :: b)
    (hy : sameLate p ss s.plan.dayDate y = true) (hno : ∀ w ∈ a ++ b, ¬ sameLate p ss s.plan.dayDate w = true) :
    s.lateSlip p ss t m minutes expected =
      ({ s with slips.queue := a ++ { y with body := .lateness t m minutes expected } :: b }, some y.number) := by
  have hbefore : a.find? (sameLate p ss s.plan.dayDate) = none :=
    List.find?_eq_none.mpr fun w hw => hno w (List.mem_append_left b hw)
  have hfind : s.slips.queue.find? (sameLate p ss s.plan.dayDate) = some y := by
    rw [hq, List.find?_append, hbefore, List.find?_cons_of_pos hy]
    rfl
  have kept (l : List Slip) (hl : ∀ w ∈ l, w ∈ a ++ b) :
      l.map (fun w => if sameLate p ss s.plan.dayDate w then { w with body := .lateness t m minutes expected } else w) = l :=
    (List.map_congr_left fun w hw => if_neg (hno w (hl w hw))).trans (List.map_id' l)
  simp only [State.lateSlip, hfind]
  rw [hq, List.map_append, List.map_cons, kept a fun w hw => List.mem_append_left b hw,
    kept b fun w hw => List.mem_append_right a hw, if_pos hy]

/-- R88: with none queued, a LATE slip is made and joins. -/
theorem lateSlip_made (hno : ∀ w ∈ s.slips.queue, ¬ sameLate p ss s.plan.dayDate w = true) :
    s.lateSlip p ss t m minutes expected = s.joinSlip (s.makeSlip .late p ss (.lateness t m minutes expected)) := by
  simp only [State.lateSlip, List.find?_eq_none.mpr hno]

/-- R87: the LATE NOTICE of an APPLIED L or U. -/
theorem lateNotice_eq (s : State) (p : Nat) (ss : Session) (expected corrected : Bool) :
    s.lateNotice p ss expected corrected =
      if expected = false ∧ (s.group (s.pupil p).group).lateNotices = true ∧ corrected = false then
        (s.requestMsg .lateNotice (.pupil p ss) none).1
      else s := by
  simp [State.lateNotice, and_assoc]

end

/-! ## The classification (R80 to R87) -/

section
variable {s u v : State} {i : Item} {p : Nat} {ss : Session} {m : Mark} {minutes t : Nat}

theorem applyArrival_locked (h : (s.record p ss).locked = true) :
    s.applyArrival p t ss m minutes = (s, plainVerdict .seeDesk (some p) (some ss)) := by
  simp only [State.applyArrival, deskArrival_locked h]

theorem applyArrival_alreadyIn (hl : (s.record p ss).locked = false) (h : (s.record p ss).mark.present = true) :
    s.applyArrival p t ss m minutes = (s, plainVerdict .blue (some p) (some ss)) := by
  simp only [State.applyArrival, deskArrival_alreadyIn hl h]

theorem applyArrival_onTime {expected corrected : Bool} (h : s.deskArrival p ss .p minutes t = (u, .applied expected corrected)) :
    s.applyArrival p t ss .p minutes = (u, plainVerdict .green (some p) (some ss)) := by
  simp only [State.applyArrival, h]
  rfl

theorem applyArrival_late {expected corrected : Bool} {slip : Option Nat}
    (h : s.deskArrival p ss m minutes t = (u, .applied expected corrected)) (hm : m.late = true)
    (hslip : u.lateSlip p ss t m minutes expected = (v, slip)) :
    s.applyArrival p t ss m minutes =
      (v.lateNotice p ss expected corrected, ⟨lateDisplay m slip, some p, some ss, minutes, slip, expected⟩) := by
  simp only [State.applyArrival, h, hm, if_true, hslip]

theorem classify_unknown (h : s.findPupil i = none) : s.classify i = (s, plainVerdict .grey none none) := by
  simp only [State.classify, h]

theorem classify_opening (h : s.findPupil i = some p) (hd : s.plan.dayState = .opening) :
    s.classify i = (s, plainVerdict .wait (some p) none) := by
  simp only [State.classify, h, hd]

theorem classify_closed (h : s.findPupil i = some p) (hd : s.plan.dayState = .closing ∨ s.plan.dayState = .closed) :
    s.classify i = (s, plainVerdict .closed (some p) none) := by
  rcases hd with hd | hd <;> simp only [State.classify, h, hd]

theorem classify_afterHours (h : s.findPupil i = some p) (hd : s.plan.dayState = .opened)
    (hj : s.judgeArrival p i.date i.time = none) : s.classify i = (s, plainVerdict .seeDesk (some p) none) := by
  simp only [State.classify, h, hd, hj]

theorem classify_judged (h : s.findPupil i = some p) (hd : s.plan.dayState = .opened)
    (hj : s.judgeArrival p i.date i.time = some (ss, m, minutes)) : s.classify i = s.applyArrival p i.time ss m minutes := by
  simp only [State.classify, h, hd, hj]

/-- R76, R77: the classification under way is answered, and the next record is searched for. -/
theorem classification_does {r : State × Verdict} (hc : s.desk.cur = some i) (h : s.classify i = r) :
    Does .classificationComplete s (r.1.giveAnswer i r.2).searchNext := by
  refine does_of_run rfl ?_
  simp only [State.completeClassification, hc, h]

/-- R80: an office entry that gives a roster index. -/
theorem findPupil_roster {e : OfficeEntry} (h : e.key = .roster) :
    s.findPupil (.office e) = if e.value < 2400 ∧ (s.pupil e.value).inUse = true then some e.value else none := by
  simp only [State.findPupil, h, Bool.and_eq_true, pupilOk_iff]

end

end Sys2Proof.Machine
end

