-- ==== Sys2Proof/Proofs/NextRecord.lean ====
section
/-! SUPPORT. The search for the next record (R70, R77): the sources in their turn, and the record that is taken. -/

namespace Sys2Proof.Machine

/-! ## The turns of the sources -/

/-- How many sources a search looks at before this one. -/
def Source.turn (pointer : Nat) (src : Source) : Nat := (src.number + 6 - pointer % 7) % 7

/-- A search looks at the sources by their turns. -/
theorem searchOrder_pairwise (pointer : Nat) :
    (searchOrder pointer).Pairwise fun a b => a.turn pointer < b.turn pointer := by
  have turns : ∀ r < 7, (sources.drop r ++ sources.take r).Pairwise
      fun a b => (a.number + 6 - r) % 7 < (b.number + 6 - r) % 7 := by decide
  exact turns (pointer % 7) (Nat.mod_lt _ (by decide))

theorem mem_searchOrder (pointer : Nat) (src : Source) : src ∈ searchOrder pointer := by
  have listed : src ∈ sources := by
    cases src with
    | station n =>
      have all : ∀ n : Fin 6, Source.station n ∈ sources := by decide
      exact all n
    | office => decide
  rw [← List.take_append_drop (pointer % 7) sources] at listed
  exact List.mem_append.mpr (List.mem_append.mp listed).symm

/-- In a list that rises, the first entry that passes is the one below the others that pass. -/
theorem find?_of_least {α : Type} {l : List α} {f : α → Nat} {w : α → Bool} {a : α} (hl : l.Pairwise fun x y => f x < f y)
    (ha : a ∈ l) (hw : w a = true) (hmin : ∀ b ∈ l, w b = true → f a ≤ f b) : l.find? w = some a := by
  obtain ⟨before, after, rfl⟩ := List.append_of_mem ha
  have none_before : before.find? w = none := List.find?_eq_none.mpr fun b hb hwb => by
    have above := hmin b (List.mem_append_left _ hb) hwb
    obtain ⟨-, -, rises⟩ := List.pairwise_append.mp hl
    have below := rises b hb a (List.mem_cons_self ..)
    omega
  rw [List.find?_append, none_before, List.find?_cons_of_pos hw]
  rfl

/-! ## The sources' work (R76) -/

section
variable {s : State}

/-- The source of a number holds a record. -/
def State.workAt (s : State) (m : Nat) : Prop :=
  (∃ k : Fin 6, m = k.val + 1 ∧ (s.stations.get k).queue ≠ []) ∨ (m = 7 ∧ s.desk.office ≠ [])

theorem hasWork_station (k : Fin 6) : s.hasWork (.station k) = true ↔ (s.stations.get k).queue ≠ [] := by
  simp [State.hasWork, State.station]

theorem hasWork_office : s.hasWork .office = true ↔ s.desk.office ≠ [] := by simp [State.hasWork]

theorem workAt_of_hasWork {src : Source} (h : s.hasWork src = true) : s.workAt src.number := by
  cases src with
  | station k => exact .inl ⟨k, rfl, (hasWork_station k).mp h⟩
  | office => exact .inr ⟨rfl, hasWork_office.mp h⟩

/-- The classifier's own record is no source's work. -/
theorem hasWork_cur (s : State) (c : Option Item) (src : Source) : ({ s with desk.cur := c } : State).hasWork src = s.hasWork src := by
  cases src <;> rfl

/-! ## The next record -/

theorem searchNext_idle (h : ∀ m : Nat, ¬ s.workAt m) : s.searchNext = { s with desk.cur := none } := by
  have nothing : (searchOrder s.desk.pointer).find? ({ s with desk.cur := none } : State).hasWork = none :=
    List.find?_eq_none.mpr fun src _ hw => h _ (workAt_of_hasWork ((hasWork_cur s none src).symm.trans hw))
  simp only [State.searchNext, nothing]

/-- R77: the first source with work, in the search's order, gives up its head record. -/
theorem searchNext_takes {src : Source} (hw : s.hasWork src = true)
    (hmin : ∀ m : Nat, s.workAt m → src.turn s.desk.pointer ≤ (m + 6 - s.desk.pointer % 7) % 7) :
    s.searchNext = ({ s with desk.cur := none } : State).takeFrom src := by
  have first : (searchOrder s.desk.pointer).find? ({ s with desk.cur := none } : State).hasWork = some src :=
    find?_of_least (searchOrder_pairwise s.desk.pointer) (mem_searchOrder _ src) ((hasWork_cur s none src).trans hw)
      fun other _ h => hmin _ (workAt_of_hasWork ((hasWork_cur s none other).symm.trans h))
  simp only [State.searchNext, first]

/-- R69: when a line settles. -/
theorem Station.settle_eq (x : Station) :
    x.settle = if x.held = true ∧ x.queue = [] ∧ x.holdOff = 0 then
      Station.show { x with held := false } ⟨.ready, none, false, [], 0⟩ else x := by
  simp [Station.settle, lineShow, and_assoc]

/-- R70: a station's head record is taken, and the line settles. -/
theorem takeFrom_station {k : Fin 6} {a : Arrival} {rest : List Arrival} (hq : (s.stations.get k).queue = a :: rest) :
    s.takeFrom (.station k) = { s with
      stations := s.stations.set k (Station.settle
        { s.stations.get k with queue := rest, cnt.taken := min ((s.stations.get k).cnt.taken + 1) 4294967295 })
      desk.cur := some (.station k a)
      desk.pointer := k.val + 1
      desk.stats.stations := s.desk.stats.stations.set k
        { s.desk.stats.stations.get k with taken := min ((s.desk.stats.stations.get k).taken + 1) 4294967295 } } := by
  simp only [State.takeFrom, State.station, hq]
  rfl

end

end Sys2Proof.Machine
end

