-- ==== Sys2Proof/Proofs/ClassificationsAnswered.lean ====
section
/-! CLAIM. The end of a classification: the answer, the slip, the notice, and the next record (R77 to R89). -/

namespace Sys2Proof.Machine

/-- Settles O38: the classification's branches, and for an applied L or U whether its slip is queued, made or dropped; then the search. -/
theorem classificationsAreAnswered : Obligations.ClassificationsAreAnswered := by
  refine ⟨fun s i hc => ?_, fun s => ?_⟩
  · intro found name mark answers plain
    have answered {u : State} {d : Display} {p : Option Nat} {ss : Option Session} {minutes : Nat} {slip : Option Nat}
        {expected : Bool} (h : s.classify i = (u, ⟨d, p, ss, minutes, slip, expected⟩)) :
        answers u d p ss minutes slip expected := by
      have done := classification_does hc h
      cases i <;> exact done
    have answered_plain {u : State} {d : Display} {p : Option Nat} {ss : Option Session}
        (h : s.classify i = (u, plainVerdict d p ss)) : answers u d p ss 0 none false := answered h
    have plain_answered {d : Display} {p : Option Nat} {ss : Option Session} (h : s.classify i = (s, plainVerdict d p ss)) :
        plain d p ss := answered_plain h
    have hfound : s.findPupil i = found := by
      cases i with
      | station n a => rfl
      | office e =>
        obtain ⟨ticket, key, value, time, date⟩ := e
        cases key with
        | badge => rfl
        | short => rfl
        | roster => exact findPupil_roster rfl
    -- From here on it matters only that a classification is answered, not what the answer does.
    clear_value plain
    clear_value answers found
    subst hfound
    refine ⟨fun h => plain_answered (classify_unknown h), fun p h => ⟨fun hd => plain_answered (classify_opening h hd),
      fun hd => plain_answered (classify_closed h hd), fun hd hj => plain_answered (classify_afterHours h hd hj),
      fun ss m minutes hd hj => ?_⟩⟩
    have hjudged := classify_judged h hd hj
    have hm := judgeArrival_present hj
    intro r present
    refine ⟨fun hl => plain_answered (hjudged.trans (applyArrival_locked hl)), fun hl hp => ?_, fun hl hp => ?_⟩
    · exact plain_answered (hjudged.trans (applyArrival_alreadyIn hl ((Mark.present_iff _).mpr hp)))
    · obtain ⟨u', corrected, hdesk, hkept⟩ := deskArrival_applied (m := m) (minutes := minutes) (t := i.time) hl
        (Bool.eq_false_iff.mpr (mt (Mark.present_iff _).mp hp))
      rw [hdesk]
      intro u x
      obtain ⟨hmark, hminutes, hsource, harrival, hlocked⟩ := record_of_deskWrite hm hl hkept
      refine ⟨hmark, hminutes, hsource, harrival, hlocked, corrected, rfl, ?_⟩
      intro twin body noticed late
      have late_answered {v : State} {slip : Option Nat} (hp : m ≠ .p)
          (hslip : u.lateSlip p ss i.time m minutes r.expected = (v, slip)) :
          answers (noticed v) (lateDisplay m slip) (some p) (some ss) minutes slip r.expected := by
        have applied := applyArrival_late hdesk (Mark.late_of_present hm hp) hslip
        rw [lateNotice_eq] at applied
        exact answered (hjudged.trans applied)
      have htwin (w : Slip) : twin w ↔ sameLate p ss u.plan.dayDate w = true := (sameLate_iff p ss _ w).symm
      have hmade (hno : ∀ w ∈ u.slips.queue, ¬ twin w) : u.lateSlip p ss i.time m minutes r.expected =
          u.joinSlip (u.makeSlip .late p ss body) := lateSlip_made fun w hw => mt (htwin w).mpr (hno w hw)
      refine ⟨fun hp => ?_, fun hp a b y hq hy hno => ?_, fun hp hno hroom => ?_, fun hp hno hfull => ?_⟩
      · subst hp
        exact answered_plain (hjudged.trans (applyArrival_onTime hdesk))
      · exact late_answered hp (lateSlip_updates hq ((htwin y).mp hy) fun w hw => mt (htwin w).mpr (hno w hw))
      · exact late_answered hp ((hmade hno).trans (joinSlip_room _ hroom))
      · exact late_answered hp ((hmade hno).trans (joinSlip_full _ hfull))
  · intro up work turn
    refine ⟨searchNext_idle, fun k a rest hq hmin => ?_, fun e rest hq hmin => ?_⟩
    · intro x y q
      refine (searchNext_takes (src := .station k) ((hasWork_station k).mpr (by simp [hq])) hmin).trans
        ((takeFrom_station (s := { s with desk.cur := none }) hq).trans ?_)
      rw [Station.settle_eq]
    · exact (searchNext_takes (src := .office) (hasWork_office.mpr (by simp [hq])) hmin).trans
        (takeFrom_office (s := { s with desk.cur := none }) hq)

end Sys2Proof.Machine
end

