-- ==== Sys2Proof/Proofs/RegisterReports.lean ====
section
/-! CLAIM. The register's and the lists' reports: MARK QUERY, GROUP STATUS, CONFLICT LIST and ADVANCE LIST (R114, R116, R123, R128). -/

namespace Sys2Proof.Machine

theorem groupOk_iff (g : Nat) : groupOk g = true ↔ g < 120 := decide_eq_true_iff

section
variable {s : State} {tag : Nat}

theorem markQuery_answers (h : s.ready) {p : Nat} (hp : p < 2400) (ss : Session) :
    Answers (.markQuery tag p (sessionCode ss)) s 0x2A tag id .ok
      ((s.record p ss).bytes ++ bSess (s.session (s.trackOf p) ss) ++ (s.tally p).bytes) := by
  refine answers_of_handle h rfl rfl (by decide) ?_ rfl
  simp only [handle, reqMarkQuery, sessionOf_sessionCode, (pupilOk_iff p).mpr hp, if_true]
  rfl

theorem reqMarkQuery_badArg (s : State) {p session : Nat} (hbad : 2400 ≤ p ∨ 2 ≤ session) :
    reqMarkQuery p session s = s.refuse .badArg := by
  unfold reqMarkQuery
  split
  · rfl
  · rename_i ss hs
    refine if_neg fun hp => ?_
    have hp := (pupilOk_iff p).mp hp
    cases (sessionOf_none (hbad.resolve_left (by omega))).symm.trans hs

theorem markQuery_badArg (h : s.ready) {p session : Nat} (hbad : 2400 ≤ p ∨ 2 ≤ session) :
    Refuses (.markQuery tag p session) s 0x2A tag .badArg :=
  answers_of_handle h rfl rfl (by decide) (congrArg answered (reqMarkQuery_badArg _ hbad)) rfl

theorem groupStatus_answers (h : s.ready) {g : Nat} (hg : g < 120) (ss : Session) :
    Answers (.groupStatus tag (sessionCode ss) g) s 0x2B tag id .ok (s.groupBody g ss) := by
  refine answers_of_handle h rfl rfl (by decide) ?_ rfl
  simp only [handle, reqGroupStatus, sessionOf_sessionCode, (groupOk_iff g).mpr hg, if_true]
  rfl

theorem groupStatus_all_answers (h : s.ready) (ss : Session) :
    Answers (.groupStatus tag (sessionCode ss) 120) s 0x2B tag id .ok (s.allGroupsBody ss) := by
  refine answers_of_handle h rfl rfl (by decide) ?_ rfl
  simp only [handle, reqGroupStatus, sessionOf_sessionCode]
  rfl

theorem reqGroupStatus_badArg (s : State) {session g : Nat} (hbad : 2 ≤ session ∨ 120 < g) :
    reqGroupStatus session g s = s.refuse .badArg := by
  unfold reqGroupStatus
  split
  · rfl
  · rename_i ss hs
    have hg : 120 < g := hbad.resolve_left fun h => by cases (sessionOf_none h).symm.trans hs
    exact (if_neg (mt (groupOk_iff g).mp (by omega))).trans (if_neg (Nat.ne_of_gt hg))

theorem groupStatus_badArg (h : s.ready) {session g : Nat} (hbad : 2 ≤ session ∨ 120 < g) :
    Refuses (.groupStatus tag session g) s 0x2B tag .badArg :=
  answers_of_handle h rfl rfl (by decide) (congrArg answered (reqGroupStatus_badArg _ hbad)) rfl

theorem conflictList_answers (h : s.ready) {start : Nat} (hs : start ≤ 31) :
    Answers (.conflictList tag start) s 0x30 tag id .ok
      (b1 s.recon.conflicts.length ++ s.recon.conflictCnt.bytes ++ bList conflictBytes (window start 16 s.recon.conflicts)) :=
  answers_of_handle h rfl rfl (by decide) (congrArg answered (if_pos hs)) rfl

theorem conflictList_badArg (h : s.ready) {start : Nat} (hs : 31 < start) :
    Refuses (.conflictList tag start) s 0x30 tag .badArg :=
  answers_of_handle h rfl rfl (by decide) (congrArg answered (if_neg (Nat.not_le.mpr hs))) rfl

theorem advanceList_answers (h : s.ready) {start : Nat} (hs : start ≤ 127) :
    Answers (.advanceList tag start) s 0x32 tag id .ok
      (b1 s.recon.advance.length ++ s.recon.advCnt.bytes ++ bList advanceBytes (window start 16 s.recon.advance)) :=
  answers_of_handle h rfl rfl (by decide) (congrArg answered (if_pos hs)) rfl

theorem advanceList_badArg (h : s.ready) {start : Nat} (hs : 127 < start) :
    Refuses (.advanceList tag start) s 0x32 tag .badArg :=
  answers_of_handle h rfl rfl (by decide) (congrArg answered (if_neg (Nat.not_le.mpr hs))) rfl

end

/-- Settles O46: each report is read off the state as it is, with the request in hand. -/
theorem registerAndListReports : Obligations.RegisterAndListReports := by
  refine fun s tag h => ⟨fun p ss => ?_, fun p session hbad => markQuery_badArg h (.inr hbad), fun g ss hg => ?_, fun ss => ?_,
    fun session g hbad => groupStatus_badArg h hbad, fun start => ?_⟩
  · intro r w
    refine ⟨fun hp => ?_, fun hp => markQuery_badArg h (.inl hp)⟩
    have query := markQuery_answers (tag := tag) h hp ss
    simp only [Rec.bytes, bSess, Tally.bytes, ← List.append_assoc] at query
    exact query
  · exact groupStatus_answers h hg ss
  · exact groupStatus_all_answers h ss
  · intro c a
    refine ⟨fun hs => ?_, conflictList_badArg h, fun hs => ?_, advanceList_badArg h⟩
    · have list := conflictList_answers (tag := tag) h hs
      simp only [ConflictCounters.bytes, ← List.append_assoc] at list
      exact list
    · have list := advanceList_answers (tag := tag) h hs
      simp only [AdvanceCounters.bytes, ← List.append_assoc] at list
      exact list

end Sys2Proof.Machine
end

