-- ==== Sys2Proof/Proofs/SessionCloses.lean ====
section
/-! CLAIM. A session's close (R112, R99, R106), and what becomes of a HELD alert at its due time (R107, R91). -/

namespace Sys2Proof.Machine

/-! ## SESSION CLOSE -/

section
variable {s : State} {i : Fin 4} {ss : Session} {close : Nat}

theorem sessionClose_does {pl : PlanIF} {x : SessState} (hd : s.plan.dayState = .opening ∨ s.plan.dayState = .opened)
    (hp : (s.track i).plan = some pl) (hx : s.session i ss = some x) (hne : x ≠ .closed)
    (hc : sessionClose pl (s.track i).delay ss = some close) :
    Does (.sessionClose i ss) s (s.closeSession i ss (close * 60) false) := by
  refine does_of_run rfl ?_
  simp only [State.sessionCloses, hp, hx, hc]
  exact if_pos (by simp [s.dayRuns_iff.mpr hd, hne])

/-- A record that a close marks: N by CLOSE, its alert HELD until the due time where none was started. -/
theorem Rec.Closes.marked {mk : Prop} {due : Nat} {now : Stamp} {ended : Bool} {r v : Rec} (h : r.Closes mk due now ended v)
    (hm : mk) (hu : r.unmarked) :
    v.mark = .n ∧ v.minutes = 0 ∧ v.source = some .close ∧ v.locked = false ∧
      (r.alert = .noAlert → r.expected = false → now.secs < due → v.alert = .held ∧ v.due = some due) := by
  obtain ⟨x, hx, closed, -⟩ := h
  have trails : (x.markN.begin due now ended).Trails false now v := ⟨_, _, closed hm (hx.unmarked.mpr hu), .refl _, .inl (.refl _)⟩
  obtain ⟨hmark, hminutes, hsource, hlocked, hheld, -⟩ := trails.of_close hx hu
  exact ⟨hmark, hminutes, hsource, hlocked, hheld⟩

/-- The records of the other session are as their alerts leave them. -/
theorem closeSession_other {st : Session} (hw : Tab.wf clearedAt s.reg.recs = true) (hne : st ≠ ss) (start p : Nat) :
    (s.record p st).Waits ((s.closeSession i ss start false).record p st) :=
  (s.closeSession_follows i ss start false).record hw fun ⟨_, _, e, _⟩ => hne e

end

/-! ## ALERT DUE -/

section
variable {s : State} {p : Nat} {ss : Session}

theorem alertDue_kept (h : (s.record p ss).alert ≠ .held) : Does (.alertDue p ss) s s :=
  does_of_run rfl (if_neg h)

theorem alertDue_cancelled (h : (s.record p ss).alert = .held) (hm : (s.record p ss).mark ≠ .n) :
    Does (.alertDue p ss) s (s.modRec p ss fun r => { r with alert := .cancelled, due := none }) :=
  does_of_run rfl ((if_pos h).trans (if_neg hm))

theorem alertDue_due (h : (s.record p ss).alert = .held) (hm : (s.record p ss).mark = .n) :
    Does (.alertDue p ss) s (s.alertBecomesDue p ss) :=
  does_of_run rfl ((if_pos h).trans (if_pos hm))

/-! ### Storage for a message (R138, R139, R151) -/

/-- No text needs more than six segments (R138, R150). -/
theorem segmentsFor_compose (s : State) (template : Nat) (subj : Subject) (stamp : Stamp) :
    segmentsFor (s.compose template subj stamp).length ≤ 6 := by
  have hlen : (s.compose template subj stamp).length ≤ 288 := List.length_take_le _ _
  unfold segmentsFor
  split
  · omega
  · simp only [Config.segmentChars]
    omega

theorem allocate_shared {c : MsgClass} {k : Nat} (hd : 1 ≤ s.pool.freeDesc) (hk : k ≤ s.pool.freeSegs) :
    s.allocate c k = some (s.takeShared k, .shared k) := if_pos ⟨hd, hk⟩

theorem allocate_none {c : MsgClass} (k : Nat) (hd : s.pool.freeDesc = 0) (hc : s.pool.credits.get c = 0) :
    s.allocate c k = none := by
  rw [State.allocate, if_neg (by omega), if_neg (by omega)]

variable {cls : MsgClass} {kind : MsgKind} {subj : Subject} {text : Text} {life : Option Nat}

/-- A message as it is stored on shared storage, QUEUED under its number. -/
def State.queuedMessage (s : State) (cls : MsgClass) (kind : MsgKind) (subj : Subject) (text : Text) (life : Option Nat) : Message :=
  ⟨s.pool.nextNum, cls, kind, .shared (segmentsFor text.length), s.clock.stamp, text,
    .out ⟨subj, s.recipients cls subj, ⟨0, false, 0⟩, .queued, life, false⟩⟩

/-- The state with a message stored on shared storage, before it is queued or ends. -/
def State.stored (s : State) (m : Message) (k : Nat) : State :=
  (s.takeShared k).addMessage m.cls m.kind m.storage m.text m.body

theorem storeOut_queued (hd : 1 ≤ s.pool.freeDesc) (hk : segmentsFor text.length ≤ s.pool.freeSegs) (hr : s.recipients cls subj ≠ []) :
    s.storeOut cls kind subj text life =
      some ((s.stored (s.queuedMessage cls kind subj text life) (segmentsFor text.length)).enqueue cls s.pool.nextNum,
        .queued s.pool.nextNum) := by
  have hr' : (s.takeShared (segmentsFor text.length)).recipients cls subj ≠ [] := hr
  simp only [State.storeOut, allocate_shared hd hk, List.isEmpty_iff, if_neg hr']
  rfl

/-- Another Register, pool, gateway and host link beside the same slips and desk. -/
def State.beside (s : State) (reg : Register) (pool : Pool) (gw : Gateway) (link : HostLink) : State :=
  { s with reg := reg, pool := pool, gw := gw, link := link }

/-- The state once a message of a class has ended for lack of a recipient, with the pool that it leaves. -/
def State.endedAtOnce (s : State) (cls : MsgClass) (x : Pool) : State :=
  s.beside s.reg x { s.gw with stats := s.gw.stats.modEnds cls EndCounts.addUndelivered } s.link

/-- A message without recipient ends at once and gives its storage back (R151, R143). -/
theorem storeOut_noRecipient (hd : 1 ≤ s.pool.freeDesc) (hk : segmentsFor text.length ≤ s.pool.freeSegs)
    (hr : s.recipients cls subj = []) (hn : ∀ m ∈ s.pool.msgs, m.number ≠ s.pool.nextNum) :
    ∃ x : Pool, s.storeOut cls kind subj text life =
        some (s.endedAtOnce cls x, .noRecipient) ∧
      x.msgs = s.pool.msgs ∧ x.freeDesc = s.pool.freeDesc := by
  have hr' : (s.takeShared (segmentsFor text.length)).recipients cls subj = [] := hr
  have hfind : ((s.stored (s.queuedMessage cls kind subj text life) (segmentsFor text.length)).countEnd cls
      EndCounts.addUndelivered).message s.pool.nextNum = some (s.queuedMessage cls kind subj text life) := by
    have hno : s.pool.msgs.find? (·.number == s.pool.nextNum) = none :=
      List.find?_eq_none.mpr fun m hm => by simpa using hn m hm
    show (s.pool.msgs ++ [s.queuedMessage cls kind subj text life]).find? (·.number == s.pool.nextNum) = _
    rw [List.find?_append, hno]
    simp [State.queuedMessage]
  have hfilter : (s.pool.msgs ++ [s.queuedMessage cls kind subj text life]).filter (·.number != s.pool.nextNum) = s.pool.msgs := by
    rw [List.filter_append, List.filter_eq_self.mpr fun m hm => by simpa using hn m hm]
    simp [State.queuedMessage]
  have stored : s.storeOut cls kind subj text life =
      some (((s.stored (s.queuedMessage cls kind subj text life) (segmentsFor text.length)).countEnd cls
        EndCounts.addUndelivered).release (s.queuedMessage cls kind subj text life), .noRecipient) := by
    simp only [State.storeOut, allocate_shared hd hk, List.isEmpty_iff, if_pos hr']
    split
    · rename_i m hm
      cases Option.some.inj (hm.symm.trans hfind)
      rfl
    · rename_i hm
      cases hm.symm.trans hfind
  exact ⟨_, stored, hfilter, Nat.sub_add_cancel hd⟩

end

/-! ### The CALL slip of an alert without recipient (R91) -/

section
variable (s : State) (reg : Register) (pool : Pool) (gw : Gateway) (link : HostLink)

theorem fillSlot_beside : (s.beside reg pool gw link).fillSlot = s.fillSlot.beside reg pool gw link := by
  have hslips : (s.beside reg pool gw link).slips = s.slips := rfl
  unfold State.fillSlot
  rw [hslips]
  split <;> rfl

/-- The slips and the desk after a slip joins depend on neither the Register, nor the pool, nor the links. -/
theorem joinSlip_beside (x : Slip) :
    ∃ l : HostLink, ((s.beside reg pool gw link).joinSlip x).1 = (s.joinSlip x).1.beside reg pool gw l := by
  by_cases hroom : s.slips.queue.length < 64
  · rw [joinSlip_room x hroom, joinSlip_room (s := s.beside reg pool gw link) x hroom]
    exact ⟨link, fillSlot_beside { s with slips := _, desk := _ } reg pool gw link⟩
  · have hfull := Nat.le_of_not_lt hroom
    rw [joinSlip_full x hfull, joinSlip_full (s := s.beside reg pool gw link) x hfull]
    exact ⟨_, rfl⟩

theorem callSlip_beside (p : Nat) (ss : Session) (reason : CallReason) :
    ∃ l : HostLink, (s.beside reg pool gw link).callSlip p ss reason = (s.callSlip p ss reason).beside reg pool gw l :=
  joinSlip_beside s reg pool gw link _

/-- What an alert that ends UNDELIVERED does to the slips and the desk is its CALL slip. -/
theorem alertUndelivered_beside (p : Nat) (ss : Session) (reason : CallReason) :
    ∃ (r : Register) (l : HostLink),
      (s.beside reg pool gw link).alertUndelivered p ss reason = (s.callSlip p ss reason).beside r pool gw l := by
  obtain ⟨l, hl⟩ := callSlip_beside s ((s.beside reg pool gw link).modRec p ss fun r => { r with alert := .undelivered }).reg pool gw
    (link.raise .alertUndelivered) p ss reason
  exact ⟨_, l, hl⟩

end

theorem joinSlip_rest (s : State) (x : Slip) : (s.joinSlip x).1.sched = s.sched ∧ (s.joinSlip x).1.recon = s.recon := by
  have filled (t : State) : t.fillSlot.sched = t.sched ∧ t.fillSlot.recon = t.recon := by
    unfold State.fillSlot
    split <;> exact ⟨rfl, rfl⟩
  dsimp only [State.joinSlip]
  split
  · exact filled _
  · exact ⟨rfl, rfl⟩

/-- With no DUE alert and no request waiting a serve pass does nothing (R144). -/
theorem servePass_idle {s : State} (hd : s.dueKeys = []) (hw : s.recon.waits = []) : s.servePass = s := by
  simp only [State.servePass, hd, serveAlerts, hw, List.length_nil, serveWaits]

theorem dueKeys_eq_nil_iff {s : State} (hw : Tab.wf clearedAt s.reg.recs = true) :
    s.dueKeys = [] ↔ ∀ (p : Nat) (ss : Session), (s.record p ss).alert ≠ .due := by
  have hmem := (State.filter_recs hw (p := fun _ r => r.alert == .due) fun _ => rfl).2
  rw [List.eq_nil_iff_forall_not_mem]
  refine ⟨fun h p ss hd => h (recKey p ss) ((hmem _).mpr ?_), fun h k hk => h _ _ (by simpa using (hmem k).mp hk)⟩
  rw [keyPupil_recKey, keySession_recKey]
  exact beq_iff_eq.mpr hd

/-! ### The three outcomes of an alert that becomes DUE (R107, R140, R91) -/

section
variable {s : State} {p : Nat} {ss : Session}

/-- The state in which an alert that has just become DUE asks for storage (R107). -/
def State.asksForAlert (s : State) (p : Nat) (ss : Session) : State := s.putRec p ss ((s.record p ss).dueNow s.clock.stamp)

theorem record_asksForAlert (s : State) (p : Nat) (ss : Session) :
    (s.asksForAlert p ss).record p ss = (s.record p ss).dueNow s.clock.stamp := s.record_putRec_of_alert (by simp [Rec.dueNow])

theorem alertBecomesDue_of_none (h : (s.asksForAlert p ss).tryAlert p ss = none) :
    s.alertBecomesDue p ss = (s.asksForAlert p ss).countReject .alert := by
  dsimp only [State.alertBecomesDue]
  split
  · rfl
  · rename_i e
    cases h.symm.trans e

theorem alertBecomesDue_of_some {t : State} {st : Stored} (h : (s.asksForAlert p ss).tryAlert p ss = some (t, st)) :
    s.alertBecomesDue p ss = t.afterStored st := by
  dsimp only [State.alertBecomesDue]
  split
  · rename_i e
    cases h.symm.trans e
  · rename_i e
    cases h.symm.trans e
    rfl

theorem tryAlert_none (hd : s.pool.freeDesc = 0) (hc : s.pool.credits.alert = 0) : s.tryAlert p ss = none := by
  have rejected (text : Text) : s.storeOut .alert .absenceAlert (.pupil p ss) text none = none := by
    unfold State.storeOut
    rw [allocate_none _ hd (show s.pool.credits.get .alert = 0 from hc)]
  simp only [State.tryAlert, rejected]

/-- The text of an alert's message (R150). -/
def State.alertText (s : State) (p : Nat) (ss : Session) : Text :=
  s.compose 0 (.pupil p ss) ((s.record p ss).asked.getD s.clock.stamp)

theorem tryAlert_of_queued {t : State} {n : Nat}
    (h : s.storeOut .alert .absenceAlert (.pupil p ss) (s.alertText p ss) none = some (t, .queued n)) :
    s.tryAlert p ss = some (t.modRec p ss fun r => { r with alert := .queued, asked := none }, .queued n) := by
  rw [State.alertText] at h
  simp only [State.tryAlert, h]

theorem tryAlert_of_noRecipient {t : State}
    (h : s.storeOut .alert .absenceAlert (.pupil p ss) (s.alertText p ss) none = some (t, .noRecipient)) :
    s.tryAlert p ss =
      some ((t.modRec p ss fun r => { r with asked := none }).alertUndelivered p ss .noRecipient, .noRecipient) := by
  rw [State.alertText] at h
  simp only [State.tryAlert, h]

/-- With room and a recipient the alert is QUEUED under the next number. -/
theorem tryAlert_queued (hd : 1 ≤ s.pool.freeDesc) (hk : 6 ≤ s.pool.freeSegs) (hr : s.recipients .alert (.pupil p ss) ≠ []) :
    ∃ t : State, s.tryAlert p ss = some (t.modRec p ss fun r => { r with alert := .queued, asked := none }, .queued s.pool.nextNum) ∧
      t.reg = s.reg ∧ t.sched.alertQ = s.sched.alertQ ++ [s.pool.nextNum] ∧ t.pool.freeDesc + 1 = s.pool.freeDesc := by
  have stored := storeOut_queued (text := s.alertText p ss) (kind := .absenceAlert) (life := none) hd
    ((segmentsFor_compose s 0 (.pupil p ss) _).trans hk) hr
  exact ⟨_, tryAlert_of_queued stored, rfl, rfl, Nat.sub_add_cancel hd⟩

/-- With room and no recipient it ends UNDELIVERED, its storage returned. -/
theorem tryAlert_noRecipient (hd : 1 ≤ s.pool.freeDesc) (hk : 6 ≤ s.pool.freeSegs) (hr : s.recipients .alert (.pupil p ss) = [])
    (hn : ∀ m ∈ s.pool.msgs, m.number ≠ s.pool.nextNum) :
    ∃ x : Pool, s.tryAlert p ss =
        some (((s.endedAtOnce .alert x).modRec p ss fun r => { r with asked := none }).alertUndelivered p ss .noRecipient,
          .noRecipient) ∧
      x.msgs = s.pool.msgs ∧ x.freeDesc = s.pool.freeDesc := by
  obtain ⟨x, hx, hmsgs, hdesc⟩ := storeOut_noRecipient (kind := .absenceAlert) (life := none) hd
    ((segmentsFor_compose s 0 (.pupil p ss) _).trans hk) hr hn
  exact ⟨x, tryAlert_of_noRecipient hx, hmsgs, hdesc⟩

/-- The records once an alert has ended for lack of a recipient. -/
theorem record_ended {r : Rec} (hr : s.record p ss = r) (hne : r.alert ≠ .noAlert) (q : Nat) (st : Session) :
    ((s.modRec p ss fun r => { r with asked := none }).alertUndelivered p ss .noRecipient).record q st =
      if (q, st) = (p, ss) then { r with alert := .undelivered, asked := none } else s.record q st := by
  rw [Serves.alertUndelivered_record]
  split
  · rename_i e
    cases e
    rw [State.record_modRec_of_alert _ (by simp),
      State.record_modRec_of_alert (f := fun r => { r with asked := none }) s (by rw [hr]; exact hne), hr]
  · rename_i e
    rw [State.record_modRec_other _ _ e, State.record_modRec_other _ _ e]

theorem alertBecomesDue_queued (hd : 1 ≤ s.pool.freeDesc) (hk : 6 ≤ s.pool.freeSegs)
    (hr : s.recipients .alert (.pupil p ss) ≠ []) :
    let u := s.alertBecomesDue p ss
    (u.record p ss).alert = .queued ∧ (u.record p ss).due = none ∧ u.sched.alertQ = s.sched.alertQ ++ [s.pool.nextNum] ∧
      u.pool.freeDesc + 1 = s.pool.freeDesc := by
  obtain ⟨t, ht, hreg, hq, hdesc⟩ := tryAlert_queued (s := s.asksForAlert p ss) hd hk hr
  have hrec := (t.record_modRec_of_alert (p := p) (ss := ss) (f := fun r => { r with alert := .queued, asked := none }) (by simp)).trans
    (congrArg (fun r : Rec => { r with alert := .queued, asked := none })
      ((State.record_congr hreg p ss).trans (record_asksForAlert s p ss)))
  rw [alertBecomesDue_of_some ht]
  intro u
  have hu : u.record p ss = _ := hrec
  rw [hu]
  exact ⟨rfl, rfl, hq, hdesc⟩

/-- An alert that has ended for lack of a recipient leaves no alert DUE where none was. -/
theorem dueKeys_ended {a : State} (hw : Tab.wf clearedAt s.reg.recs = true) (hreg : a.reg = (s.asksForAlert p ss).reg)
    (hdue : s.dueKeys = []) : ((a.modRec p ss fun r => { r with asked := none }).alertUndelivered p ss .noRecipient).dueKeys = [] := by
  obtain ⟨-, -, hwf⟩ := Serves.alertUndelivered_work (a.modRec p ss fun r => { r with asked := none }) p ss .noRecipient
  have hrec := (State.record_congr hreg p ss).trans (record_asksForAlert s p ss)
  refine (dueKeys_eq_nil_iff (hwf (Tab.wf_put (hreg ▸ Tab.wf_put hw _ _) _ _))).mpr fun q st => ?_
  rw [record_ended hrec (by simp [Rec.dueNow])]
  split
  · simp
  · rename_i e
    rw [State.record_congr hreg, State.asksForAlert, s.record_putRec_other _ e]
    exact (dueKeys_eq_nil_iff hw).mp hdue q st

/-- R91: an alert without recipient ends in the event, with its CALL slip; nothing waits for the storage that it gives back. -/
theorem alertBecomesDue_noRecipient (hw : Tab.wf clearedAt s.reg.recs = true) (hd : 1 ≤ s.pool.freeDesc) (hk : 6 ≤ s.pool.freeSegs)
    (hr : s.recipients .alert (.pupil p ss) = []) (hdue : s.dueKeys = []) (hwaits : s.recon.waits = [])
    (hn : ∀ m ∈ s.pool.msgs, m.number ≠ s.pool.nextNum) :
    let u := s.alertBecomesDue p ss
    (u.record p ss).alert = .undelivered ∧ (u.record p ss).due = none ∧ u.link.isSet .alertUndelivered = true ∧
      u.slips = (s.callSlip p ss .noRecipient).slips ∧ u.desk = (s.callSlip p ss .noRecipient).desk ∧ u.pool.msgs = s.pool.msgs ∧
      u.sched = s.sched ∧ u.pool.freeDesc = s.pool.freeDesc ∧
      u.gw.stats.alert.undelivered = min (s.gw.stats.alert.undelivered + 1) 4294967295 := by
  obtain ⟨x, hx, hmsgs, hdesc⟩ := tryAlert_noRecipient (s := s.asksForAlert p ss) hd hk hr hn
  generalize ha : (s.asksForAlert p ss).endedAtOnce .alert x = a at hx
  have hreg : a.reg = (s.asksForAlert p ss).reg := by rw [← ha]; rfl
  have hrecord := record_ended ((State.record_congr hreg p ss).trans (record_asksForAlert s p ss)) (by simp [Rec.dueNow])
  have hidle := dueKeys_ended hw hreg hdue
  obtain ⟨reg, l, hv⟩ : ∃ (r : Register) (l : HostLink),
      (a.modRec p ss fun r => { r with asked := none }).alertUndelivered p ss .noRecipient =
        (s.callSlip p ss .noRecipient).beside r x (s.endedAtOnce .alert x).gw l := by
    subst ha
    exact alertUndelivered_beside s _ x _ s.link p ss .noRecipient
  have hset : ((a.modRec p ss fun r => { r with asked := none }).alertUndelivered p ss .noRecipient).link.isSet .alertUndelivered =
      true := ((Serves.refl (w := False) False.elim).joinSlip _).1.raised _ (State.raise_isSet_same _ _)
  obtain ⟨hsched, hrecon⟩ := joinSlip_rest s (s.makeSlip .call p ss (.call .noRecipient s.clock.secs (s.contactNumbers p)))
  generalize (a.modRec p ss fun r => { r with asked := none }).alertUndelivered p ss .noRecipient = v at *
  have hwaiting : v.recon.waits = [] := by
    rw [hv]
    exact (congrArg Recon.waits hrecon).trans hwaits
  have hu : s.alertBecomesDue p ss = v := (alertBecomesDue_of_some hx).trans (servePass_idle hidle hwaiting)
  have hrec := (hrecord p ss).trans (if_pos rfl)
  rw [hu]
  refine ⟨congrArg Rec.alert hrec, congrArg Rec.due hrec, hset, ?_⟩
  rw [hv]
  exact ⟨rfl, rfl, hmsgs, hsched, hdesc, rfl⟩

end

/-- Settles O45: a session's close by group and by record, then the outcomes of an alert at its due time. -/
theorem sessionCloseStartsAlerts : Obligations.SessionCloseStartsAlerts := by
  refine ⟨fun s i ss pl x close hd hpl hx hne hc => ?_, fun s p ss => ?_⟩
  · intro ours marked hp hw
    have statuses (g : Nat) (st : Session) := s.closeSession_status i ss (close * 60) false g st
    have closes (p : Nat) := s.closeSession_record (p := p) i ss (close * 60) hp hw
    have hmarked (p : Nat) : marked p ↔ ((s.pupil p).inUse = true ∧ ((s.pupil p).group < 120 ∧ s.trackOf p = i) ∧
        s.groupStatus (s.pupil p).group ss = .submitted) ∧ (s.record p ss).unmarked := by
      simp only [marked, ours, Rec.unmarked, State.trackOf, and_assoc]
    refine ⟨_, sessionClose_does hd hpl hx hne hc, ?_, fun g hg he => ?_, fun g hg hne ha => ⟨?_, ?_⟩, fun g hg hne ha => ?_,
      fun g st hg => ?_, fun p hm => ?_, fun p hm ha he => ?_, fun p st hn => ?_⟩
    · rw [s.closeSession_session, if_pos ⟨rfl, rfl⟩]
    · rw [statuses, if_pos ⟨hg, rfl⟩, State.closedStatus, if_pos he]
    · rw [statuses, if_pos ⟨hg, rfl⟩, State.closedStatus, if_neg hne, if_pos ha]
    · exact s.closeSession_raised i ss _ _ hg.1 hg.2 ⟨hne, ha⟩
    · rw [statuses, if_pos ⟨hg, rfl⟩, State.closedStatus, if_neg hne, if_neg ha]
    · rw [statuses, if_neg fun h => hg.elim (fun hg => hg h.1) fun hst => hst h.2]
    · obtain ⟨hin, hu⟩ := (hmarked p).mp hm
      obtain ⟨hmark, hminutes, hsource, hlocked, -⟩ := (closes p).marked hin hu
      exact ⟨hmark, hminutes, hsource, hlocked⟩
    · obtain ⟨hin, hu⟩ := (hmarked p).mp hm
      obtain ⟨-, -, -, -, hheld⟩ := (closes p).marked hin hu
      exact hheld ha he
    · have waits : (s.record p st).Waits ((s.closeSession i ss (close * 60) false).record p st) := by
        by_cases hst : st = ss
        · subst hst
          exact (closes p).waits fun h => hn ⟨rfl, (hmarked p).mpr h⟩
        · exact closeSession_other hw hst _ p
      obtain ⟨hmark, hminutes, hsource, -⟩ := waits.sameMark
      exact ⟨hmark, hminutes, hsource⟩
  · intro r due
    refine ⟨alertDue_kept, alertDue_cancelled, fun h hm hd hc => ?_, fun h hm hd hk hr => ?_,
      fun h hm hd hk hr hdue hwaits hw hn => ?_⟩
    · have done := alertDue_due h hm
      rw [alertBecomesDue_of_none (tryAlert_none (s := s.asksForAlert p ss) hd hc)] at done
      exact done
    · exact ⟨_, alertDue_due h hm, alertBecomesDue_queued hd hk hr⟩
    · exact ⟨_, alertDue_due h hm, alertBecomesDue_noRecipient hw hd hk hr hdue hwaits hn⟩

end Sys2Proof.Machine
end

