-- ==== Sys2Proof/Proofs/MarkWrites.lean ====
section
/-! SUPPORT. What a mark that a source writes does (R98, R109, R117, R119): to the record, to the pupil's tally, and to everything else. -/

namespace Sys2Proof.Machine

/-! ## Records whose alert alone moves -/

/-- A record apart from its alert and the time of its request (R107, R143). -/
def Rec.Realerted (r v : Rec) : Prop := ∃ (x : AlertState) (k : Option Stamp), v = { r with alert := x, asked := k }

theorem Rec.Realerted.refl (r : Rec) : r.Realerted r := ⟨r.alert, r.asked, rfl⟩

theorem Rec.Realerted.trans {r v w : Rec} (h : r.Realerted v) (k : v.Realerted w) : r.Realerted w := by
  obtain ⟨x, a, rfl⟩ := h
  obtain ⟨y, b, rfl⟩ := k
  exact ⟨y, b, rfl⟩

theorem Rec.Served.realerted {r v : Rec} (h : r.Served v) : r.Realerted v := by
  rcases h with rfl | ⟨x, -, rfl⟩
  · exact .refl _
  · exact ⟨x, none, rfl⟩

/-- Serving moves a record only as its alert waits. -/
theorem Serves.waits {w : Prop} {a s : State} (h : Serves w a s) (hw : w) (p : Nat) (ss : Session) :
    (a.record p ss).Waits (s.record p ss) := by
  refine ⟨h.others hw p ss, ?_⟩
  by_cases hd : (a.record p ss).alert = .due
  · exact h.listed p ss (by simp [hd])
  · exact .inl (h.others hw p ss hd)

/-- Pool work in which alerts are withdrawn and served: of each record only the alert moves, and a CANCELLED one stays. -/
structure Withdraws (a b : State) : Prop where
  leaves : a.poolLeaves b
  wf : Tab.wf clearedAt a.reg.recs = true → Tab.wf clearedAt b.reg.recs = true
  records : Tab.wf clearedAt a.reg.recs = true → ∀ (p : Nat) (ss : Session), (a.record p ss).Realerted (b.record p ss) ∧
    ((a.record p ss).alert = .cancelled → b.record p ss = a.record p ss)

namespace Withdraws
variable {a s t : State}

theorem refl (s : State) : Withdraws s s := ⟨s.poolLeaves_refl, id, fun _ _ _ => ⟨.refl _, fun _ => rfl⟩⟩

theorem trans (h : Withdraws a s) (k : Withdraws s t) : Withdraws a t := by
  refine ⟨State.poolLeaves_trans h.leaves k.leaves, fun hw => k.wf (h.wf hw), fun hw p ss => ?_⟩
  obtain ⟨first, cancelled⟩ := h.records hw p ss
  obtain ⟨second, stays⟩ := k.records (h.wf hw) p ss
  exact ⟨first.trans second, fun hc => (stays (by rw [cancelled hc, hc])).trans (cancelled hc)⟩

theorem of_reg (hl : s.poolLeaves t) (hreg : t.reg = s.reg) : Withdraws s t := by
  refine ⟨hl, fun hw => hreg ▸ hw, fun _ p ss => ?_⟩
  rw [State.record_congr hreg]
  exact ⟨.refl _, fun _ => rfl⟩

theorem of_serves (h : Serves (Tab.wf clearedAt s.reg.recs = true) s t) : Withdraws s t := by
  refine ⟨h.leaves, h.wf, fun hw p ss => ⟨(h.waits hw p ss).2.realerted, fun hc => h.others hw p ss (by simp [hc])⟩⟩

theorem servePass (s : State) : Withdraws s s.servePass := of_serves (Serves.refl id).servePass

theorem release (s : State) (m : Message) : Withdraws s (s.release m) := of_serves ((Serves.refl id).release m).1

theorem alertMark (s : State) (m : Message) : Withdraws s (s.alertMark m .cancelled) := by
  unfold State.alertMark
  split
  · split
    · split
      · exact refl s
      · rename_i p ss _ _
        refine ⟨s.modRec_leaves p ss _, fun hw => Tab.wf_put hw _ _, fun hw q st => ?_⟩
        by_cases e : (q, st) = (p, ss)
        · cases e
          rw [s.record_modRec_of_alert (f := fun r => { r with alert := .cancelled }) (by simp)]
          exact ⟨⟨_, (s.record p ss).asked, rfl⟩, fun hc => by rw [← hc]⟩
        · rw [s.record_modRec_other _ e]
          exact ⟨.refl _, fun _ => rfl⟩
    · exact refl s
  · exact refl s

/-- R156: a withdrawal, with the serve pass of the storage that it returns. -/
theorem withdraw (s : State) (m : Message) : Withdraws s (s.withdraw m) := by
  have dequeued (t : State) : Withdraws t (t.dequeue m.cls m.number) := of_reg (t.dequeue_leaves _ _) rfl
  have counted (t : State) : Withdraws t (t.countEnd m.cls EndCounts.addWithdrawn) := of_reg (t.countEnd_leaves _ _) rfl
  exact ((((alertMark s m).trans (dequeued _)).trans (counted _)).trans (release _ m)).trans (servePass _)

theorem withdrawAll (s : State) (ns : List Nat) : Withdraws s (s.withdrawAll ns) := by
  unfold State.withdrawAll
  induction ns generalizing s with
  | nil => exact refl s
  | cons n ns ih =>
    refine trans ?_ (ih _)
    dsimp only
    split
    · split
      · exact withdraw s _
      · exact refl s
    · exact refl s

end Withdraws

/-- R141: a request is stored, or joins the wait list. -/
theorem Serves.requestMsg {w : Prop} {a s : State} (h : Serves w a s) (kind : MsgKind) (subj : Subject) (template : Option Nat) :
    Serves w a (s.requestMsg kind subj template).1 := by
  have joined (t : State) (e : WaitEntry) (k : Serves w a t) : Serves w a (t.joinWait e).1 := by
    have leaves : t.poolLeaves (t.joinWait e).1 ∧ (t.joinWait e).1.desk = t.desk ∧ (t.joinWait e).1.link = t.link := by
      unfold State.joinWait
      split <;> exact ⟨t.poolLeaves_refl, rfl, rfl⟩
    obtain ⟨hl, hdesk, hlink⟩ := leaves
    exact k.of_reg hl (by rw [hdesk]) (fun c hc => by rw [hlink]; exact hc) (State.joinWait_reg t e)
  dsimp only [State.requestMsg]
  split
  · rename_i t st he
    have stored : Serves w a t ∧ t.reg = s.reg := h.storeOut he
    exact stored.1.afterStored st
  · exact joined _ _ (h.countReject _).1

/-! ## What a mark leaves alone -/

/-- Work on one pupil-session: of every other record at most the alert moves, of every other pupil nothing in the tally; beside them it is
pool work. -/
structure Marks (p : Nat) (ss : Session) (a b : State) : Prop where
  leaves : State.poolLeaves { a with reg.tallies := b.reg.tallies } b
  wf : Tab.wf clearedAt a.reg.recs = true → Tab.wf clearedAt b.reg.recs = true
  others : Tab.wf clearedAt a.reg.recs = true → ∀ (q : Nat) (st : Session), (q, st) ≠ (p, ss) →
    (a.record q st).Realerted (b.record q st)
  tallied : Tab.wf zeroTally a.reg.tallies = true → Tab.wf zeroTally b.reg.tallies = true
  tallies : Tab.wf zeroTally a.reg.tallies = true → ∀ q : Nat, q ≠ p → b.tally q = a.tally q

namespace Marks
variable {p : Nat} {ss : Session} {a s t : State}

theorem trans (h : Marks p ss a s) (k : Marks p ss s t) : Marks p ss a t where
  leaves := by
    have first : State.poolLeaves { a with reg.tallies := t.reg.tallies } { s with reg.tallies := t.reg.tallies } := by
      obtain ⟨hh, hs, ⟨h1, h2, -⟩, hr, ho, hl, hg⟩ := h.leaves
      exact ⟨hh, hs, ⟨h1, h2, rfl⟩, hr, ho, hl, hg⟩
    exact State.poolLeaves_trans first k.leaves
  wf hw := k.wf (h.wf hw)
  others hw q st hne := (h.others hw q st hne).trans (k.others (h.wf hw) q st hne)
  tallied ht := k.tallied (h.tallied ht)
  tallies ht q hq := (k.tallies (h.tallied ht) q hq).trans (h.tallies ht q hq)

theorem of_withdraws (h : Withdraws s t) : Marks p ss s t := by
  obtain ⟨leaves, wf, records⟩ := h
  obtain ⟨hh, hs, ⟨h1, h2, h3⟩, hr, ho, hl, hg⟩ := leaves
  refine ⟨⟨hh, hs, ⟨h1, h2, rfl⟩, hr, ho, hl, hg⟩, wf, fun hw q st _ => (records hw q st).1, fun ht => h3 ▸ ht, fun _ q _ => ?_⟩
  rw [State.tally, State.tally, h3]

theorem of_moves (h : Moves (fun q st => (q, st) = (p, ss)) s t) : Marks p ss s t where
  leaves := h.leaves
  wf := h.wf
  others hw q st hne := (h.others hw q st hne).2.realerted
  tallied ht := (h.tallies ht).symm ▸ ht
  tallies ht q _ := by rw [State.tally, State.tally, h.tallies ht]

theorem refl (p : Nat) (ss : Session) (s : State) : Marks p ss s s := of_withdraws (.refl s)

theorem putRec (s : State) (p : Nat) (ss : Session) (r : Rec) : Marks p ss s (s.putRec p ss r) := of_moves (.putRec s p ss r)

theorem putTally (s : State) (p : Nat) (ss : Session) (w : Tally) : Marks p ss s (s.putTally p w) :=
  ⟨State.poolLeaves_refl _, id, fun _ _ _ _ => .refl _, fun ht => Tab.wf_put ht _ _, fun _ _ hq => Tab.get_put_other _ _ hq⟩

theorem requestMsg (s : State) (p : Nat) (ss : Session) (kind : MsgKind) (subj : Subject) (template : Option Nat) :
    Marks p ss s (s.requestMsg kind subj template).1 := of_withdraws (.of_serves ((Serves.refl id).requestMsg kind subj template))

theorem startAlert (s : State) (p : Nat) (ss : Session) (start : Nat) (closing : Bool) :
    Marks p ss s (s.startAlert p ss start closing) := of_moves (s.startAlert_moves p ss start closing)

theorem of_ite {c : Prop} [Decidable c] (hs : Marks p ss a s) (ht : Marks p ss a t) : Marks p ss a (if c then s else t) := by
  split
  · exact hs
  · exact ht

theorem set (h : Marks p ss s t) : t.set = s.set := by
  obtain ⟨⟨-, hset, -⟩, -⟩ := h.leaves
  exact hset

theorem clock (h : Marks p ss s t) : t.clock = s.clock := by
  obtain ⟨⟨hclock, -⟩, -⟩ := h.leaves
  exact hclock

theorem plan (h : Marks p ss s t) : t.plan = s.plan := State.poolLeaves_plan (s := { s with reg.tallies := t.reg.tallies }) h.leaves

theorem hand (h : Marks p ss s t) : t.link.hand = s.link.hand := by
  obtain ⟨hhand, -⟩ := State.sameHand_of_poolLeaves h.leaves
  exact hhand

end Marks

/-! ## The alert of a record that leaves N (R109) -/

/-- An alert that a mark other than N ends. -/
def AlertState.stops : AlertState → Bool
  | .held => true
  | .withheld => true
  | .due => true
  | .queued => true
  | _ => false

/-- The record once its mark has left N. -/
def Rec.stopped (r : Rec) : Rec := if r.alert.stops then { r with alert := .cancelled, due := none, asked := none } else r

section
variable {s : State} {p : Nat} {ss : Session}

/-- An alert that stops is CANCELLED in the record, and the message of a QUEUED one is withdrawn. -/
theorem stopAlert_cases (s : State) (p : Nat) (ss : Session) :
    ((s.record p ss).alert.stops = false ∧ s.stopAlert p ss = (s, .untouched)) ∨
      ((s.record p ss).alert.stops = true ∧ ∃ (ns : List Nat) (e : AlertEffect), e ≠ .untouched ∧
        s.stopAlert p ss =
          ((s.modRec p ss fun r => { r with alert := .cancelled, due := none, asked := none }).withdrawAll ns, e)) := by
  unfold State.stopAlert
  cases h : (s.record p ss).alert
  case held => exact .inr ⟨rfl, [], .cancelled, by simp, rfl⟩
  case withheld => exact .inr ⟨rfl, [], .cancelled, by simp, rfl⟩
  case due => exact .inr ⟨rfl, [], .cancelled, by simp, rfl⟩
  case queued => exact .inr ⟨rfl, _, .withdrawn, by simp, rfl⟩
  all_goals exact .inl ⟨rfl, rfl⟩

theorem stopAlert_marks (s : State) (p : Nat) (ss : Session) : Marks p ss s (s.stopAlert p ss).1 := by
  rcases stopAlert_cases s p ss with ⟨-, e⟩ | ⟨-, ns, x, -, e⟩ <;> rw [e]
  · exact .refl p ss s
  · exact (Marks.putRec s p ss _).trans (.of_withdraws (.withdrawAll _ ns))

theorem stopAlert_record (hw : Tab.wf clearedAt s.reg.recs = true) : (s.stopAlert p ss).1.record p ss = (s.record p ss).stopped := by
  rcases stopAlert_cases s p ss with ⟨hs, e⟩ | ⟨hs, ns, x, -, e⟩ <;> rw [e, Rec.stopped, hs]
  · rfl
  · have cancelled := s.record_modRec_of_alert (p := p) (ss := ss)
      (f := fun r => { r with alert := .cancelled, due := none, asked := none }) (by simp)
    have stays := (Withdraws.withdrawAll (s.modRec p ss fun r => { r with alert := .cancelled, due := none, asked := none }) ns).records
      (Tab.wf_put hw _ _) p ss
    exact (stays.2 (by rw [cancelled])).trans cancelled

theorem stopAlert_effect (s : State) (p : Nat) (ss : Session) :
    ((s.stopAlert p ss).2 != .untouched) = (s.record p ss).alert.stops := by
  rcases stopAlert_cases s p ss with ⟨hs, e⟩ | ⟨hs, ns, x, hx, e⟩ <;> rw [e, hs]
  · rfl
  · simpa using hx

/-! ## The notices that a mark asks for (R109, R119) -/

/-- The record asks for its ARRIVAL CORRECTION: P, L or U, its alert SENDING or SENT, not asked before. -/
abbrev Rec.asks (r : Rec) : Prop := r.mark.present = true ∧ (r.alert = .sending ∨ r.alert = .sent) ∧ r.corrected = false

/-- The tally asks for its PATTERN NOTICE at a threshold. -/
abbrev Tally.notifies (t : Tally) (k : Nat) : Prop := k ≠ 0 ∧ k ≤ t.count ∧ t.notified = false

theorem correctAlert_eq (s : State) (p : Nat) (ss : Session) :
    s.correctAlert p ss = if (s.record p ss).asks then
      ((State.requestMsg (s.putRec p ss { s.record p ss with corrected := true }) .arrivalCorrection (.pupil p ss) none).1, true)
    else (s, false) := by
  simp [State.correctAlert, Rec.asks, State.modRec, and_assoc]

theorem patternNotice_eq (s : State) (p : Nat) (ss : Session) :
    s.patternNotice p ss = if (s.tally p).notifies s.set.options.threshold then
      (State.requestMsg (s.putTally p { s.tally p with notified := true }) .patternNotice (.pupil p ss) none).1
    else s := by
  simp [State.patternNotice, Tally.notifies, and_assoc]

theorem correctAlert_marks (s : State) (p : Nat) (ss : Session) : Marks p ss s (s.correctAlert p ss).1 := by
  rw [correctAlert_eq]
  split
  · exact (Marks.putRec s p ss _).trans (.requestMsg _ p ss _ _ _)
  · exact .refl p ss s

theorem patternNotice_marks (s : State) (p : Nat) (ss : Session) : Marks p ss s (s.patternNotice p ss) := by
  rw [patternNotice_eq]
  split
  · exact (Marks.putTally s p ss _).trans (.requestMsg _ p ss _ _ _)
  · exact .refl p ss s

/-- The record once its correction has been asked for, where it asks. -/
def Rec.withCorrection (r : Rec) : Rec := if r.asks then { r with corrected := true } else r

/-- The tally once its notice has been asked for, where it asks. -/
def Tally.withNotice (t : Tally) (k : Nat) : Tally := if t.notifies k then { t with notified := true } else t

theorem correctAlert_record (hw : Tab.wf clearedAt s.reg.recs = true) :
    (s.correctAlert p ss).1.record p ss = (s.record p ss).withCorrection := by
  rw [correctAlert_eq, Rec.withCorrection]
  split
  · rename_i h
    have hput := s.record_putRec_of_wf (p := p) (ss := ss) hw { s.record p ss with corrected := true }
    have served := (Serves.refl id).requestMsg (s := s.putRec p ss { s.record p ss with corrected := true })
      .arrivalCorrection (.pupil p ss) none
    refine (served.others (Tab.wf_put hw _ _) p ss ?_).trans hput
    rw [hput]
    rcases h.2.1 with e | e <;> simp [e]
  · rfl

theorem tally_of_poolLeaves {t : State} (h : s.poolLeaves t) (q : Nat) : t.tally q = s.tally q := by
  obtain ⟨-, -, ⟨-, -, htallies⟩, -⟩ := h
  rw [State.tally, State.tally, htallies]

theorem tally_requestMsg (s : State) (kind : MsgKind) (subj : Subject) (template : Option Nat) (q : Nat) :
    (s.requestMsg kind subj template).1.tally q = s.tally q :=
  tally_of_poolLeaves ((Serves.refl (w := False) False.elim).requestMsg kind subj template).leaves q

theorem stopAlert_tally (s : State) (p q : Nat) (ss : Session) : (s.stopAlert p ss).1.tally q = s.tally q := by
  rcases stopAlert_cases s p ss with ⟨-, e⟩ | ⟨-, ns, x, -, e⟩ <;> rw [e]
  exact tally_of_poolLeaves (Withdraws.withdrawAll _ ns).leaves q

theorem correctAlert_tally (s : State) (p q : Nat) (ss : Session) : (s.correctAlert p ss).1.tally q = s.tally q := by
  rw [correctAlert_eq]
  split
  · exact tally_requestMsg _ _ _ _ q
  · rfl

theorem tally_putTally (ht : Tab.wf zeroTally s.reg.tallies = true) (w : Tally) : (s.putTally p w).tally p = w :=
  Tab.get_put_same ht p w

theorem patternNotice_tally (ht : Tab.wf zeroTally s.reg.tallies = true) :
    (s.patternNotice p ss).tally p = (s.tally p).withNotice s.set.options.threshold := by
  rw [patternNotice_eq, Tally.withNotice]
  split
  · exact (tally_requestMsg _ _ _ _ p).trans (tally_putTally ht _)
  · rfl

theorem patternNotice_waits (hw : Tab.wf clearedAt s.reg.recs = true) :
    (s.record p ss).Waits ((s.patternNotice p ss).record p ss) := by
  rw [patternNotice_eq]
  split
  · have served := (Serves.refl id).requestMsg (s := s.putTally p { s.tally p with notified := true }) .patternNotice (.pupil p ss) none
    exact served.waits hw p ss
  · exact .refl _

end

/-! ## A mark with its consequences -/

section
variable (s : State) (p : Nat) (ss : Session) (w : MarkWrite)

/-- The mark is written (R98), … -/
def State.markWritten : State := s.putRec p ss ((s.record p ss).write w)

/-- … the alert of a mark that leaves N is stopped, … -/
def State.markStopped : State × AlertEffect :=
  if (s.record p ss).mark = .n ∧ w.mark ≠ .n then (s.markWritten p ss w).stopAlert p ss else (s.markWritten p ss w, .untouched)

/-- … a change asks for its correction, … -/
def State.markCorrected : State × Bool :=
  if (s.record p ss).mark ≠ w.mark then (s.markStopped p ss w).1.correctAlert p ss else ((s.markStopped p ss w).1, false)

/-- … and the tally follows. -/
def State.markTallied : State :=
  (s.markCorrected p ss w).1.putTally p
    (((s.markCorrected p ss w).1.tally p).adjust (s.record p ss).mark (s.record p ss).minutes w.mark w.minutes)

/-- A change into L or U. -/
abbrev Rec.lateBy (r : Rec) (m : Mark) : Prop := r.mark.late = false ∧ m.late = true

theorem applyMark_eq :
    s.applyMark p ss w = (if (s.record p ss).lateBy w.mark then (s.markTallied p ss w).patternNotice p ss else s.markTallied p ss w,
      ⟨(s.markStopped p ss w).2, (s.markCorrected p ss w).2⟩) := by
  simp only [State.applyMark, State.markTallied, State.markCorrected, State.markStopped, State.markWritten, Rec.lateBy,
    Bool.and_eq_true, decide_eq_true_eq, Bool.not_eq_true']

theorem record_markWritten : (s.markWritten p ss w).record p ss = (s.record p ss).write w :=
  s.record_putRec_of_ne fun e => by simpa [Rec.write, Rec.cleared] using congrArg Rec.source e

theorem markStopped_marks : Marks p ss s (s.markStopped p ss w).1 := by
  have written : Marks p ss s (s.markWritten p ss w) := .putRec s p ss _
  unfold State.markStopped
  split
  · exact written.trans (stopAlert_marks _ p ss)
  · exact written

theorem markCorrected_marks : Marks p ss s (s.markCorrected p ss w).1 := by
  unfold State.markCorrected
  split
  · exact (markStopped_marks s p ss w).trans (correctAlert_marks _ p ss)
  · exact markStopped_marks s p ss w

theorem markTallied_marks : Marks p ss s (s.markTallied p ss w) := (markCorrected_marks s p ss w).trans (.putTally _ p ss _)

/-- A mark leaves everything but its own record and tally, and what waits in the pool. -/
theorem applyMark_marks : Marks p ss s (s.applyMark p ss w).1 := by
  rw [applyMark_eq]
  exact .of_ite ((markTallied_marks s p ss w).trans (patternNotice_marks _ p ss)) (markTallied_marks s p ss w)

end

/-! ## The record and the tally that a mark leaves -/

/-- The record with a mark written, an alert that the mark ends CANCELLED. -/
def Rec.written (r : Rec) (w : MarkWrite) : Rec := if r.mark = .n ∧ w.mark ≠ .n then (r.write w).stopped else r.write w

/-- The record that a mark leaves, its own alert not served since. -/
def Rec.remarked (r : Rec) (w : MarkWrite) : Rec := if r.mark ≠ w.mark then (r.written w).withCorrection else r.written w

/-- The tally that a mark leaves, at a threshold. -/
def Tally.remarked (t : Tally) (k : Nat) (r : Rec) (w : MarkWrite) : Tally :=
  let x := t.adjust r.mark r.minutes w.mark w.minutes
  if r.lateBy w.mark then x.withNotice k else x

section
variable {s : State} {p : Nat} {ss : Session} {w : MarkWrite}

theorem markStopped_record (hw : Tab.wf clearedAt s.reg.recs = true) :
    (s.markStopped p ss w).1.record p ss = (s.record p ss).written w := by
  unfold State.markStopped Rec.written
  split
  · rw [stopAlert_record (Tab.wf_put hw _ _), record_markWritten]
  · exact record_markWritten s p ss w

theorem markCorrected_record (hw : Tab.wf clearedAt s.reg.recs = true) :
    (s.markCorrected p ss w).1.record p ss = (s.record p ss).remarked w := by
  have stopped := markStopped_record (p := p) (ss := ss) (w := w) hw
  unfold State.markCorrected Rec.remarked
  rw [← stopped]
  split
  · exact correctAlert_record ((markStopped_marks s p ss w).wf hw)
  · rfl

theorem applyMark_record (hw : Tab.wf clearedAt s.reg.recs = true) :
    ((s.record p ss).remarked w).Waits ((s.applyMark p ss w).1.record p ss) := by
  rw [applyMark_eq, ← markCorrected_record hw]
  dsimp only
  split
  · exact patternNotice_waits (s := s.markTallied p ss w) ((markCorrected_marks s p ss w).wf hw)
  · exact .refl _

theorem markCorrected_tally (s : State) (p q : Nat) (ss : Session) (w : MarkWrite) :
    (s.markCorrected p ss w).1.tally q = s.tally q := by
  have stopped : (s.markStopped p ss w).1.tally q = s.tally q := by
    unfold State.markStopped
    split
    · exact stopAlert_tally _ p q ss
    · rfl
  unfold State.markCorrected
  split
  · exact (correctAlert_tally _ p q ss).trans stopped
  · exact stopped

theorem tally_markTallied (ht : Tab.wf zeroTally s.reg.tallies = true) :
    (s.markTallied p ss w).tally p = (s.tally p).adjust (s.record p ss).mark (s.record p ss).minutes w.mark w.minutes := by
  rw [← markCorrected_tally s p p ss w]
  exact tally_putTally ((markCorrected_marks s p ss w).tallied ht) _

theorem applyMark_tally (ht : Tab.wf zeroTally s.reg.tallies = true) :
    (s.applyMark p ss w).1.tally p = (s.tally p).remarked s.set.options.threshold (s.record p ss) w := by
  rw [applyMark_eq, Tally.remarked, ← (markTallied_marks s p ss w).set, ← tally_markTallied ht]
  dsimp only
  split
  · exact patternNotice_tally ((markTallied_marks s p ss w).tallied ht)
  · rfl

end

/-! ## A mark that is taken (R98, R117) -/

theorem Mark.late_iff (m : Mark) : m.late = true ↔ m = .l ∨ m = .u := by cases m <;> simp [Mark.late]

/-- The tally follows a mark: its count and minutes as R117 says, and at most for a change into L or U its notice. -/
def Tally.Follows (t v : Tally) (r : Rec) (w : MarkWrite) : Prop :=
  v = t.adjust r.mark r.minutes w.mark w.minutes ∨
    (r.lateBy w.mark ∧ v = { t.adjust r.mark r.minutes w.mark w.minutes with notified := true })

theorem Tally.follows_remarked (t : Tally) (k : Nat) (r : Rec) (w : MarkWrite) : t.Follows (t.remarked k r w) r w := by
  unfold Tally.remarked Tally.withNotice
  dsimp only
  split
  · split
    · exact .inr ⟨‹_›, rfl⟩
    · exact .inl rfl
  · exact .inl rfl

section
variable {s t : State} {p : Nat} {ss : Session} {w : MarkWrite}

/-- A state in which the record has been written, the tally follows and the rest stays has the mark changed. -/
theorem changedMark_of_write (hr : (t.record p ss).marking = ((s.record p ss).write w).marking)
    (hothers : ∀ (q : Nat) (st : Session), (q, st) ≠ (p, ss) → (s.record q st).Realerted (t.record q st))
    (htallies : ∀ q : Nat, q ≠ p → t.tally q = s.tally q) (htally : (s.tally p).Follows (t.tally p) (s.record p ss) w) :
    s.changedMark t p ss w.mark w.minutes w.source := by
  simp only [Rec.marking, Rec.write, Rec.mk.injEq] at hr
  obtain ⟨hmark, hminutes, hsource, -, -, hexplained, -, harrival, -⟩ := hr
  refine ⟨hmark, hminutes, hsource, ?_, fun hp hl => ?_, hothers, htallies, ?_⟩
  · rw [hexplained, Bool.eq_iff_iff]
    simp [Mark.late_iff]
  · have absent : w.mark.present ≠ true := by simpa [Mark.present_iff, hp] using hl
    simpa [absent] using harrival
  simp only [← Mark.late_iff, Bool.not_eq_true]
  refine ⟨fun hwas hnow => ?_, fun hwas hnow => ?_, fun hwas hnow => ?_, fun hwas hnow => ?_⟩ <;>
    obtain e | ⟨⟨hnot, hlate⟩, e⟩ := htally <;> simp_all [Tally.adjust]

/-- A mark taken by a source other than the office. -/
theorem tookMark_of_write (hr : (t.record p ss).marking = ((s.record p ss).write w).marking) (hlock : w.lock = none)
    (h : s.changedMark t p ss w.mark w.minutes w.source) : s.tookMark t p ss w.mark w.minutes w.source := by
  simp only [Rec.marking, Rec.write, Rec.mk.injEq, hlock] at hr
  obtain ⟨-, -, -, hlocked, hexpected, -⟩ := hr
  exact ⟨h, hlocked, hexpected⟩

/-- The record that a mark leaves carries the marking written. -/
theorem applyMark_marking (s : State) (p : Nat) (ss : Session) (w : MarkWrite) :
    ((s.applyMark p ss w).1.record p ss).marking = ((s.record p ss).write w).marking := by
  have written : (s.putRec p ss ((s.record p ss).write w)).record p ss = (s.record p ss).write w := record_markWritten s p ss w
  have kept := MarksKept.applyMark s p ss w p ss (by rw [written]; simp [Rec.write])
  rwa [written] at kept

end

end Sys2Proof.Machine
end

