-- ==== Sys2Proof/Proofs/Precedence.lean ====
section
/-! CLAIM. What each source brings to a record (R100): refuted at a table of records that lists one pupil's session twice. -/

namespace Sys2Proof.Machine

/-- A state whose table of records lists record 1 twice, the earlier listing asking for storage and the later one carrying mark P and a DUE
alert; record 0's alert is SENDING. The statement asks canonical form of the tallies alone, which this state has. -/
def twiceListed : State :=
  { State.reset with
    reg.recs :=
      [(0, { Rec.cleared with alert := .sending }),
        (2, { Rec.cleared with asked := some ⟨⟨1, 1, 2000⟩, 0⟩ }),
        (2, { Rec.cleared with mark := .p, alert := .due })] }

theorem twiceListed_tallies : Tab.wf zeroTally twiceListed.reg.tallies = true := rfl

theorem twiceListed_first_mark : (twiceListed.record 0 .am).mark = .nothing := rfl

theorem twiceListed_second_mark : (twiceListed.record 1 .am).mark = .nothing := rfl

/-- The register's P on record 0 asks for a correction, the pool looks for storage, record 1's alert is served by its earlier listing, and the
later listing, mark and all, becomes what record 1 reads. -/
theorem twiceListed_entry_second_mark :
    ((twiceListed.registerEntry 0 .am .p).1.record 1 .am).mark = .p := by decide

/-- Refutes O42: canonical form of the table of records is not among the hypotheses of its second part, and where a record is listed twice, a
register P on another record changes the mark that is read of it. -/
theorem not_sourcesTakeTheirPrecedence : ¬ Obligations.SourcesTakeTheirPrecedence := by
  rintro ⟨-, sources⟩
  obtain ⟨register, -⟩ := sources twiceListed 0 .am twiceListed_tallies
  obtain ⟨-, ⟨-, -, -, -, -, others, -⟩, -⟩ := register (.inl twiceListed_first_mark)
  obtain ⟨a, k, second⟩ := others 1 .am (by decide)
  have kept := congrArg Rec.mark second
  rw [twiceListed_entry_second_mark] at kept
  exact absurd (kept.trans twiceListed_second_mark) (by decide)

end Sys2Proof.Machine
end

