-- ==== Sys2Proof/Proofs/Registers.lean ====
section
/-! CLAIM. REGISTER SUBMIT, on time and late (R110, R111, R113). -/

namespace Sys2Proof

/-! ## The entries of a register (R110) -/

/-- An entry that R110 allows. -/
abbrev RawEntry.suits (e : RawEntry) : Prop :=
  e.pupil < 2400 ∧ (((e.mark = 1 ∨ e.mark = 4) ∧ e.minutes = 0) ∨ (e.mark = 2 ∧ 1 ≤ e.minutes ∧ e.minutes ≤ 240))

/-- The pupil and the mark of an entry that R110 allows. -/
def RawEntry.named (e : RawEntry) : Nat × Machine.Entry :=
  (e.pupil, if e.mark = 1 then .p else if e.mark = 4 then .x else .l e.minutes)

end Sys2Proof

namespace Sys2Proof.Machine

theorem entry?_of_suits {e : RawEntry} (h : e.suits) : entry? e = some e.named.2 := by
  obtain ⟨p, m, n⟩ := e
  obtain ⟨-, ⟨rfl | rfl, rfl⟩ | ⟨rfl, hlo, hhi⟩⟩ := h
  · rfl
  · rfl
  · exact if_pos ⟨hlo, hhi⟩

theorem Mark.code_of_ofCode {n : Nat} {m : Mark} (h : Mark.ofCode n = some m) : n = m.code := by
  rcases Nat.lt_or_ge n 8 with hn | hn
  · interval_cases n <;> cases h <;> rfl
  · match n, hn, h with
    | n + 8, _, h => cases h

theorem entry?_suits {e : RawEntry} {y : Entry} (h : entry? e = some y) (hp : e.pupil < 2400) : e.suits := by
  refine ⟨hp, ?_⟩
  unfold entry? at h
  split at h
  · exact .inl ⟨.inl (Mark.code_of_ofCode ‹_›), (Option.ite_none_right_eq_some.mp h).1⟩
  · exact .inl ⟨.inr (Mark.code_of_ofCode ‹_›), (Option.ite_none_right_eq_some.mp h).1⟩
  · exact .inr ⟨Mark.code_of_ofCode ‹_›, (Option.ite_none_right_eq_some.mp h).1⟩
  · cases h

theorem entries?_of_suits {l : List RawEntry} (h : ∀ e ∈ l, e.suits) : entries? l = some (l.map RawEntry.named) := by
  induction l with
  | nil => rfl
  | cons e l ih =>
    have first := h e List.mem_cons_self
    have rest := ih fun x hx => h x (List.mem_cons_of_mem _ hx)
    simp [entries?, entry?_of_suits first, rest, (pupilOk_iff _).mpr first.1, RawEntry.named]

theorem entries?_suits {l : List RawEntry} {ys : List (Nat × Entry)} (h : entries? l = some ys) :
    ys.length = l.length ∧ ∀ e ∈ l, e.suits := by
  induction l generalizing ys with
  | nil =>
    cases h
    exact ⟨rfl, by simp⟩
  | cons e l ih =>
    simp only [entries?] at h
    split at h
    · rename_i y rest hy hrest
      obtain ⟨hp, h⟩ := Option.ite_none_right_eq_some.mp h
      cases h
      obtain ⟨length, others⟩ := ih hrest
      exact ⟨congrArg (· + 1) length, List.forall_mem_cons.mpr ⟨entry?_suits hy ((pupilOk_iff _).mp hp), others⟩⟩
    · cases h

/-! ## What an entry leaves alone -/

theorem handConflict_hand (s : State) (p : Nat) (ss : Session) (k : ConflictKind) (m : Mark) :
    (s.handConflict p ss k m).link.hand = s.link.hand := by
  unfold State.handConflict
  split
  · rfl
  · split <;> rfl

theorem applyMark_hand (s : State) (p : Nat) (ss : Session) (w : MarkWrite) : (s.applyMark p ss w).1.link.hand = s.link.hand :=
  (applyMark_marks s p ss w).hand

theorem registerEntry_hand (s : State) (p : Nat) (ss : Session) (e : Entry) : (s.registerEntry p ss e).1.link.hand = s.link.hand := by
  dsimp only [State.registerEntry]
  split
  · exact applyMark_hand s p ss _
  · rfl
  · exact handConflict_hand s p ss _ _

theorem takeEntry_hand (s : State) (g : Nat) (ss : Session) (late : Bool) (e : Nat × Entry) :
    (s.takeEntry g ss late e).1.link.hand = s.link.hand := by
  dsimp only [State.takeEntry, State.lateEntry]
  split
  · rfl
  · split
    · rfl
    · split
      · split
        · exact (Marks.startAlert _ e.1 ss _ _).hand.trans (applyMark_hand s e.1 ss _)
        · exact registerEntry_hand s e.1 ss e.2
      · exact registerEntry_hand s e.1 ss e.2

theorem takeEntries_hand (s : State) (g : Nat) (ss : Session) (late : Bool) (l : List (Nat × Entry)) :
    (s.takeEntries g ss late l).1.link.hand = s.link.hand := by
  induction l generalizing s with
  | nil => rfl
  | cons e l ih => exact (ih _).trans (takeEntry_hand s g ss late e)

theorem takeEntries_length (s : State) (g : Nat) (ss : Session) (late : Bool) (l : List (Nat × Entry)) :
    (s.takeEntries g ss late l).2.length = l.length := by
  induction l generalizing s with
  | nil => rfl
  | cons e l ih => exact congrArg (· + 1) (ih _)

/-! ## The request -/

section
variable {s : State} {tag group session : Nat} {ss : Session} {entries : List RawEntry}

/-- The values of a register are in range (R110). -/
abbrev State.registerArgs (s : State) (group session : Nat) (entries : List RawEntry) : Prop :=
  group < 120 ∧ session ≤ 1 ∧ 1 ≤ entries.length ∧ entries.length ≤ 48 ∧ (∀ e ∈ entries, e.suits) ∧
    (session = 1 → s.trackHasPm (s.group group).track = true)

theorem sessionCode_eq_one (ss : Session) : sessionCode ss = 1 ↔ ss = .pm := by cases ss <;> simp [sessionCode]

theorem sessionOf_eq_some {n : Nat} : sessionOf n = some ss ↔ n = sessionCode ss := by
  refine ⟨fun h => ?_, fun h => h ▸ sessionOf_sessionCode ss⟩
  match n, h with
  | 0, h => cases h; rfl
  | 1, h => cases h; rfl

/-- The request once its values are in range. -/
theorem reqRegisterSubmit_inRange (h : s.registerArgs group (sessionCode ss) entries) :
    reqRegisterSubmit group (sessionCode ss) entries s =
      if s.plan.dayState ≠ .opened then s.refuse .state
      else
        match s.session (s.group group).track ss, s.groupStatus group ss with
        | some .opened, _ => s.takeRegister group ss false (entries.map RawEntry.named)
        | some .closed, .missing => s.takeRegister group ss true (entries.map RawEntry.named)
        | some .closed, .lateSubmitted => s.takeRegister group ss true (entries.map RawEntry.named)
        | _, _ => s.refuse .state := by
  obtain ⟨hg, -, hlo, hhi, hsuits, hpm⟩ := h
  have pm : ss ≠ .am → s.trackHasPm (s.group group).track = true := by
    cases ss
    · exact fun h => absurd rfl h
    · exact fun _ => hpm rfl
  simp only [reqRegisterSubmit, sessionOf_sessionCode, entries?_of_suits hsuits]
  refine (if_neg ?_).trans ?_
  · simpa [(groupOk_iff group).mpr hg, hhi] using ⟨Nat.ne_of_gt hlo ∘ List.length_eq_zero_iff.mpr, pm⟩
  · rfl

theorem reqRegisterSubmit_onTime (h : s.registerArgs group (sessionCode ss) entries) (hday : s.plan.dayState = .opened)
    (hs : s.session (s.group group).track ss = some .opened) :
    reqRegisterSubmit group (sessionCode ss) entries s = s.takeRegister group ss false (entries.map RawEntry.named) := by
  rw [reqRegisterSubmit_inRange h, if_neg (not_not.mpr hday), hs]

theorem reqRegisterSubmit_late (h : s.registerArgs group (sessionCode ss) entries) (hday : s.plan.dayState = .opened)
    (hs : s.session (s.group group).track ss = some .closed)
    (hg : s.groupStatus group ss = .missing ∨ s.groupStatus group ss = .lateSubmitted) :
    reqRegisterSubmit group (sessionCode ss) entries s = s.takeRegister group ss true (entries.map RawEntry.named) := by
  rw [reqRegisterSubmit_inRange h, if_neg (not_not.mpr hday), hs]
  rcases hg with e | e <;> rw [e]

theorem reqRegisterSubmit_state (h : s.registerArgs group (sessionCode ss) entries)
    (hno : s.session (s.group group).track ss = none ∨ s.session (s.group group).track ss = some .before ∨
      (s.session (s.group group).track ss = some .closed ∧ s.groupStatus group ss ≠ .missing ∧
        s.groupStatus group ss ≠ .lateSubmitted)) :
    reqRegisterSubmit group (sessionCode ss) entries s = s.refuse .state := by
  rw [reqRegisterSubmit_inRange h]
  split
  · rfl
  · split <;> simp_all

theorem reqRegisterSubmit_badArg (h : ¬ s.registerArgs group session entries) :
    reqRegisterSubmit group session entries s = s.refuse .badArg := by
  unfold reqRegisterSubmit
  split
  · rename_i ss l hss hl
    refine if_pos ?_
    by_contra hno
    obtain rfl := sessionOf_eq_some.mp hss
    obtain ⟨length, hsuits⟩ := entries?_suits hl
    simp only [Bool.not_eq_true', Bool.not_eq_false, Bool.and_eq_true, decide_eq_true_eq, Bool.or_eq_true, beq_iff_eq, length,
      groupOk_iff] at hno
    obtain ⟨⟨⟨hg, hlo⟩, hhi⟩, hpm⟩ := hno
    have hcode : sessionCode ss ≤ 1 := by cases ss <;> decide
    refine h ⟨hg, hcode, hlo, hhi, hsuits, fun e => hpm.resolve_left fun am => ?_⟩
    cases am.symm.trans ((sessionCode_eq_one ss).mp e)
  · rfl

/-- R111, R113: the register is taken, with an outcome for each entry. -/
theorem registerSubmit_taken (h : s.ready) {l : List (Nat × Entry)} {late : Bool}
    (ht : reqRegisterSubmit group session entries (s.inHand 0x28 tag) = (s.inHand 0x28 tag).takeRegister group ss late l) :
    Answers (.registerSubmit tag group session entries) s 0x28 tag
      (fun _ => ((s.inHand 0x28 tag).takeEntries group ss late l).1.setGroupStatus group ss (if late then .lateSubmitted else .submitted))
      .ok (((s.inHand 0x28 tag).takeEntries group ss late l).2.flatMap fun o => b1 o.byte) :=
  answers_of_handle h rfl rfl (by decide) (congrArg answered ht) (takeEntries_hand _ group ss late l)

theorem registerSubmit_refused (h : s.ready) {code : Code}
    (hr : reqRegisterSubmit group session entries (s.inHand 0x28 tag) = (s.inHand 0x28 tag).refuse code) :
    Refuses (.registerSubmit tag group session entries) s 0x28 tag code :=
  answers_of_handle h rfl rfl (by decide) (congrArg answered hr) rfl

end

/-! ## One entry (R111, R113) -/

section
variable {s : State} {g p : Nat} {ss : Session} {late : Bool} {e : Entry}

theorem takeEntry_notMember (h : ¬ ((s.pupil p).inUse = true ∧ (s.pupil p).group = g)) :
    s.takeEntry g ss late (p, e) = (s, .notMember) := if_pos (by simpa [-not_and, not_and_or] using h)

/-- An entry of a member's unlocked record goes through R100, a late one through R113. -/
theorem takeEntry_member (h : (s.pupil p).inUse = true ∧ (s.pupil p).group = g) :
    s.takeEntry g ss late (p, e) =
      if (s.record p ss).locked then (s, .locked) else if late then s.lateEntry p ss e else s.registerEntry p ss e :=
  if_neg (by simp [h])

/-- A late X marks the record N alone (R113). -/
theorem tookMark_absent (ht : Tab.wf zeroTally s.reg.tallies = true) (hm : (s.record p ss).mark = .nothing ∨ (s.record p ss).mark = .x) :
    s.tookMark (s.applyMark p ss ⟨.n, 0, .register, none, none⟩).1 p ss .n 0 .register := by
  have notLate : (s.record p ss).mark.late = false := by rcases hm with e | e <;> simp [e, Mark.late]
  have notN : (s.record p ss).mark ≠ .n := by rcases hm with e | e <;> simp [e]
  have marked := applyMark_marking s p ss ⟨.n, 0, .register, none, none⟩
  refine tookMark_of_write marked rfl (changedMark_of_write marked ?_ ?_ ?_) <;>
    rw [s.applyMark_absent (w := ⟨.n, 0, .register, none, none⟩) notN notLate rfl]
  · intro q st hne
    have kept := s.record_putRec_other ((s.record p ss).write ⟨.n, 0, .register, none, none⟩) hne
    exact kept.symm ▸ Rec.Realerted.refl _
  · exact fun q _ => congrArg (Tab.get zeroTally · q) (Tab.put_get ht p)
  · refine .inl ((congrArg (Tab.get zeroTally · p) (Tab.put_get ht p)).trans ?_)
    exact (by rw [Tally.adjust, notLate]; rfl)

/-- R113: a late X on NONE or X. -/
theorem takeEntry_lateX (h : (s.pupil p).inUse = true ∧ (s.pupil p).group = g) (hl : (s.record p ss).locked = false)
    (hm : (s.record p ss).mark = .nothing ∨ (s.record p ss).mark = .x) :
    s.takeEntry g ss true (p, .x) =
      ((s.applyMark p ss ⟨.n, 0, .register, none, none⟩).1.startAlert p ss s.clock.secs false, .applied) := by
  refine (takeEntry_member h).trans ((if_neg (by simp [hl])).trans ((if_pos rfl).trans ?_))
  exact if_pos (by simpa using hm)

/-- Another entry of an unlocked record goes through R100. -/
theorem takeEntry_register (h : (s.pupil p).inUse = true ∧ (s.pupil p).group = g) (hl : (s.record p ss).locked = false)
    (hno : late = false ∨ e ≠ .x ∨ ((s.record p ss).mark ≠ .nothing ∧ (s.record p ss).mark ≠ .x)) :
    s.takeEntry g ss late (p, e) = s.registerEntry p ss e := by
  refine (takeEntry_member h).trans ((if_neg (by simp [hl])).trans ?_)
  cases late
  · rfl
  · have hno := hno.resolve_left Bool.noConfusion
    exact (if_pos rfl).trans (if_neg (by simpa [-not_and, not_and_or] using hno))

end

/-- Settles O43: the request's values, the day and the session are checked in R110's order, and each entry goes through the register's rows
or, for a late X on NONE or X, becomes N. -/
theorem registerSubmitIsTaken : Obligations.RegisterSubmitIsTaken := by
  refine ⟨fun s tag group session entries h => ?_, fun s g p ss late e l ht => ?_⟩
  · intro c t suits argsOk
    refine ⟨fun bad => registerSubmit_refused h (reqRegisterSubmit_badArg bad), fun ok hday => ?_, fun ss ok hday hss => ?_⟩
    · obtain ⟨ss, rfl⟩ : ∃ ss, session = sessionCode ss := by
        obtain ⟨-, hs, -⟩ := ok
        interval_cases session
        · exact ⟨.am, rfl⟩
        · exact ⟨.pm, rfl⟩
      exact registerSubmit_refused h ((reqRegisterSubmit_inRange (s := s.inHand 0x28 tag) ok).trans (if_pos hday))
    · subst hss
      intro l taken
      have isTaken (late : Bool) (hreq : reqRegisterSubmit group (sessionCode ss) entries (s.inHand 0x28 tag) =
          (s.inHand 0x28 tag).takeRegister group ss late (entries.map RawEntry.named)) :
          taken late (if late then .lateSubmitted else .submitted) :=
        ⟨(takeEntries_length _ group ss late l).trans (List.length_map _), registerSubmit_taken h hreq⟩
      exact ⟨fun hs => isTaken false (reqRegisterSubmit_onTime ok hday hs),
        fun hs hg => isTaken true (reqRegisterSubmit_late ok hday hs hg),
        fun hno => registerSubmit_refused h (reqRegisterSubmit_state ok hno)⟩
  · intro r member one rest
    refine ⟨rfl, takeEntry_notMember, fun hm hl => (takeEntry_member hm).trans (if_pos hl), takeEntry_register, ?_⟩
    rintro hm hl rfl rfl hmark
    have marked := takeEntry_lateX hm hl hmark
    exact ⟨congrArg Prod.snd marked, _, tookMark_absent ht hmark, congrArg Prod.fst marked⟩

end Sys2Proof.Machine
end

