-- ==== Sys2Proof/Proofs/MarkNotices.lean ====
section
/-! SUPPORT. With room on shared storage and a recipient, the notices that a mark asks for are QUEUED (R109, R119, R141). -/

namespace Sys2Proof.Machine

/-! ## A notice that is stored -/

/-- A NOTICE of a kind for a pupil-session is QUEUED (R136, R153). -/
def State.noticeWaits (s : State) (p : Nat) (ss : Session) (kind : MsgKind) : Prop :=
  ∃ (m : Message) (o : Outbound), m ∈ s.pool.msgs ∧ m.kind = kind ∧
    m.cls = .notice ∧ m.body = .out o ∧ o.subject = .pupil p ss ∧ o.state = .queued ∧ m.number ∈ s.sched.noticeQ

/-- Shared storage has room for some notices, whatever their texts, and they have a recipient (R138, R151). -/
structure State.NoticeRoom (s : State) (p : Nat) (ss : Session) (n : Nat) : Prop where
  desc : n ≤ s.pool.freeDesc
  segs : 6 * n ≤ s.pool.freeSegs
  recipient : s.recipients .notice (.pupil p ss) ≠ []

section
variable {s : State} {p : Nat} {ss : Session} {n : Nat}

/-- The state with a message stored on shared storage and QUEUED as a NOTICE. -/
def State.noticed (s : State) (m : Message) : State := (s.stored m (segmentsFor m.text.length)).enqueue .notice s.pool.nextNum

theorem requestMsg_noticed (h : s.NoticeRoom p ss (n + 1)) {kind : MsgKind} (hkind : kind ≠ .reportReceipt) :
    ∃ (text : Text) (life : Option Nat), segmentsFor text.length ≤ 6 ∧
      (s.requestMsg kind (.pupil p ss) none).1 = s.noticed (s.queuedMessage .notice kind (.pupil p ss) text life) := by
  obtain ⟨hdesc, hsegs, hrec⟩ := h
  have short := segmentsFor_compose s (templateOf kind none) (.pupil p ss) s.clock.stamp
  refine ⟨s.compose (templateOf kind none) (.pupil p ss) s.clock.stamp, some (s.lifeOf .notice), short, ?_⟩
  have hcls : (WaitEntry.mk kind (.pupil p ss) none s.clock.stamp (s.lifeOf .notice)).cls = .notice := by
    cases kind
    case reportReceipt => exact absurd rfl hkind
    all_goals rfl
  have queued := storeOut_queued (s := s) (cls := .notice) (kind := kind) (subj := .pupil p ss) (life := some (s.lifeOf .notice))
    (text := s.compose (templateOf kind none) (.pupil p ss) s.clock.stamp) (by omega) (by omega) hrec
  simp only [State.requestMsg, beq_eq_false_iff_ne.mpr hkind, Bool.false_eq_true, if_false, State.tryEntry, hcls, queued,
    State.afterStored]
  rfl

/-- A request that finds room is QUEUED, uses at most one message's room and leaves the waiting ones. -/
theorem requestMsg_queues (h : s.NoticeRoom p ss (n + 1)) {kind : MsgKind} (hkind : kind ≠ .reportReceipt) :
    (s.requestMsg kind (.pupil p ss) none).1.noticeWaits p ss kind ∧ (s.requestMsg kind (.pupil p ss) none).1.NoticeRoom p ss n ∧
      ∀ k : MsgKind, s.noticeWaits p ss k → (s.requestMsg kind (.pupil p ss) none).1.noticeWaits p ss k := by
  obtain ⟨text, life, short, stored⟩ := requestMsg_noticed h hkind
  obtain ⟨hdesc, hsegs, hrec⟩ := h
  rw [stored]
  refine ⟨⟨s.queuedMessage .notice kind (.pupil p ss) text life, _, List.mem_append_right _ (List.mem_singleton_self _), rfl, rfl, rfl,
    rfl, rfl, List.mem_append_right _ (List.mem_singleton_self _)⟩, ⟨?_, ?_, hrec⟩, ?_⟩
  · exact Nat.le_sub_of_add_le hdesc
  · refine Nat.le_sub_of_add_le (le_trans (Nat.add_le_add_left short _) hsegs)
  · rintro k ⟨m, o, hm, hkind, hcls, hbody, hsubject, hstate, hqueue⟩
    exact ⟨m, o, List.mem_append_left _ hm, hkind, hcls, hbody, hsubject, hstate, List.mem_append_left _ hqueue⟩

theorem correctAlert_queues (h : s.NoticeRoom p ss (n + 1)) :
    ((s.record p ss).asks → (s.correctAlert p ss).1.noticeWaits p ss .arrivalCorrection) ∧ (s.correctAlert p ss).1.NoticeRoom p ss n := by
  rw [correctAlert_eq]
  split
  · obtain ⟨hdesc, hsegs, hrec⟩ := h
    have queues := requestMsg_queues (s := s.putRec p ss { s.record p ss with corrected := true }) (p := p) (ss := ss) (n := n)
      ⟨hdesc, hsegs, hrec⟩ (kind := .arrivalCorrection) (by decide)
    exact ⟨fun _ => queues.1, queues.2.1⟩
  · obtain ⟨hdesc, hsegs, hrec⟩ := h
    exact ⟨fun asks => absurd asks ‹_›, Nat.le_of_succ_le hdesc, le_trans (Nat.mul_le_mul_left 6 n.le_succ) hsegs, hrec⟩

theorem patternNotice_queues (h : s.NoticeRoom p ss (n + 1)) :
    ((s.tally p).notifies s.set.options.threshold → (s.patternNotice p ss).noticeWaits p ss .patternNotice) ∧
      ∀ k : MsgKind, s.noticeWaits p ss k → (s.patternNotice p ss).noticeWaits p ss k := by
  rw [patternNotice_eq]
  split
  · obtain ⟨hdesc, hsegs, hrec⟩ := h
    have queues := requestMsg_queues (s := s.putTally p { s.tally p with notified := true }) (p := p) (ss := ss) (n := n)
      ⟨hdesc, hsegs, hrec⟩ (kind := .patternNotice) (by decide)
    exact ⟨fun _ => queues.1, queues.2.2⟩
  · exact ⟨fun notifies => absurd notifies ‹_›, fun _ => id⟩

/-! ## The notices of a mark -/

variable {w : MarkWrite}

/-- A mark whose alert is not stopped leaves the pool to its notices. -/
theorem markStopped_eq_markWritten (h : (s.record p ss).mark ≠ .n ∨ (s.record p ss).alert.stops = false) :
    s.markStopped p ss w = (s.markWritten p ss w, .untouched) := by
  unfold State.markStopped
  split
  · rename_i left
    have stops := h.resolve_left (not_not.mpr left.1)
    rcases stopAlert_cases (s.markWritten p ss w) p ss with ⟨-, e⟩ | ⟨hs, -⟩
    · exact e
    · rw [record_markWritten] at hs
      exact absurd (stops.symm.trans hs) (by decide)
  · rfl

/-- The record asks for a correction once the mark is written (R109). -/
theorem asks_markWritten : ((s.markWritten p ss w).record p ss).asks ↔
    w.mark.present = true ∧ ((s.record p ss).alert = .sending ∨ (s.record p ss).alert = .sent) ∧ (s.record p ss).corrected = false := by
  rw [record_markWritten]
  rfl

theorem markCorrected_queues (h : s.NoticeRoom p ss (n + 1))
    (huntouched : (s.record p ss).mark ≠ .n ∨ (s.record p ss).alert.stops = false) :
    ((s.record p ss).mark ≠ w.mark → ((s.markWritten p ss w).record p ss).asks →
        (s.markCorrected p ss w).1.noticeWaits p ss .arrivalCorrection) ∧ (s.markCorrected p ss w).1.NoticeRoom p ss n := by
  obtain ⟨hdesc, hsegs, hrec⟩ := h
  have queues := correctAlert_queues (s := s.markWritten p ss w) (p := p) (ss := ss) (n := n) ⟨hdesc, hsegs, hrec⟩
  unfold State.markCorrected
  rw [markStopped_eq_markWritten huntouched]
  split
  · exact ⟨fun _ => queues.1, queues.2⟩
  · exact ⟨fun changed => absurd changed ‹_›, Nat.le_of_succ_le hdesc, le_trans (Nat.mul_le_mul_left 6 n.le_succ) hsegs, hrec⟩

/-- With room for two, the correction and the pattern notice that a mark asks for are both QUEUED. -/
theorem applyMark_queues (ht : Tab.wf zeroTally s.reg.tallies = true) (h : s.NoticeRoom p ss 2)
    (huntouched : (s.record p ss).mark ≠ .n ∨ (s.record p ss).alert.stops = false) :
    ((s.record p ss).mark ≠ w.mark → ((s.markWritten p ss w).record p ss).asks →
        (s.applyMark p ss w).1.noticeWaits p ss .arrivalCorrection) ∧
      ((s.record p ss).lateBy w.mark →
        ((s.tally p).adjust (s.record p ss).mark (s.record p ss).minutes w.mark w.minutes).notifies s.set.options.threshold →
        (s.applyMark p ss w).1.noticeWaits p ss .patternNotice) := by
  obtain ⟨asked, hdesc, hsegs, hrec⟩ := markCorrected_queues (w := w) h huntouched
  have queues := patternNotice_queues (s := s.markTallied p ss w) (p := p) (ss := ss) (n := 0) ⟨hdesc, hsegs, hrec⟩
  rw [tally_markTallied ht, (markTallied_marks s p ss w).set] at queues
  rw [applyMark_eq]
  split
  · exact ⟨fun changed asks => queues.2 _ (asked changed asks), fun _ => queues.1⟩
  · exact ⟨asked, fun rises => absurd rises ‹_›⟩

end

end Sys2Proof.Machine
end

