-- ==== Sys2Proof/Proofs/MarkSet.lean ====
section
/-! CLAIM. MARK SET, and the corrections and pattern notices that a mark asks for (R115, R98, R106, R109, R119). -/

namespace Sys2Proof.Machine

/-! ## What a mark asks for -/

/-- A record asks for a correction of a change to another mark (R109). -/
abbrev Rec.asksOn (r : Rec) (m : Mark) : Prop :=
  r.mark ≠ m ∧ (m = .p ∨ m = .l ∨ m = .u) ∧ (r.alert = .sending ∨ r.alert = .sent) ∧ r.corrected = false

theorem AlertState.not_sent_of_stops {x : AlertState} (h : x.stops = true) : ¬ (x = .sending ∨ x = .sent) := by
  rintro (rfl | rfl) <;> exact absurd h (by decide)

theorem Rec.asks_stopped (r : Rec) : r.stopped.asks ↔ r.asks := by
  unfold Rec.stopped
  split
  · rename_i h
    exact ⟨fun ⟨_, sent, _⟩ => by simp at sent, fun ⟨_, sent, _⟩ => absurd sent (AlertState.not_sent_of_stops h)⟩
  · exact .rfl

theorem Rec.asks_write (r : Rec) (w : MarkWrite) :
    (r.write w).asks ↔ (w.mark = .p ∨ w.mark = .l ∨ w.mark = .u) ∧ (r.alert = .sending ∨ r.alert = .sent) ∧ r.corrected = false := by
  rw [← Mark.present_iff]
  rfl

theorem Rec.asks_written (r : Rec) (w : MarkWrite) :
    (r.written w).asks ↔ (w.mark = .p ∨ w.mark = .l ∨ w.mark = .u) ∧ (r.alert = .sending ∨ r.alert = .sent) ∧ r.corrected = false := by
  unfold Rec.written
  split
  · exact (Rec.asks_stopped _).trans (r.asks_write w)
  · exact r.asks_write w

theorem Rec.corrected_stopped (r : Rec) : r.stopped.corrected = r.corrected := by
  unfold Rec.stopped
  split <;> rfl

theorem Rec.corrected_written (r : Rec) (w : MarkWrite) : (r.written w).corrected = r.corrected := by
  unfold Rec.written
  split
  · exact Rec.corrected_stopped _
  · rfl

theorem Rec.corrected_withCorrection (r : Rec) : r.withCorrection.corrected = true ↔ r.corrected = true ∨ r.asks := by
  unfold Rec.withCorrection
  split
  · exact iff_of_true rfl (.inr ‹_›)
  · exact ⟨.inl, fun h => h.resolve_right ‹_›⟩

theorem Rec.corrected_remarked (r : Rec) (w : MarkWrite) :
    (r.remarked w).corrected = true ↔ r.corrected = true ∨ r.asksOn w.mark := by
  unfold Rec.remarked
  split
  · rename_i changed
    rw [Rec.corrected_withCorrection, Rec.corrected_written, Rec.asks_written]
    exact or_congr_right (and_iff_right changed).symm
  · rename_i same
    rw [Rec.corrected_written]
    exact ⟨.inl, fun h => h.resolve_right fun asks => same asks.1⟩

/-- The pattern notice of a change into L or U (R119). -/
abbrev Tally.risesOn (t : Tally) (k : Nat) (r : Rec) (m : Mark) : Prop :=
  ¬ (r.mark = .l ∨ r.mark = .u) ∧ (m = .l ∨ m = .u) ∧ k ≠ 0 ∧ k ≤ min (t.count + 1) 15 ∧ t.notified = false

theorem Rec.lateBy_iff (r : Rec) (m : Mark) : r.lateBy m ↔ ¬ (r.mark = .l ∨ r.mark = .u) ∧ (m = .l ∨ m = .u) := by
  rw [Rec.lateBy, ← Mark.late_iff, ← Mark.late_iff, Bool.not_eq_true]

theorem Tally.notifies_adjust {t : Tally} {k : Nat} {r : Rec} {w : MarkWrite} (h : r.lateBy w.mark) :
    (t.adjust r.mark r.minutes w.mark w.minutes).notifies k ↔ k ≠ 0 ∧ k ≤ min (t.count + 1) 15 ∧ t.notified = false := by
  simp only [Tally.adjust, h.1, h.2]

theorem Tally.notified_adjust (t : Tally) (m : Mark) (n : Nat) (m' : Mark) (n' : Nat) : (t.adjust m n m' n').notified = t.notified := by
  unfold Tally.adjust
  split <;> rfl

theorem Tally.risesOn_iff {t : Tally} {k : Nat} {r : Rec} {w : MarkWrite} :
    t.risesOn k r w.mark ↔ r.lateBy w.mark ∧ (t.adjust r.mark r.minutes w.mark w.minutes).notifies k := by
  rw [Tally.risesOn, ← and_assoc, ← Rec.lateBy_iff]
  exact and_congr_right fun h => (Tally.notifies_adjust h).symm

theorem Tally.notified_remarked (t : Tally) (k : Nat) (r : Rec) (w : MarkWrite) :
    (t.remarked k r w).notified = true ↔ t.notified = true ∨ t.risesOn k r w.mark := by
  rw [Tally.risesOn_iff, Tally.remarked]
  split
  · rename_i late
    rw [Tally.withNotice]
    split
    · exact iff_of_true rfl (.inr ⟨late, ‹_›⟩)
    · rw [Tally.notified_adjust]
      exact ⟨.inl, fun h => h.resolve_right fun rises => absurd rises.2 ‹_›⟩
  · rw [Tally.notified_adjust]
    exact ⟨.inl, fun h => h.resolve_right fun rises => absurd rises.1 ‹_›⟩

section
variable {s : State} {p : Nat} {ss : Session} {w : MarkWrite}

theorem correctAlert_asked (s : State) (p : Nat) (ss : Session) : (s.correctAlert p ss).2 = true ↔ (s.record p ss).asks := by
  rw [correctAlert_eq]
  split
  · exact iff_of_true rfl ‹_›
  · exact iff_of_false Bool.false_ne_true ‹_›

theorem applyMark_asked (hw : Tab.wf clearedAt s.reg.recs = true) :
    (s.applyMark p ss w).2.correction = true ↔ (s.record p ss).asksOn w.mark := by
  have asked := correctAlert_asked (s.markStopped p ss w).1 p ss
  rw [markStopped_record hw, Rec.asks_written] at asked
  rw [applyMark_eq]
  change (s.markCorrected p ss w).2 = true ↔ _
  unfold State.markCorrected
  split
  · exact asked.trans (and_iff_right ‹_›).symm
  · exact iff_of_false Bool.false_ne_true fun h => absurd h.1 ‹_›

theorem Rec.Waits.corrected {r v : Rec} (h : r.Waits v) : v.corrected = r.corrected := by
  obtain ⟨-, rfl | ⟨x, -, rfl⟩⟩ := h <;> rfl

theorem applyMark_corrected (hw : Tab.wf clearedAt s.reg.recs = true) :
    ((s.applyMark p ss w).1.record p ss).corrected = true ↔ (s.record p ss).corrected = true ∨ (s.record p ss).asksOn w.mark := by
  rw [(applyMark_record hw).corrected, Rec.corrected_remarked]

theorem applyMark_notified (ht : Tab.wf zeroTally s.reg.tallies = true) :
    ((s.applyMark p ss w).1.tally p).notified = true ↔
      (s.tally p).notified = true ∨ (s.tally p).risesOn s.set.options.threshold (s.record p ss) w.mark := by
  rw [applyMark_tally ht, Tally.notified_remarked]

/-- The record that a change away from L and U leaves. -/
theorem applyMark_record_of_not_late (hw : Tab.wf clearedAt s.reg.recs = true) (h : ¬ (s.record p ss).lateBy w.mark) :
    (s.applyMark p ss w).1.record p ss = (s.record p ss).remarked w := by
  rw [applyMark_eq, ← markCorrected_record hw, if_neg h]
  rfl

theorem Rec.remarked_of_not_asks {r : Rec} (h : ¬ (r.written w).asks) : r.remarked w = r.written w := by
  unfold Rec.remarked Rec.withCorrection
  rw [if_neg h, ite_self]

theorem Rec.remarked_of_same {r : Rec} (h : w.mark = r.mark) : r.remarked w = r.write w :=
  (if_neg (not_not.mpr h.symm)).trans (if_neg fun ⟨hn, hw⟩ => hw (h.trans hn))

theorem Rec.remarked_of_n {r : Rec} (h : w.mark = .n) : r.remarked w = r.write w :=
  (Rec.remarked_of_not_asks (by simp [Rec.asks_written, h])).trans (if_neg fun ⟨_, hw⟩ => hw h)

theorem Rec.remarked_of_left {r : Rec} (hr : r.mark = .n) (hw : w.mark ≠ .n) (hs : r.alert.stops = true) :
    r.remarked w = { r.write w with alert := .cancelled, due := none, asked := none } := by
  have notSent := AlertState.not_sent_of_stops hs
  refine (Rec.remarked_of_not_asks (by simp [Rec.asks_written, notSent])).trans ?_
  exact (if_pos ⟨hr, hw⟩).trans (if_pos hs)

end

/-! ## The office's mark (R115) -/

section
variable {s : State} {p : Nat} {ss : Session} {m : Mark} {minutes : Nat} {lock : Bool} {arrival : Option Nat}

/-- What MARK SET writes. -/
abbrev officeWrite (m : Mark) (minutes : Nat) (lock : Bool) (arrival : Option Nat) : MarkWrite :=
  ⟨m, minutes, .office, arrival, some lock⟩

/-- MARK SET starts the alert of a record that becomes N in OPEN. -/
abbrev State.officeStarts (s : State) (p : Nat) (ss : Session) (m : Mark) : Prop :=
  m = .n ∧ (s.record p ss).mark ≠ .n ∧ s.plan.dayState = .opened

theorem officeMark_of_starts (h : s.officeStarts p ss m) :
    s.officeMark p ss m minutes lock arrival =
      ((s.applyMark p ss (officeWrite m minutes lock arrival)).1.startAlert p ss s.clock.secs false,
        (s.applyMark p ss (officeWrite m minutes lock arrival)).2) := if_pos h

theorem officeMark_of_not_starts (h : ¬ s.officeStarts p ss m) :
    s.officeMark p ss m minutes lock arrival = s.applyMark p ss (officeWrite m minutes lock arrival) := if_neg h

theorem officeMark_effect :
    (s.officeMark p ss m minutes lock arrival).2 = (s.applyMark p ss (officeWrite m minutes lock arrival)).2 := by
  by_cases h : s.officeStarts p ss m
  · rw [officeMark_of_starts h]
  · rw [officeMark_of_not_starts h]

theorem officeMark_marks : Marks p ss s (s.officeMark p ss m minutes lock arrival).1 := by
  have marked := applyMark_marks s p ss (officeWrite m minutes lock arrival)
  by_cases h : s.officeStarts p ss m
  · rw [officeMark_of_starts h]
    exact marked.trans (.startAlert _ p ss _ _)
  · rw [officeMark_of_not_starts h]
    exact marked

theorem officeMark_tally (ht : Tab.wf zeroTally s.reg.tallies = true) :
    (s.officeMark p ss m minutes lock arrival).1.tally p = (s.applyMark p ss (officeWrite m minutes lock arrival)).1.tally p := by
  by_cases h : s.officeStarts p ss m
  · rw [officeMark_of_starts h, State.tally, State.tally,
      (State.startAlert_moves _ p ss _ _).tallies ((applyMark_marks s p ss _).tallied ht)]
  · rw [officeMark_of_not_starts h]

/-- A record apart from its alert, the alert's times and its conflict. -/
def Rec.Alerts (r v : Rec) : Prop := v.marking = r.marking ∧ v.corrected = r.corrected

theorem Rec.Alerts.trans {r v w : Rec} (h : r.Alerts v) (k : v.Alerts w) : r.Alerts w := ⟨k.1.trans h.1, k.2.trans h.2⟩

theorem Rec.Waits.alerts {r v : Rec} (h : r.Waits v) : r.Alerts v := by
  obtain ⟨-, rfl | ⟨x, -, rfl⟩⟩ := h <;> exact ⟨rfl, rfl⟩

theorem Rec.begin_alerts (r : Rec) (due : Nat) (now : Stamp) (ended : Bool) : r.Alerts (r.begin due now ended) := by
  unfold Rec.begin Rec.fallen
  split
  · split
    · split <;> exact ⟨rfl, rfl⟩
    · split
      · split <;> exact ⟨rfl, rfl⟩
      · exact ⟨rfl, rfl⟩
  · exact ⟨rfl, rfl⟩

theorem officeMark_alerts :
    ((s.applyMark p ss (officeWrite m minutes lock arrival)).1.record p ss).Alerts
      ((s.officeMark p ss m minutes lock arrival).1.record p ss) := by
  by_cases h : s.officeStarts p ss m
  · rw [officeMark_of_starts h]
    exact (Rec.begin_alerts _ _ _ _).trans (State.startAlert_record _ p ss _).alerts
  · rw [officeMark_of_not_starts h]
    exact ⟨rfl, rfl⟩

theorem officeMark_marking :
    ((s.officeMark p ss m minutes lock arrival).1.record p ss).marking =
      ((s.record p ss).write (officeWrite m minutes lock arrival)).marking :=
  officeMark_alerts.1.trans (applyMark_marking s p ss _)

/-- The fields of R98 that MARK SET leaves. -/
theorem officeMark_fields :
    ((s.officeMark p ss m minutes lock arrival).1.record p ss).locked = lock ∧
      ((s.officeMark p ss m minutes lock arrival).1.record p ss).expected = (s.record p ss).expected ∧
      ((s.officeMark p ss m minutes lock arrival).1.record p ss).arrival =
        if m.present = true then arrival.or (s.record p ss).arrival else none := by
  have marking := officeMark_marking (s := s) (p := p) (ss := ss) (m := m) (minutes := minutes) (lock := lock) (arrival := arrival)
  simp only [Rec.marking, Rec.write, Rec.mk.injEq] at marking
  obtain ⟨-, -, -, hlocked, hexpected, -, -, harrival, -⟩ := marking
  exact ⟨hlocked, hexpected, harrival⟩

/-- An arrival given with P, L or U replaces the record's. -/
theorem officeMark_arrival_given (hm : m = .p ∨ m = .l ∨ m = .u) (t : Nat) :
    ((s.officeMark p ss m minutes lock (some t)).1.record p ss).arrival = some t := by
  obtain ⟨-, -, harrival⟩ := officeMark_fields (s := s) (p := p) (ss := ss) (m := m) (minutes := minutes) (lock := lock)
    (arrival := some t)
  exact harrival.trans (if_pos ((Mark.present_iff m).mpr hm))

theorem officeMark_arrival_kept (hm : m = .p ∨ m = .l ∨ m = .u) :
    ((s.officeMark p ss m minutes lock none).1.record p ss).arrival = (s.record p ss).arrival := by
  obtain ⟨-, -, harrival⟩ := officeMark_fields (s := s) (p := p) (ss := ss) (m := m) (minutes := minutes) (lock := lock)
    (arrival := none)
  exact harrival.trans (if_pos ((Mark.present_iff m).mpr hm))

theorem officeMark_changed (ht : Tab.wf zeroTally s.reg.tallies = true) (hw : Tab.wf clearedAt s.reg.recs = true) :
    s.changedMark (s.officeMark p ss m minutes lock arrival).1 p ss m minutes .office := by
  refine changedMark_of_write (w := officeWrite m minutes lock arrival) officeMark_marking (officeMark_marks.others hw)
    (officeMark_marks.tallies ht) ?_
  rw [officeMark_tally ht, applyMark_tally ht]
  exact Tally.follows_remarked _ _ _ _

theorem officeMark_asked (hw : Tab.wf clearedAt s.reg.recs = true) :
    (s.officeMark p ss m minutes lock arrival).2.correction = true ↔ (s.record p ss).asksOn m := by
  rw [officeMark_effect]
  exact applyMark_asked hw

theorem officeMark_corrected (hw : Tab.wf clearedAt s.reg.recs = true) :
    ((s.officeMark p ss m minutes lock arrival).1.record p ss).corrected = true ↔
      (s.record p ss).corrected = true ∨ (s.record p ss).asksOn m := by
  rw [officeMark_alerts.2]
  exact applyMark_corrected hw

theorem officeMark_notified (ht : Tab.wf zeroTally s.reg.tallies = true) :
    ((s.officeMark p ss m minutes lock arrival).1.tally p).notified = true ↔ (s.tally p).notified = true ∨
      (¬ ((s.record p ss).mark = .l ∨ (s.record p ss).mark = .u) ∧ (m = .l ∨ m = .u) ∧ s.set.options.threshold ≠ 0 ∧
        s.set.options.threshold ≤ min ((s.tally p).count + 1) 15) := by
  rw [officeMark_tally ht, applyMark_notified ht]
  by_cases hn : (s.tally p).notified = true
  · exact iff_of_true (.inl hn) (.inl hn)
  · have unset : (s.tally p).notified = false := Bool.not_eq_true _ ▸ hn
    simp [Tally.risesOn, unset]

/-! ### The alert -/

theorem officeMark_alert_same (hw : Tab.wf clearedAt s.reg.recs = true) (h : m = (s.record p ss).mark) :
    ((s.officeMark p ss m minutes lock arrival).1.record p ss).alert = (s.record p ss).alert := by
  have notLate : ¬ (s.record p ss).lateBy m := fun ⟨was, now⟩ => Bool.false_ne_true (was.symm.trans (h ▸ now))
  have notStarts : ¬ s.officeStarts p ss m := fun ⟨hn, hne, _⟩ => hne (h.symm.trans hn)
  rw [officeMark_of_not_starts notStarts, applyMark_record_of_not_late hw notLate, Rec.remarked_of_same h]
  rfl

/-- Leaving N cancels an alert that has not been handed to the gateway (R109). -/
theorem officeMark_alert_left (hw : Tab.wf clearedAt s.reg.recs = true) (hr : (s.record p ss).mark = .n) (hm : m ≠ .n)
    (hs : (s.record p ss).alert.stops = true) :
    ((s.officeMark p ss m minutes lock arrival).1.record p ss).alert = .cancelled ∧
      ((s.officeMark p ss m minutes lock arrival).1.record p ss).due = none := by
  have waits := applyMark_record (p := p) (ss := ss) (w := officeWrite m minutes lock arrival) hw
  rw [Rec.remarked_of_left hr hm hs] at waits
  rw [officeMark_of_not_starts fun ⟨hn, _⟩ => hm hn, waits.1 AlertState.noConfusion]
  exact ⟨rfl, rfl⟩

theorem officeMark_stopped (hr : (s.record p ss).mark = .n) (hm : m ≠ .n) (hs : (s.record p ss).alert.stops = true) :
    ((s.officeMark p ss m minutes lock arrival).2.alert != .untouched) = true := by
  have stopped := stopAlert_effect (s.markWritten p ss (officeWrite m minutes lock arrival)) p ss
  rw [record_markWritten] at stopped
  rw [officeMark_effect, applyMark_eq]
  change ((s.markStopped p ss _).2 != .untouched) = true
  rw [State.markStopped, if_pos ⟨hr, hm⟩, stopped]
  exact hs

/-- The record that becomes N holds its mark before its alert starts. -/
theorem applyMark_record_of_n (hw : Tab.wf clearedAt s.reg.recs = true) :
    (s.applyMark p ss (officeWrite .n minutes lock arrival)).1.record p ss =
      (s.record p ss).write (officeWrite .n minutes lock arrival) := by
  rw [applyMark_record_of_not_late hw fun ⟨_, late⟩ => Bool.false_ne_true late, Rec.remarked_of_n rfl]

/-- Becoming N in OPEN starts a HELD alert (R106). -/
theorem officeMark_alert_held (hw : Tab.wf clearedAt s.reg.recs = true) (h : s.officeStarts p ss .n)
    (ha : (s.record p ss).alert = .noAlert ∨ (s.record p ss).alert = .cancelled) (he : (s.record p ss).expected = false)
    (hc : s.clock.secs < s.dueFrom s.clock.secs) :
    ((s.officeMark p ss .n minutes lock arrival).1.record p ss).alert = .held ∧
      ((s.officeMark p ss .n minutes lock arrival).1.record p ss).due = some (s.dueFrom s.clock.secs) := by
  have marks := applyMark_marks s p ss (officeWrite .n minutes lock arrival)
  have begun := State.startAlert_record (s.applyMark p ss (officeWrite .n minutes lock arrival)).1 p ss s.clock.secs
  rw [applyMark_record_of_n hw, State.dueFrom, marks.set, marks.clock, ← State.dueFrom] at begun
  have held (e : Bool) : ((s.record p ss).write (officeWrite .n minutes lock arrival)).begin (s.dueFrom s.clock.secs) s.clock.stamp e =
      { (s.record p ss).write (officeWrite .n minutes lock arrival) with alert := .held, due := some (s.dueFrom s.clock.secs) } :=
    (if_pos ha).trans ((if_neg (by simp [Rec.write, he])).trans (if_neg (Nat.not_le.mpr hc)))
  rw [held] at begun
  rw [officeMark_of_starts h, begun.1 AlertState.noConfusion]
  exact ⟨rfl, rfl⟩

theorem officeMark_alert_closed (hw : Tab.wf clearedAt s.reg.recs = true) (h : s.plan.dayState = .closed) :
    ((s.officeMark p ss .n minutes lock arrival).1.record p ss).alert = (s.record p ss).alert := by
  rw [officeMark_of_not_starts fun ⟨_, _, ho⟩ => DayState.noConfusion (h.symm.trans ho), applyMark_record_of_n hw]
  rfl

end

/-! ## The request (R115) -/

/-- An arrival time in seconds. -/
def arrivalSecs (t : RawTime) : Nat := t.hour * 3600 + t.minute * 60 + t.second

/-- The arrival time, where one is given, is a time of day. -/
abbrev arrivalOk (arrival : Option RawTime) : Prop :=
  ∀ t : RawTime, arrival = some t → t.hour ≤ 23 ∧ t.minute ≤ 59 ∧ t.second ≤ 59

theorem arrival?_of_arrivalOk {arrival : Option RawTime} (h : arrivalOk arrival) : arrival? arrival = some (arrival.map arrivalSecs) := by
  cases arrival with
  | none => rfl
  | some t => rw [arrival?, rawTime?_eq, if_pos (h t rfl)]; rfl

theorem arrivalOk_of_arrival? {arrival : Option RawTime} {x : Option Nat} (h : arrival? arrival = some x) : arrivalOk arrival := by
  rintro t rfl
  rw [arrival?, rawTime?_eq] at h
  by_contra hno
  rw [if_neg hno] at h
  cases h

theorem Mark.ofCode_code (m : Mark) : Mark.ofCode m.code = some m := by cases m <;> rfl

theorem Mark.code_injective : Function.Injective Mark.code := fun m k h =>
  Option.some_injective _ ((Mark.ofCode_code m).symm.trans ((congrArg Mark.ofCode h).trans (Mark.ofCode_code k)))

theorem sessionCode_injective : Function.Injective sessionCode := fun a b h =>
  Option.some_injective _ ((sessionOf_sessionCode a).symm.trans ((congrArg sessionOf h).trans (sessionOf_sessionCode b)))

theorem minutesSuit_iff (m : Mark) (n : Nat) :
    minutesSuit m n = true ↔ ((m = .l ∨ m = .u) ∧ 1 ≤ n ∧ n ≤ 240) ∨ (¬ (m = .l ∨ m = .u) ∧ n = 0) := by
  cases m <;> simp [minutesSuit]

/-- The mark suits the session's state (R115). -/
def Mark.Fits (m : Mark) (x : Option SessState) : Prop :=
  match m with
  | .p => x ≠ none
  | .l => x ≠ none
  | .u => x ≠ none
  | .a => x ≠ none
  | .nothing => x = some .before ∨ x = some .opened
  | .x => x = some .before ∨ x = some .opened
  | .n => x = some .closed
  | .r => False

theorem markSuits_iff (m : Mark) (x : Option SessState) : markSuits m x = true ↔ m.Fits x := by
  cases m <;> rcases x with _ | _ | _ | _ <;> simp [markSuits, Mark.Fits]

section
variable {s : State} {tag p session mark minutes lock : Nat} {ss : Session} {m : Mark} {arrival : Option RawTime}

theorem registerHeld_iff : s.registerHeld = true ↔ s.plan.dayState = .opened ∨ (s.plan.dayState = .closed ∧ s.plan.dayDate ≠ none) := by
  unfold State.registerHeld
  cases s.plan.dayState <;> simp [Option.isSome_iff_ne_none]

/-- The values of a MARK SET are in range (R115). -/
abbrev State.markInRange (s : State) (p : Nat) (ss : Session) (m : Mark) (minutes lock : Nat) (arrival : Option RawTime) : Prop :=
  p < 2400 ∧ m ≠ .r ∧ lock ≤ 1 ∧ arrivalOk arrival ∧ (ss = .pm → s.trackHasPm (s.trackOf p) = true) ∧
    (((m = .l ∨ m = .u) ∧ 1 ≤ minutes ∧ minutes ≤ 240) ∨ (¬ (m = .l ∨ m = .u) ∧ minutes = 0))

theorem setMark_inRange (h : s.markInRange p ss m minutes lock arrival) :
    s.setMark p (sessionCode ss) m.code minutes lock arrival =
      if !(s.pupil p).inUse then .error .notFound
      else if !(s.registerHeld && markSuits m (s.session (s.trackOf p) ss)) then .error .state
      else .ok (ss, s.officeMark p ss m minutes (decide (lock = 1)) (arrival.map arrivalSecs)) := by
  obtain ⟨hp, hm, hlock, htime, hpm, hminutes⟩ := h
  have pm : ss = .am ∨ s.trackHasPm (s.trackOf p) = true := by
    cases ss
    · exact .inl rfl
    · exact .inr (hpm rfl)
  have args : s.markArgs p (sessionCode ss) m.code minutes arrival = some (ss, m, arrival.map arrivalSecs) := by
    simp only [State.markArgs, sessionOf_sessionCode, Mark.ofCode_code, arrival?_of_arrivalOk htime]
    refine if_pos ?_
    simpa [(pupilOk_iff p).mpr hp, hm, (minutesSuit_iff m minutes).mpr hminutes] using pm
  have flag : flagOf lock = some (decide (lock = 1)) := by rw [flagOf_eq, if_pos hlock]; rfl
  simp only [State.setMark, args, flag]

theorem setMark_badArg
    (h : ∀ (ss : Session) (m : Mark), session = sessionCode ss → mark = m.code → ¬ s.markInRange p ss m minutes lock arrival) :
    s.setMark p session mark minutes lock arrival = .error .badArg := by
  unfold State.setMark
  split
  · rename_i ss m t k hargs hflag
    unfold State.markArgs at hargs
    split at hargs
    · rename_i ss' m' t' hss hmark htime
      obtain ⟨hok, e⟩ := Option.ite_none_right_eq_some.mp hargs
      cases e
      simp only [Bool.and_eq_true, bne_iff_ne, Bool.or_eq_true, beq_iff_eq, pupilOk_iff, minutesSuit_iff] at hok
      obtain ⟨⟨⟨hp, hr⟩, hminutes⟩, hpm⟩ := hok
      have hlock : lock ≤ 1 := by
        by_contra hno
        rw [flagOf_none (by omega)] at hflag
        cases hflag
      refine absurd ⟨hp, hr, hlock, arrivalOk_of_arrival? htime, fun e => hpm.resolve_left fun am => ?_, hminutes⟩
        (h ss m (sessionOf_eq_some.mp hss) (Mark.code_of_ofCode hmark))
      cases am.symm.trans e
    · cases hargs
  · rfl

/-- The mark set finds a day and a session that allow it (R115). -/
abbrev State.markAllowed (s : State) (p : Nat) (ss : Session) (m : Mark) : Prop :=
  (s.plan.dayState = .opened ∨ (s.plan.dayState = .closed ∧ s.plan.dayDate ≠ none)) ∧ m.Fits (s.session (s.trackOf p) ss)

theorem setMark_notFound (h : s.markInRange p ss m minutes lock arrival) (hp : (s.pupil p).inUse = false) :
    s.setMark p (sessionCode ss) m.code minutes lock arrival = .error .notFound := by
  rw [setMark_inRange h, hp]
  rfl

theorem setMark_state (h : s.markInRange p ss m minutes lock arrival) (hp : (s.pupil p).inUse = true) (hno : ¬ s.markAllowed p ss m) :
    s.setMark p (sessionCode ss) m.code minutes lock arrival = .error .state := by
  rw [State.markAllowed, ← registerHeld_iff, ← markSuits_iff, ← Bool.and_eq_true, Bool.not_eq_true] at hno
  rw [setMark_inRange h, hp, hno]
  rfl

theorem setMark_ok (h : s.markInRange p ss m minutes lock arrival) (hp : (s.pupil p).inUse = true) (hok : s.markAllowed p ss m) :
    s.setMark p (sessionCode ss) m.code minutes lock arrival =
      .ok (ss, s.officeMark p ss m minutes (decide (lock = 1)) (arrival.map arrivalSecs)) := by
  rw [State.markAllowed, ← registerHeld_iff, ← markSuits_iff, ← Bool.and_eq_true] at hok
  rw [setMark_inRange h, hp, hok]
  rfl

theorem markSet_refused (h : s.ready) {code : Code}
    (hr : (s.inHand 0x29 tag).setMark p session mark minutes lock arrival = .error code) :
    Refuses (.markSet tag p session mark minutes lock arrival) s 0x29 tag code := by
  have refused : reqMarkSet p session mark minutes lock arrival (s.inHand 0x29 tag) = (s.inHand 0x29 tag).refuse code := by
    rw [reqMarkSet, hr]
  exact answers_of_handle h rfl rfl (by decide) (congrArg answered refused) rfl

theorem markSet_taken (h : s.ready) {b : Bool} {t : Option Nat}
    (hr : (s.inHand 0x29 tag).setMark p session mark minutes lock arrival = .ok (ss, (s.inHand 0x29 tag).officeMark p ss m minutes b t)) :
    let x := (s.inHand 0x29 tag).officeMark p ss m minutes b t
    Answers (.markSet tag p session mark minutes lock arrival) s 0x29 tag (fun _ => x.1) .ok
      ((x.1.record p ss).bytes ++ bFlag (x.2.alert != .untouched) ++ bFlag x.2.correction) := by
  have taken : reqMarkSet p session mark minutes lock arrival (s.inHand 0x29 tag) =
      ((s.inHand 0x29 tag).officeMark p ss m minutes b t |>.1,
        Reply.ok (State.markReply ((s.inHand 0x29 tag).officeMark p ss m minutes b t).1 p ss
          ((s.inHand 0x29 tag).officeMark p ss m minutes b t).2)) := by
    rw [reqMarkSet, hr]
  exact answers_of_handle h rfl rfl (by decide) (congrArg answered taken) officeMark_marks.hand

end

/-! ## The obligation's parts -/

/-- R109, R119: what asks for a correction and for a pattern notice. -/
theorem notices_asked (s : State) (p : Nat) (ss : Session) :
    let r := s.record p ss
    let t := s.tally p
    let k := s.set.options.threshold
    let asks := (r.mark = .p ∨ r.mark = .l ∨ r.mark = .u) ∧ (r.alert = .sending ∨ r.alert = .sent) ∧ r.corrected = false
    (asks → s.correctAlert p ss =
        ((State.requestMsg (s.putRec p ss { r with corrected := true }) .arrivalCorrection (.pupil p ss) none).1, true)) ∧
      (¬ asks → s.correctAlert p ss = (s, false)) ∧
      (t.notifies k → s.patternNotice p ss =
        (State.requestMsg (s.putTally p { t with notified := true }) .patternNotice (.pupil p ss) none).1) ∧
      (¬ t.notifies k → s.patternNotice p ss = s) := by
  intro r t k asks
  have asks_iff : asks ↔ r.asks := and_congr_left' (Mark.present_iff _).symm
  rw [asks_iff, correctAlert_eq, patternNotice_eq]
  exact ⟨fun h => if_pos h, fun h => if_neg h, fun h => if_pos h, fun h => if_neg h⟩

/-- Settles O44: a mark is written with its record, its notices and its tally; MARK SET checks its values, the day and the session before. -/
theorem markSetIsTaken : Obligations.MarkSetIsTaken := by
  refine ⟨notices_asked, fun s p ss w ht hw => ?_, fun s tag p mark minutes lock ss m arrival h ht hw => ?_⟩
  · intro r t k late asked rises u waits
    refine ⟨applyMark_asked hw, applyMark_corrected hw, applyMark_notified ht, fun hdesc hsegs huntouched hrec => ?_⟩
    have untouched : r.mark ≠ .n ∨ r.alert.stops = false := huntouched.imp_right fun sent => by
      rcases sent with e | e <;> rw [e] <;> rfl
    have queues := applyMark_queues (w := w) ht ⟨hdesc, hsegs, hrec⟩ untouched
    refine ⟨fun ⟨changed, asks⟩ => queues.1 changed ?_, fun hrises => ?_⟩
    · rw [asks_markWritten, Mark.present_iff]
      exact asks
    · obtain ⟨lateBy, notifies⟩ := Tally.risesOn_iff.mp hrises
      exact queues.2 lateBy notifies
  · intro c r state late timeOk argsOk dayOk suits
    refine ⟨fun hmark => markSet_refused h (setMark_badArg ?_), fun session hsession => markSet_refused h (setMark_badArg ?_), ?_⟩
    · rintro ss m - rfl
      cases m <;> exact absurd hmark (by decide)
    · rintro ss m rfl -
      cases ss <;> exact absurd hsession (by decide)
    rintro rfl
    refine ⟨fun bad => markSet_refused h (setMark_badArg ?_), fun ok hp => markSet_refused h (setMark_notFound ok hp),
      fun ok hp hno => markSet_refused h (setMark_state ok hp hno), fun ok hp hday hsuits => ?_⟩
    · intro ss' m' hss hm
      rwa [← sessionCode_injective hss, ← Mark.code_injective hm]
    · let v := s.inHand 0x29 tag
      obtain ⟨hlocked, hexpected, -⟩ := officeMark_fields (s := v) (p := p) (ss := ss) (m := m)
        (minutes := minutes) (lock := decide (lock = 1)) (arrival := arrival.map arrivalSecs)
      refine ⟨_, _, _, markSet_taken h (setMark_ok ok hp ⟨hday, hsuits⟩), officeMark_changed (s := v) ht hw, hlocked, hexpected, ?_, ?_,
        officeMark_alert_same (s := v) hw, ?_, ?_, ?_, ⟨?_, ?_⟩, ?_⟩
      · rintro t rfl hpresent
        exact officeMark_arrival_given (s := v) hpresent (arrivalSecs t)
      · rintro rfl hpresent
        exact officeMark_arrival_kept (s := v) hpresent
      · intro hr hm ha
        have stops : r.alert.stops = true := by rcases ha with e | e | e | e <;> rw [e] <;> rfl
        obtain ⟨alert, due⟩ := officeMark_alert_left (s := v) hw hr hm stops
        exact ⟨alert, due, officeMark_stopped (s := v) hr hm stops⟩
      · rintro rfl hr hopened ha he hsecs hdelay
        have later : s.clock.secs < s.dueFrom s.clock.secs := by
          rw [State.dueFrom, lastSecond]
          omega
        have held := officeMark_alert_held (s := v) (minutes := minutes) (lock := decide (lock = 1))
          (arrival := arrival.map arrivalSecs) hw ⟨rfl, hr, hopened⟩ ha he later
        rw [State.dueFrom, lastSecond] at held
        exact held
      · rintro rfl hclosed
        exact officeMark_alert_closed (s := v) hw hclosed
      · exact officeMark_asked (s := v) hw
      · exact officeMark_corrected (s := v) hw
      · exact officeMark_notified (s := v) ht

end Sys2Proof.Machine
end

