-- ==== Sys2Proof/Proofs/Conflicts.lean ====
section
/-! CLAIM. The conflict list: a conflict joins, overflows or replaces (R121, R122), and CONFLICT RESOLVE (R124). -/

namespace Sys2Proof.Machine

/-! ## The one entry of a list that a test picks out -/

section
variable {α : Type} {a b : List α} {e : α} {w : α → Bool}

theorem find?_picked (ha : ∀ f ∈ a, w f = false) (he : w e = true) : (a ++ e :: b).find? w = some e :=
  List.find?_eq_some_iff_append.mpr ⟨he, a, b, rfl, fun f hf => by rw [ha f hf]; rfl⟩

theorem filterMap_picked (k : α → Option α) (h : ∀ f ∈ a ++ b, w f = false) (he : w e = true) :
    (a ++ e :: b).filterMap (fun x => if w x then k x else some x) = a ++ (k e).toList ++ b := by
  have same {l : List α} (hl : ∀ f ∈ l, w f = false) : l.filterMap (fun x => if w x then k x else some x) = l := by
    rw [List.filterMap_congr fun f hf => if_neg (Bool.not_eq_true _ ▸ hl f hf), List.filterMap_some]
  rw [List.filterMap_append, List.filterMap_cons, if_pos he, same fun f hf => h f (List.mem_append_left b hf),
    same fun f hf => h f (List.mem_append_right a hf)]
  cases k e <;> simp

theorem map_picked (g : α → α) (h : ∀ f ∈ a ++ b, w f = false) (he : w e = true) :
    (a ++ e :: b).map (fun x => if w x then g x else x) = a ++ g e :: b := by
  have picked := filterMap_picked (fun x => some (g x)) h he
  rw [Option.toList_some, List.append_assoc] at picked
  rw [← List.filterMap_eq_map]
  refine Eq.trans (List.filterMap_congr fun x _ => ?_) picked
  exact apply_ite some (w x = true) (g x) x

end

/-! ## A conflict is handed to the unit (R121, R122) -/

section
variable {s : State} {p : Nat} {ss : Session} {k : ConflictKind} {m : Mark}

/-- The entry is the one for a pupil-session. -/
abbrev Conflict.isFor (e : Conflict) (p : Nat) (ss : Session) : Prop := e.pupil = p ∧ e.session = ss

theorem Conflict.test_isFor (e : Conflict) (p : Nat) (ss : Session) : (e.pupil == p && e.session == ss) = decide (e.isFor p ss) := by
  rw [Bool.decide_and]
  rfl

theorem entryFor_none (h : ∀ e ∈ s.recon.conflicts, ¬ e.isFor p ss) : s.recon.entryFor p ss = none :=
  List.find?_eq_none.mpr fun e he => by rw [Conflict.test_isFor, decide_eq_true_iff]; exact h e he

theorem handConflict_recorded (hnew : ∀ e ∈ s.recon.conflicts, ¬ e.isFor p ss) (hroom : s.recon.conflicts.length < 32) :
    s.handConflict p ss k m = s.recordConflict p ss k m := by
  rw [State.handConflict, entryFor_none hnew]
  exact if_pos hroom

theorem handConflict_overflowed (hnew : ∀ e ∈ s.recon.conflicts, ¬ e.isFor p ss) (hfull : 32 ≤ s.recon.conflicts.length) :
    s.handConflict p ss k m = s.overflowConflict := by
  rw [State.handConflict, entryFor_none hnew]
  exact if_neg (Nat.not_lt.mpr hfull)

/-- The id after a join is one of the ring that no entry holds: 32 entries never fill it (R120). -/
theorem recordConflict_nextId (hroom : s.recon.conflicts.length < 32) :
    (s.recordConflict p ss k m).recon.nextId ∉ (s.recordConflict p ss k m).recon.conflicts.map (·.id) ∧
      1 ≤ (s.recordConflict p ss k m).recon.nextId := by
  refine ⟨nextFree_not_mem (by decide) ?_, (nextFree_inRing (by decide) _ (.inr (by decide))).1⟩
  have joined : (s.recordConflict p ss k m).recon.conflicts.length = s.recon.conflicts.length + 1 := List.length_append
  rw [List.length_map, joined]
  omega

theorem handConflict_replaced {a b : List Conflict} {e : Conflict} (hl : s.recon.conflicts = a ++ e :: b) (he : e.isFor p ss)
    (hother : ∀ f ∈ a ++ b, ¬ f.isFor p ss) :
    s.handConflict p ss k m = { s with
      recon.conflicts := a ++ { e with kind := k, time := s.clock.secs } :: b
      recon.conflictCnt.replaced := min (s.recon.conflictCnt.replaced + 1) 4294967295 }.raise .conflict := by
  have others : ∀ f ∈ a ++ b, (f.pupil == p && f.session == ss) = false := fun f hf => by
    rw [Conflict.test_isFor, decide_eq_false_iff_not]
    exact hother f hf
  have ours : (e.pupil == p && e.session == ss) = true := by rw [Conflict.test_isFor, decide_eq_true_iff]; exact he
  have found : s.recon.entryFor p ss = some e := by
    rw [Recon.entryFor, hl]
    exact find?_picked (fun f hf => others f (List.mem_append_left b hf)) ours
  have replaced := map_picked (fun c : Conflict => { c with kind := k, time := s.clock.secs }) others ours
  rw [State.handConflict, found]
  show s.replaceConflict p ss k = _
  rw [State.replaceConflict, hl, replaced]
  rfl

end

/-! ## CONFLICT RESOLVE (R124) -/

section
variable {s u : State} {tag id p mark minutes lock : Nat} {ss st : Session} {what : RawResolve} {t : Option RawTime} {f : MarkEffect}

theorem markArgs_session {m : Mark} {x : Option Nat} (h : s.markArgs p (sessionCode ss) mark minutes t = some (st, m, x)) :
    st = ss := by
  unfold State.markArgs at h
  rw [sessionOf_sessionCode] at h
  split at h
  · rename_i hss _ _
    obtain ⟨-, e⟩ := Option.ite_none_right_eq_some.mp h
    cases e
    exact (Option.some.inj hss).symm
  · cases h

/-- A mark that is taken is the office's, for the session named. -/
theorem setMark_taken (h : s.setMark p (sessionCode ss) mark minutes lock t = .ok (st, u, f)) :
    st = ss ∧ ∃ (m : Mark) (b : Bool) (x : Option Nat), s.officeMark p ss m minutes b x = (u, f) := by
  unfold State.setMark at h
  split at h
  · rename_i hargs _
    obtain rfl := markArgs_session hargs
    split at h
    · cases h
    · split at h
      · cases h
      · obtain ⟨rfl, taken⟩ := Prod.mk.inj (Except.ok.inj h)
        exact ⟨rfl, _, _, _, taken⟩
  · cases h

theorem reqConflictResolve_badArg (h : id = 0 ∨ 255 < id) : reqConflictResolve id what s = s.refuse .badArg := if_pos h

theorem reqConflictResolve_notFound (hlow : 1 ≤ id) (hhigh : id ≤ 255) (h : ∀ e ∈ s.recon.conflicts, e.id ≠ id) :
    reqConflictResolve id what s = s.refuse .notFound := by
  have unheld : s.recon.conflicts.find? (·.id == id) = none := List.find?_eq_none.mpr fun e he => by simpa using h e he
  rw [reqConflictResolve, if_neg (by omega), unheld]

/-- An id in range finds an entry of the list. -/
structure State.Resolvable (s : State) (e : Conflict) : Prop where
  low : 1 ≤ e.id
  high : e.id ≤ 255
  found : s.recon.conflicts.find? (·.id == e.id) = some e

variable {e : Conflict}

theorem resolvable_of_list {a b : List Conflict} (hl : s.recon.conflicts = a ++ e :: b) (hlow : 1 ≤ e.id) (hhigh : e.id ≤ 255)
    (hother : ∀ f ∈ a ++ b, f.id ≠ e.id) : s.Resolvable e where
  low := hlow
  high := hhigh
  found := hl ▸ find?_picked (fun f hf => beq_eq_false_iff_ne.mpr (hother f (List.mem_append_left b hf))) (beq_self_eq_true e.id)

theorem reqConflictResolve_dismiss (h : s.Resolvable e) : reqConflictResolve e.id .dismiss s = s.dismissConflict e := by
  obtain ⟨hlow, hhigh, found⟩ := h
  rw [reqConflictResolve, if_neg (by omega), found]

theorem reqConflictResolve_settle (h : s.Resolvable e) :
    reqConflictResolve e.id (.settle mark minutes t) s = s.settleConflict e mark minutes t := by
  obtain ⟨hlow, hhigh, found⟩ := h
  rw [reqConflictResolve, if_neg (by omega), found]

theorem conflictResolve_answers (h : s.ready) {g : State → State} {code : Code} {body : List Byte}
    (hreq : reqConflictResolve id what (s.inHand 0x31 tag) = (g (s.inHand 0x31 tag), ⟨code, body⟩))
    (hhand : (g (s.inHand 0x31 tag)).link.hand = some ⟨tag, 0x31, false⟩) :
    Answers (.conflictResolve tag id what) s 0x31 tag g code body :=
  answers_of_handle h rfl rfl (by decide) (congrArg answered hreq) hhand

theorem settleConflict_refused {code : Code} (h : s.setMark e.pupil (sessionCode e.session) mark minutes 1 t = .error code) :
    s.settleConflict e mark minutes t = s.refuse code := by
  rw [State.settleConflict, h]

/-- A mark that is taken: the entry goes, and the reply gives the record as it then is. -/
theorem settleConflict_taken (h : s.setMark e.pupil (sessionCode e.session) mark minutes 1 t = .ok (st, u, f)) :
    s.settleConflict e mark minutes t =
      ({ u.removeConflict e with recon.conflictCnt.resolved := min (u.recon.conflictCnt.resolved + 1) 4294967295 },
        Reply.ok ((u.removeConflict e).markReply e.pupil e.session f)) := by
  obtain ⟨rfl, -⟩ := setMark_taken h
  rw [State.settleConflict, h]
  rfl

theorem setMark_hand (h : s.setMark p (sessionCode ss) mark minutes lock t = .ok (st, u, f)) : u.link.hand = s.link.hand := by
  obtain ⟨-, m, b, x, taken⟩ := setMark_taken h
  have kept : (s.officeMark p ss m minutes b x).1.link.hand = s.link.hand := officeMark_marks.hand
  rwa [taken] at kept

end

/-- Settles O47: a conflict joins, overflows or replaces; CONFLICT RESOLVE is refused, dismisses, or sets a mark. -/
theorem conflictsAreRecordedAndResolved : Obligations.ConflictsAreRecordedAndResolved := by
  refine ⟨fun s p ss k m => ?_, fun s tag id what h => ⟨fun bad => ?_, fun hlow hhigh hno => ?_, ?_⟩⟩
  · refine ⟨fun hnew hroom => ?_, handConflict_overflowed, fun a b e hl hp hss => handConflict_replaced hl ⟨hp, hss⟩⟩
    have recorded : s.handConflict p ss k m = s.recordConflict p ss k m := handConflict_recorded hnew hroom
    dsimp only
    rw [recorded]
    exact ⟨rfl, rfl, rfl, rfl, recordConflict_nextId hroom⟩
  · exact conflictResolve_answers h (reqConflictResolve_badArg bad) rfl
  · exact conflictResolve_answers h (reqConflictResolve_notFound (s := s.inHand 0x31 tag) hlow hhigh hno) rfl
  · rintro a b e hl rfl hlow hhigh hother
    have resolvable : (s.inHand 0x31 tag).Resolvable e := resolvable_of_list (s := s.inHand 0x31 tag) hl hlow hhigh hother
    refine ⟨?_, ?_⟩
    · rintro rfl
      exact conflictResolve_answers h (reqConflictResolve_dismiss resolvable) rfl
    · rintro mark minutes t rfl
      have settled := reqConflictResolve_settle (mark := mark) (minutes := minutes) (t := t) resolvable
      refine ⟨fun code hset => ?_, fun st u f hset => ?_⟩
      · exact conflictResolve_answers h (settled.trans (settleConflict_refused hset)) rfl
      · exact conflictResolve_answers h (settled.trans (settleConflict_taken hset)) (setMark_hand hset)

end Sys2Proof.Machine
end

