-- ==== Sys2Proof/Proofs/AdvanceReports.lean ====
section
/-! CLAIM. The advance report list (R126), ADVANCE CANCEL (R129), and the expiry of a wait entry (R133). -/

namespace Sys2Proof.Machine

/-! ## A report is taken (R126) -/

/-- The entry is the one of a date and a pupil. -/
abbrev Advance.isOf (e : Advance) (d : Date) (p : Nat) : Prop := e.date = d ∧ e.pupil = p

theorem Advance.test_isOf (e : Advance) (d : Date) (p : Nat) : (e.date == d && e.pupil == p) = decide (e.isOf d p) := by
  rw [Bool.decide_and, beq_eq_decide, beq_eq_decide]

theorem Sessions.join_eq (x y : Sessions) : x.join y = if x = y then y else .both := by
  cases x <;> cases y <;> rfl

theorem advanceBefore_iff (x y : Advance) :
    advanceBefore x y = true ↔ x.date.number < y.date.number ∨ (x.date.number = y.date.number ∧ x.pupil < y.pupil) := by
  simp [advanceBefore]

/-- An entry joins between those that are not after it and those that are. -/
theorem insertAdvance_between {x : Advance} {a b : List Advance} (ha : ∀ e ∈ a, advanceBefore x e = false)
    (hb : ∀ e ∈ b, advanceBefore x e = true) : insertAdvance x (a ++ b) = a ++ x :: b := by
  induction a with
  | nil =>
    cases b with
    | nil => rfl
    | cons y b => exact if_pos (hb y List.mem_cons_self)
  | cons y a ih =>
    obtain ⟨first, rest⟩ := List.forall_mem_cons.mp ha
    have later : insertAdvance x (y :: (a ++ b)) = y :: insertAdvance x (a ++ b) := if_neg (Bool.not_eq_true _ ▸ first)
    exact later.trans (congrArg (y :: ·) (ih rest))

section
variable {s : State} {p : Nat} {d : Date} {x : Sessions} {report : Option Nat}

/-- A date that a report may have: 1 to 21 days ahead. -/
abbrev State.soon (s : State) (d : Date) : Prop := s.clock.date.number < d.number ∧ d.number ≤ s.clock.date.number + 21

theorem within21_iff (s : State) (d : Date) : s.within21 d = true ↔ s.soon d := by
  rw [State.within21, Bool.and_eq_true, decide_eq_true_iff, decide_eq_true_iff]

theorem takeAdvance_refused (h : ¬ s.soon d) : s.takeAdvance p d x report = (s, .refused) := by
  rw [← within21_iff] at h
  exact if_pos (by simp [h])

theorem takeAdvance_merged {a b : List Advance} {e : Advance} (h : s.soon d) (hl : s.recon.advance = a ++ e :: b) (he : e.isOf d p)
    (hother : ∀ f ∈ a ++ b, ¬ f.isOf d p) :
    s.takeAdvance p d x report = ({ s with
      recon.advance := a ++ { e with sessions := if e.sessions = x then x else .both, report := report.or e.report } :: b
      recon.advCnt.merged := min (s.recon.advCnt.merged + 1) 4294967295 }, .taken) := by
  have others : ∀ f ∈ a ++ b, (f.date == d && f.pupil == p) = false := fun f hf => by
    rw [Advance.test_isOf, decide_eq_false_iff_not]
    exact hother f hf
  have ours : (e.date == d && e.pupil == p) = true := by rw [Advance.test_isOf, decide_eq_true_iff]; exact he
  have held : (s.recon.advance.any fun f => f.date == d && f.pupil == p) = true :=
    List.any_eq_true.mpr ⟨e, hl ▸ List.mem_append_right a List.mem_cons_self, ours⟩
  have merged := map_picked (fun f : Advance => { f with sessions := f.sessions.join x, report := report.or f.report }) others ours
  rw [State.takeAdvance, (within21_iff s d).mpr h, held, hl, merged, Sessions.join_eq]
  rfl

theorem takeAdvance_new (h : s.soon d) (hnew : ∀ e ∈ s.recon.advance, ¬ e.isOf d p) :
    s.takeAdvance p d x report =
      if s.recon.advance.length < 128 then
        ({ s with
          recon.advance := insertAdvance ⟨d, p, x, report⟩ s.recon.advance
          recon.advCnt.taken := min (s.recon.advCnt.taken + 1) 4294967295 }, .taken)
      else ({ s with recon.advCnt.refusedFull := min (s.recon.advCnt.refusedFull + 1) 4294967295 }, .full) := by
  have unheld : (s.recon.advance.any fun f => f.date == d && f.pupil == p) = false :=
    List.any_eq_false.mpr fun e he => by rw [Advance.test_isOf, decide_eq_true_iff]; exact hnew e he
  rw [State.takeAdvance, (within21_iff s d).mpr h, unheld]
  rfl

/-- The list is kept in date and pupil order. -/
theorem takeAdvance_joins {a b : List Advance} (h : s.soon d) (hl : s.recon.advance = a ++ b) (hroom : s.recon.advance.length < 128)
    (ha : ∀ e ∈ a, e.date.number < d.number ∨ (e.date.number = d.number ∧ e.pupil < p))
    (hb : ∀ e ∈ b, ¬ (e.date.number < d.number ∨ (e.date.number = d.number ∧ e.pupil < p)) ∧ ¬ e.isOf d p ∧
      (e.date.number = d.number → e.pupil ≠ p)) :
    s.takeAdvance p d x report = ({ s with
      recon.advance := a ++ ⟨d, p, x, report⟩ :: b
      recon.advCnt.taken := min (s.recon.advCnt.taken + 1) 4294967295 }, .taken) := by
  have new : ∀ e ∈ s.recon.advance, ¬ e.isOf d p := by
    rw [hl]
    refine List.forall_mem_append.mpr ⟨fun e he => ?_, fun e he => (hb e he).2.1⟩
    rintro ⟨rfl, rfl⟩
    exact (ha e he).elim (Nat.lt_irrefl _) fun k => Nat.lt_irrefl _ k.2
  have notAfter : ∀ e ∈ a, advanceBefore ⟨d, p, x, report⟩ e = false := fun e he => by
    have before := ha e he
    rw [Bool.eq_false_iff, ne_eq, advanceBefore_iff]
    dsimp only
    omega
  have after : ∀ e ∈ b, advanceBefore ⟨d, p, x, report⟩ e = true := fun e he => by
    obtain ⟨notBefore, -, differs⟩ := hb e he
    rw [advanceBefore_iff]
    dsimp only
    omega
  rw [takeAdvance_new h new, if_pos hroom, hl, insertAdvance_between notAfter after]

end

/-! ## ADVANCE CANCEL (R129) -/

theorem Sessions.ofCode_code (x : Sessions) : Sessions.ofCode x.code = some x := by cases x <;> rfl

theorem Sessions.code_le (x : Sessions) : x.code ≤ 2 := by cases x <;> decide

theorem Sessions.code_of_ofCode {n : Nat} {x : Sessions} (h : Sessions.ofCode n = some x) : n = x.code := by
  unfold Sessions.ofCode at h
  split at h <;> cases h <;> rfl

theorem Sessions.exists_code {n : Nat} (h : n ≤ 2) : ∃ x : Sessions, n = x.code := by
  interval_cases n
  · exact ⟨.am, rfl⟩
  · exact ⟨.pm, rfl⟩
  · exact ⟨.both, rfl⟩

/-- Naming both sessions, or the one that an entry has, leaves none. -/
theorem Sessions.takeOut_all {held named : Sessions} (h : named = .both ∨ named = held) : held.takeOut named = some none := by
  rcases h with rfl | rfl
  · cases held <;> rfl
  · cases named <;> rfl

/-- An entry of both sessions keeps the one that is not named. -/
theorem Sessions.takeOut_am {held : Sessions} (h : held = .both) : held.takeOut .am = some (some .pm) := by rw [h]; rfl

theorem Sessions.takeOut_pm {held : Sessions} (h : held = .both) : held.takeOut .pm = some (some .am) := by rw [h]; rfl

/-- An entry of one session does not have the other. -/
theorem Sessions.takeOut_other {held named : Sessions} (h : (named = .am ∧ held = .pm) ∨ (named = .pm ∧ held = .am)) :
    held.takeOut named = none := by
  rcases h with ⟨rfl, rfl⟩ | ⟨rfl, rfl⟩ <;> rfl

section
variable {s : State} {tag p n : Nat} {rd : RawDate} {x : Sessions} {e : Advance} {a b : List Advance}

/-- The date that a request names. -/
abbrev rawDay (rd : RawDate) : Date := ⟨rd.day, rd.month, rd.year + 2000⟩

/-- The values of an ADVANCE CANCEL are in range. -/
abbrev cancelArgs (rd : RawDate) (p n : Nat) : Prop := rd.year ≤ 99 ∧ (rawDay rd).valid = true ∧ p < 2400 ∧ n ≤ 2

theorem reqAdvanceCancel_badArg (h : ¬ cancelArgs rd p n) : reqAdvanceCancel rd p n s = s.refuse .badArg := by
  unfold reqAdvanceCancel
  split
  · rename_i d x hd hx
    rw [rawDate?_eq] at hd
    obtain ⟨⟨hy, hv⟩, -⟩ := Option.ite_none_right_eq_some.mp hd
    refine if_neg fun hp => h ⟨hy, hv, (pupilOk_iff p).mp hp, ?_⟩
    rw [Sessions.code_of_ofCode hx]
    exact x.code_le
  · rfl

theorem reqAdvanceCancel_notFound (h : cancelArgs rd p n) (hno : ∀ f ∈ s.recon.advance, ¬ f.isOf (rawDay rd) p) :
    reqAdvanceCancel rd p n s = s.refuse .notFound := by
  obtain ⟨hy, hv, hp, hn⟩ := h
  obtain ⟨x, rfl⟩ := Sessions.exists_code hn
  have unheld : (s.recon.advance.find? fun f => f.date == rawDay rd && f.pupil == p) = none :=
    List.find?_eq_none.mpr fun f hf => by rw [Advance.test_isOf, decide_eq_true_iff]; exact hno f hf
  simp only [reqAdvanceCancel, rawDate?_eq, if_pos (And.intro hy hv), Sessions.ofCode_code, (pupilOk_iff p).mpr hp, if_true, unheld]

/-- The list has one entry of a date and pupil, at a place. -/
structure State.Reported (s : State) (a : List Advance) (e : Advance) (b : List Advance) : Prop where
  list : s.recon.advance = a ++ e :: b
  only : ∀ f ∈ a ++ b, ¬ f.isOf e.date e.pupil

theorem State.Reported.tests (h : s.Reported a e b) : ∀ f ∈ a ++ b, (f.date == e.date && f.pupil == e.pupil) = false := fun f hf => by
  rw [Advance.test_isOf, decide_eq_false_iff_not]
  exact h.only f hf

theorem Advance.test_self (e : Advance) : (e.date == e.date && e.pupil == e.pupil) = true := by
  rw [Advance.test_isOf, decide_eq_true_iff]
  exact ⟨rfl, rfl⟩

theorem reqAdvanceCancel_held (h : s.Reported a e b) (hok : cancelArgs rd e.pupil x.code) (hd : e.date = rawDay rd) :
    reqAdvanceCancel rd e.pupil x.code s = s.cancelAdvance e x := by
  have found : (s.recon.advance.find? fun f => f.date == rawDay rd && f.pupil == e.pupil) = some e := by
    rw [h.list, ← hd]
    exact find?_picked (fun f hf => h.tests f (List.mem_append_left b hf)) e.test_self
  obtain ⟨hy, hv, hp, -⟩ := hok
  simp only [reqAdvanceCancel, rawDate?_eq, if_pos (And.intro hy hv), Sessions.ofCode_code, (pupilOk_iff _).mpr hp, if_true, found]

/-- What is left of the entry stays at its place. -/
theorem cancelAdvance_taken (h : s.Reported a e b) {left : Option Sessions} (ht : e.sessions.takeOut x = some left) :
    s.cancelAdvance e x =
      ({ s with
        recon.advance := a ++ (left.map fun y => { e with sessions := y }).toList ++ b
        recon.advCnt.cancelled := min (s.recon.advCnt.cancelled + 1) 4294967295 },
        Reply.ok (bOpt 1 (fun y : Sessions => b1 y.code) left)) := by
  have cut : cutAdvance e.date e.pupil left s.recon.advance = a ++ (left.map fun y => { e with sessions := y }).toList ++ b := by
    rw [h.list]
    exact filterMap_picked (fun f : Advance => left.map fun y => { f with sessions := y }) h.tests e.test_self
  rw [State.cancelAdvance, ht]
  dsimp only
  rw [cut]
  rfl

theorem cancelAdvance_refused (ht : e.sessions.takeOut x = none) : s.cancelAdvance e x = s.refuse .notFound := by
  rw [State.cancelAdvance, ht]

theorem advanceCancel_answers (h : s.ready) {g : State → State} {code : Code} {body : List Byte}
    (hreq : reqAdvanceCancel rd p n (s.inHand 0x33 tag) = (g (s.inHand 0x33 tag), ⟨code, body⟩))
    (hhand : (g (s.inHand 0x33 tag)).link.hand = some ⟨tag, 0x33, false⟩) :
    Answers (.advanceCancel tag rd p n) s 0x33 tag g code body :=
  answers_of_handle h rfl rfl (by decide) (congrArg answered hreq) hhand

end

/-! ## WAIT ENTRY EXPIRY (R133) -/

section
variable {s : State} {i : Nat} {e : WaitEntry}

theorem WaitEntry.cls_receipt (h : e.kind = .reportReceipt) : e.cls = .receipt := by rw [WaitEntry.cls, h]

theorem WaitEntry.cls_notice (h : e.kind ≠ .reportReceipt) : e.cls = .notice := by
  unfold WaitEntry.cls
  split
  · exact absurd ‹_› h
  · rfl

theorem expireWait_none (h : s.recon.waits.length ≤ i) : s.expireWait i = s := by
  rw [State.expireWait, List.getElem?_eq_none h]

theorem expireWait_some (h : s.recon.waits[i]? = some e) :
    s.expireWait i = { s with
      recon.waits := s.recon.waits.eraseIdx i
      recon.waitCnt.expired := min (s.recon.waitCnt.expired + 1) 4294967295 }.countEnd e.cls EndCounts.addUndelivered := by
  rw [State.expireWait, h]
  rfl

end

/-- Settles O48: an advance report is refused, merges, finds the list full or joins; ADVANCE CANCEL; a wait entry's expiry. -/
theorem advanceAndWaitEntries : Obligations.AdvanceAndWaitEntries := by
  refine ⟨fun s p d x report => ?_, fun s tag p n rd h => ?_, fun s i => ?_⟩
  · refine ⟨takeAdvance_refused, fun a b e hsoon hl hd hp => takeAdvance_merged hsoon hl ⟨hd, hp⟩, fun hsoon hnew hfull => ?_,
      fun a b hsoon hl hroom => takeAdvance_joins hsoon hl hroom⟩
    exact (takeAdvance_new hsoon hnew).trans (if_neg (Nat.not_lt.mpr hfull))
  · refine ⟨fun bad => advanceCancel_answers h (reqAdvanceCancel_badArg bad) rfl,
      fun ok hno => advanceCancel_answers h (reqAdvanceCancel_notFound (s := s.inHand 0x33 tag) ok hno) rfl, ?_⟩
    rintro a b e x ok hl hd rfl hother rfl
    have reported : (s.inHand 0x33 tag).Reported a e b := ⟨hl, hd ▸ hother⟩
    have cancel := reqAdvanceCancel_held reported ok hd
    refine ⟨fun all => ?_, ?_, ?_, fun other => ?_⟩
    · exact advanceCancel_answers h (cancel.trans (cancelAdvance_taken reported (Sessions.takeOut_all all))) rfl
    · rintro rfl both
      exact advanceCancel_answers h (cancel.trans (cancelAdvance_taken reported (Sessions.takeOut_am both))) rfl
    · rintro rfl both
      exact advanceCancel_answers h (cancel.trans (cancelAdvance_taken reported (Sessions.takeOut_pm both))) rfl
    · exact advanceCancel_answers h (cancel.trans (cancelAdvance_refused (Sessions.takeOut_other other))) rfl
  · refine ⟨fun hend => does_of_run rfl (expireWait_none hend), fun e he => ⟨fun receipt => ?_, fun notice => ?_⟩⟩
    · refine does_of_run rfl ((expireWait_some he).trans ?_)
      rw [WaitEntry.cls_receipt receipt]
      rfl
    · refine does_of_run rfl ((expireWait_some he).trans ?_)
      rw [WaitEntry.cls_notice notice]
      rfl

end Sys2Proof.Machine
end

