-- ==== Sys2Proof/Proofs/PoolLedger.lean ====
section
/-! SUPPORT. The pool's books: what its balance speaks of, and how a message that takes storage and one that returns it keep the balance
(R135 to R139, R143). -/

namespace Sys2Proof.Machine

theorem PerClass.get_set {α : Type} (x : PerClass α) (c d : MsgClass) (v : α) :
    (x.set c v).get d = if d = c then v else x.get d := by
  cases c <;> cases d <;> rfl

/-! ## The pool's books -/

/-- What the pool's balance speaks of in a message: its number, its class and its storage. -/
structure Account where
  number : Nat
  cls : MsgClass
  storage : Storage

def Message.account (m : Message) : Account := ⟨m.number, m.cls, m.storage⟩

namespace Account

def segs (x : Account) : Nat :=
  match x.storage with
  | .shared k => k
  | .reserve _ => 0

def area (x : Account) : Option Nat :=
  match x.storage with
  | .shared _ => none
  | .reserve a => some a

def reserved (x : Account) : Bool := x.area.isSome

variable {x : Account}

theorem area_shared {k : Nat} (h : x.storage = .shared k) : x.area = none := by simp only [area, h]
theorem area_reserve {a : Nat} (h : x.storage = .reserve a) : x.area = some a := by simp only [area, h]
theorem segs_shared {k : Nat} (h : x.storage = .shared k) : x.segs = k := by simp only [segs, h]
theorem segs_reserve {a : Nat} (h : x.storage = .reserve a) : x.segs = 0 := by simp only [segs, h]
theorem reserved_shared {k : Nat} (h : x.storage = .shared k) : x.reserved = false := by rw [reserved, area_shared h]; rfl
theorem reserved_reserve {a : Nat} (h : x.storage = .reserve a) : x.reserved = true := by rw [reserved, area_reserve h]; rfl

end Account

/-- The counts of the pool that balance (R135, R137), the classes' settings, and the accounts of the messages held. -/
structure Ledger where
  desc : Nat
  segs : Nat
  credits : PerClass Nat
  setting : PerClass Nat
  held : List Account
  next : Nat

namespace Ledger

/-- How many of some accounts lie on shared storage, and how many of a class on reserve. -/
def shared (l : List Account) : Nat := (l.filter fun a => !a.reserved).length
def onReserve (l : List Account) (c : MsgClass) : Nat := (l.filter fun a => a.cls == c && a.reserved).length

/-- The balance of the pool, with the accounts listed in `kept` among those held. -/
structure Sound (kept : List Account) (x : Ledger) : Prop where
  desc : x.desc + shared x.held = 48
  segs : x.segs + (x.held.map Account.segs).sum = 96
  credits : ∀ c : MsgClass, x.credits.get c = x.setting.get c - onReserve x.held c
  areas : (x.held.filterMap Account.area).Nodup
  below : ∀ a ∈ x.held.filterMap Account.area, a < 16
  numbers : (x.held.map Account.number).Nodup
  next : ∀ a ∈ x.held, a.number ≠ x.next
  kept : kept ⊆ x.held

theorem shared_cons (a : Account) (l : List Account) : shared (a :: l) = shared l + if a.reserved then 0 else 1 := by
  cases h : a.reserved <;> simp [shared, h]

theorem onReserve_cons (a : Account) (l : List Account) (c : MsgClass) :
    onReserve (a :: l) c = onReserve l c + if a.reserved && a.cls == c then 1 else 0 := by
  cases h : a.reserved <;> by_cases e : a.cls = c <;> simp [onReserve, h, e]

theorem shared_perm {l l' : List Account} (h : l.Perm l') : shared l = shared l' := (h.filter _).length_eq

theorem onReserve_perm {l l' : List Account} (h : l.Perm l') (c : MsgClass) : onReserve l c = onReserve l' c := (h.filter _).length_eq

theorem segs_perm {l l' : List Account} (h : l.Perm l') : (l.map Account.segs).sum = (l'.map Account.segs).sum :=
  (h.map _).sum_eq

/-- Every message held lies on shared storage or in an area of its own. -/
theorem length_held (l : List Account) : l.length = shared l + (l.filterMap Account.area).length := by
  induction l with
  | nil => rfl
  | cons a l ih =>
    rw [shared_cons, List.filterMap_cons, List.length_cons, ih]
    cases ha : a.area <;> simp [Account.reserved, ha] <;> omega

/-- With 48 messages on shared storage and 16 on reserve there is room for no more: where there is room, at most 63 are held. -/
theorem Sound.length_le {kept : List Account} {x : Ledger} (h : x.Sound kept)
    (room : 1 ≤ x.desc ∨ ∃ b < 16, b ∉ x.held.filterMap Account.area) : x.held.length ≤ 63 := by
  have hsub : x.held.filterMap Account.area ⊆ List.range 16 := fun a ha => List.mem_range.mpr (h.below a ha)
  have hareas := (h.areas.subperm hsub).length_le
  rw [List.length_range] at hareas
  have hdesc := h.desc
  rw [length_held]
  rcases room with room | ⟨b, hb, hfree⟩
  · omega
  · have hmore := ((List.nodup_cons.mpr ⟨hfree, h.areas⟩).subperm (List.cons_subset.mpr ⟨List.mem_range.mpr hb, hsub⟩)).length_le
    rw [List.length_range, List.length_cons] at hmore
    omega

/-- The accounts held are one of them and those of other numbers. -/
theorem perm_cons_others {l : List Account} {a : Account} (hn : (l.map Account.number).Nodup) (ha : a ∈ l) :
    l.Perm (a :: l.filter fun b => b.number != a.number) := by
  obtain ⟨u, v, rfl⟩ := List.append_of_mem ha
  have hne : ∀ b ∈ u ++ v, b.number ≠ a.number := by
    rw [List.map_append, List.map_cons, List.nodup_middle, ← List.map_append] at hn
    exact fun b hb e => (List.nodup_cons.mp hn).1 (e ▸ List.mem_map_of_mem hb)
  have hrest : (u ++ a :: v).filter (fun b => b.number != a.number) = u ++ v := by
    rw [List.filter_append, List.filter_cons_of_neg (by simp), ← List.filter_append]
    exact List.filter_eq_self.mpr fun b hb => by simpa using hne b hb
  rw [hrest]
  exact List.perm_middle

/-- A message that joins those held brings what it takes into each count. -/
theorem joined_perm (l : List Account) (a : Account) : (l ++ [a]).Perm (a :: l) := List.perm_append_singleton a l

section
variable {kept : List Account} {x : Ledger} {a : Account} {cls : MsgClass}

/-- The next number, which no account holds, is one of its own. -/
theorem Sound.numbers_hold (h : x.Sound kept) (ha : a.number = x.next) : ((x.held ++ [a]).map Account.number).Nodup := by
  rw [((joined_perm x.held a).map _).nodup_iff, List.map_cons, List.nodup_cons]
  refine ⟨fun hm => ?_, h.numbers⟩
  obtain ⟨b, hb, e⟩ := List.mem_map.mp hm
  exact h.next b hb (e.trans ha)

/-- R139 step 1, R136: a message takes a shared descriptor and its segments, and the next number. -/
theorem Sound.holdShared (h : x.Sound kept) {k n : Nat} (hs : a.storage = .shared k) (ha : a.number = x.next) (hd : 1 ≤ x.desc)
    (hk : k ≤ x.segs) (hn : ∀ b ∈ x.held ++ [a], b.number ≠ n) :
    Sound (a :: kept) { x with desc := x.desc - 1, segs := x.segs - k, held := x.held ++ [a], next := n } where
  desc := by
    have hdesc := h.desc
    show x.desc - 1 + shared (x.held ++ [a]) = 48
    rw [shared_perm (joined_perm x.held a), shared_cons, Account.reserved_shared hs, if_neg Bool.false_ne_true]
    omega
  segs := by
    have hsegs := h.segs
    show x.segs - k + ((x.held ++ [a]).map Account.segs).sum = 96
    rw [segs_perm (joined_perm x.held a), List.map_cons, List.sum_cons, Account.segs_shared hs]
    omega
  credits c := by
    rw [onReserve_perm (joined_perm x.held a), onReserve_cons, Account.reserved_shared hs]
    exact h.credits c
  areas := by simpa [Account.area_shared hs] using h.areas
  below := by simpa [Account.area_shared hs] using h.below
  numbers := h.numbers_hold ha
  next := hn
  kept := List.cons_subset.mpr ⟨by simp, List.subset_append_of_subset_left _ h.kept⟩

/-- R139 step 2, R136: a message takes a credit of its class and a free area, and the next number. -/
theorem Sound.holdReserve (h : x.Sound kept) {b n : Nat} (hs : a.storage = .reserve b) (ha : a.number = x.next)
    (hc : 1 ≤ x.credits.get a.cls) (hb : b < 16) (hfree : b ∉ x.held.filterMap Account.area)
    (hn : ∀ c ∈ x.held ++ [a], c.number ≠ n) :
    Sound (a :: kept)
      { x with credits := x.credits.set a.cls (x.credits.get a.cls - 1), held := x.held ++ [a], next := n } where
  desc := by
    rw [← h.desc, shared_perm (joined_perm x.held a), shared_cons, Account.reserved_reserve hs]
    rfl
  segs := by
    rw [← h.segs, segs_perm (joined_perm x.held a), List.map_cons, List.sum_cons, Account.segs_reserve hs, Nat.zero_add]
  credits c := by
    have hcls := h.credits a.cls
    have hother := h.credits c
    rw [onReserve_perm (joined_perm x.held a), onReserve_cons, Account.reserved_reserve hs, PerClass.get_set]
    by_cases e : c = a.cls
    · subst e
      simp
      omega
    · simp [e, Ne.symm e, hother]
  areas := by
    rw [((joined_perm x.held a).filterMap _).nodup_iff, List.filterMap_cons_some (Account.area_reserve hs), List.nodup_cons]
    exact ⟨hfree, h.areas⟩
  below c hc := by
    rw [((joined_perm x.held a).filterMap _).mem_iff, List.filterMap_cons_some (Account.area_reserve hs), List.mem_cons] at hc
    rcases hc with rfl | hc
    · exact hb
    · exact h.below c hc
  numbers := h.numbers_hold ha
  next := hn
  kept := List.cons_subset.mpr ⟨by simp, List.subset_append_of_subset_left _ h.kept⟩

/-- The accounts other than those of a message that leaves. -/
def others (x : Ledger) (a : Account) : List Account := x.held.filter fun b => b.number != a.number

/-- What is kept with the accounts of other numbers: their counts are to be shown where one leaves. -/
theorem Sound.ofOthers (h : x.Sound kept) (hk : ∀ b ∈ kept, b.number ≠ a.number) {desc segs : Nat} {credits : PerClass Nat}
    (hdesc : desc + shared (x.others a) = 48) (hsegs : segs + ((x.others a).map Account.segs).sum = 96)
    (hcredits : ∀ c : MsgClass, credits.get c = x.setting.get c - onReserve (x.others a) c) :
    Sound kept ⟨desc, segs, credits, x.setting, x.others a, x.next⟩ :=
  have hsub : (x.others a).Sublist x.held := List.filter_sublist
  ⟨hdesc, hsegs, hcredits, h.areas.sublist (hsub.filterMap _), fun b hb => h.below b ((hsub.filterMap _).subset hb),
    h.numbers.sublist (hsub.map _), fun b hb => h.next b (hsub.subset hb),
    fun b hb => List.mem_filter.mpr ⟨h.kept hb, by simpa using hk b hb⟩⟩

/-- R143: a message on shared storage returns its descriptor and its segments. -/
theorem Sound.dropShared (h : x.Sound kept) (ha : a ∈ x.held) (hk : ∀ b ∈ kept, b.number ≠ a.number) {k : Nat}
    (hs : a.storage = .shared k) : Sound kept { x with desc := x.desc + 1, segs := x.segs + k, held := x.others a } := by
  have hperm : x.held.Perm (a :: x.others a) := perm_cons_others h.numbers ha
  refine h.ofOthers hk ?_ ?_ fun c => ?_
  · rw [← h.desc, shared_perm hperm, shared_cons, Account.reserved_shared hs, if_neg Bool.false_ne_true]
    omega
  · rw [← h.segs, segs_perm hperm, List.map_cons, List.sum_cons, Account.segs_shared hs]
    omega
  · rw [h.credits c, onReserve_perm hperm, onReserve_cons, Account.reserved_shared hs]
    rfl

/-- R143: a message on reserve returns its class's credit, unless the class holds more on reserve than its setting. -/
theorem Sound.dropReserve (h : x.Sound kept) (ha : a ∈ x.held) (hk : ∀ b ∈ kept, b.number ≠ a.number) {b : Nat}
    (hs : a.storage = .reserve b) :
    Sound kept { x with
      credits :=
        if onReserve x.held a.cls ≤ x.setting.get a.cls then x.credits.set a.cls (x.credits.get a.cls + 1) else x.credits
      held := x.others a } := by
  have hperm : x.held.Perm (a :: x.others a) := perm_cons_others h.numbers ha
  refine h.ofOthers hk ?_ ?_ fun c => ?_
  · rw [← h.desc, shared_perm hperm, shared_cons, Account.reserved_reserve hs]
    rfl
  · rw [← h.segs, segs_perm hperm, List.map_cons, List.sum_cons, Account.segs_reserve hs, Nat.zero_add]
  · have hcls := h.credits a.cls
    have hother := h.credits c
    rw [onReserve_perm hperm, onReserve_cons, Account.reserved_reserve hs] at hcls hother ⊢
    by_cases e : c = a.cls
    · subst e
      simp only [Bool.true_and, beq_self_eq_true, if_true] at hcls ⊢
      split
      · rw [PerClass.get_set, if_pos rfl]
        omega
      · omega
    · rw [apply_ite (PerClass.get · c), PerClass.get_set, if_neg e, ite_self, hother]
      simp [Ne.symm e]

end

end Ledger

/-! ## The pool in State -/

def State.ledger (s : State) : Ledger :=
  ⟨s.pool.freeDesc, s.pool.freeSegs, s.pool.credits, s.set.options.credits, s.pool.msgs.map Message.account, s.pool.nextNum⟩

/-- The pool of a state balances, and the messages of the accounts `kept` are in it. An operation that touches neither the pool nor the
credit settings keeps this by definition: its proof is the hypothesis itself. -/
def Books (kept : List Account) (s : State) : Prop := s.ledger.Sound kept

theorem Message.account_reserved (m : Message) : m.account.reserved = m.onReserve := by
  cases h : m.storage <;> simp only [Message.onReserve, h]
  · exact Account.reserved_shared h
  · exact Account.reserved_reserve h

theorem shared_accounts (l : List Message) : Ledger.shared (l.map Message.account) = (l.filter fun m => !m.onReserve).length := by
  rw [Ledger.shared, List.filter_map, List.length_map]
  simp only [Function.comp_def, Message.account_reserved]

theorem onReserve_accounts (l : List Message) (c : MsgClass) :
    Ledger.onReserve (l.map Message.account) c = (l.filter fun m => m.cls == c && m.onReserve).length := by
  rw [Ledger.onReserve, List.filter_map, List.length_map]
  simp only [Function.comp_def, Message.account_reserved]
  rfl

/-- The areas that messages hold are those of their accounts. -/
theorem areas_accounts (l : List Message) : (l.map Message.account).filterMap Account.area = heldAreas l := by
  rw [List.filterMap_map]
  refine List.filterMap_congr fun m _ => ?_
  cases h : m.storage <;> simp [Account.area, Message.account, h]

theorem State.poolBalances_iff (s : State) : s.poolBalances ↔ Books [] s := by
  have hsegs : (s.pool.msgs.map Message.account).map Account.segs = s.pool.msgs.map fun m => m.account.segs := by
    rw [List.map_map]
    rfl
  have hareas : (s.pool.msgs.map Message.account).filterMap Account.area = s.pool.msgs.filterMap fun m => m.account.area :=
    List.filterMap_map
  have hnumbers : (s.pool.msgs.map Message.account).map Account.number = s.pool.msgs.map (·.number) := by
    rw [List.map_map]
    rfl
  constructor
  · rintro ⟨hd, hs, hc, ha, hb, hn, hx⟩
    refine ⟨?_, ?_, fun c => ?_, ?_, ?_, ?_, fun a h => ?_, List.nil_subset _⟩
    · exact (congrArg _ (shared_accounts _)).trans hd
    · exact (congrArg (s.pool.freeSegs + ·.sum) hsegs).trans hs
    · exact (hc c).trans (congrArg _ (onReserve_accounts _ c).symm)
    · exact (congrArg List.Nodup hareas).mpr ha
    · exact fun a h => hb a ((congrArg (a ∈ ·) hareas).mp h)
    · exact (congrArg List.Nodup hnumbers).mpr hn
    · obtain ⟨m, hm, rfl⟩ := List.mem_map.mp h
      exact hx m hm
  · rintro ⟨hd, hs, hc, ha, hb, hn, hx, -⟩
    refine ⟨?_, ?_, fun c => ?_, ?_, ?_, ?_, fun m h => ?_⟩
    · exact (congrArg _ (shared_accounts _).symm).trans hd
    · exact (congrArg (s.pool.freeSegs + ·.sum) hsegs.symm).trans hs
    · exact (hc c).trans (congrArg _ (onReserve_accounts _ c))
    · exact (congrArg List.Nodup hareas).mp ha
    · exact fun a h => hb a ((congrArg (a ∈ ·) hareas).mpr h)
    · exact (congrArg List.Nodup hnumbers).mp hn
    · exact hx _ (List.mem_map_of_mem h)

/-- The lowest free area lies in the reserve, and no message holds it (R139). -/
theorem Pool.freeArea_some {p : Pool} {a : Nat} (h : p.freeArea = some a) : a < 16 ∧ a ∉ heldAreas p.msgs :=
  ⟨List.mem_range.mp (List.mem_of_find?_eq_some h), by simpa using List.find?_some h⟩

/-- An allocation takes from the pool's counts, and latches a condition at most (R139). -/
theorem allocate_beside {s t : State} {c : MsgClass} {k : Nat} {st : Storage} (h : s.allocate c k = some (t, st)) :
    ∃ (x : Pool) (l : HostLink), t = s.beside s.reg x s.gw l ∧ x.msgs = s.pool.msgs ∧ x.nextNum = s.pool.nextNum := by
  rcases s.allocate_cases c k with ⟨_, _, e⟩ | ⟨_, _, _, _, e⟩ | ⟨_, _, e⟩ <;> rw [e] at h <;> cases h
  · exact ⟨_, _, rfl, rfl, rfl⟩
  · exact ⟨_, _, rfl, rfl, rfl⟩

namespace Books
variable {kept : List Account} {s t : State}

theorem mono {less : List Account} (h : Books kept s) (hk : less ⊆ kept) : Books less s := { h with kept := List.Subset.trans hk h.kept }

theorem forget (h : Books kept s) : Books [] s := h.mono (List.nil_subset _)

/-- A message of the pool stays in it while nothing frees it. -/
theorem keepAlso (h : Books kept s) {m : Message} (hm : m ∈ s.pool.msgs) : Books (m.account :: kept) s :=
  { h with kept := List.cons_subset.mpr ⟨List.mem_map_of_mem hm, h.kept⟩ }

/-- Where there is room for a message, there is a free number after its own (R136). -/
theorem nextNum_free (h : Books kept s) (room : 1 ≤ s.pool.freeDesc ∨ ∃ b < 16, b ∉ heldAreas s.pool.msgs) (m : Message) :
    ∀ a ∈ s.pool.msgs.map Message.account ++ [m.account],
      a.number ≠ nextFree 65535 ((s.pool.msgs ++ [m]).map (·.number)) 65 s.pool.nextNum := by
  rw [← areas_accounts] at room
  have hle : s.pool.msgs.length ≤ 63 := (List.length_map _).symm.trans_le (h.length_le room)
  have hfree : nextFree 65535 ((s.pool.msgs ++ [m]).map (·.number)) 65 s.pool.nextNum ∉ (s.pool.msgs ++ [m]).map (·.number) :=
    nextFree_not_mem (by decide) (by simpa using by omega)
  intro a ha e
  rw [← List.map_singleton, ← List.map_append] at ha
  obtain ⟨x, hx, rfl⟩ := List.mem_map.mp ha
  exact hfree (e ▸ List.mem_map_of_mem hx)

/-- R139, R136: a message that has been allocated storage joins the pool. -/
theorem stored (h : Books kept s) {c : MsgClass} {k : Nat} {st : Storage} (e : s.allocate c k = some (t, st)) (kind : MsgKind)
    (text : Text) (body : MsgBody) : Books (⟨s.pool.nextNum, c, st⟩ :: kept) (t.addMessage c kind st text body) := by
  have hmap (m : Message) : (s.pool.msgs ++ [m]).map Message.account = s.pool.msgs.map Message.account ++ [m.account] := by
    rw [List.map_append, List.map_singleton]
  rcases s.allocate_cases c k with ⟨hd, hk, e'⟩ | ⟨-, hc, a, ha, e'⟩ | ⟨-, -, e'⟩ <;> rw [e'] at e <;> cases e
  · have held := h.holdShared (a := ⟨s.pool.nextNum, c, .shared k⟩) rfl rfl hd hk
      (h.nextNum_free (.inl hd) ⟨s.pool.nextNum, c, kind, .shared k, s.clock.stamp, text, body⟩)
    simp only [Books, State.ledger, State.addMessage, State.takeShared, hmap]
    exact held
  · obtain ⟨ha, hfree⟩ := Pool.freeArea_some ha
    have held := h.holdReserve (a := ⟨s.pool.nextNum, c, .reserve a⟩) rfl rfl hc ha (by rwa [State.ledger, areas_accounts])
      (h.nextNum_free (.inr ⟨a, ha, hfree⟩) ⟨s.pool.nextNum, c, kind, .reserve a, s.clock.stamp, text, body⟩)
    simp only [Books, State.ledger, State.addMessage, State.takeReserve, State.raise, hmap]
    exact held

/-- Messages that change in neither number, class nor storage. -/
theorem modMessages (h : Books kept s) {f : Message → Message} (hf : ∀ m ∈ s.pool.msgs, (f m).account = m.account) :
    Books kept { s with pool.msgs := s.pool.msgs.map f } := by
  have hsame : (s.pool.msgs.map f).map Message.account = s.pool.msgs.map Message.account := by
    rw [List.map_map]
    exact List.map_congr_left hf
  simp only [Books, State.ledger, hsame]
  exact h

theorem modMessage (h : Books kept s) (n : Nat) {f : Message → Message} (hf : ∀ m : Message, (f m).account = m.account) :
    Books kept (s.modMessage n f) :=
  h.modMessages fun m _ => by
    split
    · exact hf m
    · rfl

/-- R143: a message of the pool returns what it took. -/
theorem release (h : Books kept s) {m : Message} (hm : m.account ∈ s.pool.msgs.map Message.account)
    (hk : ∀ a ∈ kept, a.number ≠ m.number) : Books kept (s.release m) := by
  have hrest : (s.pool.msgs.filter (·.number != m.number)).map Message.account = s.ledger.others m.account := by
    rw [Ledger.others, State.ledger, List.filter_map]
    rfl
  unfold State.release
  split
  · rename_i hs
    have dropped := h.dropShared hm hk hs
    simp only [Books, State.ledger, hrest]
    exact dropped
  · rename_i hs
    have dropped := h.dropReserve hm hk hs
    simp only [State.ledger, onReserve_accounts] at dropped
    simp only [Books, State.ledger, hrest]
    exact dropped

end Books
end Sys2Proof.Machine
end

