-- ==== Sys2Proof/Proofs/BooksOfPoolAndDelivery.lean ====
section
/-! SUPPORT. How serving, the ends of messages, recalls, results and timers keep the pool's books (R139 to R144, R153 to R162). -/

namespace Sys2Proof.Machine

theorem State.mem_of_message {s : State} {n : Nat} {m : Message} (h : s.message n = some m) : m ∈ s.pool.msgs ∧ m.number = n :=
  ⟨List.mem_of_find?_eq_some h, by simpa using List.find?_some h⟩

namespace Books
variable {kept : List Account} {s t : State}

theorem foldl {β : Type} {f : State → β → State} (hf : ∀ (s : State) (x : β), Books kept s → Books kept (f s x))
    (h : Books kept s) (l : List β) : Books kept (l.foldl f s) := by
  induction l generalizing s with
  | nil => exact h
  | cons x l ih => exact ih (hf s x h)

theorem ite_op {c : Prop} [Decidable c] (f : State → State) (hf : Books kept s → Books kept (f s)) (h : Books kept s) :
    Books kept (if c then f s else s) := by
  split
  · exact hf h
  · exact h

theorem ite_op_fst {β : Type} {c : Prop} [Decidable c] {y : β} (f : State → State × β) (hf : Books kept s → Books kept (f s).1)
    (h : Books kept s) : Books kept (if c then f s else (s, y)).1 := by
  split
  · exact hf h
  · exact h

/-! ## The slips, the records and the queues -/

theorem raise (h : Books kept s) (c : Condition) : Books kept (s.raise c) := h

theorem raiseAll (h : Books kept s) (l : List Condition) : Books kept (s.raiseAll l) := foldl (fun _ c h => h.raise c) h l

theorem modRec (h : Books kept s) (p : Nat) (ss : Session) (f : Rec → Rec) : Books kept (s.modRec p ss f) := h

theorem setQueue (h : Books kept s) (c : MsgClass) (l : List Nat) : Books kept { s with sched := s.sched.setQueue c l } := h

theorem enqueue (h : Books kept s) (c : MsgClass) (n : Nat) : Books kept (s.enqueue c n) := h

theorem dequeue (h : Books kept s) (c : MsgClass) (n : Nat) : Books kept (s.dequeue c n) := h

theorem countEnd (h : Books kept s) (c : MsgClass) (f : EndCounts → EndCounts) : Books kept (s.countEnd c f) := h

theorem countReject (h : Books kept s) (c : MsgClass) : Books kept (s.countReject c) := h

theorem fillSlot (h : Books kept s) : Books kept s.fillSlot := by
  unfold State.fillSlot
  split <;> exact h

theorem joinSlip (h : Books kept s) (x : Slip) : Books kept (s.joinSlip x).1 := by
  unfold State.joinSlip
  split
  · exact fillSlot (s := { s with slips := _, desk := _ }) h
  · exact h

theorem alertUndelivered (h : Books kept s) (p : Nat) (ss : Session) (reason : CallReason) :
    Books kept (s.alertUndelivered p ss reason) :=
  joinSlip (s := (s.modRec p ss fun r => { r with alert := .undelivered }).raise .alertUndelivered) h _

theorem joinWait (h : Books kept s) (e : WaitEntry) : Books kept (s.joinWait e).1 := by
  unfold State.joinWait
  split <;> exact h

theorem withdrawWaits (h : Books kept s) (kind : MsgKind) (p : Nat) (ss : Session) : Books kept (s.withdrawWaits kind p ss) := h

/-! ## Storing and serving (R139 to R144) -/

/-- R151: a message without recipient gives back at once what it took. -/
theorem storeOut (h : Books kept s) {cls : MsgClass} {kind : MsgKind} {subj : Subject} {text : Text} {life : Option Nat}
    {st : Stored} (e : s.storeOut cls kind subj text life = some (t, st)) : Books kept t := by
  dsimp only [State.storeOut] at e
  split at e
  · cases e
  · rename_i s1 st' he
    have added := h.stored he kind text (.out ⟨subj, s1.recipients cls subj, ⟨0, false, 0⟩, .queued, life, false⟩)
    have added' := added.mono (List.subset_cons_self _ _)
    have hnext : s1.pool.nextNum = s.pool.nextNum := by
      obtain ⟨x, l, rfl, -, h⟩ := allocate_beside he
      exact h
    split at e
    · split at e <;> cases e
      · rename_i m hm
        obtain ⟨hm, hn⟩ := State.mem_of_message hm
        exact (added'.countEnd cls EndCounts.addUndelivered).release (List.mem_map_of_mem hm)
          fun a ha => by rw [hn, hnext]; exact h.next a (h.kept ha)
      · exact added'
    · cases e
      exact added'

theorem tryAlert (h : Books kept s) {p : Nat} {ss : Session} {st : Stored} (e : s.tryAlert p ss = some (t, st)) : Books kept t := by
  dsimp only [State.tryAlert] at e
  split at e
  · cases e
  · rename_i he
    cases e
    exact (h.storeOut he).modRec _ _ _
  · rename_i he
    cases e
    exact ((h.storeOut he).modRec _ _ _).alertUndelivered _ _ _

theorem tryEntry (h : Books kept s) {e : WaitEntry} {st : Stored} (he : s.tryEntry e = some (t, st)) : Books kept t := h.storeOut he

theorem serveAlerts (h : Books kept s) (l : List Nat) : Books kept (serveAlerts l s) := by
  induction l generalizing s with
  | nil => exact h
  | cons k l ih =>
    unfold Machine.serveAlerts
    split
    · exact h
    · exact ih (h.tryAlert ‹_›)

theorem serveWaits (h : Books kept s) (fuel : Nat) : Books kept (serveWaits fuel s) := by
  induction fuel generalizing s with
  | zero => exact h
  | succ fuel ih =>
    unfold Machine.serveWaits
    split
    · exact h
    · split
      · exact h
      · rename_i t _ he
        have tried : Books kept t := h.tryEntry he
        exact ih tried

theorem servePass (h : Books kept s) : Books kept s.servePass := (h.serveAlerts _).serveWaits _

theorem freeMessage (h : Books kept s) {m : Message} (hm : m.account ∈ s.pool.msgs.map Message.account)
    (hk : ∀ a ∈ kept, a.number ≠ m.number) : Books kept (s.freeMessage m) := (h.release hm hk).servePass

theorem afterStored (h : Books kept s) (x : Stored) : Books kept (s.afterStored x) := by
  cases x
  · exact h
  · exact h.servePass

theorem alertBecomesDue (h : Books kept s) (p : Nat) (ss : Session) : Books kept (s.alertBecomesDue p ss) := by
  dsimp only [State.alertBecomesDue]
  split
  · exact h
  · rename_i he
    exact ((h.modRec _ _ _).tryAlert he).afterStored _

theorem requestMsg (h : Books kept s) (kind : MsgKind) (subj : Subject) (template : Option Nat) :
    Books kept (s.requestMsg kind subj template).1 := by
  dsimp only [State.requestMsg]
  split
  · rename_i he
    exact (h.tryEntry he).afterStored _
  · exact (h.countReject _).joinWait _

theorem requestDirect (h : Books kept s) (p : Nat) (ss : Session) (text : Text) : Books kept (s.requestDirect p ss text).1 := by
  unfold State.requestDirect
  split
  · rename_i he
    exact (h.storeOut he).afterStored _
  · exact h

theorem storeReport (h : Books kept s) {sender text : Text} {n : Nat} (e : s.storeReport sender text = some (t, n)) :
    Books kept t := by
  unfold State.storeReport at e
  split at e
  · cases e
  · rename_i he
    cases e
    exact (h.stored he _ _ _).mono (List.subset_cons_self _ _)

/-! ## How messages end (R153 to R156, R162) -/

theorem modOut (h : Books kept s) (n : Nat) (f : Outbound → Outbound) : Books kept (s.modOut n f) :=
  h.modMessage n fun m => by
    split <;> rfl

theorem alertMark (h : Books kept s) (m : Message) (x : AlertState) : Books kept (s.alertMark m x) := by
  unfold State.alertMark
  repeat' split
  all_goals exact h

/-- A message of the pool ends, whatever has been done since with the messages that stay. -/
theorem finishMessage {m : Message} (h : Books (m.account :: kept) s) (hk : ∀ a ∈ kept, a.number ≠ m.number)
    (f : EndCounts → EndCounts) : Books kept (s.finishMessage m f) :=
  freeMessage (s := (s.dequeue m.cls m.number).countEnd m.cls f) (h.mono (List.subset_cons_self _ _)) (h.kept List.mem_cons_self) hk

theorem withdraw (h : Books kept s) {m : Message} (hm : m ∈ s.pool.msgs) (hk : ∀ a ∈ kept, a.number ≠ m.number) :
    Books kept (s.withdraw m) := ((h.keepAlso hm).alertMark m .cancelled).finishMessage hk _

theorem withdrawAll (h : Books kept s) {ns : List Nat} (hk : ∀ n ∈ ns, ∀ a ∈ kept, a.number ≠ n) :
    Books kept (s.withdrawAll ns) := by
  induction ns generalizing s with
  | nil => exact h
  | cons n ns ih =>
    obtain ⟨hn, hns⟩ := List.forall_mem_cons.mp hk
    refine ih ?_ hns
    dsimp only
    split
    · rename_i m hm
      obtain ⟨hin, rfl⟩ := State.mem_of_message hm
      split
      · exact h.withdraw hin hn
      · exact h
    · exact h

/-- R162: what is withdrawn before the alert is freed are ARRIVAL CORRECTIONs, and the alert is none. -/
theorem endDeadAlert (h : Books [] s) {m : Message} (hm : m ∈ s.pool.msgs) (hkind : m.kind = .absenceAlert) (p : Nat) (ss : Session) :
    Books [] (s.endDeadAlert m p ss) := by
  have hnumbers : (s.pool.msgs.map (·.number)).Nodup := by
    have := h.numbers
    rwa [State.ledger, List.map_map] at this
  have hk : ∀ n ∈ (s.withdrawWaits .arrivalCorrection p ss).waitingAbout .arrivalCorrection p ss, ∀ a ∈ [m.account],
      a.number ≠ n := by
    intro n hn a ha e
    obtain ⟨x, hx, rfl⟩ := List.mem_map.mp hn
    obtain ⟨hx, habout⟩ := List.mem_filter.mp hx
    cases List.mem_singleton.mp ha
    cases List.inj_on_of_nodup_map hnumbers hm hx e
    simp [Message.about, hkind] at habout
  have withdrawn := withdrawAll (s := s.withdrawWaits .arrivalCorrection p ss) (h.keepAlso hm) hk
  exact (withdrawn.alertMark m .cancelled).finishMessage (List.forall_mem_nil _) _

theorem endUndelivered (h : Books [] s) {m : Message} (hm : m ∈ s.pool.msgs) : Books [] (s.endUndelivered m) := by
  have held := h.keepAlso hm
  refine finishMessage ?_ (List.forall_mem_nil _) _
  repeat' split
  · exact held.alertUndelivered _ _ _
  · exact held
  · exact held

end Books

theorem State.deadAlert_some {s : State} {m : Message} {x : Nat × Session} (h : s.deadAlert m = some x) : m.kind = .absenceAlert := by
  unfold State.deadAlert at h
  split at h
  · assumption
  · cases h

namespace Books
variable {s t : State}

theorem failAttempt (h : Books [] s) (n : Nat) (invalid : Bool) : Books [] (s.failAttempt n invalid) := by
  unfold State.failAttempt
  split
  · exact h
  · rename_i m hm
    obtain ⟨hm, -⟩ := State.mem_of_message hm
    split
    · exact h.endDeadAlert hm (State.deadAlert_some ‹_›) _ _
    · split
      · exact (h.keepAlso hm).finishMessage (List.forall_mem_nil _) _
      · split
        · exact (h.modOut _ _).alertMark _ _
        · exact ((h.modOut _ _).alertMark _ _).enqueue _ _
        · exact h.endUndelivered hm
    · exact h

/-! ## Recalls, results and timers (R155, R158 to R161) -/

theorem recallOne (h : Books [] s) (b : Submission) : Books [] (s.recallOne b) := by
  dsimp only [State.recallOne]
  have released : Books [] { s with sched := s.sched.releaseTag b.tag, gw.stats.recalls := inc32 s.gw.stats.recalls } := h
  split
  · exact h
  · rename_i m hm
    split
    · exact released.endDeadAlert (State.mem_of_message hm).1 (State.deadAlert_some ‹_›) _ _
    · exact (released.modOut _ _).alertMark _ _

theorem recallEach (h : Books [] s) (l : List Submission) : Books [] (s.recall l) := by
  obtain ⟨ns, e⟩ := recall_eq s l
  rw [e]
  exact foldl (fun t c h => h.setQueue c _) (foldl (fun _ b h => h.recallOne b) h l) _

theorem endDelivered (h : Books [] s) (n : Nat) : Books [] (s.endDelivered n) := by
  unfold State.endDelivered
  split
  · exact h
  · rename_i m hm
    exact ((h.keepAlso (State.mem_of_message hm).1).alertMark m .sent).finishMessage (List.forall_mem_nil _) _

theorem takeResult (h : Books [] s) (tag : Nat) (r : GwOutcome) : Books [] (s.takeResult tag r) := by
  dsimp only [State.takeResult]
  split
  · unfold State.strayResult
    split <;> exact h
  · have counted : Books [] { s with
        sched.out := s.sched.out.filter (·.tag != tag), gw.stats := s.gw.stats.countResult r } := h
    split
    · exact counted.endDelivered _
    · exact counted.failAttempt _ _
    · exact counted.failAttempt _ _

theorem timeOut (h : Books [] s) (tag : Nat) : Books [] (s.timeOut tag) := by
  dsimp only [State.timeOut]
  split
  · exact h
  · exact failAttempt (s := { s with sched := s.sched.releaseTag tag, gw.stats.timeouts := _ }) h _ _

theorem retryReached (h : Books [] s) (n : Nat) : Books [] (s.retryReached n) := by
  unfold State.retryReached
  repeat' split
  · exact h
  · exact (h.modOut _ _).enqueue _ _
  · exact h
  · exact h

theorem lifeReached (h : Books [] s) (n : Nat) : Books [] (s.lifeReached n) := by
  unfold State.lifeReached
  split
  · exact h
  · rename_i m hm
    repeat' split
    · exact h
    · exact h.modOut _ _
    · exact (h.keepAlso (State.mem_of_message hm).1).finishMessage (List.forall_mem_nil _) _
    · exact h

theorem deliverySecond (h : Books [] s) : Books [] s.deliverySecond := by
  have ticked : Books [] { s with pool.msgs := s.pool.msgs.map Message.tick } := h.modMessages fun m _ => by
    unfold Message.tick
    split <;> rfl
  exact foldl (fun _ _ h => h.timeOut _) (foldl (fun _ _ h => h.retryReached _) (foldl (fun _ _ h => h.lifeReached _) ticked _) _) _

theorem expireWait (h : Books [] s) (i : Nat) : Books [] (s.expireWait i) := by
  unfold State.expireWait
  split <;> exact h

theorem expireWaits (h : Books [] s) (fuel i : Nat) : Books [] (s.expireWaits fuel i) := by
  induction fuel generalizing s i with
  | zero => exact h
  | succ fuel ih =>
    unfold State.expireWaits
    split
    · exact h
    · split
      · exact ih (h.expireWait i) i
      · exact ih h _

theorem submit (h : Books [] s) (m : Message) (o : Outbound) : Books [] (s.submit m o) := by
  refine alertMark (s := { (s.dequeue m.cls m.number).modOut m.number _ with sched := _, gw := _ }) ?_ m .sending
  exact (h.dequeue m.cls m.number).modOut m.number _

theorem pump (h : Books [] s) (fuel : Nat) : Books [] (s.pump fuel) := by
  induction fuel generalizing s with
  | zero => exact h
  | succ fuel ih =>
    unfold State.pump
    repeat' split
    · exact h
    · exact h
    · exact ih (h.submit _ _)
    · exact h
    · exact h

end Books
end Sys2Proof.Machine
end

