-- ==== Sys2Proof/Proofs/BooksOfRegisterAndDesk.lean ====
section
/-! SUPPORT. How the operations of the Register, the classifier and the Report Parser keep the pool's books. -/

namespace Sys2Proof.Machine
namespace Books

variable {s t : State}

/-! ## The Register -/

theorem handConflict (h : Books [] s) (p : Nat) (ss : Session) (kind : ConflictKind) (mark : Mark) :
    Books [] (s.handConflict p ss kind mark) := by
  unfold State.handConflict
  repeat' split
  all_goals exact h

theorem stopAlert (h : Books [] s) (p : Nat) (ss : Session) : Books [] (s.stopAlert p ss).1 := by
  dsimp only [State.stopAlert]
  split
  · exact h
  · exact h
  · exact h
  · exact (h.modRec p ss _).withdrawAll fun _ _ => List.forall_mem_nil _
  · exact h

theorem correctAlert (h : Books [] s) (p : Nat) (ss : Session) : Books [] (s.correctAlert p ss).1 :=
  ite_op_fst (y := false)
    (fun x => (((x.modRec p ss fun r => { r with corrected := true }).requestMsg .arrivalCorrection (.pupil p ss) none).1, true))
    (fun h => (h.modRec p ss _).requestMsg _ _ _) h

theorem patternNotice (h : Books [] s) (p : Nat) (ss : Session) : Books [] (s.patternNotice p ss) :=
  ite_op (fun x => ((x.putTally p { x.tally p with notified := true }).requestMsg .patternNotice (.pupil p ss) none).1)
    (fun h => requestMsg (s := State.putTally _ p _) h _ _ _) h

theorem applyMark (h : Books [] s) (p : Nat) (ss : Session) (w : MarkWrite) : Books [] (s.applyMark p ss w).1 := by
  refine ite_op (fun x => x.patternNotice p ss) (fun h => h.patternNotice p ss) (s := State.putTally _ p _) ?_
  refine ite_op_fst (fun x => x.correctAlert p ss) (fun h => h.correctAlert p ss) ?_
  exact ite_op_fst (fun x => x.stopAlert p ss) (fun h => h.stopAlert p ss) (s := s.putRec p ss _) h

theorem heldDue (h : Books [] s) (p : Nat) (ss : Session) : Books [] (s.heldDue p ss) := by
  unfold State.heldDue
  split
  · exact h.alertBecomesDue _ _
  · exact h

theorem startAlert (h : Books [] s) (p : Nat) (ss : Session) (start : Nat) (closing : Bool) :
    Books [] (s.startAlert p ss start closing) := by
  dsimp only [State.startAlert]
  repeat' split
  · exact (h.modRec _ _ _).alertBecomesDue _ _
  · exact h
  · exact (h.modRec _ _ _).heldDue _ _
  · exact h
  · exact h

theorem alertDueAt (h : Books [] s) (p : Nat) (ss : Session) : Books [] (s.alertDueAt p ss) :=
  ite_op (fun x => x.heldDue p ss) (fun h => h.heldDue p ss) h

theorem alertsDue (h : Books [] s) : Books [] s.alertsDue := foldl (fun _ _ h => h.alertDueAt _ _) h _

theorem withheldDue (h : Books [] s) (i : Fin 4) : Books [] (s.withheldDue i) := foldl (fun _ _ h => h.alertBecomesDue _ _) h _

theorem deskArrival (h : Books [] s) (p : Nat) (ss : Session) (mark : Mark) (minutes arrival : Nat) :
    Books [] (s.deskArrival p ss mark minutes arrival).1 := by
  dsimp only [State.deskArrival]
  repeat' split
  · exact h
  · exact h
  · exact (h.applyMark _ _ _).handConflict _ _ _ _
  · exact h.applyMark _ _ _

theorem parentAbsent (h : Books [] s) (p : Nat) (ss : Session) : Books [] (s.parentAbsent p ss).1 := by
  dsimp only [State.parentAbsent]
  repeat' split
  · exact h
  · exact h
  · exact h
  · exact h.handConflict _ _ _ _
  · exact h.handConflict _ _ _ _
  · exact h.handConflict _ _ _ _
  · exact h.applyMark _ _ _

theorem registerEntry (h : Books [] s) (p : Nat) (ss : Session) (e : Entry) : Books [] (s.registerEntry p ss e).1 := by
  dsimp only [State.registerEntry]
  split
  · exact h.applyMark _ _ _
  · exact h
  · exact h.handConflict _ _ _ _

theorem lateEntry (h : Books [] s) (p : Nat) (ss : Session) (e : Entry) : Books [] (s.lateEntry p ss e).1 := by
  dsimp only [State.lateEntry]
  split
  · exact (h.applyMark _ _ _).startAlert _ _ _ _
  · exact h.registerEntry _ _ _

theorem closeRecord (h : Books [] s) (ss : Session) (start : Nat) (closing : Bool) (p : Nat) :
    Books [] (State.closeRecord ss start closing s p) := by
  dsimp only [State.closeRecord]
  split
  · exact (h.applyMark _ _ _).startAlert _ _ _ _
  · exact h

theorem closeGroup {x : State × Bool} (h : Books [] x.1) (ss : Session) (start : Nat) (closing : Bool) (g : Nat) :
    Books [] (State.closeGroup ss start closing x g).1 := by
  dsimp only [State.closeGroup]
  repeat' split
  · exact h
  · exact foldl (fun _ _ h => h.closeRecord _ _ _ _) h _
  · exact h
  · exact h

theorem closeSession (h : Books [] s) (i : Fin 4) (ss : Session) (start : Nat) (closing : Bool) :
    Books [] (s.closeSession i ss start closing) := by
  have groups (l : List Nat) : ∀ x : State × Bool, Books [] x.1 → Books [] (l.foldl (State.closeGroup ss start closing) x).1 := by
    induction l with
    | nil => exact fun _ h => h
    | cons g l ih => exact fun _ h => ih _ (h.closeGroup ss start closing g)
  have closed := groups ((s.setSession i ss (some .closed)).groupsOf i) (s.setSession i ss (some .closed), false) h
  dsimp only [State.closeSession]
  split <;> exact closed

theorem openSessionAt (h : Books [] s) (i : Fin 4) (ss : Session) : Books [] (s.openSessionAt i ss) := by
  unfold State.openSessionAt
  repeat' split
  all_goals exact h

theorem closeSessionAt (h : Books [] s) (i : Fin 4) (ss : Session) : Books [] (s.closeSessionAt i ss) := by
  unfold State.closeSessionAt
  repeat' split
  · exact h.closeSession _ _ _ _
  all_goals exact h

theorem followSessions (h : Books [] s) (i : Fin 4) : Books [] (s.followSessions i) :=
  (((h.openSessionAt _ _).openSessionAt _ _).closeSessionAt _ _).closeSessionAt _ _

theorem setTrack (h : Books [] s) (i : Fin 4) (x : Track) : Books [] (s.setTrack i x) := h

theorem followTrack (h : Books [] s) (i : Fin 4) : Books [] (s.followTrack i) := by
  dsimp only [State.followTrack]
  split
  · exact ((h.setTrack _ _).followSessions i).withheldDue i
  · exact (h.setTrack _ _).followSessions i

theorem followTracks (h : Books [] s) : Books [] s.followTracks :=
  ite_op (fun x => fours.foldl State.followTrack x) (fun h => foldl (fun _ _ h => h.followTrack _) h _) h

theorem clearRegister (h : Books [] s) : Books [] s.clearRegister :=
  foldl (f := fun t g => t.setGroupStatus g .pm .notHeld) (fun _ _ h => h)
    (s := { s with reg := ⟨[], Quad.all ⟨some .before, some .before⟩, [], []⟩ }) h _

/-! ## Stations and the classifier -/

theorem arrivalComplete (h : Books [] s) (n : Fin 6) (l : List Byte) : Books [] (s.arrivalComplete n l) := by
  dsimp only [State.arrivalComplete, State.goodArrival]
  repeat' split
  all_goals exact h

theorem stationChar (h : Books [] s) (n : Fin 6) (c : Byte) : Books [] (s.stationChar n c) := by
  dsimp only [State.stationChar]
  repeat' split
  · exact h
  · exact h
  · exact h
  · exact h.arrivalComplete _ _

theorem stationsSecond (h : Books [] s) : Books [] s.stationsSecond :=
  foldl (fun t n h => by
    unfold State.stationSecond
    split <;> exact h) h _

theorem takeFrom (h : Books [] s) (src : Source) : Books [] (s.takeFrom src) := by
  unfold State.takeFrom
  repeat' split
  all_goals exact h

theorem gainWork (h : Books [] s) (src : Source) : Books [] (s.gainWork src) := by
  unfold State.gainWork
  repeat' split
  · exact h.takeFrom _
  · exact h
  · exact h

theorem searchNext (h : Books [] s) : Books [] s.searchNext := by
  dsimp only [State.searchNext]
  split
  · exact takeFrom (s := { s with desk.cur := none }) h _
  · exact h

theorem lateSlip (h : Books [] s) (p : Nat) (ss : Session) (arrival : Nat) (mark : Mark) (minutes : Nat) (expected : Bool) :
    Books [] (s.lateSlip p ss arrival mark minutes expected).1 := by
  unfold State.lateSlip
  split
  · exact h
  · exact h.joinSlip _

theorem lateNotice (h : Books [] s) (p : Nat) (ss : Session) (expected corrected : Bool) :
    Books [] (s.lateNotice p ss expected corrected) := by
  unfold State.lateNotice
  split
  · exact h.requestMsg _ _ _
  · exact h

theorem applyArrival (h : Books [] s) (p t : Nat) (ss : Session) (m : Mark) (minutes : Nat) :
    Books [] (s.applyArrival p t ss m minutes).1 := by
  have arrived := h.deskArrival p ss m minutes t
  unfold State.applyArrival
  split
  all_goals rename_i e; rw [e] at arrived
  · exact arrived
  · exact arrived
  · split
    · exact (arrived.lateSlip _ _ _ _ _ _).lateNotice _ _ _ _
    · exact arrived

theorem classify (h : Books [] s) (i : Item) : Books [] (s.classify i).1 := by
  unfold State.classify
  repeat' split
  · exact h
  · exact h
  · exact h
  · exact h
  · exact h
  · exact h.applyArrival _ _ _ _ _

theorem giveAnswer (h : Books [] s) (i : Item) (v : Verdict) : Books [] (s.giveAnswer i v) := by
  unfold State.giveAnswer State.stationAnswer
  repeat' split
  all_goals exact h

theorem completeClassification (h : Books [] s) : Books [] s.completeClassification := by
  unfold State.completeClassification
  split
  · exact h
  · exact ((h.classify _).giveAnswer _ _).searchNext

/-! ## Reports -/

theorem takeAdvance (h : Books [] s) (p : Nat) (d : Date) (ss : Sessions) (report : Option Nat) :
    Books [] (s.takeAdvance p d ss report).1 := by
  unfold State.takeAdvance
  repeat' split
  all_goals exact h

theorem absentSessions (h : Books [] s) (p : Nat) (l : List Session) : Books [] (s.absentSessions p l).1 := by
  induction l generalizing s with
  | nil => exact h
  | cons ss l ih => exact ih (h.parentAbsent p ss)

theorem routeToday {x : State × Routed} (h : Books [] x.1) (p : Nat) : Books [] (routeToday x p).1 := by
  unfold Machine.routeToday
  split
  · exact h
  · exact h.absentSessions _ _

theorem takeLateness (h : Books [] s) (p : Nat) (ss : Session) (ended : Bool) : Books [] (s.takeLateness p ss ended).1 := by
  dsimp only [State.takeLateness]
  repeat' split
  · exact h
  · exact h
  · exact h.handConflict _ _ _ _
  · exact h

theorem routeLate {x : State × Routed} (h : Books [] x.1) (p : Nat) : Books [] (routeLate x p).1 := by
  unfold Machine.routeLate
  split
  · exact h
  · exact h.takeLateness _ _ _

/-- Routing one pupil after another keeps what routing each keeps. -/
theorem routeEach {f : State × Routed → Nat → State × Routed}
    (hf : ∀ (x : State × Routed) (p : Nat), Books [] x.1 → Books [] (f x p).1) (l : List Nat) {x : State × Routed}
    (h : Books [] x.1) : Books [] (l.foldl f x).1 := by
  induction l generalizing x with
  | nil => exact h
  | cons p l ih => exact ih (hf x p h)

theorem routeAbsence (h : Books [] s) (n : Nat) (ps : List Nat) (d : Date) (reason : Bool) :
    Books [] (s.routeAbsence n ps d reason).1 := by
  unfold State.routeAbsence
  split
  · exact routeEach (fun _ p h => h.routeToday p) ps h
  · split
    · exact routeEach (f := routeAdvance d _) (fun _ p h => h.takeAdvance p d _ _) ps h
    · exact h

theorem routeLateness (h : Books [] s) (ps : List Nat) : Books [] (s.routeLateness ps).1 := by
  unfold State.routeLateness
  split
  · exact routeEach (fun _ p h => h.routeLate p) ps h
  · exact h

theorem keepReport (h : Books [] s) (n : Nat) (k : KeepReasons) (l : List (Nat × List Answer)) : Books [] (s.keepReport n k l) :=
  h.modMessage n fun m => by
    split <;> rfl

theorem settleReport (h : Books [] s) (n : Nat) (k : KeepReasons) (l : List (Nat × List Answer)) :
    Books [] (s.settleReport n k l) := by
  unfold State.settleReport
  repeat' split
  · exact h.keepReport _ _ _
  · rename_i hm
    exact h.freeMessage (List.mem_map_of_mem (State.mem_of_message hm).1) (List.forall_mem_nil _)
  · exact h

theorem requestReceipt (h : Books [] s) (sender : Text) (n : Nat) : Books [] (s.requestReceipt sender n) :=
  ite_op (fun x => (x.requestMsg .reportReceipt (.sender sender n) none).1) (fun h => h.requestMsg _ _ _) h

theorem setKind (h : Books [] s) (n : Nat) (k : MsgKind) : Books [] (s.setKind n k) := h.modMessage n fun _ => rfl

theorem unmatchedReport (h : Books [] s) (n : Nat) (reason : Bool) : Books [] (s.unmatchedReport n reason) :=
  (h.setKind _ _).settleReport _ _ _

theorem finishReport {x : State × Routed} (h : Books [] x.1) (n : Nat) (sender : Text) (reason : Bool) :
    Books [] (State.finishReport x n sender reason) := (h.settleReport _ _ _).requestReceipt _ _

theorem parseReport (h : Books [] s) (n : Nat) : Books [] (s.parseReport n) := by
  unfold State.parseReport
  repeat' split
  · exact h
  · exact h
  · exact h.unmatchedReport _ _
  · exact h.unmatchedReport _ _
  · exact ((h.setKind _ _).routeAbsence _ _ _ _).finishReport _ _ _
  · exact h.unmatchedReport _ _
  · exact ((h.setKind _ _).routeLateness _).finishReport _ _ _

theorem parseHeld (h : Books [] s) : Books [] s.parseHeld := foldl (fun _ _ h => h.parseReport _) h _

end Books
end Sys2Proof.Machine
end

