-- ==== Sys2Proof/Proofs/BooksOfStoreAndDay.lean ====
section
/-! SUPPORT. How the operations of the bells, the links, the Store Engine, the school day and the Clock keep the pool's books. -/

namespace Sys2Proof.Machine
namespace Books

variable {s t : State}

/-! ## The bells, the printer and the host link -/

theorem onZone (h : Books [] s) (z : Fin 4) (f : ZoneCfg → Zone → Zone × List Condition) : Books [] (s.onZone z f) :=
  raiseAll (s := { s with bells := s.bells.set z (f (s.set.zones.get z) (s.bells.get z)).1 }) h _

theorem onZones (h : Books [] s) (f : Fin 4 → Zone → Zone) : Books [] (s.onZones f) := h

theorem ringDueBells (h : Books [] s) : Books [] s.ringDueBells :=
  foldl (fun _ _ h => foldl (fun _ _ h => h.onZone _ _) h _) (h.onZones fun _ => passQuietAll s.clock.secs) _

theorem bellSecond (h : Books [] s) (peak : Quad Nat) : Books [] (s.bellSecond peak) := foldl (fun _ _ h => h.onZone _ _) h _

theorem printerReadyReport (h : Books [] s) : Books [] s.printerReadyReport := by
  unfold State.printerReadyReport
  split
  · exact h
  · exact h
  · exact h
  · refine fillSlot ?_
    exact h
  · split
    · exact h
    · refine fillSlot ?_
      exact h

theorem paperOutReport (h : Books [] s) : Books [] s.paperOutReport := by
  unfold State.paperOutReport
  split <;> exact h

theorem slipSent (h : Books [] s) : Books [] s.slipSent := by
  unfold State.slipSent
  split <;> exact h

theorem stallReached (h : Books [] s) : Books [] s.stallReached := by
  unfold State.stallReached
  split <;> exact h

theorem slipSecond (h : Books [] s) : Books [] s.slipSecond := by
  dsimp only [State.slipSecond]
  repeat' split
  all_goals exact h

theorem deskSample (h : Books [] s) : Books [] s.deskSample := h

theorem linkSecond (h : Books [] s) : Books [] s.linkSecond := by
  unfold State.linkSecond
  repeat' split
  all_goals exact h

theorem framingChar (h : Books [] s) : Books [] s.framingChar := by
  dsimp only [State.framingChar]
  split <;> exact h

theorem frameTimeout (h : Books [] s) : Books [] s.frameTimeout := by
  unfold State.frameTimeout
  split <;> exact h

theorem lengthError (h : Books [] s) (n : Nat) : Books [] (s.lengthError n) :=
  ite_op (fun x => x.frameEnds.discardFrame) (fun h => h) h

theorem joinFrame (h : Books [] s) (w : Waiting) : Books [] (s.joinFrame w) := by
  unfold State.joinFrame
  split <;> exact h

theorem giveReply (h : Books [] s) (r : Reply) : Books [] (s.giveReply r) := by
  unfold State.giveReply
  split <;> exact h

/-! ## The store -/

theorem withStore (h : Books [] s) (x : Store) : Books [] { s with store := x } := h

theorem tearPage (h : Books [] s) (p : Nat) : Books [] (s.tearPage p) := h

theorem spoil (h : Books [] s) (p : Nat) : Books [] (s.spoil p) := h

theorem endCommit (h : Books [] s) (o : CommitOutcome) (c : Condition) : Books [] (s.endCommit o c) := h

theorem finalWrite (h : Books [] s) (slot : Nat) (o : CommitOutcome) : Books [] (s.finalWrite slot o) := h

theorem comeTo (h : Books [] s) (slot fuel p : Nat) : Books [] (State.comeTo slot fuel p s) := by
  induction fuel generalizing s p with
  | zero => exact h
  | succ fuel ih =>
    unfold State.comeTo
    split
    · exact h.finalWrite _ _
    · split
      · exact h
      · split
        · exact ih (h.withStore _) _
        · exact h

theorem commitOn (h : Books [] s) (slot : Nat) : Books [] (s.commitOn slot) := by
  unfold State.commitOn
  split
  · exact h.comeTo _ _ _
  · exact h

theorem startCommit (h : Books [] s) : Books [] s.startCommit := by
  unfold State.startCommit
  repeat' split
  all_goals exact h

theorem directoryFailed (h : Books [] s) (c : Commit) : Books [] (s.directoryFailed c) := by
  refine endCommit ?_ _ _
  split <;> exact h

theorem commitVerified (h : Books [] s) (c : Commit) : Books [] (s.commitVerified c) := by
  unfold State.commitVerified
  split
  · exact h
  · exact h.commitOn _
  · exact h.commitOn _
  · exact (h.withStore _).commitOn _
  · exact (h.withStore _).commitOn _
  · exact h
  · exact h

theorem commitFailed (h : Books [] s) (c : Commit) : Books [] (s.commitFailed c) := by
  unfold State.commitFailed State.makeBad
  repeat' split
  · exact h
  · exact h.finalWrite _ _
  · exact h.directoryFailed _

theorem endSave (h : Books [] s) (ok : Bool) : Books [] (s.endSave ok) := h

theorem saveVerified (h : Books [] s) (ph : SavePhase) (sum : Nat) : Books [] (s.saveVerified ph sum) := by
  dsimp only [State.saveVerified]
  repeat' split
  all_goals exact h

theorem startWaitingRead (h : Books [] s) : Books [] s.startWaitingRead := by
  unfold State.startWaitingRead State.serveRead
  repeat' split
  · exact h
  · exact (h.withStore _).giveReply _
  · exact h

/-- R163: what a rebuild does to the pool is the work of the reports that it parses when it completes. -/
theorem rebuildDone (h : Books [] s) (acc : Tab Tally) : Books [] (s.rebuildDone acc) :=
  parseHeld (startWaitingRead (s := State.raise { s with store := _, reg := _, plan := _ } .dayReady) h)

theorem startRebuild (h : Books [] s) : Books [] s.startRebuild := by
  dsimp only [State.startRebuild]
  split
  · exact h.rebuildDone []
  · exact h

theorem startPending (h : Books [] s) : Books [] s.startPending := by
  unfold State.startPending
  split
  · exact h
  · exact (h.withStore _).startCommit
  · exact (h.withStore _).startRebuild

theorem wantCommit (h : Books [] s) : Books [] s.wantCommit := by
  unfold State.wantCommit
  split
  · exact h
  · exact h.startCommit

theorem wantRebuild (h : Books [] s) : Books [] s.wantRebuild := by
  unfold State.wantRebuild
  split
  · exact h
  · exact h.startRebuild

theorem eraseDone (h : Books [] s) : Books [] s.eraseDone := by
  unfold State.eraseDone
  split <;> exact h

theorem fillBuffer (h : Books [] s) (p : Nat) : Books [] (s.fillBuffer p) := by
  unfold State.fillBuffer
  split
  · exact h.withStore _
  · exact h
  · exact h.withStore _
  · exact h

theorem pageFailed (h : Books [] s) (p : Nat) : Books [] (s.pageFailed p) := by
  have torn := h.tearPage p
  dsimp only [State.pageFailed]
  split
  · refine commitFailed ?_ _
    exact ite_op (fun x => x.spoil p) (fun h => h.spoil p) torn
  · exact (torn.spoil Config.checkPage).endSave false
  · exact torn

theorem blankChecked (h : Books [] s) (ok : Bool) : Books [] (s.blankChecked ok) := by
  unfold State.blankChecked State.blankOk
  repeat' split
  · exact h
  · exact h.fillBuffer _
  · exact h.pageFailed _
  · exact (h.tearPage _).withStore _
  · exact h

theorem programDone (h : Books [] s) : Books [] s.programDone := by
  unfold State.programDone
  split <;> exact h

theorem pageWritten (h : Books [] s) (p : Nat) : Books [] (s.pageWritten p) := by
  dsimp only [State.pageWritten]
  split
  · exact (h.withStore _).commitVerified _
  · exact (h.withStore _).saveVerified _ _
  · exact h

theorem verified (h : Books [] s) (ok : Bool) : Books [] (s.verified ok) := by
  unfold State.verified
  repeat' split
  · exact h.pageWritten _
  · exact h.pageFailed _
  · exact (h.tearPage _).withStore _
  · exact h

theorem archiveRead (h : Books [] s) (r : ReadReq) (p : PageRead) (rest : List PageRead) (got : List DayRecord) :
    Books [] (s.archiveRead r p rest got) := by
  dsimp only [State.archiveRead]
  split
  · exact ((h.withStore _).giveReply _).startPending
  · exact h

theorem readDone (h : Books [] s) : Books [] s.readDone := by
  unfold State.readDone State.rebuildRead
  repeat' split
  · exact h.rebuildDone _
  · exact h
  · exact h.archiveRead _ _ _ _
  · exact h
  · exact h

/-! ## The school day -/

theorem applyAdvanceTo (h : Books [] s) (x : Advance) (ss : Session) : Books [] (s.applyAdvanceTo x ss) := by
  unfold State.applyAdvanceTo
  split
  · exact h.parentAbsent _ _
  · exact h

theorem applyAdvance (h : Books [] s) (day : Date) (x : Advance) : Books [] (applyAdvance day s x) := by
  unfold Machine.applyAdvance
  repeat' split
  · exact h
  · exact h
  · exact (h.applyAdvanceTo _ _).applyAdvanceTo _ _
  · exact h

theorem applyAdvances (h : Books [] s) (day : Date) : Books [] (s.applyAdvances day) := foldl (fun _ x h => h.applyAdvance day x) h _

theorem clearDeskStats (h : Books [] s) : Books [] s.clearDeskStats := h

theorem clearPoolStats (h : Books [] s) : Books [] s.clearPoolStats := h

theorem clearGwStats (h : Books [] s) : Books [] s.clearGwStats := h

theorem rebuildBells (h : Books [] s) : Books [] s.rebuildBells := h

theorem openDay (h : Books [] s) (day : Date) (tracks : Quad Track) : Books [] (s.openDay day tracks) := by
  have cleared :
      Books [] (State.clearRegister { s with plan := ⟨.opening, some day, tracks, false⟩, slips.next := 1 }).clearConflicts :=
    clearRegister (s := { s with plan := ⟨.opening, some day, tracks, false⟩, slips.next := 1 }) h
  have followed := foldl (f := State.followSessions) (fun _ i h => h.followSessions i) (cleared.applyAdvances day) fours
  exact followed.clearDeskStats.clearPoolStats.clearGwStats.rebuildBells

theorem settleSession (h : Books [] s) (i : Fin 4) (ss : Session) : Books [] (s.settleSession i ss) := by
  unfold State.settleSession
  split
  · exact h.closeSession _ _ _ _
  · refine foldl (fun _ _ h => ?_) (s := s.setSession i ss (some .closed)) h _
    unfold State.notHeld
    split <;> exact h
  · exact h

theorem settleSessions (h : Books [] s) : Books [] s.settleSessions :=
  foldl (fun _ _ h => (h.settleSession _ _).settleSession _ _) h _

theorem settleAlerts (h : Books [] s) : Books [] s.settleAlerts := by
  have withdrawn := withdrawAll (s := s.cancelAlerts) (ns := s.cancelAlerts.waitingAlerts) h fun _ _ => List.forall_mem_nil _
  refine withdrawn.modMessages fun m _ => ?_
  unfold Message.detach
  split <;> rfl

theorem emptyConflicts (h : Books [] s) : Books [] s.emptyConflicts := foldl (f := State.removeConflict) (fun _ _ h => h) h _

theorem performClose (h : Books [] s) : Books [] s.performClose := by
  have closing : Books [] ({ s with plan.dayState := .closing } : State).endTracks := h
  exact (closing.settleSessions.settleAlerts.onZones fun _ => skipAll).emptyConflicts.wantCommit

theorem midnightClose (h : Books [] s) : Books [] s.midnightClose := by
  unfold State.midnightClose
  repeat' split
  · exact h
  · exact h.performClose
  · exact h
  · exact h

theorem settleDeferred (h : Books [] s) : Books [] s.settleDeferred :=
  ite_op (fun x => State.performClose { x with plan.deferredClose := false })
    (fun h => performClose (s := { s with plan.deferredClose := false }) h) h

theorem acceptOpen (h : Books [] s) (day : Date) (tracks : Quad Track) : Books [] (s.acceptOpen day tracks) :=
  (h.openDay day tracks).wantRebuild.settleDeferred

/-! ## The Clock -/

theorem stepClock (h : Books [] s) (n : Nat) : Books [] (s.stepClock n) := by
  dsimp only [State.stepClock]
  split
  · exact alertsDue (followTracks (s := State.onZones { s with clock.secs := n } fun _ => skipReached n) h)
  · exact h

theorem passMidnight (h : Books [] s) : Books [] s.passMidnight := by
  dsimp only [State.passMidnight]
  split <;> exact h

theorem countSecond (h : Books [] s) : Books [] s.countSecond := by
  unfold State.countSecond
  split
  · exact h.passMidnight
  · exact h

theorem minute (h : Books [] s) : Books [] s.minute := h.followTracks.ringDueBells

theorem timesOfDay (h : Books [] s) (wrapped : Bool) : Books [] (s.timesOfDay wrapped) :=
  (ite_op State.minute (fun h => h.minute) (ite_op State.midnightClose (fun h => h.midnightClose) h)).alertsDue

theorem segmentBegins (h : Books [] s) (i : Fin 4) (n : Nat) : Books [] (s.segmentBegins i n) := by
  dsimp only [State.segmentBegins]
  repeat' split
  · exact h
  · exact ((h.setTrack _ _).openSessionAt _ _).openSessionAt _ _
  · exact h

theorem dayEnds (h : Books [] s) (i : Fin 4) : Books [] (s.dayEnds i) := by
  dsimp only [State.dayEnds]
  split
  · exact (h.setTrack _ _).withheldDue _
  · exact h

theorem sessionCloses (h : Books [] s) (i : Fin 4) (ss : Session) : Books [] (s.sessionCloses i ss) := by
  unfold State.sessionCloses
  repeat' split
  · exact h.closeSession _ _ _ _
  all_goals exact h

theorem alertFallsDue (h : Books [] s) (p : Nat) (ss : Session) : Books [] (s.alertFallsDue p ss) :=
  ite_op (fun x => x.heldDue p ss) (fun h => h.heldDue p ss) h

theorem onLine (h : Books [] s) (n : Fin 6) {f : State → State} (hf : Books [] s → Books [] (f s)) : Books [] (s.onLine n f) := by
  unfold State.onLine
  split
  · exact (hf h).gainWork _
  · exact h

theorem recordAbandoned (h : Books [] s) (n : Fin 6) : Books [] (s.recordAbandoned n) := by
  unfold State.recordAbandoned
  split <;> exact h

/-! ## The gateway's link -/

theorem gwInbound (h : Books [] s) (sender text : Text) : Books [] (s.gwInbound sender text) := by
  dsimp only [State.gwInbound]
  split
  · exact h
  · rename_i s1 n e
    have stored := h.storeReport e
    split
    · exact stored
    · refine parseReport ?_ n
      exact stored

theorem gwDown (h : Books [] s) : Books [] s.gwDown := by
  unfold State.gwDown
  split
  · refine recallEach ?_ _
    exact h
  · exact h

theorem gwSecond (h : Books [] s) : Books [] s.gwSecond := by
  unfold State.gwSecond
  repeat' split
  · exact h.gwDown
  · exact h
  · exact h

theorem gwTake (h : Books [] s) (x : Option GwIn) : Books [] (s.gwTake x) := by
  unfold State.gwTake
  split
  · refine recallEach ?_ _
    exact h
  · exact h.takeResult _ _
  · exact h.gwInbound _ _
  · exact h

theorem gwAbandon (h : Books [] s) : Books [] s.gwAbandon := by
  unfold State.gwAbandon
  split <;> exact h

theorem gwGapSecond (h : Books [] s) : Books [] s.gwGapSecond := by
  unfold State.gwGapSecond
  repeat' split
  · exact h
  · exact h.gwAbandon
  · exact h

theorem gwSent (h : Books [] s) : Books [] s.gwSent := by
  unfold State.gwSent
  split <;> exact h

theorem gwChar (h : Books [] s) (c : Byte) : Books [] (s.gwChar c) := by
  dsimp only [State.gwChar]
  repeat' split
  · exact h
  · exact h
  · exact gwTake (s := s.gwClear) h _
  · exact h

/-! ## The second event -/

theorem waitsSecond (h : Books [] s) : Books [] s.waitsSecond := by
  refine expireWaits ?_ _ _
  exact h

theorem lampsSecond (h : Books [] s) : Books [] { s with lamps := s.lamps.second } := h

theorem countDown (h : Books [] s) (peak : Quad Nat) : Books [] (s.countDown peak) := by
  have lines := h.deskSample.linkSecond.stationsSecond.gwGapSecond
  exact (lines.bellSecond peak).slipSecond.waitsSecond.deliverySecond.gwSecond.lampsSecond

theorem second (h : Books [] s) (peak : Quad Nat) : Books [] (s.second peak) := (h.countSecond.countDown peak).timesOfDay _

end Books
end Sys2Proof.Machine
end

