-- ==== Sys2Proof/Proofs/PoolBalance.lean ====
section
/-! CLAIM. Every step conserves the pool (R135 to R137): the requests, the settings and the resets keep its books too. -/

namespace Sys2Proof.Machine
namespace Books

variable {s t : State}

/-! ## The host's requests -/

theorem reqSettingsSave (h : Books [] s) : Books [] (reqSettingsSave s).1 := by
  unfold Machine.reqSettingsSave
  split <;> exact h

theorem reqClockSet (h : Books [] s) (date : RawDate) (time : RawTime) : Books [] (reqClockSet date time s).1 := by
  unfold Machine.reqClockSet
  repeat' split
  · exact h
  · exact h
  · exact h.stepClock _
  · exact h

theorem reqDayOpen (h : Books [] s) (date : RawDate) (kinds : Quad Nat) (delays : Option (Quad Nat)) :
    Books [] (reqDayOpen date kinds delays s).1 := by
  dsimp only [Machine.reqDayOpen]
  repeat' split
  case h_2 => exact h.acceptOpen _ _
  all_goals exact h

theorem reqDayClose (h : Books [] s) (force : Nat) : Books [] (reqDayClose force s).1 := by
  unfold Machine.reqDayClose
  repeat' split
  · exact h
  · exact h
  · exact h
  · exact h
  · exact h.performClose

theorem reqOpeningDelay (h : Books [] s) (track delay : Nat) : Books [] (reqOpeningDelay track delay s).1 := by
  dsimp only [Machine.reqOpeningDelay]
  repeat' split
  all_goals exact h

theorem reqEarlyClose (h : Books [] s) (track minutes : Nat) : Books [] (reqEarlyClose track minutes s).1 := by
  dsimp only [Machine.reqEarlyClose]
  repeat' split
  all_goals exact h

theorem reqZoneRing (h : Books [] s) (zone : Nat) : Books [] (reqZoneRing zone s).1 := by
  unfold Machine.reqZoneRing
  repeat' split
  · exact h
  · exact h
  · refine raiseAll ?_ _
    exact h

theorem reqDeskArrival (h : Books [] s) (key value : Nat) (arrival : Option RawTime) :
    Books [] (reqDeskArrival key value arrival s).1 := by
  dsimp only [Machine.reqDeskArrival]
  repeat' split
  · refine gainWork ?_ _
    exact h
  all_goals exact h

theorem reqSlipReprint (h : Books [] s) (pupil session : Nat) : Books [] (reqSlipReprint pupil session s).1 := by
  dsimp only [Machine.reqSlipReprint]
  split
  · exact h
  · rename_i ss _
    split
    · split
      · exact h
      · rename_i arrived _
        have joined := h.joinSlip (s.makeSlip .copy pupil ss
          (.lateness arrived (s.record pupil ss).mark (s.record pupil ss).minutes (s.record pupil ss).expected))
        split
        all_goals rename_i e; rw [e] at joined; exact joined
    · exact h

theorem takeEntry (h : Books [] s) (g : Nat) (ss : Session) (late : Bool) (e : Nat × Entry) :
    Books [] (s.takeEntry g ss late e).1 := by
  dsimp only [State.takeEntry]
  repeat' split
  · exact h
  · exact h
  · exact h.lateEntry _ _ _
  · exact h.registerEntry _ _ _

theorem takeEntries (h : Books [] s) (g : Nat) (ss : Session) (late : Bool) (l : List (Nat × Entry)) :
    Books [] (s.takeEntries g ss late l).1 := by
  induction l generalizing s with
  | nil => exact h
  | cons e l ih => exact ih (h.takeEntry g ss late e)

theorem reqRegisterSubmit (h : Books [] s) (group session : Nat) (entries : List RawEntry) :
    Books [] (reqRegisterSubmit group session entries s).1 := by
  have taken (g : Nat) (ss : Session) (late : Bool) (l : List (Nat × Entry)) : Books [] (s.takeRegister g ss late l).1 :=
    h.takeEntries g ss late l
  dsimp only [Machine.reqRegisterSubmit]
  repeat' split
  · exact h
  · exact h
  · exact taken _ _ _ _
  · exact taken _ _ _ _
  · exact taken _ _ _ _
  · exact h
  · exact h

theorem setMark (h : Books [] s) {pupil session mark minutes lock : Nat} {arrival : Option RawTime} {ss : Session} {e : MarkEffect}
    (hm : s.setMark pupil session mark minutes lock arrival = .ok (ss, t, e)) : Books [] t := by
  unfold State.setMark at hm
  split at hm
  · rename_i ss' m x k _ _
    have marked : Books [] (s.officeMark pupil ss' m minutes k x).1 := by
      have applied := h.applyMark pupil ss' ⟨m, minutes, .office, x, some k⟩
      dsimp only [State.officeMark]
      split
      · exact applied.startAlert _ _ _ _
      · exact applied
    split at hm
    · cases hm
    · split at hm
      · cases hm
      · rwa [(Prod.mk.inj (Except.ok.inj hm)).2] at marked
  · cases hm

theorem reqMarkSet (h : Books [] s) (pupil session mark minutes lock : Nat) (arrival : Option RawTime) :
    Books [] (reqMarkSet pupil session mark minutes lock arrival s).1 := by
  unfold Machine.reqMarkSet
  split
  · exact h
  · exact h.setMark ‹_›

theorem reqConflictResolve (h : Books [] s) (id : Nat) (what : RawResolve) : Books [] (reqConflictResolve id what s).1 := by
  unfold Machine.reqConflictResolve State.settleConflict
  repeat' split
  · exact h
  · exact h
  · exact h
  · exact h
  · rename_i s1 _ e
    have settled : Books [] s1 := h.setMark e
    exact settled

theorem reqMessageSend (h : Books [] s) (pupil session : Nat) (what : RawSend) : Books [] (reqMessageSend pupil session what s).1 := by
  unfold Machine.reqMessageSend
  split
  · exact h
  · split
    · exact h
    · split
      · exact h
      · cases what
        · exact h.requestMsg _ _ _
        · exact h.requestDirect _ _ _

theorem reqMessageCancel (h : Books [] s) (number : Nat) : Books [] (reqMessageCancel number s).1 := by
  unfold Machine.reqMessageCancel
  split
  · exact h
  · split
    · exact h
    · rename_i m hm
      repeat' split
      · exact h
      · exact h.withdraw (State.mem_of_message hm).1 (List.forall_mem_nil _)
      · exact h

theorem reqInboundNext (h : Books [] s) : Books [] (reqInboundNext s).1 := by
  dsimp only [Machine.reqInboundNext]
  repeat' split
  · exact h
  · exact h
  · exact h
  · rename_i m hm _ _ _
    refine freeMessage ?_ (List.mem_map_of_mem (State.mem_of_message hm).1) (List.forall_mem_nil _)
    exact h

theorem reqArchiveRead (h : Books [] s) (tag : Nat) (date : RawDate) (index count : Nat) :
    Books [] (reqArchiveRead tag date index count s).1 := by
  dsimp only [Machine.reqArchiveRead]
  repeat' split
  all_goals exact h

theorem reqAdvanceCancel (h : Books [] s) (date : RawDate) (pupil sessions : Nat) :
    Books [] (reqAdvanceCancel date pupil sessions s).1 := by
  unfold Machine.reqAdvanceCancel State.cancelAdvance
  repeat' split
  all_goals exact h

/-! ## Settings (R137) -/

/-- R137: the free credits follow the settings. -/
theorem takeOptions (h : Books [] s) (o : Options) : Books [] (s.takeOptions o) := by
  have written : Books [] { s with set.options := o, pool.credits := s.freeCredits o.credits } :=
    { h with
      credits := fun c => by
        simp only [State.ledger, onReserve_accounts]
        cases c <;> rfl }
  exact ite_op State.servePass (fun h => h.servePass) written

theorem writeEntry (h : Books [] s) {n : TableName} {i : Nat} {l : List Byte} {c : Bool} (e : writeEntry n s i l = .ok (t, c)) :
    Books [] t := by
  cases n with
  | options =>
    replace e : writeOptions s l = .ok (t, c) := e
    unfold writeOptions at e
    repeat' split at e
    all_goals cases e
    exact h.takeOptions _
  | lamps =>
    replace e : writeLamp s i l = .ok (t, c) := e
    rcases writeLamp_cases s i l with e' | ⟨x, d, n, -, -, e'⟩ <;> rw [e'] at e <;> cases e
    exact h
  | _ =>
    -- the other tables hold no credit settings
    dsimp only [Machine.writeEntry, writePupil, writeContact, writeGroup, writePlan, writeZone, writeStation, writeTemplate,
      State.storePlan] at e
    repeat' split at e
    all_goals cases e
    all_goals exact h

theorem writeEntries (h : Books [] s) (done : List Bool) (l : List (List Byte)) : Books [] (s.writeEntries done l).1 := by
  induction l generalizing s done with
  | nil => exact h
  | cons e l ih =>
    dsimp only [State.writeEntries]
    split
    · exact h
    · rename_i s1 c he
      have written := h.writeEntry he
      repeat' split
      · exact ih written _
      · exact written
      · exact ih (s := { s1 with link.cursor := s.link.cursor.advance 1 }) written _

theorem reqTableWrite (h : Books [] s) (body : List Byte) : Books [] (reqTableWrite body s).1 := by
  unfold Machine.reqTableWrite
  split
  · exact h
  · dsimp only
    repeat' split
    · exact h
    · exact h
    · exact h
    · exact h.writeEntries _ _

theorem handle (h : Books [] s) (tag : Nat) (r : Request) : Books [] (handle tag r s).1 := by
  cases r with
  | tableWrite body => exact h.reqTableWrite body
  | settingsSave => exact h.reqSettingsSave
  | clockSet date time => exact h.reqClockSet date time
  | dayOpen date kinds delays => exact h.reqDayOpen date kinds delays
  | dayClose force => exact h.reqDayClose force
  | openingDelay track delay => exact h.reqOpeningDelay track delay
  | earlyClose track minutes => exact h.reqEarlyClose track minutes
  | zoneRing zone => exact h.reqZoneRing zone
  | deskArrival key value arrival => exact h.reqDeskArrival key value arrival
  | slipReprint pupil session => exact h.reqSlipReprint pupil session
  | registerSubmit group session entries => exact h.reqRegisterSubmit group session entries
  | markSet pupil session mark minutes lock arrival => exact h.reqMarkSet pupil session mark minutes lock arrival
  | conflictResolve id what => exact h.reqConflictResolve id what
  | advanceCancel date pupil sessions => exact h.reqAdvanceCancel date pupil sessions
  | messageSend pupil session what => exact h.reqMessageSend pupil session what
  | messageCancel number => exact h.reqMessageCancel number
  | inboundNext => exact h.reqInboundNext
  | archiveRead date index count => exact h.reqArchiveRead tag date index count
  | _ =>
    -- the other requests read, or write what is neither the pool's nor a setting
    dsimp only [Machine.handle, answered, reqHello, reqConditions, reqAttentionMask, reqReset, reqLampForce, reqTableSelect, reqTableRead,
      reqPupilFind, reqSenderFind, reqDayStatus, reqPlanQuery, reqZoneCheck, reqBellLog, reqZoneStatus, reqStationResume,
      reqStationStatus, reqDeskAnswers, reqSlipStatus, reqDeskStatistics, reqMarkQuery, reqGroupStatus, reqConflictList,
      reqAdvanceList, reqPoolStatus, reqMessageList, reqGatewayStatus, reqArchiveDirectory, reqStoreStatus]
    repeat' split
    all_goals exact h

/-! ## Frames, the settings load and resets -/

theorem take (h : Books [] s) (w : Waiting) (rest : List Waiting) : Books [] (s.take w rest) := by
  have taken := handle (s := { s with link.queue := rest, link.hand := some ⟨w.tag, Request.handKind w.req, false⟩ }) h w.tag w.req
  dsimp only [State.take]
  split
  all_goals rename_i e; rw [e] at taken
  · exact taken.giveReply _
  · exact taken

theorem takeNext (h : Books [] s) : Books [] s.takeNext := by
  unfold State.takeNext
  repeat' split
  · exact h
  · exact h.take _ _
  · exact h

theorem goodFrame (h : Books [] s) (tag : Nat) (r : Request) : Books [] (s.goodFrame tag r) :=
  takeNext (joinFrame (s := { s.frameEnds with link.good := inc32 s.link.good }) h _)

theorem frameDone (h : Books [] s) (l : List Byte) : Books [] (s.frameDone l) := by
  unfold State.frameDone
  split
  · exact h.goodFrame _ _
  · exact h

theorem hostChar (h : Books [] s) (c : Byte) : Books [] (s.hostChar c) := by
  dsimp only [State.hostChar, State.frameChar]
  repeat' split
  · exact h
  · exact h
  · exact h.lengthError _
  · exact h.frameDone _
  · exact h

theorem hostFrame (h : Books [] s) (kind tag : Nat) (body : List Byte) (check : Byte) : Books [] (s.hostFrame kind tag body check) := by
  unfold State.hostFrame
  split
  · exact h.lengthError _
  · exact h.frameDone _

theorem frameSent (h : Books [] s) : Books [] s.frameSent := by
  unfold State.frameSent
  repeat' split
  · exact h
  · exact h
  · exact takeNext (s := { s with link := { s.link.sendNext with hand := none } }) h

theorem withLink (h : Books [] s) (x : HostLink) : Books [] { s with link := x } := h

theorem takeSettings (h : Books [] s) (x : Settings) : Books [] (s.takeSettings x) := by
  have written : Books [] { s with set := { x with options := s.set.options } } := h
  refine takeOptions ?_ x.options
  exact foldl (f := fun t n => t.setStation n ((t.station n).rewrite (s.set.stations.get n) (x.stations.get n))) (fun _ _ h => h)
    written sixes

theorem loadDone (h : Books [] s) : Books [] s.loadDone := by
  have read := ((h.takeSettings (s.store.loadSettings.getD factorySettings)).withStore
    (s.takeSettings (s.store.loadSettings.getD factorySettings)).store.readDirectory).withLink
      { (s.takeSettings (s.store.loadSettings.getD factorySettings)).link with loaded := s.store.loadSettings.isSome, loading := false }
  dsimp only [State.loadDone]
  repeat' split
  · exact read
  · exact read.raise _
  · exact read.raise _
  · exact (read.raise _).raise _

/-- A reset leaves the pool empty, its credits those of the factory settings (R137, R208). -/
theorem restart (s : State) (cause : ResetCause) (fast : Bool) (clock : Clock) : Books [] (s.restart cause fast clock) :=
  ⟨rfl, rfl, fun c => by cases c <;> rfl, .nil, fun _ h => (List.not_mem_nil h).elim, .nil, fun _ h => (List.not_mem_nil h).elim,
    List.nil_subset _⟩

/-! ## A step -/

theorem run (h : Books [] t) {u : State} (e : run s t = .next u) : Books [] u := by
  cases e
  exact h.pump 4

theorem request (h : Books [] s) {tag : Nat} {r : Request} (e : request tag r s = .next t) : Books [] t := (h.goodFrame tag r).run e

end Books

/-- Every command is built from operations that keep the pool's balance. -/
theorem exec_books {i : Instr} {s t : State} (h : Books [] s) (e : exec i s = .next t) : Books [] t := by
  cases i with
  | hostFrame kind tag body check => exact (h.hostFrame kind tag body check).run e
  | hostFramingCharacter => exact h.framingChar.run e
  | hostLengthError length => exact (h.lengthError length).run e
  | hostFrameTimeout => exact h.frameTimeout.run e
  | hostFrameSent =>
    simp only [exec, execHostFrameSent] at e
    split at e
    · cases e
      exact Books.restart s .request s.link.fastRate s.clock
    · exact h.frameSent.run e
  | hostCharacter c => exact (h.hostChar c).run e
  | powerOnReset strapHigh =>
    cases e
    exact Books.restart s _ _ _
  | pinReset strapHigh =>
    cases e
    exact Books.restart s _ _ _
  | settingsLoadDone =>
    simp only [exec, execSettingsLoadDone] at e
    split at e
    · exact h.loadDone.takeNext.run e
    · exact h.run e
  | secondEvent peak => exact (h.second peak).run e
  | minuteEvent => exact h.minute.run e
  | midnightEvent => exact h.passMidnight.midnightClose.run e
  | segmentBegin track segment => exact (h.segmentBegins track segment).run e
  | dayEnd track => exact (h.dayEnds track).run e
  | sessionClose track session => exact (h.sessionCloses track session).run e
  | alertDue pupil session => exact (h.alertFallsDue pupil session).run e
  | bellEventDue zone source => exact (h.onZone zone _).run e
  | ringEnd zone => exact (h.onZone zone _).run e
  | openFault zone peak ms => exact (h.onZone zone _).run e
  | overload zone least ms => exact (h.onZone zone _).run e
  | checkShort zone least ms => exact (h.onZone zone _).run e
  | probeEnd zone peak => exact (h.onZone zone _).run e
  | arrivalRecord station kind sequence code check =>
    exact (h.onLine station fun h => h.arrivalComplete station (arrivalBytes kind sequence code check)).run e
  | stationFramingError station => exact (h.onLine station (f := fun t => t.stationFraming station) id).run e
  | recordAbandoned station => exact (h.onLine station fun h => h.recordAbandoned station).run e
  | stationCharacter station c => exact (h.onLine station fun h => h.stationChar station c).run e
  | holdOff station => exact Books.run (t := s.holdEnds station) h e
  | showSent station => exact Books.run (t := s.setStation station _) h e
  | classificationComplete => exact h.completeClassification.run e
  | printerReady => exact h.printerReadyReport.run e
  | paperOut => exact h.paperOutReport.run e
  | slipRecordSent => exact h.slipSent.run e
  | printerStall => exact h.stallReached.run e
  | waitEntryExpiry position => exact (h.expireWait position).run e
  | ready window status => exact (Books.gwTake (s := s.gwClear) h _).run e
  | result tag outcome => exact (Books.gwTake (s := s.gwClear) h _).run e
  | inbound sender text => exact (Books.gwTake (s := s.gwClear) h _).run e
  | gatewayBadRecord => exact Books.run (t := s.gwClear.gwBad) h e
  | gatewayRecordAbandoned => exact h.gwAbandon.run e
  | gatewayRecordSent => exact h.gwSent.run e
  | gatewayCharacter c => exact (h.gwChar c).run e
  | linkLoss => exact h.gwDown.run e
  | deliveryTimeout tag => exact (h.timeOut tag).run e
  | retryDelay number => exact (h.retryReached number).run e
  | messageLifetime number => exact (h.lifeReached number).run e
  | pageEraseDone => exact h.eraseDone.run e
  | blankCheckDone blank => exact (h.blankChecked blank).settleDeferred.run e
  | pageProgramDone => exact h.programDone.run e
  | pageVerifyDone agrees => exact (h.verified agrees).settleDeferred.run e
  | pageReadDone => exact h.readDone.settleDeferred.run e
  | lampStretch lamp => exact Books.run (t := s.stretchEnds lamp) h e
  | lampFlashPhase => exact Books.run (t := s.flash) h e
  | _ => exact h.request e

/-- Settles O50: the balance is that of the pool's books, which every operation of every command keeps. -/
theorem stepsConserveThePool : Obligations.StepsConserveThePool := by
  intro s t hs e
  rw [State.poolBalances_iff] at hs ⊢
  unfold step at e
  split at e
  · cases e
    exact hs
  · rename_i rest _
    exact exec_books (s := { s with pending := rest }) hs e

end Sys2Proof.Machine
end

