-- ==== Sys2Proof/Proofs/PoolStorage.lean ====
section
/-! CLAIM. Storage is taken, returned and served (R138 to R144). -/

namespace Sys2Proof.Machine

/-! ## Segments and areas (R138, R139) -/

theorem segmentsFor_bounds (n : Nat) :
    1 ≤ segmentsFor n ∧ n ≤ 48 * segmentsFor n ∧ (48 < n → 48 * segmentsFor n < n + 48) ∧ (n ≤ 48 → segmentsFor n = 1) := by
  unfold segmentsFor Config.segmentChars
  split <;> omega

/-- An area that no message holds (R139). -/
def Pool.areaFree (p : Pool) (a : Nat) : Prop := a < 16 ∧ ∀ m ∈ p.msgs, m.storage ≠ .reserve a

theorem mem_heldAreas {l : List Message} {a : Nat} : a ∈ heldAreas l ↔ ∃ m ∈ l, m.storage = .reserve a := by
  simp only [heldAreas, List.mem_filterMap]
  refine exists_congr fun m => and_congr_right fun _ => ?_
  cases m.storage <;> simp

theorem Pool.areaFree_iff (p : Pool) (a : Nat) : p.areaFree a ↔ a < 16 ∧ (!(heldAreas p.msgs).contains a) = true := by
  simp [Pool.areaFree, mem_heldAreas]

theorem Pool.freeArea_of_lowest {p : Pool} {a : Nat} (h : p.areaFree a) (hlow : ∀ b < a, ¬ p.areaFree b) : p.freeArea = some a := by
  obtain ⟨ha, hfree⟩ := (p.areaFree_iff a).mp h
  refine List.find?_range_eq_some.mpr ⟨hfree, List.mem_range.mpr ha, fun b hb => ?_⟩
  have hheld := mt (p.areaFree_iff b).mpr (hlow b hb)
  simpa [hb.trans ha] using hheld

theorem Pool.freeArea_none {p : Pool} (h : ∀ a, ¬ p.areaFree a) : p.freeArea = none :=
  List.find?_range_eq_none.mpr fun a ha => by
    have hheld := mt (p.areaFree_iff a).mpr (h a)
    simpa [show a < 16 from ha] using hheld


section
variable {s v : State} {c : MsgClass} {k : Nat} {st : Storage}

theorem allocate_reserve {a : Nat} (hfull : s.pool.freeDesc = 0 ∨ s.pool.freeSegs < k) (hc : 1 ≤ s.pool.credits.get c)
    (ha : s.pool.areaFree a) (hlow : ∀ b < a, ¬ s.pool.areaFree b) : s.allocate c k = some (s.takeReserve c, .reserve a) := by
  rw [State.allocate, if_neg (by omega), if_pos hc, Pool.freeArea_of_lowest ha hlow]
  rfl

theorem allocate_rejected (hfull : s.pool.freeDesc = 0 ∨ s.pool.freeSegs < k)
    (hnone : s.pool.credits.get c = 0 ∨ ∀ a, ¬ s.pool.areaFree a) : s.allocate c k = none := by
  rw [State.allocate, if_neg (by omega)]
  split
  · rw [Pool.freeArea_none (hnone.resolve_left (by omega))]
    rfl
  · rfl

/-! ## A message that is stored or ends at once (R139, R143, R151) -/

/-- A free changes the pool alone (R143). -/
theorem release_eq (s : State) (m : Message) :
    ∃ x : Pool, s.release m = { s with pool := x } ∧ x.msgs = s.pool.msgs.filter fun y => y.number != m.number := by
  unfold State.release
  split
  · exact ⟨_, rfl, rfl⟩
  · exact ⟨_, rfl, rfl⟩

variable {kind : MsgKind} {subj : Subject} {text : Text} {life : Option Nat}

/-- What an outbound message holds when it has been composed (R151, R153). -/
def State.newBody (s : State) (c : MsgClass) (subj : Subject) (life : Option Nat) : MsgBody :=
  .out ⟨subj, s.recipients c subj, ⟨0, false, 0⟩, .queued, life, false⟩

/-- The state with an outbound message stored and QUEUED at its class queue's tail (R136, R153). -/
def State.queuedIn (s v : State) (c : MsgClass) (kind : MsgKind) (st : Storage) (subj : Subject) (text : Text) (life : Option Nat) :
    State :=
  let w := v.addMessage c kind st text (s.newBody c subj life)
  { w with sched := w.sched.setQueue c (s.sched.queue c ++ [s.pool.nextNum]) }

theorem storeOut_rejected (h : s.allocate c (segmentsFor text.length) = none) : s.storeOut c kind subj text life = none := by
  simp only [State.storeOut, h]

theorem storeOut_of_recipients (h : s.allocate c (segmentsFor text.length) = some (v, st)) (hr : s.recipients c subj ≠ []) :
    s.storeOut c kind subj text life = some (s.queuedIn v c kind st subj text life, .queued s.pool.nextNum) := by
  simp only [State.storeOut, h]
  obtain ⟨x, l, rfl, hmsgs, hnext⟩ := allocate_beside h
  have hr' : ¬ ((s.beside s.reg x s.gw l).recipients c subj).isEmpty = true := by
    rw [List.isEmpty_iff]
    exact hr
  rw [if_neg hr', State.queuedIn, ← hnext]
  rfl

/-- A message that has joined is found under its number. -/
theorem message_addMessage (s : State) (c : MsgClass) (kind : MsgKind) (st : Storage) (text : Text) (body : MsgBody) :
    ∃ m : Message, (s.addMessage c kind st text body).message s.pool.nextNum = some m ∧ m.number = s.pool.nextNum := by
  cases h : (s.addMessage c kind st text body).message s.pool.nextNum with
  | some m => exact ⟨m, rfl, (State.mem_of_message h).2⟩
  | none => exact absurd (List.find?_eq_none.mp h _ (List.mem_append_right _ (List.mem_singleton.mpr rfl))) (by simp)

/-- A message without recipient gives back what it took (R151, R143); its end is counted at the gateway. -/
theorem storeOut_of_noRecipient (h : s.allocate c (segmentsFor text.length) = some (v, st)) (hr : s.recipients c subj = []) :
    ∃ (x : Pool) (g : Gateway) (l : HostLink),
      s.storeOut c kind subj text life = some (s.beside s.reg x g l, .noRecipient) ∧
      x.msgs = s.pool.msgs.filter fun m => m.number != s.pool.nextNum := by
  obtain ⟨x, l, rfl, hmsgs, hnext⟩ := allocate_beside h
  have hr' : (s.beside s.reg x s.gw l).recipients c subj = [] := hr
  obtain ⟨m, hm, hn⟩ := message_addMessage (s.beside s.reg x s.gw l) c kind st text (s.newBody c subj life)
  obtain ⟨y, hy, hrest⟩ := release_eq
    (((s.beside s.reg x s.gw l).addMessage c kind st text (s.newBody c subj life)).countEnd c EndCounts.addUndelivered) m
  refine ⟨y, { s.gw with stats := s.gw.stats.modEnds c EndCounts.addUndelivered }, l, ?_, ?_⟩
  · have hbody : MsgBody.out ⟨subj, (s.beside s.reg x s.gw l).recipients c subj, ⟨0, false, 0⟩, .queued, life, false⟩ =
        s.newBody c subj life := rfl
    simp only [State.storeOut, h, hbody, hm, hy]
    rw [if_pos (List.isEmpty_iff.mpr hr')]
    rfl
  · replace hn : m.number = s.pool.nextNum := hn.trans hnext
    replace hrest : y.msgs = (x.msgs ++ [_]).filter fun y => y.number != m.number := hrest
    rw [hrest, hn, hmsgs, List.filter_append, List.filter_cons_of_neg (by simp [State.beside, hnext]), List.filter_nil, List.append_nil]

end

/-! ## The serve pass (R140, R141, R144) -/

section
variable {s v : State} {p : Nat} {ss : Session} {st : Storage} {l : List Nat}

theorem mem_dueKeys (hw : Tab.wf clearedAt s.reg.recs = true) (p : Nat) (ss : Session) :
    recKey p ss ∈ s.dueKeys ↔ (s.record p ss).alert = .due := by
  have hmem := (State.filter_recs hw (p := fun _ r => r.alert == .due) fun _ => rfl).2 (recKey p ss)
  rw [keyPupil_recKey, keySession_recKey, beq_iff_eq] at hmem
  exact hmem

theorem dueKeys_pairwise (hw : Tab.wf clearedAt s.reg.recs = true) : s.dueKeys.Pairwise (· < ·) := (Tab.filter_pairwise hw _).1

theorem serveAlerts_of_none (h : s.tryAlert p ss = none) : serveAlerts (recKey p ss :: l) s = s := by
  simp only [serveAlerts, keyPupil_recKey, keySession_recKey, h]

theorem serveAlerts_of_some {t : State} {x : Stored} (h : s.tryAlert p ss = some (t, x)) :
    serveAlerts (recKey p ss :: l) s = serveAlerts l t := by
  simp only [serveAlerts, keyPupil_recKey, keySession_recKey, h]

theorem tryAlert_rejected (h : s.allocate .alert (segmentsFor (s.alertText p ss).length) = none) : s.tryAlert p ss = none := by
  have rejected := storeOut_rejected (kind := .absenceAlert) (subj := .pupil p ss) (life := none) h
  rw [State.alertText] at rejected
  simp only [State.tryAlert, rejected]

/-- R140: an alert that takes storage is QUEUED, and its record with it. -/
theorem tryAlert_of_recipients (h : s.allocate .alert (segmentsFor (s.alertText p ss).length) = some (v, st))
    (hr : s.recipients .alert (.pupil p ss) ≠ []) :
    ∃ x : Stored, s.tryAlert p ss =
      some ((s.queuedIn v .alert .absenceAlert st (.pupil p ss) (s.alertText p ss) none).putRec p ss
        { s.record p ss with alert := .queued, asked := none }, x) := by
  refine ⟨.queued s.pool.nextNum, (tryAlert_of_queued (storeOut_of_recipients h hr)).trans ?_⟩
  obtain ⟨x, l, rfl, -⟩ := allocate_beside h
  rfl

/-- R151, R91: an alert with no recipient ends UNDELIVERED, and what it does to the slips and the desk is its CALL slip. -/
theorem tryAlert_of_noRecipients (h : s.allocate .alert (segmentsFor (s.alertText p ss).length) = some (v, st))
    (hr : s.recipients .alert (.pupil p ss) = []) :
    ∃ (u : State) (x : Stored), s.tryAlert p ss = some (u, x) ∧ (u.record p ss).alert = .undelivered ∧
      u.link.isSet .alertUndelivered = true ∧ u.slips = (s.callSlip p ss .noRecipient).slips ∧
      u.desk = (s.callSlip p ss .noRecipient).desk ∧
      u.pool.msgs = s.pool.msgs.filter (fun m => m.number != s.pool.nextNum) ∧ u.sched = s.sched := by
  obtain ⟨x, g, l, hx, hmsgs⟩ := storeOut_of_noRecipient (kind := .absenceAlert) (life := none) h hr
  refine ⟨_, _, tryAlert_of_noRecipient hx, ?_, ?_, ?_⟩
  · rw [Serves.alertUndelivered_record, State.record_modRec_of_alert _ (by simp)]
  · exact ((Serves.refl (w := False) False.elim).joinSlip _).1.raised _ (State.raise_isSet_same _ _)
  · obtain ⟨r, l', hu⟩ : ∃ (r : Register) (l' : HostLink),
        ((s.beside s.reg x g l).modRec p ss fun r => { r with asked := none }).alertUndelivered p ss .noRecipient =
          (s.callSlip p ss .noRecipient).beside r x g l' := alertUndelivered_beside s _ x g l p ss .noRecipient
    obtain ⟨hsched, -⟩ := joinSlip_rest s (s.makeSlip .call p ss (.call .noRecipient s.clock.secs (s.contactNumbers p)))
    rw [hu]
    exact ⟨rfl, rfl, hmsgs, hsched⟩

variable {e : WaitEntry} {rest : List WaitEntry} {n : Nat}

/-- The wait list without an entry that was served (R132, R144). -/
def State.entryServed (u : State) (rest : List WaitEntry) : State :=
  { u with recon.waits := rest, recon.waitCnt.served := inc32 u.recon.waitCnt.served }

theorem serveWaits_nil (h : s.recon.waits = []) (n : Nat) : serveWaits n s = s := by
  cases n with
  | zero => rfl
  | succ n => simp only [serveWaits, h]

theorem serveWaits_of_none (hs : s.recon.waits = e :: rest) (h : s.tryEntry e = none) : serveWaits (n + 1) s = s := by
  simp only [serveWaits, hs, h]

theorem serveWaits_of_some {t : State} {x : Stored} (hs : s.recon.waits = e :: rest) (h : s.tryEntry e = some (t, x)) :
    serveWaits (n + 1) s = serveWaits n (t.entryServed rest) := by
  simp only [serveWaits, hs, h]
  rfl

end

/-- Settles O49: what an allocation, a serve pass and a free do, each in its cases. -/
theorem storageIsTakenAndReturned : Obligations.StorageIsTakenAndReturned := by
  refine ⟨segmentsFor_bounds, fun s c k => ?_, fun s => ?_, fun s m => ?_⟩
  · intro free inUse t
    exact ⟨allocate_shared, fun a hfull hc ha hlow => allocate_reserve hfull hc ha hlow, allocate_rejected⟩
  · intro now stored
    refine ⟨fun m => rfl, rfl, servePass_idle, fun hw => ⟨mem_dueKeys hw, dueKeys_pairwise hw⟩, fun p ss l => ?_, rfl,
      fun n h => serveWaits_nil h n, fun e rest n hs => ?_⟩
    · intro r text attempt
      refine ⟨fun h => serveAlerts_of_none (tryAlert_rejected h), fun v st h hr => ?_, fun v st h hr => ?_⟩
      · obtain ⟨x, hx⟩ := tryAlert_of_recipients h hr
        exact serveAlerts_of_some hx
      · obtain ⟨u, x, hx, halert, hu⟩ := tryAlert_of_noRecipients h hr
        exact ⟨u, serveAlerts_of_some hx, fun _ => halert, hu⟩
    · intro c text attempt served
      have hcls : e.cls = c := by
        simp only [c]
        split
        · exact WaitEntry.cls_receipt ‹_›
        · exact WaitEntry.cls_notice ‹_›
      have tried : s.tryEntry e = s.storeOut c e.kind e.subject text (some e.life) := by rw [State.tryEntry, hcls]
      refine ⟨fun h => serveWaits_of_none hs (tried.trans (storeOut_rejected h)), fun v st h hr => ?_, fun v st h hr => ?_⟩
      · exact serveWaits_of_some hs (tried.trans (storeOut_of_recipients h hr))
      · obtain ⟨x, g, l, hx, hmsgs⟩ := storeOut_of_noRecipient h hr
        exact ⟨_, serveWaits_of_some hs (tried.trans hx), hmsgs, rfl, rfl, rfl⟩
  · intro rest
    refine ⟨fun k h => ?_, fun a h => ⟨fun hle => ?_, fun hlt => ?_⟩⟩
    · simp only [State.release, h]
      rfl
    · simp only [State.release, h, State.returnCredit]
      rw [if_pos (show s.pool.reserveHeld m.cls ≤ s.set.options.credits.get m.cls from hle)]
    · simp only [State.release, h, State.returnCredit]
      rw [if_neg (show ¬ s.pool.reserveHeld m.cls ≤ s.set.options.credits.get m.cls from Nat.not_le.mpr hlt)]

end Sys2Proof.Machine
end

