-- ==== Sys2Proof/Proofs/PoolReports.lean ====
section
/-! CLAIM. The reports of the pool, the gateway and the store (R147, R170, R173, R190, R192). -/

namespace Sys2Proof.Machine

/-! ## MESSAGE LIST (R170) -/

/-- The fields that fit are the longest beginning whose bytes fit (log 17). -/
theorem fitting_spec (f : Message → List Byte) (room : Nat) (l : List Message) :
    ∃ a : List Message, fitting room (l.map f) = a.map f ∧ a <+: l ∧ (a.map fun m => (f m).length).sum ≤ room ∧
      (∀ m : Message, a ++ [m] <+: l → room < (a.map fun x => (f x).length).sum + (f m).length) := by
  induction l generalizing room with
  | nil => exact ⟨[], rfl, List.prefix_rfl, Nat.zero_le _, fun m h => absurd (List.prefix_nil.mp h) (by simp)⟩
  | cons x l ih =>
    rw [List.map_cons, fitting]
    split
    · rename_i hx
      obtain ⟨a, ha, hpre, hsum, hmax⟩ := ih (room - (f x).length)
      refine ⟨x :: a, by rw [ha, List.map_cons], List.cons_prefix_cons.mpr ⟨rfl, hpre⟩, ?_, fun m h => ?_⟩
      · rw [List.map_cons, List.sum_cons]
        omega
      · have := hmax m (List.cons_prefix_cons.mp h).2
        rw [List.map_cons, List.sum_cons]
        omega
    · rename_i hx
      refine ⟨[], rfl, List.nil_prefix, Nat.zero_le _, fun m h => ?_⟩
      obtain ⟨rfl, -⟩ := List.cons_prefix_cons.mp h
      simpa using hx

/-- Where all fields fit, none is cut. -/
theorem prefix_eq_of_fits {f : Message → Nat} {room : Nat} {a l : List Message} (hpre : a <+: l)
    (hmax : ∀ m : Message, a ++ [m] <+: l → room < (a.map f).sum + f m) (hfits : (l.map f).sum ≤ room) : a = l := by
  obtain ⟨rest, rfl⟩ := hpre
  cases rest with
  | nil => rw [List.append_nil]
  | cons m rest =>
    have hlong := hmax m ⟨rest, by simp⟩
    simp only [List.map_append, List.map_cons, List.sum_append, List.sum_cons] at hfits
    omega

/-! ## ARCHIVE DIRECTORY (R190) -/

theorem insertEntry_perm (e : Nat × DayEntry) (l : List (Nat × DayEntry)) : (insertEntry e l).Perm (e :: l) := by
  induction l with
  | nil => exact .refl _
  | cons f l ih =>
    unfold insertEntry
    split
    · exact .refl _
    · exact (ih.cons f).trans (.swap e f l)

theorem insertEntry_sorted {e : Nat × DayEntry} {l : List (Nat × DayEntry)} (h : l.Pairwise fun a b => a.2.commit ≤ b.2.commit) :
    (insertEntry e l).Pairwise fun a b => a.2.commit ≤ b.2.commit := by
  induction l with
  | nil => exact List.pairwise_singleton _ e
  | cons f l ih =>
    obtain ⟨hf, hl⟩ := List.pairwise_cons.mp h
    unfold insertEntry
    split
    · rename_i hle
      exact List.pairwise_cons.mpr ⟨List.forall_mem_cons.mpr ⟨hle, fun a ha => hle.trans (hf a ha)⟩, h⟩
    · rename_i hlt
      refine List.pairwise_cons.mpr ⟨fun a ha => ?_, ih hl⟩
      rcases List.mem_cons.mp ((insertEntry_perm e l).mem_iff.mp ha) with rfl | ha
      · exact (Nat.lt_of_not_le hlt).le
      · exact hf a ha

theorem sortedEntries_perm (x : Store) : x.sortedEntries.Perm x.entries := by
  unfold Store.sortedEntries
  induction x.entries with
  | nil => exact .refl _
  | cons e l ih => exact (insertEntry_perm e _).trans (ih.cons e)

theorem sortedEntries_sorted (x : Store) : x.sortedEntries.Pairwise fun a b => a.2.commit ≤ b.2.commit := by
  unfold Store.sortedEntries
  induction x.entries with
  | nil => exact .nil
  | cons e l ih => exact insertEntry_sorted ih

section
variable {s : State} {tag : Nat}

/-! ## POOL STATUS and GATEWAY STATUS by their flag -/

theorem poolStatus_answers (h : s.ready) : Answers (.poolStatus tag 0) s 0x38 tag id .ok s.poolBody :=
  answers_of_handle h rfl rfl (by decide) rfl rfl

theorem poolStatus_clears (h : s.ready) :
    Answers (.poolStatus tag 1) s 0x38 tag
      (fun u => { u with pool.stats := ⟨0, ⟨0, 0, 0, 0⟩, ⟨0, 0, 0, 0⟩, s.pool.segsInUse, s.clock.stamp⟩ }) .ok s.poolBody :=
  answers_of_handle h rfl rfl (by decide) rfl rfl

theorem poolStatus_badArg (h : s.ready) {clear : Nat} (hc : 2 ≤ clear) : Refuses (.poolStatus tag clear) s 0x38 tag .badArg := by
  refine answers_of_handle h rfl rfl (by decide) ?_ rfl
  simp only [handle, reqPoolStatus, flagOf_none hc]
  rfl

theorem gatewayStatus_answers (h : s.ready) : Answers (.gatewayStatus tag 0) s 0x3D tag id .ok s.gatewayBody :=
  answers_of_handle h rfl rfl (by decide) rfl rfl

theorem gatewayStatus_clears (h : s.ready) :
    Answers (.gatewayStatus tag 1) s 0x3D tag (fun u => { u with gw.stats := GwStats.zero }) .ok s.gatewayBody :=
  answers_of_handle h rfl rfl (by decide) rfl rfl

theorem gatewayStatus_badArg (h : s.ready) {clear : Nat} (hc : 2 ≤ clear) :
    Refuses (.gatewayStatus tag clear) s 0x3D tag .badArg := by
  refine answers_of_handle h rfl rfl (by decide) ?_ rfl
  simp only [handle, reqGatewayStatus, flagOf_none hc]
  rfl

/-! ## MESSAGE LIST -/

/-- A list of fields already made into bytes is a list of their entries. -/
theorem bList_id_map {α : Type} (f : α → List Byte) (l : List α) : bList id (l.map f) = bList f l := by
  rw [bList, bList, List.length_map, List.flatMap_map]
  rfl

theorem messageList_answers (h : s.ready) {start : Nat} (hs : start ≤ 63) :
    ∃ l : List Message, l <+: (s.pool.msgs.drop start).take 8 ∧ (l.map fun m => m.bytes.length).sum ≤ 237 ∧
      (∀ m : Message, l ++ [m] <+: (s.pool.msgs.drop start).take 8 →
        237 < (l.map fun x => x.bytes.length).sum + m.bytes.length) ∧
      ((((s.pool.msgs.drop start).take 8).map fun m => m.bytes.length).sum ≤ 237 → l = (s.pool.msgs.drop start).take 8) ∧
      Answers (.messageList tag start) s 0x3A tag id .ok (b1 s.pool.msgs.length ++ b1 l.length ++ l.flatMap Message.bytes) := by
  obtain ⟨l, hl, hpre, hsum, hmax⟩ := fitting_spec Message.bytes 237 ((s.pool.msgs.drop start).take 8)
  have hbody : b1 s.pool.msgs.length ++ bList id (fitting 237 (((s.pool.msgs.drop start).take 8).map Message.bytes)) =
      b1 s.pool.msgs.length ++ b1 l.length ++ l.flatMap Message.bytes := by
    rw [hl, bList_id_map, bList, List.append_assoc]
  refine ⟨l, hpre, hsum, hmax, prefix_eq_of_fits hpre hmax, ?_⟩
  rw [← hbody]
  exact answers_of_handle h rfl rfl (by decide) (congrArg answered (if_pos hs)) rfl

theorem messageList_badArg (h : s.ready) {start : Nat} (hs : 63 < start) : Refuses (.messageList tag start) s 0x3A tag .badArg :=
  answers_of_handle h rfl rfl (by decide) (congrArg answered (if_neg (Nat.not_le.mpr hs))) rfl

/-! ## ARCHIVE DIRECTORY and STORE STATUS -/

theorem archiveDirectory_answers (h : s.ready) {start : Nat} (hs : start ≤ 31) :
    Answers (.archiveDirectory tag start) s 0x40 tag id .ok
      (b1 s.store.sortedEntries.length ++ bList s.store.directoryEntryBytes ((s.store.sortedEntries.drop start).take 12)) := by
  rw [(sortedEntries_perm s.store).length_eq]
  exact answers_of_handle h rfl rfl (by decide) (congrArg answered (if_pos hs)) rfl

theorem archiveDirectory_badArg (h : s.ready) {start : Nat} (hs : 31 < start) :
    Refuses (.archiveDirectory tag start) s 0x40 tag .badArg :=
  answers_of_handle h rfl rfl (by decide) (congrArg answered (if_neg (Nat.not_le.mpr hs))) rfl

theorem mem_sortedEntries (x : Store) (k : Nat) (e : DayEntry) : (k, e) ∈ x.sortedEntries ↔ x.dir[k]? = some (some e) :=
  (sortedEntries_perm x).mem_iff.trans (mem_entries x k e)

theorem storeStatus_answers (h : s.ready) :
    Answers (.storeStatus tag) s 0x42 tag id .ok
      (b1 s.store.job.code ++ b1 s.store.op.code ++ s.commitBytes ++ bList b2 s.store.bad ++ b1 s.store.entries.length ++
        b2 s.store.nextPage ++ b1 (commitCode s.store.lastCommit) ++ b1 (saveCode s.store.lastSave)) :=
  answers_of_handle h rfl rfl (by decide) rfl rfl

end

theorem sessionCode_keySession (k : Nat) : sessionCode (keySession k) = k % 2 := by
  rw [keySession]
  split <;> rename_i hk
  · exact hk.symm
  · exact (Nat.mod_two_ne_zero.mp hk).symm

/-- The channel of the cursor by its code, a cursor past the recipients giving that of TEXT. -/
theorem target_code (o : Outbound) : o.target.1.code = (((o.recipients[o.cursor.recipient]?).map fun r =>
    if o.cursor.second then r.second.getD r.first else r.first).map (·.code)).getD 0 := by
  rw [Outbound.target]
  cases o.recipients[o.cursor.recipient]? <;> rfl

/-- What GATEWAY STATUS says of a submission, the channel read at the cursor. -/
theorem submissionBytes_eq (s : State) : s.submissionBytes = fun b : Submission =>
    let o := (s.message b.number).bind Message.outbound
    let at_ := o.bind fun x => (x.recipients[x.cursor.recipient]?).map fun r =>
      if x.cursor.second then r.second.getD r.first else r.first
    b1 b.tag ++ b2 b.number ++ b1 ((at_.map (·.code)).getD 0) ++ b2 ((o.bind fun x => x.state.left).getD 0) := by
  funext b
  simp only [State.submissionBytes]
  cases (s.message b.number).bind Message.outbound with
  | none => rfl
  | some o => exact congrArg (fun c => b1 b.tag ++ b2 b.number ++ b1 c ++ b2 (o.state.left.getD 0)) (target_code o)

/-- What ARCHIVE DIRECTORY says of an entry: the one in progress is PARTIAL with 0 pages and 0 records. -/
theorem directoryEntryBytes_eq (x : Store) : x.directoryEntryBytes = fun e : Nat × DayEntry =>
    let open_ := x.inProgress e.1
    b1 e.1 ++ b4 e.2.commit ++ bDate e.2.date ++ b2 e.2.first ++ b2 (if open_ then 0 else e.2.pages) ++
      b2 (if open_ then 0 else e.2.records) ++ b1 e.2.conflicts ++ bFlag (open_ || !e.2.complete) ++ bFlag open_ := by
  funext e
  rw [Store.directoryEntryBytes, Store.reported]
  cases x.inProgress e.1 <;> rfl

/-- Settles O52, a lemma for each request by the model's names for its body, and then what those bodies say byte by byte. -/
theorem poolAndStoreReports : Obligations.PoolAndStoreReports := by
  intro s tag h code tagOf left entry status
  have hcode : OutState.code = code := funext fun x => by cases x <;> rfl
  have hleft : OutState.left = left := funext fun x => by cases x <;> rfl
  have hentry : Message.bytes = entry := by
    funext m
    obtain ⟨number, cls, kind, storage, text, made, o | r⟩ := m
    · cases storage <;> cases o.subject <;> cases o.state <;> rfl
    · cases storage <;> cases r.kept <;> rfl
  have hstatus : s.gatewayBody = status := by
    simp only [State.gatewayBody, State.retrying, submissionBytes_eq, hcode, hleft, GwStats.bytes, EndCounts.bytes, status,
      ← List.append_assoc]
  refine ⟨?_, fun clear hc => ⟨poolStatus_badArg h hc, gatewayStatus_badArg h hc⟩,
    fun start => ⟨fun hs => hentry ▸ messageList_answers h hs, messageList_badArg h⟩,
    hstatus ▸ ⟨gatewayStatus_answers h, gatewayStatus_clears h⟩,
    fun start => ⟨fun hs => ⟨s.store.sortedEntries, mem_sortedEntries s.store, sortedEntries_sorted s.store,
      directoryEntryBytes_eq s.store ▸ archiveDirectory_answers h hs⟩, archiveDirectory_badArg h⟩, ?_⟩
  · intro p w now four held reserved body
    have hbody : s.poolBody = body := by
      simp only [State.poolBody, WaitCounters.bytes, PoolStats.bytes, PerClass.bytes, sessionCode_keySession, body, four,
        ← List.append_assoc]
      rfl
    exact hbody ▸ ⟨poolStatus_answers h, poolStatus_clears h⟩
  · intro commit
    have hcommit : s.commitBytes = commit := by
      rw [State.commitBytes, State.daySet, List.length_map]
      cases hjob : s.store.job <;> simp only [commit, hjob] <;> rfl
    exact hcommit ▸ storeStatus_answers h

end Sys2Proof.Machine
end
